-- ==== Sys2Proof/Word.lean ====
section
/-! DEFINITION. The character type of both serial paths, the counters that wrap, and the plainest
arithmetic and list updates the model uses. -/

namespace Sys2Proof

/-- A character of either serial path (R130): eight data bits. -/
abbrev Byte := BitVec 8

/-- The seconds counter and the store's generation counts: 32 bits, wrapping (00_scope, R123). -/
abbrev Word32 := BitVec 32

/-- An addition that stops at `limit` (R24, R47, R146, R160). -/
def satAdd (limit a b : Nat) : Nat := min limit (a + b)

/-- The list with its entry at position `i` changed by `f`; a position past the end changes nothing. -/
def updAt {α : Type} : List α → Nat → (α → α) → List α
  | [], _, _ => []
  | x :: xs, 0, f => f x :: xs
  | x :: xs, n + 1, f => x :: updAt xs n f

end Sys2Proof
end

