-- ==== Sys2Proof/Syntax.lean ====
section
/-! DEFINITION. The commands: one constructor for each row of spec/opcode_table.json. The table gives
its rows no fields; the operands are taken from the rules (NOTES.md, DESIGN CHOICE, log 5, 10, 11, 22, 23). -/

namespace Sys2Proof

/-- A character as a receiver samples it (R130, R160): the 7th, 8th and 9th samples of its ten bits.
Bit 0 is the start bit, bits 1 to 8 the data bits with the least significant first, bit 9 the stop bit. -/
structure RxChar where
  s7 : BitVec 10
  s8 : BitVec 10
  s9 : BitVec 10
deriving DecidableEq, Repr

/-- A service code as a request carries it (R186): a digit count and eight characters. -/
structure CodeArg where
  count : Nat
  chars : List Nat
deriving DecidableEq, Repr

/-- The commands of the part. -/
inductive Instr where
  /-- A break on the Controller Link (R160, R161); `noisy` is the number of noisy characters accepted
  since the receiver's last command, here and in the other receiver commands. -/
  | linkBreak (noisy : Nat)
  /-- The low time of the first start bit after a break, in units of 10 ns (R161). -/
  | rateDetection (low : Nat)
  | linkFramingError (noisy : Nat)
  | linkTruncatedFrame (noisy : Nat)
  /-- The second CRC character arrives; `chars` are the frame's characters from its kind on (R160). -/
  | linkFrameComplete (chars : List RxChar)
  | linkLost
  | replySent
  /-- A request of the given kind and payload whose kind the part does not know (R163). -/
  | unknownRequest (kind : Nat) (payload : List Byte)
  | status
  | fetchEvents
  | fetchEventsAgain
  /-- A CASH Vend for a two-digit selection code (R6). -/
  | vend (code : Nat)
  /-- An EXTERNAL Vend for a selection code and an amount (R10). -/
  | vendExternal (code amount : Nat)
  | returnCredit
  /-- Table number, index of the first record, record count, and the records' characters (R167). -/
  | loadTableSection (table first count : Nat) (records : List Byte)
  | readTableSection (table first count : Nat)
  /-- Slot address, kind, tag and payload (R144). -/
  | pass (slot kind tag : Nat) (payload : List Byte)
  | clearFaults (slot : Nat)
  | unlock (code : CodeArg)
  | lock
  | setCode (old new : CodeArg) (lockNow : Bool)
  | clearCode (code : CodeArg)
  | factoryClear
  /-- Unit code (0 SELECTION, 1 TRAY) and selection code or tray number (R179). -/
  | tagFirst (unit value : Nat)
  | tagLast (unit value : Nat)
  | untag (code : Nat)
  | applySetPrice (price : Nat)
  | applyInhibit
  | applyEnable
  | applyRestock
  | fillModeOn
  | fillModeOff
  | economyModeOn
  | economyModeOff
  | drain (tube coins : Nat)
  | clearAudit
  | settle
  | defrostNow
  | clearTubeFault (tube : Nat)
  | testSpiral (position : Nat)
  | homeSpiral (position : Nat)
  | releaseHold (zone : Nat)
  | restart
  | lineBreak (noisy : Nat)
  | lineFramingError (noisy : Nat)
  | lineTruncatedFrame (noisy : Nat)
  /-- The characters of a line frame from its address to its second CRC character (R132). -/
  | lineFrameComplete (chars : List RxChar)
  | contention (noisy : Nat)
  | endOfRequest (noisy : Nat)
  | replyWindowClose
  | lineIdle
  | roundStart
  | lineResetBreakEnd
  /-- Reads of one level sensor, 100 ms apart, `true` for covered; `full` names the full sensor (R37). -/
  | levelSensorChange (tube : Fin 6) (full : Bool) (reads : List Bool)
  | payoutGrant
  | pulseEnd
  | coinAtExitSensor
  | exitWindowClose
  | escrowUnresolved
  /-- The reads of a home probe, 1 ms apart, `true` for closed (R61). -/
  | homeProbe (reads : List Bool)
  | motorGrant
  /-- The row switch closes; `beamBroken` says whether the beam is interrupted at that moment (R78). -/
  | motorStart (beamBroken : Bool)
  | columnSwitchOpen
  /-- Reads of the home switch, 1 ms apart, `true` for closed (R73). -/
  | homeSwitchLeave (reads : List Bool)
  /-- The reads, and the time in ms from the leave to the accepted closing (R74, R77). -/
  | homeSwitchClose (reads : List Bool) (time : Nat)
  | leaveLimit
  | revolutionLimit
  /-- The motor current measurements in mA of the last 150 ms, 1 ms apart (R75). -/
  | jam (currents : List Nat)
  /-- The motor current in mA measured 200 ms after motor start (R76). -/
  | openMotor (current : Nat)
  /-- Reads of the drop beam, 1 ms apart, `true` for broken (R78). -/
  | drop (reads : List Bool)
  | beamInterruptionEnd (reads : List Bool)
  | dropWindowClose (reads : List Bool)
  /-- One sample of one sensor: its raw count (R91). -/
  | temperatureSample (sensor : Fin 3) (count : BitVec 12)
  | sensorFault (sensor : Fin 3) (count : BitVec 12)
  | sensorOk (sensor : Fin 3) (count : BitVec 12)
  | dutyCyclePhase (zone : Fin 2)
  | zoneHold (zone : Fin 2) (count : BitVec 12)
  | offTimerExpiry
  | compStartGrant
  | surgeWindowEnd
  | minimumRunTime
  /-- The evaporator sample whose tick finds the defrost interval reached (R105). -/
  | defrostInterval (count : BitVec 12)
  | heaterGrant
  /-- The evaporator sample that ends a defrost (R106). -/
  | defrostEnd (count : BitVec 12)
  | dripTimeEnd
  /-- Readings of the supply sense input, 1 ms apart, in tenths of a volt (R114). -/
  | supplySag (readings : List Nat)
  | supplyNormal (readings : List Nat)
  | supplyFail (readings : List Nat)
  | tableImageWriteDone
  | retainedImageWriteDone
  | powerRestored (readings : List Nat)
  | logicPowerUp
  | reset
  /-- Reads of the door switch, 10 ms apart, `true` for open (R173). -/
  | serviceDoor (reads : List Bool)
  | lockoutExpiry
  | lineBadLengthOrAddress (noisy : Nat)
  | linkLengthAbove96 (noisy : Nat)
  | secondsCounterTick
deriving DecidableEq, Repr

end Sys2Proof
end

