-- ==== Sys2Proof/Decode.lean ====
section
/-! DEFINITION. The command a word spells by the table's bits. No row of spec/opcode_table.json gives
bits ("n_rows_with_fixed": 0 in 98_reader.md), so no word spells a command. The characters of the two
serial paths are read by Machine/Operands.lean and Machine/Requests.lean. -/

namespace Sys2Proof

/-- The command that the word `w` of `nbits` bits spells: none, as no row gives bits. -/
def decodeTableWord (_nbits _w : Nat) : Option Instr := none

end Sys2Proof
end

