-- ==== Sys2Proof/Config.lean ====
section
/-! DEFINITION. The fixed figures of the spec that no table holds, each with its rule. -/

namespace Sys2Proof.Config

/-- `return_due` stops here (R15); the largest amount of the spec. -/
def maxAmount : Nat := 65535
/-- An audit total stops here (R24). -/
def maxTotal : Nat := 281474976710655
/-- 16-bit counts stop here (R47, R58, R146, R160). -/
def maxCount16 : Nat := 65535
/-- The run time since the last defrost stops here (R105). -/
def maxRunSince : Nat := 4294967295
/-- The Event Queue holds this many records (R170). -/
def eventCapacity : Nat := 32
/-- The dropped count stops here (R170). -/
def maxDropped : Nat := 255
/-- Each of the two queues of the Line Master holds this many entries (R138, R144). -/
def lineQueueSize : Nat := 4
/-- Most probes of one EXACT evaluation (R43). -/
def maxProbes : Nat := 250
/-- Most coins of one tube that the backoff holds back (R41). -/
def maxBackoff : Nat := 4
/-- A good sample lies from `goodLow` to `goodHigh` (R91). -/
def goodLow : Nat := 16
def goodHigh : Nat := 4079
/-- Temperatures lie from `tempLow` to `tempHigh` tenths of a degree (R92, R94). -/
def tempLow : Int := -400
def tempHigh : Int := 800
/-- The character that stands in DRAIN_DONE for a number of coins above 255: a free value (R188, DESIGN CHOICE, log 32). -/
opaque coinsAbove255 : Nat → Nat
/-- The 16-bit check value over the contents of an image: the spec names no algorithm, so it is a free value of the
contents (R122, R123; DESIGN CHOICE, log 16). -/
opaque storeCheck {α : Type} (contents : α) : BitVec 16
/-- A reply's payload holds at most this many characters (R188). -/
def replyPayloadMax : Nat := 192

end Sys2Proof.Config
end

