-- ==== Sys2Proof/Machine/Tables.lean ====
section
/-! DEFINITION. The loadable tables (R167): their records, their defaults, and the durations they hold.
`Tables` is everything the table image keeps (R123). -/

namespace Sys2Proof.Machine

/-- The vend policy (R2): what happens to the remaining `credit` after a successful CASH vend. -/
inductive Policy where
  | single
  | multi
deriving DecidableEq, Repr

/-- The six money parameters (R2). -/
structure MoneyParams where
  ceiling : Nat
  policy : Policy
  exactRequired : Bool
  /-- Price granularity `g`. -/
  granularity : Nat
  /-- Probe ceiling `C`. -/
  probeCeiling : Nat
  /-- The exact-change note limit. -/
  noteLimit : Nat
deriving DecidableEq, Repr

/-- A coin table record (R28); `tube = none` makes a cashbox type. -/
structure CoinRec where
  value : Nat
  accept : Bool
  tube : Option Nat
deriving DecidableEq, Repr

/-- A tube table record (R29). -/
structure TubeRec where
  coinType : Nat
  enabled : Bool
  capacity : Nat
  lowMark : Nat
  reserve : Nat
deriving DecidableEq, Repr

/-- A note table record (R151). -/
structure NoteRec where
  value : Nat
  accept : Bool
deriving DecidableEq, Repr

/-- The loaded fields of a selection record (R55). -/
structure SelLoaded where
  price : Nat
  zone : Nat
  perishable : Bool
  /-- Service mode: `true` for FIRST, `false` for ROTATE. -/
  firstMode : Bool
  spirals : List Nat
deriving DecidableEq, Repr

/-- The spiral drive parameters (R69). Durations are held as their count N. -/
structure DriveParams where
  dropConfirm : Bool
  autoNext : Bool
  extraRevs : Nat
  revLimitN : Nat
  dropTailN : Nat
  jamThreshold : Nat
deriving DecidableEq, Repr

/-- The loaded fields of a zone record (R97). -/
structure ZoneParams where
  setpoint : Int
  differential : Nat
  holdLimit : Int
  holdTimeN : Nat
  economyOffset : Nat
deriving DecidableEq, Repr

/-- The refrigeration parameters (R101). -/
structure RefrigParams where
  minOffN : Nat
  minRunN : Nat
  surgeN : Nat
  defrostIntervalN : Nat
  defrostEndTemp : Int
  maxDefrostN : Nat
  dripN : Nat
deriving DecidableEq, Repr

/-- The load table (R116): the budget B and the five ratings. -/
structure LoadTable where
  budget : Nat
  payout : Nat
  motor : Nat
  compStart : Nat
  compRun : Nat
  heater : Nat
deriving DecidableEq, Repr

/-- The kind of a slot (R141). -/
inductive SlotKind where
  | unused
  | coinValidator
  | noteReader
  | other
deriving DecidableEq, Repr

/-- Every loadable table. -/
structure Tables where
  money : MoneyParams
  coins : List CoinRec
  tubes : List TubeRec
  notes : List NoteRec
  sels : List SelLoaded
  drive : DriveParams
  curve : List Int
  zones : List ZoneParams
  refrig : RefrigParams
  loads : LoadTable
  slotKinds : List SlotKind
  pollN : Nat
  silenceN : Nat
deriving DecidableEq, Repr

/-- The default money parameters (R2). -/
def defaultMoney : MoneyParams :=
  { ceiling := 5000, policy := .single, exactRequired := true, granularity := 10,
    probeCeiling := 1000, noteLimit := 1000 }

/-- The default coin table (R28). -/
def defaultCoins : List CoinRec :=
  (List.range 16).map fun k => { value := 1, accept := false, tube := if k < 6 then some k else none }

/-- The default tube table (R29). -/
def defaultTubes : List TubeRec :=
  (List.range 6).map fun t =>
    { coinType := t, enabled := true, capacity := 100, lowMark := 0, reserve := 0 }

/-- The default note table (R151). -/
def defaultNotes : List NoteRec := List.replicate 8 { value := 1, accept := false }

/-- The loaded fields of the default selection table (R64). -/
def defaultSels : List SelLoaded :=
  (List.range 64).map fun i =>
    { price := 0, zone := 0, perishable := false, firstMode := false, spirals := [i] }

/-- The default spiral drive parameters (R69). -/
def defaultDrive : DriveParams :=
  { dropConfirm := true, autoNext := true, extraRevs := 2, revLimitN := 39, dropTailN := 14,
    jamThreshold := 2200 }

/-- The default temperature curve (R92). -/
def defaultCurve : List Int :=
  [800, 560, 430, 340, 270, 210, 152, 88, 30, -25, -80, -140, -205, -275, -350, -400, -400]

/-- The default zone parameters (R97). -/
def defaultZones : List ZoneParams :=
  [{ setpoint := 30, differential := 30, holdLimit := 70, holdTimeN := 29, economyOffset := 20 },
   { setpoint := 100, differential := 40, holdLimit := 150, holdTimeN := 29, economyOffset := 20 }]

/-- The default refrigeration parameters (R101). -/
def defaultRefrig : RefrigParams :=
  { minOffN := 17, minRunN := 11, surgeN := 19, defrostIntervalN := 35, defrostEndTemp := 80,
    maxDefrostN := 29, dripN := 2 }

/-- The default load table (R116). -/
def defaultLoads : LoadTable :=
  { budget := 36, payout := 6, motor := 10, compStart := 30, compRun := 12, heater := 15 }

/-- The default slot table (R141). -/
def defaultSlotKinds : List SlotKind :=
  [.coinValidator, .noteReader, .unused, .unused, .unused, .unused, .unused, .unused]

/-- The tables of a part whose store holds none (R127). -/
def defaultTables : Tables :=
  { money := defaultMoney, coins := defaultCoins, tubes := defaultTubes, notes := defaultNotes,
    sels := defaultSels, drive := defaultDrive, curve := defaultCurve, zones := defaultZones,
    refrig := defaultRefrig, loads := defaultLoads, slotKinds := defaultSlotKinds, pollN := 9,
    silenceN := 9 }

/-- The duration of a count N with its unit (00_scope, "Configured durations"). -/
def duration (n unit : Nat) : Nat := (n + 1) * unit

/-- The compressor's minimum off time in ms (R101). -/
def RefrigParams.minOffMs (r : RefrigParams) : Nat := duration r.minOffN 10000
/-- The compressor's minimum run time in ms (R101). -/
def RefrigParams.minRunMs (r : RefrigParams) : Nat := duration r.minRunN 10000
/-- The surge window in ms (R101). -/
def RefrigParams.surgeMs (r : RefrigParams) : Nat := duration r.surgeN 100
/-- The drip time in ms (R101). -/
def RefrigParams.dripMs (r : RefrigParams) : Nat := duration r.dripN 60000
/-- The defrost interval in seconds of run time (R101). -/
def RefrigParams.defrostInterval (r : RefrigParams) : Nat := duration r.defrostIntervalN 600
/-- The maximum defrost time in seconds of heating (R101). -/
def RefrigParams.maxDefrost (r : RefrigParams) : Nat := duration r.maxDefrostN 60
/-- The hold time of a zone in seconds (R97). -/
def ZoneParams.holdTime (z : ZoneParams) : Nat := duration z.holdTimeN 60
/-- The revolution limit in ms (R69). -/
def DriveParams.revLimitMs (p : DriveParams) : Nat := duration p.revLimitN 100

/-- Records read by index; the fallback is used only past the end of a table. -/
def Tables.coin (t : Tables) (k : Nat) : CoinRec := t.coins.getD k { value := 1, accept := false, tube := none }
def Tables.tube (t : Tables) (n : Nat) : TubeRec :=
  t.tubes.getD n { coinType := n, enabled := false, capacity := 1, lowMark := 0, reserve := 0 }
def Tables.note (t : Tables) (k : Nat) : NoteRec := t.notes.getD k { value := 1, accept := false }
def Tables.sel (t : Tables) (i : Nat) : SelLoaded :=
  t.sels.getD i { price := 0, zone := 0, perishable := false, firstMode := false, spirals := [] }
def Tables.zone (t : Tables) (z : Nat) : ZoneParams :=
  t.zones.getD z { setpoint := 30, differential := 30, holdLimit := 70, holdTimeN := 29, economyOffset := 20 }
def Tables.point (t : Tables) (k : Nat) : Int := t.curve.getD k 0
/-- The kind of the slot at address `a`, 1 to 8 (R141). -/
def Tables.slotKind (t : Tables) (a : Nat) : SlotKind := t.slotKinds.getD (a - 1) .unused
/-- The value of tube `n`: that of the type it holds (R29). -/
def Tables.tubeValue (t : Tables) (n : Nat) : Nat := (t.coin (t.tube n).coinType).value

end Sys2Proof.Machine
end

