-- ==== Sys2Proof/Machine/State.lean ====
section
/-! DEFINITION. The state of the part: every record, register, count, mode and output the spec gives it,
as plain data, block by block (INVENTORY.md, "State"), and the queue of waiting commands. Amounts and counts
are naturals, what wraps or is laid out as bits is a bit vector (DESIGN CHOICE, log 29). -/

namespace Sys2Proof.Machine

/-- The machine stops on no command: the spec gives every command an effect in every state, or none. -/
inductive Fault where
deriving DecidableEq, Repr

/-- Why a command has no meaning. -/
inductive Refusal where
  /-- Raised by `exec` alone, for a row of the opcode table whose meaning is not written. Safe. -/
  | notModelled (mnemonic : String)
deriving DecidableEq, Repr

/-! ### Start, store and retained data -/

/-- The cause of a start (R128). -/
inductive Cause where
  | cold
  | powerRestored
  | warm
deriving DecidableEq, Repr

/-- Where the part stands between a supply failure or reset and normal operation (R121, R124, R127, R128). -/
inductive Phase where
  /-- Power-fail steps 1 to 4; `warm` when a WARM start follows them (R125, R126). -/
  | saving (warm : Bool)
  /-- Step 5 of the power-fail sequence: waiting for the supply (R124). -/
  | failWait
  /-- Start steps 1 and 2: the stored state is being applied (R127, R129). -/
  | restoring (cause : Cause)
  /-- Start steps 3 and 4: home probes and level sensors (R127). -/
  | probing (cause : Cause)
  /-- Start step 6: the first sample of each temperature sensor is being taken (R128). -/
  | sampling (cause : Cause)
  /-- Start step 7: the line-reset break is being sent (R128, R134). -/
  | lineReset (cause : Cause)
  /-- The start is complete. -/
  | run
deriving DecidableEq, Repr

/-- The sale state (R4). -/
inductive SaleState where
  | idle
  | opened
  | vend
  | payout
deriving DecidableEq, Repr

/-- The eight audit totals (R24). -/
structure Audit where
  cashIn : Nat
  cashSales : Nat
  externalSales : Nat
  changePaid : Nat
  excessPaid : Nat
  writtenOff : Nat
  filled : Nat
  drained : Nat
deriving DecidableEq, Repr

/-- A tube's condition (R30). -/
inductive TubeCond where
  | ok
  | faulted
  | disabled
deriving DecidableEq, Repr

/-- A selection's state (R56). -/
inductive SelState where
  | enabled
  | inhibited
  | soldOut
deriving DecidableEq, Repr

/-- A spiral's state (R59). -/
inductive SpiralState where
  | ready
  | empty
  | jammed
  | openMotor
  | stalled
  | notHome
  | unassigned
deriving DecidableEq, Repr

/-- The contents of the retained image (R122). -/
structure Retained where
  credit : Nat
  returnDue : Nat
  sale : SaleState
  audit : Audit
  sales : List Nat
  tubeCounts : List Nat
  tubeConds : List TubeCond
  selStates : List SelState
  selNexts : List Nat
  spiralStates : List SpiralState
  holds : List Bool
  runSince : Nat
  code : Option (List Nat)
deriving DecidableEq, Repr

/-- A copy of an image: its generation count, its contents and the 16-bit check value kept with them (R122, R123). -/
structure StoreCopy (α : Type) where
  generation : Word32
  contents : α
  check : BitVec 16
deriving DecidableEq, Repr

/-- A write under way: whether it goes to the first copy, and what it leaves there (R123). -/
structure StoreWrite (α : Type) where
  first : Bool
  copy : StoreCopy α
deriving DecidableEq, Repr

/-- The Retention Store (R123). A copy is `none` when nothing that can be valid stands there: it was never written, or
a write of it was cut off, or it was invalidated. A copy that stands is valid while its check value matches. -/
structure Store where
  tableA : Option (StoreCopy Tables)
  tableB : Option (StoreCopy Tables)
  retainedA : Option (StoreCopy Retained)
  retainedB : Option (StoreCopy Retained)
  tableWriting : Option (StoreWrite Tables)
  tableWaiting : Bool
  retainedWriting : Option (StoreWrite Retained)
deriving DecidableEq, Repr

/-! ### Credit Unit -/

/-- How the vend in flight is funded (R6, R10). -/
inductive Funding where
  | cash
  | external (amount : Nat)
deriving DecidableEq, Repr

/-- The decision on a note in escrow (R18). -/
inductive Decision where
  | stack
  | giveBack
deriving DecidableEq, Repr

/-- The escrow record (R17); its 5 s expiry timer runs while the record exists. -/
structure Escrow where
  noteType : Nat
  decision : Decision
  time : Word32
deriving DecidableEq, Repr

/-- The Credit Unit's records but the totals (R1, R4, R13, R16, R17). -/
structure CreditUnit where
  credit : Nat
  vendHold : Nat
  escrowReserve : Nat
  returnDue : Nat
  sale : SaleState
  inFlight : Option Funding
  pendingReturn : Bool
  escrow : Option Escrow
  noteMask : BitVec 8
deriving DecidableEq, Repr

/-! ### Change Unit -/

/-- A sensed input accepted after a number of agreeing reads (R37, R73, R173): the accepted state, or
none yet, and the value and length of the present run of agreeing reads. -/
structure Debounce where
  accepted : Option Bool
  runValue : Bool
  runLen : Nat
deriving DecidableEq, Repr

/-- A tube's state and its two level sensors, `true` for covered (R30, R37). -/
structure TubeState where
  count : Nat
  cond : TubeCond
  full : Debounce
  low : Debounce
deriving DecidableEq, Repr

/-- The kind of a payout (R44); a DRAIN names its tube and the coins still to pay. -/
inductive PayoutKind where
  | refund
  | drain (tube left : Nat)
deriving DecidableEq, Repr

/-- The payout record (R44). -/
structure Payout where
  kind : PayoutKind
  /-- The grant is HELD, and the Change Unit has been told. -/
  held : Bool
  /-- The remaining take of each tube, in plan order (R39). -/
  plan : List (Nat × Nat)
  /-- The tube of the pulse whose exit window is open. -/
  pulsed : Option Nat
  /-- The tube whose solenoid is energised (R45). -/
  energised : Option Nat
  /-- Coins seen in the open window. -/
  windowCoins : Nat
  /-- The pulse of the open window is a retry (R48). -/
  isRetry : Bool
  /-- The next pulse is the retry of a missed coin, for this tube. -/
  retry : Option Nat
  replan : Bool
  /-- The value of the coins seen in this payout, and their number. -/
  paid : Nat
  coins : Nat
deriving DecidableEq, Repr

/-- The Change Unit's state (R30, R35, R36, R43, R44, R47, R50). -/
structure ChangeUnit where
  tubes : List TubeState
  exact : Bool
  payout : Option Payout
  shortWait : Bool
  stray : Nat
  accept : BitVec 16
  route : BitVec 16
deriving DecidableEq, Repr

/-! ### Spiral Drive -/

/-- The kept fields of a selection record (R55). -/
structure SelKept where
  state : SelState
  next : Nat
  sales : Nat
deriving DecidableEq, Repr

/-- A spiral record (R59), and whether its home probe is pending (R61). -/
structure SpiralRec where
  state : SpiralState
  lastRev : Nat
  slow : Bool
  homeClosed : Bool
  probePending : Bool
deriving DecidableEq, Repr

/-- The vend operation record (R70). `told` says that the MOTOR grant has been given. -/
structure VendOp where
  sel : Nat
  spiral : Nat
  position : Nat
  revolutions : Nat
  drop : Bool
  tried : Bool
  params : DriveParams
  told : Bool
deriving DecidableEq, Repr

/-- A Test Spiral or Home Spiral operation (R86). -/
structure ServiceOp where
  home : Bool
  spiral : Nat
  params : DriveParams
  told : Bool
deriving DecidableEq, Repr

/-- How a revolution fails (R73 to R76). -/
inductive Failure where
  | jammed
  | openMotor
  | stalledLeave
  | stalledReturn
deriving DecidableEq, Repr

/-- The stage of a revolution: grant held and switches still closing (R72), motor energised, drop tail (R79). -/
inductive RevStage where
  | starting
  | turning
  | tail
deriving DecidableEq, Repr

/-- The revolution or Home Spiral run under way (R72 to R79). -/
structure Rev where
  spiral : Nat
  stage : RevStage
  /-- The leave has happened (R73). -/
  leaveDone : Bool
  /-- The home switch as read during the revolution, `true` for closed. -/
  switch : Debounce
  /-- The drop window is open (R79). -/
  window : Bool
  /-- The beam has been clear since the window opened, so an interruption counts (R78). -/
  armed : Bool
  /-- Reads of the interruption in progress that found the beam broken (R78). -/
  broken : Nat
  /-- The tail has passed and an interruption of less than 2 ms holds the window open (R78). -/
  heldOpen : Bool
  /-- A drop was confirmed in this revolution. -/
  drop : Bool
  failure : Option Failure
  /-- The revolution time of a completed revolution (R77). -/
  time : Nat
  /-- The open-motor check was made (R76). -/
  openChecked : Bool
deriving DecidableEq, Repr

/-- The operations of the Spiral Drive, the matrix switches and the home probe under way (R61, R70, R72). -/
structure Drive where
  vend : Option VendOp
  service : Option ServiceOp
  rev : Option Rev
  column : Option Nat
  row : Option Nat
  probing : Option Nat
deriving DecidableEq, Repr

/-! ### Refrigeration Controller -/

/-- A sensor record (R91, R94, R95, R96). `sampled`: its first sample since the start was taken. -/
structure TempSensor where
  raw : Nat
  temp : Option Int
  faulted : Bool
  badRun : Nat
  goodRun : Nat
  sampled : Bool
deriving DecidableEq, Repr

/-- The kept fields of a zone record (R97); `duty` is the phase of a running duty cycle (R99). -/
structure ZoneState where
  demand : Bool
  holdTimer : Nat
  latched : Bool
  duty : Option Bool
deriving DecidableEq, Repr

/-- The compressor's state (section 5.4). -/
inductive CompState where
  | lockedOff
  | idle
  | awaitGrant
  | starting
  | running
  | defrost
  | drip
deriving DecidableEq, Repr

/-- The run timer (R103): not running, running toward the minimum run time it was started with, or past it. -/
inductive RunTimer where
  | off
  | running (ms : Nat)
  | passed
deriving DecidableEq, Repr

/-- The Refrigeration Controller's records and outputs. A timer that runs holds the length in ms it was
started with (R101). -/
structure Cold where
  sensors : List TempSensor
  zones : List ZoneState
  state : CompState
  offTimer : Option Nat
  runTimer : RunTimer
  surgeTimer : Option Nat
  dripTimer : Option Nat
  pendingDefrost : Bool
  runSince : Nat
  heaterOn : Nat
  relay : Bool
  heater : Bool
  damper : Bool
deriving DecidableEq, Repr

/-! ### Supply Monitor and Load Arbiter -/

/-- The classification of the supply (R114). -/
inductive SupplyState where
  | normal
  | sag
  | fail
deriving DecidableEq, Repr

/-- The five loads (R117). -/
inductive Load where
  | payout
  | motor
  | compStart
  | compRun
  | heater
deriving DecidableEq, Repr

/-- A set of loads (R117). -/
structure LoadSet where
  payout : Bool
  motor : Bool
  compStart : Bool
  compRun : Bool
  heater : Bool
deriving DecidableEq, Repr

/-- The supply record, the grant set and the waiting set (R114, R117). -/
structure Supply where
  state : SupplyState
  reading : Nat
  low : Nat
  fail : Nat
  good : Nat
  granted : LoadSet
  waiting : LoadSet
deriving DecidableEq, Repr

/-! ### Line Master -/

/-- The state of a slot (R141). -/
inductive SlotState where
  | absent
  | present
  | silent
deriving DecidableEq, Repr

/-- The fields of a slot record that the part keeps (R141, R150). -/
structure Slot where
  state : SlotState
  missed : Nat
  latch : Option Nat
  noise : Nat
  contention : Nat
  pollFlag : Bool
deriving DecidableEq, Repr

/-- The two peripherals with masks of their own (R153). -/
inductive Periph where
  | validator
  | reader
deriving DecidableEq, Repr

/-- The masks of a MASKS command (R152): accept and route mask, or the note mask. -/
inductive Masks where
  | coin (accept route : BitVec 16)
  | note (mask : BitVec 8)
deriving DecidableEq, Repr

/-- The contents of an internal command; `tracked` when an ESCROW has a record of its own (R156). -/
inductive CmdBody where
  | masks (m : Masks)
  | escrow (d : Decision) (noteType : Nat) (tracked : Bool)
deriving DecidableEq, Repr

/-- An entry of the internal command queue (R138). -/
structure Cmd where
  slot : Nat
  body : CmdBody
  mark : Bool
  inFlight : Bool
deriving DecidableEq, Repr

/-- An entry of the pass-through queue (R144). -/
structure PassEntry where
  slot : Nat
  kind : Nat
  tag : Nat
  payload : List Byte
  mark : Bool
  inFlight : Bool
deriving DecidableEq, Repr

/-- A mask record (R153); `held = none` is UNKNOWN. -/
structure MaskRec where
  current : Masks
  held : Option Masks
  push : Bool
deriving DecidableEq, Repr

/-- What a transaction carries (R136). -/
inductive TransBody where
  | poll
  | cmd (body : CmdBody)
  | pass (entry : PassEntry)
deriving DecidableEq, Repr

/-- The stage of a transaction (R135, R136): sending, reply window open, reply begun. -/
inductive TransStage where
  | sending
  | window
  | reply
deriving DecidableEq, Repr

/-- The transaction in flight (R136); `stale` when its slot's kind was changed meanwhile (R141);
`frame` holds the characters sent after the break. -/
structure Trans where
  slot : Nat
  body : TransBody
  stage : TransStage
  stale : Bool
  frame : List Byte
deriving DecidableEq, Repr

/-- The Line Master's state (chapter 7, R153, R156). -/
structure Line where
  assembling : Bool
  idle : Bool
  driver : Bool
  trans : Option Trans
  queue : List Cmd
  pass : List PassEntry
  round : BitVec 4
  list : List Nat
  roundPending : Bool
  slots : List Slot
  noisy : Nat
  framing : Nat
  crc : Nat
  truncated : Nat
  unsolicited : Nat
  dropped : Nat
  validator : MaskRec
  reader : MaskRec
  escrowBack : Option (Decision × Nat)
deriving DecidableEq, Repr

/-! ### Link Port and Event Queue -/

/-- The five rates of the Controller Link (R161). -/
inductive Rate where
  | b9600
  | b19200
  | b38400
  | b57600
  | b115200
deriving DecidableEq, Repr

/-- A request as its frame carries it (R187). Coded fields hold the character received, whatever it is. -/
inductive Request where
  /-- A kind that is not a request kind of the part (R163, check 1). -/
  | unknown (kind : Nat)
  /-- A known kind whose payload has not the length of its layout (R163, check 2). -/
  | badLength (kind : Nat)
  | status
  | fetch (again : Nat)
  | vend (code funding amount : Nat)
  | returnCredit
  | load (table first count : Nat) (records : List Byte)
  | read (table first count : Nat)
  | pass (slot kind tag : Nat) (payload : List Byte)
  | clearFaults (slot : Nat)
  | unlock (code : CodeArg)
  | lock
  | setCode (old new : CodeArg) (lockNow : Nat)
  | clearCode (code : CodeArg)
  | factoryClear
  | tagFirst (unit value : Nat)
  | tagLast (unit value : Nat)
  | untag (code : Nat)
  | apply (action price : Nat)
  | fillMode (onOff : Nat)
  | economyMode (onOff : Nat)
  | drain (tube coins : Nat)
  | clearAudit
  | settle
  | defrostNow
  | clearTubeFault (tube : Nat)
  | testSpiral (position : Nat)
  | homeSpiral (position : Nat)
  | releaseHold (zone : Nat)
  | restart
deriving DecidableEq, Repr

/-- The outcome at the head of a reply (R164). -/
inductive ReplyCode where
  | done
  | started
  | queued
  | busy
  | locked
  | lockout
  | codeMismatch
  | badSequence
  | badArgument
  | noCredit
  | noChange
  | unavailable
  | held
  | doorOpen
  | doorClosed
  | queueFull
  | unknownRequest
deriving DecidableEq, Repr

/-- A reply being sent (R164): its kind, outcome, condition set and the owner's payload; `frame` holds the
characters sent after the break. -/
structure Reply where
  kind : Nat
  outcome : ReplyCode
  conditions : BitVec 8
  payload : List Byte
  frame : List Byte
deriving DecidableEq, Repr

/-- The Link Port's state (chapter 9). -/
structure Link where
  rate : Option Rate
  assembling : Bool
  detecting : Bool
  waiting : Option Request
  answer : Option Reply
  /-- The answer in progress is the reply to an accepted Restart (R126). -/
  restarting : Bool
  up : Bool
  lostAt : Word32
  lostFrame : Bool
  linkWasLost : Bool
  tagReset : Bool
  crc : Nat
  framing : Nat
  truncated : Nat
  lost : Nat
  rateFail : Nat
  noisy : Nat
deriving DecidableEq, Repr

/-- The event kinds (R188). -/
inductive EventKind where
  | coinCredited | overpay | writtenOff | vendDone | vendFailed | noteStacked | noteReturned
  | escrowUnresolved | coinRejected | noteRejected
  | payoutDone | payoutShort | drainDone | tubeCorrected | tubeFault | exactOn | exactOff
  | coinFilled | reportUnknown
  | spiralSlow | spiralFault | spiralEmpty | selectionSoldOut | spiralTestDone | spiralHomeDone
  | sensorFault | sensorOk | defrostBegin | defrostEnd | zoneHold | holdReleased
  | supplySag | supplyNormal | loadShed | start
  | peripheralFound | peripheralLost | peripheralFault | passReply | linkRestored
  | lockout | serviceDoor | modeEnded
deriving DecidableEq, Repr

/-- An event record (R170). -/
structure Event where
  kind : EventKind
  time : Word32
  subject : Option Nat
  value : Option Word32
  payload : List Byte
deriving DecidableEq, Repr

/-- The Event Queue and the Link Port's last batch (R170, R171). -/
structure Events where
  queue : List Event
  dropped : Nat
  lastBatch : List Event
  lastDropped : Nat
deriving DecidableEq, Repr

/-! ### Service Lock -/

/-- The lock state (R174). -/
inductive LockState where
  | opened
  | locked
  | unlocked
deriving DecidableEq, Repr

/-- The unit of a tagged range (R179). -/
inductive TagUnit where
  | selection
  | tray
deriving DecidableEq, Repr

/-- The tag sequence record (R179). -/
inductive TagRec where
  | empty
  | firstSet (unit : TagUnit) (first : Nat)
  | rangeSet (unit : TagUnit) (first last : Nat) (untagged : List Nat)
deriving DecidableEq, Repr

/-- The Service Lock's state (chapter 10). `door` is `true` for OPEN. -/
structure ServiceLock where
  code : Option (List Nat)
  state : LockState
  failures : Nat
  lockout : Bool
  door : Debounce
  tag : TagRec
  fill : Bool
  economy : Bool
deriving DecidableEq, Repr

/-! ### The state of the part -/

/-- The whole state; `pending` is the queue of waiting commands (DESIGN CHOICE, log 1). -/
structure State where
  pending : List Instr
  phase : Phase
  seconds : Word32
  tables : Tables
  storeDefaults : Bool
  store : Store
  credit : CreditUnit
  audit : Audit
  change : ChangeUnit
  sels : List SelKept
  spirals : List SpiralRec
  drive : Drive
  cold : Cold
  supply : Supply
  line : Line
  link : Link
  events : Events
  lock : ServiceLock
deriving DecidableEq, Repr

/-! ### The state right after logic power-up (R124, R115; DESIGN CHOICE, log 2) -/

/-- An input with no accepted state and no read (R37, R173). -/
def Debounce.unread : Debounce := { accepted := none, runValue := false, runLen := 0 }

def LoadSet.none : LoadSet :=
  { payout := false, motor := false, compStart := false, compRun := false, heater := false }

def Audit.zero : Audit :=
  { cashIn := 0, cashSales := 0, externalSales := 0, changePaid := 0, excessPaid := 0,
    writtenOff := 0, filled := 0, drained := 0 }

def CreditUnit.initial : CreditUnit :=
  { credit := 0, vendHold := 0, escrowReserve := 0, returnDue := 0, sale := .idle, inFlight := none,
    pendingReturn := false, escrow := none, noteMask := 0 }

def TubeState.initial : TubeState :=
  { count := 0, cond := .ok, full := .unread, low := .unread }

def ChangeUnit.initial : ChangeUnit :=
  { tubes := List.replicate 6 TubeState.initial, exact := false, payout := none, shortWait := false,
    stray := 0, accept := 0, route := 0 }

/-- The kept fields of the default selection record (R64). -/
def SelKept.default : SelKept := { state := .inhibited, next := 0, sales := 0 }

def SpiralRec.initial : SpiralRec :=
  { state := .notHome, lastRev := 0, slow := false, homeClosed := false, probePending := false }

def Drive.initial : Drive :=
  { vend := none, service := none, rev := none, column := none, row := none, probing := none }

def TempSensor.initial : TempSensor :=
  { raw := 0, temp := none, faulted := false, badRun := 0, goodRun := 0, sampled := false }

def ZoneState.initial : ZoneState := { demand := false, holdTimer := 0, latched := false, duty := none }

def Cold.initial : Cold :=
  { sensors := List.replicate 3 TempSensor.initial, zones := List.replicate 2 ZoneState.initial,
    state := .lockedOff, offTimer := none, runTimer := .off, surgeTimer := none, dripTimer := none,
    pendingDefrost := false, runSince := 0, heaterOn := 0, relay := false, heater := false,
    damper := false }

/-- The supply record at logic power-up (R115). -/
def Supply.powerUp : Supply :=
  { state := .fail, reading := 0, low := 0, fail := 0, good := 0, granted := .none, waiting := .none }

def Slot.initial : Slot :=
  { state := .absent, missed := 0, latch := none, noise := 0, contention := 0, pollFlag := false }

/-- The Line Master at a start (R146, R159). An UNUSED slot is ABSENT like the others (DESIGN CHOICE, log 47). -/
def Line.initial : Line :=
  { assembling := false, idle := false, driver := false, trans := none, queue := [], pass := [],
    round := 15, list := [], roundPending := false, slots := List.replicate 8 Slot.initial,
    noisy := 0, framing := 0, crc := 0, truncated := 0, unsolicited := 0, dropped := 0,
    validator := { current := .coin 0 0, held := none, push := false },
    reader := { current := .note 0, held := none, push := false }, escrowBack := none }

def Link.initial : Link :=
  { rate := none, assembling := false, detecting := false, waiting := none, answer := none,
    restarting := false, up := true, lostAt := 0, lostFrame := false, linkWasLost := false,
    tagReset := false, crc := 0, framing := 0, truncated := 0, lost := 0, rateFail := 0, noisy := 0 }

def Events.initial : Events := { queue := [], dropped := 0, lastBatch := [], lastDropped := 0 }

def ServiceLock.initial : ServiceLock :=
  { code := none, state := .opened, failures := 0, lockout := false, door := .unread, tag := .empty,
    fill := false, economy := false }

/-- A store that was never written (R124). -/
def Store.blank : Store :=
  { tableA := none, tableB := none, retainedA := none, retainedB := none, tableWriting := none,
    tableWaiting := false, retainedWriting := none }

/-- The part right after logic power-up, in the FAIL wait (R124), with a store never written. -/
def State.reset : State :=
  { pending := [], phase := .failWait, seconds := 0, tables := defaultTables, storeDefaults := true,
    store := .blank, credit := .initial, audit := .zero, change := .initial,
    sels := List.replicate 64 SelKept.default, spirals := List.replicate 64 SpiralRec.initial,
    drive := .initial, cold := .initial, supply := .powerUp, line := .initial, link := .initial,
    events := .initial, lock := .initial }

end Sys2Proof.Machine
end

