-- ==== Sys2Proof/Machine/Operands.lean ====
section
/-! DEFINITION. How operands are read: characters from their samples (R130), the CRC (R133), reads of
a sensed input (R37, R61, R73, R173), the drop beam (R78), selection and service codes (R186), and
multi-character fields (R186). -/

namespace Sys2Proof.Machine

/-! ### Characters (R130, R160) -/

/-- The value of each of the ten bits: the majority of its three samples (R130). -/
def majority (c : RxChar) : BitVec 10 := (c.s7 &&& c.s8) ||| (c.s7 &&& c.s9) ||| (c.s8 &&& c.s9)

/-- A start bit whose majority is high is a glitch: no character is taken (R130). -/
def isGlitch (c : RxChar) : Bool := (majority c).getLsbD 0

/-- The stop bit has a low majority (R131). -/
def stopLow (c : RxChar) : Bool := !(majority c).getLsbD 9

/-- Some bit's three samples do not all agree (R130). -/
def isNoisy (c : RxChar) : Bool := !(c.s7 == c.s8 && c.s8 == c.s9)

/-- The eight data bits, least significant first after the start bit (R130). -/
def charValue (c : RxChar) : Byte := (majority c).extractLsb' 1 8

/-- The characters taken from what was received (R130): glitches are no characters. -/
def takenChars (cs : List RxChar) : List RxChar := cs.filter fun c => !isGlitch c

/-- How many of the characters taken are noisy (R130). -/
def noisyCount (cs : List RxChar) : Nat := (takenChars cs).countP isNoisy

/-- How the characters of a frame that is not complete leave its reception: ended at a header character out of
range, ended at a stop bit that reads low, or going on. The first two hold the noisy characters accepted. -/
inductive CutShort where
  | badHeader (noisy : Nat)
  | framing (noisy : Nat)
  | unfinished
deriving DecidableEq, Repr

/-- How a frame ends before it is complete (R131, R132, R160): `bad` gives the place of a header character out
of range among those taken, and `size` the number of characters of the whole frame once the header says it. -/
def cutShort (bad size : List Byte → Option Nat) (cs : List RxChar) : CutShort :=
  let taken := takenChars cs
  let sound := taken.takeWhile fun c => !stopLow c
  let bs := sound.map charValue
  match bad bs with
  | some n => .badHeader (noisyCount (sound.take n))
  | none =>
    let going : Bool := match size bs with
      | some n => decide (bs.length < n)
      | none => true
    if decide (sound.length < taken.length) && going then .framing (noisyCount sound) else .unfinished

/-- A character sent and received cleanly, for writing frames out. -/
def cleanChar (b : Byte) : RxChar :=
  let w : BitVec 10 := ((b.setWidth 10) <<< 1) ||| 0x200#10
  { s7 := w, s8 := w, s9 := w }

/-! ### The check of a frame (R133) -/

/-- One bit of the CRC with generator 0x1021. -/
def crcBit (r : BitVec 16) : BitVec 16 :=
  if r.getLsbD 15 then (r <<< 1) ^^^ 0x1021#16 else r <<< 1

/-- One character fed in, most significant bit first (R133). -/
def crcByte (r : BitVec 16) (b : Byte) : BitVec 16 :=
  crcBit (crcBit (crcBit (crcBit (crcBit (crcBit (crcBit (crcBit (r ^^^ (b.setWidth 16 <<< 8)))))))))

/-- The 16-bit check over a list of characters, starting from 0xFFFF, not inverted (R133). -/
def crc16 (bs : List Byte) : BitVec 16 := bs.foldl crcByte 0xFFFF#16

/-- The two characters of the check, high character first (R133). -/
def crcChars (bs : List Byte) : List Byte :=
  [(crc16 bs).extractLsb' 8 8, (crc16 bs).extractLsb' 0 8]

/-- A link payload with its filler (R160, R186). -/
def padEven (p : List Byte) : List Byte := if p.length % 2 = 0 then p else p ++ [0]

/-- A link frame after its break: kind, length in pairs of characters, payload, check (R160). -/
def linkFrame (kind : Byte) (payload : List Byte) : List Byte :=
  let body := kind :: BitVec.ofNat 8 (payload.length / 2) :: payload
  body ++ crcChars body

/-! ### Multi-character fields (R186) -/

/-- A character field of value `n`. -/
def char (n : Nat) : List Byte := [BitVec.ofNat 8 n]
/-- A two-character field, most significant character first. -/
def word (n : Nat) : List Byte := [BitVec.ofNat 8 (n / 256), BitVec.ofNat 8 n]
/-- A signed two-character field in two's complement. -/
def signedWord (i : Int) : List Byte := word (BitVec.ofInt 16 i).toNat
/-- A field of `k` characters, most significant character first. -/
def field : Nat → Nat → List Byte
  | 0, _ => []
  | k + 1, n => field k (n / 256) ++ char n
/-- A flag field. -/
def flag (b : Bool) : List Byte := [if b then 1 else 0]

/-- The number a character holds. -/
def num (b : Byte) : Nat := b.toNat
/-- The number two characters hold, most significant first. -/
def num2 (h l : Byte) : Nat := h.toNat * 256 + l.toNat
/-- The signed number two characters hold (R186). -/
def int2 (h l : Byte) : Int := (BitVec.ofNat 16 (num2 h l)).toInt

/-- A 32-bit packed event value from its four characters, 0 first sent (R188). -/
def pack (c0 c1 c2 c3 : Nat) : Word32 :=
  BitVec.ofNat 32 ((c0 % 256) * 16777216 + (c1 % 256) * 65536 + (c2 % 256) * 256 + c3 % 256)

/-! ### Reads of a sensed input -/

/-- One read of an input accepted after `n` agreeing reads that differ from the accepted state
(R37, R73, R173): the record after it, and the state newly accepted, if any. -/
def Debounce.read (n : Nat) (b : Bool) (d : Debounce) : Debounce × Option Bool :=
  let len := if d.runLen ≠ 0 ∧ d.runValue = b then min n (d.runLen + 1) else 1
  if d.accepted ≠ some b ∧ n ≤ len then
    ({ accepted := some b, runValue := b, runLen := len }, some b)
  else ({ accepted := d.accepted, runValue := b, runLen := len }, none)

/-- Reads up to and including the first that changes the accepted state (DESIGN CHOICE, log 24). -/
def Debounce.readUntil (n : Nat) : List Bool → Debounce → Debounce × Option Bool
  | [], d => (d, none)
  | b :: bs, d =>
    match d.read n b with
    | (d', some c) => (d', some c)
    | (d', none) => Debounce.readUntil n bs d'

/-- The state a home probe finds (R61): that of the first three consecutive reads that agree among its
reads, and open (`false`) when none do. -/
def probeFinds : List Bool → Bool
  | a :: b :: c :: rest => if a = b ∧ b = c then a else probeFinds (b :: c :: rest)
  | _ => false

/-- One read of the drop beam in an open window (R78; DESIGN CHOICE, log 22): the watch after it, and whether an
interruption has lasted 2 ms. `armed` and `broken` are those of `Rev`. -/
def beamRead (armed : Bool) (broken : Nat) (b : Bool) : Bool × Nat × Bool :=
  if broken ≥ 2 then (true, 0, true)
  else if b then (if armed then (true, broken + 1, false) else (false, 0, false))
  else (true, 0, false)

/-- Beam reads up to and including the first at which a drop is confirmed (R78), or, while an interruption
alone holds the window open, the first that finds that interruption ended and so closes the window. -/
def beamReads (held : Bool) : List Bool → Bool → Nat → Bool × Nat × Bool
  | [], armed, broken => (armed, broken, false)
  | b :: bs, armed, broken =>
    match beamRead armed broken b with
    | (a, n, true) => (a, n, true)
    | (a, n, false) => if held && n == 0 then (a, n, false) else beamReads held bs a n

/-! ### Codes -/

/-- A selection code has a row and a column from 1 to 8 (00_scope "Selections", R186). -/
def validCode (code : Nat) : Bool :=
  1 ≤ code / 10 && code / 10 ≤ 8 && 1 ≤ code % 10 && code % 10 ≤ 8

/-- The selection index of a selection code (00_scope "Selections"). -/
def codeIndex (code : Nat) : Nat := (code / 10 - 1) * 8 + (code % 10 - 1)

/-- What a carried service code says (R176, R186). -/
inductive CodeValue where
  | none
  | digits (ds : List Nat)
  | invalid
deriving DecidableEq, Repr

/-- A code of count 0 is the empty code; a count outside 4 to 8 or a digit above 9 equals no service
code (R186). The characters past the count, and all of them at count 0, are not read (DESIGN CHOICE, log 59). -/
def codeValue (c : CodeArg) : CodeValue :=
  if c.count = 0 then .none
  else if 4 ≤ c.count ∧ c.count ≤ 8 ∧ (c.chars.take c.count).all (· ≤ 9) ∧ (c.chars.take c.count).length = c.count
  then .digits (c.chars.take c.count)
  else .invalid

/-- A carried code equals a service code when it holds the same digits in the same order (R175). -/
def codeEquals (c : CodeArg) (ds : List Nat) : Bool := codeValue c == .digits ds

/-! ### Sets of types (R186) -/

/-- The mask with the given members: bit k stands for member k. -/
def maskOf (w : Nat) (member : Nat → Bool) : BitVec w :=
  (List.range w).foldl (fun m k => if member k then m ||| (1#w <<< k) else m) 0

end Sys2Proof.Machine
end

