-- ==== Sys2Proof/Machine/Ops.lean ====
section
/-! DEFINITION. The operations every block shares: raising an event (R170), the sale state tests (R4),
additions to the totals and to `return_due` (R15, R24), and the Load Arbiter's sets and grant rule
(R117, R118). -/

namespace Sys2Proof.Machine

/-! ### Events (R170) -/

/-- A record placed last in the queue, or dropped and counted when the queue holds 32 (R170). -/
def Events.place (e : Event) (q : Events) : Events :=
  if Config.eventCapacity ≤ q.queue.length then { q with dropped := satAdd Config.maxDropped q.dropped 1 }
  else { q with queue := q.queue ++ [e] }

/-- A block raises an event (R170), stamped with the seconds counter. -/
def raise (kind : EventKind) (subject : Option Nat) (value : Option Word32) (s : State) : State :=
  let e : Event := { kind := kind, time := s.seconds, subject := subject, value := value, payload := [] }
  { s with events := s.events.place e }

/-- PASS_REPLY, the one event with a payload (R145, R170). `result` is 0 REPLY, 1 MISSED, 2 DROPPED. -/
def raisePassReply (slot result tag : Nat) (payload : List Byte) (s : State) : State :=
  let e : Event := { kind := .passReply, time := s.seconds, subject := some slot,
                     value := some (pack 0 0 result tag), payload := payload }
  { s with events := s.events.place e }

/-- An event value that is one unsigned number (R188). -/
def val (n : Nat) : Option Word32 := some (BitVec.ofNat 32 n)
/-- A signed value, sign-extended into all four characters (R188). -/
def ival (i : Int) : Option Word32 := some (BitVec.ofInt 32 i)

/-! ### The credit record (R1, R4, R15) -/

/-- The held sum (R1). -/
def State.heldSum (s : State) : Nat := s.credit.credit + s.credit.vendHold + s.credit.escrowReserve

/-- The headroom (R1). -/
def State.headroom (s : State) : Nat := s.tables.money.ceiling - s.heldSum

/-- The sale state tests, from the top (R4). -/
def saleOf (s : State) : SaleState :=
  if s.credit.inFlight.isSome then .vend
  else if s.change.payout.isSome then .payout
  else if s.credit.credit ≠ 0 ∨ s.credit.returnDue ≠ 0 ∨ s.credit.escrowReserve ≠ 0 then .opened
  else .idle

/-- The sale state is set (R4). -/
def setSale (s : State) : State := { s with credit.sale := saleOf s }

/-- A total grows, stopping at 2^48 - 1 (R24). -/
def addTotal (total a : Nat) : Nat := satAdd Config.maxTotal total a

/-- The replan mark is set on a RETURN payout; a DRAIN ignores it (R49). -/
def Payout.markReplan (p : Payout) : Payout :=
  match p.kind with
  | .refund => { p with replan := true }
  | .drain _ _ => p

/-- The replan mark of a payout in flight is set (R49). -/
def markReplan (s : State) : State := { s with change.payout := s.change.payout.map Payout.markReplan }

/-- How much of an addition `a` fits below the limit of `return_due` (R15). -/
def returnFits (due a : Nat) : Nat := min a (Config.maxAmount - due)

/-- `a` is added to `return_due` within its limit; what does not fit is written off (R15). A growth ends
the short-end wait (R5) and sets the replan mark (R49; DESIGN CHOICE, log 15). -/
def addReturnDue (a : Nat) (s : State) : State :=
  let fits := returnFits s.credit.returnDue a
  let s1 := { s with credit.returnDue := s.credit.returnDue + fits }
  let s2 := if fits = 0 then s1 else markReplan { s1 with change.shortWait := false }
  if fits = a then s2
  else raise .writtenOff none (val (a - fits))
    { s2 with audit.writtenOff := addTotal s2.audit.writtenOff (a - fits) }

/-! ### The Load Arbiter (R116 to R118) -/

/-- Membership in a set of loads. -/
def LoadSet.has (l : LoadSet) : Load → Bool
  | .payout => l.payout
  | .motor => l.motor
  | .compStart => l.compStart
  | .compRun => l.compRun
  | .heater => l.heater

/-- A set of loads with one membership changed. -/
def LoadSet.put (l : LoadSet) (x : Load) (b : Bool) : LoadSet :=
  match x with
  | .payout => { l with payout := b }
  | .motor => { l with motor := b }
  | .compStart => { l with compStart := b }
  | .compRun => { l with compRun := b }
  | .heater => { l with heater := b }

/-- The rating of a load (R116). -/
def LoadTable.rating (t : LoadTable) : Load → Nat
  | .payout => t.payout
  | .motor => t.motor
  | .compStart => t.compStart
  | .compRun => t.compRun
  | .heater => t.heater

/-- The load numbers, the bit numbers of the sets in Status (R188). -/
def Load.number : Load → Nat
  | .payout => 0
  | .motor => 1
  | .compStart => 2
  | .compRun => 3
  | .heater => 4

/-- The sum of the ratings of the loads of a set (R117). -/
def LoadTable.sum (t : LoadTable) (l : LoadSet) : Nat :=
  (if l.payout then t.payout else 0) + (if l.motor then t.motor else 0) +
  (if l.compStart then t.compStart else 0) + (if l.compRun then t.compRun else 0) +
  (if l.heater then t.heater else 0)

/-- The granted sum (R117). -/
def State.grantedSum (s : State) : Nat := s.tables.loads.sum s.supply.granted

/-- The effective budget (R117). -/
def State.effectiveBudget (s : State) : Nat :=
  match s.supply.state with
  | .normal => s.tables.loads.budget
  | .sag => s.tables.loads.budget / 2
  | .fail => 0

/-- The grant rule over the waiters in their priority (R118): each that fits is granted, and the rule
stops at the first that does not. -/
def grantLoop (t : LoadTable) (budget : Nat) : List Load → LoadSet → LoadSet → LoadSet × LoadSet
  | [], granted, waiting => (granted, waiting)
  | x :: xs, granted, waiting =>
    if waiting.has x then
      if t.sum granted + t.rating x ≤ budget then
        grantLoop t budget xs (granted.put x true) (waiting.put x false)
      else (granted, waiting)
    else grantLoop t budget xs granted waiting

/-- The fixed priority of the waiters (R118). -/
def grantPriority : List Load := [.payout, .motor, .compStart, .heater]

/-- The grant rule is applied (R118). The owner is told by the command that names the grant (DESIGN CHOICE, log 4). -/
def grantRule (s : State) : State :=
  let r := grantLoop s.tables.loads s.effectiveBudget grantPriority s.supply.granted s.supply.waiting
  { s with supply.granted := r.1, supply.waiting := r.2 }

/-- A load is asked for: it waits, unless it stands in either set (R117); then the grant rule (R118). -/
def request (x : Load) (s : State) : State :=
  if s.supply.granted.has x || s.supply.waiting.has x then s
  else grantRule { s with supply.waiting := s.supply.waiting.put x true }

/-- A release, or a withdrawal taken as one: the load leaves both sets (R117); then the grant rule. -/
def release (x : Load) (s : State) : State :=
  grantRule { s with supply.granted := s.supply.granted.put x false,
                     supply.waiting := s.supply.waiting.put x false }

/-! ### Tables of kept records -/

/-- The tube state of tube `n`. -/
def State.tube (s : State) (n : Nat) : TubeState := s.change.tubes.getD n TubeState.initial
/-- The kept fields of selection `i`. -/
def State.sel (s : State) (i : Nat) : SelKept := s.sels.getD i SelKept.default
/-- The record of spiral `p`. -/
def State.spiral (s : State) (p : Nat) : SpiralRec := s.spirals.getD p SpiralRec.initial
/-- The slot record at address `a`, 1 to 8. -/
def State.slot (s : State) (a : Nat) : Slot := s.line.slots.getD (a - 1) Slot.initial
/-- The record of temperature sensor `k`. -/
def State.sensor (s : State) (k : Nat) : TempSensor := s.cold.sensors.getD k TempSensor.initial
/-- The kept fields of zone `z`. -/
def State.zone (s : State) (z : Nat) : ZoneState := s.cold.zones.getD z ZoneState.initial

def modTube (n : Nat) (f : TubeState → TubeState) (s : State) : State :=
  { s with change.tubes := updAt s.change.tubes n f }
def modSel (i : Nat) (f : SelKept → SelKept) (s : State) : State := { s with sels := updAt s.sels i f }
def modSpiral (p : Nat) (f : SpiralRec → SpiralRec) (s : State) : State :=
  { s with spirals := updAt s.spirals p f }
def modSlot (a : Nat) (f : Slot → Slot) (s : State) : State :=
  { s with line.slots := updAt s.line.slots (a - 1) f }
def modSensor (k : Nat) (f : TempSensor → TempSensor) (s : State) : State :=
  { s with cold.sensors := updAt s.cold.sensors k f }
def modZone (z : Nat) (f : ZoneState → ZoneState) (s : State) : State :=
  { s with cold.zones := updAt s.cold.zones z f }

/-! ### Where the part stands -/

/-- The start is complete (R128). -/
def State.running (s : State) : Bool := s.phase == .run

/-- A start sequence or normal operation is under way: not the power-fail steps, not the FAIL wait. -/
def State.active (s : State) : Bool :=
  match s.phase with
  | .saving _ | .failWait => false
  | _ => true

/-- Start steps 4 and 5 are over: the tubes have been reconciled with their sensors (R38, R127) and temperature
sampling has begun (R91, R128). -/
def State.samplingOn (s : State) : Bool :=
  match s.phase with
  | .sampling _ | .lineReset _ | .run => true
  | _ => false

/-- The service door as the rules read it: OPEN until the first state is accepted (R173). -/
def State.doorOpen (s : State) : Bool := s.lock.door.accepted != some false

end Sys2Proof.Machine
end

