-- ==== Sys2Proof/Machine/Flags.lean ====
section
/-! DEFINITION. The condition set of a reply (R165) and the codes of every enumerated field (R188). -/

namespace Sys2Proof.Machine

/-- The bit of a condition (R188), set or clear. -/
def condBit (n : Nat) (b : Bool) : BitVec 8 := if b then 1#8 <<< n else 0

/-- The condition set composed with a reply (R165, R188). -/
def conditionSet (s : State) : BitVec 8 :=
  condBit 0 (!s.events.queue.isEmpty) ||| condBit 1 s.change.exact ||| condBit 2 s.storeDefaults |||
  condBit 3 s.link.lostFrame ||| condBit 4 s.link.tagReset ||| condBit 5 s.link.linkWasLost

/-- The once-marks are cleared in the step that carries them in a reply (R165). -/
def clearMarks (s : State) : State :=
  { s with link.lostFrame := false, link.tagReset := false, link.linkWasLost := false }

def ReplyCode.code : ReplyCode → Nat
  | .done => 0x00 | .started => 0x01 | .queued => 0x02 | .busy => 0x03 | .locked => 0x04
  | .lockout => 0x05 | .codeMismatch => 0x06 | .badSequence => 0x07 | .badArgument => 0x08
  | .noCredit => 0x09 | .noChange => 0x0A | .unavailable => 0x0B | .held => 0x0C
  | .doorOpen => 0x0D | .doorClosed => 0x0E | .queueFull => 0x0F | .unknownRequest => 0x10

def EventKind.code : EventKind → Nat
  | .coinCredited => 0x01 | .overpay => 0x02 | .writtenOff => 0x03 | .vendDone => 0x04
  | .vendFailed => 0x05 | .noteStacked => 0x06 | .noteReturned => 0x07 | .escrowUnresolved => 0x08
  | .coinRejected => 0x09 | .noteRejected => 0x0A
  | .payoutDone => 0x10 | .payoutShort => 0x11 | .drainDone => 0x12 | .tubeCorrected => 0x13
  | .tubeFault => 0x14 | .exactOn => 0x15 | .exactOff => 0x16 | .coinFilled => 0x17
  | .reportUnknown => 0x18
  | .spiralSlow => 0x20 | .spiralFault => 0x21 | .spiralEmpty => 0x22 | .selectionSoldOut => 0x23
  | .spiralTestDone => 0x24 | .spiralHomeDone => 0x25
  | .sensorFault => 0x30 | .sensorOk => 0x31 | .defrostBegin => 0x32 | .defrostEnd => 0x33
  | .zoneHold => 0x34 | .holdReleased => 0x35
  | .supplySag => 0x40 | .supplyNormal => 0x41 | .loadShed => 0x42 | .start => 0x43
  | .peripheralFound => 0x50 | .peripheralLost => 0x51 | .peripheralFault => 0x52
  | .passReply => 0x53 | .linkRestored => 0x54
  | .lockout => 0x60 | .serviceDoor => 0x61 | .modeEnded => 0x62

def SaleState.code : SaleState → Nat
  | .idle => 0 | .opened => 1 | .vend => 2 | .payout => 3
def SupplyState.code : SupplyState → Nat
  | .normal => 0 | .sag => 1 | .fail => 2
def LockState.code : LockState → Nat
  | .opened => 0 | .locked => 1 | .unlocked => 2
def CompState.code : CompState → Nat
  | .lockedOff => 0 | .idle => 1 | .awaitGrant => 2 | .starting => 3 | .running => 4
  | .defrost => 5 | .drip => 6
def TubeCond.code : TubeCond → Nat
  | .ok => 0 | .faulted => 1 | .disabled => 2
def SlotState.code : SlotState → Nat
  | .absent => 0 | .present => 1 | .silent => 2
def SlotKind.code : SlotKind → Nat
  | .unused => 0 | .coinValidator => 1 | .noteReader => 2 | .other => 3
def SpiralState.code : SpiralState → Nat
  | .ready => 0 | .empty => 1 | .jammed => 2 | .openMotor => 3 | .stalled => 4 | .notHome => 5
  | .unassigned => 6
def SelState.code : SelState → Nat
  | .enabled => 0 | .inhibited => 1 | .soldOut => 2
def Cause.code : Cause → Nat
  | .cold => 0 | .powerRestored => 1 | .warm => 2
def Decision.code : Decision → Nat
  | .giveBack => 0 | .stack => 1
def Rate.code : Rate → Nat
  | .b9600 => 1 | .b19200 => 2 | .b38400 => 3 | .b57600 => 4 | .b115200 => 5
def Policy.code : Policy → Nat
  | .single => 0 | .multi => 1

/-- The kind of a failed revolution in SPIRAL_FAULT (R188). -/
def Failure.kindCode : Failure → Nat
  | .jammed => 0 | .openMotor => 1 | .stalledLeave => 2 | .stalledReturn => 2
/-- The cause of a stall in SPIRAL_FAULT (R188): 0 none, 1 LEAVE, 2 RETURN. -/
def Failure.causeCode : Failure → Nat
  | .jammed => 0 | .openMotor => 0 | .stalledLeave => 1 | .stalledReturn => 2
/-- The state a failed revolution of a vend or test leaves its spiral in (R82). -/
def Failure.state : Failure → SpiralState
  | .jammed => .jammed | .openMotor => .openMotor | .stalledLeave => .stalled | .stalledReturn => .stalled

/-- A set of loads as its bit field (R188). -/
def LoadSet.code (l : LoadSet) : Nat :=
  (if l.payout then 1 else 0) + (if l.motor then 2 else 0) + (if l.compStart then 4 else 0) +
  (if l.compRun then 8 else 0) + (if l.heater then 16 else 0)

end Sys2Proof.Machine
end

