-- ==== Sys2Proof/Machine/Masks.lean ====
section
/-! DEFINITION. The acceptance masks (R16, R35, R36), the internal command queue (R138) and the mask
records (R152 to R156). -/

namespace Sys2Proof.Machine

/-! ### Slots and peripherals -/

/-- The slot kind of a peripheral with masks (R141). -/
def Periph.kind : Periph → SlotKind
  | .validator => .coinValidator
  | .reader => .noteReader

/-- The address of the first slot of a kind among kinds standing at addresses from `a` on. -/
def findSlot (k : SlotKind) : Nat → List SlotKind → Option Nat
  | _, [] => none
  | a, x :: xs => if x = k then some a else findSlot k (a + 1) xs

/-- The slot of a peripheral, if the slot table has one (R141). -/
def State.slotOf (s : State) (p : Periph) : Option Nat := findSlot p.kind 1 s.tables.slotKinds

/-- The peripheral whose slot stands at an address. -/
def State.periphAt (s : State) (a : Nat) : Option Periph :=
  match s.tables.slotKind a with
  | .coinValidator => some .validator
  | .noteReader => some .reader
  | _ => none

/-- The slot at an address is PRESENT. -/
def State.slotPresent (s : State) (a : Nat) : Bool := (s.slot a).state == .present

/-- A peripheral's slot is PRESENT. -/
def State.periphPresent (s : State) (p : Periph) : Bool :=
  match s.slotOf p with
  | some a => s.slotPresent a
  | none => false

/-- A peripheral is reported SILENT: its slot is SILENT, or no slot has its kind (R141). -/
def State.periphSilent (s : State) (p : Periph) : Bool :=
  match s.slotOf p with
  | some a => (s.slot a).state == .silent
  | none => true

/-! ### What the masks hold -/

/-- A coin type is routed to its tube (R36). -/
def inRoute (s : State) (k : Nat) : Bool :=
  match (s.tables.coin k).tube with
  | some n => (s.tube n).cond == .ok && (s.tube n).count < (s.tables.tube n).capacity
  | none => false

/-- The route mask (R36), kept by its tubes alone, with no validator slot too, where R152 speaks of empty masks (DESIGN
CHOICE, log 58). -/
def routeMask (s : State) : BitVec 16 := maskOf 16 (inRoute s)

/-- A coin type may be accepted (R35). -/
def inAccept (s : State) (k : Nat) : Bool :=
  s.link.up && s.periphPresent .validator &&
  (if s.lock.fill then inRoute s k
   else (s.tables.coin k).accept && (s.tables.coin k).value ≤ s.headroom)

/-- The accept mask (R35). -/
def acceptMask (s : State) : BitVec 16 := maskOf 16 (inAccept s)

/-- The conditions on a note type that the mask and the escrow decision share (R16, R18). -/
def noteFits (s : State) (k : Nat) : Bool :=
  (s.tables.note k).accept && (s.tables.note k).value ≤ s.headroom && s.link.up && !s.lock.fill &&
  (!s.change.exact || (s.tables.note k).value ≤ s.tables.money.noteLimit)

/-- A note type is in the note acceptance mask (R16; DEDUCED, log 25). -/
def inNote (s : State) (k : Nat) : Bool := noteFits s k && !s.periphSilent .reader

/-- The note acceptance mask (R16). -/
def noteMask (s : State) : BitVec 8 := maskOf 8 (inNote s)

/-! ### Mask records (R153, R154) -/

def Line.maskRec (l : Line) : Periph → MaskRec
  | .validator => l.validator
  | .reader => l.reader

def Line.setMaskRec (l : Line) (p : Periph) (r : MaskRec) : Line :=
  match p with
  | .validator => { l with validator := r }
  | .reader => { l with reader := r }

/-- A mask record is changed. -/
def modMaskRec (p : Periph) (f : MaskRec → MaskRec) (s : State) : State :=
  { s with line := s.line.setMaskRec p (f (s.line.maskRec p)) }

/-- A command is counted as dropped (R138). -/
def countDropped (s : State) : State :=
  { s with line.dropped := satAdd Config.maxCount16 s.line.dropped 1 }

/-- An entry is a MASKS for a slot that is not in flight. -/
def Cmd.isUnsentMasks (slot : Nat) (e : Cmd) : Bool :=
  match e.body with
  | .masks _ => e.slot == slot && !e.inFlight
  | .escrow _ _ _ => false

/-- An entry is a MASKS. -/
def Cmd.isMasks (e : Cmd) : Bool :=
  match e.body with
  | .masks _ => true
  | .escrow _ _ _ => false

/-- The masks an entry carries. -/
def Cmd.masks? (e : Cmd) : Option Masks :=
  match e.body with
  | .masks m => some m
  | .escrow _ _ _ => none

/-- A MASKS for the slot that is queued and not in flight. -/
def Line.unsentMasks (l : Line) (slot : Nat) : Option Cmd := l.queue.find? (Cmd.isUnsentMasks slot)

/-- The target that new masks are compared with (R153): an entry not in flight, else the one in flight,
else the held masks. -/
def Line.target (l : Line) (slot : Nat) (p : Periph) : Option Masks :=
  match l.unsentMasks slot with
  | some e => e.masks?
  | none =>
    match l.queue.find? fun e => e.isMasks && e.slot == slot with
    | some e => e.masks?
    | none => (l.maskRec p).held

/-- A MASKS entry returned as DROPPED (R154): UNKNOWN, and push pending unless an unsent entry for the
slot carries the current masks (DEDUCED, log 13). -/
def masksDropped (slot : Nat) (p : Periph) (s : State) : State :=
  modMaskRec p (fun r => { r with held := none, push := r.push || (s.line.unsentMasks slot).isNone }) s

/-- A MASKS command is placed (R138): it replaces the contents of an unsent entry for its slot, or
stands last when there is room, or is handed back as DROPPED. -/
def enqueueMasks (slot : Nat) (p : Periph) (m : Masks) (s : State) : State :=
  if (s.line.unsentMasks slot).isSome then
    modMaskRec p (fun r => { r with push := false })
      { s with line.queue := s.line.queue.map fun e =>
          if e.isUnsentMasks slot then { e with body := .masks m } else e }
  else if s.line.queue.length < Config.lineQueueSize then
    modMaskRec p (fun r => { r with push := false })
      { s with line.queue := s.line.queue ++ [{ slot := slot, body := .masks m, mark := false, inFlight := false }] }
  else masksDropped slot p (countDropped s)

/-- The current masks are compared with the target, and a MASKS command is placed when they differ (R153). -/
def compareMasks (p : Periph) (s : State) : State :=
  match s.slotOf p with
  | none => s
  | some a =>
    if s.line.target a p = some (s.line.maskRec p).current then s
    else enqueueMasks a p (s.line.maskRec p).current s

/-- Masks are sent to the Line Master (R152, R153); a peripheral with no slot has no address. -/
def sendMasks (p : Periph) (m : Masks) (s : State) : State :=
  if (s.slotOf p).isNone then s
  else compareMasks p (modMaskRec p (fun r => { r with current := m }) s)

/-- The note mask is recomputed and sent on (R16, R152). Before a start is complete the masks stay
empty (R16, R54). -/
def recomputeNote (s : State) : State :=
  if s.running then
    let m := noteMask s
    sendMasks .reader (.note m) { s with credit.noteMask := m }
  else s

/-- Both coin masks are recomputed and sent on, and the note mask with them (R36); the validator's MASKS is placed
before the reader's (DESIGN CHOICE, log 42). -/
def recomputeMasks (s : State) : State :=
  if s.running then
    let a := acceptMask s
    let r := routeMask s
    recomputeNote (sendMasks .validator (.coin a r) { s with change.accept := a, change.route := r })
  else s

/-- The masks follow a change of the held sum since `old` (R16, R36). -/
def masksIfHeld (old s : State) : State := if old.heldSum = s.heldSum then s else recomputeMasks s

/-! ### The internal command queue and ESCROW commands (R138, R155, R156) -/

/-- An entry placed after the last ESCROW entry: the ESCROW class stands before the MASKS class (R138). -/
def insertEscrow (e : Cmd) : List Cmd → List Cmd
  | [] => [e]
  | x :: xs => if x.isMasks then e :: x :: xs else x :: insertEscrow e xs

/-- The queue without its last MASKS entry that is not in flight, and that entry. -/
def removeLastMasks : List Cmd → List Cmd × Option Cmd
  | [] => ([], none)
  | x :: xs =>
    match removeLastMasks xs with
    | (ys, some e) => (x :: ys, some e)
    | (ys, none) => if x.isMasks && !x.inFlight then (xs, some x) else (x :: ys, none)

/-- The escrow record is that of a command: same note type and decision (R156). -/
def escrowMatches (d : Decision) (t : Nat) (s : State) : Bool :=
  match s.credit.escrow with
  | some e => e.decision == d && e.noteType == t
  | none => false

/-- A tracked ESCROW command may be sent again (R156): its record stands and the reader is PRESENT. -/
def mayResend (d : Decision) (t : Nat) (s : State) : Bool :=
  escrowMatches d t s && s.periphPresent .reader

/-- The push pending marks that are acted on when an entry leaves the queue (R154): the validator's masks, then
the reader's. `before` holds the marks that stood when the entry left (DEDUCED, log 13). -/
def pushMasks (before : Line) (s : State) : State :=
  let s := if before.validator.push && s.line.validator.push && s.periphPresent .validator
    then compareMasks .validator s else s
  if before.reader.push && s.line.reader.push && s.periphPresent .reader
    then compareMasks .reader s else s

/-- The MASKS return of an entry displaced from the queue. -/
def dropMasksEntry (e : Cmd) (s : State) : State :=
  match s.periphAt e.slot with
  | some p => masksDropped e.slot p (countDropped s)
  | none => countDropped s

/-- An ESCROW command is placed for the reader's slot (R138, R155); one that finds no room is handed
back as DROPPED, and is held back to be sent again when its record stands (R156). -/
def placeEscrow (d : Decision) (t : Nat) (tracked : Bool) (s : State) : State :=
  match s.slotOf .reader with
  | none => s
  | some a =>
    let e : Cmd := { slot := a, body := .escrow d t tracked, mark := false, inFlight := false }
    if s.line.queue.length < Config.lineQueueSize then
      { s with line.queue := insertEscrow e s.line.queue }
    else
      match removeLastMasks s.line.queue with
      | (q, some m) => pushMasks s.line (dropMasksEntry m { s with line.queue := insertEscrow e q })
      | (_, none) =>
        let s := countDropped s
        if tracked && mayResend d t s then { s with line.escrowBack := some (d, t) } else s

/-- How a command's transaction hands its entry back (R138). -/
inductive CmdReturn where
  | acknowledged
  | notAcknowledged
  | dropped
deriving DecidableEq, Repr

/-- The peripheral that masks are for (R152). -/
def Masks.periph : Masks → Periph
  | .coin _ _ => .validator
  | .note _ => .reader

/-- The return of a MASKS entry is taken by its peripheral's mask record (R154). One of a slot whose kind was changed
while the entry was in flight, so that the record has moved on (R141, R158), is not taken by the record (DESIGN CHOICE,
log 57). -/
def masksReturn (r : CmdReturn) (slot : Nat) (m : Masks) (s : State) : State :=
  let p := m.periph
  if s.periphAt slot = some p then
    match r with
    | .acknowledged => modMaskRec p (fun x => { x with held := some m }) s
    | .notAcknowledged =>
      let s := modMaskRec p (fun x => { x with held := none }) s
      if s.slotPresent slot then compareMasks p s else s
    | .dropped => masksDropped slot p s
  else s

/-- The return of an ESCROW entry is taken by the Credit Unit (R156). -/
def escrowReturn (r : CmdReturn) (d : Decision) (t : Nat) (tracked : Bool) (s : State) : State :=
  match r with
  | .acknowledged => s
  | _ => if tracked && mayResend d t s then placeEscrow d t true s else s

/-- The placements waiting for an entry to leave the internal queue (R154): a held-back ESCROW, the
validator's masks, the reader's masks. -/
def pushWaiting (before : Line) (s : State) : State :=
  let s := match before.escrowBack with
    | some (d, t) =>
      let s := { s with line.escrowBack := if s.line.escrowBack = some (d, t) then none else s.line.escrowBack }
      if mayResend d t s then placeEscrow d t true s else s
    | none => s
  pushMasks before s

/-- An entry that has left the queue is handed back to its originator (R138), a DROPPED one counted, and
the placements waiting for a departure are made (R154), after what its own return places (DESIGN CHOICE, log 55). -/
def returnCmd (r : CmdReturn) (e : Cmd) (s : State) : State :=
  let before := s.line
  let s := if r = .dropped then countDropped s else s
  let s := match e.body with
    | .masks m => masksReturn r e.slot m s
    | .escrow d t tracked => escrowReturn r d t tracked s
  pushWaiting before s

end Sys2Proof.Machine
end

