-- ==== Sys2Proof/Machine/Plan.lean ====
section
/-! DEFINITION. The change plan (R39 to R42) and the EXACT condition (R43). -/

namespace Sys2Proof.Machine

/-- A tube as the plan sees it: its number, value and usable count (R39). -/
structure PlanTube where
  tube : Nat
  value : Nat
  usable : Nat
deriving DecidableEq, Repr

/-- The usable count of a tube (R30). -/
def usableCount (s : State) (n : Nat) : Nat :=
  match (s.tube n).cond with
  | .ok => (s.tube n).count - (s.tables.tube n).reserve
  | .faulted | .disabled => 0

/-- Plan order: value, highest first; then usable count, highest first; then tube number, lowest first (R39). -/
def PlanTube.before (a b : PlanTube) : Bool :=
  b.value < a.value || (a.value == b.value && (b.usable < a.usable || (a.usable == b.usable && a.tube < b.tube)))

/-- A tube placed in plan order. -/
def insertTube (a : PlanTube) : List PlanTube → List PlanTube
  | [] => [a]
  | b :: bs => if a.before b then a :: b :: bs else b :: insertTube a bs

/-- The six tubes in plan order (R39). -/
def planTubes (s : State) : List PlanTube :=
  (List.range 6).foldr
    (fun n ts => insertTube { tube := n, value := s.tables.tubeValue n, usable := usableCount s n } ts) []

/-- Greedy takes in the given order for a residual, and the residual they leave (R40). -/
def greedy : List PlanTube → Nat → List Nat × Nat
  | [], r => ([], r)
  | p :: ps, r =>
    let t := min (r / p.value) p.usable
    let rest := greedy ps (r - t * p.value)
    (t :: rest.1, rest.2)

/-- The trials of one tube for d = from `d` on, at most `fuel` of them (R41): tube `p`, which stage 1 gave
`t`, takes `t - d`, and the tubes after it are given greedy takes on what is left of `r`. -/
def trials (p : PlanTube) (after : List PlanTube) (t r : Nat) : Nat → Nat → Option (List Nat)
  | 0, _ => none
  | fuel + 1, d =>
    let rest := greedy after (r - (t - d) * p.value)
    if rest.2 = 0 then some ((t - d) :: rest.1) else trials p after t r fuel (d + 1)

/-- The backoff (R41): the first exact trial in order of tube and then of d. -/
def backoff : List PlanTube → List Nat → Nat → Option (List Nat)
  | p :: ps, t :: ts, r =>
    match trials p ps t r (min t Config.maxBackoff) 1 with
    | some takes => some takes
    | none => (backoff ps ts (r - t * p.value)).map (t :: ·)
  | _, _, _ => none

/-- A change plan: each tube with its take, in plan order, and the residual (R39). -/
structure Plan where
  takes : List (Nat × Nat)
  residual : Nat
deriving DecidableEq, Repr

/-- The change plan for an amount (R40 to R42). -/
def planOver (ts : List PlanTube) (amount : Nat) : Plan :=
  let stage1 := greedy ts amount
  let tubes := ts.map (·.tube)
  if stage1.2 = 0 then { takes := tubes.zip stage1.1, residual := 0 }
  else
    match backoff ts stage1.1 amount with
    | some takes => { takes := tubes.zip takes, residual := 0 }
    | none => { takes := tubes.zip stage1.1, residual := stage1.2 }

/-- The change plan for an amount against the tubes as they stand (R39). -/
def changePlan (s : State) (amount : Nat) : Plan := planOver (planTubes s) amount

/-- The plan pays the amount in full (R39). -/
def Plan.exact (p : Plan) : Bool := p.residual == 0

/-- The first tube with a remaining take, in plan order (R50). -/
def firstTake : List (Nat × Nat) → Option Nat
  | [] => none
  | (n, t) :: rest => if t = 0 then firstTake rest else some n

/-- The probes k × g from k on, at most `fuel` of them: the first amount whose plan is not exact (R43). -/
def firstShort (ts : List PlanTube) (g : Nat) : Nat → Nat → Option Nat
  | 0, _ => none
  | fuel + 1, k => if (planOver ts (k * g)).exact then firstShort ts g fuel (k + 1) else some (k * g)

/-- The number K of probes (R43). -/
def probeCount (m : MoneyParams) : Nat := min (m.probeCeiling / m.granularity) Config.maxProbes

/-- The first probed amount that cannot be paid exactly, if any: EXACT holds when there is one (R43). -/
def exactShort (s : State) : Option Nat :=
  firstShort (planTubes s) s.tables.money.granularity (probeCount s.tables.money) 1

/-- EXACT is evaluated without an event, at start step 4 (R43). -/
def evalExactSilent (s : State) : State := { s with change.exact := (exactShort s).isSome }

/-- EXACT is re-evaluated; a change raises its event, and the note mask is recomputed (R43). -/
def evalExact (s : State) : State :=
  let short := exactShort s
  if short.isSome = s.change.exact then s
  else
    recomputeNote (match short with
      | some a => raise .exactOn none (val a) { s with change.exact := true }
      | none => raise .exactOff none (val 0) { s with change.exact := false })

end Sys2Proof.Machine
end

