-- ==== Sys2Proof/Machine/Tubes.lean ====
section
/-! DEFINITION. Tube counts and conditions (R30, R31) and their reconciliation with the level sensors
(R37, R38). The operations named `raw…` make one change and its direct consequences; `afterTubes` makes
those that follow once for all changes of a step (EXACT, masks; DESIGN CHOICE, log 50). -/

namespace Sys2Proof.Machine

/-- The reasons of TUBE_CORRECTED (R188). -/
inductive Correction where
  | table
  | overfill
  | fullSensor
  | lowSensor
  | empty
deriving DecidableEq, Repr

def Correction.code : Correction → Nat
  | .table => 0 | .overfill => 1 | .fullSensor => 2 | .lowSensor => 3 | .empty => 4

/-- TUBE_CORRECTED with the tube, the reason and the old and new counts (R31, R188). -/
def raiseCorrected (n : Nat) (why : Correction) (old new : Nat) (s : State) : State :=
  raise .tubeCorrected (some n) (some (pack 0 why.code old new)) s

/-- TUBE_FAULT with its reason, 0 SENSORS or 1 MISSED (R38, R48). -/
def raiseTubeFault (n reason : Nat) (s : State) : State :=
  raise .tubeFault (some n) (some (pack 0 0 0 reason)) s

/-- A count is set; any change of a count ends the short-end wait (R5, R30). -/
def rawCount (n new : Nat) (s : State) : State :=
  let s1 := modTube n (fun t => { t with count := new }) s
  if new = (s.tube n).count then s1 else { s1 with change.shortWait := false }

/-- A condition is set. A change ends the short-end wait (R5), sets the replan mark (R49), and clears the
retry mark of a tube that leaves OK (R48). -/
def rawCond (n : Nat) (c : TubeCond) (s : State) : State :=
  if (s.tube n).cond = c then s
  else
    let s := modTube n (fun t => { t with cond := c }) s
    let s := markReplan { s with change.shortWait := false }
    if c = .ok then s
    else { s with change.payout := s.change.payout.map fun p =>
             if p.retry = some n then { p with retry := none } else p }

/-- The plan has a remaining take of a tube. -/
def Payout.hasTake (p : Payout) (n : Nat) : Bool := p.plan.any fun e => e.1 == n && e.2 != 0

/-- A correction of a count under R38: the count, its event, and the replan mark when the plan still
takes from the tube (R49). -/
def correctCount (n : Nat) (why : Correction) (new : Nat) (s : State) : State :=
  let old := (s.tube n).count
  let s := raiseCorrected n why old new (rawCount n new s)
  { s with change.payout := s.change.payout.map fun p => if p.hasTake n then p.markReplan else p }

/-- The tests of R38 on one tube, in order; the first that matches decides. -/
def reconcile (n : Nat) (s : State) : State :=
  let t := s.tube n
  let r := s.tables.tube n
  let full := t.full.accepted == some true
  let lowFitted := decide (0 < r.lowMark)
  let lowUncovered := t.low.accepted == some false
  let lowCovered := t.low.accepted == some true
  if full && lowFitted && lowUncovered then
    if t.cond = .ok then raiseTubeFault n 0 (rawCond n .faulted s) else s
  else if full && decide (t.count < r.capacity) then correctCount n .fullSensor r.capacity s
  else if lowFitted && lowUncovered && decide (r.lowMark ≤ t.count) then
    correctCount n .lowSensor (r.lowMark - 1) s
  else if lowFitted && lowCovered && decide (t.count < r.lowMark) then
    correctCount n .lowSensor r.lowMark s
  else s

/-- What follows a change of any count or condition: EXACT is re-evaluated and the masks are recomputed (R30, R43),
once at the end of a step that makes two changes (DESIGN CHOICE, log 50). -/
def afterTubes (s : State) : State := recomputeMasks (evalExact s)

/-- The counts and conditions of the tubes. -/
def tubeFigures (s : State) : List (Nat × TubeCond) := s.change.tubes.map fun t => (t.count, t.cond)

/-- `afterTubes` when a step changed a count or a condition since `old`. -/
def afterTubesIf (old s : State) : State := if tubeFigures old = tubeFigures s then s else afterTubes s

/-- A sensor of a tube. -/
def TubeState.sensor (t : TubeState) (full : Bool) : Debounce := if full then t.full else t.low
def TubeState.setSensor (t : TubeState) (full : Bool) (d : Debounce) : TubeState :=
  if full then { t with full := d } else { t with low := d }

/-- One read of a level sensor (R37); a change of its accepted state reconciles the tube (R38). Until start
step 4 is over, reconciliation waits for that step (R37, R127). -/
def levelRead (n : Nat) (full : Bool) (s : State) (covered : Bool) : State :=
  let r := ((s.tube n).sensor full).read 3 covered
  let s1 := modTube n (fun t => t.setSensor full r.1) s
  match r.2 with
  | none => s1
  | some _ => if s.samplingOn then afterTubesIf s1 (reconcile n s1) else s1

/-- Every fitted level sensor has an accepted state (R37). -/
def sensorsAccepted (s : State) : Bool :=
  (List.range 6).all fun n =>
    (s.tube n).full.accepted.isSome && ((s.tables.tube n).lowMark == 0 || (s.tube n).low.accepted.isSome)

end Sys2Proof.Machine
end

