-- ==== Sys2Proof/Machine/Credit.lean ====
section
/-! DEFINITION. The Credit Unit: the payout test (R5), Return Credit and the lever (R12, R13), the
crediting of money (R14, R22), and note escrow (R17 to R21). -/

namespace Sys2Proof.Machine

/-- A new payout record, its grant WAITING (R44). -/
def newPayout (k : PayoutKind) : Payout :=
  { kind := k, held := false, plan := [], pulsed := none, energised := none, windowCoins := 0,
    isRetry := false, retry := none, replan := false, paid := 0, coins := 0 }

/-- A payout record is created and the PAYOUT grant asked for (R44); the sale state follows (R4). -/
def startPayout (k : PayoutKind) (s : State) : State :=
  setSale (request .payout { s with change.payout := some (newPayout k) })

/-- The payout test (R5): no vend or payout in flight, money owed, no short-end wait. It is applied
whenever a step may have made it pass; none is started before a start is complete (R129). -/
def payoutTest (s : State) : State :=
  if s.running && s.credit.inFlight.isNone && s.change.payout.isNone && s.credit.returnDue != 0 &&
      !s.change.shortWait then startPayout .refund s
  else s

/-- The whole of `credit` is added to `return_due` within its limit and becomes 0 (R8, R12, R13). -/
def creditToReturn (s : State) : State :=
  let a := s.credit.credit
  addReturnDue a { s with credit.credit := 0 }

/-- The effect that Return Credit and the lever share in OPEN and PAYOUT (R12, R13). -/
def returnAll (s : State) : State :=
  masksIfHeld s (payoutTest (setSale { creditToReturn s with change.shortWait := false }))

/-- OPEN held open only by `escrow_reserve`, or IDLE: nothing to return (R12). -/
def nothingToReturn (s : State) : Bool := s.credit.credit == 0 && s.credit.returnDue == 0

/-- A RETURN_LEVER report (R13). -/
def returnLever (s : State) : State :=
  match s.credit.sale with
  | .idle => s
  | .opened => if nothingToReturn s then s else returnAll s
  | .payout => returnAll s
  | .vend => { s with credit.pendingReturn := true }

/-- Money of value `v` is credited against the headroom; what exceeds it is overpay (R14, R22). The
given events carry `subject`; `first` comes before any OVERPAY. -/
def creditMoney (first : EventKind) (subject v : Nat) (s : State) : State :=
  let room := s.headroom
  let fits := min v room
  let s := { s with credit.credit := s.credit.credit + fits, audit.cashIn := addTotal s.audit.cashIn v }
  let s := raise first (some subject) (val v) s
  let s := if v ≤ room then s
    else
      let added := returnFits s.credit.returnDue (v - room)
      raise .overpay (some subject) (val added) (addReturnDue (v - room) s)
  recomputeMasks (payoutTest (setSale s))

/-- The escrow record is removed and its reserve released (R17). -/
def removeEscrow (s : State) : State :=
  { s with credit.escrow := none, credit.escrowReserve := 0, line.escrowBack := none }

/-- An escrow record expires unsettled (R21). -/
def expireEscrow (s : State) : State :=
  match s.credit.escrow with
  | none => s
  | some e =>
    let s := raise .escrowUnresolved (some e.noteType) (val (s.tables.note e.noteType).value) (removeEscrow s)
    recomputeMasks (setSale s)

/-- A NOTE_ESCROW report (R18, R19): the decision, the record, and the ESCROW command. -/
def noteEscrow (t : Nat) (s : State) : State :=
  match s.credit.escrow with
  | some _ => placeEscrow .giveBack t false s
  | none =>
    if noteFits s t then
      let v := (s.tables.note t).value
      let s := { s with credit.escrow := some { noteType := t, decision := .stack, time := s.seconds },
                        credit.escrowReserve := v }
      recomputeMasks (placeEscrow .stack t true (setSale s))
    else
      placeEscrow .giveBack t true
        { s with credit.escrow := some { noteType := t, decision := .giveBack, time := s.seconds } }

/-- A NOTE_STACKED report (R20, R22; DEDUCED, log 14). -/
def noteStacked (t : Nat) (s : State) : State :=
  let v := (s.tables.note t).value
  match s.credit.escrow with
  | some e =>
    if e.noteType = t then
      match e.decision with
      | .stack =>
        let reserve := s.credit.escrowReserve
        let s := removeEscrow { s with credit.credit := s.credit.credit + reserve,
                                       audit.cashIn := addTotal s.audit.cashIn v }
        recomputeMasks (setSale (raise .noteStacked (some t) (val v) s))
      | .giveBack => creditMoney .noteStacked t v (removeEscrow s)
    else creditMoney .noteStacked t v s
  | none => creditMoney .noteStacked t v s

/-- A NOTE_RETURNED report (R20, R22). -/
def noteReturned (t : Nat) (s : State) : State :=
  match s.credit.escrow with
  | some e =>
    if e.noteType = t then
      let s := raise .noteReturned (some t) (val (s.tables.note t).value) (removeEscrow s)
      match e.decision with
      | .stack => recomputeMasks (setSale s)
      | .giveBack => s
    else s
  | none => s

end Sys2Proof.Machine
end

