-- ==== Sys2Proof/Machine/Change.lean ====
section
/-! DEFINITION. The Change Unit's coin reports (R32 to R34), its payouts (R44 to R51) and Clear Tube
Fault (R53). -/

namespace Sys2Proof.Machine

/-! ### Coin reports -/

/-- A coin taken onward (R34): credited, or counted in fill mode; then the masks. -/
def takeCoin (k : Nat) (s : State) : State :=
  let v := (s.tables.coin k).value
  if s.lock.fill then
    recomputeMasks (raise .coinFilled (some k) (val v) { s with audit.filled := addTotal s.audit.filled v })
  else creditMoney .coinCredited k v s

/-- A COIN_BOX report (R33). -/
def coinBox (k : Nat) (s : State) : State := takeCoin k s

/-- The count of a tube grows by the coin reported for it (R32). -/
def coinIntoTube (n : Nat) (s : State) : State :=
  let cap := (s.tables.tube n).capacity
  let old := (s.tube n).count
  if cap ≤ old then reconcile n (raiseCorrected n .overfill cap cap (rawCount n cap s))
  else reconcile n (rawCount n (old + 1) s)

/-- EXACT is re-evaluated when a step changed a count or a condition since `old` (R30, R34 step 1). -/
def evalExactIf (old s : State) : State := if tubeFigures old = tubeFigures s then s else evalExact s

/-- A COIN_TUBE report (R32). -/
def coinTube (k : Nat) (s : State) : State :=
  match (s.tables.coin k).tube with
  | none => coinBox k s
  | some n => takeCoin k (evalExactIf s (coinIntoTube n s))

/-! ### Pulses and endings -/

/-- A pulse of tube `n` begins with its exit window (R45); a pulse on the tube whose retry is pending is
the retry (R48). -/
def pulse (n : Nat) (s : State) : State :=
  { s with change.payout := s.change.payout.map fun p =>
      { p with pulsed := some n, energised := some n, windowCoins := 0, isRetry := p.retry == some n,
               retry := none } }

/-- A payout ends: its record goes and the grant is released (R44); the sale state follows (R4). -/
def endPayout (s : State) : State := setSale (release .payout { s with change.payout := none })

/-- The value of the coins of the payout in flight. -/
def State.paid (s : State) : Nat := match s.change.payout with | some p => p.paid | none => 0

/-- The ending with nothing left to pay (R50 test 1). -/
def payoutDone (s : State) : State := endPayout (raise .payoutDone none (val s.paid) s)

/-- The short end (R50): what fits the headroom moves from `return_due` to `credit`, and the short-end
wait is set. -/
def payoutShort (s : State) : State :=
  let r := s.credit.returnDue
  let m := min r s.headroom
  let s1 := { s with credit.returnDue := r - m, credit.credit := s.credit.credit + m }
  masksIfHeld s (endPayout { raise .payoutShort none (val r) s1 with change.shortWait := true })

/-- The plan is computed for the current `return_due` and replaces the remaining takes; the mark is
cleared (R49). -/
def replan (s : State) : State :=
  let plan := changePlan s s.credit.returnDue
  { s with change.payout := s.change.payout.map fun p => { p with plan := plan.takes, replan := false } }

/-- The first tube with a remaining take in the plan of the payout in flight. -/
def State.nextTake (s : State) : Option Nat :=
  match s.change.payout with
  | some p => firstTake p.plan
  | none => none

/-- A plan just computed is paid from its first tube, or the payout ends short (R44, R50 tests 4 and 5). -/
def pulseOrShort (s : State) : State :=
  match s.nextTake with
  | some n => pulse n s
  | none => payoutShort s

/-- The ending tests and the next pulse of a RETURN payout (R50). -/
def nextReturn (s : State) : State :=
  match s.change.payout with
  | none => s
  | some p =>
    if s.credit.returnDue = 0 then payoutDone s
    else
      match p.retry with
      | some n => pulse n s
      | none =>
        match firstTake p.plan with
        | some n => pulse n s
        | none => pulseOrShort (replan s)

/-- The endings of a drain in DRAIN_DONE (R51, R188): 0 COMPLETE, 1 EMPTY, 2 FAULTED. -/
inductive DrainEnding where
  | complete
  | empty
  | faulted
deriving DecidableEq, Repr

def DrainEnding.code : DrainEnding → Nat
  | .complete => 0 | .empty => 1 | .faulted => 2

/-- What a closed window decided (R48). -/
inductive Verdict where
  | none
  | empty
  | notEmpty
deriving DecidableEq, Repr

/-- The coins seen as the one character of DRAIN_DONE carries them (R188); the spec states no character
for more than 255 coins (DESIGN CHOICE, log 32). -/
def coinsSeen (coins : Nat) : Nat := if coins ≤ 255 then coins else Config.coinsAbove255 coins

/-- The end of a drain (R51): DRAIN_DONE carries the ending and the number of coins seen. -/
def drainDone (n coins : Nat) (e : DrainEnding) (s : State) : State :=
  endPayout (raise .drainDone (some n) (some (pack 0 0 e.code (coinsSeen coins))) s)

/-- The tests at the close of a window of a DRAIN payout (R51). -/
def nextDrain (n left coins : Nat) (v : Verdict) (s : State) : State :=
  if left = 0 then drainDone n coins .complete s
  else if v = .empty then drainDone n coins .empty s
  else if (s.tube n).cond = .faulted ∨ v = .notEmpty then drainDone n coins .faulted s
  else pulse n s

/-! ### The grant, the coins and the windows -/

/-- The PAYOUT grant is given (R44). -/
def payoutGiven (s : State) : State :=
  match s.change.payout with
  | none => s
  | some p =>
    if p.held || !s.supply.granted.payout then s
    else
      let s := { s with change.payout := some { p with held := true, replan := false } }
      match p.kind with
      | .refund => pulseOrShort (replan s)
      | .drain n _ => pulse n s

/-- The 40 ms energising ends (R45). -/
def pulseEnds (s : State) : State :=
  { s with change.payout := s.change.payout.map fun p => { p with energised := none } }

/-- The plan with the remaining take of a tube lowered by 1 (R46). -/
def lowerTake (n : Nat) (plan : List (Nat × Nat)) : List (Nat × Nat) :=
  plan.map fun e => if e.1 = n then (e.1, e.2 - 1) else e

/-- The payout record after a coin of value `v` from tube `n` (R46). Its number of coins seen stops at 65535 (DESIGN
CHOICE, log 51). -/
def Payout.seeCoin (n v : Nat) (p : Payout) : Payout :=
  let p1 := { p with retry := none, paid := p.paid + v, coins := satAdd Config.maxCount16 p.coins 1,
                     plan := lowerTake n p.plan, windowCoins := p.windowCoins + 1 }
  match p.kind with
  | .refund => if p.windowCoins = 0 then p1 else { p1 with replan := true }
  | .drain t left => { p1 with kind := .drain t (left - 1) }

/-- The totals after a coin of value `v`, by the kind of the payout (R46). -/
def countPaid (k : PayoutKind) (v : Nat) (s : State) : State :=
  match k with
  | .refund =>
    let x := min v s.credit.returnDue
    { s with audit.changePaid := addTotal s.audit.changePaid v,
             credit.returnDue := s.credit.returnDue - x,
             audit.excessPaid := addTotal s.audit.excessPaid (v - x) }
  | .drain _ _ => { s with audit.drained := addTotal s.audit.drained v }

/-- A coin at the exit sensor (R46), or a stray coin (R47). EXACT is re-evaluated once, after the count's fall and its
correction by R38 (DESIGN CHOICE, log 50). -/
def coinAtExit (s : State) : State :=
  match s.change.payout with
  | none => { s with change.stray := satAdd Config.maxCount16 s.change.stray 1 }
  | some p =>
    match p.pulsed with
    | none => { s with change.stray := satAdd Config.maxCount16 s.change.stray 1 }
    | some n =>
      let v := s.tables.tubeValue n
      let s1 := reconcile n (rawCount n ((s.tube n).count - 1) s)
      let s2 := { s1 with change.payout := s1.change.payout.map (Payout.seeCoin n v) }
      let s3 := setSale (countPaid p.kind v s2)
      if (s.tube n).count = 0 then afterTubesIf s s3 else afterTubes s3

/-- The low sensor of a tube is fitted and uncovered (R48). -/
def lowUncovered (n : Nat) (s : State) : Bool :=
  decide (0 < (s.tables.tube n).lowMark) && (s.tube n).low.accepted == some false

/-- The decision after the second miss on a tube (R48). -/
def decideTube (n : Nat) (s : State) : State × Verdict :=
  if lowUncovered n s then
    (markReplan (reconcile n (raiseCorrected n .empty (s.tube n).count 0 (rawCount n 0 s))), .empty)
  else if (s.tube n).cond = .ok then (markReplan (raiseTubeFault n 1 (rawCond n .faulted s)), .notEmpty)
  else (markReplan s, .notEmpty)

/-- A window closes with no coin seen (R48): the first miss sets the retry mark, the second decides. -/
def miss (n : Nat) (isRetry : Bool) (s : State) : State × Verdict :=
  if isRetry then
    let r := decideTube n s
    (afterTubesIf s r.1, r.2)
  else ({ s with change.payout := s.change.payout.map fun p => { p with retry := some n } }, .none)

/-- The mark of R49 is acted on. -/
def replanIfMarked (s : State) : State :=
  match s.change.payout with
  | some p => if p.replan then replan s else s
  | none => s

/-- The ending tests of the payout in flight (R50, R51). -/
def afterWindow (v : Verdict) (s : State) : State :=
  match s.change.payout with
  | none => s
  | some p =>
    match p.kind with
    | .refund => nextReturn s
    | .drain n left => nextDrain n left p.coins v s

/-- An exit window closes (R45): a miss, a replan, then the ending tests and the next pulse (DEDUCED, log 27). -/
def windowCloses (s : State) : State :=
  match s.change.payout with
  | none => s
  | some p =>
    match p.pulsed with
    | none => s
    | some n =>
      let s1 := { s with change.payout := some { p with pulsed := none, energised := none } }
      let r := if p.windowCoins = 0 then miss n p.isRetry s1 else (s1, .none)
      afterWindow r.2 (replanIfMarked r.1)

/-- Clear Tube Fault on a FAULTED tube (R53). EXACT is re-evaluated once, after the condition is OK and R38 has been
applied (DESIGN CHOICE, log 50). -/
def clearFault (n : Nat) (s : State) : State := afterTubes (reconcile n (rawCond n .ok s))

end Sys2Proof.Machine
end

