-- ==== Sys2Proof/Machine/Spiral.lean ====
section
/-! DEFINITION. The Spiral Drive: availability and choice (R57, R65, R66), the vend operation (R70, R71,
R84), the matrix (R61, R72), one revolution (R73 to R79), what follows it (R80 to R83), and the service
operations (R86 to R88). -/

namespace Sys2Proof.Machine

/-! ### Choice and availability -/

/-- A spiral is READY (R59). -/
def spiralReady (s : State) (p : Nat) : Bool := (s.spiral p).state == .ready

/-- The first READY spiral of a list whose first position is `j`, and its position. -/
def firstReady (s : State) : Nat → List Nat → Option (Nat × Nat)
  | _, [] => none
  | j, p :: ps => if spiralReady s p then some (p, j) else firstReady s (j + 1) ps

/-- The choice of a spiral for a selection, with its list position (R57). -/
def choose (s : State) (i : Nat) : Option (Nat × Nat) :=
  let r := s.tables.sel i
  if r.firstMode then firstReady s 0 r.spirals
  else
    let n := (s.sel i).next
    match firstReady s n (r.spirals.drop n) with
    | some c => some c
    | none => firstReady s 0 (r.spirals.take n)

/-- A selection is HELD (R66). -/
def selHeld (s : State) (i : Nat) : Bool := (s.tables.sel i).perishable && (s.zone (s.tables.sel i).zone).latched

/-- The reasons of UNAVAILABLE (R65, R188). -/
inductive Unfit where
  | inhibited
  | soldOut
  | unassigned
  | noReadySpiral
deriving DecidableEq, Repr

def Unfit.code : Unfit → Nat
  | .inhibited => 0 | .soldOut => 1 | .unassigned => 2 | .noReadySpiral => 3

/-- The result of the availability check (R65). -/
inductive Avail where
  | passes
  | unavailable (why : Unfit)
  | held
deriving DecidableEq, Repr

/-- The availability check (R65). -/
def available (s : State) (i : Nat) : Avail :=
  match (s.sel i).state with
  | .inhibited => .unavailable .inhibited
  | .soldOut => .unavailable .soldOut
  | .enabled =>
    if (s.tables.sel i).spirals = [] then .unavailable .unassigned
    else if selHeld s i then .held
    else if (s.tables.sel i).spirals.any (spiralReady s) then .passes
    else .unavailable .noReadySpiral

/-! ### The outcome of a vend (R8 to R11) -/

/-- The failure reasons of a vend (R84, R188). -/
inductive VendFailure where
  | noProduct
  | spiralFault
  | noReadySpiral
  | held
  | interrupted
deriving DecidableEq, Repr

def VendFailure.code : VendFailure → Nat
  | .noProduct => 0 | .spiralFault => 1 | .noReadySpiral => 2 | .held => 3 | .interrupted => 4

/-- The sale counter of a selection grows (R8, R58). -/
def countSale (i : Nat) (s : State) : State :=
  modSel i (fun r => { r with sales := satAdd Config.maxCount16 r.sales 1 }) s

/-- A successful vend is committed (R8, R10). -/
def commitVend (i : Nat) (s : State) : State :=
  match s.credit.inFlight with
  | none => s
  | some .cash =>
    let price := s.credit.vendHold
    let s := countSale i { s with audit.cashSales := addTotal s.audit.cashSales price }
    let s := { s with credit.vendHold := 0, credit.inFlight := none }
    let s := match s.tables.money.policy with
      | .single => creditToReturn s
      | .multi => s
    raise .vendDone (some i) (val price) s
  | some (.external amount) =>
    let s := countSale i { s with audit.externalSales := addTotal s.audit.externalSales amount }
    raise .vendDone (some i) (val amount) { s with credit.inFlight := none }

/-- A failed vend is restored (R9, R10). -/
def failVend (i : Nat) (why : VendFailure) (s : State) : State :=
  match s.credit.inFlight with
  | none => s
  | some _ =>
    raise .vendFailed (some i) (some (pack 0 0 0 why.code))
      { s with credit.credit := s.credit.credit + s.credit.vendHold, credit.vendHold := 0,
               credit.inFlight := none }

/-- The follow-on steps of a vend's end (R11), and the masks; `old` is the state before the outcome. -/
def afterVend (old s : State) : State :=
  let s := if s.credit.pendingReturn then
      { creditToReturn { s with credit.pendingReturn := false } with change.shortWait := false }
    else s
  masksIfHeld old (payoutTest (setSale s))

/-! ### The matrix (R61, R72) -/

/-- A spiral is given a home probe: NOT_HOME with the probe pending (R60, R61). -/
def addProbe (p : Nat) (s : State) : State :=
  modSpiral p (fun r => { r with state := .notHome, probePending := true }) s

/-- The motor is stopped: the row switch opens first, the column switch 1 ms later (R72). -/
def stopMotor (s : State) : State := { s with drive.row := none }

/-- A vend or service operation holds the matrix: its MOTOR grant was given (R70). -/
def matrixHeld (s : State) : Bool :=
  (match s.drive.vend with | some v => v.told | none => false) ||
  (match s.drive.service with | some o => o.told | none => false)

/-- No switch of the matrix is closed and no probe is under way. -/
def matrixFree (s : State) : Bool :=
  s.drive.column.isNone && s.drive.row.isNone && s.drive.probing.isNone

/-- The lowest position from `p` on, in at most `fuel` positions, with a probe pending (R61). -/
def lowestPending (s : State) : Nat → Nat → Option Nat
  | 0, _ => none
  | fuel + 1, p => if (s.spiral p).probePending then some p else lowestPending s fuel (p + 1)

/-- A spiral whose Home Spiral operation has the grant and waits for its probe (R88). -/
def homeProbeDue (s : State) : Option Nat :=
  match s.drive.service with
  | some o => if o.home && o.told then some o.spiral else none
  | none => none

/-- What a free matrix does next: the column switch of a revolution being started closes (R72), or the
probe of a Home Spiral operation (R88), or the lowest pending probe (R61). -/
def kickMatrix (s : State) : State :=
  if matrixFree s then
    match s.drive.rev with
    | some r => if r.stage = .starting then { s with drive.column := some r.spiral } else s
    | none =>
      match homeProbeDue s with
      | some p => { s with drive.probing := some p }
      | none => if matrixHeld s then s else { s with drive.probing := lowestPending s 64 0 }
  else s

/-- The column switch opens 1 ms after its row switch (R72); it stays closed for a new motor start of its spiral
that has been granted meanwhile (DESIGN CHOICE, log 43). -/
def columnOpens (s : State) : State :=
  match s.drive.column, s.drive.row with
  | some c, none =>
    match s.drive.rev with
    | some r => if r.stage = .starting ∧ r.spiral = c then s else { s with drive.column := none }
    | none => { s with drive.column := none }
  | _, _ => s

/-- A revolution or Home Spiral run before its motor start. -/
def newRev (p : Nat) : Rev :=
  { spiral := p, stage := .starting, leaveDone := false, switch := .unread, window := false,
    armed := false, broken := 0, heldOpen := false, drop := false, failure := none, time := 0,
    openChecked := false }

/-- A revolution of a spiral is started (R72). -/
def startRev (p : Nat) (s : State) : State := { s with drive.rev := some (newRev p) }

/-! ### The vend operation (R70, R71, R84) -/

/-- Steps 1, 2 and 5 of a vend's end (R84): the motor stops, the record goes, and the MOTOR grant or
request of the vend is given up; while a service operation is in flight the vend has asked for none (R71). -/
def leaveVend (s : State) : State :=
  if s.drive.service.isSome then { s with drive.vend := none }
  else release .motor { stopMotor s with drive.vend := none, drive.rev := none }

/-- The next pointer after a success (R57). -/
def advancePointer (i position : Nat) (s : State) : State :=
  let r := s.tables.sel i
  if r.firstMode then s
  else modSel i (fun k => { k with next := if position + 1 < r.spirals.length then position + 1 else 0 }) s

/-- A vend ends in success (R84). -/
def vendSucceeds (v : VendOp) (s : State) : State :=
  afterVend s (commitVend v.sel (advancePointer v.sel v.position (leaveVend s)))

/-- A vend ends in failure (R84). -/
def vendFails (v : VendOp) (why : VendFailure) (s : State) : State :=
  afterVend s (failVend v.sel why (leaveVend s))

/-- The vend operation of an admitted vend begins (R71). -/
def beginVend (i : Nat) (s : State) : State :=
  match choose s i with
  | none => afterVend s (failVend i .noReadySpiral s)
  | some (p, j) =>
    let v : VendOp := { sel := i, spiral := p, position := j, revolutions := 0, drop := false,
                        tried := false, params := s.tables.drive, told := false }
    let s := { s with drive.vend := some v }
    if s.drive.service.isSome then s else request .motor s

/-- A vend turns a spiral it has chosen, under the grant it holds (R71, R83). -/
def turnSpiral (v : VendOp) (p j : Nat) (s : State) : State :=
  let v1 : VendOp := { v with spiral := p, position := j, revolutions := 0, told := true }
  startRev p { s with drive.vend := some v1 }

/-- The MOTOR grant is given to a vend (R71 step 4). -/
def vendGiven (v : VendOp) (s : State) : State :=
  if spiralReady s v.spiral then turnSpiral v v.spiral v.position s
  else
    match choose s v.sel with
    | some (p, j) => turnSpiral v p j s
    | none => vendFails v .noReadySpiral s

/-! ### The service operations (R86 to R88) -/

/-- A service operation is removed, its grant released; a waiting vend then asks for it (R71). -/
def leaveService (s : State) : State :=
  let s := stopMotor s
  let s := release .motor { s with drive.service := none, drive.rev := none }
  if s.drive.vend.isSome then request .motor s else s

/-- SPIRAL_FAULT with its kind and cause (R82, R188). -/
def raiseSpiralFault (p : Nat) (f : Failure) (s : State) : State :=
  raise .spiralFault (some p) (some (pack 0 0 f.kindCode f.causeCode)) s

/-- A spiral's state is set. -/
def setSpiral (p : Nat) (x : SpiralState) (s : State) : State := modSpiral p (fun r => { r with state := x }) s

/-- The causes of SPIRAL_HOME_DONE (R88, R188). -/
inductive HomeCause where
  | probe
  | home
  | time
  | currentHigh
  | currentLow
deriving DecidableEq, Repr

def HomeCause.code : HomeCause → Nat
  | .probe => 0 | .home => 1 | .time => 2 | .currentHigh => 3 | .currentLow => 4

/-- A Home Spiral operation ends with the spiral at home (R88). -/
def homeReady (p : Nat) (why : HomeCause) (s : State) : State :=
  raise .spiralHomeDone (some p) (some (pack 0 0 SpiralState.ready.code why.code))
    (leaveService (setSpiral p .ready s))

/-- A Home Spiral run ends STALLED (R88). -/
def homeStalled (p : Nat) (why : HomeCause) (s : State) : State :=
  let s := raise .spiralHomeDone (some p) (some (pack 0 0 SpiralState.stalled.code why.code))
    (leaveService (setSpiral p .stalled s))
  raise .spiralFault (some p) (some (pack 0 0 2 0)) s

/-- The MOTOR grant is given to a service operation (R86 to R88). -/
def serviceGiven (o : ServiceOp) (s : State) : State :=
  let o1 : ServiceOp := { o with told := true }
  let s := { s with drive.service := some o1 }
  if o.home then
    if spiralReady s o.spiral then homeReady o.spiral .probe s
    else modSpiral o.spiral (fun r => { r with probePending := false }) s
  else startRev o.spiral s

/-- The MOTOR grant is given (R71, R72, R86). -/
def motorGiven (s : State) : State :=
  if !s.supply.granted.motor then s
  else
    match s.drive.service with
    | some o => if o.told then s else serviceGiven o s
    | none =>
      match s.drive.vend with
      | some v => if v.told then s else vendGiven v s
      | none => s

/-- A home probe is complete (R61, R88). It serves a probe of its spiral made pending meanwhile, and the one of a
Home Spiral (DESIGN CHOICE, log 36). -/
def probeDone (closed : Bool) (s : State) : State :=
  match s.drive.probing with
  | none => s
  | some p =>
    let pend := (s.spiral p).probePending
    let s := modSpiral p (fun r => { r with homeClosed := closed }) { s with drive.probing := none }
    let s := if pend then
        modSpiral p (fun r => { r with probePending := false, state := if closed then .ready else .notHome }) s
      else s
    if homeProbeDue s = some p ∧ s.drive.rev = none then
      if closed then homeReady p .probe s else startRev p s
    else s

/-- The code of a Test Spiral result (R188): 0 complete, 1 JAMMED, 2 OPEN, 3 STALLED. -/
def testResult : Option Failure → Nat
  | none => 0
  | some .jammed => 1
  | some .openMotor => 2
  | some .stalledLeave => 3
  | some .stalledReturn => 3

/-- The spiral state after a Test Spiral revolution (R87). -/
def testState (f : Option Failure) (x : SpiralState) : SpiralState :=
  match x, f with
  | .unassigned, _ => .unassigned
  | _, some e => e.state
  | .empty, none => .empty
  | _, none => .ready

/-- A Test Spiral operation ends (R87; DEDUCED, log 18). -/
def endTest (r : Rev) (s : State) : State :=
  let p := r.spiral
  let x := (s.spiral p).state
  let s := raise .spiralTestDone (some p)
    (some (pack (testResult r.failure) (if r.drop then 1 else 0)
      (min Config.maxCount16 r.time / 256) (min Config.maxCount16 r.time))) (leaveService s)
  let s := setSpiral p (testState r.failure x) s
  match r.failure with
  | some f => if x = .unassigned then s else raiseSpiralFault p f s
  | none => s

/-! ### After a revolution of a vend (R80 to R83) -/

/-- The vend moves on after a spiral judged EMPTY or failed (R83). -/
def moveOn (v : VendOp) (wasFault : Bool) (s : State) : State :=
  let v1 : VendOp := { v with tried := true }
  let s := { s with drive.vend := some v1, drive.rev := none }
  match choose s v.sel with
  | none =>
    let s := modSel v.sel (fun k => { k with state := .soldOut }) s
    vendFails v1 .noProduct (raise .selectionSoldOut (some v.sel) none s)
  | some (p, j) =>
    if v.params.autoNext then turnSpiral v1 p j s
    else vendFails v1 (if wasFault then .spiralFault else .noProduct) s

/-- The window of a vend's revolution closes without a drop (R80, R82). -/
def windowPassed (v : VendOp) (r : Rev) (s : State) : State :=
  match r.failure with
  | some _ => moveOn v true s
  | none =>
    if v.revolutions < 1 + v.params.extraRevs then startRev v.spiral s
    else
      let s := raise .spiralEmpty (some v.spiral) (val v.revolutions) (setSpiral v.spiral .empty s)
      moveOn v false s

/-! ### One revolution (R72 to R79) -/

/-- The phases of a vend (R70); ENDED lasts no time, as the record is removed in the same step. -/
inductive VendPhase where
  | grantWait
  | turning
  | tail
deriving DecidableEq, Repr

/-- The phase of the vend in flight (R70). A revolution whose switches are still closing counts as
TURNING (R72, DEDUCED, log 26). -/
def vendPhase (s : State) : Option VendPhase :=
  match s.drive.vend with
  | none => none
  | some v =>
    if v.told then
      match s.drive.rev with
      | some r => if r.stage = .tail then some .tail else some .turning
      | none => some .turning
    else some .grantWait

/-- The parameters of the operation that turns the motor (R69). -/
def driveParams (s : State) : DriveParams :=
  match s.drive.service with
  | some o => if o.told then o.params else
      match s.drive.vend with
      | some v => v.params
      | none => s.tables.drive
  | none =>
    match s.drive.vend with
    | some v => v.params
    | none => s.tables.drive

/-- The service operation that holds the matrix, if one does. -/
def runningService (s : State) : Option ServiceOp :=
  match s.drive.service with
  | some o => if o.told then some o else none
  | none => none

/-- The revolution opens a drop window (R79, R81, R87, R88). -/
def hasWindow (s : State) : Bool :=
  match runningService s with
  | some o => !o.home
  | none => (driveParams s).dropConfirm

/-- The motor start: the row switch closes (R72, R73, R79; DEDUCED, log 33). -/
def motorStarts (beamBroken : Bool) (s : State) : State :=
  match s.drive.rev with
  | none => s
  | some r =>
    if r.stage = .starting ∧ s.drive.column = some r.spiral then
      let atHome := (s.spiral r.spiral).homeClosed
      let sw : Debounce := { accepted := some atHome, runValue := atHome, runLen := 0 }
      let r1 : Rev := { r with stage := .turning, leaveDone := !atHome, switch := sw,
                               window := hasWindow s, armed := !beamBroken }
      let s := { s with drive.row := some r.spiral, drive.rev := some r1 }
      match runningService s with
      | some o =>
        if o.home then s else modSpiral r.spiral (fun k => { k with probePending := false }) s
      | none =>
        { s with drive.vend := s.drive.vend.map fun v => { v with revolutions := v.revolutions + 1 } }
    else s

/-- The state accepted last becomes the spiral's home switch field when a revolution ends (R73). -/
def keepSwitch (r : Rev) (s : State) : State :=
  modSpiral r.spiral (fun k => { k with homeClosed := r.switch.accepted == some true }) s

/-- The revolution time is stored and judged (R77). -/
def storeTime (p time : Nat) (s : State) : State :=
  let slow := decide (4 * (driveParams s).revLimitMs < 5 * time)
  let s := modSpiral p (fun k => { k with lastRev := min Config.maxCount16 time, slow := slow }) s
  if slow then raise .spiralSlow (some p) (val time) s else s

/-- A revolution enters its drop tail (R79). -/
def enterTail (r : Rev) (s : State) : State := { s with drive.rev := some { r with stage := .tail } }

/-- A revolution is complete (R74, R77, R79, R81), or a Home Spiral run reaches home (R88). -/
def revComplete (r : Rev) (time : Nat) (s : State) : State :=
  let s := keepSwitch r (stopMotor s)
  match runningService s with
  | some o =>
    if o.home then homeReady r.spiral .home s
    else enterTail { r with time := time } (storeTime r.spiral time s)
  | none =>
    let s := storeTime r.spiral time s
    match s.drive.vend with
    | none => s
    | some v =>
      if !v.params.dropConfirm || r.drop then vendSucceeds v s
      else enterTail { r with time := time } s

/-- The end of a Home Spiral run by a failure (R88). -/
def Failure.homeCause : Failure → HomeCause
  | .jammed => .currentHigh
  | .openMotor => .currentLow
  | .stalledLeave => .time
  | .stalledReturn => .time

/-- A revolution fails (R74, R82, R87), or a Home Spiral run does (R88). -/
def revFails (r : Rev) (f : Failure) (s : State) : State :=
  let s := keepSwitch r (stopMotor s)
  match runningService s with
  | some o =>
    if o.home then homeStalled r.spiral f.homeCause s
    else enterTail { r with failure := some f } s
  | none =>
    match s.drive.vend with
    | none => s
    | some v =>
      let s := raiseSpiralFault r.spiral f (setSpiral r.spiral f.state s)
      if !v.params.dropConfirm then moveOn v true s
      else if r.drop then vendSucceeds v s
      else enterTail { r with failure := some f } s

/-- The revolution whose motor is energised. -/
def turningRev (s : State) : Option Rev :=
  match s.drive.rev with
  | some r => if r.stage = .turning then some r else none
  | none => none

/-- Reads of the home switch that may hold the leave (R73). -/
def switchLeaves (reads : List Bool) (s : State) : State :=
  match turningRev s with
  | none => s
  | some r =>
    if r.leaveDone then s
    else
      let d := r.switch.readUntil 3 reads
      let r1 : Rev := { r with switch := d.1, leaveDone := d.2 == some false }
      { s with drive.rev := some r1 }

/-- Reads of the home switch that may hold its closing after the leave (R74). -/
def switchCloses (reads : List Bool) (time : Nat) (s : State) : State :=
  match turningRev s with
  | none => s
  | some r =>
    if r.leaveDone then
      let d := r.switch.readUntil 3 reads
      let r1 : Rev := { r with switch := d.1 }
      if d.2 = some true then revComplete r1 time s else { s with drive.rev := some r1 }
    else s

/-- 600 ms have passed since motor start (R73); the limit does not apply to Home Spiral (R88). -/
def leaveLimitPasses (s : State) : State :=
  match turningRev s with
  | none => s
  | some r =>
    if r.leaveDone || (match runningService s with | some o => o.home | none => false) then s
    else revFails r .stalledLeave s

/-- The revolution limit passes (R74, R88). -/
def revLimitPasses (s : State) : State :=
  match turningRev s with
  | none => s
  | some r => revFails r .stalledReturn s

/-- The current measurements of the last 150 ms (R75; DESIGN CHOICE, log 23). -/
def currentJams (currents : List Nat) (s : State) : State :=
  match turningRev s with
  | none => s
  | some r =>
    if 150 ≤ currents.length ∧ currents.all (fun c => (driveParams s).jamThreshold < c) then
      revFails r .jammed s
    else s

/-- The measurement made 200 ms after motor start (R76). -/
def currentAt200 (current : Nat) (s : State) : State :=
  match turningRev s with
  | none => s
  | some r =>
    if r.openChecked then s
    else
      let r1 : Rev := { r with openChecked := true }
      if current < 100 then revFails r1 .openMotor s else { s with drive.rev := some r1 }

/-! ### The drop beam (R78, R79) -/

/-- A drop is confirmed in an open window (R79, R87). -/
def dropConfirmed (r : Rev) (s : State) : State :=
  let r1 : Rev := { r with drop := true }
  let s := { s with drive.rev := some r1, drive.vend := s.drive.vend.map fun v =>
    if v.told then { v with drop := true } else v }
  if r.stage = .tail then
    match runningService s with
    | some _ => endTest r1 s
    | none =>
      match s.drive.vend with
      | some v => vendSucceeds v s
      | none => s
  else s

/-- The drop window of a revolution in its tail closes (R79, R80, R82, R87). -/
def windowEnds (r : Rev) (s : State) : State :=
  match runningService s with
  | some _ => endTest r s
  | none =>
    match s.drive.vend with
    | some v => windowPassed v r s
    | none => s

/-- Reads of the drop beam (R78); `passed` says that the drop tail has passed. A window whose tail has
passed closes unless an interruption holds it open, and one held open closes at the read that ends the
interruption. -/
def watchBeam (reads : List Bool) (passed : Bool) (s : State) : State :=
  match s.drive.rev with
  | none => s
  | some r =>
    if !r.window then s
    else
      let held := r.stage == .tail && r.heldOpen
      let b := if r.drop then (r.armed, 0, false) else beamReads held reads r.armed r.broken
      let past := r.stage == .tail && (passed || r.heldOpen)
      let r1 : Rev := { r with armed := b.1, broken := b.2.1, heldOpen := past }
      if b.2.2 then dropConfirmed r1 s
      else if past && b.2.1 == 0 then windowEnds r1 s
      else { s with drive.rev := some r1 }

/-! ### A hold latch during a vend (R66) -/

/-- The hold of a zone latches: a vend of a perishable selection of that zone ends at once (R66). Its spiral is given
a home probe when the end stops its motor, and none when the latch finds the vend in GRANT_WAIT or TAIL, the motor not
energised (R60, R66, R84; DESIGN CHOICE, log 56); before the row switch closes the motor counts as stopped (log 26). -/
def holdReachesVend (z : Nat) (s : State) : State :=
  match s.drive.vend with
  | none => s
  | some v =>
    if (s.tables.sel v.sel).perishable ∧ (s.tables.sel v.sel).zone = z then
      match turningRev s with
      | some r =>
        if v.told then
          let s := addProbe v.spiral (keepSwitch r s)
          if v.drop then vendSucceeds v s else vendFails v .held s
        else vendFails v .held s
      | none => vendFails v .held s
    else s

end Sys2Proof.Machine
end

