-- ==== Sys2Proof/Machine/Cold.lean ====
section
/-! DEFINITION. The Refrigeration Controller: conversion and filter (R93, R94), sensor faults (R95, R96),
thermostats and duty cycle (R98, R99), the compressor (R100 to R104), defrost (R105 to R108) and the
temperature hold (R109 to R111). -/

namespace Sys2Proof.Machine

/-! ### Conversion and filter -/

/-- A value held to a range. -/
def clampInt (lo hi x : Int) : Int := max lo (min hi x)

/-- The temperature of a count (R93): interpolation rounded toward negative infinity, then clamped. -/
def convert (t : Tables) (c : Nat) : Int :=
  let k := c / 256
  let r : Int := (c % 256 : Nat)
  clampInt Config.tempLow Config.tempHigh (t.point k + Int.fdiv ((t.point (k + 1) - t.point k) * r) 256)

/-- The step of the filter for a difference (R94): an eighth truncated toward zero, and at least one. -/
def filterStep (d : Int) : Int :=
  let q := Int.tdiv d 8
  if q = 0 then (if 0 < d then 1 else if d < 0 then -1 else 0) else q

/-- The filtered temperature after a good sample (R94). -/
def filtered (f : Option Int) (t : Int) : Int :=
  match f with
  | none => t
  | some x => x + filterStep (t - x)

/-- A good sample (R91 step 1). -/
def goodSample (c : Nat) : Bool := Config.goodLow ≤ c && c ≤ Config.goodHigh

/-! ### The compressor (R100 to R104) -/

/-- The compressor is wanted (R100). -/
def wanted (s : State) : Bool := s.cold.zones.any (·.demand)

/-- The compressor is asked for from IDLE when it is wanted (R102). -/
def askCompressor (s : State) : State :=
  if s.cold.state = .idle ∧ wanted s then request .compStart { s with cold.state := .awaitGrant } else s

/-- A stop: the relay opens, the off timer starts, LOCKED_OFF (R104). -/
def lockOff (s : State) : State :=
  { s with cold.relay := false, cold.runTimer := .off, cold.surgeTimer := none,
           cold.offTimer := some s.tables.refrig.minOffMs, cold.state := .lockedOff }

/-- RUNNING stops when not wanted and past the minimum run time (R103). -/
def stopIfDone (s : State) : State :=
  if s.cold.state = .running ∧ s.cold.runTimer = .passed ∧ !wanted s then release .compRun (lockOff s) else s

/-- The compressor acts on a change of demand (R100, R102, R103). -/
def demandChanged (s : State) : State :=
  match s.cold.state with
  | .idle => askCompressor s
  | .awaitGrant => if wanted s then s else release .compStart { s with cold.state := .idle }
  | .running => stopIfDone s
  | _ => s

/-- A zone's demand is set; the damper follows that of zone 1 (R100). -/
def setDemand (z : Nat) (b : Bool) (s : State) : State :=
  if (s.zone z).demand = b then s
  else
    let s := modZone z (fun r => { r with demand := b }) s
    demandChanged (if z = 1 then { s with cold.damper := b } else s)

/-- The COMP_START grant is given (R102). -/
def compStartGiven (s : State) : State :=
  if s.cold.state = .awaitGrant ∧ s.supply.granted.compStart then
    { s with cold.relay := true, cold.runTimer := .running s.tables.refrig.minRunMs,
             cold.surgeTimer := some s.tables.refrig.surgeMs, cold.state := .starting }
  else s

/-- The exchange of COMP_START for COMP_RUN fits (R119). -/
def exchangeFits (s : State) : Bool :=
  s.grantedSum - s.tables.loads.compStart + s.tables.loads.compRun ≤ s.effectiveBudget

/-- The surge window ends (R103, R119; DEDUCED, log 19). -/
def surgeEnds (s : State) : State :=
  if s.cold.state = .starting ∧ s.cold.surgeTimer.isSome then
    if exchangeFits s then
      let s := { s with cold.surgeTimer := none, cold.state := .running,
                        supply.granted := (s.supply.granted.put .compStart false).put .compRun true }
      stopIfDone (grantRule s)
    else release .compStart (lockOff s)
  else s

/-- The run timer reaches the minimum run time (R103). -/
def minRunPasses (s : State) : State :=
  match s.cold.runTimer with
  | .running _ => stopIfDone { s with cold.runTimer := .passed }
  | _ => s

/-- The off timer expires (R104). -/
def offTimerExpires (s : State) : State :=
  match s.cold.offTimer with
  | none => s
  | some _ =>
    let s := { s with cold.offTimer := none }
    if s.cold.state = .lockedOff then askCompressor { s with cold.state := .idle } else s

/-! ### Defrost (R105 to R108) -/

/-- The causes of DEFROST_BEGIN (R188). -/
inductive DefrostCause where
  | interval
  | request
deriving DecidableEq, Repr

def DefrostCause.code : DefrostCause → Nat
  | .interval => 0 | .request => 1

/-- The compressor leaves its state for a defrost (R105). -/
def leaveForDefrost (s : State) : State :=
  match s.cold.state with
  | .running => release .compRun (lockOff s)
  | .awaitGrant => release .compStart s
  | _ => s

/-- A defrost may begin from a state (R105, R108). -/
def CompState.mayDefrost : CompState → Bool
  | .lockedOff | .idle | .awaitGrant | .running => true
  | .starting | .defrost | .drip => false

/-- A defrost begins (R105). -/
def beginDefrost (c : DefrostCause) (s : State) : State :=
  let s := leaveForDefrost s
  let s := { s with cold.runSince := 0, cold.heaterOn := 0, cold.pendingDefrost := false,
                    cold.state := .defrost }
  raise .defrostBegin none (val c.code) (request .heater s)

/-- The HEATER grant is given (R106). -/
def heaterGiven (s : State) : State :=
  if s.cold.state = .defrost ∧ s.supply.granted.heater then { s with cold.heater := true } else s

/-- A defrost ends (R106); the cause is 0 TEMPERATURE or 1 TIME. -/
def endDefrost (cause : Nat) (s : State) : State :=
  let h := s.cold.heaterOn
  let s := release .heater { s with cold.heater := false, cold.state := .drip }
  raise .defrostEnd none (some (pack cause (h / 65536) (h / 256) h))
    { s with cold.dripTimer := some s.tables.refrig.dripMs }

/-- The evaporator is good and warm enough to end a defrost (R106). -/
def evaporatorWarm (s : State) : Bool :=
  !(s.sensor 2).faulted &&
  (match (s.sensor 2).temp with
   | some f => s.tables.refrig.defrostEndTemp ≤ f
   | none => false)

/-- The defrost end tests of an evaporator sample (R106). -/
def defrostTests (s : State) : State :=
  if s.cold.state = .defrost then
    if evaporatorWarm s then endDefrost 0 s
    else if s.tables.refrig.maxDefrost ≤ s.cold.heaterOn then endDefrost 1 s
    else s
  else s

/-- The heater-on time grows at a tick at which the heater is energised (R106). -/
def heaterTick (s : State) : State := if s.cold.heater then { s with cold.heaterOn := s.cold.heaterOn + 1 } else s

/-- The once-a-second growth and test of the run time since the last defrost (R105, R108). -/
def intervalTick (s : State) : State :=
  let s := if s.cold.state = .starting ∨ s.cold.state = .running then
      { s with cold.runSince := satAdd Config.maxRunSince s.cold.runSince 1 } else s
  if s.cold.state.mayDefrost then
    if s.cold.pendingDefrost then beginDefrost .request s
    else if s.tables.refrig.defrostInterval ≤ s.cold.runSince then beginDefrost .interval s
    else s
  else s

/-- The drip time has passed (R107). -/
def dripEnds (s : State) : State :=
  if s.cold.state = .drip ∧ s.cold.dripTimer.isSome then
    let s := { s with cold.dripTimer := none }
    if s.cold.offTimer.isSome then { s with cold.state := .lockedOff }
    else askCompressor { s with cold.state := .idle }
  else s

/-! ### Holds (R109 to R111) -/

/-- The value of ZONE_HOLD (R188): F, or the last raw count. -/
def holdValue (x : TempSensor) : Word32 :=
  match x.temp with
  | some f => let n := (BitVec.ofInt 16 f).toNat; pack 0 0 (n / 256) n
  | none => pack 1 0 (x.raw / 256) x.raw

/-- A zone's latch is set; the timer stays at 0 while it is (R109). -/
def setLatch (z : Nat) (s : State) : State := modZone z (fun r => { r with latched := true, holdTimer := 0 }) s

/-- A zone is warm at a sample (R109). -/
def warmAt (s : State) (z : Nat) : Bool :=
  (s.sensor z).faulted ||
  (match (s.sensor z).temp with
   | some f => (s.tables.zone z).holdLimit < f
   | none => true)

/-- The hold timer is applied at a sample of the zone's sensor (R109). -/
def holdTick (z : Nat) (s : State) : State :=
  if (s.zone z).latched then s
  else if warmAt s z then
    let n := (s.zone z).holdTimer + 1
    if (s.tables.zone z).holdTime ≤ n then
      holdReachesVend z (raise .zoneHold (some z) (some (holdValue (s.sensor z))) (setLatch z s))
    else modZone z (fun r => { r with holdTimer := n }) s
  else modZone z (fun r => { r with holdTimer := 0 }) s

/-- The start check of a zone at its first sample (R110). -/
def startCheck (z c : Nat) (s : State) : State :=
  if goodSample c then (if warmAt s z then setLatch z s else s) else setLatch z s

/-- The hold is released (R111). -/
def releaseHold (z : Nat) (s : State) : State :=
  raise .holdReleased (some z) ((s.sensor z).temp.map (BitVec.ofInt 32 ·))
    (modZone z (fun r => { r with latched := false, holdTimer := 0 }) s)

/-! ### Samples (R91) -/

/-- Twice the differential's halves, rounded up and down (R98). -/
def upperPoint (s : State) (z : Nat) : Int :=
  let p := s.tables.zone z
  p.setpoint + (if s.lock.economy then p.economyOffset else 0 : Nat) + ((p.differential + 1) / 2 : Nat)
def lowerPoint (s : State) (z : Nat) : Int :=
  let p := s.tables.zone z
  p.setpoint + (if s.lock.economy then p.economyOffset else 0 : Nat) - (p.differential / 2 : Nat)

/-- The thermostat of a zone with a good sensor (R98). -/
def thermostat (z : Nat) (s : State) : State :=
  match (s.sensor z).temp with
  | none => s
  | some f =>
    if upperPoint s z ≤ f then setDemand z true s
    else if f ≤ lowerPoint s z then setDemand z false s
    else s

/-- The degraded duty cycle begins with its on phase (R99). -/
def beginDuty (k : Nat) (s : State) : State :=
  if k < 2 then setDemand k true (modZone k (fun r => { r with duty := some true }) s) else s

/-- The degraded duty cycle stops (R99). -/
def endDuty (k : Nat) (s : State) : State :=
  if k < 2 then modZone k (fun r => { r with duty := none }) s else s

/-- A bad sample (R95, R96). -/
def badTaken (k c : Nat) (s : State) : State :=
  let x := s.sensor k
  if x.faulted then modSensor k (fun r => { r with goodRun := 0 }) s
  else
    let s := modSensor k (fun r => { r with badRun := r.badRun + 1 }) s
    if x.badRun + 1 < 3 then s
    else beginDuty k (raise .sensorFault (some k) (val c)
      (modSensor k (fun r => { r with faulted := true, goodRun := 0 }) s))

/-- A good sample (R93 to R96). -/
def goodTaken (k c : Nat) (s : State) : State :=
  let x := s.sensor k
  let t := convert s.tables c
  let s := modSensor k (fun r => { r with badRun := 0 }) s
  if x.faulted then
    if x.goodRun + 1 < 10 then modSensor k (fun r => { r with goodRun := r.goodRun + 1 }) s
    else
      endDuty k (raise .sensorOk (some k) (ival t)
        (modSensor k (fun r => { r with faulted := false, goodRun := 0, temp := some t }) s))
  else modSensor k (fun r => { r with temp := some (filtered r.temp t) }) s

/-- Steps 3 of a zone sensor's sample (R91), with the start check of its first (R110). -/
def zoneSteps (z c : Nat) (first : Bool) (s : State) : State :=
  let s := if (s.sensor z).faulted then s else thermostat z s
  holdTick z (if first then startCheck z c s else s)

/-- A sample is taken whole at its sensor record (R91). The 1 s tick of R105 and R106 is taken with the
evaporator's sample (DESIGN CHOICE, log 9). -/
def takeSample (k c : Nat) (s : State) : State :=
  let first := !(s.sensor k).sampled
  let s := if k = 2 then heaterTick s else s
  let s := modSensor k (fun r => { r with raw := c, sampled := true }) s
  let s := if goodSample c then goodTaken k c s else badTaken k c s
  if k = 2 then intervalTick (defrostTests s) else zoneSteps k c first s

/-- A sample while sampling runs. -/
def sample (k : Fin 3) (c : BitVec 12) (s : State) : State :=
  if s.samplingOn then takeSample k.val c.toNat s else s

/-- A sample that is the one a command names, by what it brings about; else no effect (DESIGN CHOICE, log 3). -/
def sampleWhen (k : Fin 3) (c : BitVec 12) (named : State → State → Bool) (s : State) : State :=
  let t := sample k c s
  if named s t then t else s

/-- The duty cycle of a zone changes its phase (R99). -/
def dutyPhase (z : Nat) (s : State) : State :=
  match (s.zone z).duty with
  | none => s
  | some p => setDemand z (!p) (modZone z (fun r => { r with duty := some (!p) }) s)

/-- Defrost Now by the compressor state (R108): the state after it, and whether it was accepted. A request still pending
from STARTING does not hold back one taken in another state, which begins the defrost at once (DESIGN CHOICE, log 52). -/
def defrostNow (s : State) : State × Bool :=
  match s.cold.state with
  | .defrost => (s, false)
  | .drip => (s, false)
  | .starting => ({ s with cold.pendingDefrost := true }, true)
  | .lockedOff => (beginDefrost .request s, true)
  | .idle => (beginDefrost .request s, true)
  | .awaitGrant => (beginDefrost .request s, true)
  | .running => (beginDefrost .request s, true)

end Sys2Proof.Machine
end

