-- ==== Sys2Proof/Machine/LineMaster.lean ====
section
/-! DEFINITION. The Line Master: sending (R134, R187), the choice of the next transaction (R139), rounds
(R140), outcomes (R135 to R138, R142, R145), the reports of a poll (R143, R148 to R150), the receiver
(R131 to R133, R136), slot kinds (R141, R158) and Pass requests (R144). -/

namespace Sys2Proof.Machine

/-! ### Frames (R132, R133, R187) -/

/-- A line frame after its break: address, kind, length, payload, check. -/
def lineFrame (address kind : Nat) (payload : List Byte) : List Byte :=
  let body := char address ++ char kind ++ char payload.length ++ payload
  body ++ crcChars body

/-- The kind of the frame a transaction sends (R187). -/
def TransBody.kind : TransBody → Nat
  | .poll => 0x01
  | .cmd (.masks _) => 0x02
  | .cmd (.escrow _ _ _) => 0x03
  | .pass e => e.kind

/-- The payload of a MASKS frame (R187). -/
def Masks.payload : Masks → List Byte
  | .coin a r => word a.toNat ++ word r.toNat
  | .note m => char m.toNat

/-- The payload of the frame a transaction sends; `pollFlag` is the slot's (R150, R187). -/
def TransBody.payload (pollFlag : Bool) : TransBody → List Byte
  | .poll => flag pollFlag
  | .cmd (.masks m) => m.payload
  | .cmd (.escrow d t _) => char d.code ++ char t
  | .pass e => e.payload

/-- A transaction begins: the driver is enabled and the frame is sent (R134, R136). -/
def sendTrans (slot : Nat) (b : TransBody) (s : State) : State :=
  let f := lineFrame slot b.kind (b.payload (s.slot slot).pollFlag)
  let t : Trans := { slot := slot, body := b, stage := .sending, stale := false, frame := f }
  { s with line.trans := some t, line.driver := true, line.idle := false, line.assembling := false }

/-! ### Rounds (R140) -/

/-- The slots polled in a round (R140). -/
def inRound (s : State) (round : Nat) (a : Nat) : Bool :=
  match s.tables.slotKind a, (s.slot a).state with
  | .unused, _ => false
  | _, .absent => round == 0
  | .coinValidator, _ => true
  | .noteReader, _ => true
  | .other, _ => !s.lock.economy || round % 4 == 0

/-- The addresses of the slots, 1 to 8. -/
def addresses : List Nat := [1, 2, 3, 4, 5, 6, 7, 8]

/-- A round begins (R140). -/
def beginRound (s : State) : State :=
  let r := s.line.round + 1
  { s with line.round := r, line.list := addresses.filter (inRound s r.toNat), line.roundPending := false }

/-- A pending round begins when the list has become empty (R140). -/
def roundIfDue (s : State) : State := if s.line.roundPending && s.line.list.isEmpty then beginRound s else s

/-- A round start falls due (R140). -/
def roundDue (s : State) : State :=
  if s.line.list.isEmpty then beginRound s else { s with line.roundPending := true }

/-! ### The choice (R139) -/

/-- The head entry of the internal queue is marked in flight. -/
def markHead : List Cmd → List Cmd
  | [] => []
  | e :: es => { e with inFlight := true } :: es
/-- The head entry of the pass-through queue is marked in flight. -/
def markPass : List PassEntry → List PassEntry
  | [] => []
  | e :: es => { e with inFlight := true } :: es

/-- Steps 2 to 4 of the choice (R139). -/
def choosePassOrPoll (s : State) : State :=
  match s.line.pass with
  | e :: _ => sendTrans e.slot (.pass e) { s with line.pass := markPass s.line.pass }
  | [] =>
    match s.line.list with
    | a :: rest => sendTrans a .poll (roundIfDue { s with line.list := rest })
    | [] => s

/-- The choice of the next transaction; `fuel` bounds the entries dropped at step 1 (R139). -/
def chooseNext : Nat → State → State
  | 0, s => s
  | fuel + 1, s =>
    match s.line.queue with
    | [] => choosePassOrPoll s
    | e :: es =>
      if s.slotPresent e.slot then
        sendTrans e.slot (.cmd e.body) { s with line.queue := markHead s.line.queue }
      else chooseNext fuel (returnCmd .dropped e { s with line.queue := es })

/-- The Line Master chooses when the line is idle (R139). -/
def lineChoose (s : State) : State :=
  if s.running && s.line.idle && s.line.trans.isNone then chooseNext 16 s else s

/-! ### Reports (R143, R148, R149, R185) -/

/-- The modes of MODE_ENDED (R188). -/
inductive Mode where
  | fill
  | economy
deriving DecidableEq, Repr
/-- The causes of MODE_ENDED (R188). -/
inductive ModeEnd where
  | door
  | clear
  | report
deriving DecidableEq, Repr

def Mode.code : Mode → Nat
  | .fill => 0 | .economy => 1
def ModeEnd.code : ModeEnd → Nat
  | .door => 0 | .clear => 1 | .report => 2

/-- MODE_ENDED with its mode and cause (R188). -/
def raiseModeEnded (m : Mode) (c : ModeEnd) (s : State) : State :=
  raise .modeEnded none (some (pack 0 0 m.code c.code)) s

/-- Economy mode, if on, ends with an event (R173, R185). -/
def endEconomy (c : ModeEnd) (s : State) : State :=
  if s.lock.economy then raiseModeEnded .economy c { s with lock.economy := false } else s

/-- A pair the slot's kind does not carry (R149). -/
def reportUnknown (slot code arg : Nat) (s : State) : State :=
  raise .reportUnknown (some slot) (some (pack 0 0 code arg)) s

/-- A FAULT pair (R143). -/
def faultPair (slot code : Nat) (s : State) : State :=
  if (s.slot slot).latch = some code then s
  else raise .peripheralFault (some slot) (val code) (modSlot slot (fun r => { r with latch := some code }) s)

/-- One event pair of a validator's reply (R148, R149). -/
def validatorPair (slot code arg : Nat) (s : State) : State :=
  if code = 0x01 ∧ arg ≤ 15 then endEconomy .report (coinTube arg s)
  else if code = 0x02 ∧ arg ≤ 15 then endEconomy .report (coinBox arg s)
  else if code = 0x03 then raise .coinRejected (some slot) (val arg) s
  else if code = 0x04 then returnLever s
  else if code = 0x7F then faultPair slot arg s
  else reportUnknown slot code arg s

/-- One event pair of a reader's reply (R148, R149). -/
def readerPair (slot code arg : Nat) (s : State) : State :=
  if code = 0x11 ∧ arg ≤ 7 then endEconomy .report (noteEscrow arg s)
  else if code = 0x12 ∧ arg ≤ 7 then noteStacked arg s
  else if code = 0x13 ∧ arg ≤ 7 then noteReturned arg s
  else if code = 0x14 then raise .noteRejected (some slot) (val arg) s
  else if code = 0x7F then faultPair slot arg s
  else reportUnknown slot code arg s

/-- The pairs of a payload in order, each handed over whole before the next is read (R137). -/
def readPairs (pair : Nat → Nat → State → State) : List Byte → State → State
  | c :: a :: rest, s => readPairs pair rest (pair (num c) (num a) s)
  | _, s => s

/-- A poll's payload is read by the kind of the slot (R137). -/
def readPoll (slot : Nat) (payload : List Byte) (s : State) : State :=
  match s.tables.slotKind slot with
  | .coinValidator => readPairs (validatorPair slot) payload s
  | .noteReader => readPairs (readerPair slot) payload s
  | .other => if payload.isEmpty then s else raisePassReply slot 0 0 payload s
  | .unused => s

/-- A poll payload that can be read as pairs, where the slot's kind has pairs (R137). -/
def goodPoll (k : SlotKind) (payload : List Byte) : Bool :=
  match k with
  | .coinValidator => payload.length % 2 == 0 && payload.length ≤ 16
  | .noteReader => payload.length % 2 == 0 && payload.length ≤ 16
  | .other => true
  | .unused => true

/-! ### The slot record (R142, R157, R158) -/

/-- The outcomes of a transaction but contention (R136). -/
inductive TransEnd where
  | replied (payload : List Byte)
  | missed
  | badReply
deriving DecidableEq, Repr

/-- The blocks are told of a peripheral that becomes PRESENT: its held masks are UNKNOWN first (R157, R158). -/
def tellPresent (slot : Nat) (s : State) : State :=
  match s.periphAt slot with
  | some .validator => recomputeMasks (modMaskRec .validator (fun r => { r with held := none }) s)
  | some .reader => recomputeNote (modMaskRec .reader (fun r => { r with held := none }) s)
  | none => s

/-- The blocks are told of a peripheral that becomes SILENT (R142, R157, R158). -/
def tellSilent (slot : Nat) (s : State) : State :=
  match s.periphAt slot with
  | some .validator => recomputeMasks s
  | some .reader => recomputeNote (expireEscrow s)
  | none => s

/-- A REPLIED outcome is taken by the slot's record (R142). -/
def slotReplied (slot : Nat) (s : State) : State :=
  let before := (s.slot slot).state
  let s := modSlot slot (fun r => { r with missed := 0, state := .present }) s
  if before = .present then s
  else tellPresent slot (raise .peripheralFound (some slot) (val (s.tables.slotKind slot).code) s)

/-- A MISSED or BAD_REPLY outcome is taken by the slot's record (R142). -/
def slotMissed (slot : Nat) (s : State) : State :=
  let r := s.slot slot
  let s := modSlot slot (fun x => { x with missed := satAdd 255 x.missed 1 }) s
  if r.state = .present ∧ 3 ≤ r.missed + 1 then
    let s := modSlot slot (fun x => { x with state := .silent }) s
    tellSilent slot (raise .peripheralLost (some slot) (val (s.tables.slotKind slot).code) s)
  else s

/-! ### Outcomes (R135 to R138, R145) -/

/-- The entry of the internal queue that is in flight. -/
def Line.flying (l : Line) : Option Cmd := l.queue.find? (·.inFlight)

/-- The line after a transaction: `idle` at once after MISSED, else when it has been quiet (R136). -/
def leaveTrans (idle : Bool) (s : State) : State :=
  { s with line.trans := none, line.driver := false, line.assembling := false, line.idle := idle }

/-- The command in flight leaves the queue and is handed back (R138). -/
def returnFlying (r : CmdReturn) (s : State) : State :=
  match s.line.flying with
  | none => s
  | some e => returnCmd r e { s with line.queue := s.line.queue.filter fun x => !x.inFlight }

/-- The Pass in flight leaves its queue with PASS_REPLY (R145). -/
def returnPass (e : PassEntry) (result : Nat) (payload : List Byte) (s : State) : State :=
  raisePassReply e.slot result e.tag payload
    { s with line.pass := s.line.pass.filter fun x => !x.inFlight }

/-- An outcome is handed on by the kind of the transaction (R136); a stale poll is not read (R141). -/
def handOn (t : Trans) (o : TransEnd) (s : State) : State :=
  match t.body, o with
  | .poll, .replied payload =>
    if t.stale then s
    else modSlot t.slot (fun r => { r with pollFlag := !r.pollFlag }) (readPoll t.slot payload s)
  | .poll, .missed => s
  | .poll, .badReply => s
  | .cmd _, .replied _ => returnFlying .acknowledged s
  | .cmd _, .missed => returnFlying .notAcknowledged s
  | .cmd _, .badReply => returnFlying .notAcknowledged s
  | .pass e, .replied payload => returnPass e 0 payload s
  | .pass e, .missed => returnPass e 1 [] s
  | .pass e, .badReply => returnPass e 1 [] s

/-- The outcome as it is taken: a poll reply whose payload cannot be read is BAD_REPLY (R137). -/
def heldOutcome (t : Trans) (o : TransEnd) (s : State) : TransEnd :=
  match t.body, o with
  | .poll, .replied payload =>
    if t.stale || goodPoll (s.tables.slotKind t.slot) payload then o else .badReply
  | _, _ => o

/-- A transaction ends with an outcome other than contention (R136, R142). -/
def endTrans (t : Trans) (o : TransEnd) (s : State) : State :=
  let o := heldOutcome t o s
  let s := leaveTrans (o == .missed) s
  let s := if t.stale then s
    else match o with
      | .replied _ => slotReplied t.slot s
      | .missed => slotMissed t.slot s
      | .badReply => slotMissed t.slot s
  handOn t o s

/-- The command in flight after contention (R135, R138): a second contention, or a newer MASKS entry for
its slot, hands it back as DROPPED; else it is marked and stands at the head of its class. -/
def contendCmd (e : Cmd) (s : State) : State :=
  if e.mark || (e.isMasks && (s.line.unsentMasks e.slot).isSome) then returnFlying .dropped s
  else { s with line.queue := s.line.queue.map fun x =>
           if x.inFlight then { x with inFlight := false, mark := true } else x }

/-- The Pass in flight after contention (R135). -/
def contendPass (e : PassEntry) (s : State) : State :=
  if e.mark then returnPass e 2 [] s
  else { s with line.pass := s.line.pass.map fun x =>
           if x.inFlight then { x with inFlight := false, mark := true } else x }

/-- Contention while a frame is being sent (R135); a stale transaction leaves the slot's record as it is (R141). -/
def contend (t : Trans) (s : State) : State :=
  let s := leaveTrans false s
  let s := if t.stale then s
    else modSlot t.slot (fun r => { r with contention := satAdd Config.maxCount16 r.contention 1 }) s
  match t.body with
  | .poll => s
  | .cmd _ => match s.line.flying with | some e => contendCmd e s | none => s
  | .pass e => contendPass e s

/-! ### The receiver (R130 to R136) -/

/-- Noisy characters accepted (R130): those of a reply or an echo also count for the slot. -/
def countNoisy (n : Nat) (s : State) : State :=
  let s := { s with line.noisy := satAdd Config.maxCount16 s.line.noisy n }
  match s.line.trans with
  | some t => modSlot t.slot (fun r => { r with noise := satAdd Config.maxCount16 r.noise n }) s
  | none => s

/-- The line counters of discarded frames (R132, R136). -/
def countFraming (s : State) : State := { s with line.framing := satAdd Config.maxCount16 s.line.framing 1 }
def countCrc (s : State) : State := { s with line.crc := satAdd Config.maxCount16 s.line.crc 1 }
def countTruncated (s : State) : State := { s with line.truncated := satAdd Config.maxCount16 s.line.truncated 1 }
def countUnsolicited (s : State) : State :=
  { s with line.unsolicited := satAdd Config.maxCount16 s.line.unsolicited 1 }

/-- The receiver listens: the part is not driving the line itself (R134, R135). -/
def listening (s : State) : Bool := s.active && !s.line.driver

/-- A frame being received is discarded: the transaction in flight, if any, ends BAD_REPLY (R136); with
none the line is not idle until it is quiet again. -/
def discardFrame (s : State) : State :=
  let s := { s with line.assembling := false }
  match s.line.trans with
  | some t => endTrans t .badReply s
  | none => { s with line.idle := false }

/-- A break received with no transaction in flight begins an unsolicited frame (R136). -/
def unsolicitedBreak (s : State) : State := countUnsolicited { s with line.assembling := true, line.idle := false }

/-- A break is received (R131, R136). In a reply that has begun it discards the frame being assembled, the
transaction ends, and the frame that follows is unsolicited (DEDUCED, log 30). -/
def lineBreakSeen (s : State) : State :=
  match s.line.trans with
  | none => unsolicitedBreak s
  | some t =>
    if s.line.assembling then unsolicitedBreak (discardFrame s)
    else { s with line.assembling := true, line.trans := some { t with stage := .reply } }

/-- The line has been read low with no frame begun (R136): a reply begins, or, with no transaction in flight, the
line is not idle until it is quiet again. -/
def lineLow (s : State) : State :=
  match s.line.trans with
  | some t => { s with line.trans := some { t with stage := .reply } }
  | none => { s with line.idle := false }

/-- A framing error (R131): counted; it discards a frame being assembled, or begins a reply that is no frame. -/
def lineFramingSeen (s : State) : State :=
  let s := countFraming s
  if s.line.assembling then discardFrame s else lineLow s

/-- Characters with no break before them (R131, R136): they are taken into no frame. The first whose stop bit
reads low is a framing error, after which no more are read (DESIGN CHOICE, log 10). -/
def strayChars (cs : List RxChar) (s : State) : State :=
  let taken := takenChars cs
  let sound := taken.takeWhile fun c => !stopLow c
  if taken.isEmpty then s
  else
    let s := countNoisy (noisyCount sound) s
    if sound.length < taken.length then lineFramingSeen s else lineLow s

/-- The line has stayed high for 3 character times within a frame (R132), or in a reply with no frame
begun (R136; DEDUCED, log 34). -/
def lineTruncatedSeen (s : State) : State :=
  if s.line.assembling then discardFrame (countTruncated s)
  else
    match s.line.trans with
    | some t => endTrans t .badReply s
    | none => s

/-- A length or address character out of range (R132). -/
def lineBadHeaderSeen (s : State) : State := if s.line.assembling then discardFrame (countCrc s) else s

/-- A complete frame as its characters give it. -/
structure FrameIn where
  address : Nat
  kind : Nat
  payload : List Byte
  good : Bool
deriving DecidableEq, Repr

/-- The characters of a complete line frame (R132, R133): none when they are no complete frame. -/
def readFrame (cs : List RxChar) : Option FrameIn :=
  let cs := takenChars cs
  let bs := cs.map charValue
  match bs with
  | a :: k :: l :: rest =>
    if cs.any stopLow || rest.length ≠ num l + 2 || 32 < num l || num a = 0 || 8 < num a then none
    else
      let p := rest.take (num l)
      some { address := num a, kind := num k, payload := p,
             good := rest.drop (num l) == crcChars (a :: k :: l :: p) }
  | _ => none

/-- The place of an address or length character out of range (R132). -/
def badLineHeader : List Byte → Option Nat
  | a :: rest =>
    if num a = 0 ∨ 8 < num a then some 1
    else
      match rest with
      | _ :: l :: _ => if 32 < num l then some 3 else none
      | _ => none
  | [] => none

/-- The number of characters of a line frame, as its length character gives it (R132). -/
def lineSize : List Byte → Option Nat
  | _ :: _ :: l :: _ => some (num l + 5)
  | _ => none

/-- A frame being assembled from characters that make no complete frame (R131, R132; DESIGN CHOICE, log 10). -/
def lineCutShort (cs : List RxChar) (s : State) : State :=
  match cutShort badLineHeader lineSize cs with
  | .badHeader n => lineBadHeaderSeen (countNoisy n s)
  | .framing n => lineFramingSeen (countNoisy n s)
  | .unfinished => s

/-- A frame's second CRC character arrives (R133, R136); outside a frame its characters are stray ones. -/
def lineFrameSeen (cs : List RxChar) (s : State) : State :=
  if s.line.assembling then
    match readFrame cs with
    | none => lineCutShort cs s
    | some f =>
      let s := countNoisy (noisyCount cs) s
      if f.good then
        match s.line.trans with
        | none => { s with line.assembling := false, line.idle := false }
        | some t =>
          if f.address = t.slot ∧ f.kind = t.body.kind + 0x80 then endTrans t (.replied f.payload) s
          else endTrans t .badReply s
      else discardFrame (countCrc s)
  else strayChars cs s

/-- The end of the request (R134, R136): the driver is released and the reply window opens. -/
def requestEnds (s : State) : State :=
  match s.line.trans with
  | some t =>
    if t.stage = .sending then
      { s with line.driver := false, line.trans := some { t with stage := .window } }
    else s
  | none => s

/-- A frame is being sent. -/
def sendingTrans (s : State) : Option Trans :=
  match s.line.trans with
  | some t => if t.stage = .sending then some t else none
  | none => none

/-- The reply window closes with no reply begun (R136). -/
def windowCloseSeen (s : State) : State :=
  match s.line.trans with
  | some t => if t.stage = .window then endTrans t .missed s else s
  | none => s

/-- The line has read high for 3 character times with no transaction in flight (R136). -/
def lineQuiet (s : State) : State :=
  if s.line.trans.isNone && !s.line.assembling && s.running then { s with line.idle := true } else s

/-! ### Slot kinds (R141, R158) -/

/-- The mask record of a peripheral whose slot's kind changed (R158). -/
def moveMaskRec (p : Option Periph) (s : State) : State :=
  match p with
  | some p => modMaskRec p (fun r => { r with held := none, push := false }) s
  | none => s

/-- The unsent entries of a slot leave the internal queue as DROPPED, one at a time (R141). -/
def dropSlotCmds (slot : Nat) : Nat → State → State
  | 0, s => s
  | fuel + 1, s =>
    match s.line.queue.find? fun e => e.slot == slot && !e.inFlight with
    | none => s
    | some e => dropSlotCmds slot fuel (returnCmd .dropped e { s with line.queue := s.line.queue.erase e })

/-- The unsent Pass entries of a slot leave their queue with PASS_REPLY DROPPED (R141, R145). -/
def dropSlotPasses (slot : Nat) (s : State) : State :=
  let gone := s.line.pass.filter fun e => e.slot == slot && !e.inFlight
  gone.foldl (fun s e => raisePassReply slot 2 e.tag [] s)
    { s with line.pass := s.line.pass.filter fun e => !(e.slot == slot && !e.inFlight) }

/-- A peripheral that lost its slot's kind is reported SILENT (R141): the masks follow as for a slot that
becomes SILENT (R16, R36). -/
def tellKindLost (p : Option Periph) (s : State) : State :=
  match p with
  | some .reader => recomputeNote (expireEscrow s)
  | some .validator => recomputeMasks s
  | none => s

/-- A slot has taken a peripheral's kind and is ABSENT. A reader is no longer SILENT, so the note mask is
recomputed (R16); it is pushed when the slot is first found (R158; DEDUCED, log 37). -/
def tellKindTaken (p : Option Periph) (s : State) : State :=
  match p with
  | some .reader =>
    if s.running then
      let m := noteMask s
      modMaskRec .reader (fun r => { r with current := .note m }) { s with credit.noteMask := m }
    else s
  | some .validator => s
  | none => s

/-- A slot's kind is set (R141). -/
def setSlotKind (slot : Nat) (k : SlotKind) (s : State) : State :=
  if s.tables.slotKind slot = k then s
  else
    let old := s.periphAt slot
    let s := { s with tables.slotKinds := updAt s.tables.slotKinds (slot - 1) fun _ => k }
    let s := modSlot slot (fun r => { r with state := .absent, missed := 0, latch := none, pollFlag := false }) s
    let s := dropSlotCmds slot Config.lineQueueSize s
    let s := if k = .unused then
        roundIfDue (dropSlotPasses slot { s with line.list := s.line.list.filter (· != slot) })
      else s
    let s := { s with line.trans := s.line.trans.map fun t => if t.slot = slot then { t with stale := true } else t }
    let s := moveMaskRec (s.periphAt slot) (moveMaskRec old s)
    tellKindTaken (s.periphAt slot) (tellKindLost old s)

/-! ### Pass and Clear Faults (R143, R144) -/

/-- A Pass entry is placed last (R144). -/
def placePass (slot kind tag : Nat) (payload : List Byte) (s : State) : State :=
  { s with line.pass := s.line.pass ++ [{ slot := slot, kind := kind, tag := tag, payload := payload,
                                          mark := false, inFlight := false }] }

/-- The latches of one slot, or of all for 0, that hold a code (R143). -/
def latchCount (slot : Nat) (s : State) : Nat :=
  (addresses.filter fun a => (slot == 0 || a == slot) && (s.slot a).latch.isSome).length

/-- The latches of one slot, or of all for 0, are emptied (R143). -/
def clearLatches (slot : Nat) (s : State) : State :=
  if slot = 0 then { s with line.slots := s.line.slots.map fun r => { r with latch := none } }
  else modSlot slot (fun r => { r with latch := none }) s

end Sys2Proof.Machine
end

