-- ==== Sys2Proof/Machine/Arbiter.lean ====
section
/-! DEFINITION. Shedding (R120) and the Retention Store's writes (R123). -/

namespace Sys2Proof.Machine

/-! ### Shedding (R120) -/

/-- The granted sum exceeds the effective budget. -/
def overBudget (s : State) : Bool := s.effectiveBudget < s.grantedSum

/-- LOAD_SHED with the load and the effective budget (R120). -/
def raiseShed (x : Load) (s : State) : State :=
  raise .loadShed (some x.number) (val s.effectiveBudget) s

/-- The heater is shed while the sum is too high; the defrost asks for it again at once (R106, R120). -/
def shedHeater (s : State) : State :=
  if overBudget s && s.supply.granted.heater then
    raiseShed .heater
      { s with supply.granted := s.supply.granted.put .heater false,
               supply.waiting := s.supply.waiting.put .heater true, cold.heater := false }
  else s

/-- The compressor's grant is shed while the sum is too high; the compressor stops (R104, R120; DEDUCED, log 21). -/
def shedCompressor (s : State) : State :=
  if overBudget s && s.supply.granted.compRun then
    lockOff (raiseShed .compRun { s with supply.granted := s.supply.granted.put .compRun false })
  else if overBudget s && s.supply.granted.compStart then
    lockOff (raiseShed .compStart { s with supply.granted := s.supply.granted.put .compStart false })
  else s

/-- A change of the effective budget or of the ratings: shedding, then the grant rule (R118, R120). -/
def budgetChanged (s : State) : State := grantRule (shedCompressor (shedHeater s))

/-! ### The Retention Store (R123) -/

/-- A copy of an image as it is written: its check value is that of its contents (R123). -/
def copyOf {α : Type} (generation : Word32) (contents : α) : StoreCopy α :=
  { generation := generation, contents := contents, check := Config.storeCheck contents }

/-- A copy as the store reads it: one whose check value does not match its contents is invalid (R123). -/
def validCopy {α : Type} (c : Option (StoreCopy α)) : Option (StoreCopy α) :=
  c.filter fun x => x.check == Config.storeCheck x.contents

/-- Whether the first copy is the newer valid one; `none` when neither is valid (R123). -/
def newerFirst {α : Type} (a b : Option (StoreCopy α)) : Option Bool :=
  match validCopy a, validCopy b with
  | none, none => none
  | some _, none => some true
  | none, some _ => some false
  | some x, some y => some (y.generation != x.generation + 1)

/-- The contents of the newer valid copy (R123; DESIGN CHOICE, log 16). -/
def latest {α : Type} (a b : Option (StoreCopy α)) : Option α :=
  match newerFirst a b with
  | none => none
  | some true => a.map (·.contents)
  | some false => b.map (·.contents)

/-- The generation of a copy. -/
def copyGen {α : Type} (c : Option (StoreCopy α)) : Word32 :=
  match c with
  | some x => x.generation
  | none => 0

/-- A write of an image: the copy it goes to and the generation it leaves there (R123). -/
def nextWrite {α : Type} (a b : Option (StoreCopy α)) (contents : α) : StoreWrite α :=
  match newerFirst a b with
  | none => { first := true, copy := copyOf 1 contents }
  | some true => { first := false, copy := copyOf (copyGen a + 1) contents }
  | some false => { first := true, copy := copyOf (copyGen b + 1) contents }

/-- A table image write begins, from the tables as they stand (R123). -/
def beginTableWrite (s : State) : State :=
  { s with store.tableWriting := some (nextWrite s.store.tableA s.store.tableB s.tables),
           store.tableWaiting := false }

/-- A table image write is asked for (R123, R167). -/
def askTableWrite (s : State) : State :=
  if s.store.tableWriting.isSome then { s with store.tableWaiting := true } else beginTableWrite s

/-- The table image write under way is completed (R123). -/
def commitTables (s : State) : State :=
  match s.store.tableWriting with
  | none => s
  | some w =>
    if w.first then { s with store.tableA := some w.copy, store.tableWriting := none }
    else { s with store.tableB := some w.copy, store.tableWriting := none }

/-- The retained image write under way is completed (R123). -/
def commitRetained (s : State) : State :=
  match s.store.retainedWriting with
  | none => s
  | some w =>
    if w.first then { s with store.retainedA := some w.copy, store.retainedWriting := none }
    else { s with store.retainedB := some w.copy, store.retainedWriting := none }

/-- Writes under way that are cut off leave their copy invalid (R123). -/
def cutWrites (x : Store) : Store :=
  let x1 := match x.tableWriting with
    | none => x
    | some w => if w.first then { x with tableA := none } else { x with tableB := none }
  let x2 := match x.retainedWriting with
    | none => x1
    | some w => if w.first then { x1 with retainedA := none } else { x1 with retainedB := none }
  { x2 with tableWriting := none, tableWaiting := false, retainedWriting := none }

/-- A loaded field has changed under a service request: STORE_DEFAULTS clears and a table image write is
asked for (R167, R181). -/
def tablesChanged (s : State) : State := askTableWrite { s with storeDefaults := false }

end Sys2Proof.Machine
end

