-- ==== Sys2Proof/Machine/LoadTables.lean ====
section
/-! DEFINITION. Load Table Section and Read Table Section (R167, R168, R189): the checks and effects of
each table's owner (R2, R3, R28, R29, R31, R62, R63, R69, R92, R97, R101, R116, R140, R141, R151, R166). -/

namespace Sys2Proof.Machine

/-! ### Sections -/

/-- The size in characters of a table's loaded record (R189). -/
def recordSize : Nat → Nat
  | 0 => 10 | 1 => 4 | 2 => 5 | 3 => 3 | 4 => 10 | 6 => 7 | 7 => 2 | 8 => 7 | 9 => 8 | 10 => 6
  | 11 => 1 | 12 => 1 | 13 => 1 | _ => 0

/-- The number of records of a table (section 9.4). -/
def recordCount : Nat → Nat
  | 0 => 1 | 1 => 16 | 2 => 6 | 3 => 8 | 4 => 64 | 5 => 64 | 6 => 1 | 7 => 17 | 8 => 2 | 9 => 1
  | 10 => 1 | 11 => 8 | 12 => 1 | 13 => 1 | 14 => 72 | _ => 0

/-- A table that can be loaded (section 9.4). -/
def isLoadable (table : Nat) : Bool := table ≤ 13 && table != 5

/-- The length of a payload after its filler (R160). -/
def evenLength (n : Nat) : Nat := n + n % 2

/-- The records of a section, each of `size` characters. -/
def splitRecords (size : Nat) : Nat → List Byte → List (List Byte)
  | 0, _ => []
  | n + 1, bs => bs.take size :: splitRecords size n (bs.drop size)

/-- A record's outcome: refused, or applied with its clamped fields and moved spirals counted. -/
abbrev Loaded := Except ReplyCode (State × Nat × Nat)

/-- The records of a section whose codes are good, in order, each on the tables as the earlier ones leave them; one refusal
refuses the section (R28, R62). -/
def loadAll (step : Nat → List Byte → State → Loaded) : Nat → List (List Byte) → Nat → Nat → State → Loaded
  | _, [], c, m, s => .ok (s, c, m)
  | i, r :: rs, c, m, s =>
    match step i r s with
    | .error e => .error e
    | .ok (s1, dc, dm) => loadAll step (i + 1) rs (c + dc) (m + dm) s1

/-- Character `k` of a record as a number. -/
def at1 (r : List Byte) (k : Nat) : Nat := num (r.getD k 0)
/-- The two characters from `k` as a number. -/
def at2 (r : List Byte) (k : Nat) : Nat := num2 (r.getD k 0) (r.getD (k + 1) 0)
/-- The two characters from `k` as a signed number. -/
def atI (r : List Byte) (k : Nat) : Int := int2 (r.getD k 0) (r.getD (k + 1) 0)

/-- A flag code that is neither 0 nor 1 (R186). -/
def badFlag (n : Nat) : Bool := 1 < n

/-- A number held to a range. -/
def clampNat (lo hi x : Nat) : Nat := max lo (min hi x)

/-- 1 when a field was clamped. -/
def clampedN (a b : Nat) : Nat := if a = b then 0 else 1
def clampedI (a b : Int) : Nat := if a = b then 0 else 1

/-! ### The owners' records -/

/-- Money parameters (R2, R3). -/
def loadMoney (_ : Nat) (r : List Byte) (s : State) : Loaded :=
  let old := s.tables.money
  let m : MoneyParams :=
    { ceiling := max 1 (at2 r 0), policy := if at1 r 2 = 0 then .single else .multi,
      exactRequired := at1 r 3 == 1, granularity := max 1 (at2 r 4), probeCeiling := at2 r 6,
      noteLimit := at2 r 8 }
  let s := { s with tables.money := m }
  let s := if m.granularity = old.granularity ∧ m.probeCeiling = old.probeCeiling then s else evalExact s
  .ok (recomputeMasks s, clampedN (at2 r 0) m.ceiling + clampedN (at2 r 4) m.granularity, 0)

/-- The tube field of a coin record as loaded (R28): a refusal, or the tube. -/
def coinTubeField (s : State) (k n : Nat) : Option (Option Nat) :=
  if n = 0xFF then some none
  else if n ≤ 5 ∧ (s.tables.tube n).coinType = k then some (some n)
  else none

/-- A coin record (R28). -/
def loadCoin (k : Nat) (r : List Byte) (s : State) : Loaded :=
  match coinTubeField s k (at1 r 3) with
  | none => .error .badArgument
  | some tube =>
    let v := max 1 (at2 r 0)
    let c : CoinRec := { value := v, accept := at1 r 2 == 1, tube := tube }
    .ok ({ s with tables.coins := updAt s.tables.coins k fun _ => c }, clampedN (at2 r 0) v, 0)

/-- The condition of a tube when its record is applied (R30). -/
def condFor (enabled : Bool) (c : TubeCond) : TubeCond :=
  if enabled then (match c with
    | .disabled => .ok
    | .ok => .ok
    | .faulted => .faulted)
  else .disabled

/-- The old type of a tube gives up its tube field (R29). -/
def unpairCoin (k n : Nat) (s : State) : State :=
  { s with tables.coins := updAt s.tables.coins k fun c => if c.tube = some n then { c with tube := none } else c }

/-- A tube record is applied (R29, R31). A covered full sensor raises the count to a raised capacity, by step 4
of R31 and test 2 of R38, against R31's closing sentence (DESIGN CHOICE, log 35). -/
def applyTube (n : Nat) (t : TubeRec) (s : State) : State :=
  let old := s.tables.tube n
  let count := (s.tube n).count
  let s := { s with tables.tubes := updAt s.tables.tubes n fun _ => t }
  let s := if t.coinType = old.coinType then
      (if t.capacity < count then raiseCorrected n .table count t.capacity (rawCount n t.capacity s) else s)
    else raiseCorrected n .table count 0 (rawCount n 0 (unpairCoin old.coinType n s))
  reconcile n (rawCond n (condFor t.enabled (s.tube n).cond) s)

/-- Another tube's record names a coin type (R29). -/
def typeTaken (s : State) (n k : Nat) : Bool :=
  (List.range 6).any fun m => m != n && (s.tables.tube m).coinType == k

/-- A tube record (R29). -/
def loadTube (n : Nat) (r : List Byte) (s : State) : Loaded :=
  if typeTaken s n (at1 r 0) then .error .badArgument
  else
    let cap := clampNat 1 250 (at1 r 2)
    let t : TubeRec := { coinType := at1 r 0, enabled := at1 r 1 == 1, capacity := cap,
                         lowMark := min cap (at1 r 3), reserve := min cap (at1 r 4) }
    .ok (applyTube n t s,
      clampedN (at1 r 2) cap + clampedN (at1 r 3) t.lowMark + clampedN (at1 r 4) t.reserve, 0)

/-- A note record (R151). -/
def loadNote (k : Nat) (r : List Byte) (s : State) : Loaded :=
  let v := max 1 (at2 r 0)
  let n : NoteRec := { value := v, accept := at1 r 2 == 1 }
  .ok ({ s with tables.notes := updAt s.tables.notes k fun _ => n }, clampedN (at2 r 0) v, 0)

/-- The position of a spiral in a list. -/
def positionOf (p : Nat) : List Nat → Option Nat
  | [] => none
  | q :: qs => if q = p then some 0 else (positionOf p qs).map (· + 1)

/-- The next pointer after the spiral at position `j` has left a list that is then of length `len` (R57). -/
def closePointer (j next len : Nat) : Nat :=
  let n := if j < next then next - 1 else next
  if n < len then n else 0

/-- A spiral leaves the list of selection `i`, which closes up (R57, R63). -/
def removeFromList (p i : Nat) (s : State) : State :=
  match positionOf p (s.tables.sel i).spirals with
  | none => s
  | some j =>
    let l := (s.tables.sel i).spirals.filter (· != p)
    modSel i (fun k => { k with next := closePointer j k.next l.length })
      { s with tables.sels := updAt s.tables.sels i fun r => { r with spirals := l } }

/-- The selection other than `i` whose list holds a spiral, if one does. -/
def holderOf (s : State) (i p : Nat) : Option Nat :=
  (List.range 64).find? fun k => k != i && (s.tables.sel k).spirals.contains p

/-- Step 1 of R63 for one spiral of the new list: the state, and 1 when the spiral was moved. -/
def takeSpiral (i : Nat) (x : State × Nat) (p : Nat) : State × Nat :=
  match holderOf x.1 i p with
  | none => x
  | some k => (removeFromList p k x.1, x.2 + 1)

/-- A spiral left in no list (R60, R63 step 2); a probe of it under way runs to its end (DESIGN CHOICE, log 38). -/
def unassign (p : Nat) (s : State) : State :=
  modSpiral p (fun r => { r with state := .unassigned, probePending := false }) s

/-- A selection record is applied (R63): the state, and the number of spirals moved. -/
def applySel (i : Nat) (new : SelLoaded) (s : State) : State × Nat :=
  let old := (s.tables.sel i).spirals
  let x := new.spirals.foldl (takeSpiral i) (s, 0)
  let s := (old.filter fun p => !new.spirals.contains p).foldl (fun s p => unassign p s) x.1
  let s := { s with tables.sels := updAt s.tables.sels i fun _ => new }
  let s := if new.spirals = old then s else modSel i (fun k => { k with next := 0 }) s
  ((new.spirals.filter fun p => !old.contains p).foldl (fun s p => addProbe p s) s, x.2)

/-- The spiral list a selection record carries (R189). -/
def listOf (r : List Byte) : List Nat := ((List.range 4).map fun k => at1 r (6 + k)).take (at1 r 5)

/-- A spiral list names no position above 63 and none twice (R62). -/
def goodList : List Nat → Bool
  | [] => true
  | p :: ps => p ≤ 63 && !ps.contains p && goodList ps

/-- A selection record touches the vend in flight (R62). -/
def touchesVend (s : State) (i : Nat) (l : List Nat) : Bool :=
  match s.drive.vend with
  | none => false
  | some v => i == v.sel || l.any fun p => (s.tables.sel v.sel).spirals.contains p

/-- A selection record touches the spiral of a service operation in flight (R62). -/
def touchesService (s : State) (i : Nat) (l : List Nat) : Bool :=
  match s.drive.service with
  | none => false
  | some o => l.contains o.spiral || (s.tables.sel i).spirals.contains o.spiral

/-- A selection record (R62, R63). -/
def loadSel (i : Nat) (r : List Byte) (s : State) : Loaded :=
  let l := listOf r
  if 63 < i || 1 < at1 r 2 || 1 < at1 r 4 || 4 < at1 r 5 || !goodList l then
    .error .badArgument
  else if touchesVend s i l || touchesService s i l then .error .busy
  else
    let new : SelLoaded := { price := at2 r 0, zone := at1 r 2, perishable := at1 r 3 == 1,
                             firstMode := at1 r 4 == 1, spirals := l }
    let x := applySel i new s
    .ok (x.1, 0, x.2)

/-- The spiral drive parameters (R69). -/
def loadDrive (_ : Nat) (r : List Byte) (s : State) : Loaded :=
  let p : DriveParams :=
    { dropConfirm := at1 r 0 == 1, autoNext := at1 r 1 == 1, extraRevs := min 3 (at1 r 2),
      revLimitN := max 9 (at1 r 3), dropTailN := at1 r 4, jamThreshold := clampNat 500 4000 (at2 r 5) }
  .ok ({ s with tables.drive := p },
    clampedN (at1 r 2) p.extraRevs + clampedN (at1 r 3) p.revLimitN + clampedN (at2 r 5) p.jamThreshold, 0)

/-- A curve point (R92). -/
def loadPoint (k : Nat) (r : List Byte) (s : State) : Loaded :=
  let t := clampInt Config.tempLow Config.tempHigh (atI r 0)
  .ok ({ s with tables.curve := updAt s.tables.curve k fun _ => t }, clampedI (atI r 0) t, 0)

/-- A zone record (R97). -/
def loadZone (z : Nat) (r : List Byte) (s : State) : Loaded :=
  let p : ZoneParams :=
    { setpoint := clampInt (-50) 200 (atI r 0), differential := clampNat 5 100 (at1 r 2),
      holdLimit := clampInt (-50) 250 (atI r 3), holdTimeN := at1 r 5, economyOffset := min 80 (at1 r 6) }
  .ok ({ s with tables.zones := updAt s.tables.zones z fun _ => p },
    clampedI (atI r 0) p.setpoint + clampedN (at1 r 2) p.differential + clampedI (atI r 3) p.holdLimit +
      clampedN (at1 r 6) p.economyOffset, 0)

/-- The refrigeration parameters (R101). -/
def loadRefrig (_ : Nat) (r : List Byte) (s : State) : Loaded :=
  let t := clampInt 0 300 (atI r 4)
  let p : RefrigParams :=
    { minOffN := at1 r 0, minRunN := at1 r 1, surgeN := at1 r 2, defrostIntervalN := at1 r 3,
      defrostEndTemp := t, maxDefrostN := at1 r 6, dripN := at1 r 7 }
  .ok ({ s with tables.refrig := p }, clampedI (atI r 4) t, 0)

/-- A rating as loaded under the budget `b` of its record: held to its range, then to the budget (R116). -/
def ratingOf (b x : Nat) : Nat := min b (clampNat 1 100 x)

/-- The clamps that a rating loaded under the budget `b` takes; each counts (R116). -/
def ratingClamps (b x : Nat) : Nat :=
  clampedN x (clampNat 1 100 x) + clampedN (clampNat 1 100 x) (ratingOf b x)

/-- The load table as loaded (R116). -/
def loadTableOf (r : List Byte) : LoadTable :=
  let b := clampNat 20 255 (at1 r 0)
  { budget := b, payout := ratingOf b (at1 r 1), motor := ratingOf b (at1 r 2),
    compStart := ratingOf b (at1 r 3), compRun := ratingOf b (at1 r 4), heater := ratingOf b (at1 r 5) }

/-- The clamps of a load table record (R116). -/
def loadTableClamps (r : List Byte) : Nat :=
  let b := clampNat 20 255 (at1 r 0)
  clampedN (at1 r 0) b + ratingClamps b (at1 r 1) + ratingClamps b (at1 r 2) + ratingClamps b (at1 r 3) +
    ratingClamps b (at1 r 4) + ratingClamps b (at1 r 5)

/-- The load table (R116). -/
def loadLoads (_ : Nat) (r : List Byte) (s : State) : Loaded :=
  .ok (budgetChanged { s with tables.loads := loadTableOf r }, loadTableClamps r, 0)

/-- The kind a code names (R188). -/
def kindOf : Nat → Option SlotKind
  | 0 => some .unused
  | 1 => some .coinValidator
  | 2 => some .noteReader
  | 3 => some .other
  | _ => none

/-- A slot other than `a` has a kind of which there may be one (R141). -/
def kindTaken (s : State) (a : Nat) (k : SlotKind) : Bool :=
  (k == .coinValidator || k == .noteReader) && addresses.any fun b => b != a && s.tables.slotKind b == k

/-- A slot record (R141): record `i` is address `i + 1`. -/
def loadSlot (i : Nat) (r : List Byte) (s : State) : Loaded :=
  match kindOf (at1 r 0) with
  | none => .error .badArgument
  | some k => if kindTaken s (i + 1) k then .error .badArgument else .ok (setSlotKind (i + 1) k s, 0, 0)

/-- The line parameters (R140). -/
def loadLine (_ : Nat) (r : List Byte) (s : State) : Loaded := .ok ({ s with tables.pollN := at1 r 0 }, 0, 0)

/-- The link parameters (R166). -/
def loadLink (_ : Nat) (r : List Byte) (s : State) : Loaded :=
  let n := min 59 (at1 r 0)
  .ok ({ s with tables.silenceN := n }, clampedN (at1 r 0) n, 0)

/-! ### The request -/

/-- The state test of a table's owner (section 9.4). -/
def tableBusy (table : Nat) (s : State) : Bool :=
  match table with
  | 0 => s.credit.sale != .idle
  | 1 => s.credit.sale == .payout
  | 2 => s.credit.sale == .payout
  | 3 => s.credit.escrow.isSome
  | 10 => s.supply.granted.payout || s.supply.granted.motor || s.supply.waiting.payout || s.supply.waiting.motor
  | _ => false

/-- The coded fields of a table's record lie within the values listed for them (R186, R189): flags, the vend policy, a
tube's coin type, a coin's tube, a slot's kind. The zone, mode and list of a selection record are checked in R62's own
order. -/
def codesListed (table : Nat) (r : List Byte) : Bool :=
  match table with
  | 0 => !badFlag (at1 r 2) && !badFlag (at1 r 3)
  | 1 => !badFlag (at1 r 2) && (at1 r 3 ≤ 5 || at1 r 3 == 0xFF)
  | 2 => at1 r 0 ≤ 15 && !badFlag (at1 r 1)
  | 3 => !badFlag (at1 r 2)
  | 4 => !badFlag (at1 r 3)
  | 6 => !badFlag (at1 r 0) && !badFlag (at1 r 1)
  | 11 => (kindOf (at1 r 0)).isSome
  | _ => true

/-- The record step of a table. -/
def recordStep : Nat → Nat → List Byte → State → Loaded
  | 0 => loadMoney | 1 => loadCoin | 2 => loadTube | 3 => loadNote | 4 => loadSel | 6 => loadDrive
  | 7 => loadPoint | 8 => loadZone | 9 => loadRefrig | 10 => loadLoads | 11 => loadSlot | 12 => loadLine
  | 13 => loadLink
  | _ => fun _ _ _ => .error .badArgument

/-- What follows once for a whole section (R28, R31, R151). -/
def afterSection (table : Nat) (s : State) : State :=
  match table with
  | 1 => recomputeMasks (evalExact s)
  | 2 => recomputeMasks (evalExact s)
  | 3 => recomputeNote s
  | _ => s

/-- Checks 1 to 3 of a Load Table Section (R167). -/
def sectionFits (table first count : Nat) (records : List Byte) : Bool :=
  isLoadable table && 1 ≤ count && count ≤ 8 &&
  evenLength (3 + records.length) == evenLength (3 + count * recordSize table) &&
  first + count ≤ recordCount table

/-- The records a section carries. -/
def sectionRecords (table count : Nat) (records : List Byte) : List (List Byte) :=
  splitRecords (recordSize table) count records

/-- A Load Table Section after the gate: checks 1 to 3, then the owner's, the codes of every record first (R186), then
its state test, then its record checks (R167; DEDUCED, log 20). -/
def loadSection (table first count : Nat) (records : List Byte) (s : State) : Loaded :=
  if !sectionFits table first count records then .error .badArgument
  else if !(sectionRecords table count records).all (codesListed table) then .error .badArgument
  else if tableBusy table s then .error .busy
  else
    match loadAll (recordStep table) first (sectionRecords table count records) 0 0 s with
    | .error e => .error e
    | .ok (s1, c, m) => .ok (tablesChanged (afterSection table s1), c, m)

/-! ### Read Table Section (R64, R168, R189) -/

/-- A list padded with 0 to four places (R189). -/
def fourPlaces (l : List Nat) : List Byte := ((l ++ [0, 0, 0, 0]).take 4).flatMap char

/-- The audit totals in the order of their records (R189). -/
def auditRecord (s : State) (i : Nat) : List Byte :=
  match i with
  | 0 => field 6 s.audit.cashIn
  | 1 => field 6 s.audit.cashSales
  | 2 => field 6 s.audit.externalSales
  | 3 => field 6 s.audit.changePaid
  | 4 => field 6 s.audit.excessPaid
  | 5 => field 6 s.audit.writtenOff
  | 6 => field 6 s.audit.filled
  | 7 => field 6 s.audit.drained
  | n + 8 => field 6 (s.sel n).sales

def moneyRecord (m : MoneyParams) : List Byte :=
  word m.ceiling ++ char m.policy.code ++ flag m.exactRequired ++ word m.granularity ++
  word m.probeCeiling ++ word m.noteLimit

def coinRecord (c : CoinRec) : List Byte := word c.value ++ flag c.accept ++ char (c.tube.getD 0xFF)

def tubeRecord (t : TubeRec) : List Byte :=
  char t.coinType ++ flag t.enabled ++ char t.capacity ++ char t.lowMark ++ char t.reserve

def selRecord (r : SelLoaded) (k : SelKept) : List Byte :=
  word r.price ++ char r.zone ++ flag r.perishable ++ flag r.firstMode ++ char r.spirals.length ++
  fourPlaces r.spirals ++ char k.state.code ++ char k.next

def driveRecord (p : DriveParams) : List Byte :=
  flag p.dropConfirm ++ flag p.autoNext ++ char p.extraRevs ++ char p.revLimitN ++ char p.dropTailN ++
  word p.jamThreshold

def zoneRecord (p : ZoneParams) : List Byte :=
  signedWord p.setpoint ++ char p.differential ++ signedWord p.holdLimit ++ char p.holdTimeN ++
  char p.economyOffset

def refrigRecord (p : RefrigParams) : List Byte :=
  char p.minOffN ++ char p.minRunN ++ char p.surgeN ++ char p.defrostIntervalN ++
  signedWord p.defrostEndTemp ++ char p.maxDefrostN ++ char p.dripN

def loadsRecord (t : LoadTable) : List Byte :=
  char t.budget ++ char t.payout ++ char t.motor ++ char t.compStart ++ char t.compRun ++ char t.heater

/-- One record of a table as Read Table Section returns it (R189). -/
def readRecord (table : Nat) (s : State) (i : Nat) : List Byte :=
  match table with
  | 0 => moneyRecord s.tables.money
  | 1 => coinRecord (s.tables.coin i)
  | 2 => tubeRecord (s.tables.tube i)
  | 3 => word (s.tables.note i).value ++ flag (s.tables.note i).accept
  | 4 => selRecord (s.tables.sel i) (s.sel i)
  | 5 => char (s.spiral i).state.code ++ word (s.spiral i).lastRev ++ flag (s.spiral i).slow
  | 6 => driveRecord s.tables.drive
  | 7 => signedWord (s.tables.point i)
  | 8 => zoneRecord (s.tables.zone i)
  | 9 => refrigRecord s.tables.refrig
  | 10 => loadsRecord s.tables.loads
  | 11 => char (s.tables.slotKind (i + 1)).code
  | 12 => char s.tables.pollN
  | 13 => char s.tables.silenceN
  | 14 => auditRecord s i
  | _ => []

/-- The checks of a Read Table Section (R168). -/
def readFits (table first count : Nat) : Bool :=
  table ≤ 14 && 1 ≤ count && count ≤ 8 && first + count ≤ recordCount table

/-- The records a Read Table Section returns (R168). -/
def readSection (table first count : Nat) (s : State) : List Byte :=
  (List.range count).flatMap fun k => readRecord table s (first + k)

end Sys2Proof.Machine
end

