-- ==== Sys2Proof/Machine/Service.lean ====
section
/-! DEFINITION. The Service Lock: the door (R173), lock states and codes (R174 to R176), Factory Clear
(R177, R178), tagged edits (R179 to R181) and the operating modes (R182, R184). -/

namespace Sys2Proof.Machine

/-- What serving a request gives: the state, the outcome and the owner's payload (R164). -/
abbrev Served := State × ReplyCode × List Byte

/-- A request that ends with an outcome and no change of state. -/
def refuse (c : ReplyCode) (s : State) : Served := (s, c, [])
/-- A request carried out in full. -/
def doneWith (s : State) : Served := (s, .done, [])

/-! ### Sessions and the door (R173, R174) -/

/-- The tag sequence record is emptied with its once-mark when it is not EMPTY (R174, R180). -/
def resetTag (s : State) : State :=
  if s.lock.tag = .empty then s else { s with lock.tag := .empty, link.tagReset := true }

/-- A session ends (R174). -/
def endSession (s : State) : State :=
  if s.lock.state = .unlocked then resetTag { s with lock.state := .locked } else s

/-- Fill mode, if on, ends with an event (R173, R178). -/
def endFill (c : ModeEnd) (s : State) : State :=
  if s.lock.fill then raiseModeEnded .fill c { s with lock.fill := false } else s

/-- A change of the accepted door state after the first (R173). -/
def doorChanged (isOpen : Bool) (s : State) : State :=
  let s := raise .serviceDoor none (val (if isOpen then 1 else 0)) s
  if isOpen then endEconomy .door s else recomputeMasks (endFill .door (endSession s))

/-- Reads of the door switch (R173). -/
def doorReads (reads : List Bool) (s : State) : State :=
  let before := s.lock.door.accepted
  let d := s.lock.door.readUntil 5 reads
  let s := { s with lock.door := d.1 }
  match before, d.2 with
  | some _, some b => doorChanged b s
  | _, _ => s

/-! ### Codes (R174 to R176) -/

/-- The lockout timer expires (R175). -/
def lockoutExpires (s : State) : State :=
  if s.lock.lockout then { s with lock.lockout := false, lock.failures := 0 } else s

/-- A carried code is the service code (R175). -/
def codeMatches (s : State) (c : CodeArg) : Bool :=
  match s.lock.code with
  | some ds => codeEquals c ds
  | none => false

/-- A failed Unlock is counted (R175). -/
def countFailure (s : State) : State :=
  let n := s.lock.failures + 1
  if n < 3 then { s with lock.failures := n }
  else raise .lockout none (some s.seconds) { s with lock.failures := 3, lock.lockout := true }

/-- Unlock (R175). -/
def serveUnlock (c : CodeArg) (s : State) : Served :=
  match s.lock.state with
  | .opened => refuse .badSequence s
  | .unlocked => refuse .badSequence s
  | .locked =>
    if s.lock.lockout then refuse .lockout s
    else if codeMatches s c then doneWith { s with lock.state := .unlocked, lock.failures := 0 }
    else refuse .codeMismatch (countFailure s)

/-- Lock (R174). -/
def serveLock (s : State) : Served :=
  match s.lock.state with
  | .unlocked => doneWith (endSession s)
  | .opened => refuse .badSequence s
  | .locked => refuse .badSequence s

/-- A new code is set (R176). -/
def setCode (ds : List Nat) (lockNow : Nat) (s : State) : State :=
  { s with lock.code := some ds, lock.state := if lockNow = 1 then .locked else .unlocked }

/-- Set Code, after the gate (R176). -/
def serveSetCode (old new : CodeArg) (lockNow : Nat) (s : State) : Served :=
  if badFlag lockNow then refuse .badArgument s
  else
    match codeValue new with
    | .none => refuse .badArgument s
    | .invalid => refuse .badArgument s
    | .digits ds =>
      match s.lock.state with
      | .opened => if codeValue old = .none then doneWith (setCode ds lockNow s) else refuse .codeMismatch s
      | .unlocked => if codeMatches s old then doneWith (setCode ds lockNow s) else refuse .codeMismatch s
      | .locked => refuse .locked s

/-- Clear Code, after the gate (R176). -/
def serveClearCode (c : CodeArg) (s : State) : Served :=
  match s.lock.state with
  | .opened => refuse .badSequence s
  | .unlocked =>
    if codeMatches s c then doneWith { s with lock.code := none, lock.state := .opened }
    else refuse .codeMismatch s
  | .locked => refuse .locked s

/-! ### Factory Clear (R177, R178) -/

/-- Step 1 (R178). -/
def clearLock (s : State) : State :=
  endFill .clear { s with lock.code := none, lock.state := .opened, lock.lockout := false,
                          lock.failures := 0, lock.tag := .empty }

/-- The totals and sale counters become 0 (R25, R178 step 2). -/
def clearAudit (s : State) : State :=
  { s with audit := Audit.zero, sels := s.sels.map fun k => { k with sales := 0 } }

/-- Every spiral becomes NOT_HOME with a home probe pending (R64, R178). -/
def probeAll (s : State) : State :=
  { s with spirals := s.spirals.map fun r => { r with state := .notHome, probePending := true } }

/-- The money and coin tables take their defaults (R178 step 3). -/
def defaultMoneyAndCoins (s : State) : State :=
  { s with tables.money := defaultMoney, tables.coins := defaultCoins }

/-- The tube table takes its defaults, each record with its steps (R31, R178 step 3). -/
def applyDefaultTubes (s : State) : State :=
  (List.range 6).foldl
    (fun s n => applyTube n { coinType := n, enabled := true, capacity := 100, lowMark := 0, reserve := 0 } s) s

/-- The selection table takes its defaults (R64, R178 step 3). -/
def applyDefaultSels (s : State) : State :=
  probeAll { s with tables.sels := defaultSels, sels := s.sels.map fun k => { k with state := .inhibited, next := 0 } }

/-- The tables with no follow-on steps take their defaults (R178 step 3). -/
def applyPlainDefaults (s : State) : State :=
  { s with tables.notes := defaultNotes, tables.drive := defaultDrive, tables.curve := defaultCurve,
           tables.zones := defaultZones, tables.refrig := defaultRefrig, tables.pollN := defaultTables.pollN,
           tables.silenceN := defaultTables.silenceN }

/-- The slot table takes its defaults (R141, R178 step 3). -/
def applyDefaultSlots (s : State) : State :=
  addresses.foldl (fun s a => setSlotKind a (defaultSlotKinds.getD (a - 1) .unused) s) s

/-- Step 3 (R178; DEDUCED, log 31). -/
def restoreDefaults (s : State) : State :=
  let s := applyPlainDefaults (applyDefaultSels (applyDefaultTubes (defaultMoneyAndCoins s)))
  let s := recomputeMasks (evalExact s)
  let s := budgetChanged { s with tables.loads := defaultLoads }
  applyDefaultSlots s

/-- A tube is cleared and reconciled (R178 step 4). -/
def clearTube (n : Nat) (s : State) : State := reconcile n (rawCond n .ok (rawCount n 0 s))

/-- Step 4 (R178). -/
def clearTubes (s : State) : State := afterTubes ((List.range 6).foldl (fun s n => clearTube n s) s)

/-- Step 5 (R113, R178). -/
def clearHolds (s : State) : State :=
  { s with cold.zones := s.cold.zones.map fun z => { z with latched := false, holdTimer := 0 } }

/-- Step 6 (R178; DESIGN CHOICE, log 17). -/
def clearStore (s : State) : State :=
  { s with storeDefaults := true, store.tableWriting := none, store.tableWaiting := false,
           store.tableA := none, store.tableB := none }

/-- Factory Clear carried out (R178). -/
def factoryClear (s : State) : State :=
  clearStore (clearHolds (clearTubes (restoreDefaults (clearAudit (clearLock s)))))

/-- Factory Clear (R177). -/
def serveFactoryClear (s : State) : Served :=
  if s.lock.state ≠ .locked then refuse .badSequence s
  else if !s.doorOpen then refuse .doorClosed s
  else if s.credit.sale ≠ .idle ∨ s.credit.escrow.isSome ∨ s.drive.service.isSome then refuse .busy s
  else doneWith (factoryClear s)

/-! ### Tagged edits (R179 to R181) -/

/-- The unit a code names (R187). -/
def unitOf : Nat → Option TagUnit
  | 0 => some .selection
  | 1 => some .tray
  | _ => none

/-- A tag argument with a meaning: its unit (R179). -/
def tagArg (unit value : Nat) : Option TagUnit :=
  match unitOf unit with
  | none => none
  | some .selection => if validCode value then some .selection else none
  | some .tray => if 1 ≤ value ∧ value ≤ 8 then some .tray else none

/-- The record becomes EMPTY and the request is refused (R179). -/
def dropTag (c : ReplyCode) (s : State) : Served := refuse c { s with lock.tag := .empty }

/-- Tag First (R179). -/
def serveTagFirst (unit value : Nat) (s : State) : Served :=
  match tagArg unit value with
  | none => dropTag .badArgument s
  | some u =>
    match s.lock.tag with
    | .empty => doneWith { s with lock.tag := .firstSet u value }
    | .firstSet _ _ => dropTag .badSequence s
    | .rangeSet _ _ _ _ => dropTag .badSequence s

/-- The conditions of Tag Last on its record (R179). -/
def rangeFits (u v : TagUnit) (first last : Nat) : Bool :=
  u == v && first ≤ last && (u == .tray || first / 10 == last / 10)

/-- Tag Last (R179). -/
def serveTagLast (unit value : Nat) (s : State) : Served :=
  match tagArg unit value with
  | none => dropTag .badArgument s
  | some u =>
    match s.lock.tag with
    | .firstSet v first =>
      if rangeFits v u first value then doneWith { s with lock.tag := .rangeSet u first value [] }
      else dropTag .badArgument s
    | .empty => dropTag .badSequence s
    | .rangeSet _ _ _ _ => dropTag .badSequence s

/-- A selection code lies within a range (R179). -/
def inRange (u : TagUnit) (first last code : Nat) : Bool :=
  match u with
  | .selection => first ≤ code && code ≤ last
  | .tray => first ≤ code / 10 && code / 10 ≤ last

/-- Untag (R179). -/
def serveUntag (code : Nat) (s : State) : Served :=
  if !validCode code then dropTag .badArgument s
  else
    match s.lock.tag with
    | .rangeSet u first last off =>
      if !inRange u first last code then dropTag .badArgument s
      else if off.contains code then doneWith s
      else if off.length < 8 then doneWith { s with lock.tag := .rangeSet u first last (off ++ [code]) }
      else dropTag .badSequence s
    | .empty => dropTag .badSequence s
    | .firstSet _ _ => dropTag .badSequence s

/-- The selection code of an index (00_scope "Selections"). -/
def indexCode (i : Nat) : Nat := (i / 8 + 1) * 10 + (i % 8 + 1)

/-- The tagged set, in index order (R179). -/
def taggedSet (u : TagUnit) (first last : Nat) (off : List Nat) : List Nat :=
  (List.range 64).filter fun i => inRange u first last (indexCode i) && !off.contains (indexCode i)

/-- The actions of Apply (R181, R187). -/
inductive Action where
  | setPrice (price : Nat)
  | inhibit
  | enable
  | restock
deriving DecidableEq, Repr

/-- The action a code names (R187). -/
def actionOf (code price : Nat) : Option Action :=
  match code with
  | 0 => some (.setPrice price)
  | 1 => some .inhibit
  | 2 => some .enable
  | 3 => some .restock
  | _ => none

/-- A selection that ENABLE and RESTOCK skip (R181). -/
def skipped (s : State) (i : Nat) : Bool := selHeld s i || (s.tables.sel i).spirals.isEmpty

/-- An EMPTY spiral becomes READY (R181). -/
def refill (p : Nat) (s : State) : State :=
  modSpiral p (fun r => if r.state = .empty then { r with state := .ready } else r) s

/-- One selection of the tagged set is taken (R181): the state, and the counts applied and skipped. -/
def applyTo (a : Action) (x : State × Nat × Nat) (i : Nat) : State × Nat × Nat :=
  let s := x.1
  match a with
  | .setPrice p =>
    ({ s with tables.sels := updAt s.tables.sels i fun r => { r with price := p } }, x.2.1 + 1, x.2.2)
  | .inhibit => (modSel i (fun k => { k with state := .inhibited }) s, x.2.1 + 1, x.2.2)
  | .enable =>
    if skipped s i then (s, x.2.1, x.2.2 + 1)
    else (modSel i (fun k => { k with state := .enabled }) s, x.2.1 + 1, x.2.2)
  | .restock =>
    if skipped s i then (s, x.2.1, x.2.2 + 1)
    else
      let s := (s.tables.sel i).spirals.foldl (fun s p => refill p s) s
      (modSel i (fun k => if k.state = .soldOut then { k with state := .enabled } else k) s,
        x.2.1 + 1, x.2.2)

/-- The selection of the vend in flight is tagged (R181). -/
def vendTagged (s : State) (set : List Nat) : Bool :=
  match s.drive.vend with
  | some v => set.contains v.sel
  | none => false

/-- A SET_PRICE changes loaded fields (R181). -/
def afterApply (a : Action) (s : State) : State :=
  match a with
  | .setPrice _ => tablesChanged s
  | .inhibit => s
  | .enable => s
  | .restock => s

/-- Apply of a known action (R181). -/
def applyAction (a : Action) (s : State) : Served :=
  match s.lock.tag with
  | .rangeSet u first last off =>
    let set := taggedSet u first last off
    if vendTagged s set then refuse .busy s
    else
      let r := set.foldl (applyTo a) (s, 0, 0)
      let s1 := { r.1 with lock.tag := .empty }
      (afterApply a s1, .done, char r.2.1 ++ char r.2.2)
  | .empty => dropTag .badSequence s
  | .firstSet _ _ => dropTag .badSequence s

/-- Apply (R181). -/
def serveApply (code price : Nat) (s : State) : Served :=
  match actionOf code price with
  | none => dropTag .badArgument s
  | some a => applyAction a s

/-! ### Operating modes (R182, R184) -/

/-- Fill Mode (R182). -/
def serveFill (onOff : Nat) (s : State) : Served :=
  if badFlag onOff then refuse .badArgument s
  else if onOff = 0 then
    if s.lock.fill then doneWith (recomputeMasks { s with lock.fill := false }) else doneWith s
  else if s.lock.fill then doneWith s
  else if !s.doorOpen then refuse .doorClosed s
  else if s.credit.sale ≠ .idle then refuse .busy s
  else doneWith (recomputeMasks { s with lock.fill := true })

/-- The blocking set of Economy Mode (R184, R188). -/
def economyBlocks (s : State) : Nat :=
  (if s.credit.sale ≠ .idle then 1 else 0) + (if s.credit.escrow.isSome then 2 else 0) +
  (if s.cold.state = .starting ∨ s.cold.state = .defrost then 4 else 0) + (if s.doorOpen then 8 else 0)

/-- Economy Mode (R184, R185). -/
def serveEconomy (onOff : Nat) (s : State) : Served :=
  if badFlag onOff then refuse .badArgument s
  else if onOff = 0 then doneWith { s with lock.economy := false }
  else if s.lock.economy then doneWith s
  else if economyBlocks s ≠ 0 then (s, .busy, char (economyBlocks s))
  else doneWith { s with lock.economy := true }

end Sys2Proof.Machine
end

