-- ==== Sys2Proof/Machine/Requests.lean ====
section
/-! DEFINITION. Requests: their layouts and lengths (R163, R187), the gate and the tag reset (R163, R174,
R180), what each does (R6, R7, R10, R12, R25, R26, R53, R86, R108, R111, R126, R143, R144, R168, R169,
R171, R183), and replies (R164, R165, R188). -/

namespace Sys2Proof.Machine

/-! ### Layouts (R163 check 2, R187) -/

/-- The service code a request carries from offset `k` (R186). -/
def codeAt (p : List Byte) (k : Nat) : CodeArg :=
  { count := at1 p k, chars := ((p.drop (k + 1)).take 8).map num }

/-- A request of a fixed length, or its length refusal (R163). -/
def fixed (kind n : Nat) (p : List Byte) (r : Request) : Request :=
  if p.length = evenLength n then r else .badLength kind

/-- A Pass as its payload gives it (R187). -/
def readPass (p : List Byte) : Request :=
  if 4 ≤ p.length ∧ p.length = evenLength (4 + at1 p 3) then
    .pass (at1 p 0) (at1 p 1) (at1 p 2) ((p.drop 4).take (at1 p 3))
  else .badLength 0x0D

/-- A Load Table Section as its payload gives it (R163, R187). -/
def readLoad (p : List Byte) : Request :=
  if 3 ≤ p.length then .load (at1 p 0) (at1 p 1) (at1 p 2) (p.drop 3) else .badLength 0x09

/-- The request a valid frame carries (R163 checks 1 and 2, R187). -/
def readRequest (kind : Nat) (p : List Byte) : Request :=
  match kind with
  | 0x01 => fixed kind 0 p .status
  | 0x03 => fixed kind 1 p (.fetch (at1 p 0))
  | 0x05 => fixed kind 4 p (.vend (at1 p 0) (at1 p 1) (at2 p 2))
  | 0x07 => fixed kind 0 p .returnCredit
  | 0x09 => readLoad p
  | 0x0B => fixed kind 3 p (.read (at1 p 0) (at1 p 1) (at1 p 2))
  | 0x0D => readPass p
  | 0x0F => fixed kind 1 p (.clearFaults (at1 p 0))
  | 0x11 => fixed kind 9 p (.unlock (codeAt p 0))
  | 0x13 => fixed kind 0 p .lock
  | 0x15 => fixed kind 19 p (.setCode (codeAt p 0) (codeAt p 9) (at1 p 18))
  | 0x17 => fixed kind 9 p (.clearCode (codeAt p 0))
  | 0x19 => fixed kind 0 p .factoryClear
  | 0x1B => fixed kind 2 p (.tagFirst (at1 p 0) (at1 p 1))
  | 0x1D => fixed kind 2 p (.tagLast (at1 p 0) (at1 p 1))
  | 0x1F => fixed kind 1 p (.untag (at1 p 0))
  | 0x21 => fixed kind 3 p (.apply (at1 p 0) (at2 p 1))
  | 0x23 => fixed kind 1 p (.fillMode (at1 p 0))
  | 0x25 => fixed kind 1 p (.economyMode (at1 p 0))
  | 0x27 => fixed kind 2 p (.drain (at1 p 0) (at1 p 1))
  | 0x29 => fixed kind 0 p .clearAudit
  | 0x2B => fixed kind 0 p .settle
  | 0x2D => fixed kind 0 p .defrostNow
  | 0x2F => fixed kind 1 p (.clearTubeFault (at1 p 0))
  | 0x31 => fixed kind 1 p (.testSpiral (at1 p 0))
  | 0x33 => fixed kind 1 p (.homeSpiral (at1 p 0))
  | 0x35 => fixed kind 1 p (.releaseHold (at1 p 0))
  | 0x37 => fixed kind 0 p .restart
  | _ => .unknown kind

/-- The kind code of a request (R187). -/
def Request.kind : Request → Nat
  | .unknown k => k
  | .badLength k => k
  | .status => 0x01
  | .fetch _ => 0x03
  | .vend _ _ _ => 0x05
  | .returnCredit => 0x07
  | .load _ _ _ _ => 0x09
  | .read _ _ _ => 0x0B
  | .pass _ _ _ _ => 0x0D
  | .clearFaults _ => 0x0F
  | .unlock _ => 0x11
  | .lock => 0x13
  | .setCode _ _ _ => 0x15
  | .clearCode _ => 0x17
  | .factoryClear => 0x19
  | .tagFirst _ _ => 0x1B
  | .tagLast _ _ => 0x1D
  | .untag _ => 0x1F
  | .apply _ _ => 0x21
  | .fillMode _ => 0x23
  | .economyMode _ => 0x25
  | .drain _ _ => 0x27
  | .clearAudit => 0x29
  | .settle => 0x2B
  | .defrostNow => 0x2D
  | .clearTubeFault _ => 0x2F
  | .testSpiral _ => 0x31
  | .homeSpiral _ => 0x33
  | .releaseHold _ => 0x35
  | .restart => 0x37

/-! ### The gate (R163 check 3, R174, R180) -/

/-- The gated requests (R174, R167). -/
def Request.gated : Request → Bool
  | .load _ _ _ _ => true
  | .setCode _ _ _ => true
  | .clearCode _ => true
  | .tagFirst _ _ => true
  | .tagLast _ _ => true
  | .untag _ => true
  | .apply _ _ => true
  | .fillMode _ => true
  | .economyMode _ => true
  | .drain _ _ => true
  | .clearAudit => true
  | .settle => true
  | .defrostNow => true
  | .clearTubeFault _ => true
  | .testSpiral _ => true
  | .homeSpiral _ => true
  | .releaseHold _ => true
  | .restart => true
  | .unknown _ => false
  | .badLength _ => false
  | .status => false
  | .fetch _ => false
  | .vend _ _ _ => false
  | .returnCredit => false
  | .read _ _ _ => false
  | .pass _ _ _ _ => false
  | .clearFaults _ => false
  | .unlock _ => false
  | .lock => false
  | .factoryClear => false

/-- The requests that leave the tag sequence record as it is (R180), those refused before check 3 among them. -/
def Request.keepsTag : Request → Bool
  | .tagFirst _ _ => true
  | .tagLast _ _ => true
  | .untag _ => true
  | .apply _ _ => true
  | .status => true
  | .fetch _ => true
  | .unknown _ => true
  | .badLength _ => true
  | _ => false

/-! ### Sale requests (R6, R7, R10, R12) -/

/-- Checks 1 to 4 of a vend (R6): none when they pass. -/
def vendRefusal (code : Nat) (s : State) : Option (ReplyCode × List Byte) :=
  if s.credit.sale = .vend ∨ s.credit.sale = .payout then some (.busy, [])
  else if !validCode code then some (.badArgument, [])
  else if s.doorOpen then some (.doorOpen, [])
  else
    match available s (codeIndex code) with
    | .passes => none
    | .unavailable why => some (.unavailable, char why.code)
    | .held => some (.held, [])

/-- Checks 5 and 6 of a CASH vend (R6): none when they pass. -/
def cashRefusal (i : Nat) (s : State) : Option ReplyCode :=
  let price := (s.tables.sel i).price
  if s.credit.credit < price then some .noCredit
  else if s.tables.money.policy = .single ∧ s.tables.money.exactRequired ∧
      !(changePlan s (s.credit.credit - price)).exact then some .noChange
  else none

/-- A CASH vend is admitted (R7). -/
def admitCash (i : Nat) (s : State) : State :=
  let price := (s.tables.sel i).price
  beginVend i (setSale { s with credit.credit := s.credit.credit - price,
                                credit.vendHold := s.credit.vendHold + price, credit.inFlight := some .cash })

/-- An EXTERNAL vend is admitted (R10). -/
def admitExternal (i amount : Nat) (s : State) : State :=
  beginVend i (setSale { s with credit.inFlight := some (.external amount) })

/-- A Vend request with CASH funding (R6, R7). -/
def serveCash (code : Nat) (s : State) : Served :=
  match vendRefusal code s with
  | some r => (s, r.1, r.2)
  | none =>
    match cashRefusal (codeIndex code) s with
    | some c => refuse c s
    | none => (admitCash (codeIndex code) s, .started, [])

/-- A Vend request with EXTERNAL funding (R10). -/
def serveExternal (code amount : Nat) (s : State) : Served :=
  match vendRefusal code s with
  | some r => (s, r.1, r.2)
  | none => (admitExternal (codeIndex code) amount s, .started, [])

/-- A Vend request by its funding code (R186). -/
def serveVend (code funding amount : Nat) (s : State) : Served :=
  match funding with
  | 0 => serveCash code s
  | 1 => serveExternal code amount s
  | _ => refuse .badArgument s

/-- Return Credit (R12). -/
def serveReturn (s : State) : Served :=
  match s.credit.sale with
  | .idle => refuse .noCredit s
  | .opened => if nothingToReturn s then refuse .noCredit s else (returnAll s, .started, [])
  | .payout => (returnAll s, .started, [])
  | .vend => refuse .busy s

/-! ### Table and line requests (R143, R144, R167, R168) -/

/-- Load Table Section, after the gate (R167). -/
def serveLoad (table first count : Nat) (records : List Byte) (s : State) : Served :=
  match loadSection table first count records s with
  | .error c => refuse c s
  | .ok (s1, c, m) => (s1, .done, char c ++ char m)

/-- Read Table Section (R168). -/
def serveRead (table first count : Nat) (s : State) : Served :=
  if readFits table first count then (s, .done, readSection table first count s) else refuse .badArgument s

/-- Pass (R144). -/
def servePass (slot kind tag : Nat) (payload : List Byte) (s : State) : Served :=
  if slot = 0 ∨ 8 < slot ∨ s.tables.slotKind slot = .unused then refuse .badArgument s
  else if kind < 0x20 ∨ 0x3F < kind then refuse .badArgument s
  else if 32 < payload.length ∨ tag = 0 then refuse .badArgument s
  else if Config.lineQueueSize ≤ s.line.pass.length then refuse .queueFull s
  else (placePass slot kind tag payload s, .queued, [])

/-- Clear Faults (R143). -/
def serveClearFaults (slot : Nat) (s : State) : Served :=
  if 8 < slot then refuse .badArgument s else (clearLatches slot s, .done, char (latchCount slot s))

/-! ### Service requests of other owners (R25, R26, R53, R86, R108, R111, R126, R183) -/

/-- Clear Audit (R25). -/
def serveClearAudit (s : State) : Served :=
  if s.credit.sale = .idle then doneWith (clearAudit s) else refuse .busy s

/-- Settle (R26). -/
def serveSettle (s : State) : Served :=
  if s.credit.sale = .opened then
    let a := s.credit.returnDue
    (setSale { s with credit.returnDue := 0, audit.writtenOff := addTotal s.audit.writtenOff a,
                      change.shortWait := false }, .done, word a)
  else refuse .busy s

/-- Clear Tube Fault (R53). -/
def serveClearTube (n : Nat) (s : State) : Served :=
  if 5 < n ∨ (s.tube n).cond ≠ .faulted then refuse .badArgument s else doneWith (clearFault n s)

/-- Drain (R183). -/
def serveDrain (n k : Nat) (s : State) : Served :=
  if 5 < n ∨ k = 0 ∨ 250 < k then refuse .badArgument s
  else if !s.doorOpen then refuse .doorClosed s
  else if s.credit.sale ≠ .idle then refuse .busy s
  else (startPayout (.drain n k) s, .started, [])

/-- A service spiral operation is created and asks for the MOTOR grant (R86). -/
def beginService (home : Bool) (p : Nat) (s : State) : State :=
  let o : ServiceOp := { home := home, spiral := p, params := s.tables.drive, told := false }
  request .motor { s with drive.service := some o }

/-- Test Spiral and Home Spiral, after the gate (R86). -/
def serveSpiral (home : Bool) (p : Nat) (s : State) : Served :=
  if 63 < p then refuse .badArgument s
  else if home ∧ (s.spiral p).state ≠ .notHome then refuse .badArgument s
  else if !s.doorOpen then refuse .doorClosed s
  else if s.credit.sale ≠ .idle then refuse .busy s
  else if s.drive.service.isSome then refuse .busy s
  else (beginService home p s, .started, [])

/-- Defrost Now (R108). -/
def serveDefrost (s : State) : Served :=
  let r := defrostNow s
  if r.2 then (r.1, .started, []) else refuse .busy s

/-- F of a zone's sensor is at or below its hold limit (R111), the one loaded last even before the zone's next sample
(DESIGN CHOICE, log 53). -/
def zoneCold (z : Nat) (s : State) : Bool :=
  match (s.sensor z).temp with
  | some f => f ≤ (s.tables.zone z).holdLimit
  | none => false

/-- Release Hold (R111): the payload of a refusal is 0 ZONE, 1 NOT_HELD, 2 SENSOR or 3 NOT_COLD (R188). -/
def serveRelease (z : Nat) (s : State) : Served :=
  if 1 < z then (s, .badArgument, char 0)
  else if !(s.zone z).latched then (s, .badArgument, char 1)
  else if (s.sensor z).faulted ∨ (s.sensor z).temp = none then (s, .badArgument, char 2)
  else if !zoneCold z s then (s, .badArgument, char 3)
  else doneWith (releaseHold z s)

/-- Restart (R126): its steps run once the reply has been sent. -/
def serveRestart (s : State) : Served :=
  if s.credit.sale = .idle then doneWith { s with link.restarting := true } else refuse .busy s

/-! ### Status and Fetch Events (R169, R171, R188) -/

/-- One bit of a character field. -/
def bit (k : Nat) (b : Bool) : Nat := if b then 2 ^ k else 0

/-- The sensor group of Status. -/
def sensorStatus (x : TempSensor) : List Byte :=
  (match x.temp with
   | some f => signedWord f
   | none => word 0x8000) ++ word x.raw ++ flag x.faulted

/-- The zone character of Status. -/
def zoneStatus (z : ZoneState) : List Byte := char (bit 0 z.demand + bit 1 z.latched)

/-- The four characters of a slot in Status. -/
def slotStatus (r : Slot) : List Byte :=
  char r.state.code ++ char r.missed ++ flag r.latch.isSome ++ char (r.latch.getD 0)

/-- The escrow character of Status. -/
def escrowStatus (e : Option Escrow) : List Byte :=
  match e with
  | none => char 0xFF
  | some e => char (e.noteType + bit 7 (e.decision == .stack))

/-- The rate character of Status. -/
def rateStatus (r : Option Rate) : List Byte :=
  match r with
  | none => char 0
  | some x => char x.code

/-- The money group of Status. -/
def moneyStatus (s : State) : List Byte :=
  word s.credit.credit ++ word s.credit.vendHold ++ word s.credit.escrowReserve ++ word s.credit.returnDue ++
  word s.headroom ++ char s.credit.sale.code ++ escrowStatus s.credit.escrow

/-- The supply group of Status. -/
def supplyStatus (s : State) : List Byte :=
  char s.supply.state.code ++ word s.supply.reading ++ char s.supply.granted.code ++
  char s.supply.waiting.code ++ word s.grantedSum ++ char s.effectiveBudget

/-- The service group of Status. -/
def serviceStatus (s : State) : List Byte :=
  char s.lock.state.code ++
  char (bit 0 s.lock.lockout + bit 1 s.doorOpen + bit 2 s.lock.fill + bit 3 s.lock.economy)

/-- The refrigeration group of Status. -/
def coldStatus (s : State) : List Byte :=
  char s.cold.state.code ++ sensorStatus (s.sensor 0) ++ sensorStatus (s.sensor 1) ++
  sensorStatus (s.sensor 2) ++ zoneStatus (s.zone 0) ++ zoneStatus (s.zone 1)

/-- The tube group of Status. -/
def tubeStatus (s : State) : List Byte :=
  ((List.range 6).flatMap fun n => char (s.tube n).count ++ char (s.tube n).cond.code) ++ word s.change.stray

/-- The line group of Status. -/
def lineStatus (s : State) : List Byte :=
  (addresses.flatMap fun a => slotStatus (s.slot a)) ++
  word s.line.noisy ++ word s.line.framing ++ word s.line.crc ++ word s.line.truncated ++
  word s.line.unsolicited ++ word s.line.dropped ++
  (addresses.flatMap fun a => word (s.slot a).noise ++ word (s.slot a).contention)

/-- The link group of Status. -/
def linkStatus (s : State) : List Byte :=
  rateStatus s.link.rate ++ word s.link.crc ++ word s.link.framing ++ word s.link.truncated ++
  word s.link.lost ++ word s.link.rateFail ++ word s.link.noisy

/-- The Status payload (R169, R188). -/
def statusPayload (s : State) : List Byte :=
  moneyStatus s ++ supplyStatus s ++ serviceStatus s ++ coldStatus s ++ tubeStatus s ++ lineStatus s ++
  linkStatus s

/-- An event record in a Fetch Events reply (R188). -/
def eventRecord (e : Event) : List Byte :=
  char e.kind.code ++ char (bit 0 e.subject.isSome + bit 1 e.value.isSome) ++ char (e.subject.getD 0) ++
  char e.payload.length ++ field 4 e.time.toNat ++ field 4 (e.value.getD 0).toNat ++ e.payload

/-- How many records from the head a fetch removes: at most `fuel`, while they fit in `room` (R171, R188). -/
def fitCount : Nat → Nat → List Event → Nat
  | 0, _, _ => 0
  | _ + 1, _, [] => 0
  | fuel + 1, room, e :: es =>
    let n := 12 + e.payload.length
    if n ≤ room then 1 + fitCount fuel (room - n) es else 0

/-- The payload of a Fetch Events reply (R188). -/
def batchPayload (dropped : Nat) (batch : List Event) : List Byte :=
  char dropped ++ char batch.length ++ batch.flatMap eventRecord

/-- The room for records in a Fetch Events reply: outcome, condition set and two counts stand before them (R188). -/
def fetchRoom : Nat := Config.replyPayloadMax - 4

/-- A Fetch Events without the again flag (R171). -/
def fetchNew (s : State) : Served :=
  let n := fitCount 8 fetchRoom s.events.queue
  let batch := s.events.queue.take n
  let d := s.events.dropped
  ({ s with events := { queue := s.events.queue.drop n, dropped := 0, lastBatch := batch, lastDropped := d } },
    .done, batchPayload d batch)

/-- A Fetch Events with the again flag (R171). -/
def fetchAgain (s : State) : Served := (s, .done, batchPayload s.events.lastDropped s.events.lastBatch)

/-- Fetch Events by its flag (R171, R186). -/
def serveFetch (again : Nat) (s : State) : Served :=
  match again with
  | 0 => fetchNew s
  | 1 => fetchAgain s
  | _ => refuse .badArgument s

/-! ### Serving and replying (R163 to R165) -/

/-- Check 4: the owner of the request applies its own checks and acts (R163). -/
def serveOwner (r : Request) (s : State) : Served :=
  match r with
  | .unknown _ => refuse .unknownRequest s
  | .badLength _ => refuse .badArgument s
  | .status => (s, .done, statusPayload s)
  | .fetch again => serveFetch again s
  | .vend code funding amount => serveVend code funding amount s
  | .returnCredit => serveReturn s
  | .load table first count records => serveLoad table first count records s
  | .read table first count => serveRead table first count s
  | .pass slot kind tag payload => servePass slot kind tag payload s
  | .clearFaults slot => serveClearFaults slot s
  | .unlock c => serveUnlock c s
  | .lock => serveLock s
  | .setCode old new lockNow => serveSetCode old new lockNow s
  | .clearCode c => serveClearCode c s
  | .factoryClear => serveFactoryClear s
  | .tagFirst unit value => serveTagFirst unit value s
  | .tagLast unit value => serveTagLast unit value s
  | .untag code => serveUntag code s
  | .apply action price => serveApply action price s
  | .fillMode onOff => serveFill onOff s
  | .economyMode onOff => serveEconomy onOff s
  | .drain tube coins => serveDrain tube coins s
  | .clearAudit => serveClearAudit s
  | .settle => serveSettle s
  | .defrostNow => serveDefrost s
  | .clearTubeFault tube => serveClearTube tube s
  | .testSpiral p => serveSpiral false p s
  | .homeSpiral p => serveSpiral true p s
  | .releaseHold z => serveRelease z s
  | .restart => serveRestart s

/-- A taken request is checked and carried out (R163, R180). -/
def serve (r : Request) (s : State) : Served :=
  let s := if r.keepsTag then s else resetTag s
  if r.gated && s.lock.state == .locked then refuse .locked s else serveOwner r s

/-- The payload of a reply frame: outcome, condition set, the owner's payload, filler (R164, R186, R188). -/
def replyPayload (outcome : ReplyCode) (conditions : BitVec 8) (payload : List Byte) : List Byte :=
  padEven (char outcome.code ++ conditions :: payload)

/-- A reply and the frame that carries it (R160, R164). -/
def makeReply (kind : Nat) (outcome : ReplyCode) (conditions : BitVec 8) (payload : List Byte) : Reply :=
  { kind := kind, outcome := outcome, conditions := conditions, payload := payload,
    frame := linkFrame (BitVec.ofNat 8 kind) (replyPayload outcome conditions payload) }

/-- The reply is composed: it shows the state after the request, and carries and clears the once-marks
(R163 to R165). -/
def compose (r : Request) (x : Served) : State :=
  let reply := makeReply (r.kind ||| 0x80) x.2.1 (conditionSet x.1) x.2.2
  let s := clearMarks x.1
  { s with link.answer := some reply }

/-- A request is taken from the waiting slot, carried out and answered (R163). The sale state and the
payout test are brought up to date before the reply is composed (R4, R5). A reply is composed, and is in progress
until it has been sent, whether or not a rate is held (R164; DESIGN CHOICE, log 45). -/
def takeRequest (s : State) : State :=
  match s.link.waiting with
  | none => s
  | some r =>
    if s.running && s.link.answer.isNone then
      let x := serve r { s with link.waiting := none }
      compose r (setSale (payoutTest (setSale x.1)), x.2.1, x.2.2)
    else s

/-! ### Frames of the Controller Link (R160 to R162, R166) -/

/-- A lost link is restored by a valid frame (R166). -/
def restoreLink (s : State) : State :=
  if s.link.up then s
  else
    let away := s.seconds - s.link.lostAt
    recomputeMasks (raise .linkRestored none (some away) { s with link.up := true })

/-- A valid frame restores the link, is staged or lost, and is taken when it can be (R162, R163, R166). -/
def frameValid (r : Request) (s : State) : State :=
  let s := restoreLink { s with link.assembling := false, link.detecting := false }
  match s.link.waiting with
  | some _ =>
    { s with link.lost := satAdd Config.maxCount16 s.link.lost 1, link.lostFrame := true }
  | none => takeRequest { s with link.waiting := some r }

/-- The link becomes LOST (R166, R174). A frame in assembly and a detection under way are discarded, uncounted
(DESIGN CHOICE, log 40). -/
def loseLink (s : State) : State :=
  if s.link.up then
    let s := { s with link.up := false, link.lostAt := s.seconds, link.rate := none, link.linkWasLost := true,
                      link.assembling := false, link.detecting := false }
    endSession (recomputeMasks s)
  else s

/-- The bit times of the five rates in units of 10 ns (R161). -/
def rates : List (Nat × Rate) :=
  [(10417, .b9600), (5208, .b19200), (2604, .b38400), (1736, .b57600), (868, .b115200)]

/-- A measured time lies within 5 % of a bit time (R161). -/
def within5 (low b : Nat) : Bool := 20 * low ≤ 21 * b && 19 * b ≤ 20 * low

/-- The rate that fits a measured start bit (R161). -/
def rateFor (low : Nat) : Option Rate := (rates.find? fun x => within5 low x.1).map (·.2)

/-- A break on the Controller Link (R160, R161). -/
def linkBreakSeen (s : State) : State :=
  match s.link.rate with
  | some _ => { s with link.assembling := true, link.detecting := false }
  | none => { s with link.assembling := false, link.detecting := true }

/-- The first start bit after a break is measured while no rate is held (R161). -/
def detectRate (low : Nat) (s : State) : State :=
  if s.link.detecting && s.link.rate.isNone then
    match rateFor low with
    | some r => { s with link.rate := some r, link.detecting := false, link.assembling := true }
    | none => { s with link.detecting := false, link.rateFail := satAdd Config.maxCount16 s.link.rateFail 1 }
  else s

/-- Noisy characters accepted on the link (R160). -/
def countLinkNoisy (n : Nat) (s : State) : State :=
  { s with link.noisy := satAdd Config.maxCount16 s.link.noisy n }

/-- The frame being assembled is discarded and its counter grows (R160). -/
def linkFraming (s : State) : State :=
  if s.link.assembling then
    { s with link.assembling := false, link.framing := satAdd Config.maxCount16 s.link.framing 1 } else s
def linkTruncated (s : State) : State :=
  if s.link.assembling then
    { s with link.assembling := false, link.truncated := satAdd Config.maxCount16 s.link.truncated 1 } else s
def linkCrc (s : State) : State :=
  if s.link.assembling then
    { s with link.assembling := false, link.crc := satAdd Config.maxCount16 s.link.crc 1 } else s

/-- A complete link frame: its kind, its payload, and whether its check agrees (R160). -/
structure LinkFrame where
  kind : Nat
  payload : List Byte
  good : Bool
deriving DecidableEq, Repr

/-- The characters of a complete link frame (R160): none when they are no complete frame. -/
def readLinkFrame (cs : List RxChar) : Option LinkFrame :=
  let cs := takenChars cs
  let bs := cs.map charValue
  match bs with
  | k :: l :: rest =>
    if cs.any stopLow || rest.length ≠ 2 * num l + 2 || 96 < num l then none
    else
      let p := rest.take (2 * num l)
      some { kind := num k, payload := p, good := rest.drop (2 * num l) == crcChars (k :: l :: p) }
  | _ => none

/-- The place of a length character above 96 (R160). -/
def badLinkHeader : List Byte → Option Nat
  | _ :: l :: _ => if 96 < num l then some 2 else none
  | _ => none

/-- The number of characters of a link frame, as its length character gives it (R160). -/
def linkSize : List Byte → Option Nat
  | _ :: l :: _ => some (2 * num l + 4)
  | _ => none

/-- A frame being assembled from characters that make no complete frame (R160; DESIGN CHOICE, log 10). -/
def linkCutShort (cs : List RxChar) (s : State) : State :=
  match cutShort badLinkHeader linkSize cs with
  | .badHeader n => linkCrc (countLinkNoisy n s)
  | .framing n => linkFraming (countLinkNoisy n s)
  | .unfinished => s

/-- The second CRC character of a link frame arrives (R160, R162). -/
def linkFrameSeen (cs : List RxChar) (s : State) : State :=
  if s.link.assembling then
    match readLinkFrame cs with
    | none => linkCutShort cs s
    | some f =>
      let s := countLinkNoisy (noisyCount cs) s
      if f.good then frameValid (readRequest f.kind f.payload) s else linkCrc s
  else s

end Sys2Proof.Machine
end

