-- ==== Sys2Proof/Machine/Start.lean ====
section
/-! DEFINITION. The power-fail sequence (R121, R122), the start sequence (R27, R54, R67, R68, R112, R127,
R128), supply readings (R114), the store's completions (R121, R123), and what every step ends with. -/

namespace Sys2Proof.Machine

/-! ### The power-fail sequence (R121, R122) -/

/-- The spirals after the abandoned probes and the stopped motor (R61, R89, R121): `turned` is the spiral
whose motor was energised by a vend or Test Spiral. -/
def stopSpirals (turned : Option Nat) (rs : List SpiralRec) : List SpiralRec :=
  let rs := rs.map fun r => { r with probePending := false }
  match turned with
  | none => rs
  | some p => updAt rs p fun r => if r.state = .unassigned then r else { r with state := .notHome }

/-- The spiral a vend or Test Spiral was turning (R89). -/
def turnedSpiral (s : State) : Option Nat :=
  match turningRev s with
  | none => none
  | some r =>
    match runningService s with
    | some o => if o.home then none else some r.spiral
    | none => some r.spiral

/-- A vend in flight ends as INTERRUPTED; the lever waiting for it is discarded (R9, R13, R89). -/
def interruptVend (s : State) : State :=
  let s := { s with credit.pendingReturn := false }
  match s.drive.vend with
  | none => s
  | some v => failVend v.sel .interrupted s

/-- Step 1: every output is de-energised, the sets are emptied, frames being sent are cut off (R121). -/
def outputsOff (s : State) : State :=
  { s with cold.relay := false, cold.heater := false, cold.damper := false,
           supply.granted := .none, supply.waiting := .none,
           line.driver := false, line.trans := none, line.queue := [], line.pass := [],
           line.roundPending := false, line.escrowBack := none, line.assembling := false, line.idle := false,
           link.answer := none, link.waiting := none, link.restarting := false, link.assembling := false }

/-- Step 2: every operation in flight is ended by its owner (R121). -/
def endOperations (s : State) : State :=
  let turned := turnedSpiral s
  let s := interruptVend s
  let s := { s with spirals := stopSpirals turned s.spirals, drive := Drive.initial, change.payout := none,
                    credit.escrow := none, credit.escrowReserve := 0 }
  setSale s

/-- The run time handed to the retained image (R112). -/
def retainedRunSince (s : State) : Nat :=
  if s.cold.state = .defrost then s.tables.refrig.defrostInterval else s.cold.runSince

/-- The retained image as it stands after step 2 (R122). -/
def retainedOf (s : State) : Retained :=
  { credit := s.credit.credit, returnDue := s.credit.returnDue, sale := s.credit.sale, audit := s.audit,
    sales := s.sels.map (·.sales), tubeCounts := s.change.tubes.map (·.count),
    tubeConds := s.change.tubes.map (·.cond), selStates := s.sels.map (·.state),
    selNexts := s.sels.map (·.next), spiralStates := s.spirals.map (·.state),
    holds := s.cold.zones.map (·.latched), runSince := retainedRunSince s, code := s.lock.code }

/-- Step 4 begins: the retained image is written (R121). -/
def beginRetainedWrite (s : State) : State :=
  { s with store.retainedWriting := some (nextWrite s.store.retainedA s.store.retainedB (retainedOf s)) }

/-- Steps 1 and 2 of the power-fail sequence (R121). -/
def stopAll (s : State) : State := endOperations (outputsOff s)

/-- The power-fail sequence begins (R121): steps 1 and 2, then step 3, which drops a waiting table image
write and waits for one under way; `warm` when a WARM start follows (R125, R126). -/
def powerFail (warm : Bool) (s : State) : State :=
  let s := stopAll s
  let s := { s with phase := .saving warm, store.tableWaiting := false }
  if s.store.tableWriting.isSome then s else beginRetainedWrite s

/-! ### The start sequence, steps 1 and 2 (R127) -/

/-- A selection's kept fields at start (R67). -/
def startSel (tables : Tables) (defaults : Bool) (img : Option Retained) (i : Nat) : SelKept :=
  match img with
  | none => { state := if defaults then .inhibited else .enabled, next := 0, sales := 0 }
  | some m =>
    if defaults then { state := .inhibited, next := 0, sales := m.sales.getD i 0 }
    else
      let n := m.selNexts.getD i 0
      { state := m.selStates.getD i .enabled, sales := m.sales.getD i 0,
        next := if n < (tables.sel i).spirals.length then n else 0 }

/-- A spiral is in some list. -/
def assigned (tables : Tables) (p : Nat) : Bool := tables.sels.any fun r => r.spirals.contains p

/-- A spiral record at start with a state (R59, R68). -/
def spiralAt (x : SpiralState) (probe : Bool) : SpiralRec :=
  { state := x, lastRev := 0, slow := false, homeClosed := x == .ready || x == .empty, probePending := probe }

/-- A spiral at start (R68). -/
def startSpiral (tables : Tables) (defaults : Bool) (img : Option Retained) (p : Nat) : SpiralRec :=
  if !assigned tables p then spiralAt .unassigned false
  else if defaults then spiralAt .notHome true
  else
    match img with
    | none => spiralAt .notHome true
    | some m =>
      match m.spiralStates.getD p .notHome with
      | .unassigned => spiralAt .notHome true
      | .notHome => spiralAt .notHome true
      | .ready => spiralAt .ready false
      | .empty => spiralAt .empty false
      | .jammed => spiralAt .jammed false
      | .openMotor => spiralAt .openMotor false
      | .stalled => spiralAt .stalled false

/-- A tube at start (R54). -/
def startTube (tables : Tables) (img : Option Retained) (n : Nat) : TubeState :=
  match img with
  | none => { count := 0, cond := condFor (tables.tube n).enabled .ok, full := .unread, low := .unread }
  | some m =>
    { count := min (tables.tube n).capacity (m.tubeCounts.getD n 0),
      cond := condFor (tables.tube n).enabled (m.tubeConds.getD n .ok), full := .unread, low := .unread }

/-- The refrigeration records at start (R112). -/
def startCold (img : Option Retained) : Cold :=
  match img with
  | none => Cold.initial
  | some m =>
    { Cold.initial with
      runSince := m.runSince,
      zones := (List.range 2).map fun z => { ZoneState.initial with latched := m.holds.getD z false } }

/-- The credit record at start (R27), before the ceiling is applied. -/
def startCredit (img : Option Retained) : CreditUnit :=
  match img with
  | none => CreditUnit.initial
  | some m => { CreditUnit.initial with credit := m.credit, returnDue := m.returnDue }

/-- The Service Lock at start (R174, R182, R184). -/
def startLock (img : Option Retained) : ServiceLock :=
  match img with
  | none => ServiceLock.initial
  | some m =>
    match m.code with
    | none => ServiceLock.initial
    | some c => { ServiceLock.initial with code := some c, state := .locked }

/-- The supply record at start (R115, R117). -/
def startSupply (c : Cause) (x : Supply) : Supply :=
  match c with
  | .warm => { x with granted := .none, waiting := .none }
  | .cold => { x with state := .normal, low := 0, fail := 0, good := 0, granted := .none, waiting := .none }
  | .powerRestored =>
    { x with state := .normal, low := 0, fail := 0, good := 0, granted := .none, waiting := .none }

/-- The Link Port at start (R160 to R162, R165, R166): only a WARM start keeps the rate held. Another drops a frame
in assembly and a detection begun in the FAIL wait, uncounted, and keeps the waiting slot (DESIGN CHOICE, log 41). -/
def startLink (c : Cause) (x : Link) : Link :=
  match c with
  | .warm => { Link.initial with rate := x.rate, assembling := x.assembling, detecting := x.detecting,
                                 waiting := x.waiting }
  | .cold => { Link.initial with waiting := x.waiting }
  | .powerRestored => { Link.initial with waiting := x.waiting }

/-- Money held above the ceiling moves to `return_due` (R27). -/
def holdToCeiling (s : State) : State :=
  let excess := s.credit.credit - s.tables.money.ceiling
  if excess = 0 then s
  else addReturnDue excess { s with credit.credit := s.credit.credit - excess }

/-- The audit totals at start (R27). -/
def startAudit (img : Option Retained) : Audit :=
  match img with
  | none => Audit.zero
  | some m => m.audit

/-- A start begins (R127): what its steps 1 and 2 leave. The steps are over when something else than a reset
pulse or a supply reading arrives (R129; DESIGN CHOICE, log 7). -/
def beginStart (c : Cause) (s : State) : State :=
  let stored := latest s.store.tableA s.store.tableB
  let defaults := stored.isNone
  let tables := stored.getD defaultTables
  let img := latest s.store.retainedA s.store.retainedB
  let change : ChangeUnit :=
    { ChangeUnit.initial with tubes := (List.range 6).map (startTube tables img) }
  let s : State :=
    { s with phase := .restoring c, seconds := 0, tables := tables, storeDefaults := defaults,
             credit := startCredit img, audit := startAudit img, change := change,
             sels := (List.range 64).map (startSel tables defaults img),
             spirals := (List.range 64).map (startSpiral tables defaults img), drive := Drive.initial,
             cold := startCold img, supply := startSupply c s.supply, line := Line.initial,
             link := startLink c s.link, lock := startLock img }
  setSale (holdToCeiling s)

/-- The cause of a start after a FAIL wait (R124). -/
def waitCause (s : State) : Cause :=
  if (latest s.store.retainedA s.store.retainedB).isSome then .powerRestored else .cold

/-! ### The start sequence, steps 3 to 8 (R127, R128) -/

/-- Step 3 is complete: no probe is pending or under way. -/
def probesDone (s : State) : Bool := s.drive.probing.isNone && s.spirals.all fun r => !r.probePending

/-- Step 4: every tube is reconciled and EXACT is evaluated without an event (R127). -/
def reconcileAll (s : State) : State :=
  evalExactSilent ((List.range 6).foldl (fun s n => reconcile n s) s)

/-- Steps 4 and 5 when step 3 and the sensors are ready; sampling begins (R104, R127, R128). -/
def advanceProbing (c : Cause) (s : State) : State :=
  if probesDone s && sensorsAccepted s then
    let s := reconcileAll s
    { s with cold.offTimer := some s.tables.refrig.minOffMs, cold.state := .lockedOff, phase := .sampling c }
  else s

/-- Step 7 begins when the first samples are taken: the line-reset break (R128, R134; DESIGN CHOICE, log 8). A frame
being assembled stays in assembly through it (DESIGN CHOICE, log 54). -/
def advanceSampling (c : Cause) (s : State) : State :=
  if s.cold.sensors.all (·.sampled) then { s with phase := .lineReset c, line.driver := true } else s

/-- Step 8 and the completion of the start (R128, R146, R172). The line is idle at once (R136; DESIGN CHOICE,
log 39), and the empty last batch has a dropped count of 0 (R171; DESIGN CHOICE, log 48). -/
def startComplete (c : Cause) (s : State) : State :=
  let s := { s with phase := .run, line.driver := false, line.idle := true, events := { s.events with queue := [], dropped := 0, lastBatch := [], lastDropped := 0 } }
  let s := raise .start none (val c.code) s
  takeRequest (beginRound (recomputeMasks (setSale s)))

/-- The line-reset break ends (R134). -/
def resetBreakEnds (s : State) : State :=
  match s.phase with
  | .lineReset c => startComplete c s
  | _ => s

/-! ### Supply readings (R114, R124, R125, R129) -/

/-- Entry to FAIL (R114, R121, R125, R129); before start step 2 is complete no image is written, and the Link Port's
slots are emptied as by the power-fail steps (R162; DESIGN CHOICE, log 49). -/
def enterFail (s : State) : State :=
  match s.phase with
  | .saving _ => { s with phase := .saving false }
  | .failWait => s
  | .restoring _ => { stopAll s with phase := .failWait }
  | _ => powerFail false s

/-- The good count is acted on during the FAIL wait (R124). -/
def waitEnds (s : State) : State := beginStart (waitCause s) s

/-- A persistence count after a reading (R114). -/
def persist (meets : Bool) (n : Nat) : Nat := if meets then n + 1 else 0

/-- One reading of the supply sense input (R114). A reading that completes the low and the fail count together
leads to FAIL alone (DESIGN CHOICE, log 44). -/
def supplyRead (s : State) (v : Nat) : State :=
  let s := { s with supply.reading := v, supply.low := persist (v < 200) s.supply.low,
                    supply.fail := persist (v < 170) s.supply.fail,
                    supply.good := persist (210 ≤ v) s.supply.good }
  match s.supply.state with
  | .normal =>
    if 2 ≤ s.supply.fail then enterFail { s with supply.fail := 0, supply.state := .fail }
    else if 20 ≤ s.supply.low then
      budgetChanged (raise .supplySag none (val v) { s with supply.low := 0, supply.state := .sag })
    else s
  | .sag =>
    if 2 ≤ s.supply.fail then enterFail { s with supply.fail := 0, supply.state := .fail }
    else if 500 ≤ s.supply.good then
      budgetChanged (raise .supplyNormal none (val v) { s with supply.good := 0, supply.state := .normal })
    else s
  | .fail => if s.phase = .failWait ∧ 500 ≤ s.supply.good then waitEnds s else s

/-- Readings of the supply sense input in order (R114; DESIGN CHOICE, log 11). -/
def supplyReads (readings : List Nat) (s : State) : State := readings.foldl supplyRead s

/-! ### The store's completions and the reset input (R121, R123, R125) -/

/-- The part stands in steps 1 to 4 of the power-fail sequence. -/
def saving (s : State) : Bool :=
  match s.phase with
  | .saving _ => true
  | _ => false

/-- A table image write is complete (R121 step 3, R123). -/
def tableWriteDone (s : State) : State :=
  if s.store.tableWriting.isNone then s
  else
    let s := commitTables s
    if saving s then beginRetainedWrite s
    else if s.store.tableWaiting then beginTableWrite s
    else s

/-- The retained image write is complete (R121 step 5, R124, R125). A good count reached during the steps acts if it
still stands at 500 or more (R114; DESIGN CHOICE, log 46). -/
def retainedWriteDone (s : State) : State :=
  if s.store.retainedWriting.isNone then s
  else
    let s := commitRetained s
    match s.phase with
    | .saving true => beginStart .warm s
    | .saving false =>
      let s := { s with phase := .failWait }
      if 500 ≤ s.supply.good then waitEnds s else s
    | _ => s

/-- A pulse on the reset input (R125, R129); before start step 2 is complete the start begins again. -/
def resetPulse (s : State) : State :=
  match s.phase with
  | .saving _ => s
  | .failWait => s
  | .restoring _ => beginStart .warm s
  | _ => powerFail true s

/-- Logic power-up (R124): the state right after it, with the store as it was left. -/
def powerUp (s : State) : State := { State.reset with store := cutWrites s.store, pending := s.pending }

/-- The reply has been sent (R163, R164); after that of an accepted Restart its steps run (R126). -/
def replyDone (s : State) : State :=
  match s.link.answer with
  | none => s
  | some _ =>
    if s.link.restarting then powerFail true { s with link.answer := none }
    else takeRequest { s with link.answer := none }

/-! ### The end of every step -/

/-- What is due at once in normal operation: the sale state and payout test (R4, R5), a free matrix (R61,
R72), an idle line (R139; DEDUCED, log 12). -/
def settle (s : State) : State := lineChoose (kickMatrix (setSale (payoutTest (setSale s))))

/-- The end of every step: what the step's effect makes due is taken in it. -/
def finish (s : State) : State :=
  match s.phase with
  | .run => settle s
  | .restoring c => advanceProbing c (kickMatrix { s with phase := .probing c })
  | .probing c => advanceProbing c (kickMatrix s)
  | .sampling c => advanceSampling c s
  | .saving _ => s
  | .failWait => s
  | .lineReset _ => s

/-- The end of a step that may begin a start, or arrive before start step 2 is complete (R129): steps 1 and 2
are then not over yet (DESIGN CHOICE, log 7). -/
def finishSupply (s : State) : State :=
  match s.phase with
  | .restoring _ => s
  | _ => finish s

end Sys2Proof.Machine
end

