-- ==== Sys2Proof/Machine/Commands.lean ====
section
/-! DEFINITION. The commands: one meaning for each row of spec/opcode_table.json, each whole and
indivisible (95_what_each_step_holds.md), ending with what the step makes due (`finish`). -/

namespace Sys2Proof.Machine

/-- The outcome of a command that has an effect, or none (DESIGN CHOICE, log 3): always a next state. -/
abbrev Result := Host.Outcome State Fault Refusal

/-- An effect taken while a start or normal operation is under way (DEDUCED, log 6). -/
def whenActive (f : State → State) (s : State) : State := if s.active then f s else s

/-- An effect taken in normal operation. -/
def whenRunning (f : State → State) (s : State) : State := if s.running then f s else s

/-- What the line receiver takes while the part does not drive the line (R134, R135). -/
def whenListening (f : State → State) (s : State) : State := if listening s then f s else s

/-- Contention while a frame is being sent (R135), with the noisy echo characters before it (R130). -/
def contentionSeen (noisy : Nat) (s : State) : State :=
  match sendingTrans s with
  | some t => contend t (countNoisy noisy s)
  | none => s

/-- The end of the request (R134), with the noisy characters of its echo (R130; DESIGN CHOICE, log 28). -/
def requestSent (noisy : Nat) (s : State) : State :=
  match sendingTrans s with
  | some _ => requestEnds (countNoisy noisy s)
  | none => s

/-- A sample brought a sensor's fault (R95). -/
def faultBegins (k : Nat) (s t : State) : Bool := !(s.sensor k).faulted && (t.sensor k).faulted
/-- A sample cleared a sensor's fault (R96). -/
def faultEnds (k : Nat) (s t : State) : Bool := (s.sensor k).faulted && !(t.sensor k).faulted
/-- A sample latched a zone's hold by its timer (R109). -/
def holdBegins (z : Nat) (s t : State) : Bool :=
  (s.sensor z).sampled && !(s.zone z).latched && (t.zone z).latched
/-- A sample's tick began a defrost (R105). -/
def defrostBegins (s t : State) : Bool := s.cold.state != .defrost && t.cold.state == .defrost
/-- A sample's tick found the defrost interval reached (R105): a defrost began, or waits for STARTING to end. -/
def intervalReached (s t : State) : Bool :=
  defrostBegins s t || (t.cold.state == .starting && t.tables.refrig.defrostInterval ≤ t.cold.runSince)
/-- A sample ended a defrost (R106). -/
def defrostEnds (s t : State) : Bool := s.cold.state == .defrost && t.cold.state == .drip

/-- LINK_BREAK (R160, R161). -/
def execLinkBreak (noisy : Nat) (s : State) : Result :=
  .next (finish (linkBreakSeen (countLinkNoisy noisy s)))

/-- RATE_DETECTION (R161). -/
def execRateDetection (low : Nat) (s : State) : Result := .next (finish (detectRate low s))

/-- LINK_FRAMING_ERROR (R160). -/
def execLinkFramingError (noisy : Nat) (s : State) : Result :=
  .next (finish (linkFraming (countLinkNoisy noisy s)))

/-- LINK_TRUNCATED_FRAME (R160). -/
def execLinkTruncatedFrame (noisy : Nat) (s : State) : Result :=
  .next (finish (linkTruncated (countLinkNoisy noisy s)))

/-- LINK_FRAME_COMPLETE (R160, R162, R166). -/
def execLinkFrameComplete (chars : List RxChar) (s : State) : Result :=
  .next (finish (linkFrameSeen chars s))

/-- LINK_LOST (R166): the silence timer reaches the silence time. -/
def execLinkLost (s : State) : Result := .next (finish (loseLink s))

/-- REPLY_SENT (R163, R164, R126). -/
def execReplySent (s : State) : Result := .next (finish (replyDone s))

/-- UNKNOWN_REQUEST (R163 check 1): a frame of a kind the part does not know. -/
def execUnknownRequest (kind : Nat) (payload : List Byte) (s : State) : Result :=
  .next (finish (frameValid (readRequest kind (padEven payload)) s))

/-- STATUS (R169). -/
def execStatus (s : State) : Result := .next (finish (frameValid .status s))

/-- FETCH_EVENTS (R171). -/
def execFetchEvents (s : State) : Result := .next (finish (frameValid (.fetch 0) s))

/-- FETCH_EVENTS_AGAIN (R171). -/
def execFetchEventsAgain (s : State) : Result := .next (finish (frameValid (.fetch 1) s))

/-- VEND with CASH funding (R6, R7). -/
def execVend (code : Nat) (s : State) : Result := .next (finish (frameValid (.vend code 0 0) s))

/-- VEND_EXTERNAL (R10). -/
def execVendExternal (code : Nat) (amount : Nat) (s : State) : Result :=
  .next (finish (frameValid (.vend code 1 amount) s))

/-- RETURN_CREDIT (R12). -/
def execReturnCredit (s : State) : Result := .next (finish (frameValid .returnCredit s))

/-- LOAD_TABLE_SECTION (R167). -/
def execLoadTableSection (table : Nat) (first : Nat) (count : Nat) (records : List Byte) (s : State) : Result :=
  .next (finish (frameValid (.load table first count records) s))

/-- READ_TABLE_SECTION (R168). -/
def execReadTableSection (table : Nat) (first : Nat) (count : Nat) (s : State) : Result :=
  .next (finish (frameValid (.read table first count) s))

/-- PASS (R144). -/
def execPass (slot : Nat) (kind : Nat) (tag : Nat) (payload : List Byte) (s : State) : Result :=
  .next (finish (frameValid (.pass slot kind tag payload) s))

/-- CLEAR_FAULTS (R143). -/
def execClearFaults (slot : Nat) (s : State) : Result := .next (finish (frameValid (.clearFaults slot) s))

/-- UNLOCK (R175). -/
def execUnlock (code : CodeArg) (s : State) : Result := .next (finish (frameValid (.unlock code) s))

/-- LOCK (R174). -/
def execLock (s : State) : Result := .next (finish (frameValid .lock s))

/-- SET_CODE (R176). -/
def execSetCode (old : CodeArg) (new : CodeArg) (lockNow : Bool) (s : State) : Result :=
  .next (finish (frameValid (.setCode old new (if lockNow then 1 else 0)) s))

/-- CLEAR_CODE (R176). -/
def execClearCode (code : CodeArg) (s : State) : Result := .next (finish (frameValid (.clearCode code) s))

/-- FACTORY_CLEAR (R177, R178). -/
def execFactoryClear (s : State) : Result := .next (finish (frameValid .factoryClear s))

/-- TAG_FIRST (R179). -/
def execTagFirst (unit : Nat) (value : Nat) (s : State) : Result :=
  .next (finish (frameValid (.tagFirst unit value) s))

/-- TAG_LAST (R179). -/
def execTagLast (unit : Nat) (value : Nat) (s : State) : Result :=
  .next (finish (frameValid (.tagLast unit value) s))

/-- UNTAG (R179). -/
def execUntag (code : Nat) (s : State) : Result := .next (finish (frameValid (.untag code) s))

/-- APPLY_SET_PRICE (R181). -/
def execApplySetPrice (price : Nat) (s : State) : Result := .next (finish (frameValid (.apply 0 price) s))

/-- APPLY_INHIBIT (R181). -/
def execApplyInhibit (s : State) : Result := .next (finish (frameValid (.apply 1 0) s))

/-- APPLY_ENABLE (R181). -/
def execApplyEnable (s : State) : Result := .next (finish (frameValid (.apply 2 0) s))

/-- APPLY_RESTOCK (R181). -/
def execApplyRestock (s : State) : Result := .next (finish (frameValid (.apply 3 0) s))

/-- FILL_MODE_ON (R182). -/
def execFillModeOn (s : State) : Result := .next (finish (frameValid (.fillMode 1) s))

/-- FILL_MODE_OFF (R182). -/
def execFillModeOff (s : State) : Result := .next (finish (frameValid (.fillMode 0) s))

/-- ECONOMY_MODE_ON (R184). -/
def execEconomyModeOn (s : State) : Result := .next (finish (frameValid (.economyMode 1) s))

/-- ECONOMY_MODE_OFF (R185). -/
def execEconomyModeOff (s : State) : Result := .next (finish (frameValid (.economyMode 0) s))

/-- DRAIN (R183). -/
def execDrain (tube : Nat) (coins : Nat) (s : State) : Result :=
  .next (finish (frameValid (.drain tube coins) s))

/-- CLEAR_AUDIT (R25). -/
def execClearAudit (s : State) : Result := .next (finish (frameValid .clearAudit s))

/-- SETTLE (R26). -/
def execSettle (s : State) : Result := .next (finish (frameValid .settle s))

/-- DEFROST_NOW (R108). -/
def execDefrostNow (s : State) : Result := .next (finish (frameValid .defrostNow s))

/-- CLEAR_TUBE_FAULT (R53). -/
def execClearTubeFault (tube : Nat) (s : State) : Result :=
  .next (finish (frameValid (.clearTubeFault tube) s))

/-- TEST_SPIRAL (R86). -/
def execTestSpiral (position : Nat) (s : State) : Result :=
  .next (finish (frameValid (.testSpiral position) s))

/-- HOME_SPIRAL (R86). -/
def execHomeSpiral (position : Nat) (s : State) : Result :=
  .next (finish (frameValid (.homeSpiral position) s))

/-- RELEASE_HOLD (R111). -/
def execReleaseHold (zone : Nat) (s : State) : Result := .next (finish (frameValid (.releaseHold zone) s))

/-- RESTART (R126). -/
def execRestart (s : State) : Result := .next (finish (frameValid .restart s))

/-- LINE_BREAK (R131, R136). -/
def execLineBreak (noisy : Nat) (s : State) : Result :=
  .next (finish (whenListening (fun s => lineBreakSeen (countNoisy noisy s)) s))

/-- LINE_FRAMING_ERROR (R131). -/
def execLineFramingError (noisy : Nat) (s : State) : Result :=
  .next (finish (whenListening (fun s => lineFramingSeen (countNoisy noisy s)) s))

/-- LINE_TRUNCATED_FRAME (R132, R136). -/
def execLineTruncatedFrame (noisy : Nat) (s : State) : Result :=
  .next (finish (whenListening (fun s => lineTruncatedSeen (countNoisy noisy s)) s))

/-- LINE_FRAME_COMPLETE (R133, R136, R137). -/
def execLineFrameComplete (chars : List RxChar) (s : State) : Result :=
  .next (finish (whenListening (lineFrameSeen chars) s))

/-- CONTENTION (R135). -/
def execContention (noisy : Nat) (s : State) : Result := .next (finish (contentionSeen noisy s))

/-- END_OF_REQUEST (R134, R136). -/
def execEndOfRequest (noisy : Nat) (s : State) : Result := .next (finish (requestSent noisy s))

/-- REPLY_WINDOW_CLOSE (R136): MISSED. -/
def execReplyWindowClose (s : State) : Result := .next (finish (whenActive windowCloseSeen s))

/-- LINE_IDLE (R136, R139). -/
def execLineIdle (s : State) : Result := .next (finish (whenActive lineQuiet s))

/-- ROUND_START (R140): the poll period has passed. -/
def execRoundStart (s : State) : Result := .next (finish (whenRunning roundDue s))

/-- LINE_RESET_BREAK_END (R128, R134). -/
def execLineResetBreakEnd (s : State) : Result := .next (finish (resetBreakEnds s))

/-- LEVEL_SENSOR_CHANGE (R37, R38). -/
def execLevelSensorChange (tube : Fin 6) (full : Bool) (reads : List Bool) (s : State) : Result :=
  .next (finish (whenActive (fun s => reads.foldl (levelRead tube.val full) s) s))

/-- PAYOUT_GRANT (R44, R118). -/
def execPayoutGrant (s : State) : Result := .next (finish (whenActive payoutGiven s))

/-- PULSE_END (R45). -/
def execPulseEnd (s : State) : Result := .next (finish (whenActive pulseEnds s))

/-- COIN_AT_EXIT_SENSOR (R46, R47). -/
def execCoinAtExitSensor (s : State) : Result := .next (finish (whenActive coinAtExit s))

/-- EXIT_WINDOW_CLOSE (R45, R48 to R51). -/
def execExitWindowClose (s : State) : Result := .next (finish (whenActive windowCloses s))

/-- ESCROW_UNRESOLVED (R21): the expiry timer reaches 5 s. -/
def execEscrowUnresolved (s : State) : Result := .next (finish (whenActive expireEscrow s))

/-- HOME_PROBE (R61). -/
def execHomeProbe (reads : List Bool) (s : State) : Result :=
  .next (finish (whenActive (probeDone (probeFinds reads)) s))

/-- MOTOR_GRANT (R71, R72, R88). -/
def execMotorGrant (s : State) : Result := .next (finish (whenActive motorGiven s))

/-- MOTOR_START (R72, R73, R79). -/
def execMotorStart (beamBroken : Bool) (s : State) : Result :=
  .next (finish (whenActive (motorStarts beamBroken) s))

/-- COLUMN_SWITCH_OPEN (R72). -/
def execColumnSwitchOpen (s : State) : Result := .next (finish (whenActive columnOpens s))

/-- HOME_SWITCH_LEAVE (R73). -/
def execHomeSwitchLeave (reads : List Bool) (s : State) : Result :=
  .next (finish (whenActive (switchLeaves reads) s))

/-- HOME_SWITCH_CLOSE (R74, R77). -/
def execHomeSwitchClose (reads : List Bool) (time : Nat) (s : State) : Result :=
  .next (finish (whenActive (switchCloses reads time) s))

/-- LEAVE_LIMIT (R73). -/
def execLeaveLimit (s : State) : Result := .next (finish (whenActive leaveLimitPasses s))

/-- REVOLUTION_LIMIT (R74, R88). -/
def execRevolutionLimit (s : State) : Result := .next (finish (whenActive revLimitPasses s))

/-- JAM (R75). -/
def execJam (currents : List Nat) (s : State) : Result :=
  .next (finish (whenActive (currentJams currents) s))

/-- OPEN_MOTOR (R76). -/
def execOpenMotor (current : Nat) (s : State) : Result :=
  .next (finish (whenActive (currentAt200 current) s))

/-- DROP (R78, R79). -/
def execDrop (reads : List Bool) (s : State) : Result :=
  .next (finish (whenActive (watchBeam reads false) s))

/-- BEAM_INTERRUPTION_END (R78). -/
def execBeamInterruptionEnd (reads : List Bool) (s : State) : Result :=
  .next (finish (whenActive (watchBeam reads false) s))

/-- DROP_WINDOW_CLOSE (R79, R80, R82, R87). -/
def execDropWindowClose (reads : List Bool) (s : State) : Result :=
  .next (finish (whenActive (watchBeam reads true) s))

/-- TEMPERATURE_SAMPLE (R91). -/
def execTemperatureSample (sensor : Fin 3) (count : BitVec 12) (s : State) : Result :=
  .next (finish (sample sensor count s))

/-- SENSOR_FAULT (R95): the third bad sample of a run. -/
def execSensorFault (sensor : Fin 3) (count : BitVec 12) (s : State) : Result :=
  .next (finish (sampleWhen sensor count (faultBegins sensor.val) s))

/-- SENSOR_OK (R96): the tenth good sample of a run. -/
def execSensorOk (sensor : Fin 3) (count : BitVec 12) (s : State) : Result :=
  .next (finish (sampleWhen sensor count (faultEnds sensor.val) s))

/-- DUTY_CYCLE_PHASE (R99). -/
def execDutyCyclePhase (zone : Fin 2) (s : State) : Result :=
  .next (finish (whenActive (dutyPhase zone.val) s))

/-- ZONE_HOLD (R109): the sample that takes the hold timer to the hold time. -/
def execZoneHold (zone : Fin 2) (count : BitVec 12) (s : State) : Result :=
  .next (finish (sampleWhen (zone.castLE (by decide)) count (holdBegins zone.val) s))

/-- OFF_TIMER_EXPIRY (R104). -/
def execOffTimerExpiry (s : State) : Result := .next (finish (whenActive offTimerExpires s))

/-- COMP_START_GRANT (R102). -/
def execCompStartGrant (s : State) : Result := .next (finish (whenActive compStartGiven s))

/-- SURGE_WINDOW_END (R103, R119). -/
def execSurgeWindowEnd (s : State) : Result := .next (finish (whenActive surgeEnds s))

/-- MINIMUM_RUN_TIME (R103). -/
def execMinimumRunTime (s : State) : Result := .next (finish (whenActive minRunPasses s))

/-- DEFROST_INTERVAL (R105): the sample whose tick begins a defrost, or finds the interval reached in STARTING. -/
def execDefrostInterval (count : BitVec 12) (s : State) : Result :=
  .next (finish (sampleWhen 2 count intervalReached s))

/-- HEATER_GRANT (R106). -/
def execHeaterGrant (s : State) : Result := .next (finish (whenActive heaterGiven s))

/-- DEFROST_END (R106): the evaporator sample that ends a defrost. -/
def execDefrostEnd (count : BitVec 12) (s : State) : Result :=
  .next (finish (sampleWhen 2 count defrostEnds s))

/-- DRIP_TIME_END (R107). -/
def execDripTimeEnd (s : State) : Result := .next (finish (whenActive dripEnds s))

/-- SUPPLY_SAG (R114, R120). -/
def execSupplySag (readings : List Nat) (s : State) : Result := .next (finishSupply (supplyReads readings s))

/-- SUPPLY_NORMAL (R114). -/
def execSupplyNormal (readings : List Nat) (s : State) : Result := .next (finishSupply (supplyReads readings s))

/-- SUPPLY_FAIL (R114, R121). -/
def execSupplyFail (readings : List Nat) (s : State) : Result := .next (finishSupply (supplyReads readings s))

/-- TABLE_IMAGE_WRITE_DONE (R121, R123). -/
def execTableImageWriteDone (s : State) : Result := .next (finish (tableWriteDone s))

/-- RETAINED_IMAGE_WRITE_DONE (R121, R124, R125). -/
def execRetainedImageWriteDone (s : State) : Result := .next (finishSupply (retainedWriteDone s))

/-- POWER_RESTORED (R114, R124). -/
def execPowerRestored (readings : List Nat) (s : State) : Result := .next (finishSupply (supplyReads readings s))

/-- LOGIC_POWER_UP (R115, R124). -/
def execLogicPowerUp (s : State) : Result := .next (finish (powerUp s))

/-- RESET (R125, R129). -/
def execReset (s : State) : Result := .next (finishSupply (resetPulse s))

/-- SERVICE_DOOR (R173). -/
def execServiceDoor (reads : List Bool) (s : State) : Result :=
  .next (finish (whenActive (doorReads reads) s))

/-- LOCKOUT_EXPIRY (R175). -/
def execLockoutExpiry (s : State) : Result := .next (finish (whenActive lockoutExpires s))

/-- LINE_BAD_LENGTH_OR_ADDRESS (R132). -/
def execLineBadLengthOrAddress (noisy : Nat) (s : State) : Result :=
  .next (finish (whenListening (fun s => lineBadHeaderSeen (countNoisy noisy s)) s))

/-- LINK_LENGTH_ABOVE_96 (R160). -/
def execLinkLengthAbove96 (noisy : Nat) (s : State) : Result :=
  .next (finish (linkCrc (countLinkNoisy noisy s)))

/-- SECONDS_COUNTER_TICK (00_scope "Time stamps"). -/
def execSecondsCounterTick (s : State) : Result := .next (finish ({ s with seconds := s.seconds + 1 }))

end Sys2Proof.Machine
end

