-- ==== Sys2Proof/Machine/Dispatch.lean ====
section
/-! DEFINITION. The dispatch: one arm for each command. -/

namespace Sys2Proof.Machine

def exec (i : Instr) (s : State) : Host.Outcome State Fault Refusal :=
  match i with
  | .linkBreak noisy => Sys2Proof.Machine.execLinkBreak noisy s
  | .rateDetection low => Sys2Proof.Machine.execRateDetection low s
  | .linkFramingError noisy => Sys2Proof.Machine.execLinkFramingError noisy s
  | .linkTruncatedFrame noisy => Sys2Proof.Machine.execLinkTruncatedFrame noisy s
  | .linkFrameComplete chars => Sys2Proof.Machine.execLinkFrameComplete chars s
  | .linkLost => Sys2Proof.Machine.execLinkLost s
  | .replySent => Sys2Proof.Machine.execReplySent s
  | .unknownRequest kind payload => Sys2Proof.Machine.execUnknownRequest kind payload s
  | .status => Sys2Proof.Machine.execStatus s
  | .fetchEvents => Sys2Proof.Machine.execFetchEvents s
  | .fetchEventsAgain => Sys2Proof.Machine.execFetchEventsAgain s
  | .vend code => Sys2Proof.Machine.execVend code s
  | .vendExternal code amount => Sys2Proof.Machine.execVendExternal code amount s
  | .returnCredit => Sys2Proof.Machine.execReturnCredit s
  | .loadTableSection table first count records => Sys2Proof.Machine.execLoadTableSection table first count records s
  | .readTableSection table first count => Sys2Proof.Machine.execReadTableSection table first count s
  | .pass slot kind tag payload => Sys2Proof.Machine.execPass slot kind tag payload s
  | .clearFaults slot => Sys2Proof.Machine.execClearFaults slot s
  | .unlock code => Sys2Proof.Machine.execUnlock code s
  | .lock => Sys2Proof.Machine.execLock s
  | .setCode old new lockNow => Sys2Proof.Machine.execSetCode old new lockNow s
  | .clearCode code => Sys2Proof.Machine.execClearCode code s
  | .factoryClear => Sys2Proof.Machine.execFactoryClear s
  | .tagFirst unit value => Sys2Proof.Machine.execTagFirst unit value s
  | .tagLast unit value => Sys2Proof.Machine.execTagLast unit value s
  | .untag code => Sys2Proof.Machine.execUntag code s
  | .applySetPrice price => Sys2Proof.Machine.execApplySetPrice price s
  | .applyInhibit => Sys2Proof.Machine.execApplyInhibit s
  | .applyEnable => Sys2Proof.Machine.execApplyEnable s
  | .applyRestock => Sys2Proof.Machine.execApplyRestock s
  | .fillModeOn => Sys2Proof.Machine.execFillModeOn s
  | .fillModeOff => Sys2Proof.Machine.execFillModeOff s
  | .economyModeOn => Sys2Proof.Machine.execEconomyModeOn s
  | .economyModeOff => Sys2Proof.Machine.execEconomyModeOff s
  | .drain tube coins => Sys2Proof.Machine.execDrain tube coins s
  | .clearAudit => Sys2Proof.Machine.execClearAudit s
  | .settle => Sys2Proof.Machine.execSettle s
  | .defrostNow => Sys2Proof.Machine.execDefrostNow s
  | .clearTubeFault tube => Sys2Proof.Machine.execClearTubeFault tube s
  | .testSpiral position => Sys2Proof.Machine.execTestSpiral position s
  | .homeSpiral position => Sys2Proof.Machine.execHomeSpiral position s
  | .releaseHold zone => Sys2Proof.Machine.execReleaseHold zone s
  | .restart => Sys2Proof.Machine.execRestart s
  | .lineBreak noisy => Sys2Proof.Machine.execLineBreak noisy s
  | .lineFramingError noisy => Sys2Proof.Machine.execLineFramingError noisy s
  | .lineTruncatedFrame noisy => Sys2Proof.Machine.execLineTruncatedFrame noisy s
  | .lineFrameComplete chars => Sys2Proof.Machine.execLineFrameComplete chars s
  | .contention noisy => Sys2Proof.Machine.execContention noisy s
  | .endOfRequest noisy => Sys2Proof.Machine.execEndOfRequest noisy s
  | .replyWindowClose => Sys2Proof.Machine.execReplyWindowClose s
  | .lineIdle => Sys2Proof.Machine.execLineIdle s
  | .roundStart => Sys2Proof.Machine.execRoundStart s
  | .lineResetBreakEnd => Sys2Proof.Machine.execLineResetBreakEnd s
  | .levelSensorChange tube full reads => Sys2Proof.Machine.execLevelSensorChange tube full reads s
  | .payoutGrant => Sys2Proof.Machine.execPayoutGrant s
  | .pulseEnd => Sys2Proof.Machine.execPulseEnd s
  | .coinAtExitSensor => Sys2Proof.Machine.execCoinAtExitSensor s
  | .exitWindowClose => Sys2Proof.Machine.execExitWindowClose s
  | .escrowUnresolved => Sys2Proof.Machine.execEscrowUnresolved s
  | .homeProbe reads => Sys2Proof.Machine.execHomeProbe reads s
  | .motorGrant => Sys2Proof.Machine.execMotorGrant s
  | .motorStart beamBroken => Sys2Proof.Machine.execMotorStart beamBroken s
  | .columnSwitchOpen => Sys2Proof.Machine.execColumnSwitchOpen s
  | .homeSwitchLeave reads => Sys2Proof.Machine.execHomeSwitchLeave reads s
  | .homeSwitchClose reads time => Sys2Proof.Machine.execHomeSwitchClose reads time s
  | .leaveLimit => Sys2Proof.Machine.execLeaveLimit s
  | .revolutionLimit => Sys2Proof.Machine.execRevolutionLimit s
  | .jam currents => Sys2Proof.Machine.execJam currents s
  | .openMotor current => Sys2Proof.Machine.execOpenMotor current s
  | .drop reads => Sys2Proof.Machine.execDrop reads s
  | .beamInterruptionEnd reads => Sys2Proof.Machine.execBeamInterruptionEnd reads s
  | .dropWindowClose reads => Sys2Proof.Machine.execDropWindowClose reads s
  | .temperatureSample sensor count => Sys2Proof.Machine.execTemperatureSample sensor count s
  | .sensorFault sensor count => Sys2Proof.Machine.execSensorFault sensor count s
  | .sensorOk sensor count => Sys2Proof.Machine.execSensorOk sensor count s
  | .dutyCyclePhase zone => Sys2Proof.Machine.execDutyCyclePhase zone s
  | .zoneHold zone count => Sys2Proof.Machine.execZoneHold zone count s
  | .offTimerExpiry => Sys2Proof.Machine.execOffTimerExpiry s
  | .compStartGrant => Sys2Proof.Machine.execCompStartGrant s
  | .surgeWindowEnd => Sys2Proof.Machine.execSurgeWindowEnd s
  | .minimumRunTime => Sys2Proof.Machine.execMinimumRunTime s
  | .defrostInterval count => Sys2Proof.Machine.execDefrostInterval count s
  | .heaterGrant => Sys2Proof.Machine.execHeaterGrant s
  | .defrostEnd count => Sys2Proof.Machine.execDefrostEnd count s
  | .dripTimeEnd => Sys2Proof.Machine.execDripTimeEnd s
  | .supplySag readings => Sys2Proof.Machine.execSupplySag readings s
  | .supplyNormal readings => Sys2Proof.Machine.execSupplyNormal readings s
  | .supplyFail readings => Sys2Proof.Machine.execSupplyFail readings s
  | .tableImageWriteDone => Sys2Proof.Machine.execTableImageWriteDone s
  | .retainedImageWriteDone => Sys2Proof.Machine.execRetainedImageWriteDone s
  | .powerRestored readings => Sys2Proof.Machine.execPowerRestored readings s
  | .logicPowerUp => Sys2Proof.Machine.execLogicPowerUp s
  | .reset => Sys2Proof.Machine.execReset s
  | .serviceDoor reads => Sys2Proof.Machine.execServiceDoor reads s
  | .lockoutExpiry => Sys2Proof.Machine.execLockoutExpiry s
  | .lineBadLengthOrAddress noisy => Sys2Proof.Machine.execLineBadLengthOrAddress noisy s
  | .linkLengthAbove96 noisy => Sys2Proof.Machine.execLinkLengthAbove96 noisy s
  | .secondsCounterTick => Sys2Proof.Machine.execSecondsCounterTick s

end Sys2Proof.Machine
end

