-- ==== Sys2Proof/Safety.lean ====
section
/-! DEFINITION. The terms in which statements about the part are made: the parts of the state and what a
step leaves as it was, the laws of the part that the spec names, and the requests that commands carry. -/

namespace Sys2Proof.Machine

/-! ### What a step leaves as it was -/

/-- The parts of the state: every field of `State` belongs to one of them. -/
inductive Part where
  | pending | phase | seconds | tables | storeDefaults | store
  /-- The four amounts of the credit record (R1). -/
  | amounts
  | sale | inFlight | pendingReturn | escrow | noteMask | audit
  | tubes | exact | payout | shortWait | stray | coinMasks
  | sels | spirals | vendOp | serviceOp | rev | column | row | probing
  | sensors | zones
  /-- The compressor's state, its off, run and surge timers and its relay. -/
  | compressor
  /-- The drip timer, the pending request, the run time, the heater-on time and the heater. -/
  | defrost
  | damper
  /-- The supply state, the reading and the three persistence counts (R114). -/
  | supply
  /-- The grant set and the waiting set (R117). -/
  | grants
  /-- The line receiver, the idle state and the driver. -/
  | receiver
  | trans
  /-- The internal command queue and a held-back ESCROW command. -/
  | cmdQueue
  | passQueue | ring | slots | lineCounts | maskRecs
  /-- The rate held and the link receiver. -/
  | linkRate
  /-- The waiting slot, the answer in progress and the mark of an accepted Restart. -/
  | staging
  | linkState | marks | linkCounts
  | events
  | code | lockState | lockout | door | tag | fill | economy
deriving DecidableEq, Repr

/-- A part is equal in two states. -/
def Part.same (s t : State) : Part → Prop
  | .pending => t.pending = s.pending
  | .phase => t.phase = s.phase
  | .seconds => t.seconds = s.seconds
  | .tables => t.tables = s.tables
  | .storeDefaults => t.storeDefaults = s.storeDefaults
  | .store => t.store = s.store
  | .amounts => t.credit.credit = s.credit.credit ∧ t.credit.vendHold = s.credit.vendHold ∧
      t.credit.escrowReserve = s.credit.escrowReserve ∧ t.credit.returnDue = s.credit.returnDue
  | .sale => t.credit.sale = s.credit.sale
  | .inFlight => t.credit.inFlight = s.credit.inFlight
  | .pendingReturn => t.credit.pendingReturn = s.credit.pendingReturn
  | .escrow => t.credit.escrow = s.credit.escrow
  | .noteMask => t.credit.noteMask = s.credit.noteMask
  | .audit => t.audit = s.audit
  | .tubes => t.change.tubes = s.change.tubes
  | .exact => t.change.exact = s.change.exact
  | .payout => t.change.payout = s.change.payout
  | .shortWait => t.change.shortWait = s.change.shortWait
  | .stray => t.change.stray = s.change.stray
  | .coinMasks => t.change.accept = s.change.accept ∧ t.change.route = s.change.route
  | .sels => t.sels = s.sels
  | .spirals => t.spirals = s.spirals
  | .vendOp => t.drive.vend = s.drive.vend
  | .serviceOp => t.drive.service = s.drive.service
  | .rev => t.drive.rev = s.drive.rev
  | .column => t.drive.column = s.drive.column
  | .row => t.drive.row = s.drive.row
  | .probing => t.drive.probing = s.drive.probing
  | .sensors => t.cold.sensors = s.cold.sensors
  | .zones => t.cold.zones = s.cold.zones
  | .compressor => t.cold.state = s.cold.state ∧ t.cold.offTimer = s.cold.offTimer ∧
      t.cold.runTimer = s.cold.runTimer ∧ t.cold.surgeTimer = s.cold.surgeTimer ∧
      t.cold.relay = s.cold.relay
  | .defrost => t.cold.dripTimer = s.cold.dripTimer ∧ t.cold.pendingDefrost = s.cold.pendingDefrost ∧
      t.cold.runSince = s.cold.runSince ∧ t.cold.heaterOn = s.cold.heaterOn ∧
      t.cold.heater = s.cold.heater
  | .damper => t.cold.damper = s.cold.damper
  | .supply => t.supply.state = s.supply.state ∧ t.supply.reading = s.supply.reading ∧
      t.supply.low = s.supply.low ∧ t.supply.fail = s.supply.fail ∧ t.supply.good = s.supply.good
  | .grants => t.supply.granted = s.supply.granted ∧ t.supply.waiting = s.supply.waiting
  | .receiver => t.line.assembling = s.line.assembling ∧ t.line.idle = s.line.idle ∧
      t.line.driver = s.line.driver
  | .trans => t.line.trans = s.line.trans
  | .cmdQueue => t.line.queue = s.line.queue ∧ t.line.escrowBack = s.line.escrowBack
  | .passQueue => t.line.pass = s.line.pass
  | .ring => t.line.round = s.line.round ∧ t.line.list = s.line.list ∧
      t.line.roundPending = s.line.roundPending
  | .slots => t.line.slots = s.line.slots
  | .lineCounts => t.line.noisy = s.line.noisy ∧ t.line.framing = s.line.framing ∧
      t.line.crc = s.line.crc ∧ t.line.truncated = s.line.truncated ∧
      t.line.unsolicited = s.line.unsolicited ∧ t.line.dropped = s.line.dropped
  | .maskRecs => t.line.validator = s.line.validator ∧ t.line.reader = s.line.reader
  | .linkRate => t.link.rate = s.link.rate ∧ t.link.assembling = s.link.assembling ∧
      t.link.detecting = s.link.detecting
  | .staging => t.link.waiting = s.link.waiting ∧ t.link.answer = s.link.answer ∧
      t.link.restarting = s.link.restarting
  | .linkState => t.link.up = s.link.up ∧ t.link.lostAt = s.link.lostAt
  | .marks => t.link.lostFrame = s.link.lostFrame ∧ t.link.linkWasLost = s.link.linkWasLost ∧
      t.link.tagReset = s.link.tagReset
  | .linkCounts => t.link.crc = s.link.crc ∧ t.link.framing = s.link.framing ∧
      t.link.truncated = s.link.truncated ∧ t.link.lost = s.link.lost ∧
      t.link.rateFail = s.link.rateFail ∧ t.link.noisy = s.link.noisy
  | .events => t.events = s.events
  | .code => t.lock.code = s.lock.code
  | .lockState => t.lock.state = s.lock.state
  | .lockout => t.lock.failures = s.lock.failures ∧ t.lock.lockout = s.lock.lockout
  | .door => t.lock.door = s.lock.door
  | .tag => t.lock.tag = s.lock.tag
  | .fill => t.lock.fill = s.lock.fill
  | .economy => t.lock.economy = s.lock.economy

/-- From `s` to `t` nothing has changed but, at most, the parts named. -/
def Alters (ps : List Part) (s t : State) : Prop := ∀ p, p ∉ ps → p.same s t

/-- What the end of a step in normal operation may change (`settle`): the sale state, a payout that starts
with its request, a probe or column switch of a free matrix, and the line when it is idle. -/
def dueParts : List Part :=
  [.sale, .payout, .grants, .column, .probing, .receiver, .trans, .cmdQueue, .passQueue, .ring,
   .lineCounts, .maskRecs]

/-- What taking a request and composing its reply change in the Link Port. -/
def replyParts : List Part := [.linkRate, .staging, .marks]

/-- The parts of the masks and of the traffic that recomputing them places. -/
def maskParts : List Part := [.coinMasks, .noteMask, .cmdQueue, .lineCounts, .maskRecs]

/-- What a change of the credit record may bring with it. -/
def moneyParts : List Part :=
  [.amounts, .sale, .audit, .shortWait, .payout, .grants, .events, .coinMasks, .noteMask, .cmdQueue,
   .lineCounts, .maskRecs]

/-- What a coin report or a tube correction may change. -/
def coinParts : List Part := .tubes :: .exact :: moneyParts

/-- What a coin at the exit or the close of a window may change. -/
def payoutParts : List Part := .stray :: coinParts

/-- What a vend's outcome changes at the Credit Unit. -/
def outcomeParts : List Part := .sels :: .inFlight :: .pendingReturn :: moneyParts

/-- The motor matrix: the operations, the revolution and the switches. -/
def driveParts : List Part := [.vendOp, .serviceOp, .rev, .column, .row, .probing]

/-- What the Spiral Drive may change in a step that may end an operation. -/
def spiralParts : List Part :=
  [.vendOp, .serviceOp, .rev, .column, .row, .probing, .spirals, .sels, .inFlight, .pendingReturn,
   .amounts, .sale, .audit, .shortWait, .payout, .grants, .events, .coinMasks, .noteMask, .cmdQueue,
   .lineCounts, .maskRecs]

/-- What a service operation of the Spiral Drive may change. -/
def serviceParts : List Part :=
  [.vendOp, .serviceOp, .rev, .column, .row, .probing, .spirals, .grants, .events]

/-- What the compressor and a defrost may change. -/
def coolParts : List Part := [.compressor, .defrost, .damper, .zones, .grants, .events]

/-- What a temperature sample may change. -/
def sampleParts : List Part := .sensors :: .zones :: .compressor :: .defrost :: .damper :: spiralParts

/-- What the Line Master changes while it chooses and sends. -/
def choiceParts : List Part := [.receiver, .trans, .cmdQueue, .passQueue, .ring, .lineCounts, .maskRecs]

/-- What the reports of a poll may change. -/
def reportParts : List Part :=
  [.amounts, .audit, .sale, .payout, .shortWait, .grants, .events, .coinMasks, .noteMask, .cmdQueue,
   .lineCounts, .maskRecs, .tubes, .exact, .escrow, .pendingReturn, .economy, .slots]

/-- What the outcome of a transaction may change. -/
def lineParts : List Part := .receiver :: .trans :: .passQueue :: .ring :: reportParts

/-- What a change of a slot's kind may change. -/
def slotKindParts : List Part := .tables :: lineParts

/-- What applying a table may change. -/
def tableParts : List Part := .sels :: .spirals :: .compressor :: .defrost :: slotKindParts

/-- What a Load Table Section may change. -/
def loadParts : List Part := .storeDefaults :: .store :: tableParts

/-- What Factory Clear may change. -/
def clearParts : List Part := .code :: .lockState :: .lockout :: .tag :: .fill :: .zones :: loadParts

/-- What Apply may change. -/
def applyParts : List Part := [.tag, .tables, .sels, .spirals, .storeDefaults, .store]

/-- What a change of the door may change. -/
def doorParts : List Part :=
  [.door, .events, .economy, .fill, .lockState, .tag, .marks, .coinMasks, .noteMask, .cmdQueue, .lineCounts,
   .maskRecs]

/-- What the owner of a request may change. -/
def Request.parts : Request → List Part
  | .unknown _ | .badLength _ | .status | .read _ _ _ => []
  | .fetch _ => [.events]
  | .vend _ _ _ => spiralParts
  | .returnCredit => moneyParts
  | .load _ _ _ _ => loadParts
  | .pass _ _ _ _ => [.passQueue]
  | .clearFaults _ => [.slots]
  | .unlock _ => [.lockState, .lockout, .events]
  | .lock => [.lockState, .tag, .marks]
  | .setCode _ _ _ | .clearCode _ => [.code, .lockState]
  | .factoryClear => clearParts
  | .tagFirst _ _ | .tagLast _ _ | .untag _ => [.tag]
  | .apply _ _ => applyParts
  | .fillMode _ => .fill :: maskParts
  | .economyMode _ => [.economy]
  | .drain _ _ => [.sale, .payout, .grants]
  | .clearAudit => [.audit, .sels]
  | .settle => [.amounts, .audit, .shortWait, .sale]
  | .defrostNow => [.compressor, .defrost, .grants, .events]
  | .clearTubeFault _ => coinParts
  | .testSpiral _ | .homeSpiral _ => [.serviceOp, .grants]
  | .releaseHold _ => [.zones, .events]
  | .restart => [.staging]

/-- What taking a request may change: what its owner changes, the tag sequence record, the payout test and
the reply. -/
def Request.takes (r : Request) : List Part :=
  r.parts ++ [.sale, .payout, .grants, .staging, .tag, .marks]

/-! ### Frames as they are received -/

/-- A frame received with every sample of every character as it was sent (R130). -/
def clean (frame : List Byte) : List RxChar := frame.map cleanChar

/-- A 16-bit count grows and stops at 65535 (R47, R146, R160). -/
def upto16 (n k : Nat) : Nat := min 65535 (n + k)

/-! ### Requests and their replies -/

/-- The request a command carries, for the rows that stand for a frame with that request (DESIGN CHOICE, log 5). -/
def requestOf : Instr → Option Request
  | .unknownRequest kind payload => some (readRequest kind (padEven payload))
  | .status => some .status
  | .fetchEvents => some (.fetch 0)
  | .fetchEventsAgain => some (.fetch 1)
  | .vend code => some (.vend code 0 0)
  | .vendExternal code amount => some (.vend code 1 amount)
  | .returnCredit => some .returnCredit
  | .loadTableSection table first count records => some (.load table first count records)
  | .readTableSection table first count => some (.read table first count)
  | .pass slot kind tag payload => some (.pass slot kind tag payload)
  | .clearFaults slot => some (.clearFaults slot)
  | .unlock code => some (.unlock code)
  | .lock => some .lock
  | .setCode old new lockNow => some (.setCode old new (if lockNow then 1 else 0))
  | .clearCode code => some (.clearCode code)
  | .factoryClear => some .factoryClear
  | .tagFirst unit value => some (.tagFirst unit value)
  | .tagLast unit value => some (.tagLast unit value)
  | .untag code => some (.untag code)
  | .applySetPrice price => some (.apply 0 price)
  | .applyInhibit => some (.apply 1 0)
  | .applyEnable => some (.apply 2 0)
  | .applyRestock => some (.apply 3 0)
  | .fillModeOn => some (.fillMode 1)
  | .fillModeOff => some (.fillMode 0)
  | .economyModeOn => some (.economyMode 1)
  | .economyModeOff => some (.economyMode 0)
  | .drain tube coins => some (.drain tube coins)
  | .clearAudit => some .clearAudit
  | .settle => some .settle
  | .defrostNow => some .defrostNow
  | .clearTubeFault tube => some (.clearTubeFault tube)
  | .testSpiral position => some (.testSpiral position)
  | .homeSpiral position => some (.homeSpiral position)
  | .releaseHold zone => some (.releaseHold zone)
  | .restart => some .restart
  | _ => none

/-- Normal operation with the link up, no request waiting and no reply being sent: a request is taken at
once (R162, R163, R166). -/
structure Ready (s : State) : Prop where
  run : s.phase = .run
  up : s.link.up = true
  waiting : s.link.waiting = none
  answer : s.link.answer = none

/-- The part as the owner of a request finds it: the request has been taken, and the tag sequence is reset
(R163, R180). -/
def State.asServed (s : State) : State :=
  resetTag { s with link.assembling := false, link.detecting := false, link.waiting := none }

/-- The lock lets gated requests pass (R174). -/
def unlocked (s : State) : Prop := s.lock.state ≠ .locked

/-- The reply in progress has this kind, outcome and payload, and is sent as the frame that carries them (R164). -/
def replyIs (t : State) (kind : Nat) (outcome : ReplyCode) (payload : List Byte) : Prop :=
  ∃ conditions, t.link.answer = some (makeReply kind outcome conditions payload)

/-- The command completes: its reply has this kind, outcome and payload, nothing has changed but the parts
named and what a step with a request ends with, and the state after it is as `good` says. -/
def Replies (c : Instr) (s : State) (kind : Nat) (outcome : ReplyCode) (payload : List Byte)
    (parts : List Part) (good : State → Prop) : Prop :=
  ∃ t, exec c s = .next t ∧ replyIs t kind outcome payload ∧
    Alters (parts ++ (replyParts ++ dueParts)) s t ∧ good t

/-- The command completes with nothing changed but the parts named and what a step of normal operation ends
with, and the state after it is as `good` says. -/
def Completes (c : Instr) (s : State) (parts : List Part) (good : State → Prop) : Prop :=
  ∃ t, exec c s = .next t ∧ Alters (parts ++ dueParts) s t ∧ good t

/-- A request is refused: the reply has this kind, outcome and payload, and no part of the state outside
the Link Port has changed but what every step ends with. -/
def Refuses (c : Instr) (s : State) (kind : Nat) (outcome : ReplyCode) (payload : List Byte) : Prop :=
  Replies c s kind outcome payload [.tag] fun _ => True

/-- A selection index belongs to a tagged set (R179). -/
def tagged (u : TagUnit) (first last : Nat) (off : List Nat) (i : Nat) : Bool :=
  inRange u first last (indexCode i) && !off.contains (indexCode i)

/-- The transaction `x` carries the command `e`, which stands at the head of the internal queue in flight, with
`rest` behind it and room for one more (R138). -/
structure Flies (x : Trans) (e : Cmd) (rest : List Cmd) (s : State) : Prop where
  trans : s.line.trans = some x
  fresh : x.stale = false
  body : x.body = .cmd e.body
  slot : e.slot = x.slot
  queue : s.line.queue = e :: rest
  flying : e.inFlight = true
  unsent : ∀ y ∈ rest, y.inFlight = false
  room : rest.length ≤ 3

/-- No placement waits for an entry to leave the internal queue (R154, R156). -/
def NothingWaits (s : State) : Prop :=
  s.line.validator.push = false ∧ s.line.reader.push = false ∧ s.line.escrowBack = none

/-- An event record as it is placed at time `time` (R170). -/
def eventAt (time : Word32) (kind : EventKind) (subject : Option Nat) (value : Option Word32) : Event :=
  { kind := kind, time := time, subject := subject, value := value, payload := [] }

/-- A load has been asked for: it waits or is granted (R117). -/
def Supply.asked (x : Supply) (l : Load) : Prop := x.granted.has l = true ∨ x.waiting.has l = true

/-- The event was the first that a step raised: its record, stamped with the time before the step, stands next
behind those the queue held; a full queue drops it (R170). -/
def RaisesFirst (s t : State) (kind : EventKind) (subject : Option Nat) (value : Option Word32) : Prop :=
  s.events.queue.length < 32 → (s.events.queue ++ [eventAt s.seconds kind subject value]) <+: t.events.queue

/-- An event was raised among others in a step (R170): its record is in the queue, when the queue had room for
four. -/
def Raises (s t : State) (kind : EventKind) (subject : Option Nat) (value : Option Word32) : Prop :=
  s.events.queue.length ≤ 28 → eventAt s.seconds kind subject value ∈ t.events.queue

/-- A sensor's record after a sample of raw count `c` whose temperature is `temp` (R91, R94 to R96). -/
def TempSensor.after (x : TempSensor) (c : Nat) (temp : Int) : TempSensor :=
  let y := { x with raw := c, sampled := true }
  if 16 ≤ c ∧ c ≤ 4079 then
    if x.faulted = false then
      { y with badRun := 0, temp := some (match x.temp with
          | none => temp
          | some f =>
            let d := temp - f
            f + if Int.tdiv d 8 ≠ 0 then Int.tdiv d 8 else Int.sign d) }
    else if x.goodRun < 9 then { y with badRun := 0, goodRun := x.goodRun + 1 }
    else { y with badRun := 0, faulted := false, goodRun := 0, temp := some temp }
  else if x.faulted = true then { y with goodRun := 0 }
  else if x.badRun < 2 then { y with badRun := x.badRun + 1 }
  else { y with badRun := x.badRun + 1, faulted := true, goodRun := 0 }

/-- A vend that turned a spiral has ended in success (R8, R10, R57, R58, R84): its price or amount is a sale,
the selection's sale count and next pointer have moved on, and the motor and the record are gone. -/
structure Sold (v : VendOp) (s t : State) : Prop where
  gone : t.drive.vend = none ∧ t.drive.rev = none ∧ t.drive.row = none ∧ t.credit.inFlight = none
  counted : v.sel < s.sels.length → t.sel v.sel = { s.sel v.sel with
    sales := min 65535 ((s.sel v.sel).sales + 1),
    next := if (s.tables.sel v.sel).firstMode then (s.sel v.sel).next
            else if v.position + 1 < (s.tables.sel v.sel).spirals.length then v.position + 1 else 0 }
  others : ∀ i, i ≠ v.sel → t.sel i = s.sel i
  cash : s.credit.inFlight = some .cash → t.credit.vendHold = 0 ∧
    t.audit.cashSales = addTotal s.audit.cashSales s.credit.vendHold ∧
    t.audit.externalSales = s.audit.externalSales ∧
    Raises s t .vendDone (some v.sel) (val s.credit.vendHold) ∧
    (s.credit.pendingReturn = false → s.tables.money.policy = .multi →
      t.credit.credit = s.credit.credit ∧ t.credit.returnDue = s.credit.returnDue) ∧
    (s.credit.pendingReturn = true ∨ s.tables.money.policy = .single → t.credit.credit = 0 ∧
      (s.credit.returnDue ≤ 65535 →
        t.credit.returnDue = min 65535 (s.credit.returnDue + s.credit.credit)))
  external : ∀ amount, s.credit.inFlight = some (.external amount) →
    t.credit.vendHold = s.credit.vendHold ∧ t.audit.cashSales = s.audit.cashSales ∧
    t.audit.externalSales = addTotal s.audit.externalSales amount ∧
    Raises s t .vendDone (some v.sel) (val amount) ∧
    (s.credit.pendingReturn = false → t.credit.credit = s.credit.credit)

/-- A vend has ended in failure for a reason (R9, R10, R84): the customer is not charged. -/
structure NotSold (v : VendOp) (why : VendFailure) (s t : State) : Prop where
  gone : t.drive.vend = none ∧ t.drive.rev = none ∧ t.drive.row = none ∧ t.credit.inFlight = none
  sales : ∀ i, (t.sel i).sales = (s.sel i).sales
  raised : Raises s t .vendFailed (some v.sel) (some (pack 0 0 0 why.code))
  totals : t.audit.cashSales = s.audit.cashSales ∧ t.audit.externalSales = s.audit.externalSales
  restored : s.credit.pendingReturn = false → t.credit.vendHold = 0 ∧
    t.credit.credit = s.credit.credit + s.credit.vendHold ∧ t.credit.returnDue = s.credit.returnDue

/-- A pulse has begun on tube `n`: its solenoid is energised, its exit window open (R45). -/
def Pulses (n : Nat) (retry : Bool) (p : Payout) : Prop :=
  p.pulsed = some n ∧ p.energised = some n ∧ p.windowCoins = 0 ∧ p.isRetry = retry ∧ p.retry = none

/-- A payout has ended short with `r` still owed: what the headroom takes has become credit again, and the
short-end wait holds (R50). -/
def EndsShort (r : Nat) (s t : State) : Prop :=
  t.change.payout = none ∧ t.change.shortWait = true ∧ t.supply.granted.payout = false ∧
  t.credit.returnDue = r - min r s.headroom ∧ t.credit.credit = s.credit.credit + min r s.headroom ∧
  Raises s t .payoutShort none (val r)

/-! ### Laws of the part -/

/-- The Event Queue holds at most 32 records and its dropped count stops at 255 (R170). -/
def EventLaw (s : State) : Prop := s.events.queue.length ≤ 32 ∧ s.events.dropped ≤ 255

/-- The two queues of the Line Master hold at most four entries, and in the internal queue no ESCROW stands
behind a MASKS (R138, R144). -/
def QueueLaw (s : State) : Prop :=
  s.line.queue.length ≤ 4 ∧ s.line.pass.length ≤ 4 ∧
  s.line.queue.Pairwise fun a b => a.isMasks = true → b.isMasks = true

/-- The lock is OPEN just when no service code is set; the failure count is at most 3, and 3 while the
lockout timer runs; at most eight selections are untagged (R174, R175, R179). -/
def LockLaw (s : State) : Prop :=
  (s.lock.state = .opened ↔ s.lock.code = none) ∧ s.lock.failures ≤ 3 ∧
  (s.lock.lockout = true → s.lock.failures = 3) ∧
  ∀ u first last off, s.lock.tag = .rangeSet u first last off → off.length ≤ 8

/-- A row switch is closed only with the column switch of its crossing, and no home probe runs while a
column switch is closed: at most one crossing conducts (R61, R72). -/
def MatrixLaw (s : State) : Prop :=
  (∀ p, s.drive.row = some p → s.drive.column = some p) ∧
  (s.drive.column.isSome = true → s.drive.probing = none)

/-- A revolution that no service operation turns is one of the vend in flight, which has been told of its MOTOR grant,
on the spiral the vend has chosen (R71, R72). -/
def TurnLaw (s : State) : Prop :=
  ∀ r, s.drive.rev = some r → s.drive.service = none →
    ∃ v, s.drive.vend = some v ∧ v.told = true ∧ v.spiral = r.spiral

/-- The spiral lists (R55): a spiral position stands at most once in all of them together, and a list holds at
most four. -/
def ListsOk (t : Tables) : Prop :=
  t.sels.length = 64 ∧
  (∀ r ∈ t.sels, r.spirals.length ≤ 4 ∧ r.spirals.Nodup ∧ ∀ p ∈ r.spirals, p < 64) ∧
  ∀ i < 64, ∀ j < 64, ∀ p ∈ (t.sel i).spirals, p ∈ (t.sel j).spirals → i = j

/-- Every filtered temperature lies between -400 and 800 tenths of a degree (R94). -/
def TemperatureLaw (s : State) : Prop :=
  ∀ x ∈ s.cold.sensors, ∀ f, x.temp = some f → -400 ≤ f ∧ f ≤ 800

/-- The tube table has its six records, each with its low mark within its capacity (R29). -/
def TubesOk (t : Tables) : Prop := t.tubes.length = 6 ∧ ∀ n < 6, (t.tube n).lowMark ≤ (t.tube n).capacity

/-- The contents a store holds or is writing, of either kind of image. -/
def Store.tableImages (x : Store) : List Tables :=
  (x.tableA.map (·.contents)).toList ++ (x.tableB.map (·.contents)).toList ++
  (x.tableWriting.map (·.copy.contents)).toList
def Store.retainedImages (x : Store) : List Retained :=
  (x.retainedA.map (·.contents)).toList ++ (x.retainedB.map (·.contents)).toList ++
  (x.retainedWriting.map (·.copy.contents)).toList

/-- The law of the spiral lists, for the tables in use and the images kept (R55). -/
def ListLaw (s : State) : Prop := ListsOk s.tables ∧ ∀ t ∈ s.store.tableImages, ListsOk t

/-- No tube counts more coins than its capacity (R29 to R32), for the tables in use and the images kept. -/
def TubeLaw (s : State) : Prop :=
  TubesOk s.tables ∧ (∀ t ∈ s.store.tableImages, TubesOk t) ∧ s.change.tubes.length = 6 ∧
  ∀ n < 6, (s.tube n).count ≤ (s.tables.tube n).capacity

/-- The reserve that the escrow record calls for (R17). -/
def reserveOf (s : State) : Nat :=
  match s.credit.escrow with
  | none => 0
  | some e =>
    match e.decision with
    | .stack => (s.tables.note e.noteType).value
    | .giveBack => 0

/-- The credit record (R1, R4, R7, R10, R17): money held is within the ceiling, the reserve is that of the
escrow record, a price is held only for a CASH vend in flight, the funding and the operation of a vend go
together, no payout runs beside a vend, the sale state is that of its tests in normal operation, and no
vend outlasts a power failure. -/
structure CreditLaw (s : State) : Prop where
  ceiling : s.heldSum ≤ s.tables.money.ceiling
  reserve : s.credit.escrowReserve = reserveOf s
  hold : s.credit.vendHold ≠ 0 → s.credit.inFlight = some .cash
  vend : s.credit.inFlight.isSome = s.drive.vend.isSome
  payout : s.credit.inFlight.isSome = true → s.change.payout = none
  sale : s.phase = .run → s.credit.sale = saleOf s
  quiet : s.active = false → s.credit.inFlight = none

/-- Some audit total has reached 2^48 - 1 (R24). -/
def Audit.someFull (a : Audit) : Prop :=
  Config.maxTotal ≤ a.cashIn ∨ Config.maxTotal ≤ a.cashSales ∨ Config.maxTotal ≤ a.externalSales ∨
  Config.maxTotal ≤ a.changePaid ∨ Config.maxTotal ≤ a.excessPaid ∨ Config.maxTotal ≤ a.writtenOff ∨
  Config.maxTotal ≤ a.filled ∨ Config.maxTotal ≤ a.drained

/-- The balance of R24 between the totals and the amounts held. -/
def balanced (credit hold due : Nat) (a : Audit) : Prop :=
  a.someFull ∨ a.cashIn + a.excessPaid = a.cashSales + a.changePaid + credit + hold + due + a.writtenOff

/-- The balance holds for the record in use and for every retained image (R24, R27, R122). -/
def BalanceLaw (s : State) : Prop :=
  balanced s.credit.credit s.credit.vendHold s.credit.returnDue s.audit ∧
  ∀ r ∈ s.store.retainedImages, balanced r.credit 0 r.returnDue r.audit

/-- The load budget (R117 to R120): the granted ratings stay within the table's budget, and within the
effective budget but for MOTOR and PAYOUT grants carried through a sag; no load stands in both sets, and COMP_RUN,
which the exchange alone gives, never waits; each load asked for has its owner's operation; during start steps 1
to 4 the compressor is locked off, and no load is asked for while the part is stopped. -/
structure BudgetLaw (s : State) : Prop where
  table : s.grantedSum ≤ s.tables.loads.budget
  budget : s.grantedSum ≤ s.effectiveBudget ∨
    (s.supply.state = .sag ∧ (s.supply.granted.motor = true ∨ s.supply.granted.payout = true) ∧
      s.supply.granted.heater = false ∧ s.supply.granted.compRun = false ∧
      s.supply.granted.compStart = false)
  disjoint : ∀ x, s.supply.granted.has x = true → s.supply.waiting.has x = false
  runNotAsked : s.supply.waiting.compRun = false
  payoutOwner : s.supply.granted.payout = true ∨ s.supply.waiting.payout = true → s.change.payout.isSome = true
  motorOwner : s.supply.granted.motor = true ∨ s.supply.waiting.motor = true →
    s.drive.vend.isSome = true ∨ s.drive.service.isSome = true
  startAsked : s.supply.waiting.compStart = true → s.cold.state = .awaitGrant
  startHeld : s.supply.granted.compStart = true → s.cold.state = .awaitGrant ∨ s.cold.state = .starting
  starting : s.active = true → s.cold.state = .starting → s.supply.granted.compStart = true
  runHeld : s.supply.granted.compRun = true → s.cold.state = .running
  probing : ∀ c, s.phase = .restoring c ∨ s.phase = .probing c →
    s.cold.state = .lockedOff ∧ s.cold.offTimer = none
  stopped : s.active = false → s.supply.granted = .none ∧ s.supply.waiting = .none

/-- The probe amount `k` times the granularity is one that EXACT's evaluation probes, and its change plan falls
short (R43). -/
def probeShort (s : State) (k : Nat) : Prop :=
  1 ≤ k ∧ k ≤ min (s.tables.money.probeCeiling / s.tables.money.granularity) 250 ∧
    (changePlan s (k * s.tables.money.granularity)).exact = false

/-- From the evaluation at start step 4 on, EXACT holds just when some probe amount cannot be paid exactly from
the tubes as they stand (R43). -/
def ExactLaw (s : State) : Prop := s.samplingOn = true → (s.change.exact = true ↔ ∃ k, probeShort s k)

/-- A copy's check value is that of its contents (R123). -/
def checked {α : Type} (x : StoreCopy α) : Prop := x.check = Config.storeCheck x.contents

/-- The copies of an image (R123): each that stands carries the check value of its contents, of two copies one is a
generation ahead of the other, and a write under way leaves its copy so checked and a generation ahead of the other
copy. -/
def imagesOk {α : Type} (a b : Option (StoreCopy α)) (w : Option (StoreWrite α)) : Prop :=
  (∀ x, a = some x ∨ b = some x → checked x) ∧ (∀ v, w = some v → checked v.copy) ∧
  (∀ x y, a = some x → b = some y → x.generation = y.generation + 1 ∨ y.generation = x.generation + 1) ∧
  ∀ v, w = some v → ∀ x, (if v.first then b else a) = some x → v.copy.generation = x.generation + 1

/-- The Retention Store's check values and generations (R122, R123). -/
def StoreLaw (s : State) : Prop :=
  imagesOk s.store.tableA s.store.tableB s.store.tableWriting ∧
  imagesOk s.store.retainedA s.store.retainedB s.store.retainedWriting

end Sys2Proof.Machine
end

