-- ==== Sys2Proof/WellFormed.lean ====
section
/-! DEFINITION. Which commands can be sent: every operand within the width or the number of reads the
rules give it. The meanings answer on ill-formed commands too; nothing depends on this check but
statements about encodings and operands. -/

namespace Sys2Proof

/-- One character of a request. -/
def isByte (n : Nat) : Bool := n < 256
/-- A 16-bit field of a request. -/
def isWord (n : Nat) : Bool := n < 65536
/-- A code of nine characters (R186). -/
def CodeArg.wf (c : CodeArg) : Bool :=
  isByte c.count && c.chars.length == 8 && c.chars.all isByte
/-- A supply reading, 0 to 400 tenths of a volt (R114). -/
def isReading (n : Nat) : Bool := n ≤ 400
/-- The kinds of the requests the part knows (R187): the odd codes 0x01 to 0x37. -/
def isRequestKind (k : Nat) : Bool := k % 2 == 1 && k < 0x38

/-- The well-formed commands. -/
def Instr.wf : Instr → Bool
  | .linkBreak _ | .linkFramingError _ | .linkTruncatedFrame _ | .linkLengthAbove96 _ => true
  | .rateDetection _ => true
  | .linkFrameComplete cs => 4 ≤ cs.length && cs.length ≤ 196
  | .linkLost | .replySent | .status | .fetchEvents | .fetchEventsAgain | .returnCredit => true
  | .unknownRequest k p => isByte k && !isRequestKind k && p.length ≤ 192 && p.length % 2 == 0
  | .vend c => isByte c
  | .vendExternal c a => isByte c && isWord a
  | .loadTableSection t f c r => isByte t && isByte f && isByte c && r.length ≤ 189
  | .readTableSection t f c => isByte t && isByte f && isByte c
  | .pass sl k t p => isByte sl && isByte k && isByte t && p.length ≤ 188
  | .clearFaults sl => isByte sl
  | .unlock c => c.wf
  | .lock | .factoryClear => true
  | .setCode o n _ => o.wf && n.wf
  | .clearCode c => c.wf
  | .tagFirst u v | .tagLast u v => isByte u && isByte v
  | .untag c => isByte c
  | .applySetPrice p => isWord p
  | .applyInhibit | .applyEnable | .applyRestock => true
  | .fillModeOn | .fillModeOff | .economyModeOn | .economyModeOff => true
  | .drain t k => isByte t && isByte k
  | .clearAudit | .settle | .defrostNow | .restart => true
  | .clearTubeFault t => isByte t
  | .testSpiral p | .homeSpiral p => isByte p
  | .releaseHold z => isByte z
  | .lineBreak _ | .lineFramingError _ | .lineTruncatedFrame _ | .lineBadLengthOrAddress _ => true
  | .lineFrameComplete cs => 5 ≤ cs.length && cs.length ≤ 37
  | .contention _ | .endOfRequest _ | .replyWindowClose | .lineIdle | .roundStart => true
  | .lineResetBreakEnd => true
  | .levelSensorChange _ _ r => 1 ≤ r.length
  | .payoutGrant | .pulseEnd | .coinAtExitSensor | .exitWindowClose | .escrowUnresolved => true
  | .homeProbe r => r.length == 5
  | .motorGrant | .motorStart _ | .columnSwitchOpen => true
  | .homeSwitchLeave r => 1 ≤ r.length
  | .homeSwitchClose r _ => 1 ≤ r.length
  | .leaveLimit | .revolutionLimit => true
  | .jam cs => cs.length == 150
  | .openMotor _ => true
  | .drop r | .beamInterruptionEnd r => 1 ≤ r.length
  | .dropWindowClose _ => true
  | .temperatureSample _ _ | .sensorFault _ _ | .sensorOk _ _ | .dutyCyclePhase _ => true
  | .zoneHold _ _ | .offTimerExpiry | .compStartGrant | .surgeWindowEnd | .minimumRunTime => true
  | .defrostInterval _ | .heaterGrant | .defrostEnd _ | .dripTimeEnd => true
  | .supplySag r | .supplyNormal r | .supplyFail r | .powerRestored r => r.all isReading
  | .tableImageWriteDone | .retainedImageWriteDone | .logicPowerUp | .reset => true
  | .serviceDoor r => 1 ≤ r.length
  | .lockoutExpiry | .secondsCounterTick => true

end Sys2Proof
end

