-- ==== Sys2Proof/Certificates/Slice0/Obligations.lean ====
section
/-! DEFINITION. The statements for the provers, listed in OBLIGATIONS.json. Section numbers and rules are
those of spec/. -/

section

open Sys2Proof Sys2Proof.Machine

/-! ### The queue, and commands in general -/

/-- A step takes the command at the front of the queue and runs it on the state with the queue's rest. With
no command waiting the part idles: the model's choice (log 1). -/
def Obligations.StepTakesTheFrontCommand : Prop :=
  (∀ (c : Instr) (rest : List Instr) (s : State), s.pending = c :: rest →
    step s = exec c { s with pending := rest }) ∧
  ∀ s : State, s.pending = [] → step s = .next s

/-- Every command is whole and indivisible and stops nothing: it answers a next state in every state and
leaves the queue of waiting commands as it was (95_what_each_step_holds.md). -/
def Obligations.EveryCommandCompletes : Prop :=
  ∀ (c : Instr) (s : State), ∃ t, exec c s = .next t ∧ t.pending = s.pending

/-- A step of normal operation that ends in normal operation takes at its end no more than what is due: the
sale state, a payout that has become due, the matrix and the choice of an idle line (R4, R5, R61, R139). -/
def Obligations.EndOfStepTakesOnlyWhatIsDue : Prop :=
  ∀ s : State, s.phase = .run → Alters dueParts s (finish s) ∧
    (finish s).credit.sale = saleOf (finish s) ∧
    ((finish s).change.payout ≠ s.change.payout → s.change.payout = none ∧ s.credit.inFlight = none ∧
      s.credit.returnDue ≠ 0 ∧ s.change.shortWait = false)

/-! ### Laws that every step keeps -/

/-- The state after reset meets every law of the part stated below. -/
def Obligations.ResetMeetsEveryLaw : Prop :=
  EventLaw State.reset ∧ QueueLaw State.reset ∧ LockLaw State.reset ∧ MatrixLaw State.reset ∧
  TemperatureLaw State.reset ∧ TubeLaw State.reset ∧ CreditLaw State.reset ∧ BalanceLaw State.reset ∧
  BudgetLaw State.reset ∧ StoreLaw State.reset ∧ ExactLaw State.reset ∧ TurnLaw State.reset ∧
  ListLaw State.reset

/-- The Event Queue stays within 32 records and its dropped count within 255; the queues of the Line Master stay
within four entries and ESCROW stays before MASKS (R138, R144, R170). -/
def Obligations.QueuesStayBoundedAndOrdered : Prop :=
  (∀ s t : State, EventLaw s → step s = .next t → EventLaw t) ∧
  ∀ s t : State, QueueLaw s → step s = .next t → QueueLaw t

/-- The lock state, code, failure count and untag list stay consistent (R174, R175, R179). -/
def Obligations.LockStaysConsistent : Prop :=
  ∀ s t : State, LockLaw s → step s = .next t → LockLaw t

/-- At most one crossing of the matrix conducts, and a revolution that no service operation turns is one of the vend
in flight, told of its grant, on the spiral it has chosen (R61, R71, R72). -/
def Obligations.OneCrossingConducts : Prop :=
  (∀ s t : State, MatrixLaw s → step s = .next t → MatrixLaw t) ∧
  ∀ s t : State, TurnLaw s → step s = .next t → TurnLaw t

/-- Every filtered temperature stays between -400 and 800 tenths of a degree, and no tube counts more coins than its
capacity (R29 to R32, R94). -/
def Obligations.TemperaturesAndTubeCountsStayInRange : Prop :=
  (∀ s t : State, TemperatureLaw s → step s = .next t → TemperatureLaw t) ∧
  ∀ s t : State, TubeLaw s → step s = .next t → TubeLaw t

/-- Every spiral position stands at most once in all the spiral lists together, and no list holds more than four, in the
tables in use and in every table image (R55, R62, R63). -/
def Obligations.SpiralListsStayDisjoint : Prop :=
  ∀ s t : State, ListLaw s → step s = .next t → ListLaw t

/-- Money held never passes the ceiling, and the credit record stays consistent (R1, R3, R4, R17). -/
def Obligations.HeldMoneyStaysWithinCeiling : Prop :=
  ∀ s t : State, CreditLaw s → step s = .next t → CreditLaw t

/-- The audit balance holds after every command, for the record in use and every retained image (R24). -/
def Obligations.AuditBalanceIsKept : Prop :=
  ∀ s t : State, CreditLaw s → BalanceLaw s → step s = .next t → BalanceLaw t

/-- The load budget is kept, but for MOTOR and PAYOUT grants carried through a sag (R118 to R120). -/
def Obligations.LoadBudgetIsKept : Prop :=
  ∀ s t : State, CreditLaw s → BudgetLaw s → step s = .next t → BudgetLaw t

/-- Every copy of an image that stands carries the check value of its contents, a free value of them (log 16), and of
two copies one is a generation ahead of the other (R122, R123). -/
def Obligations.StoreGenerationsStayAdjacent : Prop :=
  ∀ s t : State, StoreLaw s → step s = .next t → StoreLaw t

/-! ### Frames and the Controller Link -/

/-- A frame sent and received cleanly is read as it was sent on both serial paths; on the link one whose check
differs, or that a stop bit reading low cuts short, is discarded and counted (R130, R132, R133, R160).
That the link receives in every state, in the power-fail steps and the FAIL wait too, is log 6 (DEDUCED). -/
def Obligations.FramesAreReadAsSent : Prop :=
  (∀ (a k : Nat) (p : List Byte), 1 ≤ a → a ≤ 8 → k < 256 → p.length ≤ 32 →
    readFrame (clean (lineFrame a k p)) = some { address := a, kind := k, payload := p, good := true }) ∧
  (∀ (kind : Byte) (p : List Byte) (s : State), p.length ≤ 192 → p.length % 2 = 0 →
    s.link.assembling = true → s.link.noisy ≤ 65535 →
    exec (.linkFrameComplete (clean (linkFrame kind p))) s =
      .next (finish (frameValid (readRequest kind.toNat p) s))) ∧
  (∀ (kind h l : Byte) (p : List Byte) (s : State), p.length ≤ 192 → p.length % 2 = 0 →
    s.link.assembling = true → s.link.noisy ≤ 65535 →
    [h, l] ≠ crcChars (kind :: BitVec.ofNat 8 (p.length / 2) :: p) →
    exec (.linkFrameComplete (clean (kind :: BitVec.ofNat 8 (p.length / 2) :: p ++ [h, l]))) s =
      .next (finish { s with link.assembling := false, link.crc := upto16 s.link.crc 1 })) ∧
  ∀ (before after : List Byte) (c : RxChar) (s : State), isGlitch c = false → stopLow c = true →
    (∀ kind l p, before = kind :: l :: p → l.toNat ≤ 96 ∧ p.length < 2 * l.toNat + 2) →
    s.link.assembling = true → s.link.noisy ≤ 65535 →
    exec (.linkFrameComplete (clean before ++ c :: clean after)) s =
      .next (finish { s with link.assembling := false, link.framing := upto16 s.link.framing 1 })

/-- A break on the link begins a frame, or a rate detection while no rate is held; a framing error, a
truncated frame and a length above 96 discard the frame being assembled and count it once; the first start
bit after a break fixes the one rate whose bit time it lies within 5 % of, a time near no rate is counted,
and with a rate held, or no break seen, nothing is measured (R160, R161).
That it is so in every state, in the power-fail steps and the FAIL wait too, is log 6 (DEDUCED). -/
def Obligations.LinkReceptionMeasuresDiscardsAndCounts : Prop :=
  (∀ (n : Nat) (s : State),
    let u : State := { s with link.noisy := upto16 s.link.noisy n }
    exec (.linkBreak n) s = .next (finish { u with link.assembling := s.link.rate.isSome,
                                                   link.detecting := s.link.rate.isNone }) ∧
    (s.link.assembling = true →
      exec (.linkFramingError n) s =
        .next (finish { u with link.assembling := false, link.framing := upto16 s.link.framing 1 }) ∧
      exec (.linkTruncatedFrame n) s =
        .next (finish { u with link.assembling := false, link.truncated := upto16 s.link.truncated 1 }) ∧
      exec (.linkLengthAbove96 n) s =
        .next (finish { u with link.assembling := false, link.crc := upto16 s.link.crc 1 })) ∧
    (s.link.assembling = false →
      exec (.linkFramingError n) s = .next (finish u) ∧ exec (.linkTruncatedFrame n) s = .next (finish u) ∧
      exec (.linkLengthAbove96 n) s = .next (finish u))) ∧
  ∀ (low : Nat) (s : State),
    (s.link.detecting = true → s.link.rate = none →
      (∀ bitTime rate, (bitTime, rate) ∈ [(10417, Rate.b9600), (5208, .b19200), (2604, .b38400),
          (1736, .b57600), (868, .b115200)] → 95 * bitTime ≤ 100 * low → 100 * low ≤ 105 * bitTime →
        exec (.rateDetection low) s = .next (finish { s with link.rate := some rate,
                                                             link.detecting := false, link.assembling := true })) ∧
      ((∀ bitTime ∈ [10417, 5208, 2604, 1736, 868], ¬(95 * bitTime ≤ 100 * low ∧ 100 * low ≤ 105 * bitTime)) →
        exec (.rateDetection low) s =
          .next (finish { s with link.detecting := false, link.rateFail := upto16 s.link.rateFail 1 }))) ∧
    (s.link.detecting = false ∨ s.link.rate.isSome = true →
      exec (.rateDetection low) s = .next (finish s))

/-- A lost link empties the acceptance masks, drops the rate held, ends a session and leaves the amounts as
they are; the first valid frame restores it with LINK_RESTORED, before its request is taken (R23, R166, R174).
That LINK_LOST acts in every phase is log 6 (DEDUCED). -/
def Obligations.LinkIsLostAndRestored : Prop :=
  (∀ s : State, s.phase = .run → s.link.up = true →
    Completes .linkLost s (.linkRate :: .linkState :: .marks :: .lockState :: .tag :: maskParts) fun t =>
      t.link.up = false ∧ t.link.lostAt = s.seconds ∧ t.link.rate = none ∧ t.link.linkWasLost = true ∧
      t.change.accept = 0 ∧ t.credit.noteMask = 0 ∧
      (s.lock.state = .unlocked → t.lock.state = .locked ∧ t.lock.tag = .empty) ∧
      (s.lock.state ≠ .unlocked → t.lock.state = s.lock.state ∧ t.lock.tag = s.lock.tag)) ∧
  (∀ s : State, s.link.up = false → exec .linkLost s = .next (finish s)) ∧
  ∀ (c : Instr) (r : Request) (s : State), requestOf c = some r → s.link.up = false →
    exec c s = exec c (recomputeMasks (raise .linkRestored none (some (s.seconds - s.link.lostAt))
      { s with link.up := true, link.assembling := false, link.detecting := false }))

/-- While a reply is being sent, a valid frame's request waits in the waiting slot, and a further one is lost,
counted and marked; when the reply has been sent, the request that waits is taken (R162, R163). That this is so
with no rate held too is log 45, and that it is so outside normal operation too is log 6 (DEDUCED). -/
def Obligations.RequestsWaitForTheReplyOrAreLost : Prop :=
  (∀ (c : Instr) (r : Request) (s : State), requestOf c = some r → s.link.up = true →
    (s.link.answer.isSome = true → s.link.waiting = none →
      exec c s = .next (finish { s with link.assembling := false, link.detecting := false,
                                        link.waiting := some r })) ∧
    (s.link.waiting.isSome = true →
      exec c s = .next (finish { s with link.assembling := false, link.detecting := false,
                                        link.lost := upto16 s.link.lost 1, link.lostFrame := true }))) ∧
  (∀ s : State, s.link.answer = none → exec .replySent s = .next (finish s)) ∧
  (∀ s : State, s.link.answer.isSome = true → s.link.restarting = false → s.link.waiting = none →
    exec .replySent s = .next (finish { s with link.answer := none })) ∧
  ∀ (c : Instr) (r : Request) (s : State), requestOf c = some r → s.link.up = true →
    s.link.answer.isSome = true → s.link.restarting = false →
    s.link.assembling = false → s.link.detecting = false →
    exec .replySent { s with link.waiting := some r } = exec c { s with link.waiting := none, link.answer := none }

/-! ### Requests in general -/

/-- Every request taken is answered in its own step; the reply shows the state after it, carries the
once-marks and clears them, and is sent as a frame of outcome, condition set, payload and filler; nothing else
changes but what its owner may change (R160, R163 to R165, R186). That a reply is composed with no rate held too
is log 45. -/
def Obligations.EveryRequestIsAnsweredInItsStep : Prop :=
  ∀ (c : Instr) (r : Request) (s : State), requestOf c = some r → Ready s →
    ∃ t a, exec c s = .next t ∧ t.link.answer = some a ∧ a.kind = r.kind ||| 0x80 ∧
      a.frame = linkFrame (BitVec.ofNat 8 (r.kind ||| 0x80))
        (padEven (BitVec.ofNat 8 a.outcome.code :: a.conditions :: a.payload)) ∧
      Alters (.linkRate :: .staging :: .tag :: .marks :: r.parts ++ dueParts) s t ∧
      a.conditions.getLsbD 0 = !t.events.queue.isEmpty ∧ a.conditions.getLsbD 1 = t.change.exact ∧
      a.conditions.getLsbD 2 = t.storeDefaults ∧ a.conditions.getLsbD 3 = s.link.lostFrame ∧
      a.conditions.getLsbD 5 = s.link.linkWasLost ∧
      t.link.lostFrame = false ∧ t.link.linkWasLost = false ∧ t.link.tagReset = false

/-- While the part is locked every gated request is refused LOCKED and changes nothing; a request other than the
tagging requests, Status and Fetch Events empties a tag sequence record, and its reply carries the mark (R163, R174,
R180). -/
def Obligations.GateRefusesWhenLockedAndResetsTheTagSequence : Prop :=
  (∀ (c : Instr) (r : Request) (s : State), requestOf c = some r → r.gated = true → Ready s →
    s.lock.state = .locked → Refuses c s (r.kind ||| 0x80) .locked []) ∧
  ∀ (c : Instr) (r : Request) (s : State), requestOf c = some r → r.keepsTag = false → Ready s →
    s.lock.tag ≠ .empty →
    ∃ t a, exec c s = .next t ∧ t.lock.tag = .empty ∧ t.link.answer = some a ∧
      a.conditions.getLsbD 4 = true ∧ t.link.tagReset = false

/-- A request of no known kind is refused UNKNOWN_REQUEST, and one whose payload has not the length of its
layout BAD_ARGUMENT (R163, R187). -/
def Obligations.UnknownAndMisfitRequestsAreRefused : Prop :=
  (∀ (kind : Nat) (p : List Byte) (s : State), isRequestKind kind = false → Ready s →
    Replies (.unknownRequest kind p) s (kind ||| 0x80) .unknownRequest [] [] fun _ => True) ∧
  (∀ (kind n : Nat) (p : List Byte),
    (kind, n) ∈ [(0x01, 0), (0x03, 2), (0x05, 4), (0x07, 0), (0x0B, 4), (0x0F, 2), (0x11, 10), (0x13, 0),
      (0x15, 20), (0x17, 10), (0x19, 0), (0x1B, 2), (0x1D, 2), (0x1F, 2), (0x21, 4), (0x23, 2), (0x25, 2),
      (0x27, 2), (0x29, 0), (0x2B, 0), (0x2D, 0), (0x2F, 2), (0x31, 2), (0x33, 2), (0x35, 2), (0x37, 0)] →
    p.length ≠ n → readRequest kind p = .badLength kind) ∧
  ∀ (kind : Byte) (p : List Byte) (s : State), Ready s → s.link.assembling = true → s.link.noisy ≤ 65535 →
    p.length ≤ 192 → p.length % 2 = 0 → readRequest kind.toNat p = .badLength kind.toNat →
    Replies (.linkFrameComplete (clean (linkFrame kind p))) s (kind.toNat ||| 0x80) .badArgument [] []
      fun _ => True

/-! ### Reading the part -/

/-- Status replies with 143 characters of the state, in a frame of 150, and a Read Table Section with the records asked for, each
of its layout's length; neither changes the part (R168, R169, R188, R189). -/
def Obligations.StatusAndReadShowTheState : Prop :=
  ∀ s : State, Ready s →
    (Replies .status s 0x81 .done (statusPayload s) [] fun t =>
      ∃ a, t.link.answer = some a ∧ a.frame.length = 150) ∧ (statusPayload s).length = 143 ∧
    ∀ table first count : Nat,
      (table ≤ 14 → 1 ≤ count → count ≤ 8 → first + count ≤ recordCount table →
        (Replies (.readTableSection table first count) s 0x8B .done (readSection table first count s) [.tag]
          fun _ => True) ∧
        ∀ size, (table, size) ∈ [(0, 10), (1, 4), (2, 5), (3, 3), (4, 12), (5, 4), (6, 7), (7, 2), (8, 7),
            (9, 8), (10, 6), (11, 1), (12, 1), (13, 1), (14, 6)] →
          (readSection table first count s).length = count * size) ∧
      (14 < table ∨ count = 0 ∨ 8 < count ∨ recordCount table < first + count →
        Refuses (.readTableSection table first count) s 0x8B .badArgument [])

/-- Fetch Events removes from the head as many records as fit, up to eight, reports and clears the dropped
count and keeps the batch; Fetch Events with the again flag sends the kept batch and changes nothing (R171). -/
def Obligations.FetchTakesEventsInOrderAndAgainRepeats : Prop :=
  ∀ s : State, Ready s →
    (∃ n, n ≤ 8 ∧ n ≤ s.events.queue.length ∧
      (Replies .fetchEvents s 0x83 .done (batchPayload s.events.dropped (s.events.queue.take n)) [.events]
        fun t => t.events = { queue := s.events.queue.drop n, dropped := 0,
                              lastBatch := s.events.queue.take n, lastDropped := s.events.dropped }) ∧
      ((s.events.queue.take n).map fun e => 12 + e.payload.length).sum ≤ 188 ∧
      (n = 8 ∨ n = s.events.queue.length ∨
        188 < ((s.events.queue.take (n + 1)).map fun e => 12 + e.payload.length).sum)) ∧
    Replies .fetchEventsAgain s 0x83 .done (batchPayload s.events.lastDropped s.events.lastBatch) []
      fun _ => True

/-! ### Sale requests -/

/-- A vend that passes its checks is admitted: a CASH vend moves the price from `credit` to `vend_hold`, an
EXTERNAL vend moves nothing, and either begins its operation with the spiral chosen (R6, R7, R10, R57, R71). -/
def Obligations.VendThatPassesIsAdmitted : Prop :=
  ∀ (code amount : Nat) (s : State), Ready s → s.credit.sale ≠ .vend → s.credit.sale ≠ .payout →
    validCode code = true → s.doorOpen = false → available s (codeIndex code) = .passes →
    let i := codeIndex code
    let price := (s.tables.sel i).price
    let begun : State → Prop := fun t => ∃ p j, choose s i = some (p, j) ∧ spiralReady s p = true ∧
      t.drive.vend = some { sel := i, spiral := p, position := j, revolutions := 0, drop := false,
                            tried := false, params := s.tables.drive, told := false }
    (price ≤ s.credit.credit →
      (s.tables.money.policy = .single → s.tables.money.exactRequired = true →
        (changePlan s (s.credit.credit - price)).exact = true) →
      Replies (.vend code) s 0x85 .started [] [.tag, .amounts, .sale, .inFlight, .vendOp, .grants] fun t =>
        t.credit.credit = s.credit.credit - price ∧ t.credit.vendHold = s.credit.vendHold + price ∧
        t.credit.escrowReserve = s.credit.escrowReserve ∧ t.credit.returnDue = s.credit.returnDue ∧
        t.credit.inFlight = some .cash ∧ t.credit.sale = .vend ∧ begun t) ∧
    (Replies (.vendExternal code amount) s 0x85 .started [] [.tag, .sale, .inFlight, .vendOp, .grants]
      fun t => t.credit.inFlight = some (.external amount) ∧ t.credit.sale = .vend ∧ begun t)

/-- The first check that fails decides a vend's refusal, for both fundings (R6, R10, R65). -/
def Obligations.VendIsRefusedByItsFirstFailingCheck : Prop :=
  ∀ (code amount : Nat) (s : State), Ready s →
    let i := codeIndex code
    let both : ReplyCode → List Byte → Prop := fun o p =>
      Refuses (.vend code) s 0x85 o p ∧ Refuses (.vendExternal code amount) s 0x85 o p
    (s.credit.sale = .vend ∨ s.credit.sale = .payout → both .busy []) ∧
    (s.credit.sale ≠ .vend → s.credit.sale ≠ .payout →
      (validCode code = false → both .badArgument []) ∧
      (validCode code = true →
        (s.doorOpen = true → both .doorOpen []) ∧
        (s.doorOpen = false →
          ((s.sel i).state = .inhibited → both .unavailable (char 0)) ∧
          ((s.sel i).state = .soldOut → both .unavailable (char 1)) ∧
          ((s.sel i).state = .enabled →
            ((s.tables.sel i).spirals = [] → both .unavailable (char 2)) ∧
            ((s.tables.sel i).spirals ≠ [] →
              (selHeld s i = true → both .held []) ∧
              (selHeld s i = false →
                ((∀ p ∈ (s.tables.sel i).spirals, spiralReady s p = false) → both .unavailable (char 3)) ∧
                ((∃ p ∈ (s.tables.sel i).spirals, spiralReady s p = true) →
                  (s.credit.credit < (s.tables.sel i).price → Refuses (.vend code) s 0x85 .noCredit []) ∧
                  ((s.tables.sel i).price ≤ s.credit.credit → s.tables.money.policy = .single →
                    s.tables.money.exactRequired = true →
                    (changePlan s (s.credit.credit - (s.tables.sel i).price)).exact = false →
                    Refuses (.vend code) s 0x85 .noChange []))))))))

/-- Return Credit is refused NO_CREDIT with nothing to return and BUSY during a vend; else all of `credit`
becomes `return_due`, what passes 65535 is written off with its event, and a RETURN payout is in flight
when something is owed (R5, R12, R15). -/
def Obligations.ReturnCreditPaysEverythingBack : Prop :=
  ∀ s : State, Ready s →
    (s.credit.sale = .idle → Refuses .returnCredit s 0x87 .noCredit []) ∧
    (s.credit.sale = .vend → Refuses .returnCredit s 0x87 .busy []) ∧
    (s.credit.sale = .opened → s.credit.credit = 0 → s.credit.returnDue = 0 →
      Refuses .returnCredit s 0x87 .noCredit []) ∧
    (s.credit.sale = .payout ∨
        (s.credit.sale = .opened ∧ (s.credit.credit ≠ 0 ∨ s.credit.returnDue ≠ 0)) →
      s.credit.returnDue ≤ 65535 → s.credit.inFlight = none →
      let excess := s.credit.returnDue + s.credit.credit - 65535
      Replies .returnCredit s 0x87 .started [] (.tag :: moneyParts) fun t =>
        t.credit.credit = 0 ∧ t.credit.returnDue = min 65535 (s.credit.returnDue + s.credit.credit) ∧
        t.credit.vendHold = s.credit.vendHold ∧ t.credit.escrowReserve = s.credit.escrowReserve ∧
        t.audit = { s.audit with writtenOff := if excess = 0 then s.audit.writtenOff
                                               else addTotal s.audit.writtenOff excess } ∧
        t.events = (if excess = 0 then s.events else s.events.place
          { kind := .writtenOff, time := s.seconds, subject := none, value := val excess, payload := [] }) ∧
        t.change.shortWait = false ∧
        (s.credit.returnDue + s.credit.credit ≠ 0 → t.change.payout.isSome = true))

/-! ### Tables and line requests -/

/-- A Load Table Section is refused with nothing changed, a code outside its listed values first of all, then the
owner's state, the order of the two in log 20, or applied whole: each record in turn on the tables as
the earlier ones leave them, where one refused record refuses the section. Applied, its reply is DONE with the
clamped and moved counts, the tables are those its records leave, STORE_DEFAULTS is clear, and a write of the
tables is under way, or waits behind one (R28, R62, R123, R167, R186). -/
def Obligations.TableSectionIsAppliedWholeOrNotAtAll : Prop :=
  ∀ (table first count : Nat) (records : List Byte) (s : State), Ready s → unlocked s →
    let c := Instr.loadTableSection table first count records
    let sent := sectionRecords table count records
    let loaded := loadAll (recordStep table) first sent 0 0 s.asServed
    (sectionFits table first count records = false → Refuses c s 0x89 .badArgument []) ∧
    (sectionFits table first count records = true → (∃ r ∈ sent, codesListed table r = false) →
      Refuses c s 0x89 .badArgument []) ∧
    (sectionFits table first count records = true → (∀ r ∈ sent, codesListed table r = true) →
      (tableBusy table s = true → Refuses c s 0x89 .busy []) ∧
      (tableBusy table s = false →
        (∀ e, loaded = .error e → Refuses c s 0x89 e []) ∧
        ∀ u clamped moved, loaded = .ok (u, clamped, moved) →
          Replies c s 0x89 .done (char clamped ++ char moved) (.tag :: loadParts) fun t =>
            t.tables = (afterSection table u).tables ∧ t.storeDefaults = false ∧
            (s.store.tableWriting.isSome = true → t.store = { s.store with tableWaiting := true }) ∧
            (s.store.tableWriting = none → t.store = { s.store with
              tableWaiting := false, tableWriting := some (nextWrite s.store.tableA s.store.tableB t.tables) })))

/-- The records of a table as loaded: each field is held to its range, every clamp is counted, nothing else of the
tables changes, and a code that is none of the field's is refused before the table's state is looked at, a coin type
that another tube has after it (log 20). The route mask with no validator slot is that of R36 (log 58). Tubes,
spiral parameters, curve points, zones, coins, notes, the refrigeration parameters, the load table, in which a
rating is held to its range and then to the budget, the link parameter, and the money parameters, which are loaded in
IDLE only, with EXACT evaluated anew when `g` or `C` changed and all masks recomputed (R2, R3, R28, R29, R69, R92, R97,
R101, R116, R151, R166, R186). -/
def Obligations.LoadedFieldsAreClamped : Prop :=
  ∀ s : State, Ready s → unlocked s →
    let c : Nat → Nat → List Byte → Instr := fun table first bytes => .loadTableSection table first 1 bytes
    let loads : Nat → Nat → List Byte → List Nat → Tables → Prop := fun table first bytes clamps tables =>
      Replies (c table first bytes) s 0x89 .done (char clamps.sum ++ char 0) (.tag :: loadParts)
        fun t => t.tables = tables
    let refused : Nat → Nat → List Byte → Prop := fun table first bytes =>
      Refuses (c table first bytes) s 0x89 .badArgument []
    let busy : Nat → Nat → List Byte → Prop := fun table first bytes =>
      Refuses (c table first bytes) s 0x89 .busy []
    let moved : Nat → Nat → Nat := fun x y => if x = y then 0 else 1
    let movedI : Int → Int → Nat := fun x y => if x = y then 0 else 1
    (∀ (n : Nat) (k e cap low keep : Byte), n < 6 → s.tables.tubes.length = 6 →
      let bytes := [k, e, cap, low, keep]
      let taken := ∃ m < 6, m ≠ n ∧ (s.tables.tube m).coinType = k.toNat
      let size := max 1 (min 250 cap.toNat)
      let old := (s.tables.tube n).coinType
      (15 < k.toNat ∨ 1 < e.toNat → refused 2 n bytes) ∧
      (k.toNat ≤ 15 → e.toNat ≤ 1 → s.credit.sale = .payout → busy 2 n bytes) ∧
      (s.credit.sale ≠ .payout → taken → refused 2 n bytes) ∧
      (k.toNat ≤ 15 → e.toNat ≤ 1 → s.credit.sale ≠ .payout → ¬taken →
        loads 2 n bytes [moved cap.toNat size, moved low.toNat (min size low.toNat),
            moved keep.toNat (min size keep.toNat)]
          { s.tables with
            tubes := s.tables.tubes.set n { coinType := k.toNat, enabled := e == 1, capacity := size,
                                            lowMark := min size low.toNat, reserve := min size keep.toNat },
            coins := if old = k.toNat then s.tables.coins
                     else updAt s.tables.coins old fun x => if x.tube = some n then { x with tube := none } else x })) ∧
    (∀ d a x l w h j : Byte,
      let bytes := [d, a, x, l, w, h, j]
      let jam := max 500 (min 4000 (num2 h j))
      (1 < d.toNat ∨ 1 < a.toNat → refused 6 0 bytes) ∧
      (d.toNat ≤ 1 → a.toNat ≤ 1 →
        loads 6 0 bytes [moved x.toNat (min 3 x.toNat), moved l.toNat (max 9 l.toNat), moved (num2 h j) jam]
          { s.tables with drive := { dropConfirm := d == 1, autoNext := a == 1, extraRevs := min 3 x.toNat,
                                     revLimitN := max 9 l.toNat, dropTailN := w.toNat, jamThreshold := jam } })) ∧
    (∀ (k : Nat) (h l : Byte), k ≤ 16 →
      let point := max (-400) (min 800 (int2 h l))
      loads 7 k [h, l] [movedI (int2 h l) point] { s.tables with curve := s.tables.curve.set k point }) ∧
    (∀ (z : Nat) (sh sl d hh hl n e : Byte), z ≤ 1 →
      let set := max (-50) (min 200 (int2 sh sl))
      let diff := max 5 (min 100 d.toNat)
      let hold := max (-50) (min 250 (int2 hh hl))
      loads 8 z [sh, sl, d, hh, hl, n, e] [movedI (int2 sh sl) set, moved d.toNat diff,
          movedI (int2 hh hl) hold, moved e.toNat (min 80 e.toNat)]
        { s.tables with zones := s.tables.zones.set z { setpoint := set, differential := diff, holdLimit := hold,
                                                        holdTimeN := n.toNat, economyOffset := min 80 e.toNat } }) ∧
    (∀ (k : Nat) (h l e n : Byte), k ≤ 15 →
      let bytes := [h, l, e, n]
      let pays := n.toNat ≤ 5 ∧ (s.tables.tube n.toNat).coinType = k
      let listed := e.toNat ≤ 1 ∧ (n.toNat ≤ 5 ∨ n = 0xFF)
      (¬listed → refused 1 k bytes) ∧
      (listed → s.credit.sale = .payout → busy 1 k bytes) ∧
      (s.credit.sale ≠ .payout → n ≠ 0xFF → ¬pays → refused 1 k bytes) ∧
      (s.credit.sale ≠ .payout → e.toNat ≤ 1 → n = 0xFF ∨ pays →
        loads 1 k bytes [moved (num2 h l) (max 1 (num2 h l))]
          { s.tables with
            coins := s.tables.coins.set k { value := max 1 (num2 h l), accept := e == 1,
                                            tube := if n = 0xFF then none else some n.toNat } })) ∧
    (∀ (k : Nat) (h l e : Byte), k ≤ 7 →
      (1 < e.toNat → refused 3 k [h, l, e]) ∧
      (e.toNat ≤ 1 → s.credit.escrow.isSome = true → busy 3 k [h, l, e]) ∧
      (e.toNat ≤ 1 → s.credit.escrow = none → loads 3 k [h, l, e] [moved (num2 h l) (max 1 (num2 h l))]
        { s.tables with notes := s.tables.notes.set k { value := max 1 (num2 h l), accept := e == 1 } })) ∧
    (∀ off run surge every h l long drip : Byte,
      let warm := max 0 (min 300 (int2 h l))
      loads 9 0 [off, run, surge, every, h, l, long, drip] [movedI (int2 h l) warm]
        { s.tables with refrig := { minOffN := off.toNat, minRunN := run.toNat, surgeN := surge.toNat,
                                    defrostIntervalN := every.toNat, defrostEndTemp := warm,
                                    maxDefrostN := long.toNat, dripN := drip.toNat } }) ∧
    (∀ b p m q r h : Byte, tableBusy 10 s = false →
      let budget := max 20 b.toNat
      let held : Byte → Nat := fun x => max 1 (min 100 x.toNat)
      let clamps : Byte → Nat := fun x => moved x.toNat (held x) + if held x ≤ budget then 0 else 1
      loads 10 0 [b, p, m, q, r, h] [moved b.toNat budget, clamps p, clamps m, clamps q, clamps r, clamps h]
        { s.tables with loads := { budget := budget, payout := min budget (held p), motor := min budget (held m),
                                   compStart := min budget (held q), compRun := min budget (held r),
                                   heater := min budget (held h) } }) ∧
    (∀ ch cl p e gh gl xh xl nh nl : Byte,
      let bytes := [ch, cl, p, e, gh, gl, xh, xl, nh, nl]
      let top := max 1 (num2 ch cl)
      let g := max 1 (num2 gh gl)
      (1 < p.toNat ∨ 1 < e.toNat → refused 0 0 bytes) ∧
      (p.toNat ≤ 1 → e.toNat ≤ 1 → s.credit.sale ≠ .idle → busy 0 0 bytes) ∧
      (s.credit.sale = .idle → p.toNat ≤ 1 → e.toNat ≤ 1 →
        Replies (c 0 0 bytes) s 0x89 .done (char (moved (num2 ch cl) top + moved (num2 gh gl) g) ++ char 0)
          (.tag :: loadParts) fun t =>
            t.tables = { s.tables with
              money := { ceiling := top, policy := if p = 0 then .single else .multi, exactRequired := e == 1,
                         granularity := g, probeCeiling := num2 xh xl, noteLimit := num2 nh nl } } ∧
            (s.tables.money.granularity = g ∧ s.tables.money.probeCeiling = num2 xh xl →
              t.change.exact = s.change.exact) ∧
            (s.tables.money.granularity ≠ g ∨ s.tables.money.probeCeiling ≠ num2 xh xl →
              (t.change.exact = true ↔ ∃ k, probeShort t k)) ∧
            t.change.accept = acceptMask t ∧ t.change.route = routeMask t ∧ t.credit.noteMask = noteMask t)) ∧
    ∀ b : Byte, loads 13 0 [b] [moved b.toNat (min 59 b.toNat)] { s.tables with silenceN := min 59 b.toNat }

/-- A selection record is refused for the causes of R62, and else its fields are taken, each spiral of its list leaves
the list of another selection, which closes up with its next pointer and counts as moved, the spirals new to the list
become NOT_HOME with a home probe pending and those left in no list UNASSIGNED. A slot record that changes its slot's
kind makes it ABSENT with no latch and no missed reply, its counts kept; its unsent commands and, if it is UNUSED, its
unsent Passes and its place in the round go, a transaction in flight runs to its end unread, and a reader's escrow
record expires. The line parameter is taken as it is (R57, R60, R62, R63, R140, R141). -/
def Obligations.SelectionSlotAndLineLoadsTakeEffect : Prop :=
  (∀ (b : Byte) (s : State), Ready s → unlocked s →
    Replies (.loadTableSection 12 0 1 [b]) s 0x89 .done (char 0 ++ char 0) [.tag, .tables, .storeDefaults, .store]
      fun t => t.tables = { s.tables with pollN := b.toNat }) ∧
  (∀ (i : Nat) (h l z w m n a b c d : Byte) (s : State), Ready s → unlocked s → i < 64 →
    ListsOk s.tables → s.spirals.length = 64 → s.sels.length = 64 →
    let load : Instr := .loadTableSection 4 i 1 [h, l, z, w, m, n, a, b, c, d]
    let list := (([a, b, c, d] : List Byte).take n.toNat).map (·.toNat)
    let bad := 1 < z.toNat ∨ 1 < w.toNat ∨ 1 < m.toNat ∨ 4 < n.toNat ∨ (∃ q ∈ list, 63 < q) ∨ ¬list.Nodup
    let old := (s.tables.sel i).spirals
    let inUse := (∃ v, s.drive.vend = some v ∧ (i = v.sel ∨ ∃ q ∈ list, q ∈ (s.tables.sel v.sel).spirals)) ∨
      ∃ o, s.drive.service = some o ∧ (o.spiral ∈ list ∨ o.spiral ∈ old)
    (bad → Refuses load s 0x89 .badArgument []) ∧
    (¬bad → inUse → Refuses load s 0x89 .busy []) ∧
    (¬bad → ¬inUse →
      ∃ count, Replies load s 0x89 .done (char 0 ++ char count)
        [.tag, .tables, .sels, .spirals, .storeDefaults, .store] fun t =>
        count = list.countP (fun q => (List.range 64).any fun k => k != i && (s.tables.sel k).spirals.contains q) ∧
        { t.tables with sels := s.tables.sels } = s.tables ∧
        t.tables.sel i = { price := num2 h l, zone := z.toNat, perishable := w == 1, firstMode := m == 1,
                           spirals := list } ∧
        t.sel i = { s.sel i with next := if list = old then (s.sel i).next else 0 } ∧
        (∀ k < 64, k ≠ i →
          let was := (s.tables.sel k).spirals
          let next := (s.sel k).next - (was.take (s.sel k).next).countP list.contains
          let left := was.filter fun q => !list.contains q
          t.tables.sel k = { s.tables.sel k with spirals := left } ∧
          t.sel k = { s.sel k with next := if left = was then (s.sel k).next
                                           else if next < left.length then next else 0 }) ∧
        ∀ q < 64, t.spiral q =
          if q ∈ list ∧ q ∉ old then { s.spiral q with state := .notHome, probePending := true }
          else if q ∈ old ∧ q ∉ list then { s.spiral q with state := .unassigned, probePending := false }
          else s.spiral q)) ∧
  ∀ (a : Nat) (k : Byte) (s : State), Ready s → unlocked s → 1 ≤ a → a ≤ 8 →
    s.tables.slotKinds.length = 8 → s.line.slots.length = 8 → s.line.queue.length ≤ 4 →
    let load : Instr := .loadTableSection 11 (a - 1) 1 [k]
    (3 < k.toNat → Refuses load s 0x89 .badArgument []) ∧
    ∀ kind, (k.toNat, kind) ∈ [(0, SlotKind.unused), (1, .coinValidator), (2, .noteReader), (3, .other)] →
      let taken := (kind = .coinValidator ∨ kind = .noteReader) ∧
        ∃ b, 1 ≤ b ∧ b ≤ 8 ∧ b ≠ a ∧ s.tables.slotKind b = kind
      let old := s.tables.slotKind a
      let only := ∀ b, 1 ≤ b → b ≤ 8 → s.tables.slotKind b = old → b = a
      let loaded : (State → Prop) → Prop :=
        Replies load s 0x89 .done (char 0 ++ char 0) (.tag :: .storeDefaults :: .store :: slotKindParts)
      (taken → Refuses load s 0x89 .badArgument []) ∧
      (¬taken → old = kind → loaded fun t => t.tables = s.tables ∧ t.line.slots = s.line.slots) ∧
      (¬taken → old ≠ kind → loaded fun t =>
        t.tables = { s.tables with slotKinds := s.tables.slotKinds.set (a - 1) kind } ∧
        (t.slot a).state = .absent ∧ (t.slot a).missed = 0 ∧ (t.slot a).latch = none ∧
        (t.slot a).noise = (s.slot a).noise ∧ (t.slot a).contention = (s.slot a).contention ∧
        (∀ b, 1 ≤ b → b ≤ 8 → b ≠ a → t.slot b = s.slot b) ∧
        (kind = .unused ∨ kind = .other → ∀ e ∈ t.line.queue, e.slot = a → e.inFlight = true) ∧
        upto16 s.line.dropped (s.line.queue.countP fun e => e.slot == a && !e.inFlight) ≤ t.line.dropped ∧
        (kind = .unused → a ∉ t.line.list ∧ (∀ e ∈ t.line.pass, e.slot = a → e.inFlight = true) ∧
          ∀ e, s.line.pass = [e] → e.slot = a → e.inFlight = false →
            RaisesFirst s t .passReply (some a) (some (pack 0 0 2 e.tag))) ∧
        (∀ x, s.line.trans = some x →
          t.line.trans = some { x with stale := x.stale || x.slot == a } ∧
          (kind ≠ .unused → t.line.pass = s.line.pass)) ∧
        (old = .noteReader → only → t.credit.escrow = none ∧ t.credit.noteMask = 0 ∧
          ∀ e, s.credit.escrow = some e → t.credit.escrowReserve = 0 ∧
            (kind ≠ .unused → RaisesFirst s t .escrowUnresolved (some e.noteType)
              (val (s.tables.note e.noteType).value))) ∧
        (old = .coinValidator → only → t.change.accept = 0))

/-- A Pass that fits stands last in the pass-through queue with its reply QUEUED, and one that does not is
refused; Clear Faults empties the latches named and counts those that held a code. A MASKS or ESCROW command in
flight is handed back by its outcome: acknowledged, sent again, put back marked at a first contention, or dropped
and counted at a second; the mask record takes it, and an ESCROW is sent again while its record stands
(R135, R138, R139, R143, R144, R153, R154, R156). -/
def Obligations.PassesQueueLatchesClearAndCommandsReturn : Prop :=
  (∀ (slot kind tag : Nat) (payload : List Byte) (s : State), Ready s →
    let c := Instr.pass slot kind tag payload
    (1 ≤ slot → slot ≤ 8 → s.tables.slotKind slot ≠ .unused → 0x20 ≤ kind → kind ≤ 0x3F →
      payload.length ≤ 32 → tag ≠ 0 →
      (s.line.pass.length < 4 → Replies c s 0x8D .queued [] [.tag, .passQueue] fun t =>
        t.line.pass.map (fun e => (e.slot, e.kind, e.tag, e.payload)) =
          s.line.pass.map (fun e => (e.slot, e.kind, e.tag, e.payload)) ++ [(slot, kind, tag, payload)]) ∧
      (4 ≤ s.line.pass.length → Refuses c s 0x8D .queueFull [])) ∧
    (slot = 0 ∨ 8 < slot ∨ s.tables.slotKind slot = .unused ∨ kind < 0x20 ∨ 0x3F < kind ∨
      32 < payload.length ∨ tag = 0 → Refuses c s 0x8D .badArgument [])) ∧
  (∀ (slot : Nat) (s : State), Ready s →
    (8 < slot → Refuses (.clearFaults slot) s 0x8F .badArgument []) ∧
    (slot ≤ 8 → ∃ n, Replies (.clearFaults slot) s 0x8F .done (char n) [.tag, .slots] fun t =>
      n = (([1, 2, 3, 4, 5, 6, 7, 8] : List Nat).countP fun a =>
        (slot == 0 || a == slot) && (s.slot a).latch.isSome) ∧
      ∀ a, 1 ≤ a → a ≤ 8 → t.slot a =
        if slot = 0 ∨ a = slot then { s.slot a with latch := none } else s.slot a)) ∧
  (∀ (e : Cmd) (m : Masks) (s : State), s.phase = .run → s.line.trans = none → s.line.assembling = false →
    NothingWaits s → s.line.queue = [e] → s.line.pass = [] → s.line.list = [] → e.body = .masks m →
    s.slotOf m.periph = some e.slot → s.slotPresent e.slot = false →
    Completes .lineIdle s [] fun t => t.line.queue = [] ∧ t.line.trans = none ∧
      t.line.dropped = upto16 s.line.dropped 1 ∧
      t.line.maskRec m.periph = { s.line.maskRec m.periph with held := none, push := true }) ∧
  ∀ (n : Nat) (x : Trans) (e : Cmd) (rest : List Cmd) (s : State), s.phase = .run → s.line.slots.length = 8 →
    Flies x e rest s → NothingWaits s → 1 ≤ x.slot → x.slot ≤ 8 → (s.slot x.slot).state = .present →
    let a := x.slot
    let replied := Instr.lineFrameComplete (clean (lineFrame a (x.body.kind + 0x80) []))
    let newer := ∃ y ∈ rest, y.isMasks = true ∧ y.slot = a
    let again : CmdBody → Cmd := fun b => { slot := a, body := b, mark := false, inFlight := false }
    let leaves : Instr → Nat → List Cmd → (State → Prop) → Prop := fun c dropped q good =>
      Completes c s lineParts fun t => t.line.trans = none ∧ t.line.queue = q ∧
        t.line.dropped = (if dropped = 0 then s.line.dropped else upto16 s.line.dropped dropped) ∧
        t.credit.escrow = s.credit.escrow ∧ good t
    let records : State → Prop := fun t =>
      t.line.validator = s.line.validator ∧ t.line.reader = s.line.reader
    let receives := x.stage = .reply ∧ s.line.driver = false ∧ s.line.assembling = true
    (x.stage = .sending → e.mark = false → ¬(e.isMasks = true ∧ newer) →
      leaves (.contention n) 0 ({ e with inFlight := false, mark := true } :: rest) records) ∧
    (∀ m, e.body = .masks m → s.slotOf m.periph = some a →
      let r := s.line.maskRec m.periph
      let becomes : MaskRec → State → Prop := fun q t => t.line.maskRec m.periph = q
      (receives → leaves replied 0 rest (becomes { r with held := some m })) ∧
      (receives → ¬newer → (s.slot a).missed < 2 →
        leaves (.lineTruncatedFrame n) 0 (rest ++ [again (.masks r.current)]) (becomes { r with held := none })) ∧
      (x.stage = .sending → ¬newer → e.mark = true →
        leaves (.contention n) 1 rest (becomes { r with held := none, push := true })) ∧
      (x.stage = .sending → newer →
        leaves (.contention n) 1 rest (becomes { r with held := none }))) ∧
    ∀ d k tracked, e.body = .escrow d k tracked → s.slotOf .reader = some a →
      let sent := if tracked = true ∧ escrowMatches d k s = true then insertEscrow (again e.body) rest else rest
      (receives → leaves replied 0 rest records) ∧
      (receives → (s.slot a).missed < 2 → leaves (.lineTruncatedFrame n) 0 sent records) ∧
      (x.stage = .sending → e.mark = true → leaves (.contention n) 1 sent records)

/-! ### The Service Lock -/

/-- Unlock by lock state, lockout timer and code; the third failure starts the lockout with its event, and
the expiry of its timer clears the count (R175, R186). That
the characters past a code's count are not read is log 59. -/
def Obligations.UnlockFollowsItsTable : Prop :=
  (∀ (c : CodeArg) (s : State), Ready s →
    (s.lock.state ≠ .locked → Refuses (.unlock c) s 0x91 .badSequence []) ∧
    (s.lock.state = .locked → s.lock.lockout = true → Refuses (.unlock c) s 0x91 .lockout []) ∧
    (s.lock.state = .locked → s.lock.lockout = false → ∀ ds, s.lock.code = some ds →
      (codeEquals c ds = true → Replies (.unlock c) s 0x91 .done [] [.lockState, .lockout, .tag] fun t =>
        t.lock.state = .unlocked ∧ t.lock.failures = 0 ∧ t.lock.lockout = false) ∧
      (codeEquals c ds = false → s.lock.failures < 2 →
        Replies (.unlock c) s 0x91 .codeMismatch [] [.lockout, .tag] fun t =>
          t.lock.failures = s.lock.failures + 1 ∧ t.lock.lockout = false) ∧
      (codeEquals c ds = false → s.lock.failures = 2 →
        Replies (.unlock c) s 0x91 .codeMismatch [] [.lockout, .events, .tag] fun t =>
          t.lock.failures = 3 ∧ t.lock.lockout = true ∧
          t.events = s.events.place (eventAt s.seconds .lockout none (some s.seconds))))) ∧
  (∀ (ds pad : List Nat), 4 ≤ ds.length → ds.length ≤ 8 → (∀ d ∈ ds, d ≤ 9) →
    codeEquals { count := ds.length, chars := ds ++ pad } ds = true) ∧
  (∀ (c : CodeArg) (ds : List Nat), codeEquals c ds = true → c.count = ds.length ∧ c.chars.take c.count = ds) ∧
  ∀ s : State, s.active = true →
    exec .lockoutExpiry s = .next (finish (if s.lock.lockout
      then { s with lock.lockout := false, lock.failures := 0 } else s))

/-- Lock ends a session; Set Code and Clear Code check the old code and the digits of the new one (R174, R176).
That the characters past a code's count, and all of them at count 0, are not read is log 59. -/
def Obligations.CodesAreSetClearedAndLocked : Prop :=
  ∀ (old new : CodeArg) (lockNow : Bool) (s : State), Ready s →
    (s.lock.state = .unlocked → Replies .lock s 0x93 .done [] [.lockState, .tag] fun t =>
      t.lock.state = .locked ∧ t.lock.tag = .empty) ∧
    (s.lock.state ≠ .unlocked → Refuses .lock s 0x93 .badSequence []) ∧
    (unlocked s →
      let oldFits : Prop := (s.lock.state = .opened ∧ codeValue old = .none) ∨
        (s.lock.state = .unlocked ∧ ∃ ds, s.lock.code = some ds ∧ codeEquals old ds = true)
      ((∀ ds, codeValue new ≠ .digits ds) →
        Refuses (.setCode old new lockNow) s 0x95 .badArgument []) ∧
      ∀ ds, codeValue new = .digits ds →
        (oldFits → Replies (.setCode old new lockNow) s 0x95 .done [] [.code, .lockState, .tag] fun t =>
          t.lock.code = some ds ∧ t.lock.state = if lockNow then .locked else .unlocked) ∧
        (¬oldFits → Refuses (.setCode old new lockNow) s 0x95 .codeMismatch [])) ∧
    (s.lock.state = .opened → Refuses (.clearCode old) s 0x97 .badSequence []) ∧
    (s.lock.state = .unlocked → ∀ ds, s.lock.code = some ds →
      (codeEquals old ds = true → Replies (.clearCode old) s 0x97 .done [] [.code, .lockState, .tag] fun t =>
        t.lock.code = none ∧ t.lock.state = .opened) ∧
      (codeEquals old ds = false → Refuses (.clearCode old) s 0x97 .codeMismatch []))

/-- Factory Clear is taken only while LOCKED with the door OPEN and nothing in flight; it leaves the defaults
in every table, no code, no totals, no holds, empty tubes and no table image (R64, R113, R177, R178). -/
def Obligations.FactoryClearLeavesTheDefaults : Prop :=
  ∀ s : State, Ready s →
    (s.lock.state ≠ .locked → Refuses .factoryClear s 0x99 .badSequence []) ∧
    (s.lock.state = .locked → s.doorOpen = false → Refuses .factoryClear s 0x99 .doorClosed []) ∧
    (s.lock.state = .locked → s.doorOpen = true →
      (s.credit.sale ≠ .idle ∨ s.credit.escrow.isSome = true ∨ s.drive.service.isSome = true →
        Refuses .factoryClear s 0x99 .busy []) ∧
      (s.credit.sale = .idle → s.credit.escrow = none → s.drive.service = none →
        s.tables.tubes.length = 6 → s.tables.slotKinds.length = 8 →
        Replies .factoryClear s 0x99 .done [] clearParts fun t =>
          t.lock.code = none ∧ t.lock.state = .opened ∧ t.lock.failures = 0 ∧ t.lock.lockout = false ∧
          t.lock.tag = .empty ∧ t.lock.fill = false ∧ t.tables = defaultTables ∧ t.audit = Audit.zero ∧
          (∀ i, t.sel i = SelKept.default) ∧
          (∀ x ∈ t.spirals, x.state = .notHome ∧ x.probePending = true) ∧
          (∀ n < 6, (s.tube n).full.accepted ≠ some true → (t.tube n).count = 0 ∧ (t.tube n).cond = .ok) ∧
          (∀ z ∈ t.cold.zones, z.latched = false ∧ z.holdTimer = 0) ∧
          t.storeDefaults = true ∧ t.store.tableA = none ∧ t.store.tableB = none ∧
          t.store.tableWriting = none))

/-- Tag First, Tag Last and Untag build the tag sequence record in order, and each refusal empties it (R179). -/
def Obligations.TagSequenceIsBuiltInOrder : Prop :=
  ∀ (unit value : Nat) (s : State), Ready s → unlocked s →
    let goodArg : TagUnit → Prop := fun u =>
      (unit = 0 ∧ u = .selection ∧ validCode value = true) ∨ (unit = 1 ∧ u = .tray ∧ 1 ≤ value ∧ value ≤ 8)
    let drops : Instr → Nat → ReplyCode → Prop := fun c k o =>
      Replies c s k o [] [.tag] fun t => t.lock.tag = .empty
    let sets : Instr → Nat → TagRec → Prop := fun c k r =>
      Replies c s k .done [] [.tag] fun t => t.lock.tag = r
    ((∀ u, ¬goodArg u) → drops (.tagFirst unit value) 0x9B .badArgument ∧
      drops (.tagLast unit value) 0x9D .badArgument) ∧
    (∀ u, goodArg u →
      (s.lock.tag = .empty → sets (.tagFirst unit value) 0x9B (.firstSet u value)) ∧
      (s.lock.tag ≠ .empty → drops (.tagFirst unit value) 0x9B .badSequence) ∧
      (∀ v first, s.lock.tag = .firstSet v first →
        (u = v → first ≤ value → (u = .selection → first / 10 = value / 10) →
          sets (.tagLast unit value) 0x9D (.rangeSet u first value [])) ∧
        (u ≠ v ∨ value < first ∨ (u = .selection ∧ first / 10 ≠ value / 10) →
          drops (.tagLast unit value) 0x9D .badArgument)) ∧
      ((∀ v first, s.lock.tag ≠ .firstSet v first) → drops (.tagLast unit value) 0x9D .badSequence)) ∧
    (validCode value = false → drops (.untag value) 0x9F .badArgument) ∧
    (validCode value = true →
      ((∀ u f l off, s.lock.tag ≠ .rangeSet u f l off) → drops (.untag value) 0x9F .badSequence) ∧
      ∀ u f l off, s.lock.tag = .rangeSet u f l off →
        (inRange u f l value = false → drops (.untag value) 0x9F .badArgument) ∧
        (inRange u f l value = true → value ∈ off → sets (.untag value) 0x9F (.rangeSet u f l off)) ∧
        (inRange u f l value = true → value ∉ off →
          (off.length < 8 → sets (.untag value) 0x9F (.rangeSet u f l (off ++ [value]))) ∧
          (8 ≤ off.length → drops (.untag value) 0x9F .badSequence)))

/-- Apply acts on every selection of the tagged set and on no other, skips for ENABLE and RESTOCK those held
or without a spiral, counts both, and empties the record; a vend of a tagged selection makes it BUSY, with the
record left as it was (R181). -/
def Obligations.ApplyActsOnTheTaggedSet : Prop :=
  ∀ (price : Nat) (u : TagUnit) (first last : Nat) (off : List Nat) (s : State), Ready s → unlocked s →
    s.lock.tag = .rangeSet u first last off → s.sels.length = 64 → s.tables.sels.length = 64 →
    let set : Nat → Bool := tagged u first last off
    let acts : Nat → Bool := fun i => set i && !skipped s i
    let count : (Nat → Bool) → List Byte := fun f => char ((List.range 64).countP f)
    ((∀ v, s.drive.vend = some v → 64 ≤ v.sel ∨ set v.sel = false) →
      (Replies (.applySetPrice price) s 0xA1 .done (count set ++ char 0) applyParts fun t =>
        t.lock.tag = .empty ∧ t.storeDefaults = false ∧
        ∀ i < 64, t.tables.sel i = if set i then { s.tables.sel i with price := price } else s.tables.sel i) ∧
      (Replies .applyInhibit s 0xA1 .done (count set ++ char 0) [.tag, .sels] fun t => t.lock.tag = .empty ∧
        ∀ i < 64, t.sel i = if set i then { s.sel i with state := .inhibited } else s.sel i) ∧
      (Replies .applyEnable s 0xA1 .done (count acts ++ count fun i => set i && skipped s i) [.tag, .sels]
        fun t => t.lock.tag = .empty ∧
          ∀ i < 64, t.sel i = if acts i then { s.sel i with state := .enabled } else s.sel i) ∧
      (Replies .applyRestock s 0xA1 .done (count acts ++ count fun i => set i && skipped s i)
        [.tag, .sels, .spirals] fun t => t.lock.tag = .empty ∧
          (∀ i < 64, t.sel i = if acts i = true ∧ (s.sel i).state = .soldOut
            then { s.sel i with state := .enabled } else s.sel i) ∧
          ∀ p, t.spiral p = if (s.spiral p).state = .empty ∧
              ((List.range 64).any fun i => acts i && (s.tables.sel i).spirals.contains p) = true
            then { s.spiral p with state := .ready } else s.spiral p)) ∧
    (∀ v, s.drive.vend = some v → v.sel < 64 → set v.sel = true →
      ∀ c ∈ [Instr.applySetPrice price, .applyInhibit, .applyEnable, .applyRestock],
        Replies c s 0xA1 .busy [] [] fun t => t.lock.tag = .rangeSet u first last off)

/-- Fill mode and economy mode: their checks in order, the blocking set of a refused economy mode, and the
masks that fill mode leaves (R16, R35, R182, R184). The route mask with no validator slot is that of R36 (log 58). -/
def Obligations.ModesAreEnteredUnderTheirChecks : Prop :=
  ∀ s : State, Ready s → unlocked s →
    (s.lock.fill = true → Replies .fillModeOff s 0xA3 .done [] (.tag :: .fill :: maskParts) fun t =>
      t.lock.fill = false ∧ t.change.route = routeMask s) ∧
    (s.lock.fill = false → Replies .fillModeOff s 0xA3 .done [] [.tag] fun _ => True) ∧
    (s.lock.fill = true → Replies .fillModeOn s 0xA3 .done [] [.tag] fun _ => True) ∧
    (s.lock.fill = false →
      (s.doorOpen = false → Refuses .fillModeOn s 0xA3 .doorClosed []) ∧
      (s.doorOpen = true → s.credit.sale ≠ .idle → Refuses .fillModeOn s 0xA3 .busy []) ∧
      (s.doorOpen = true → s.credit.sale = .idle →
        Replies .fillModeOn s 0xA3 .done [] (.tag :: .fill :: maskParts) fun t =>
          t.lock.fill = true ∧ t.credit.noteMask = 0 ∧ t.change.route = routeMask s ∧
          (s.periphPresent .validator = true → t.change.accept = t.change.route))) ∧
    (Replies .economyModeOff s 0xA5 .done [] [.tag, .economy] fun t => t.lock.economy = false) ∧
    (s.lock.economy = true → Replies .economyModeOn s 0xA5 .done [] [.tag] fun _ => True) ∧
    (s.lock.economy = false →
      let blocks := (if s.credit.sale = .idle then 0 else 1) + (if s.credit.escrow = none then 0 else 2) +
        (if s.cold.state = .starting ∨ s.cold.state = .defrost then 4 else 0) +
        (if s.doorOpen then 8 else 0)
      (blocks ≠ 0 → Refuses .economyModeOn s 0xA5 .busy (char blocks)) ∧
      (blocks = 0 → Replies .economyModeOn s 0xA5 .done [] [.tag, .economy] fun t => t.lock.economy = true))

/-- The door: five agreeing reads change its state with SERVICE_DOOR; an opening ends economy mode, a closing
ends a session and fill mode; the first state accepted raises no event (R173). -/
def Obligations.DoorChangesEndModesAndSessions : Prop :=
  ∀ s : State, s.phase = .run →
    (s.lock.door.accepted = some false →
      Completes (.serviceDoor [true, true, true, true, true]) s [.door, .events, .economy] fun t =>
        t.doorOpen = true ∧ t.lock.economy = false ∧
        t.events =
          let e := s.events.place (eventAt s.seconds .serviceDoor none (val 1))
          if s.lock.economy then e.place (eventAt s.seconds .modeEnded none (some (pack 0 0 1 0))) else e) ∧
    (s.lock.door.accepted = some true →
      Completes (.serviceDoor [false, false, false, false, false]) s doorParts fun t =>
        t.doorOpen = false ∧ t.lock.fill = false ∧ t.lock.economy = s.lock.economy ∧
        (s.lock.state = .unlocked → t.lock.state = .locked ∧ t.lock.tag = .empty) ∧
        t.events =
          let e := s.events.place (eventAt s.seconds .serviceDoor none (val 0))
          if s.lock.fill then e.place (eventAt s.seconds .modeEnded none (some (pack 0 0 0 0))) else e) ∧
    (s.lock.door.accepted = none → ∀ b : Bool,
      Completes (.serviceDoor [b, b, b, b, b]) s [.door] fun t => t.lock.door.accepted = some b)

/-! ### Service requests of other blocks -/

/-- Drain, Test Spiral, Home Spiral and Defrost Now start their operations under their checks in order
(R44, R86, R105, R108, R183). That a Defrost Now outside STARTING begins its defrost though an earlier request is still
pending is the model's choice (log 52). -/
def Obligations.ServiceOperationsAreStarted : Prop :=
  ∀ (n k p : Nat) (s : State), Ready s → unlocked s →
    (5 < n ∨ k = 0 ∨ 250 < k → Refuses (.drain n k) s 0xA7 .badArgument []) ∧
    (n ≤ 5 → 1 ≤ k → k ≤ 250 →
      (s.doorOpen = false → Refuses (.drain n k) s 0xA7 .doorClosed []) ∧
      (s.doorOpen = true → s.credit.sale ≠ .idle → Refuses (.drain n k) s 0xA7 .busy []) ∧
      (s.doorOpen = true → s.credit.sale = .idle → s.credit.inFlight = none →
        Replies (.drain n k) s 0xA7 .started [] [.tag, .sale, .payout, .grants] fun t =>
          t.change.payout = some (newPayout (.drain n k)) ∧ t.credit.sale = .payout ∧
          t.supply.asked .payout)) ∧
    (∀ home : Bool,
      let c := if home then Instr.homeSpiral p else Instr.testSpiral p
      let kind := if home then 0xB3 else 0xB1
      (63 < p ∨ (home = true ∧ (s.spiral p).state ≠ .notHome) → Refuses c s kind .badArgument []) ∧
      (p ≤ 63 → (home = true → (s.spiral p).state = .notHome) →
        (s.doorOpen = false → Refuses c s kind .doorClosed []) ∧
        (s.doorOpen = true → s.credit.sale ≠ .idle ∨ s.drive.service.isSome = true →
          Refuses c s kind .busy []) ∧
        (s.doorOpen = true → s.credit.sale = .idle → s.drive.service = none →
          Replies c s kind .started [] [.tag, .serviceOp, .grants] fun t =>
            t.drive.service = some { home := home, spiral := p, params := s.tables.drive, told := false } ∧
            t.supply.asked .motor))) ∧
    (s.cold.state = .defrost ∨ s.cold.state = .drip → Refuses .defrostNow s 0xAD .busy []) ∧
    (s.cold.state = .starting → Replies .defrostNow s 0xAD .started [] [.tag, .defrost] fun t =>
      t.cold.pendingDefrost = true ∧ t.cold.heater = s.cold.heater) ∧
    (s.cold.state = .lockedOff ∨ s.cold.state = .idle ∨ s.cold.state = .awaitGrant ∨
        s.cold.state = .running →
      Replies .defrostNow s 0xAD .started [] [.tag, .compressor, .defrost, .grants, .events] fun t =>
        t.cold.state = .defrost ∧ t.cold.runSince = 0 ∧ t.cold.heaterOn = 0 ∧
        t.cold.pendingDefrost = false ∧ t.supply.asked .heater ∧
        (s.cold.state = .running → t.cold.relay = false ∧ t.cold.offTimer = some s.tables.refrig.minOffMs) ∧
        t.events = s.events.place (eventAt s.seconds .defrostBegin none (val 1)))

/-- Clear Audit (R25). -/
def Obligations.ClearAuditZeroesTotalsInIdle : Prop :=
  (∀ s : State, Ready s →
    (s.lock.state = .locked → Refuses .clearAudit s 0xA9 .locked []) ∧
    (unlocked s →
      (s.credit.sale = .idle → Replies .clearAudit s 0xA9 .done [] [.tag, .audit, .sels] fun t =>
        t.audit = Audit.zero ∧ (∀ i, t.sel i = { s.sel i with sales := 0 }) ∧
        (CreditLaw s → t.credit.credit = 0 ∧ t.credit.vendHold = 0 ∧ t.credit.escrowReserve = 0 ∧
          t.credit.returnDue = 0 ∧ balanced 0 0 0 t.audit) ∧
        (retainedOf t).audit = Audit.zero ∧ ∀ n ∈ (retainedOf t).sales, n = 0) ∧
      (s.credit.sale ≠ .idle → Refuses .clearAudit s 0xA9 .busy []))) ∧
  ∀ s : State, (factoryClear s).audit = Audit.zero ∧ ∀ i, ((factoryClear s).sel i).sales = 0

/-- Settle (R26). -/
def Obligations.SettleWritesOffWhatIsOwed : Prop :=
  ∀ s : State, Ready s →
    (s.lock.state = .locked → Refuses .settle s 0xAB .locked []) ∧
    (unlocked s →
      (s.credit.sale = .opened →
        Replies .settle s 0xAB .done (word s.credit.returnDue) [.tag, .amounts, .audit, .shortWait, .sale]
          fun t => t.credit.returnDue = 0 ∧ t.credit.credit = s.credit.credit ∧
            t.credit.vendHold = s.credit.vendHold ∧ t.credit.escrowReserve = s.credit.escrowReserve ∧
            t.audit = { s.audit with writtenOff := addTotal s.audit.writtenOff s.credit.returnDue } ∧
            t.credit.sale = saleOf t ∧
            (CreditLaw s → s.credit.credit = 0 → s.credit.escrowReserve = 0 → t.credit.sale = .idle)) ∧
      (s.credit.sale ≠ .opened → Refuses .settle s 0xAB .busy []))

/-- Release Hold: four checks in order, then the latch and the timer clear (R111). That F is compared with the hold
limit loaded last, before the zone's next sample too, is the model's choice (log 53). -/
def Obligations.ReleaseHoldNeedsAColdZone : Prop :=
  ∀ (z : Nat) (s : State), Ready s →
    (s.lock.state = .locked → Refuses (.releaseHold z) s 0xB5 .locked []) ∧
    (unlocked s →
      (1 < z → Refuses (.releaseHold z) s 0xB5 .badArgument (char 0)) ∧
      (z ≤ 1 →
        ((s.zone z).latched = false → Refuses (.releaseHold z) s 0xB5 .badArgument (char 1)) ∧
        ((s.zone z).latched = true →
          ((s.sensor z).faulted = true ∨ (s.sensor z).temp = none →
            Refuses (.releaseHold z) s 0xB5 .badArgument (char 2)) ∧
          ((s.sensor z).faulted = false → ∀ f, (s.sensor z).temp = some f →
            ((s.tables.zone z).holdLimit < f → Refuses (.releaseHold z) s 0xB5 .badArgument (char 3)) ∧
            (f ≤ (s.tables.zone z).holdLimit →
              Replies (.releaseHold z) s 0xB5 .done [] [.tag, .zones, .events] fun t =>
                (t.zone z).latched = false ∧ (t.zone z).holdTimer = 0 ∧
                t.zone (1 - z) = s.zone (1 - z) ∧
                (∀ i, (t.tables.sel i).zone = z → selHeld t i = false) ∧
                t.events = s.events.place (eventAt s.seconds .holdReleased (some z) (ival f)))))))

/-! ### Temperatures, the compressor and defrost -/

/-- Conversion interpolates between two curve points and rounds toward negative infinity; with the points in
range the clamp changes nothing (R93). -/
def Obligations.ConversionInterpolatesTheCurve : Prop :=
  ∀ (t : Tables) (c : Nat), c < 4096 →
    let k := c / 256
    let r : Int := (c - 256 * k : Nat)
    let rise := t.point (k + 1) - t.point k
    k ≤ 15 ∧ 0 ≤ r ∧ r ≤ 255 ∧
    (∃ x : Int, 256 * x ≤ rise * r ∧ rise * r < 256 * (x + 1) ∧
      convert t c = max (-400) (min 800 (t.point k + x))) ∧
    ((∀ j ≤ 16, -400 ≤ t.point j ∧ t.point j ≤ 800) →
      -(1200 * 255) ≤ rise * r ∧ rise * r ≤ 1200 * 255 ∧
      256 * (convert t c - t.point k) ≤ rise * r ∧ rise * r < 256 * (convert t c - t.point k + 1)) ∧
    ∀ (q : Fin 3) (n : BitVec 12) (s : State), n.toNat = c → s.phase = .run → s.cold.sensors.length = 3 →
      s.tables = t → 16 ≤ c → c ≤ 4079 → (s.sensor q).faulted = false →
      ∃ u, exec (.temperatureSample q n) s = .next u ∧ u.sensor q = (s.sensor q).after c (convert t c) ∧
        ((s.sensor q).temp = none → (u.sensor q).temp = some (convert t c))

/-- A sample updates its own sensor record by the filter and the fault rules, with their events; a zone's
sample then applies the thermostat, or the duty cycle's begin and end, to that zone's demand
(R91, R94 to R96, R98, R99). -/
def Obligations.SamplesFilterAndSwitchTheDemand : Prop :=
  (∀ (k : Fin 3) (c : BitVec 12) (s : State), s.phase = .run → s.cold.sensors.length = 3 →
    s.cold.zones.length = 2 →
    let x := s.sensor k
    let y := x.after c.toNat (convert s.tables c.toNat)
    ∃ t, exec (.temperatureSample k c) s = .next t ∧ Alters (sampleParts ++ dueParts) s t ∧
      t.sensor k = y ∧ (∀ j, j ≠ k.val → t.sensor j = s.sensor j) ∧ (∀ z, z ≠ k.val → t.zone z = s.zone z) ∧
      (x.faulted = false → y.faulted = true →
        RaisesFirst s t .sensorFault (some k) (val c.toNat) ∧ exec (.sensorFault k c) s = .next t) ∧
      (¬(x.faulted = false ∧ y.faulted = true) → exec (.sensorFault k c) s = .next (finish s)) ∧
      (x.faulted = true → y.faulted = false →
        RaisesFirst s t .sensorOk (some k) (ival (convert s.tables c.toNat)) ∧
        exec (.sensorOk k c) s = .next t) ∧
      (¬(x.faulted = true ∧ y.faulted = false) → exec (.sensorOk k c) s = .next (finish s))) ∧
  ∀ (z : Fin 2) (c : BitVec 12) (s : State), s.phase = .run → s.cold.sensors.length = 3 →
    s.cold.zones.length = 2 →
    let x := s.sensor z
    let y := x.after c.toNat (convert s.tables c.toNat)
    let p := s.tables.zone z
    let middle := p.setpoint + (if s.lock.economy then p.economyOffset else 0 : Nat)
    ∃ t, exec (.temperatureSample (z.castLE (by decide)) c) s = .next t ∧
      (y.faulted = true → (t.zone z).duty = if x.faulted then (s.zone z).duty else some true) ∧
      (y.faulted = false → (t.zone z).duty = if x.faulted then none else (s.zone z).duty) ∧
      (y.faulted = true → (t.zone z).demand = if x.faulted then (s.zone z).demand else true) ∧
      (y.faulted = false → y.temp = none → (t.zone z).demand = (s.zone z).demand) ∧
      ∀ f, y.faulted = false → y.temp = some f →
        (middle + ((p.differential + 1) / 2 : Nat) ≤ f → (t.zone z).demand = true) ∧
        (f < middle + ((p.differential + 1) / 2 : Nat) →
          (f ≤ middle - (p.differential / 2 : Nat) → (t.zone z).demand = false) ∧
          (middle - (p.differential / 2 : Nat) < f → (t.zone z).demand = (s.zone z).demand))

/-- A zone's hold timer grows at warm samples, starts again at a cold one, and latches the hold at the hold
time with ZONE_HOLD; a vend of a perishable selection of that zone then ends HELD, uncharged. At a start the
first sample latches at once (R66, R109, R110). -/
def Obligations.HoldLatchesAtItsTimeAndEndsAVend : Prop :=
  ∀ (z : Fin 2) (c : BitVec 12) (s : State), s.cold.sensors.length = 3 → s.cold.zones.length = 2 →
    let sensor : Fin 3 := z.castLE (by decide)
    let y := (s.sensor z).after c.toNat (convert s.tables c.toNat)
    let p := s.tables.zone z
    let warm := y.faulted = true ∨ ∀ f, y.temp = some f → p.holdLimit < f
    let calm : List Part := [.sensors, .zones, .compressor, .damper, .grants, .events]
    (s.phase = .run → (s.sensor z).sampled = true →
      ((s.zone z).latched = true →
        Completes (.temperatureSample sensor c) s calm (fun t => (t.zone z).latched = true ∧
          (t.zone z).holdTimer = (s.zone z).holdTimer) ∧
        exec (.zoneHold z c) s = .next (finish s)) ∧
      ((s.zone z).latched = false →
        (¬warm →
          Completes (.temperatureSample sensor c) s calm (fun t => (t.zone z).latched = false ∧
            (t.zone z).holdTimer = 0) ∧
          exec (.zoneHold z c) s = .next (finish s)) ∧
        (warm → (s.zone z).holdTimer + 1 < p.holdTime →
          Completes (.temperatureSample sensor c) s calm (fun t => (t.zone z).latched = false ∧
            (t.zone z).holdTimer = (s.zone z).holdTimer + 1) ∧
          exec (.zoneHold z c) s = .next (finish s)) ∧
        (warm → p.holdTime ≤ (s.zone z).holdTimer + 1 →
          Completes (.zoneHold z c) s sampleParts fun t =>
            exec (.temperatureSample sensor c) s = .next t ∧
            (t.zone z).latched = true ∧ (t.zone z).holdTimer = 0 ∧
            Raises s t .zoneHold (some z.val) (some (holdValue y)) ∧
            ((∀ v, s.drive.vend = some v → (s.tables.sel v.sel).perishable = false ∨
                (s.tables.sel v.sel).zone ≠ z) → Alters (calm ++ dueParts) s t) ∧
            ∀ v, s.drive.vend = some v → (s.tables.sel v.sel).perishable = true →
              (s.tables.sel v.sel).zone = z → t.drive.vend = none ∧
              (v.drop = false → s.credit.inFlight.isSome = true → s.credit.pendingReturn = false →
                t.credit.inFlight = none ∧ t.credit.vendHold = 0 ∧
                t.credit.credit = s.credit.credit + s.credit.vendHold ∧
                Raises s t .vendFailed (some v.sel) (some (pack 0 0 0 3)))))) ∧
    ∀ cause, s.phase = .sampling cause → s.sensor z = { TempSensor.initial with raw := (s.sensor z).raw } →
      ∃ t, exec (.temperatureSample sensor c) s = .next t ∧ Alters (.phase :: .receiver :: calm) s t ∧
        ((t.zone z).latched = true ↔ (s.zone z).latched = true ∨ c.toNat < 16 ∨ 4079 < c.toNat ∨
          p.holdLimit < convert s.tables c.toNat)

/-- An evaporator sample grows the heater-on time and ends a defrost warm enough or long enough; it grows the
run time of a running compressor and begins the defrost that is due, but in STARTING, where it waits (R105,
R106, R108; the tick taken with this sample is log 9). -/
def Obligations.EvaporatorSamplesBeginAndEndDefrost : Prop :=
  ∀ (c : BitVec 12) (s : State), s.phase = .run → s.cold.sensors.length = 3 →
    let y := (s.sensor 2).after c.toNat (convert s.tables c.toNat)
    let warm := y.faulted = false ∧ ∃ f, y.temp = some f ∧ s.tables.refrig.defrostEndTemp ≤ f
    let on := s.cold.heaterOn + if s.cold.heater then 1 else 0
    let grown := min 4294967295 (s.cold.runSince + 1)
    let parts : List Part := [.sensors, .compressor, .defrost, .grants, .events]
    (s.cold.state = .defrost →
      (warm ∨ s.tables.refrig.maxDefrost ≤ on → Completes (.defrostEnd c) s parts fun t =>
        exec (.temperatureSample 2 c) s = .next t ∧ t.cold.state = .drip ∧ t.cold.heater = false ∧
        t.cold.heaterOn = on ∧ t.cold.dripTimer = some s.tables.refrig.dripMs ∧
        t.supply.granted.heater = false ∧ t.supply.waiting.heater = false ∧
        (warm → Raises s t .defrostEnd none (some (pack 0 (on / 65536) (on / 256) on))) ∧
        (¬warm → Raises s t .defrostEnd none (some (pack 1 (on / 65536) (on / 256) on)))) ∧
      (¬warm → on < s.tables.refrig.maxDefrost → exec (.defrostEnd c) s = .next (finish s) ∧
        Completes (.temperatureSample 2 c) s parts fun t => t.cold.state = .defrost ∧
          t.cold.heaterOn = on ∧ t.cold.heater = s.cold.heater)) ∧
    (s.cold.state = .lockedOff ∨ s.cold.state = .idle ∨ s.cold.state = .awaitGrant ∨
        s.cold.state = .running →
      let run := if s.cold.state = .running then grown else s.cold.runSince
      (s.cold.pendingDefrost = true ∨ s.tables.refrig.defrostInterval ≤ run →
        Completes (.defrostInterval c) s parts fun t => exec (.temperatureSample 2 c) s = .next t ∧
          t.cold.state = .defrost ∧ t.cold.runSince = 0 ∧ t.cold.heaterOn = 0 ∧
          t.cold.pendingDefrost = false ∧ t.supply.asked .heater ∧
          (s.cold.state = .running → t.cold.relay = false ∧ t.cold.offTimer = some s.tables.refrig.minOffMs ∧
            t.supply.granted.compRun = false) ∧
          Raises s t .defrostBegin none (val (if s.cold.pendingDefrost then 1 else 0))) ∧
      (s.cold.pendingDefrost = false → run < s.tables.refrig.defrostInterval →
        exec (.defrostInterval c) s = .next (finish s) ∧
        Completes (.temperatureSample 2 c) s parts fun t => t.cold.state = s.cold.state ∧
          t.cold.runSince = run)) ∧
    (s.cold.state = .starting →
      Completes (.temperatureSample 2 c) s parts (fun t =>
        t.cold.state = .starting ∧ t.cold.runSince = grown) ∧
      (s.tables.refrig.defrostInterval ≤ grown →
        exec (.defrostInterval c) s = exec (.temperatureSample 2 c) s) ∧
      (grown < s.tables.refrig.defrostInterval → exec (.defrostInterval c) s = .next (finish s))) ∧
    (s.cold.state = .drip → Completes (.temperatureSample 2 c) s parts fun t =>
      t.cold.state = .drip ∧ t.cold.runSince = s.cold.runSince)

/-- The compressor, the heater and the duty cycle act on their grants and timers: a start under its grant, a
stop past the minimum run time, the end of the off time and of the drip time, and the change of a phase
(R99, R100, R102 to R104, R106, R107). -/
def Obligations.CompressorFollowsItsGrantsAndTimers : Prop :=
  ∀ s : State, s.phase = .run →
    let wanted := ∃ x ∈ s.cold.zones, x.demand = true
    (s.cold.state = .awaitGrant → s.supply.granted.compStart = true →
      exec .compStartGrant s = .next (finish { s with
        cold.relay := true, cold.runTimer := .running s.tables.refrig.minRunMs,
        cold.surgeTimer := some s.tables.refrig.surgeMs, cold.state := .starting })) ∧
    (s.cold.state ≠ .awaitGrant ∨ s.supply.granted.compStart = false →
      exec .compStartGrant s = .next (finish s)) ∧
    ((∃ n, s.cold.runTimer = .running n) →
      (s.cold.state ≠ .running ∨ wanted →
        exec .minimumRunTime s = .next (finish { s with cold.runTimer := .passed })) ∧
      (s.cold.state = .running → ¬wanted → Completes .minimumRunTime s [.compressor, .grants] fun t =>
        t.cold.state = .lockedOff ∧ t.cold.relay = false ∧ t.cold.runTimer = .off ∧
        t.cold.offTimer = some s.tables.refrig.minOffMs ∧ t.supply.granted.compRun = false)) ∧
    (s.cold.offTimer.isSome = true →
      (s.cold.state ≠ .lockedOff → exec .offTimerExpiry s = .next (finish { s with cold.offTimer := none })) ∧
      (s.cold.state = .lockedOff → Completes .offTimerExpiry s [.compressor, .grants] fun t =>
        t.cold.offTimer = none ∧ (¬wanted → t.cold.state = .idle) ∧
        (wanted → t.cold.state = .awaitGrant ∧ t.supply.asked .compStart))) ∧
    (s.cold.state = .defrost → s.supply.granted.heater = true →
      exec .heaterGrant s = .next (finish { s with cold.heater := true })) ∧
    (s.cold.state ≠ .defrost ∨ s.supply.granted.heater = false → exec .heaterGrant s = .next (finish s)) ∧
    (s.cold.state = .drip → s.cold.dripTimer.isSome = true →
      Completes .dripTimeEnd s [.compressor, .defrost, .grants] fun t => t.cold.dripTimer = none ∧
        (s.cold.offTimer.isSome = true → t.cold.state = .lockedOff) ∧
        (s.cold.offTimer = none → ¬wanted → t.cold.state = .idle) ∧
        (s.cold.offTimer = none → wanted → t.cold.state = .awaitGrant ∧ t.supply.asked .compStart)) ∧
    ∀ z : Fin 2, s.cold.zones.length = 2 →
      ((s.zone z).duty = none → exec (.dutyCyclePhase z) s = .next (finish s)) ∧
      ∀ on, (s.zone z).duty = some on →
        Completes (.dutyCyclePhase z) s [.zones, .damper, .compressor, .grants] fun t =>
          t.zone z = { s.zone z with duty := some (!on), demand := !on } ∧
          t.zone (1 - z.val) = s.zone (1 - z.val) ∧
          (z = 0 → t.cold.damper = s.cold.damper) ∧
          (z = 1 → (s.zone 1).demand = on → t.cold.damper = !on) ∧
          ((s.zone z).demand = false → on = false → s.cold.state = .idle →
            t.cold.state = .awaitGrant ∧ t.supply.asked .compStart) ∧
          ((s.zone z).demand = true → on = true → (s.zone (1 - z.val)).demand = false →
            (s.cold.state = .awaitGrant → t.cold.state = .idle) ∧
            (s.cold.state = .running → s.cold.runTimer = .passed → t.cold.state = .lockedOff ∧
              t.cold.relay = false))

/-- At the end of the surge window COMP_START is exchanged for COMP_RUN in one step, or the compressor stops;
the grant rule follows (R119). A compressor no longer wanted whose minimum run time has passed in STARTING stops
on entering RUNNING: the model's reading of R103 (log 19). -/
def Obligations.SurgeWindowEndExchangesTheGrant : Prop :=
  ∀ s : State, s.phase = .run → s.cold.state = .starting → s.cold.surgeTimer.isSome = true →
    let fits := s.grantedSum - s.tables.loads.compStart + s.tables.loads.compRun ≤ s.effectiveBudget
    (fits → s.cold.runTimer ≠ .passed ∨ (∃ x ∈ s.cold.zones, x.demand = true) →
      exec .surgeWindowEnd s = .next (finish (grantRule { s with
        cold.surgeTimer := none, cold.state := .running,
        supply.granted := { s.supply.granted with compStart := false, compRun := true } }))) ∧
    (fits → s.cold.runTimer = .passed → (∀ x ∈ s.cold.zones, x.demand = false) →
      Completes .surgeWindowEnd s [.compressor, .grants] fun t => t.cold.state = .lockedOff ∧
        t.cold.relay = false ∧ t.supply.granted.compRun = false) ∧
    (¬fits → exec .surgeWindowEnd s = .next (finish (grantRule { s with
      cold.relay := false, cold.runTimer := .off, cold.surgeTimer := none,
      cold.offTimer := some s.tables.refrig.minOffMs, cold.state := .lockedOff,
      supply.granted := { s.supply.granted with compStart := false },
      supply.waiting := { s.supply.waiting with compStart := false } }))) ∧
    (BudgetLaw s → s.tables.loads.compRun ≤ s.tables.loads.compStart → fits) ∧
    defaultTables.loads.compStart = 30 ∧ defaultTables.loads.compRun = 12

/-! ### Load grants -/

/-- The grant rule moves waiters to the grant set in their priority while they fit, takes no grant away, stops
at the first waiter that does not fit, and grants nothing while the sum stands above the budget (R117, R118). -/
def Obligations.GrantRuleKeepsPriorityAndBudget : Prop :=
  ∀ s : State,
    let t := grantRule s
    Alters [.grants] s t ∧
    (∀ x, t.supply.granted.has x = true ↔
      s.supply.granted.has x = true ∨ (s.supply.waiting.has x = true ∧ t.supply.waiting.has x = false)) ∧
    (∀ x, t.supply.waiting.has x = true → s.supply.waiting.has x = true) ∧
    (s.grantedSum ≤ s.effectiveBudget → t.grantedSum ≤ s.effectiveBudget) ∧
    (s.effectiveBudget < s.grantedSum →
      t.supply.granted = s.supply.granted ∧ t.supply.waiting = s.supply.waiting) ∧
    ∀ (before after : List Load) (x : Load), [.payout, .motor, .compStart, .heater] = before ++ x :: after →
      t.supply.waiting.has x = true → (∀ y ∈ before, t.supply.waiting.has y = false) →
      t.effectiveBudget < t.grantedSum + t.tables.loads.rating x ∧
      ∀ y ∈ after, t.supply.granted.has y = s.supply.granted.has y

/-! ### Tubes, change and payouts -/

/-- A change plan covers the six tubes in plan order, takes no more than a tube's usable count, and accounts
for the whole amount. It is the greedy plan where that is exact; else it is the first exact trial of the backoff,
in which one tube takes one to four coins fewer, those before it keep their takes and those after it are greedy
on the rest; else it is the greedy plan, which leaves a residual only when no usable coin fits it (R39 to R42). -/
def Obligations.ChangePlanAccountsForTheWholeAmount : Prop :=
  ∀ (s : State) (amount : Nat),
    let ts := planTubes s
    let plan := changePlan s amount
    plan.takes.map (·.1) = ts.map (·.tube) ∧ (ts.map (·.tube)).Perm (List.range 6) ∧
    ts.Pairwise (fun a b => b.value < a.value ∨ (a.value = b.value ∧
      (b.usable < a.usable ∨ (a.usable = b.usable ∧ a.tube < b.tube)))) ∧
    (∀ e ∈ plan.takes, e.2 ≤ usableCount s e.1) ∧
    (plan.takes.map fun e => e.2 * s.tables.tubeValue e.1).sum + plan.residual = amount ∧
    let stage1 := greedy ts amount
    let value : Nat → Nat := fun i => s.tables.tubeValue ((ts.map (·.tube)).getD i 0)
    let take : Nat → Nat := fun i => stage1.1.getD i 0
    let trial : Nat → Nat → List Nat × Nat := fun i d => greedy (ts.drop (i + 1))
      (amount - (((List.range i).map fun j => take j * value j).sum + (take i - d) * value i))
    let formed : Nat → Nat → Prop := fun i d => i < 6 ∧ 1 ≤ d ∧ d ≤ min (take i) 4
    (stage1.2 = 0 → plan.exact = true ∧ plan.takes.map (·.2) = stage1.1) ∧
    (stage1.2 ≠ 0 →
      (∀ i d, formed i d → (trial i d).2 = 0 →
        (∀ j e, formed j e → j < i ∨ (j = i ∧ e < d) → (trial j e).2 ≠ 0) →
        plan.exact = true ∧ plan.takes.map (·.2) = stage1.1.take i ++ (take i - d) :: (trial i d).1) ∧
      ((∀ i d, formed i d → (trial i d).2 ≠ 0) → plan.residual = stage1.2)) ∧
    (plan.exact = false → plan.takes.map (·.2) = stage1.1 ∧
      ∀ e ∈ plan.takes, e.2 < usableCount s e.1 → 0 < s.tables.tubeValue e.1 →
        plan.residual < s.tables.tubeValue e.1)

/-- From start step 4 on every step keeps EXACT in agreement with the tubes: it holds just when some probe amount
cannot be paid exactly. A re-evaluation that changes it raises EXACT_ON with the first amount found short, or
EXACT_OFF with 0, and recomputes the note mask; one that does not change it does nothing (R43). -/
def Obligations.ExactFollowsTheTubes : Prop :=
  (∀ s t : State, ExactLaw s → step s = .next t → ExactLaw t) ∧
  ∀ s : State,
    let t := evalExact s
    let parts : List Part := [.exact, .events, .noteMask, .cmdQueue, .lineCounts, .maskRecs]
    (t.change.exact = true ↔ ∃ k, probeShort s k) ∧
    (t.change.exact = s.change.exact → t = s) ∧
    (t.change.exact ≠ s.change.exact → Alters parts s t ∧ (s.phase = .run → t.credit.noteMask = noteMask t) ∧
      (∀ k, probeShort s k → (∀ j, probeShort s j → k ≤ j) → t.events = s.events.place
        (eventAt s.seconds .exactOn none (val (k * s.tables.money.granularity)))) ∧
      ((∀ k, ¬probeShort s k) → t.events = s.events.place (eventAt s.seconds .exactOff none (val 0))))

/-- Three agreeing reads that differ from a level sensor's accepted state change it and reconcile its tube by
the first test that matches, in normal operation and from the end of start step 4 on; Clear Tube Fault makes a
FAULTED tube OK and reconciles it likewise (R37, R38, R53, R127). That EXACT is re-evaluated once, after both changes of
a Clear Tube Fault, so that a TUBE_FAULT comes before any change of EXACT, is the model's choice (log 50). -/
def Obligations.LevelSensorsReconcileTheirTube : Prop :=
  ∀ (n : Fin 6) (s : State), s.samplingOn = true →
    (∀ c, s.phase = .sampling c → ∃ k ∈ s.cold.sensors, k.sampled = false) → s.change.tubes.length = 6 →
    let x := s.tube n
    let r := s.tables.tube n
    let tested : TubeCond → Option Bool → Option Bool → State → Prop := fun cond full low t =>
      let disagree := full = some true ∧ 0 < r.lowMark ∧ low = some false
      (∀ m, m ≠ n.val → t.tube m = s.tube m) ∧
      (disagree → (t.tube n).count = x.count ∧ (t.tube n).cond = (if cond = .ok then .faulted else cond) ∧
        (cond = .ok → RaisesFirst s t .tubeFault (some n) (some (pack 0 0 0 0)))) ∧
      (¬disagree → (t.tube n).cond = cond ∧
        (full = some true → x.count < r.capacity → (t.tube n).count = r.capacity ∧
          RaisesFirst s t .tubeCorrected (some n) (some (pack 0 2 x.count r.capacity))) ∧
        (¬(full = some true ∧ x.count < r.capacity) →
          (low = some false → 0 < r.lowMark → r.lowMark ≤ x.count → (t.tube n).count = r.lowMark - 1 ∧
            RaisesFirst s t .tubeCorrected (some n) (some (pack 0 3 x.count (r.lowMark - 1)))) ∧
          (low = some true → x.count < r.lowMark → (t.tube n).count = r.lowMark ∧
            RaisesFirst s t .tubeCorrected (some n) (some (pack 0 3 x.count r.lowMark))) ∧
          ((low = none ∨ r.lowMark = 0 ∨ (low = some false ∧ x.count < r.lowMark) ∨
              (low = some true ∧ r.lowMark ≤ x.count)) → (t.tube n).count = x.count)))
    (∀ full b : Bool,
      ((x.sensor full).accepted = some b → Completes (.levelSensorChange n full [b, b, b]) s [.tubes] fun t =>
        (t.tube n).count = x.count ∧ (t.tube n).cond = x.cond ∧
        ((t.tube n).sensor full).accepted = some b ∧ ∀ m, m ≠ n.val → t.tube m = s.tube m) ∧
      ((x.sensor full).accepted ≠ some b →
        Completes (.levelSensorChange n full [b, b, b]) s coinParts fun t =>
          ((t.tube n).sensor full).accepted = some b ∧ (t.tube n).sensor (!full) = x.sensor (!full) ∧
          tested x.cond (if full then some b else x.full.accepted) (if full then x.low.accepted else some b)
            t)) ∧
    (Ready s → unlocked s →
      (x.cond ≠ .faulted → Refuses (.clearTubeFault n) s 0xAF .badArgument []) ∧
      (∀ m, 5 < m → Refuses (.clearTubeFault m) s 0xAF .badArgument []) ∧
      (x.cond = .faulted → Replies (.clearTubeFault n) s 0xAF .done [] (.tag :: coinParts) fun t =>
        tested .ok x.full.accepted x.low.accepted t ∧ t.change.shortWait = false ∧
        ∀ p, s.change.payout = some p → p.kind = .refund →
          ∃ q, t.change.payout = some q ∧ q.replan = true))

/-- A payout pulses under its grant, settles each coin seen, retries a missed coin once and then decides its
tube, and ends done, short, or with its drain's ending (R44 to R46, R48, R50, R51). -/
def Obligations.PayoutsArePaidCoinByCoin : Prop :=
  ∀ (p : Payout) (s : State), s.phase = .run → s.change.payout = some p → s.change.tubes.length = 6 →
    let due := s.credit.returnDue
    exec .pulseEnd s = .next (finish { s with change.payout := some { p with energised := none } }) ∧
    (p.held = true ∨ s.supply.granted.payout = false → exec .payoutGrant s = .next (finish s)) ∧
    (p.held = false → s.supply.granted.payout = true → p.retry = none →
      (p.kind = .refund →
        (∀ n, firstTake (changePlan s due).takes = some n → Completes .payoutGrant s [.payout] fun t =>
          ∃ q, t.change.payout = some q ∧ q.held = true ∧ q.plan = (changePlan s due).takes ∧ Pulses n false q) ∧
        (firstTake (changePlan s due).takes = none →
          Completes .payoutGrant s moneyParts (EndsShort due s))) ∧
      ∀ n k, p.kind = .drain n k → Completes .payoutGrant s [.payout] fun t =>
        ∃ q, t.change.payout = some q ∧ q.held = true ∧ Pulses n false q) ∧
    (p.pulsed = none → exec .exitWindowClose s = .next (finish s)) ∧
    ∀ n < 6, p.pulsed = some n →
      let v := s.tables.tubeValue n
      Completes .coinAtExitSensor s coinParts (fun t =>
        ((s.tube n).full.accepted ≠ some true → (s.tables.tube n).lowMark = 0 →
          (t.tube n).count = (s.tube n).count - 1) ∧
        ∃ q, t.change.payout = some q ∧ q.paid = p.paid + v ∧ q.windowCoins = p.windowCoins + 1 ∧
          q.retry = none ∧ q.pulsed = some n ∧
          (p.kind = .refund → t.credit.returnDue = due - min v due ∧ t.credit.credit = s.credit.credit ∧
            t.audit = { s.audit with changePaid := addTotal s.audit.changePaid v,
                                     excessPaid := addTotal s.audit.excessPaid (v - min v due) }) ∧
          ∀ m k, p.kind = .drain m k → q.kind = .drain m (k - 1) ∧ t.credit.returnDue = due ∧
            t.audit = { s.audit with drained := addTotal s.audit.drained v }) ∧
      (p.windowCoins = 0 → p.isRetry = false →
        (p.kind = .refund → due = 0 → Completes .exitWindowClose s moneyParts fun t =>
          t.change.payout = none ∧ RaisesFirst s t .payoutDone none (val p.paid)) ∧
        (p.kind = .refund → due ≠ 0 → Completes .exitWindowClose s [.payout] fun t =>
          ∃ q, t.change.payout = some q ∧ Pulses n true q) ∧
        ∀ k, p.kind = .drain n (k + 1) → (s.tube n).cond ≠ .faulted →
          Completes .exitWindowClose s [.payout] fun t => ∃ q, t.change.payout = some q ∧ Pulses n true q) ∧
      (p.windowCoins = 0 → p.isRetry = true → (s.tables.tube n).lowMark = 0 → (s.tube n).cond = .ok →
        Completes .exitWindowClose s coinParts fun t => (t.tube n).cond = .faulted ∧
          (t.tube n).count = (s.tube n).count ∧ RaisesFirst s t .tubeFault (some n) (some (pack 0 0 0 1)) ∧
          ∀ k, p.kind = .drain n (k + 1) → p.coins ≤ 255 → (due = 0 → t.change.payout = none) ∧
            Raises s t .drainDone (some n) (some (pack 0 0 2 p.coins))) ∧
      (p.windowCoins = 0 → p.isRetry = true → 0 < (s.tables.tube n).lowMark →
        (s.tube n).low.accepted = some false → (s.tube n).full.accepted ≠ some true →
        Completes .exitWindowClose s coinParts fun t => (t.tube n).count = 0 ∧
          (t.tube n).cond = (s.tube n).cond ∧
          RaisesFirst s t .tubeCorrected (some n) (some (pack 0 4 (s.tube n).count 0))) ∧
      (p.windowCoins ≠ 0 → p.kind = .refund → p.replan = false → p.retry = none →
        (due = 0 → Completes .exitWindowClose s moneyParts fun t => t.change.payout = none ∧
          t.supply.granted.payout = false ∧ RaisesFirst s t .payoutDone none (val p.paid)) ∧
        (due ≠ 0 →
          (∀ m, firstTake p.plan = some m → Completes .exitWindowClose s [.payout] fun t =>
            ∃ q, t.change.payout = some q ∧ q.plan = p.plan ∧ Pulses m false q) ∧
          (firstTake p.plan = none → firstTake (changePlan s due).takes = none →
            Completes .exitWindowClose s moneyParts (EndsShort due s)))) ∧
      (p.windowCoins ≠ 0 → p.kind = .drain n 0 → p.coins ≤ 255 →
        Completes .exitWindowClose s moneyParts fun t => (due = 0 → t.change.payout = none) ∧
          RaisesFirst s t .drainDone (some n) (some (pack 0 0 0 p.coins)))

/-- A coin at the exit sensor while no window is open is a stray coin (R47). -/
def Obligations.CoinOutsideAnyWindowIsStray : Prop :=
  (∀ s : State, s.active = true → (∀ p, s.change.payout = some p → p.pulsed = none) →
    exec .coinAtExitSensor s = .next (finish { s with change.stray := upto16 s.change.stray 1 })) ∧
  (∀ s : State, ((statusPayload s).drop 52).take 2 = word s.change.stray) ∧
  (∀ (c : Cause) (s : State), (beginStart c s).change.stray = 0) ∧
  ∀ (s : State) (n : Nat), retainedOf { s with change.stray := n } = retainedOf s

/-! ### The matrix, the motor and the drop beam -/

/-- The matrix works one crossing at a time: a home probe, the revolution of an operation that has the MOTOR
grant, its motor start, and the column switch opening after its row switch (R61, R71, R72, R86, R88). -/
def Obligations.MatrixServesOneCrossingAtATime : Prop :=
  ∀ s : State, s.phase = .run → s.spirals.length = 64 →
    let free := s.drive.column = none ∧ s.drive.row = none ∧ s.drive.probing = none
    (s.drive.probing = none → ∀ reads, exec (.homeProbe reads) s = .next (finish s)) ∧
    (∀ p < 64, s.drive.probing = some p → ∀ (b : Bool) (rest : List Bool),
      ((∀ o, s.drive.service = some o → o.home = false) →
        Completes (.homeProbe (b :: b :: b :: rest)) s [.spirals] fun t =>
          t.spiral p = { s.spiral p with homeClosed := b, probePending := false, state :=
            if (s.spiral p).probePending then (if b then .ready else .notHome) else (s.spiral p).state } ∧
          ∀ q, q ≠ p → t.spiral q = s.spiral q) ∧
      (∀ o, s.drive.service = some o → o.home = true → o.told = true → o.spiral = p → s.drive.rev = none →
        Completes (.homeProbe (b :: b :: b :: rest)) s serviceParts fun t =>
          (b = true → (t.spiral p).state = .ready ∧ t.drive.service = none ∧
            RaisesFirst s t .spiralHomeDone (some p) (some (pack 0 0 0 0))) ∧
          (b = false → t.drive.rev = some (newRev p) ∧ t.drive.service = some o))) ∧
    (s.supply.granted.motor = false → exec .motorGrant s = .next (finish s)) ∧
    (s.supply.granted.motor = true →
      (∀ v, s.drive.service = none → s.drive.vend = some v →
        (v.told = true → exec .motorGrant s = .next (finish s)) ∧
        (v.told = false →
          (∀ p j, (spiralReady s v.spiral = true ∧ p = v.spiral ∧ j = v.position) ∨
              (spiralReady s v.spiral = false ∧ choose s v.sel = some (p, j)) →
            Completes .motorGrant s [.vendOp, .rev] fun t => t.drive.rev = some (newRev p) ∧
              t.drive.vend = some { v with spiral := p, position := j, revolutions := 0, told := true } ∧
              (free → t.drive.column = some p)) ∧
          (spiralReady s v.spiral = false → choose s v.sel = none → s.credit.inFlight.isSome = true →
            Completes .motorGrant s spiralParts (NotSold v .noReadySpiral s)))) ∧
      ∀ o, s.drive.service = some o → o.told = false →
        (o.home = false → Completes .motorGrant s [.serviceOp, .rev] fun t =>
          t.drive.service = some { o with told := true } ∧ t.drive.rev = some (newRev o.spiral) ∧
          (free → t.drive.column = some o.spiral)) ∧
        (o.home = true → (s.spiral o.spiral).state ≠ .ready →
          Completes .motorGrant s [.serviceOp, .spirals] fun t =>
            t.drive.service = some { o with told := true } ∧ (t.spiral o.spiral).probePending = false ∧
            (free → s.drive.rev = none → t.drive.probing = some o.spiral))) ∧
    (∀ b : Bool,
      (∀ r v, s.drive.rev = some r → r.stage = .starting → s.drive.column = some r.spiral →
        s.drive.service = none → s.drive.vend = some v →
        Completes (.motorStart b) s [.row, .rev, .vendOp] fun t => t.drive.row = some r.spiral ∧
          t.drive.vend = some { v with revolutions := v.revolutions + 1 } ∧
          ∃ d : Debounce, d.accepted = some (s.spiral r.spiral).homeClosed ∧
            t.drive.rev = some { r with stage := .turning, leaveDone := !(s.spiral r.spiral).homeClosed,
                                        switch := d, window := v.params.dropConfirm, armed := !b }) ∧
      ((∀ r, s.drive.rev = some r → r.stage ≠ .starting ∨ s.drive.column ≠ some r.spiral) →
        exec (.motorStart b) s = .next (finish s))) ∧
    (∀ p, s.drive.row = some p → exec .columnSwitchOpen s = .next (finish s)) ∧
    (∀ p, s.drive.column = some p → s.drive.row = none → (∀ r, s.drive.rev = some r → r.stage ≠ .starting) →
      Completes .columnSwitchOpen s [] fun t => t.drive.column = none)

/-- A revolution of a vend leaves its home switch, returns to it within its limit and stores its time, or
fails: stalled, jammed or open, with SPIRAL_FAULT. After a failure its drop tail is awaited; a drop already
confirmed sells the vend at once, and with drop confirmation off the vend moves on at once (R73 to R77, R79, R81
to R83). That the vend has been told of its grant is `TurnLaw`, which `OneCrossingConducts` states as kept. -/
def Obligations.RevolutionsCompleteOrFail : Prop :=
  ∀ (r : Rev) (v : VendOp) (s : State), s.phase = .run → s.spirals.length = 64 → r.spiral < 64 →
    s.drive.rev = some r → r.stage = .turning → s.drive.service = none → s.drive.vend = some v →
    v.told = true → s.credit.inFlight.isSome = true →
    let p := r.spiral
    let fails : Instr → Failure → Nat → Nat → Prop := fun c f kind cause =>
      let told : State → Prop := fun t => t.drive.row = none ∧
        t.spiral p = { s.spiral p with state := f.state, homeClosed := r.switch.accepted == some true } ∧
        (∀ q, q ≠ p → t.spiral q = s.spiral q) ∧
        RaisesFirst s t .spiralFault (some p) (some (pack 0 0 kind cause))
      let next := choose (setSpiral p f.state s) v.sel
      (v.params.dropConfirm = true → r.drop = false →
        Completes c s [.rev, .row, .spirals, .events] fun t => told t ∧
          ∃ q, t.drive.rev = some q ∧ q.spiral = p ∧ q.stage = .tail ∧ q.failure = some f ∧ q.drop = false) ∧
      (v.params.dropConfirm = true → r.drop = true → Completes c s spiralParts fun t => told t ∧ Sold v s t) ∧
      (v.params.dropConfirm = false → s.sels.length = 64 → v.sel < 64 →
        Completes c s spiralParts fun t => told t ∧
          (next = none → (t.sel v.sel).state = .soldOut ∧ NotSold v .noProduct s t ∧
            Raises s t .selectionSoldOut (some v.sel) none) ∧
          ∀ q j, next = some (q, j) → t.sels = s.sels ∧
            (v.params.autoNext = true → t.drive.rev = some (newRev q) ∧
              t.drive.vend = some { v with spiral := q, position := j, revolutions := 0, tried := true }) ∧
            (v.params.autoNext = false → NotSold v .spiralFault s t))
    (r.leaveDone = false → r.switch.accepted = some true →
      Completes (.homeSwitchLeave [false, false, false]) s [.rev] fun t =>
        ∃ d : Debounce, d.accepted = some false ∧ t.drive.rev = some { r with switch := d, leaveDone := true }) ∧
    (r.leaveDone = true → exec (.homeSwitchLeave [false, false, false]) s = .next (finish s)) ∧
    (∀ time : Nat, r.leaveDone = true → r.switch.accepted = some false →
      let kept := { s.spiral p with homeClosed := true, lastRev := min 65535 time,
                                    slow := decide (4 * v.params.revLimitMs < 5 * time) }
      (v.params.dropConfirm = true → r.drop = false →
        Completes (.homeSwitchClose [true, true, true] time) s [.rev, .row, .spirals, .events] fun t =>
          t.drive.row = none ∧ t.spiral p = kept ∧
          (∃ q, t.drive.rev = some q ∧ q.spiral = p ∧ q.stage = .tail ∧ q.failure = r.failure ∧
            q.time = time ∧ q.drop = false) ∧
          (kept.slow = true → RaisesFirst s t .spiralSlow (some p) (val time)) ∧
          (kept.slow = false → t.events = s.events)) ∧
      (v.params.dropConfirm = false ∨ r.drop = true →
        Completes (.homeSwitchClose [true, true, true] time) s spiralParts fun t =>
          Sold v s t ∧ t.spiral p = kept)) ∧
    (r.leaveDone = false → exec (.homeSwitchClose [true, true, true] 0) s = .next (finish s)) ∧
    (r.leaveDone = false → fails .leaveLimit .stalledLeave 2 1) ∧
    (r.leaveDone = true → exec .leaveLimit s = .next (finish s)) ∧
    fails .revolutionLimit .stalledReturn 2 2 ∧
    (∀ currents : List Nat,
      (150 ≤ currents.length → (∀ c ∈ currents, v.params.jamThreshold < c) →
        fails (.jam currents) .jammed 0 0) ∧
      (currents.length < 150 ∨ (∃ c ∈ currents, c ≤ v.params.jamThreshold) →
        exec (.jam currents) s = .next (finish s))) ∧
    ∀ current : Nat,
      (r.openChecked = false → current < 100 → fails (.openMotor current) .openMotor 1 0) ∧
      (r.openChecked = false → 100 ≤ current → exec (.openMotor current) s =
        .next (finish { s with drive.rev := some { r with openChecked := true } })) ∧
      (r.openChecked = true → exec (.openMotor current) s = .next (finish s))

/-- An interruption of the drop beam of 2 ms is a drop: it sells the vend at once when the motor has stopped,
and at the completion otherwise; a window that closes without one turns the spiral again, or judges it EMPTY
and moves on or ends the vend uncharged; a window held open closes at the read that ends the interruption,
whatever is read after it; a Test Spiral reports its result (R78 to R83, R87). -/
def Obligations.DropsSellAndEmptyWindowsMoveOn : Prop :=
  ∀ (r : Rev) (s : State), s.phase = .run → s.spirals.length = 64 → s.sels.length = 64 →
    s.drive.rev = some r →
    (r.window = false → ∀ reads, exec (.drop reads) s = .next (finish s) ∧
      exec (.beamInterruptionEnd reads) s = .next (finish s) ∧
      exec (.dropWindowClose reads) s = .next (finish s)) ∧
    (r.window = true → r.armed = true → r.drop = false → r.stage = .tail → r.heldOpen = true → r.broken = 1 →
      s.drive.vend.isSome = true → ∀ rest,
      exec (.beamInterruptionEnd (false :: rest)) s =
        exec (.dropWindowClose []) { s with drive.rev := some { r with broken := 0 } }) ∧
    (r.window = true → r.armed = true → r.broken = 0 → r.drop = false →
      (r.stage = .turning →
        Completes (.beamInterruptionEnd [true, false]) s [.rev] fun t => t.drive.vend = s.drive.vend ∧
          t.drive.rev = some { r with heldOpen := false }) ∧
      (r.stage = .tail → Completes (.dropWindowClose [true]) s [.rev] fun t =>
        t.drive.rev = some { r with broken := 1, heldOpen := true }) ∧
      ∀ v, s.drive.service = none → s.drive.vend = some v → v.told = true → r.spiral = v.spiral →
        v.sel < 64 → v.spiral < 64 → s.credit.inFlight.isSome = true →
        let judged := setSpiral v.spiral .empty s
        (r.stage = .turning → Completes (.drop [true, true, true]) s [.rev, .vendOp] fun t =>
          t.drive.vend = some { v with drop := true } ∧
          t.drive.rev = some { r with heldOpen := false, drop := true }) ∧
        (r.stage = .tail → Completes (.drop [true, true, true]) s spiralParts (Sold v s)) ∧
        (r.stage = .tail → r.failure = none → v.revolutions < 1 + v.params.extraRevs →
          Completes (.dropWindowClose []) s [.rev] fun t => t.drive.rev = some (newRev v.spiral) ∧
            t.drive.vend = some v) ∧
        (r.stage = .tail → r.failure = none → 1 + v.params.extraRevs ≤ v.revolutions →
          Completes (.dropWindowClose []) s spiralParts fun t => (t.spiral v.spiral).state = .empty ∧
            RaisesFirst s t .spiralEmpty (some v.spiral) (val v.revolutions) ∧
            (choose judged v.sel = none → (t.sel v.sel).state = .soldOut ∧ NotSold v .noProduct s t ∧
              Raises s t .selectionSoldOut (some v.sel) none) ∧
            ∀ p j, choose judged v.sel = some (p, j) → t.sels = s.sels ∧
              (v.params.autoNext = true → t.drive.rev = some (newRev p) ∧
                t.drive.vend = some { v with spiral := p, position := j, revolutions := 0, tried := true }) ∧
              (v.params.autoNext = false → NotSold v .noProduct s t)) ∧
        (∀ f, r.stage = .tail → r.failure = some f →
          Completes (.dropWindowClose []) s spiralParts fun t => t.spirals = s.spirals ∧
            (choose s v.sel = none → (t.sel v.sel).state = .soldOut ∧ NotSold v .noProduct s t) ∧
            ∀ p j, choose s v.sel = some (p, j) → t.sels = s.sels ∧
              (v.params.autoNext = true → t.drive.rev = some (newRev p) ∧
                t.drive.vend = some { v with spiral := p, position := j, revolutions := 0, tried := true }) ∧
              (v.params.autoNext = false → NotSold v .spiralFault s t))) ∧
    (r.window = true → r.stage = .tail → r.broken = 0 → r.spiral < 64 → ∀ o, s.drive.service = some o →
      o.told = true → Completes (.dropWindowClose []) s serviceParts fun t => t.drive.service = none ∧
        t.drive.rev = none ∧ t.drive.row = none ∧
        RaisesFirst s t .spiralTestDone (some r.spiral) (some (pack (testResult r.failure)
          (if r.drop then 1 else 0) (min 65535 r.time / 256) (min 65535 r.time))) ∧
        (t.spiral r.spiral).state = testState r.failure (s.spiral r.spiral).state)

/-! ### Supply, power failure, store and start -/

/-- Twenty readings below 20.0 V bring SAG: the heater and then the compressor are shed while the granted sum is
above half the budget, motor and payout grants are kept; 500 readings from 21.0 V bring NORMAL back, and a
reading that completes no count only counts (R114, R117, R120). -/
def Obligations.SupplySagShedsAndNormalReturns : Prop :=
  ∀ (v : Nat) (s : State), s.phase = .run →
    let half := s.tables.loads.budget / 2
    (s.supply.state = .normal → s.supply.low = 19 → 170 ≤ v → v < 200 → BudgetLaw s →
      Completes (.supplySag [v]) s [.supply, .grants, .compressor, .defrost, .events] fun t =>
        t.supply.state = .sag ∧ t.supply.low = 0 ∧ RaisesFirst s t .supplySag none (val v) ∧
        (t.grantedSum ≤ half ∨ (t.supply.granted.heater = false ∧ t.supply.granted.compRun = false ∧
          t.supply.granted.compStart = false)) ∧
        (s.supply.granted.payout = true → t.supply.granted.payout = true) ∧
        (s.supply.granted.motor = true → t.supply.granted.motor = true) ∧
        (s.grantedSum ≤ half → t.cold = s.cold) ∧
        (half < s.grantedSum → s.supply.granted.heater = true → t.cold.heater = false ∧
          t.supply.asked .heater ∧ Raises s t .loadShed (some 4) (val half)) ∧
        (half < s.grantedSum → s.supply.granted.heater = false →
          (s.supply.granted.compRun = true → t.cold.state = .lockedOff ∧ t.cold.relay = false ∧
            t.cold.offTimer = some s.tables.refrig.minOffMs ∧ Raises s t .loadShed (some 3) (val half)) ∧
          (s.supply.granted.compRun = false → s.supply.granted.compStart = true →
            t.cold.state = .lockedOff ∧ t.cold.relay = false ∧ Raises s t .loadShed (some 2) (val half)))) ∧
    (s.supply.state = .sag → s.supply.good = 499 → 210 ≤ v → BudgetLaw s →
      Completes (.supplyNormal [v]) s [.supply, .grants, .events] fun t => t.supply.state = .normal ∧
        t.supply.good = 0 ∧ RaisesFirst s t .supplyNormal none (val v) ∧
        ∀ x, s.supply.granted.has x = true → t.supply.granted.has x = true) ∧
    (s.supply.state = .normal → s.supply.low < 19 → 170 ≤ v →
      exec (.supplySag [v]) s = .next (finish { s with supply := { s.supply with
        reading := v, fail := 0, low := if v < 200 then s.supply.low + 1 else 0,
        good := if 210 ≤ v then s.supply.good + 1 else 0 } }))

/-- The power-fail sequence de-energises every output, gives up every grant and frame, ends every operation
without charging it, and writes the retained image; FAIL begins it, and so do the reset input and the reply to
a Restart, which is accepted in IDLE only. Before start step 2 is complete a reset begins the start again, and
FAIL leads to the wait with no image written; when those steps are over is log 7, and that FAIL comes before a SAG
due at the same reading is log 44 (R114, R121, R122, R125, R126, R129). -/
def Obligations.PowerFailStopsEverythingAndSaves : Prop :=
  let stopped : Bool → State → State → Prop := fun warm s t =>
    t.phase = .saving warm ∧
    t.cold.relay = false ∧ t.cold.heater = false ∧ t.cold.damper = false ∧ t.drive = Drive.initial ∧
    t.change.payout = none ∧ t.line.driver = false ∧ t.line.trans = none ∧ t.line.queue = [] ∧
    t.line.pass = [] ∧ t.link.answer = none ∧ t.link.waiting = none ∧
    t.supply.granted = .none ∧ t.supply.waiting = .none ∧
    t.credit.escrow = none ∧ t.credit.escrowReserve = 0 ∧ t.credit.pendingReturn = false ∧
    t.credit.returnDue = s.credit.returnDue ∧ t.credit.sale = saleOf t ∧ t.audit = s.audit ∧
    t.change.tubes = s.change.tubes ∧ t.sels = s.sels ∧ t.tables = s.tables ∧ t.lock = s.lock ∧
    (CreditLaw s → t.credit.inFlight = none ∧ t.credit.vendHold = 0 ∧
      t.credit.credit = s.credit.credit + s.credit.vendHold) ∧
    (∀ v, s.drive.vend = some v → s.credit.inFlight.isSome = true →
      RaisesFirst s t .vendFailed (some v.sel) (some (pack 0 0 0 4))) ∧
    (∀ p, (t.spiral p).probePending = false ∧ (t.spiral p).homeClosed = (s.spiral p).homeClosed ∧
      ((∀ r, s.drive.rev = some r → r.stage ≠ .turning ∨ r.spiral ≠ p) →
        (t.spiral p).state = (s.spiral p).state)) ∧
    (∀ r, s.drive.rev = some r → r.stage = .turning → s.drive.service = none →
      r.spiral < s.spirals.length → (s.spiral r.spiral).state ≠ .unassigned →
      (t.spiral r.spiral).state = .notHome) ∧
    (s.store.tableWriting = none → t.store = { s.store with
      tableWaiting := false, retainedWriting := some (nextWrite s.store.retainedA s.store.retainedB (retainedOf t)) }) ∧
    (s.store.tableWriting.isSome = true → t.store = { s.store with tableWaiting := false })
  let restoring : State → Prop := fun s => ∃ c, s.phase = .restoring c
  (∀ s : State, s.active = true → ¬restoring s → ∃ t, exec .reset s = .next t ∧ stopped true s t) ∧
  (∀ s : State, restoring s → exec .reset s = .next (beginStart .warm s)) ∧
  (∀ s : State, s.active = false → exec .reset s = .next s) ∧
  (∀ (v : Nat) (s : State), s.active = true → s.supply.state ≠ .fail → 1 ≤ s.supply.fail → v < 170 →
    (¬restoring s → ∃ t, exec (.supplyFail [v]) s = .next t ∧ stopped false s t ∧ t.supply.state = .fail) ∧
    (restoring s → ∃ t, exec (.supplyFail [v]) s = .next t ∧ t.phase = .failWait ∧ t.store = s.store ∧
      t.supply.state = .fail ∧ t.cold.relay = false ∧ t.cold.heater = false ∧ t.cold.damper = false ∧
      t.drive = Drive.initial ∧ t.change.payout = none ∧ t.line.driver = false ∧ t.link.answer = none ∧
      t.supply.granted = .none ∧ t.supply.waiting = .none)) ∧
  (∀ s : State, Ready s → unlocked s →
    (s.credit.sale = .idle →
      Replies .restart s 0xB7 .done [] [.tag] fun t => t.link.restarting = true) ∧
    (s.credit.sale ≠ .idle → Refuses .restart s 0xB7 .busy [])) ∧
  ∀ s : State, s.link.answer.isSome = true → s.link.restarting = true →
    ∃ t, exec .replySent s = .next t ∧ stopped true s t

/-- A completed write makes its copy the newer one; the retained image's completion leads to the FAIL wait or to
a start, the supply's return starts the part from its wait, and a start takes the tables of the newer valid copy, or
the defaults, and restores the money, totals, tube counts and conditions, selection states, next pointers and sale
counters, spiral states with the home probes pending, holds and code of the retained image, or the COLD values without
one (R27, R54, R67, R68, R112, R123 to R125, R127). The
state at logic power-up (log 2), when start steps 1 and 2 are over (log 7), which copy is the newer (log 16) and
STORE_DEFAULTS after a start that finds tables (log 33) are the model's choices, and so is a good count that must
still stand at 500 when the retained image is written (log 46). -/
def Obligations.StoreWritesCommitAndStartsRestore : Prop :=
  let tables : State → State → Prop := fun s t =>
    t.tables = (latest s.store.tableA s.store.tableB).getD defaultTables ∧
    (t.storeDefaults = true ↔ validCopy s.store.tableA = none ∧ validCopy s.store.tableB = none)
  let spirals : (Nat → SpiralState) → State → Prop := fun kept t => ∀ p < 64,
    let listed := ∃ r ∈ t.tables.sels, p ∈ r.spirals
    let probed := t.storeDefaults = true ∨ kept p = .unassigned ∨ kept p = .notHome
    (¬listed → (t.spiral p).state = .unassigned ∧ (t.spiral p).probePending = false) ∧
    (listed → probed → (t.spiral p).state = .notHome ∧ (t.spiral p).probePending = true) ∧
    (listed → ¬probed → (t.spiral p).state = kept p ∧ (t.spiral p).probePending = false)
  let restored : Cause → Retained → State → Prop := fun cause m t =>
    let excess := m.credit - t.tables.money.ceiling
    t.phase = .restoring cause ∧ t.seconds = 0 ∧ t.cold.state = .lockedOff ∧ t.drive.vend = none ∧
    t.change.payout = none ∧ t.line.queue = [] ∧ t.line.round = 15 ∧
    t.credit.credit = min m.credit t.tables.money.ceiling ∧ t.credit.vendHold = 0 ∧
    t.credit.escrowReserve = 0 ∧
    (m.returnDue ≤ 65535 → t.credit.returnDue = min 65535 (m.returnDue + excess)) ∧
    (m.returnDue + excess ≤ 65535 → t.audit = m.audit) ∧ t.credit.sale = saleOf t ∧
    (∀ n < 6, (t.tube n).count = min (t.tables.tube n).capacity (m.tubeCounts.getD n 0)) ∧
    (∀ n < 6, (t.tube n).cond = if (t.tables.tube n).enabled = false then .disabled
      else if m.tubeConds.getD n .ok = .disabled then .ok else m.tubeConds.getD n .ok) ∧
    (∀ i < 64, t.sel i = {
      sales := m.sales.getD i 0,
      state := if t.storeDefaults then .inhibited else m.selStates.getD i .enabled,
      next := if t.storeDefaults = false ∧ m.selNexts.getD i 0 < (t.tables.sel i).spirals.length
              then m.selNexts.getD i 0 else 0 }) ∧
    spirals (fun p => m.spiralStates.getD p .notHome) t ∧
    (∀ z < 2, (t.zone z).latched = m.holds.getD z false) ∧ t.cold.runSince = m.runSince ∧
    t.lock.code = m.code ∧ (m.code.isSome = true → t.lock.state = .locked)
  (∀ s : State, s.store.tableWriting = none → exec .tableImageWriteDone s = .next (finish s)) ∧
  (∀ (w : StoreWrite Tables) (s : State), s.store.tableWriting = some w →
    let kept : Store := { s.store with
      tableA := if w.first then some w.copy else s.store.tableA,
      tableB := if w.first then s.store.tableB else some w.copy, tableWriting := none }
    (s.phase = .run → s.store.tableWaiting = false →
      exec .tableImageWriteDone s = .next (finish { s with store := kept })) ∧
    (s.phase = .run → s.store.tableWaiting = true →
      exec .tableImageWriteDone s = .next (finish { s with store := { kept with
        tableWaiting := false, tableWriting := some (nextWrite kept.tableA kept.tableB s.tables) } })) ∧
    ∀ warm, s.phase = .saving warm →
      exec .tableImageWriteDone s = .next { s with store := { kept with
        retainedWriting := some (nextWrite s.store.retainedA s.store.retainedB (retainedOf s)) } }) ∧
  (∀ (w : StoreWrite Retained) (s : State), s.store.retainedWriting = some w →
    (s.phase = .saving false → s.supply.good < 500 →
      exec .retainedImageWriteDone s = .next { s with phase := .failWait, store := { s.store with
        retainedA := if w.first then some w.copy else s.store.retainedA,
        retainedB := if w.first then s.store.retainedB else some w.copy, retainedWriting := none } }) ∧
    (StoreLaw s →
      (s.phase = .saving true → ∃ t, exec .retainedImageWriteDone s = .next t ∧
        restored .warm w.copy.contents t ∧ tables s t ∧ t.link.rate = s.link.rate) ∧
      (s.phase = .saving false → 500 ≤ s.supply.good → ∃ t, exec .retainedImageWriteDone s = .next t ∧
        restored .powerRestored w.copy.contents t ∧ tables s t ∧ t.link.rate = none ∧
        t.supply.state = .normal))) ∧
  (∀ (v : Nat) (s : State), s.phase = .failWait → s.supply.state = .fail →
    (v < 210 → ∃ t, exec (.powerRestored [v]) s = .next t ∧ Alters [.supply] s t ∧ t.supply.good = 0 ∧
      t.supply.reading = v) ∧
    (210 ≤ v → s.supply.good < 499 → ∃ t, exec (.powerRestored [v]) s = .next t ∧ Alters [.supply] s t ∧
      t.supply.good = s.supply.good + 1) ∧
    (210 ≤ v → s.supply.good = 499 → ∃ t, exec (.powerRestored [v]) s = .next t ∧
      t.supply.state = .normal ∧ t.supply.low = 0 ∧ t.supply.fail = 0 ∧ t.supply.good = 0 ∧
      tables s t ∧ (∀ m, latest s.store.retainedA s.store.retainedB = some m → restored .powerRestored m t) ∧
      (validCopy s.store.retainedA = none → validCopy s.store.retainedB = none →
        t.phase = .restoring .cold ∧ t.audit = Audit.zero ∧ t.credit = CreditUnit.initial ∧
        t.lock = ServiceLock.initial ∧ (∀ n, (t.tube n).count = 0) ∧
        (∀ n < 6, (t.tube n).cond = if (t.tables.tube n).enabled then .ok else .disabled) ∧
        (∀ i < 64, t.sel i = { state := if t.storeDefaults then .inhibited else .enabled, next := 0, sales := 0 }) ∧
        spirals (fun _ => .notHome) t))) ∧
  (∀ (c : Cause) (s : State), s.phase = .restoring c →
    exec .secondsCounterTick s = exec .secondsCounterTick { s with phase := .probing c }) ∧
  ∀ s : State,
    exec .logicPowerUp s = .next { State.reset with pending := s.pending, store := cutWrites s.store } ∧
    (s.store.tableWriting = none → s.store.retainedWriting = none →
      cutWrites s.store = { s.store with tableWaiting := false }) ∧
    (∀ w, s.store.tableWriting = some w →
      (cutWrites s.store).tableA = (if w.first then none else s.store.tableA) ∧
      (cutWrites s.store).tableB = (if w.first then s.store.tableB else none)) ∧
    ∀ w, s.store.retainedWriting = some w →
      (cutWrites s.store).retainedA = (if w.first then none else s.store.retainedA) ∧
      (cutWrites s.store).retainedB = (if w.first then s.store.retainedB else none)

/-! ### The Machine Line -/

/-- A transaction is chosen when the line is idle, runs through its request and reply window, and ends by its
outcome; a third miss makes a PRESENT slot SILENT; frames that no one asked for are counted or ignored, and
characters with no break before them begin a reply, or have the line's idle time counted again; rounds
begin when they are due; the end of the line-reset break completes a start with START; that the empty last batch
then has a dropped count of 0 is log 48 (R128, R131, R132, R134 to R136, R139, R140, R142, R145). -/
def Obligations.LineTransactionsRunToTheirOutcome : Prop :=
  (∀ (n : Nat) (s : State), s.phase = .run → s.line.slots.length = 8 →
    let u : State := { s with line.noisy := upto16 s.line.noisy n }
    let missed : Nat → State → Prop := fun a t => (t.slot a).missed = min 255 ((s.slot a).missed + 1) ∧
      ((s.slot a).state = .present ∧ 2 ≤ (s.slot a).missed → (t.slot a).state = .silent ∧
        RaisesFirst s t .peripheralLost (some a) (val (s.tables.slotKind a).code)) ∧
      (¬((s.slot a).state = .present ∧ 2 ≤ (s.slot a).missed) → (t.slot a).state = (s.slot a).state) ∧
      ∀ b, 1 ≤ b → b ≤ 8 → b ≠ a → t.slot b = s.slot b
    (s.line.driver = true → ∀ frame,
      exec (.lineBreak n) s = .next (finish s) ∧ exec (.lineFramingError n) s = .next (finish s) ∧
      exec (.lineTruncatedFrame n) s = .next (finish s) ∧
      exec (.lineBadLengthOrAddress n) s = .next (finish s) ∧
      exec (.lineFrameComplete frame) s = .next (finish s)) ∧
    (s.line.driver = false → s.line.trans = none →
      exec (.lineBreak n) s = .next (finish { u with line.unsolicited := upto16 s.line.unsolicited 1,
                                                     line.assembling := true, line.idle := false }) ∧
      exec (.lineFramingError n) s = .next (finish { u with line.framing := upto16 s.line.framing 1,
                                                            line.assembling := false, line.idle := false }) ∧
      (s.line.assembling = false → s.line.noisy ≤ 65535 → ∀ b bytes,
        exec (.lineFrameComplete (clean (b :: bytes))) s = .next (finish { s with line.idle := false })) ∧
      (s.line.assembling = true →
        exec (.lineTruncatedFrame n) s = .next (finish { u with
          line.truncated := upto16 s.line.truncated 1, line.assembling := false, line.idle := false }) ∧
        exec (.lineBadLengthOrAddress n) s = .next (finish { u with
          line.crc := upto16 s.line.crc 1, line.assembling := false, line.idle := false }) ∧
        ∀ a k p, 1 ≤ a → a ≤ 8 → k < 256 → p.length ≤ 32 → s.line.noisy ≤ 65535 →
          exec (.lineFrameComplete (clean (lineFrame a k p))) s =
            .next (finish { s with line.assembling := false, line.idle := false }))) ∧
    (s.line.trans = none → s.line.assembling = false →
      (∀ e rest, s.line.queue = e :: rest → s.slotPresent e.slot = true → Completes .lineIdle s [] fun t =>
        ∃ x, t.line.trans = some x ∧ x.slot = e.slot ∧ x.body = .cmd e.body ∧ x.stage = .sending ∧
          t.line.driver = true) ∧
      (∀ e rest, s.line.queue = [] → s.line.pass = e :: rest → Completes .lineIdle s [] fun t =>
        ∃ x, t.line.trans = some x ∧ x.slot = e.slot ∧ x.body = .pass e ∧ x.stage = .sending ∧
          x.frame = lineFrame e.slot e.kind e.payload) ∧
      (∀ a rest, s.line.queue = [] → s.line.pass = [] → s.line.list = a :: rest → Completes .lineIdle s []
        fun t => ∃ x, t.line.trans = some x ∧ x.slot = a ∧ x.body = .poll ∧ x.stage = .sending ∧
          x.frame = lineFrame a 0x01 (flag (s.slot a).pollFlag) ∧
          (s.line.roundPending = false → t.line.list = rest))) ∧
    (s.line.trans.isSome = true ∨ s.line.assembling = true → exec .lineIdle s = .next (finish s)) ∧
    (s.line.list ≠ [] → exec .roundStart s = .next (finish { s with line.roundPending := true })) ∧
    (s.line.list = [] → ∃ l : List Nat,
      exec .roundStart s = .next (finish { s with line.round := s.line.round + 1, line.list := l,
                                                  line.roundPending := false }) ∧
      l.Pairwise (· < ·) ∧ ∀ a, a ∈ l ↔ 1 ≤ a ∧ a ≤ 8 ∧ s.tables.slotKind a ≠ .unused ∧
        ((s.slot a).state = .absent → s.line.round + 1 = 0) ∧
        ((s.slot a).state ≠ .absent → s.tables.slotKind a = .other → s.lock.economy = true →
          (s.line.round + 1).toNat % 4 = 0)) ∧
    ∀ x, s.line.trans = some x → 1 ≤ x.slot → x.slot ≤ 8 →
      (x.stage = .sending → Completes (.endOfRequest n) s [.receiver, .trans, .slots, .lineCounts] fun t =>
        t.line.trans = some { x with stage := .window } ∧ t.line.driver = false) ∧
      (x.stage ≠ .sending → exec (.endOfRequest n) s = .next (finish s) ∧
        exec (.contention n) s = .next (finish s)) ∧
      (x.stage ≠ .window → exec .replyWindowClose s = .next (finish s)) ∧
      (x.stage = .window → s.line.driver = false → s.line.assembling = false →
        Completes (.lineBreak n) s [.receiver, .trans, .slots, .lineCounts] fun t =>
          t.line.trans = some { x with stage := .reply } ∧ t.line.assembling = true) ∧
      (x.stage = .window → s.line.driver = false → s.line.assembling = false → ∀ b bytes,
        Completes (.lineFrameComplete (clean (b :: bytes))) s [.trans, .slots, .lineCounts] fun t =>
          t.line.trans = some { x with stage := .reply } ∧ t.line.assembling = false) ∧
      (x.stage = .sending → x.body = .poll → x.stale = false →
        Completes (.contention n) s [.receiver, .trans, .slots, .lineCounts] fun t => t.line.trans = none ∧
          t.line.driver = false ∧
          t.slot x.slot = { s.slot x.slot with noise := upto16 (s.slot x.slot).noise n,
                                               contention := upto16 (s.slot x.slot).contention 1 }) ∧
      (x.stale = false → x.body = .poll →
        (x.stage = .window → Completes .replyWindowClose s lineParts (missed x.slot)) ∧
        (x.stage = .reply → s.line.driver = false → s.line.assembling = true →
          ∀ c ∈ [Instr.lineFramingError n, .lineTruncatedFrame n, .lineBadLengthOrAddress n],
            Completes c s lineParts fun t => missed x.slot t ∧ t.line.trans = none)) ∧
      ∀ e, x.stale = false → x.body = .pass e → x.stage = .window →
        Completes .replyWindowClose s lineParts fun t => missed x.slot t ∧
          Raises s t .passReply (some e.slot) (some (pack 0 0 1 e.tag))) ∧
  ∀ (cause : Cause) (s : State),
    (s.phase = .lineReset cause → s.link.waiting = none → ∃ t, exec .lineResetBreakEnd s = .next t ∧
      t.phase = .run ∧ t.line.round = s.line.round + 1 ∧ t.credit.sale = saleOf t ∧
      t.events = { queue := [eventAt s.seconds .start none (val cause.code)], dropped := 0,
                   lastBatch := [], lastDropped := 0 }) ∧
    (s.phase = .run → exec .lineResetBreakEnd s = .next (finish s))

/-- A poll's reply resets the slot's missed count, flips its poll flag and makes it PRESENT; its reports credit
coins within the headroom and the rest as overpay, hold, stack and return notes, and take the lever; a note's
escrow expires unresolved; the seconds counter counts (00_scope, R13, R14, R17 to R22, R32 to R34, R137, R142,
R148, R150, R182, R185).
That the seconds counter counts in every state, in the power-fail steps and the FAIL wait too, is log 6 (DEDUCED). -/
def Obligations.PollRepliesCreditMoneyAndHoldNotes : Prop :=
  (∀ s : State, exec .secondsCounterTick s = .next (finish { s with seconds := s.seconds + 1 })) ∧
  (∀ s : State, s.phase = .run →
    (s.credit.escrow = none → exec .escrowUnresolved s = .next (finish s)) ∧
    ∀ e, s.credit.escrow = some e →
      Completes .escrowUnresolved s (.escrow :: .amounts :: .events :: maskParts) fun t =>
        t.credit.escrow = none ∧ t.credit.escrowReserve = 0 ∧ t.credit.credit = s.credit.credit ∧
        t.credit.vendHold = s.credit.vendHold ∧ t.credit.returnDue = s.credit.returnDue ∧
        t.events = s.events.place (eventAt s.seconds .escrowUnresolved (some e.noteType)
          (val (s.tables.note e.noteType).value))) ∧
  ∀ (x : Trans) (s : State), s.phase = .run → s.line.slots.length = 8 → s.line.trans = some x →
    x.body = .poll → x.stale = false → s.line.driver = false → s.line.assembling = true →
    1 ≤ x.slot → x.slot ≤ 8 →
    let a := x.slot
    let kind := s.tables.slotKind a
    let reply : List Nat → Instr := fun p => .lineFrameComplete (clean (lineFrame a 0x81 (p.flatMap char)))
    let taken : State → Prop := fun t => (t.slot a).state = .present ∧ (t.slot a).missed = 0 ∧
      (t.slot a).pollFlag = (!(s.slot a).pollFlag) ∧ t.line.trans = none
    let credited : Nat → State → Prop := fun v t =>
      t.credit.credit = s.credit.credit + min v s.headroom ∧ t.credit.vendHold = s.credit.vendHold ∧
      t.credit.escrowReserve = s.credit.escrowReserve ∧ t.audit.cashIn = addTotal s.audit.cashIn v ∧
      (v ≤ s.headroom → t.credit.returnDue = s.credit.returnDue ∧ t.audit.writtenOff = s.audit.writtenOff) ∧
      (s.headroom < v → s.credit.returnDue ≤ 65535 →
        t.credit.returnDue = min 65535 (s.credit.returnDue + (v - s.headroom)))
    (∀ state, (s.slot a).state = state →
      (state = .present → Completes (reply []) s [.receiver, .trans, .slots, .lineCounts] taken) ∧
      (state ≠ .present → Completes (reply []) s lineParts fun t => taken t ∧
        RaisesFirst s t .peripheralFound (some a) (val kind.code))) ∧
    ((s.slot a).state = .present → kind = .coinValidator →
      (∀ k ≤ 15, s.lock.fill = false →
        let v := (s.tables.coin k).value
        Completes (reply [0x02, k]) s lineParts (fun t => taken t ∧ credited v t ∧
          t.change.tubes = s.change.tubes ∧ t.lock.economy = false ∧
          RaisesFirst s t .coinCredited (some k) (val v)) ∧
        (∀ n < 6, (s.tables.coin k).tube = some n → s.change.tubes.length = 6 →
          (s.tube n).count < (s.tables.tube n).capacity → (s.tube n).full.accepted ≠ some true →
          (s.tables.tube n).lowMark = 0 →
          Completes (reply [0x01, k]) s lineParts fun t => taken t ∧ credited v t ∧
            (t.tube n).count = (s.tube n).count + 1 ∧ (∀ m, m ≠ n → t.tube m = s.tube m) ∧
            Raises s t .coinCredited (some k) (val v))) ∧
      (∀ k ≤ 15, s.lock.fill = true → Completes (reply [0x02, k]) s lineParts fun t => taken t ∧
        t.credit.credit = s.credit.credit ∧ t.credit.returnDue = s.credit.returnDue ∧
        t.audit = { s.audit with filled := addTotal s.audit.filled (s.tables.coin k).value } ∧
        RaisesFirst s t .coinFilled (some k) (val (s.tables.coin k).value)) ∧
      (s.credit.sale = .vend → Completes (reply [0x04, 0]) s lineParts fun t => taken t ∧
        t.credit.pendingReturn = true ∧ t.credit.credit = s.credit.credit) ∧
      (s.credit.sale = .opened → s.credit.credit ≠ 0 → s.credit.returnDue + s.credit.credit ≤ 65535 →
        Completes (reply [0x04, 0]) s lineParts fun t => taken t ∧ t.credit.credit = 0 ∧
          t.credit.returnDue = s.credit.returnDue + s.credit.credit)) ∧
    ((s.slot a).state = .present → kind = .noteReader → ∀ n ≤ 7,
      let v := (s.tables.note n).value
      (s.credit.escrow = none → s.line.queue.length < 4 → s.slotOf .reader = some a →
        Completes (reply [0x11, n]) s lineParts fun t => taken t ∧ t.lock.economy = false ∧
          t.credit.credit = s.credit.credit ∧
          let d : Decision := if noteFits s n then .stack else .giveBack
          t.credit.escrow = some { noteType := n, decision := d, time := s.seconds } ∧
          t.credit.escrowReserve = (if noteFits s n then v else s.credit.escrowReserve) ∧
          ∃ c ∈ t.line.queue, c.slot = a ∧ c.body = .escrow d n true) ∧
      (∀ e, s.credit.escrow = some e → e.noteType = n → e.decision = .stack →
        Completes (reply [0x12, n]) s lineParts fun t => taken t ∧ t.credit.escrow = none ∧
          t.credit.escrowReserve = 0 ∧ t.credit.credit = s.credit.credit + s.credit.escrowReserve ∧
          t.audit = { s.audit with cashIn := addTotal s.audit.cashIn v } ∧
          RaisesFirst s t .noteStacked (some n) (val v)) ∧
      (s.credit.escrow = none → Completes (reply [0x12, n]) s lineParts fun t => taken t ∧ credited v t ∧
        RaisesFirst s t .noteStacked (some n) (val v)) ∧
      ∀ e, s.credit.escrow = some e → e.noteType = n →
        Completes (reply [0x13, n]) s lineParts fun t => taken t ∧ t.credit.escrow = none ∧
          t.credit.escrowReserve = 0 ∧ t.credit.credit = s.credit.credit ∧ t.audit = s.audit ∧
          RaisesFirst s t .noteReturned (some n) (val v))

end
end

