-- ==== Sys2Proof/Laws/State.lean ====
section
/-! SUPPORT. What each plain update of the state leaves in each field of `State`; and the laws of the small
operations on lists, counts and events that the provers cite in place of their definitions. -/

/- One lemma after another: side by side their waiting threads take all the memory there is. -/
set_option Elab.async false

namespace Sys2Proof.Machine

/-! ### setSale -/

@[simp] theorem setSale_pending (s : State) : (setSale s).pending = s.pending := rfl
@[simp] theorem setSale_phase (s : State) : (setSale s).phase = s.phase := rfl
@[simp] theorem setSale_seconds (s : State) : (setSale s).seconds = s.seconds := rfl
@[simp] theorem setSale_tables (s : State) : (setSale s).tables = s.tables := rfl
@[simp] theorem setSale_storeDefaults (s : State) : (setSale s).storeDefaults = s.storeDefaults := rfl
@[simp] theorem setSale_store (s : State) : (setSale s).store = s.store := rfl
@[simp] theorem setSale_credit (s : State) : (setSale s).credit = { s.credit with sale := saleOf s } := rfl
@[simp] theorem setSale_audit (s : State) : (setSale s).audit = s.audit := rfl
@[simp] theorem setSale_change (s : State) : (setSale s).change = s.change := rfl
@[simp] theorem setSale_sels (s : State) : (setSale s).sels = s.sels := rfl
@[simp] theorem setSale_spirals (s : State) : (setSale s).spirals = s.spirals := rfl
@[simp] theorem setSale_drive (s : State) : (setSale s).drive = s.drive := rfl
@[simp] theorem setSale_cold (s : State) : (setSale s).cold = s.cold := rfl
@[simp] theorem setSale_supply (s : State) : (setSale s).supply = s.supply := rfl
@[simp] theorem setSale_line (s : State) : (setSale s).line = s.line := rfl
@[simp] theorem setSale_link (s : State) : (setSale s).link = s.link := rfl
@[simp] theorem setSale_events (s : State) : (setSale s).events = s.events := rfl
@[simp] theorem setSale_lock (s : State) : (setSale s).lock = s.lock := rfl

/-! ### raise -/

@[simp] theorem raise_pending (k : EventKind) (x : Option Nat) (v : Option Word32) (s : State) :
    (raise k x v s).pending =
      s.pending := rfl
@[simp] theorem raise_phase (k : EventKind) (x : Option Nat) (v : Option Word32) (s : State) :
    (raise k x v s).phase =
      s.phase := rfl
@[simp] theorem raise_seconds (k : EventKind) (x : Option Nat) (v : Option Word32) (s : State) :
    (raise k x v s).seconds =
      s.seconds := rfl
@[simp] theorem raise_tables (k : EventKind) (x : Option Nat) (v : Option Word32) (s : State) :
    (raise k x v s).tables =
      s.tables := rfl
@[simp] theorem raise_storeDefaults (k : EventKind) (x : Option Nat) (v : Option Word32) (s : State) :
    (raise k x v s).storeDefaults =
      s.storeDefaults := rfl
@[simp] theorem raise_store (k : EventKind) (x : Option Nat) (v : Option Word32) (s : State) :
    (raise k x v s).store =
      s.store := rfl
@[simp] theorem raise_credit (k : EventKind) (x : Option Nat) (v : Option Word32) (s : State) :
    (raise k x v s).credit =
      s.credit := rfl
@[simp] theorem raise_audit (k : EventKind) (x : Option Nat) (v : Option Word32) (s : State) :
    (raise k x v s).audit =
      s.audit := rfl
@[simp] theorem raise_change (k : EventKind) (x : Option Nat) (v : Option Word32) (s : State) :
    (raise k x v s).change =
      s.change := rfl
@[simp] theorem raise_sels (k : EventKind) (x : Option Nat) (v : Option Word32) (s : State) :
    (raise k x v s).sels =
      s.sels := rfl
@[simp] theorem raise_spirals (k : EventKind) (x : Option Nat) (v : Option Word32) (s : State) :
    (raise k x v s).spirals =
      s.spirals := rfl
@[simp] theorem raise_drive (k : EventKind) (x : Option Nat) (v : Option Word32) (s : State) :
    (raise k x v s).drive =
      s.drive := rfl
@[simp] theorem raise_cold (k : EventKind) (x : Option Nat) (v : Option Word32) (s : State) :
    (raise k x v s).cold =
      s.cold := rfl
@[simp] theorem raise_supply (k : EventKind) (x : Option Nat) (v : Option Word32) (s : State) :
    (raise k x v s).supply =
      s.supply := rfl
@[simp] theorem raise_line (k : EventKind) (x : Option Nat) (v : Option Word32) (s : State) :
    (raise k x v s).line =
      s.line := rfl
@[simp] theorem raise_link (k : EventKind) (x : Option Nat) (v : Option Word32) (s : State) :
    (raise k x v s).link =
      s.link := rfl
@[simp] theorem raise_events (k : EventKind) (x : Option Nat) (v : Option Word32) (s : State) :
    (raise k x v s).events =
      s.events.place { kind := k, time := s.seconds, subject := x, value := v, payload := [] } := rfl
@[simp] theorem raise_lock (k : EventKind) (x : Option Nat) (v : Option Word32) (s : State) :
    (raise k x v s).lock =
      s.lock := rfl

/-! ### raisePassReply -/

@[simp] theorem raisePassReply_pending (a r t : Nat) (l : List Byte) (s : State) :
    (raisePassReply a r t l s).pending =
      s.pending := rfl
@[simp] theorem raisePassReply_phase (a r t : Nat) (l : List Byte) (s : State) :
    (raisePassReply a r t l s).phase =
      s.phase := rfl
@[simp] theorem raisePassReply_seconds (a r t : Nat) (l : List Byte) (s : State) :
    (raisePassReply a r t l s).seconds =
      s.seconds := rfl
@[simp] theorem raisePassReply_tables (a r t : Nat) (l : List Byte) (s : State) :
    (raisePassReply a r t l s).tables =
      s.tables := rfl
@[simp] theorem raisePassReply_storeDefaults (a r t : Nat) (l : List Byte) (s : State) :
    (raisePassReply a r t l s).storeDefaults =
      s.storeDefaults := rfl
@[simp] theorem raisePassReply_store (a r t : Nat) (l : List Byte) (s : State) :
    (raisePassReply a r t l s).store =
      s.store := rfl
@[simp] theorem raisePassReply_credit (a r t : Nat) (l : List Byte) (s : State) :
    (raisePassReply a r t l s).credit =
      s.credit := rfl
@[simp] theorem raisePassReply_audit (a r t : Nat) (l : List Byte) (s : State) :
    (raisePassReply a r t l s).audit =
      s.audit := rfl
@[simp] theorem raisePassReply_change (a r t : Nat) (l : List Byte) (s : State) :
    (raisePassReply a r t l s).change =
      s.change := rfl
@[simp] theorem raisePassReply_sels (a r t : Nat) (l : List Byte) (s : State) :
    (raisePassReply a r t l s).sels =
      s.sels := rfl
@[simp] theorem raisePassReply_spirals (a r t : Nat) (l : List Byte) (s : State) :
    (raisePassReply a r t l s).spirals =
      s.spirals := rfl
@[simp] theorem raisePassReply_drive (a r t : Nat) (l : List Byte) (s : State) :
    (raisePassReply a r t l s).drive =
      s.drive := rfl
@[simp] theorem raisePassReply_cold (a r t : Nat) (l : List Byte) (s : State) :
    (raisePassReply a r t l s).cold =
      s.cold := rfl
@[simp] theorem raisePassReply_supply (a r t : Nat) (l : List Byte) (s : State) :
    (raisePassReply a r t l s).supply =
      s.supply := rfl
@[simp] theorem raisePassReply_line (a r t : Nat) (l : List Byte) (s : State) :
    (raisePassReply a r t l s).line =
      s.line := rfl
@[simp] theorem raisePassReply_link (a r t : Nat) (l : List Byte) (s : State) :
    (raisePassReply a r t l s).link =
      s.link := rfl
@[simp] theorem raisePassReply_events (a r t : Nat) (l : List Byte) (s : State) :
    (raisePassReply a r t l s).events =
      s.events.place { kind := .passReply, time := s.seconds, subject := some a, value := some (pack 0 0 r t), payload := l } := rfl
@[simp] theorem raisePassReply_lock (a r t : Nat) (l : List Byte) (s : State) :
    (raisePassReply a r t l s).lock =
      s.lock := rfl

/-! ### markReplan -/

@[simp] theorem markReplan_pending (s : State) : (markReplan s).pending = s.pending := rfl
@[simp] theorem markReplan_phase (s : State) : (markReplan s).phase = s.phase := rfl
@[simp] theorem markReplan_seconds (s : State) : (markReplan s).seconds = s.seconds := rfl
@[simp] theorem markReplan_tables (s : State) : (markReplan s).tables = s.tables := rfl
@[simp] theorem markReplan_storeDefaults (s : State) : (markReplan s).storeDefaults = s.storeDefaults := rfl
@[simp] theorem markReplan_store (s : State) : (markReplan s).store = s.store := rfl
@[simp] theorem markReplan_credit (s : State) : (markReplan s).credit = s.credit := rfl
@[simp] theorem markReplan_audit (s : State) : (markReplan s).audit = s.audit := rfl
@[simp] theorem markReplan_change (s : State) :
    (markReplan s).change =
      { s.change with payout := s.change.payout.map Payout.markReplan } := rfl
@[simp] theorem markReplan_sels (s : State) : (markReplan s).sels = s.sels := rfl
@[simp] theorem markReplan_spirals (s : State) : (markReplan s).spirals = s.spirals := rfl
@[simp] theorem markReplan_drive (s : State) : (markReplan s).drive = s.drive := rfl
@[simp] theorem markReplan_cold (s : State) : (markReplan s).cold = s.cold := rfl
@[simp] theorem markReplan_supply (s : State) : (markReplan s).supply = s.supply := rfl
@[simp] theorem markReplan_line (s : State) : (markReplan s).line = s.line := rfl
@[simp] theorem markReplan_link (s : State) : (markReplan s).link = s.link := rfl
@[simp] theorem markReplan_events (s : State) : (markReplan s).events = s.events := rfl
@[simp] theorem markReplan_lock (s : State) : (markReplan s).lock = s.lock := rfl

/-! ### modTube -/

@[simp] theorem modTube_pending (n : Nat) (f : TubeState → TubeState) (s : State) :
    (modTube n f s).pending =
      s.pending := rfl
@[simp] theorem modTube_phase (n : Nat) (f : TubeState → TubeState) (s : State) :
    (modTube n f s).phase =
      s.phase := rfl
@[simp] theorem modTube_seconds (n : Nat) (f : TubeState → TubeState) (s : State) :
    (modTube n f s).seconds =
      s.seconds := rfl
@[simp] theorem modTube_tables (n : Nat) (f : TubeState → TubeState) (s : State) :
    (modTube n f s).tables =
      s.tables := rfl
@[simp] theorem modTube_storeDefaults (n : Nat) (f : TubeState → TubeState) (s : State) :
    (modTube n f s).storeDefaults =
      s.storeDefaults := rfl
@[simp] theorem modTube_store (n : Nat) (f : TubeState → TubeState) (s : State) :
    (modTube n f s).store =
      s.store := rfl
@[simp] theorem modTube_credit (n : Nat) (f : TubeState → TubeState) (s : State) :
    (modTube n f s).credit =
      s.credit := rfl
@[simp] theorem modTube_audit (n : Nat) (f : TubeState → TubeState) (s : State) :
    (modTube n f s).audit =
      s.audit := rfl
@[simp] theorem modTube_change (n : Nat) (f : TubeState → TubeState) (s : State) :
    (modTube n f s).change =
      { s.change with tubes := updAt s.change.tubes n f } := rfl
@[simp] theorem modTube_sels (n : Nat) (f : TubeState → TubeState) (s : State) :
    (modTube n f s).sels =
      s.sels := rfl
@[simp] theorem modTube_spirals (n : Nat) (f : TubeState → TubeState) (s : State) :
    (modTube n f s).spirals =
      s.spirals := rfl
@[simp] theorem modTube_drive (n : Nat) (f : TubeState → TubeState) (s : State) :
    (modTube n f s).drive =
      s.drive := rfl
@[simp] theorem modTube_cold (n : Nat) (f : TubeState → TubeState) (s : State) :
    (modTube n f s).cold =
      s.cold := rfl
@[simp] theorem modTube_supply (n : Nat) (f : TubeState → TubeState) (s : State) :
    (modTube n f s).supply =
      s.supply := rfl
@[simp] theorem modTube_line (n : Nat) (f : TubeState → TubeState) (s : State) :
    (modTube n f s).line =
      s.line := rfl
@[simp] theorem modTube_link (n : Nat) (f : TubeState → TubeState) (s : State) :
    (modTube n f s).link =
      s.link := rfl
@[simp] theorem modTube_events (n : Nat) (f : TubeState → TubeState) (s : State) :
    (modTube n f s).events =
      s.events := rfl
@[simp] theorem modTube_lock (n : Nat) (f : TubeState → TubeState) (s : State) :
    (modTube n f s).lock =
      s.lock := rfl

/-! ### modSel -/

@[simp] theorem modSel_pending (n : Nat) (f : SelKept → SelKept) (s : State) :
    (modSel n f s).pending =
      s.pending := rfl
@[simp] theorem modSel_phase (n : Nat) (f : SelKept → SelKept) (s : State) : (modSel n f s).phase = s.phase := rfl
@[simp] theorem modSel_seconds (n : Nat) (f : SelKept → SelKept) (s : State) :
    (modSel n f s).seconds =
      s.seconds := rfl
@[simp] theorem modSel_tables (n : Nat) (f : SelKept → SelKept) (s : State) :
    (modSel n f s).tables =
      s.tables := rfl
@[simp] theorem modSel_storeDefaults (n : Nat) (f : SelKept → SelKept) (s : State) :
    (modSel n f s).storeDefaults =
      s.storeDefaults := rfl
@[simp] theorem modSel_store (n : Nat) (f : SelKept → SelKept) (s : State) : (modSel n f s).store = s.store := rfl
@[simp] theorem modSel_credit (n : Nat) (f : SelKept → SelKept) (s : State) :
    (modSel n f s).credit =
      s.credit := rfl
@[simp] theorem modSel_audit (n : Nat) (f : SelKept → SelKept) (s : State) : (modSel n f s).audit = s.audit := rfl
@[simp] theorem modSel_change (n : Nat) (f : SelKept → SelKept) (s : State) :
    (modSel n f s).change =
      s.change := rfl
@[simp] theorem modSel_sels (n : Nat) (f : SelKept → SelKept) (s : State) :
    (modSel n f s).sels =
      updAt s.sels n f := rfl
@[simp] theorem modSel_spirals (n : Nat) (f : SelKept → SelKept) (s : State) :
    (modSel n f s).spirals =
      s.spirals := rfl
@[simp] theorem modSel_drive (n : Nat) (f : SelKept → SelKept) (s : State) : (modSel n f s).drive = s.drive := rfl
@[simp] theorem modSel_cold (n : Nat) (f : SelKept → SelKept) (s : State) : (modSel n f s).cold = s.cold := rfl
@[simp] theorem modSel_supply (n : Nat) (f : SelKept → SelKept) (s : State) :
    (modSel n f s).supply =
      s.supply := rfl
@[simp] theorem modSel_line (n : Nat) (f : SelKept → SelKept) (s : State) : (modSel n f s).line = s.line := rfl
@[simp] theorem modSel_link (n : Nat) (f : SelKept → SelKept) (s : State) : (modSel n f s).link = s.link := rfl
@[simp] theorem modSel_events (n : Nat) (f : SelKept → SelKept) (s : State) :
    (modSel n f s).events =
      s.events := rfl
@[simp] theorem modSel_lock (n : Nat) (f : SelKept → SelKept) (s : State) : (modSel n f s).lock = s.lock := rfl

/-! ### modSpiral -/

@[simp] theorem modSpiral_pending (n : Nat) (f : SpiralRec → SpiralRec) (s : State) :
    (modSpiral n f s).pending =
      s.pending := rfl
@[simp] theorem modSpiral_phase (n : Nat) (f : SpiralRec → SpiralRec) (s : State) :
    (modSpiral n f s).phase =
      s.phase := rfl
@[simp] theorem modSpiral_seconds (n : Nat) (f : SpiralRec → SpiralRec) (s : State) :
    (modSpiral n f s).seconds =
      s.seconds := rfl
@[simp] theorem modSpiral_tables (n : Nat) (f : SpiralRec → SpiralRec) (s : State) :
    (modSpiral n f s).tables =
      s.tables := rfl
@[simp] theorem modSpiral_storeDefaults (n : Nat) (f : SpiralRec → SpiralRec) (s : State) :
    (modSpiral n f s).storeDefaults =
      s.storeDefaults := rfl
@[simp] theorem modSpiral_store (n : Nat) (f : SpiralRec → SpiralRec) (s : State) :
    (modSpiral n f s).store =
      s.store := rfl
@[simp] theorem modSpiral_credit (n : Nat) (f : SpiralRec → SpiralRec) (s : State) :
    (modSpiral n f s).credit =
      s.credit := rfl
@[simp] theorem modSpiral_audit (n : Nat) (f : SpiralRec → SpiralRec) (s : State) :
    (modSpiral n f s).audit =
      s.audit := rfl
@[simp] theorem modSpiral_change (n : Nat) (f : SpiralRec → SpiralRec) (s : State) :
    (modSpiral n f s).change =
      s.change := rfl
@[simp] theorem modSpiral_sels (n : Nat) (f : SpiralRec → SpiralRec) (s : State) :
    (modSpiral n f s).sels =
      s.sels := rfl
@[simp] theorem modSpiral_spirals (n : Nat) (f : SpiralRec → SpiralRec) (s : State) :
    (modSpiral n f s).spirals =
      updAt s.spirals n f := rfl
@[simp] theorem modSpiral_drive (n : Nat) (f : SpiralRec → SpiralRec) (s : State) :
    (modSpiral n f s).drive =
      s.drive := rfl
@[simp] theorem modSpiral_cold (n : Nat) (f : SpiralRec → SpiralRec) (s : State) :
    (modSpiral n f s).cold =
      s.cold := rfl
@[simp] theorem modSpiral_supply (n : Nat) (f : SpiralRec → SpiralRec) (s : State) :
    (modSpiral n f s).supply =
      s.supply := rfl
@[simp] theorem modSpiral_line (n : Nat) (f : SpiralRec → SpiralRec) (s : State) :
    (modSpiral n f s).line =
      s.line := rfl
@[simp] theorem modSpiral_link (n : Nat) (f : SpiralRec → SpiralRec) (s : State) :
    (modSpiral n f s).link =
      s.link := rfl
@[simp] theorem modSpiral_events (n : Nat) (f : SpiralRec → SpiralRec) (s : State) :
    (modSpiral n f s).events =
      s.events := rfl
@[simp] theorem modSpiral_lock (n : Nat) (f : SpiralRec → SpiralRec) (s : State) :
    (modSpiral n f s).lock =
      s.lock := rfl

/-! ### modSlot -/

@[simp] theorem modSlot_pending (n : Nat) (f : Slot → Slot) (s : State) :
    (modSlot n f s).pending =
      s.pending := rfl
@[simp] theorem modSlot_phase (n : Nat) (f : Slot → Slot) (s : State) : (modSlot n f s).phase = s.phase := rfl
@[simp] theorem modSlot_seconds (n : Nat) (f : Slot → Slot) (s : State) :
    (modSlot n f s).seconds =
      s.seconds := rfl
@[simp] theorem modSlot_tables (n : Nat) (f : Slot → Slot) (s : State) : (modSlot n f s).tables = s.tables := rfl
@[simp] theorem modSlot_storeDefaults (n : Nat) (f : Slot → Slot) (s : State) :
    (modSlot n f s).storeDefaults =
      s.storeDefaults := rfl
@[simp] theorem modSlot_store (n : Nat) (f : Slot → Slot) (s : State) : (modSlot n f s).store = s.store := rfl
@[simp] theorem modSlot_credit (n : Nat) (f : Slot → Slot) (s : State) : (modSlot n f s).credit = s.credit := rfl
@[simp] theorem modSlot_audit (n : Nat) (f : Slot → Slot) (s : State) : (modSlot n f s).audit = s.audit := rfl
@[simp] theorem modSlot_change (n : Nat) (f : Slot → Slot) (s : State) : (modSlot n f s).change = s.change := rfl
@[simp] theorem modSlot_sels (n : Nat) (f : Slot → Slot) (s : State) : (modSlot n f s).sels = s.sels := rfl
@[simp] theorem modSlot_spirals (n : Nat) (f : Slot → Slot) (s : State) :
    (modSlot n f s).spirals =
      s.spirals := rfl
@[simp] theorem modSlot_drive (n : Nat) (f : Slot → Slot) (s : State) : (modSlot n f s).drive = s.drive := rfl
@[simp] theorem modSlot_cold (n : Nat) (f : Slot → Slot) (s : State) : (modSlot n f s).cold = s.cold := rfl
@[simp] theorem modSlot_supply (n : Nat) (f : Slot → Slot) (s : State) : (modSlot n f s).supply = s.supply := rfl
@[simp] theorem modSlot_line (n : Nat) (f : Slot → Slot) (s : State) :
    (modSlot n f s).line =
      { s.line with slots := updAt s.line.slots (n - 1) f } := rfl
@[simp] theorem modSlot_link (n : Nat) (f : Slot → Slot) (s : State) : (modSlot n f s).link = s.link := rfl
@[simp] theorem modSlot_events (n : Nat) (f : Slot → Slot) (s : State) : (modSlot n f s).events = s.events := rfl
@[simp] theorem modSlot_lock (n : Nat) (f : Slot → Slot) (s : State) : (modSlot n f s).lock = s.lock := rfl

/-! ### modSensor -/

@[simp] theorem modSensor_pending (n : Nat) (f : TempSensor → TempSensor) (s : State) :
    (modSensor n f s).pending =
      s.pending := rfl
@[simp] theorem modSensor_phase (n : Nat) (f : TempSensor → TempSensor) (s : State) :
    (modSensor n f s).phase =
      s.phase := rfl
@[simp] theorem modSensor_seconds (n : Nat) (f : TempSensor → TempSensor) (s : State) :
    (modSensor n f s).seconds =
      s.seconds := rfl
@[simp] theorem modSensor_tables (n : Nat) (f : TempSensor → TempSensor) (s : State) :
    (modSensor n f s).tables =
      s.tables := rfl
@[simp] theorem modSensor_storeDefaults (n : Nat) (f : TempSensor → TempSensor) (s : State) :
    (modSensor n f s).storeDefaults =
      s.storeDefaults := rfl
@[simp] theorem modSensor_store (n : Nat) (f : TempSensor → TempSensor) (s : State) :
    (modSensor n f s).store =
      s.store := rfl
@[simp] theorem modSensor_credit (n : Nat) (f : TempSensor → TempSensor) (s : State) :
    (modSensor n f s).credit =
      s.credit := rfl
@[simp] theorem modSensor_audit (n : Nat) (f : TempSensor → TempSensor) (s : State) :
    (modSensor n f s).audit =
      s.audit := rfl
@[simp] theorem modSensor_change (n : Nat) (f : TempSensor → TempSensor) (s : State) :
    (modSensor n f s).change =
      s.change := rfl
@[simp] theorem modSensor_sels (n : Nat) (f : TempSensor → TempSensor) (s : State) :
    (modSensor n f s).sels =
      s.sels := rfl
@[simp] theorem modSensor_spirals (n : Nat) (f : TempSensor → TempSensor) (s : State) :
    (modSensor n f s).spirals =
      s.spirals := rfl
@[simp] theorem modSensor_drive (n : Nat) (f : TempSensor → TempSensor) (s : State) :
    (modSensor n f s).drive =
      s.drive := rfl
@[simp] theorem modSensor_cold (n : Nat) (f : TempSensor → TempSensor) (s : State) :
    (modSensor n f s).cold =
      { s.cold with sensors := updAt s.cold.sensors n f } := rfl
@[simp] theorem modSensor_supply (n : Nat) (f : TempSensor → TempSensor) (s : State) :
    (modSensor n f s).supply =
      s.supply := rfl
@[simp] theorem modSensor_line (n : Nat) (f : TempSensor → TempSensor) (s : State) :
    (modSensor n f s).line =
      s.line := rfl
@[simp] theorem modSensor_link (n : Nat) (f : TempSensor → TempSensor) (s : State) :
    (modSensor n f s).link =
      s.link := rfl
@[simp] theorem modSensor_events (n : Nat) (f : TempSensor → TempSensor) (s : State) :
    (modSensor n f s).events =
      s.events := rfl
@[simp] theorem modSensor_lock (n : Nat) (f : TempSensor → TempSensor) (s : State) :
    (modSensor n f s).lock =
      s.lock := rfl

/-! ### modZone -/

@[simp] theorem modZone_pending (n : Nat) (f : ZoneState → ZoneState) (s : State) :
    (modZone n f s).pending =
      s.pending := rfl
@[simp] theorem modZone_phase (n : Nat) (f : ZoneState → ZoneState) (s : State) :
    (modZone n f s).phase =
      s.phase := rfl
@[simp] theorem modZone_seconds (n : Nat) (f : ZoneState → ZoneState) (s : State) :
    (modZone n f s).seconds =
      s.seconds := rfl
@[simp] theorem modZone_tables (n : Nat) (f : ZoneState → ZoneState) (s : State) :
    (modZone n f s).tables =
      s.tables := rfl
@[simp] theorem modZone_storeDefaults (n : Nat) (f : ZoneState → ZoneState) (s : State) :
    (modZone n f s).storeDefaults =
      s.storeDefaults := rfl
@[simp] theorem modZone_store (n : Nat) (f : ZoneState → ZoneState) (s : State) :
    (modZone n f s).store =
      s.store := rfl
@[simp] theorem modZone_credit (n : Nat) (f : ZoneState → ZoneState) (s : State) :
    (modZone n f s).credit =
      s.credit := rfl
@[simp] theorem modZone_audit (n : Nat) (f : ZoneState → ZoneState) (s : State) :
    (modZone n f s).audit =
      s.audit := rfl
@[simp] theorem modZone_change (n : Nat) (f : ZoneState → ZoneState) (s : State) :
    (modZone n f s).change =
      s.change := rfl
@[simp] theorem modZone_sels (n : Nat) (f : ZoneState → ZoneState) (s : State) :
    (modZone n f s).sels =
      s.sels := rfl
@[simp] theorem modZone_spirals (n : Nat) (f : ZoneState → ZoneState) (s : State) :
    (modZone n f s).spirals =
      s.spirals := rfl
@[simp] theorem modZone_drive (n : Nat) (f : ZoneState → ZoneState) (s : State) :
    (modZone n f s).drive =
      s.drive := rfl
@[simp] theorem modZone_cold (n : Nat) (f : ZoneState → ZoneState) (s : State) :
    (modZone n f s).cold =
      { s.cold with zones := updAt s.cold.zones n f } := rfl
@[simp] theorem modZone_supply (n : Nat) (f : ZoneState → ZoneState) (s : State) :
    (modZone n f s).supply =
      s.supply := rfl
@[simp] theorem modZone_line (n : Nat) (f : ZoneState → ZoneState) (s : State) :
    (modZone n f s).line =
      s.line := rfl
@[simp] theorem modZone_link (n : Nat) (f : ZoneState → ZoneState) (s : State) :
    (modZone n f s).link =
      s.link := rfl
@[simp] theorem modZone_events (n : Nat) (f : ZoneState → ZoneState) (s : State) :
    (modZone n f s).events =
      s.events := rfl
@[simp] theorem modZone_lock (n : Nat) (f : ZoneState → ZoneState) (s : State) :
    (modZone n f s).lock =
      s.lock := rfl

/-! ### modMaskRec -/

@[simp] theorem modMaskRec_pending (p : Periph) (f : MaskRec → MaskRec) (s : State) :
    (modMaskRec p f s).pending =
      s.pending := rfl
@[simp] theorem modMaskRec_phase (p : Periph) (f : MaskRec → MaskRec) (s : State) :
    (modMaskRec p f s).phase =
      s.phase := rfl
@[simp] theorem modMaskRec_seconds (p : Periph) (f : MaskRec → MaskRec) (s : State) :
    (modMaskRec p f s).seconds =
      s.seconds := rfl
@[simp] theorem modMaskRec_tables (p : Periph) (f : MaskRec → MaskRec) (s : State) :
    (modMaskRec p f s).tables =
      s.tables := rfl
@[simp] theorem modMaskRec_storeDefaults (p : Periph) (f : MaskRec → MaskRec) (s : State) :
    (modMaskRec p f s).storeDefaults =
      s.storeDefaults := rfl
@[simp] theorem modMaskRec_store (p : Periph) (f : MaskRec → MaskRec) (s : State) :
    (modMaskRec p f s).store =
      s.store := rfl
@[simp] theorem modMaskRec_credit (p : Periph) (f : MaskRec → MaskRec) (s : State) :
    (modMaskRec p f s).credit =
      s.credit := rfl
@[simp] theorem modMaskRec_audit (p : Periph) (f : MaskRec → MaskRec) (s : State) :
    (modMaskRec p f s).audit =
      s.audit := rfl
@[simp] theorem modMaskRec_change (p : Periph) (f : MaskRec → MaskRec) (s : State) :
    (modMaskRec p f s).change =
      s.change := rfl
@[simp] theorem modMaskRec_sels (p : Periph) (f : MaskRec → MaskRec) (s : State) :
    (modMaskRec p f s).sels =
      s.sels := rfl
@[simp] theorem modMaskRec_spirals (p : Periph) (f : MaskRec → MaskRec) (s : State) :
    (modMaskRec p f s).spirals =
      s.spirals := rfl
@[simp] theorem modMaskRec_drive (p : Periph) (f : MaskRec → MaskRec) (s : State) :
    (modMaskRec p f s).drive =
      s.drive := rfl
@[simp] theorem modMaskRec_cold (p : Periph) (f : MaskRec → MaskRec) (s : State) :
    (modMaskRec p f s).cold =
      s.cold := rfl
@[simp] theorem modMaskRec_supply (p : Periph) (f : MaskRec → MaskRec) (s : State) :
    (modMaskRec p f s).supply =
      s.supply := rfl
@[simp] theorem modMaskRec_line (p : Periph) (f : MaskRec → MaskRec) (s : State) :
    (modMaskRec p f s).line =
      s.line.setMaskRec p (f (s.line.maskRec p)) := rfl
@[simp] theorem modMaskRec_link (p : Periph) (f : MaskRec → MaskRec) (s : State) :
    (modMaskRec p f s).link =
      s.link := rfl
@[simp] theorem modMaskRec_events (p : Periph) (f : MaskRec → MaskRec) (s : State) :
    (modMaskRec p f s).events =
      s.events := rfl
@[simp] theorem modMaskRec_lock (p : Periph) (f : MaskRec → MaskRec) (s : State) :
    (modMaskRec p f s).lock =
      s.lock := rfl

/-! ### countDropped -/

@[simp] theorem countDropped_pending (s : State) : (countDropped s).pending = s.pending := rfl
@[simp] theorem countDropped_phase (s : State) : (countDropped s).phase = s.phase := rfl
@[simp] theorem countDropped_seconds (s : State) : (countDropped s).seconds = s.seconds := rfl
@[simp] theorem countDropped_tables (s : State) : (countDropped s).tables = s.tables := rfl
@[simp] theorem countDropped_storeDefaults (s : State) : (countDropped s).storeDefaults = s.storeDefaults := rfl
@[simp] theorem countDropped_store (s : State) : (countDropped s).store = s.store := rfl
@[simp] theorem countDropped_credit (s : State) : (countDropped s).credit = s.credit := rfl
@[simp] theorem countDropped_audit (s : State) : (countDropped s).audit = s.audit := rfl
@[simp] theorem countDropped_change (s : State) : (countDropped s).change = s.change := rfl
@[simp] theorem countDropped_sels (s : State) : (countDropped s).sels = s.sels := rfl
@[simp] theorem countDropped_spirals (s : State) : (countDropped s).spirals = s.spirals := rfl
@[simp] theorem countDropped_drive (s : State) : (countDropped s).drive = s.drive := rfl
@[simp] theorem countDropped_cold (s : State) : (countDropped s).cold = s.cold := rfl
@[simp] theorem countDropped_supply (s : State) : (countDropped s).supply = s.supply := rfl
@[simp] theorem countDropped_line (s : State) :
    (countDropped s).line =
      { s.line with dropped := satAdd Config.maxCount16 s.line.dropped 1 } := rfl
@[simp] theorem countDropped_link (s : State) : (countDropped s).link = s.link := rfl
@[simp] theorem countDropped_events (s : State) : (countDropped s).events = s.events := rfl
@[simp] theorem countDropped_lock (s : State) : (countDropped s).lock = s.lock := rfl

/-! ### stopMotor -/

@[simp] theorem stopMotor_pending (s : State) : (stopMotor s).pending = s.pending := rfl
@[simp] theorem stopMotor_phase (s : State) : (stopMotor s).phase = s.phase := rfl
@[simp] theorem stopMotor_seconds (s : State) : (stopMotor s).seconds = s.seconds := rfl
@[simp] theorem stopMotor_tables (s : State) : (stopMotor s).tables = s.tables := rfl
@[simp] theorem stopMotor_storeDefaults (s : State) : (stopMotor s).storeDefaults = s.storeDefaults := rfl
@[simp] theorem stopMotor_store (s : State) : (stopMotor s).store = s.store := rfl
@[simp] theorem stopMotor_credit (s : State) : (stopMotor s).credit = s.credit := rfl
@[simp] theorem stopMotor_audit (s : State) : (stopMotor s).audit = s.audit := rfl
@[simp] theorem stopMotor_change (s : State) : (stopMotor s).change = s.change := rfl
@[simp] theorem stopMotor_sels (s : State) : (stopMotor s).sels = s.sels := rfl
@[simp] theorem stopMotor_spirals (s : State) : (stopMotor s).spirals = s.spirals := rfl
@[simp] theorem stopMotor_drive (s : State) : (stopMotor s).drive = { s.drive with row := none } := rfl
@[simp] theorem stopMotor_cold (s : State) : (stopMotor s).cold = s.cold := rfl
@[simp] theorem stopMotor_supply (s : State) : (stopMotor s).supply = s.supply := rfl
@[simp] theorem stopMotor_line (s : State) : (stopMotor s).line = s.line := rfl
@[simp] theorem stopMotor_link (s : State) : (stopMotor s).link = s.link := rfl
@[simp] theorem stopMotor_events (s : State) : (stopMotor s).events = s.events := rfl
@[simp] theorem stopMotor_lock (s : State) : (stopMotor s).lock = s.lock := rfl

/-! ### startRev -/

@[simp] theorem startRev_pending (p : Nat) (s : State) : (startRev p s).pending = s.pending := rfl
@[simp] theorem startRev_phase (p : Nat) (s : State) : (startRev p s).phase = s.phase := rfl
@[simp] theorem startRev_seconds (p : Nat) (s : State) : (startRev p s).seconds = s.seconds := rfl
@[simp] theorem startRev_tables (p : Nat) (s : State) : (startRev p s).tables = s.tables := rfl
@[simp] theorem startRev_storeDefaults (p : Nat) (s : State) :
    (startRev p s).storeDefaults =
      s.storeDefaults := rfl
@[simp] theorem startRev_store (p : Nat) (s : State) : (startRev p s).store = s.store := rfl
@[simp] theorem startRev_credit (p : Nat) (s : State) : (startRev p s).credit = s.credit := rfl
@[simp] theorem startRev_audit (p : Nat) (s : State) : (startRev p s).audit = s.audit := rfl
@[simp] theorem startRev_change (p : Nat) (s : State) : (startRev p s).change = s.change := rfl
@[simp] theorem startRev_sels (p : Nat) (s : State) : (startRev p s).sels = s.sels := rfl
@[simp] theorem startRev_spirals (p : Nat) (s : State) : (startRev p s).spirals = s.spirals := rfl
@[simp] theorem startRev_drive (p : Nat) (s : State) :
    (startRev p s).drive =
      { s.drive with rev := some (newRev p) } := rfl
@[simp] theorem startRev_cold (p : Nat) (s : State) : (startRev p s).cold = s.cold := rfl
@[simp] theorem startRev_supply (p : Nat) (s : State) : (startRev p s).supply = s.supply := rfl
@[simp] theorem startRev_line (p : Nat) (s : State) : (startRev p s).line = s.line := rfl
@[simp] theorem startRev_link (p : Nat) (s : State) : (startRev p s).link = s.link := rfl
@[simp] theorem startRev_events (p : Nat) (s : State) : (startRev p s).events = s.events := rfl
@[simp] theorem startRev_lock (p : Nat) (s : State) : (startRev p s).lock = s.lock := rfl

/-! ### lockOff -/

@[simp] theorem lockOff_pending (s : State) : (lockOff s).pending = s.pending := rfl
@[simp] theorem lockOff_phase (s : State) : (lockOff s).phase = s.phase := rfl
@[simp] theorem lockOff_seconds (s : State) : (lockOff s).seconds = s.seconds := rfl
@[simp] theorem lockOff_tables (s : State) : (lockOff s).tables = s.tables := rfl
@[simp] theorem lockOff_storeDefaults (s : State) : (lockOff s).storeDefaults = s.storeDefaults := rfl
@[simp] theorem lockOff_store (s : State) : (lockOff s).store = s.store := rfl
@[simp] theorem lockOff_credit (s : State) : (lockOff s).credit = s.credit := rfl
@[simp] theorem lockOff_audit (s : State) : (lockOff s).audit = s.audit := rfl
@[simp] theorem lockOff_change (s : State) : (lockOff s).change = s.change := rfl
@[simp] theorem lockOff_sels (s : State) : (lockOff s).sels = s.sels := rfl
@[simp] theorem lockOff_spirals (s : State) : (lockOff s).spirals = s.spirals := rfl
@[simp] theorem lockOff_drive (s : State) : (lockOff s).drive = s.drive := rfl
@[simp] theorem lockOff_cold (s : State) :
    (lockOff s).cold =
      { s.cold with relay := false, runTimer := .off, surgeTimer := none, offTimer := some s.tables.refrig.minOffMs, state := .lockedOff } := rfl
@[simp] theorem lockOff_supply (s : State) : (lockOff s).supply = s.supply := rfl
@[simp] theorem lockOff_line (s : State) : (lockOff s).line = s.line := rfl
@[simp] theorem lockOff_link (s : State) : (lockOff s).link = s.link := rfl
@[simp] theorem lockOff_events (s : State) : (lockOff s).events = s.events := rfl
@[simp] theorem lockOff_lock (s : State) : (lockOff s).lock = s.lock := rfl

/-! ### clearMarks -/

@[simp] theorem clearMarks_pending (s : State) : (clearMarks s).pending = s.pending := rfl
@[simp] theorem clearMarks_phase (s : State) : (clearMarks s).phase = s.phase := rfl
@[simp] theorem clearMarks_seconds (s : State) : (clearMarks s).seconds = s.seconds := rfl
@[simp] theorem clearMarks_tables (s : State) : (clearMarks s).tables = s.tables := rfl
@[simp] theorem clearMarks_storeDefaults (s : State) : (clearMarks s).storeDefaults = s.storeDefaults := rfl
@[simp] theorem clearMarks_store (s : State) : (clearMarks s).store = s.store := rfl
@[simp] theorem clearMarks_credit (s : State) : (clearMarks s).credit = s.credit := rfl
@[simp] theorem clearMarks_audit (s : State) : (clearMarks s).audit = s.audit := rfl
@[simp] theorem clearMarks_change (s : State) : (clearMarks s).change = s.change := rfl
@[simp] theorem clearMarks_sels (s : State) : (clearMarks s).sels = s.sels := rfl
@[simp] theorem clearMarks_spirals (s : State) : (clearMarks s).spirals = s.spirals := rfl
@[simp] theorem clearMarks_drive (s : State) : (clearMarks s).drive = s.drive := rfl
@[simp] theorem clearMarks_cold (s : State) : (clearMarks s).cold = s.cold := rfl
@[simp] theorem clearMarks_supply (s : State) : (clearMarks s).supply = s.supply := rfl
@[simp] theorem clearMarks_line (s : State) : (clearMarks s).line = s.line := rfl
@[simp] theorem clearMarks_link (s : State) :
    (clearMarks s).link =
      { s.link with lostFrame := false, tagReset := false, linkWasLost := false } := rfl
@[simp] theorem clearMarks_events (s : State) : (clearMarks s).events = s.events := rfl
@[simp] theorem clearMarks_lock (s : State) : (clearMarks s).lock = s.lock := rfl

/-! ### grantRule -/

@[simp] theorem grantRule_pending (s : State) : (grantRule s).pending = s.pending := rfl
@[simp] theorem grantRule_phase (s : State) : (grantRule s).phase = s.phase := rfl
@[simp] theorem grantRule_seconds (s : State) : (grantRule s).seconds = s.seconds := rfl
@[simp] theorem grantRule_tables (s : State) : (grantRule s).tables = s.tables := rfl
@[simp] theorem grantRule_storeDefaults (s : State) : (grantRule s).storeDefaults = s.storeDefaults := rfl
@[simp] theorem grantRule_store (s : State) : (grantRule s).store = s.store := rfl
@[simp] theorem grantRule_credit (s : State) : (grantRule s).credit = s.credit := rfl
@[simp] theorem grantRule_audit (s : State) : (grantRule s).audit = s.audit := rfl
@[simp] theorem grantRule_change (s : State) : (grantRule s).change = s.change := rfl
@[simp] theorem grantRule_sels (s : State) : (grantRule s).sels = s.sels := rfl
@[simp] theorem grantRule_spirals (s : State) : (grantRule s).spirals = s.spirals := rfl
@[simp] theorem grantRule_drive (s : State) : (grantRule s).drive = s.drive := rfl
@[simp] theorem grantRule_cold (s : State) : (grantRule s).cold = s.cold := rfl
@[simp] theorem grantRule_line (s : State) : (grantRule s).line = s.line := rfl
@[simp] theorem grantRule_link (s : State) : (grantRule s).link = s.link := rfl
@[simp] theorem grantRule_events (s : State) : (grantRule s).events = s.events := rfl
@[simp] theorem grantRule_lock (s : State) : (grantRule s).lock = s.lock := rfl

/-! ### request -/

@[simp] theorem request_pending (x : Load) (s : State) : (request x s).pending = s.pending := by
  unfold request; split <;> rfl
@[simp] theorem request_phase (x : Load) (s : State) : (request x s).phase = s.phase := by
  unfold request; split <;> rfl
@[simp] theorem request_seconds (x : Load) (s : State) : (request x s).seconds = s.seconds := by
  unfold request; split <;> rfl
@[simp] theorem request_tables (x : Load) (s : State) : (request x s).tables = s.tables := by
  unfold request; split <;> rfl
@[simp] theorem request_storeDefaults (x : Load) (s : State) : (request x s).storeDefaults = s.storeDefaults := by
  unfold request; split <;> rfl
@[simp] theorem request_store (x : Load) (s : State) : (request x s).store = s.store := by
  unfold request; split <;> rfl
@[simp] theorem request_credit (x : Load) (s : State) : (request x s).credit = s.credit := by
  unfold request; split <;> rfl
@[simp] theorem request_audit (x : Load) (s : State) : (request x s).audit = s.audit := by
  unfold request; split <;> rfl
@[simp] theorem request_change (x : Load) (s : State) : (request x s).change = s.change := by
  unfold request; split <;> rfl
@[simp] theorem request_sels (x : Load) (s : State) : (request x s).sels = s.sels := by
  unfold request; split <;> rfl
@[simp] theorem request_spirals (x : Load) (s : State) : (request x s).spirals = s.spirals := by
  unfold request; split <;> rfl
@[simp] theorem request_drive (x : Load) (s : State) : (request x s).drive = s.drive := by
  unfold request; split <;> rfl
@[simp] theorem request_cold (x : Load) (s : State) : (request x s).cold = s.cold := by
  unfold request; split <;> rfl
@[simp] theorem request_line (x : Load) (s : State) : (request x s).line = s.line := by
  unfold request; split <;> rfl
@[simp] theorem request_link (x : Load) (s : State) : (request x s).link = s.link := by
  unfold request; split <;> rfl
@[simp] theorem request_events (x : Load) (s : State) : (request x s).events = s.events := by
  unfold request; split <;> rfl
@[simp] theorem request_lock (x : Load) (s : State) : (request x s).lock = s.lock := by
  unfold request; split <;> rfl

/-! ### release -/

@[simp] theorem release_pending (x : Load) (s : State) : (release x s).pending = s.pending := rfl
@[simp] theorem release_phase (x : Load) (s : State) : (release x s).phase = s.phase := rfl
@[simp] theorem release_seconds (x : Load) (s : State) : (release x s).seconds = s.seconds := rfl
@[simp] theorem release_tables (x : Load) (s : State) : (release x s).tables = s.tables := rfl
@[simp] theorem release_storeDefaults (x : Load) (s : State) : (release x s).storeDefaults = s.storeDefaults := rfl
@[simp] theorem release_store (x : Load) (s : State) : (release x s).store = s.store := rfl
@[simp] theorem release_credit (x : Load) (s : State) : (release x s).credit = s.credit := rfl
@[simp] theorem release_audit (x : Load) (s : State) : (release x s).audit = s.audit := rfl
@[simp] theorem release_change (x : Load) (s : State) : (release x s).change = s.change := rfl
@[simp] theorem release_sels (x : Load) (s : State) : (release x s).sels = s.sels := rfl
@[simp] theorem release_spirals (x : Load) (s : State) : (release x s).spirals = s.spirals := rfl
@[simp] theorem release_drive (x : Load) (s : State) : (release x s).drive = s.drive := rfl
@[simp] theorem release_cold (x : Load) (s : State) : (release x s).cold = s.cold := rfl
@[simp] theorem release_line (x : Load) (s : State) : (release x s).line = s.line := rfl
@[simp] theorem release_link (x : Load) (s : State) : (release x s).link = s.link := rfl
@[simp] theorem release_events (x : Load) (s : State) : (release x s).events = s.events := rfl
@[simp] theorem release_lock (x : Load) (s : State) : (release x s).lock = s.lock := rfl

/-! ### Lists and counts -/

@[simp] theorem length_updAt {α : Type} (l : List α) (n : Nat) (f : α → α) : (updAt l n f).length = l.length := by
  induction l generalizing n with
  | nil => rfl
  | cons x l ih => cases n <;> simp [updAt, ih]

/-- The entry changed, and every other entry as it was. -/
theorem getD_updAt {α : Type} (l : List α) (n m : Nat) (f : α → α) (d : α) :
    (updAt l n f).getD m d = if m = n ∧ n < l.length then f (l.getD m d) else l.getD m d := by
  induction l generalizing n m with
  | nil => simp [updAt]
  | cons x l ih => cases n <;> cases m <;> simp_all [updAt]

theorem mem_updAt {α : Type} {l : List α} {n : Nat} {f : α → α} {y : α} (h : y ∈ updAt l n f) :
    y ∈ l ∨ ∃ x ∈ l, y = f x := by
  induction l generalizing n with
  | nil => simp [updAt] at h
  | cons x l ih =>
    cases n with
    | zero => simp [updAt] at h; aesop
    | succ n =>
      simp [updAt] at h
      rcases h with h | h
      · exact .inl (by simp [h])
      · rcases ih h with h | ⟨z, hz, h⟩
        · exact .inl (by simp [h])
        · exact .inr ⟨z, by simp [hz], h⟩

theorem satAdd_le (m a b : Nat) : satAdd m a b ≤ m := Nat.min_le_left _ _

/-- A total that has not reached its limit has grown by the whole addition (R24). -/
theorem addTotal_of_lt {t a : Nat} (h : addTotal t a < Config.maxTotal) : addTotal t a = t + a := by
  unfold addTotal satAdd at *; omega

theorem returnFits_le (d a : Nat) : returnFits d a ≤ a := Nat.min_le_left _ _

/-! ### Events (R170) -/

theorem place_length (e : Event) (q : Events) (h : q.queue.length ≤ 32) : (q.place e).queue.length ≤ 32 := by
  unfold Events.place Config.eventCapacity
  split <;> simp_all

theorem place_dropped (e : Event) (q : Events) (h : q.dropped ≤ 255) : (q.place e).dropped ≤ 255 := by
  unfold Events.place
  split
  · exact satAdd_le _ _ _
  · exact h

/-! ### The grant rule (R118) -/

/-- The ratings of a set with a load put in are those of the set and the load's, unless it stood there. -/
theorem sum_put_true (t : LoadTable) (l : LoadSet) (x : Load) :
    t.sum (l.put x true) = if l.has x then t.sum l else t.sum l + t.rating x := by
  obtain ⟨a, b, c, d, e⟩ := l
  cases x <;> cases a <;> cases b <;> cases c <;> cases d <;> cases e <;>
    simp [LoadTable.sum, LoadSet.put, LoadSet.has, LoadTable.rating] <;> omega

theorem sum_put_false_le (t : LoadTable) (l : LoadSet) (x : Load) : t.sum (l.put x false) ≤ t.sum l := by
  obtain ⟨a, b, c, d, e⟩ := l
  cases x <;> cases a <;> cases b <;> cases c <;> cases d <;> cases e <;>
    simp [LoadTable.sum, LoadSet.put]

/-- The grant rule takes no grant away and leaves the granted sum within the budget when it was so. -/
theorem grantLoop_sum_le (t : LoadTable) (b : Nat) (xs : List Load) (g w : LoadSet) (h : t.sum g ≤ b) :
    t.sum (grantLoop t b xs g w).1 ≤ b := by
  induction xs generalizing g w with
  | nil => exact h
  | cons x xs ih =>
    unfold grantLoop
    split
    · split
      · refine ih _ _ ?_
        rw [sum_put_true]; split <;> omega
      · exact h
    · exact ih _ _ h

/-- While the granted sum stands above the budget the grant rule grants nothing. -/
theorem grantLoop_over (t : LoadTable) (b : Nat) (xs : List Load) (g w : LoadSet) (h : b < t.sum g) :
    grantLoop t b xs g w = (g, w) := by
  induction xs with
  | nil => rfl
  | cons x xs ih =>
    unfold grantLoop
    split
    · rw [if_neg (by omega)]
    · exact ih

/-! ### The copies of the Retention Store -/

@[simp] theorem copyOf_generation {α : Type} (g : Word32) (x : α) : (copyOf g x).generation = g := rfl
@[simp] theorem copyOf_contents {α : Type} (g : Word32) (x : α) : (copyOf g x).contents = x := rfl
@[simp] theorem copyOf_checked {α : Type} (g : Word32) (x : α) : checked (copyOf g x) := rfl
@[simp] theorem validCopy_none {α : Type} : validCopy (none : Option (StoreCopy α)) = none := rfl

/-- A copy with the check value of its contents is valid. -/
theorem validCopy_of_checked {α : Type} {x : StoreCopy α} (h : checked x) : validCopy (some x) = some x := by
  simp_all [validCopy, checked, Option.filter]

/-- A copy with another check value is invalid. -/
theorem validCopy_of_not_checked {α : Type} {x : StoreCopy α} (h : ¬checked x) : validCopy (some x) = none := by
  simp_all [validCopy, checked, Option.filter]

@[simp] theorem validCopy_copyOf {α : Type} (g : Word32) (x : α) : validCopy (some (copyOf g x)) = some (copyOf g x) :=
  validCopy_of_checked (copyOf_checked g x)

/-- While every copy that stands carries the check value of its contents, the store reads each as it stands. -/
theorem imagesOk.valid {α : Type} {a b : Option (StoreCopy α)} {w : Option (StoreWrite α)} (h : imagesOk a b w) :
    validCopy a = a ∧ validCopy b = b := by
  constructor
  · cases a with
    | none => rfl
    | some x => exact validCopy_of_checked (h.1 x (.inl rfl))
  · cases b with
    | none => rfl
    | some x => exact validCopy_of_checked (h.1 x (.inr rfl))

/-- What a write leaves: its contents, with their check value. -/
@[simp] theorem nextWrite_contents {α : Type} (a b : Option (StoreCopy α)) (x : α) :
    (nextWrite a b x).copy.contents = x := by
  unfold nextWrite; split <;> rfl
@[simp] theorem nextWrite_checked {α : Type} (a b : Option (StoreCopy α)) (x : α) :
    checked (nextWrite a b x).copy := by
  unfold nextWrite; split <;> rfl

end Sys2Proof.Machine
end

