-- ==== Sys2Proof/Laws/Frame.lean ====
section
/-! SUPPORT. What each operation on money, masks, tubes and payouts leaves as it was: one lemma per operation,
`<operation>_alters`. -/

/- One lemma after another: side by side their waiting threads take all the memory there is. -/
set_option Elab.async false

namespace Sys2Proof.Machine

theorem Alters.refl (ps : List Part) (s : State) : Alters ps s s := by
  intro p _; cases p <;> simp [Part.same]

theorem Alters.mono {ps qs : List Part} {s t : State} (h : Alters ps s t)
    (hs : ∀ a ∈ ps, a ∈ qs := by decide) : Alters qs s t := fun p hp => h p fun hm => hp (hs p hm)

theorem Part.same_trans (p : Part) {s t u : State} (h1 : p.same s t) (h2 : p.same t u) : p.same s u := by
  cases p <;> simp_all [Part.same]

theorem Alters.trans {ps : List Part} {s t u : State} (h1 : Alters ps s t) (h2 : Alters ps t u) :
    Alters ps s u := fun p hp => p.same_trans (h1 p hp) (h2 p hp)

/-- Two steps one after the other. -/
theorem Alters.seq {ps qs rs : List Part} {s t u : State} (h1 : Alters ps s t) (h2 : Alters qs t u)
    (hp : ∀ a ∈ ps, a ∈ rs := by decide) (hq : ∀ a ∈ qs, a ∈ rs := by decide) : Alters rs s u :=
  (h1.mono hp).trans (h2.mono hq)

theorem Alters.ite {ps : List Part} {s t u : State} {c : Prop} [Decidable c] (h1 : Alters ps s t)
    (h2 : Alters ps s u) : Alters ps s (if c then t else u) := by split <;> assumption

/-! ### Ops -/
theorem raise_alters (k : EventKind) (x : Option Nat) (v : Option Word32) (s : State) :
    Alters [.events] s (raise k x v s) := by
  intro p hp; cases p <;> simp_all [Part.same, raise]

theorem raisePassReply_alters (slot result tag : Nat) (payload : List Byte) (s : State) :
    Alters [.events] s (raisePassReply slot result tag payload s) := by
  intro p hp; cases p <;> simp_all [Part.same, raisePassReply]

theorem setSale_alters (s : State) : Alters [.sale] s (setSale s) := by
  intro p hp; cases p <;> simp_all [Part.same, setSale]

theorem markReplan_alters (s : State) : Alters [.payout] s (markReplan s) := by
  intro p hp; cases p <;> simp_all [Part.same, markReplan]

theorem addReturnDue_alters (a : Nat) (s : State) :
    Alters [.amounts, .shortWait, .payout, .audit, .events] s (addReturnDue a s) := by
  intro p hp; unfold addReturnDue
  cases p <;> simp_all only [Part.same, markReplan, raise] <;> (try split) <;> (try split) <;> simp_all

theorem grantRule_alters (s : State) : Alters [.grants] s (grantRule s) := by
  intro p hp; cases p <;> simp_all [Part.same, grantRule]

theorem request_alters (x : Load) (s : State) : Alters [.grants] s (request x s) := by
  intro p hp; unfold request; split <;> cases p <;> simp_all [Part.same, grantRule]

theorem release_alters (x : Load) (s : State) : Alters [.grants] s (release x s) := by
  intro p hp; cases p <;> simp_all [Part.same, release, grantRule]

theorem modTube_alters (n : Nat) (f : TubeState → TubeState) (s : State) :
    Alters [.tubes] s (modTube n f s) := by
  intro p hp; cases p <;> simp_all [Part.same, modTube]

theorem modSel_alters (n : Nat) (f : SelKept → SelKept) (s : State) :
    Alters [.sels] s (modSel n f s) := by
  intro p hp; cases p <;> simp_all [Part.same, modSel]

theorem modSpiral_alters (n : Nat) (f : SpiralRec → SpiralRec) (s : State) :
    Alters [.spirals] s (modSpiral n f s) := by
  intro p hp; cases p <;> simp_all [Part.same, modSpiral]

theorem modSlot_alters (n : Nat) (f : Slot → Slot) (s : State) :
    Alters [.slots] s (modSlot n f s) := by
  intro p hp; cases p <;> simp_all [Part.same, modSlot]

theorem modSensor_alters (n : Nat) (f : TempSensor → TempSensor) (s : State) :
    Alters [.sensors] s (modSensor n f s) := by
  intro p hp; cases p <;> simp_all [Part.same, modSensor]

theorem modZone_alters (n : Nat) (f : ZoneState → ZoneState) (s : State) :
    Alters [.zones] s (modZone n f s) := by
  intro p hp; cases p <;> simp_all [Part.same, modZone]

/-! ### Masks -/
theorem modMaskRec_alters (q : Periph) (f : MaskRec → MaskRec) (s : State) :
    Alters [.maskRecs] s (modMaskRec q f s) := by
  intro p hp; cases q <;> cases p <;> simp_all [Part.same, modMaskRec, Line.setMaskRec]

theorem countDropped_alters (s : State) : Alters [.lineCounts] s (countDropped s) := by
  intro p hp; cases p <;> simp_all [Part.same, countDropped]

theorem masksDropped_alters (slot : Nat) (q : Periph) (s : State) :
    Alters [.maskRecs] s (masksDropped slot q s) := modMaskRec_alters _ _ _

theorem queue_alters (q : List Cmd) (s : State) : Alters [.cmdQueue] s { s with line.queue := q } := by
  intro p hp; cases p <;> simp_all [Part.same]

theorem enqueueMasks_alters (slot : Nat) (q : Periph) (m : Masks) (s : State) :
    Alters [.cmdQueue, .lineCounts, .maskRecs] s (enqueueMasks slot q m s) := by
  unfold enqueueMasks
  split
  · exact (queue_alters _ s).seq (modMaskRec_alters _ _ _)
  · split
    · exact (queue_alters _ s).seq (modMaskRec_alters _ _ _)
    · exact (countDropped_alters s).seq (masksDropped_alters _ _ _)

theorem compareMasks_alters (q : Periph) (s : State) :
    Alters [.cmdQueue, .lineCounts, .maskRecs] s (compareMasks q s) := by
  unfold compareMasks
  split
  · exact .refl _ _
  · split
    · exact .refl _ _
    · exact enqueueMasks_alters _ _ _ _

theorem sendMasks_alters (q : Periph) (m : Masks) (s : State) :
    Alters [.cmdQueue, .lineCounts, .maskRecs] s (sendMasks q m s) := by
  unfold sendMasks
  split
  · exact .refl _ _
  · exact (modMaskRec_alters _ _ _).seq (compareMasks_alters _ _)

theorem recomputeNote_alters (s : State) :
    Alters [.noteMask, .cmdQueue, .lineCounts, .maskRecs] s (recomputeNote s) := by
  unfold recomputeNote
  split
  · refine Alters.seq (ps := [.noteMask]) (t := { s with credit.noteMask := noteMask s }) ?_
      (sendMasks_alters _ _ _)
    intro p hp; cases p <;> simp_all [Part.same]
  · exact .refl _ _

theorem recomputeMasks_alters (s : State) : Alters maskParts s (recomputeMasks s) := by
  unfold recomputeMasks
  split
  · refine Alters.seq (ps := maskParts) (Alters.seq (ps := [.coinMasks])
      (t := { s with change.accept := acceptMask s, change.route := routeMask s }) ?_
      (sendMasks_alters _ _ _)) (recomputeNote_alters _)
    intro p hp; cases p <;> simp_all [Part.same]
  · exact .refl _ _

theorem masksIfHeld_alters (o s : State) : Alters maskParts s (masksIfHeld o s) :=
  .ite (.refl _ _) (recomputeMasks_alters s)

theorem pushMasks_alters (b : Line) (s : State) :
    Alters [.cmdQueue, .lineCounts, .maskRecs] s (pushMasks b s) := by
  unfold pushMasks
  dsimp only
  have h1 : Alters [.cmdQueue, .lineCounts, .maskRecs] s
      (if b.validator.push && s.line.validator.push && s.periphPresent .validator
        then compareMasks .validator s else s) := .ite (compareMasks_alters _ _) (.refl _ _)
  exact .ite (h1.trans (compareMasks_alters _ _)) h1

theorem dropMasksEntry_alters (e : Cmd) (s : State) :
    Alters [.cmdQueue, .lineCounts, .maskRecs] s (dropMasksEntry e s) := by
  unfold dropMasksEntry
  split
  · exact (countDropped_alters s).seq (masksDropped_alters _ _ _)
  · exact (countDropped_alters s).mono

theorem placeEscrow_alters (d : Decision) (t : Nat) (k : Bool) (s : State) :
    Alters [.cmdQueue, .lineCounts, .maskRecs] s (placeEscrow d t k s) := by
  unfold placeEscrow
  split
  · exact .refl _ _
  · dsimp only
    split
    · exact (queue_alters _ s).mono
    · split
      · exact ((queue_alters _ s).seq (rs := [.cmdQueue, .lineCounts, .maskRecs]) (dropMasksEntry_alters _ _)).trans
          (pushMasks_alters _ _)
      · split
        · refine (countDropped_alters s).seq (qs := [.cmdQueue]) ?_
          intro p hp; cases p <;> simp_all [Part.same]
        · exact (countDropped_alters s).mono

theorem masksReturn_alters (r : CmdReturn) (slot : Nat) (m : Masks) (s : State) :
    Alters [.cmdQueue, .lineCounts, .maskRecs] s (masksReturn r slot m s) := by
  unfold masksReturn
  dsimp only
  split
  · cases r
    · exact (modMaskRec_alters _ _ _).mono
    · dsimp only
      split
      · exact (modMaskRec_alters _ _ _).seq (compareMasks_alters _ _)
      · exact (modMaskRec_alters _ _ _).mono
    · exact (masksDropped_alters _ _ _).mono
  · exact .refl _ _

theorem escrowReturn_alters (r : CmdReturn) (d : Decision) (t : Nat) (k : Bool) (s : State) :
    Alters [.cmdQueue, .lineCounts, .maskRecs] s (escrowReturn r d t k s) := by
  unfold escrowReturn
  split
  · exact .refl _ _
  · split
    · exact placeEscrow_alters _ _ _ _
    · exact .refl _ _

theorem pushWaiting_alters (b : Line) (s : State) :
    Alters [.cmdQueue, .lineCounts, .maskRecs] s (pushWaiting b s) := by
  unfold pushWaiting
  dsimp only
  refine Alters.trans ?_ (pushMasks_alters _ _)
  split
  · have hb : ∀ x, Alters [.cmdQueue] s { s with line.escrowBack := x } := by
      intro x p hp; cases p <;> simp_all [Part.same]
    exact Alters.ite ((hb _).seq (placeEscrow_alters _ _ _ _)) (hb _).mono
  · exact .refl _ _

theorem returnCmd_alters (r : CmdReturn) (e : Cmd) (s : State) :
    Alters [.cmdQueue, .lineCounts, .maskRecs] s (returnCmd r e s) := by
  unfold returnCmd
  dsimp only
  have h1 : Alters [.cmdQueue, .lineCounts, .maskRecs] s (if r = .dropped then countDropped s else s) := by
    split
    · exact (countDropped_alters s).mono
    · exact .refl _ _
  refine h1.trans (Alters.trans ?_ (pushWaiting_alters _ _))
  generalize (if r = .dropped then countDropped s else s) = u
  split
  · exact masksReturn_alters _ _ _ _
  · exact escrowReturn_alters _ _ _ _ _

/-! ### Plan, tubes -/
theorem evalExactSilent_alters (s : State) : Alters [.exact] s (evalExactSilent s) := by
  intro p hp; cases p <;> simp_all [Part.same, evalExactSilent]

theorem evalExact_alters (s : State) :
    Alters [.exact, .events, .noteMask, .cmdQueue, .lineCounts, .maskRecs] s (evalExact s) := by
  unfold evalExact
  dsimp only
  split
  · exact .refl _ _
  · have hb : ∀ x, Alters [.exact] s { s with change.exact := x } := by
      intro x p hp; cases p <;> simp_all [Part.same]
    refine Alters.seq (ps := [.exact, .events]) ?_ (recomputeNote_alters _)
    split
    · exact (hb _).seq (raise_alters _ _ _ _)
    · exact (hb _).seq (raise_alters _ _ _ _)

theorem shortWait_alters (b : Bool) (s : State) : Alters [.shortWait] s { s with change.shortWait := b } := by
  intro p hp; cases p <;> simp_all [Part.same]

theorem mapPayout_alters (f : Payout → Payout) (s : State) :
    Alters [.payout] s { s with change.payout := s.change.payout.map f } := by
  intro p hp; cases p <;> simp_all [Part.same]

theorem rawCount_alters (n k : Nat) (s : State) : Alters [.tubes, .shortWait] s (rawCount n k s) := by
  unfold rawCount
  dsimp only
  split
  · exact (modTube_alters _ _ s).mono
  · exact (modTube_alters _ _ s).seq (shortWait_alters _ _)

theorem rawCond_alters (n : Nat) (c : TubeCond) (s : State) :
    Alters [.tubes, .shortWait, .payout] s (rawCond n c s) := by
  unfold rawCond
  split
  · exact .refl _ _
  · have h : Alters [.tubes, .shortWait, .payout] s (markReplan
        { modTube n (fun t => { t with cond := c }) s with change.shortWait := false }) :=
      ((modTube_alters n (fun t => { t with cond := c }) s).seq (rs := [.tubes, .shortWait])
        (shortWait_alters false _)).seq (markReplan_alters _)
    dsimp only
    split
    · exact h
    · exact h.seq (mapPayout_alters _ _)

theorem raiseCorrected_alters (n : Nat) (w : Correction) (a b : Nat) (s : State) :
    Alters [.events] s (raiseCorrected n w a b s) := raise_alters _ _ _ _

theorem raiseTubeFault_alters (n r : Nat) (s : State) : Alters [.events] s (raiseTubeFault n r s) :=
  raise_alters _ _ _ _

theorem correctCount_alters (n : Nat) (w : Correction) (k : Nat) (s : State) :
    Alters [.tubes, .shortWait, .payout, .events] s (correctCount n w k s) := by
  unfold correctCount
  exact ((rawCount_alters n k s).seq (rs := [.tubes, .shortWait, .events])
    (raiseCorrected_alters n w _ k _)).seq (mapPayout_alters _ _)

theorem reconcile_alters (n : Nat) (s : State) :
    Alters [.tubes, .shortWait, .payout, .events] s (reconcile n s) := by
  unfold reconcile
  dsimp only
  split
  · split
    · exact (rawCond_alters _ _ _).seq (raiseTubeFault_alters _ _ _)
    · exact .refl _ _
  · split
    · exact correctCount_alters _ _ _ _
    · split
      · exact correctCount_alters _ _ _ _
      · split
        · exact correctCount_alters _ _ _ _
        · exact .refl _ _

theorem afterTubes_alters (s : State) :
    Alters [.exact, .events, .coinMasks, .noteMask, .cmdQueue, .lineCounts, .maskRecs] s (afterTubes s) :=
  (evalExact_alters s).seq (recomputeMasks_alters _)

theorem afterTubesIf_alters (o s : State) :
    Alters [.exact, .events, .coinMasks, .noteMask, .cmdQueue, .lineCounts, .maskRecs] s (afterTubesIf o s) :=
  .ite (.refl _ _) (afterTubes_alters s)

theorem levelRead_alters (n : Nat) (full : Bool) (s : State) (c : Bool) :
    Alters [.tubes, .shortWait, .payout, .events, .exact, .coinMasks, .noteMask, .cmdQueue, .lineCounts,
      .maskRecs] s (levelRead n full s c) := by
  unfold levelRead
  dsimp only
  split
  · exact (modTube_alters _ _ _).mono
  · split
    · exact ((modTube_alters _ _ s).seq (rs := [.tubes, .shortWait, .payout, .events])
        (reconcile_alters _ _)).seq (afterTubesIf_alters _ _)
    · exact (modTube_alters _ _ _).mono

/-! ### Credit -/
theorem setPayout_alters (x : Option Payout) (s : State) :
    Alters [.payout] s { s with change.payout := x } := by
  intro p hp; cases p <;> simp_all [Part.same]

theorem setAmount_alters (x : Nat) (s : State) : Alters [.amounts] s { s with credit.credit := x } := by
  intro p hp; cases p <;> simp_all [Part.same]

theorem startPayout_alters (k : PayoutKind) (s : State) :
    Alters [.sale, .payout, .grants] s (startPayout k s) :=
  ((setPayout_alters _ s).seq (rs := [.payout, .grants]) (request_alters _ _)).seq (setSale_alters _)

theorem payoutTest_alters (s : State) : Alters [.sale, .payout, .grants] s (payoutTest s) :=
  .ite (startPayout_alters _ s) (.refl _ _)

theorem creditToReturn_alters (s : State) :
    Alters [.amounts, .shortWait, .payout, .audit, .events] s (creditToReturn s) :=
  (setAmount_alters 0 s).seq (addReturnDue_alters _ _)


theorem afterMoney_alters (s : State) : Alters moneyParts s (recomputeMasks (payoutTest (setSale s))) :=
  ((setSale_alters s).seq (rs := moneyParts) (payoutTest_alters _)).seq (recomputeMasks_alters _)

theorem afterHeld_alters (o s : State) : Alters moneyParts s (masksIfHeld o (payoutTest (setSale s))) :=
  ((setSale_alters s).seq (rs := moneyParts) (payoutTest_alters _)).seq (masksIfHeld_alters _ _)

theorem returnAll_alters (s : State) : Alters moneyParts s (returnAll s) :=
  ((creditToReturn_alters s).seq (rs := moneyParts) (shortWait_alters false _)).trans
    (afterHeld_alters _ _)

theorem returnLever_alters (s : State) : Alters (.pendingReturn :: moneyParts) s (returnLever s) := by
  unfold returnLever
  split
  · exact .refl _ _
  · exact .ite (.refl _ _) (returnAll_alters s).mono
  · exact (returnAll_alters s).mono
  · intro p hp; cases p <;> simp_all [Part.same]

theorem creditMoney_alters (k : EventKind) (x v : Nat) (s : State) :
    Alters moneyParts s (creditMoney k x v s) := by
  unfold creditMoney
  dsimp only
  have h0 : Alters moneyParts s { s with credit.credit := s.credit.credit + min v s.headroom, audit.cashIn := addTotal s.audit.cashIn v } := by
    intro p hp; cases p <;> simp_all [Part.same, moneyParts]
  have h1 := h0.trans ((raise_alters k (some x) (val v) _).mono (qs := moneyParts))
  refine Alters.trans (h1.trans ?_) (afterMoney_alters _)
  exact .ite (.refl _ _) ((addReturnDue_alters _ _).seq (raise_alters _ _ _ _))

theorem removeEscrow_alters (s : State) : Alters [.escrow, .amounts, .cmdQueue] s (removeEscrow s) := by
  intro p hp; cases p <;> simp_all [Part.same, removeEscrow]

theorem expireEscrow_alters (s : State) :
    Alters (.escrow :: moneyParts) s (expireEscrow s) := by
  unfold expireEscrow
  split
  · exact .refl _ _
  · exact (((removeEscrow_alters s).seq (rs := .escrow :: moneyParts) (raise_alters _ _ _ _)).seq
      (rs := .escrow :: moneyParts) (setSale_alters _)).seq (recomputeMasks_alters _)

theorem noteEscrow_alters (t : Nat) (s : State) : Alters (.escrow :: moneyParts) s (noteEscrow t s) := by
  unfold noteEscrow
  split
  · exact (placeEscrow_alters _ _ _ s).mono
  · have hb : ∀ x y, Alters (.escrow :: moneyParts) s { s with credit.escrow := x, credit.escrowReserve := y } := by
      intro x y p hp; cases p <;> simp_all [Part.same, moneyParts]
    have hc : ∀ x, Alters (.escrow :: moneyParts) s { s with credit.escrow := x } := by
      intro x p hp; cases p <;> simp_all [Part.same, moneyParts]
    exact .ite (((hb _ _).trans ((setSale_alters _).mono)).trans
      ((placeEscrow_alters _ _ _ _).seq (recomputeMasks_alters _))) ((hc _).seq (placeEscrow_alters _ _ _ _))

theorem noteStacked_alters (t : Nat) (s : State) : Alters (.escrow :: moneyParts) s (noteStacked t s) := by
  unfold noteStacked
  dsimp only
  have hm : ∀ u, Alters (.escrow :: moneyParts) u (creditMoney .noteStacked t (s.tables.note t).value u) :=
    fun u => (creditMoney_alters _ _ _ _).mono
  split
  · split
    · split
      · have hb : ∀ x y, Alters (.escrow :: moneyParts) s { s with credit.credit := x, audit.cashIn := y } := by
          intro x y p hp; cases p <;> simp_all [Part.same, moneyParts]
        exact ((hb _ _).trans ((removeEscrow_alters _).seq (raise_alters _ _ _ _))).trans
          ((setSale_alters _).seq (recomputeMasks_alters _))
      · exact (removeEscrow_alters s).seq (hm _)
    · exact hm s
  · exact hm s

theorem noteReturned_alters (t : Nat) (s : State) : Alters (.escrow :: moneyParts) s (noteReturned t s) := by
  unfold noteReturned
  dsimp only
  split
  · split
    · have h1 : Alters (.escrow :: moneyParts) s
          (raise .noteReturned (some t) (val (s.tables.note t).value) (removeEscrow s)) :=
        (removeEscrow_alters s).seq (raise_alters _ _ _ _)
      split
      · exact h1.trans ((setSale_alters _).seq (recomputeMasks_alters _))
      · exact h1
    · exact .refl _ _
  · exact .refl _ _

/-! ### Change -/
theorem takeCoin_alters (k : Nat) (s : State) : Alters moneyParts s (takeCoin k s) := by
  unfold takeCoin
  refine Alters.ite ?_ (creditMoney_alters _ _ _ _)
  have hb : ∀ y, Alters moneyParts s { s with audit.filled := y } := by
      intro y p hp; cases p <;> simp_all [Part.same, moneyParts]
  exact (hb _).trans ((raise_alters _ _ _ _).seq (recomputeMasks_alters _))

theorem coinBox_alters (k : Nat) (s : State) : Alters moneyParts s (coinBox k s) := takeCoin_alters k s

theorem coinIntoTube_alters (n : Nat) (s : State) :
    Alters [.tubes, .shortWait, .payout, .events] s (coinIntoTube n s) := by
  unfold coinIntoTube
  exact .ite (((rawCount_alters _ _ s).seq (rs := [.tubes, .shortWait, .payout, .events])
    (raiseCorrected_alters _ _ _ _ _)).trans (reconcile_alters _ _))
    ((rawCount_alters _ _ s).seq (reconcile_alters _ _))

theorem evalExactIf_alters (o s : State) :
    Alters [.exact, .events, .noteMask, .cmdQueue, .lineCounts, .maskRecs] s (evalExactIf o s) :=
  .ite (.refl _ _) (evalExact_alters s)

theorem coinTube_alters (k : Nat) (s : State) : Alters coinParts s (coinTube k s) := by
  unfold coinTube
  split
  · exact (coinBox_alters k s).mono
  · exact ((coinIntoTube_alters _ s).seq (rs := coinParts) (evalExactIf_alters s _)).seq (takeCoin_alters _ _)

theorem pulse_alters (n : Nat) (s : State) : Alters [.payout] s (pulse n s) := mapPayout_alters _ s

theorem endPayout_alters (s : State) : Alters [.sale, .payout, .grants] s (endPayout s) :=
  ((setPayout_alters none s).seq (rs := [.payout, .grants]) (release_alters _ _)).seq (setSale_alters _)

theorem payoutDone_alters (s : State) : Alters [.sale, .payout, .grants, .events] s (payoutDone s) :=
  (raise_alters _ _ _ s).seq (endPayout_alters _)

theorem payoutShort_alters (s : State) : Alters moneyParts s (payoutShort s) := by
  unfold payoutShort
  dsimp only
  have hb : ∀ x y, Alters moneyParts s { s with credit.returnDue := x, credit.credit := y } := by
    intro x y p hp; cases p <;> simp_all [Part.same, moneyParts]
  exact ((((hb _ _).seq (rs := moneyParts) (raise_alters _ _ _ _)).seq (rs := moneyParts)
    (shortWait_alters true _)).seq (rs := moneyParts) (endPayout_alters _)).seq (masksIfHeld_alters _ _)

theorem replan_alters (s : State) : Alters [.payout] s (replan s) := mapPayout_alters _ s

theorem pulseOrShort_alters (s : State) : Alters moneyParts s (pulseOrShort s) := by
  unfold pulseOrShort
  split
  · exact (pulse_alters _ s).mono
  · exact payoutShort_alters s

theorem nextReturn_alters (s : State) : Alters moneyParts s (nextReturn s) := by
  unfold nextReturn
  split
  · exact .refl _ _
  · split
    · exact (payoutDone_alters s).mono
    · split
      · exact (pulse_alters _ s).mono
      · split
        · exact (pulse_alters _ s).mono
        · exact (replan_alters s).seq (pulseOrShort_alters _)

theorem drainDone_alters (n c : Nat) (e : DrainEnding) (s : State) :
    Alters [.sale, .payout, .grants, .events] s (drainDone n c e s) :=
  (raise_alters _ _ _ s).seq (endPayout_alters _)

theorem nextDrain_alters (n l c : Nat) (v : Verdict) (s : State) : Alters moneyParts s (nextDrain n l c v s) :=
  .ite (drainDone_alters _ _ _ s).mono (.ite (drainDone_alters _ _ _ s).mono
    (.ite (drainDone_alters _ _ _ s).mono (pulse_alters _ s).mono))

theorem payoutGiven_alters (s : State) : Alters moneyParts s (payoutGiven s) := by
  unfold payoutGiven
  split
  · exact .refl _ _
  · split
    · exact .refl _ _
    · dsimp only
      split
      · exact ((setPayout_alters _ s).seq (rs := [.payout]) (replan_alters _)).seq (pulseOrShort_alters _)
      · exact (setPayout_alters _ s).seq (pulse_alters _ _)

theorem pulseEnds_alters (s : State) : Alters [.payout] s (pulseEnds s) := mapPayout_alters _ s

theorem countPaid_alters (k : PayoutKind) (v : Nat) (s : State) :
    Alters [.amounts, .audit] s (countPaid k v s) := by
  intro p hp; unfold countPaid; cases k <;> cases p <;> simp_all [Part.same]

theorem coinAtExit_alters (s : State) : Alters payoutParts s (coinAtExit s) := by
  have hs : ∀ x, Alters payoutParts s { s with change.stray := x } := by
    intro x p hp; cases p <;> simp_all [Part.same, payoutParts]
  unfold coinAtExit
  split
  · exact hs _
  · split
    · exact hs _
    · dsimp only
      have h1 : ∀ n f k v, Alters payoutParts s (setSale (countPaid k v
          { reconcile n (rawCount n ((s.tube n).count - 1) s) with
              change.payout := (reconcile n (rawCount n ((s.tube n).count - 1) s)).change.payout.map f })) :=
        fun n f k v => ((((rawCount_alters _ _ s).seq (rs := payoutParts) (reconcile_alters n _)).seq
          (rs := payoutParts) (mapPayout_alters f _)).seq (rs := payoutParts) (countPaid_alters k v _)).seq
          (setSale_alters _)
      exact .ite ((h1 _ _ _ _).seq (afterTubesIf_alters _ _)) ((h1 _ _ _ _).seq (afterTubes_alters _))

theorem decideTube_alters (n : Nat) (s : State) :
    Alters [.tubes, .shortWait, .payout, .events] s (decideTube n s).1 := by
  unfold decideTube
  split
  · exact (((rawCount_alters _ _ s).seq (rs := [.tubes, .shortWait, .payout, .events])
      (raiseCorrected_alters _ _ _ _ _)).trans (reconcile_alters _ _)).seq (markReplan_alters _)
  · split
    · exact ((rawCond_alters _ _ s).seq (rs := [.tubes, .shortWait, .payout, .events])
        (raiseTubeFault_alters _ _ _)).seq (markReplan_alters _)
    · exact (markReplan_alters s).mono

theorem miss_alters (n : Nat) (b : Bool) (s : State) : Alters payoutParts s (miss n b s).1 := by
  unfold miss
  split
  · exact (decideTube_alters n s).seq (afterTubesIf_alters _ _)
  · exact (mapPayout_alters _ s).mono

theorem replanIfMarked_alters (s : State) : Alters [.payout] s (replanIfMarked s) := by
  unfold replanIfMarked
  split
  · exact .ite (replan_alters s) (.refl _ _)
  · exact .refl _ _

theorem afterWindow_alters (v : Verdict) (s : State) : Alters moneyParts s (afterWindow v s) := by
  unfold afterWindow
  split
  · exact .refl _ _
  · split
    · exact nextReturn_alters s
    · exact nextDrain_alters _ _ _ _ s

theorem windowCloses_alters (s : State) : Alters payoutParts s (windowCloses s) := by
  unfold windowCloses
  split
  · exact .refl _ _
  · split
    · exact .refl _ _
    · dsimp only
      split
      · exact (((setPayout_alters _ s).seq (rs := payoutParts) (miss_alters _ _ _)).seq (rs := payoutParts)
          (replanIfMarked_alters _)).seq (afterWindow_alters _ _)
      · exact ((setPayout_alters _ s).seq (rs := [.payout]) (replanIfMarked_alters _)).seq (afterWindow_alters _ _)

theorem clearFault_alters (n : Nat) (s : State) : Alters coinParts s (clearFault n s) :=
  ((rawCond_alters n .ok s).seq (rs := coinParts) (reconcile_alters _ _)).seq (afterTubes_alters _)

/-! ### The parts are the whole state -/

/-- A state in which no part has changed is the same state. -/
theorem alters_nil {s t : State} (h : Alters [] s t) : t = s := by
  have H := fun p => h p (by simp)
  have a1 := H .pending; have a2 := H .phase; have a3 := H .seconds; have a4 := H .tables; have a5 := H .storeDefaults; have a6 := H .store
  have b1 := H .amounts; have b2 := H .sale; have b3 := H .inFlight; have b4 := H .pendingReturn; have b5 := H .escrow; have b6 := H .noteMask; have b7 := H .audit
  have c1 := H .tubes; have c2 := H .exact; have c3 := H .payout; have c4 := H .shortWait; have c5 := H .stray; have c6 := H .coinMasks
  have d1 := H .sels; have d2 := H .spirals; have d3 := H .vendOp; have d4 := H .serviceOp; have d5 := H .rev; have d6 := H .column; have d7 := H .row; have d8 := H .probing
  have e1 := H .sensors; have e2 := H .zones; have e3 := H .compressor; have e4 := H .defrost; have e5 := H .damper; have e6 := H .supply; have e7 := H .grants
  have f1 := H .receiver; have f2 := H .trans; have f3 := H .cmdQueue; have f4 := H .passQueue; have f5 := H .ring; have f6 := H .slots; have f7 := H .lineCounts; have f8 := H .maskRecs
  have g1 := H .linkRate; have g2 := H .staging; have g3 := H .linkState; have g4 := H .marks; have g5 := H .linkCounts; have g6 := H .events
  have h1 := H .code; have h2 := H .lockState; have h3 := H .lockout; have h4 := H .door; have h5 := H .tag; have h6 := H .fill; have h7 := H .economy
  obtain ⟨_,_,_,_,_,_,⟨⟩,_,⟨⟩,_,_,⟨⟩,⟨⟩,⟨⟩,⟨⟩,⟨⟩,⟨⟩,⟨⟩⟩ := t
  obtain ⟨_,_,_,_,_,_,⟨⟩,_,⟨⟩,_,_,⟨⟩,⟨⟩,⟨⟩,⟨⟩,⟨⟩,⟨⟩,⟨⟩⟩ := s
  simp only [Part.same] at *
  simp_all

end Sys2Proof.Machine
end

