-- ==== Sys2Proof/Laws/FrameDrive.lean ====
section
/-! SUPPORT. What each operation of the Spiral Drive and the Refrigeration Controller leaves as it was. -/

/- One lemma after another: side by side their waiting threads take all the memory there is. -/
set_option Elab.async false

namespace Sys2Proof.Machine

/-! ### Spiral -/
theorem countSale_alters (i : Nat) (s : State) : Alters [.sels] s (countSale i s) := modSel_alters _ _ s

theorem setAudit_alters (x : Audit) (s : State) : Alters [.audit] s { s with audit := x } := by
  intro p hp; cases p <;> simp_all [Part.same]


theorem commitVend_alters (i : Nat) (s : State) : Alters outcomeParts s (commitVend i s) := by
  unfold commitVend
  split
  · exact .refl _ _
  · dsimp only
    have hb : ∀ (u : State), Alters outcomeParts u { u with credit.vendHold := 0, credit.inFlight := none } := by
      intro u p hp; cases p <;> simp_all [Part.same, outcomeParts, moneyParts]
    have h1 : ∀ x, Alters outcomeParts s (countSale i { s with audit.cashSales := x }) := fun x =>
      (setAudit_alters _ s).seq (countSale_alters _ _)
    have h2 : ∀ u, Alters outcomeParts s u → Alters outcomeParts s (raise .vendDone (some i) (val s.credit.vendHold)
        (match u.tables.money.policy with | .single => creditToReturn u | .multi => u)) := fun u hu => by
      split
      · exact hu.trans ((creditToReturn_alters _).seq (raise_alters _ _ _ _))
      · exact hu.trans (raise_alters _ _ _ _).mono
    exact h2 _ ((h1 (addTotal s.audit.cashSales s.credit.vendHold)).trans (hb _))
  · dsimp only
    have hb : ∀ (u : State), Alters outcomeParts u { u with credit.inFlight := none } := by
      intro u p hp; cases p <;> simp_all [Part.same, outcomeParts, moneyParts]
    have h1 : ∀ x, Alters outcomeParts s (countSale i { s with audit.externalSales := x }) := fun x =>
      (setAudit_alters _ s).seq (countSale_alters _ _)
    exact ((h1 (addTotal s.audit.externalSales _)).trans (hb _)).trans (raise_alters _ _ _ _).mono

theorem failVend_alters (i : Nat) (w : VendFailure) (s : State) : Alters outcomeParts s (failVend i w s) := by
  unfold failVend
  split
  · exact .refl _ _
  · refine Alters.seq (ps := outcomeParts) ?_ (raise_alters _ _ _ _)
    intro p hp; cases p <;> simp_all [Part.same, outcomeParts, moneyParts]

theorem afterVend_alters (o s : State) : Alters outcomeParts s (afterVend o s) := by
  unfold afterVend
  have hb : Alters outcomeParts s { s with credit.pendingReturn := false } := by
    intro p hp; cases p <;> simp_all [Part.same, outcomeParts, moneyParts]
  refine Alters.trans ?_ ((afterHeld_alters _ _).mono)
  exact .ite (hb.trans ((creditToReturn_alters _).seq (shortWait_alters _ _))) (.refl _ _)

theorem setDrive_alters (d : Drive) (s : State) : Alters driveParts s { s with drive := d } := by
  intro p hp; cases p <;> simp_all [Part.same, driveParts]

theorem setRev_alters (r : Option Rev) (s : State) : Alters [.rev] s { s with drive.rev := r } := by
  intro p hp; cases p <;> simp_all [Part.same]

theorem setVend_alters (r : Option VendOp) (s : State) : Alters [.vendOp] s { s with drive.vend := r } := by
  intro p hp; cases p <;> simp_all [Part.same]

theorem setService_alters (r : Option ServiceOp) (s : State) : Alters [.serviceOp] s { s with drive.service := r } := by
  intro p hp; cases p <;> simp_all [Part.same]

theorem setRow_alters (r : Option Nat) (s : State) : Alters [.row] s { s with drive.row := r } := by
  intro p hp; cases p <;> simp_all [Part.same]

theorem setColumn_alters (r : Option Nat) (s : State) : Alters [.column] s { s with drive.column := r } := by
  intro p hp; cases p <;> simp_all [Part.same]

theorem setProbing_alters (r : Option Nat) (s : State) : Alters [.probing] s { s with drive.probing := r } := by
  intro p hp; cases p <;> simp_all [Part.same]

theorem addProbe_alters (p : Nat) (s : State) : Alters [.spirals] s (addProbe p s) := modSpiral_alters _ _ s

theorem stopMotor_alters (s : State) : Alters [.row] s (stopMotor s) := setRow_alters _ s

theorem kickMatrix_alters (s : State) : Alters [.column, .probing] s (kickMatrix s) := by
  unfold kickMatrix
  split
  · split
    · exact .ite (setColumn_alters _ s).mono (.refl _ _)
    · split
      · exact (setProbing_alters _ s).mono
      · exact .ite (.refl _ _) (setProbing_alters _ s).mono
  · exact .refl _ _

theorem columnOpens_alters (s : State) : Alters [.column] s (columnOpens s) := by
  unfold columnOpens
  split
  · split
    · exact .ite (.refl _ _) (setColumn_alters _ s)
    · exact setColumn_alters _ s
  · exact .refl _ _

theorem startRev_alters (p : Nat) (s : State) : Alters [.rev] s (startRev p s) := setRev_alters _ s

theorem leaveVend_alters (s : State) : Alters [.vendOp, .rev, .row, .grants] s (leaveVend s) := by
  unfold leaveVend
  split
  · exact (setVend_alters _ s).mono
  · refine Alters.seq (ps := [.vendOp, .rev, .row]) ?_ (release_alters _ _)
    intro p hp; cases p <;> simp_all [Part.same, stopMotor]

theorem advancePointer_alters (i j : Nat) (s : State) : Alters [.sels] s (advancePointer i j s) := by
  unfold advancePointer
  exact .ite (.refl _ _) (modSel_alters _ _ s)

theorem vendSucceeds_alters (v : VendOp) (s : State) : Alters spiralParts s (vendSucceeds v s) :=
  (((leaveVend_alters s).seq (rs := spiralParts) (advancePointer_alters _ _ _)).seq (rs := spiralParts)
    (commitVend_alters _ _)).seq (afterVend_alters _ _)

theorem vendFails_alters (v : VendOp) (w : VendFailure) (s : State) : Alters spiralParts s (vendFails v w s) :=
  ((leaveVend_alters s).seq (rs := spiralParts) (failVend_alters _ _ _)).seq (afterVend_alters _ _)

theorem beginVend_alters (i : Nat) (s : State) : Alters spiralParts s (beginVend i s) := by
  unfold beginVend
  split
  · exact (failVend_alters _ _ s).seq (afterVend_alters _ _)
  · dsimp only
    exact .ite (setVend_alters _ s).mono ((setVend_alters _ s).seq (request_alters _ _))

theorem turnSpiral_alters (v : VendOp) (p j : Nat) (s : State) : Alters [.vendOp, .rev] s (turnSpiral v p j s) :=
  (setVend_alters _ s).seq (startRev_alters _ _)

theorem vendGiven_alters (v : VendOp) (s : State) : Alters spiralParts s (vendGiven v s) := by
  unfold vendGiven
  split
  · exact (turnSpiral_alters _ _ _ s).mono
  · split
    · exact (turnSpiral_alters _ _ _ s).mono
    · exact vendFails_alters _ _ s

theorem leaveService_alters (s : State) : Alters [.serviceOp, .rev, .row, .grants] s (leaveService s) := by
  unfold leaveService
  dsimp only
  have h : Alters [.serviceOp, .rev, .row, .grants] s
      (release .motor { stopMotor s with drive.service := none, drive.rev := none }) := by
    refine Alters.seq (ps := [.serviceOp, .rev, .row]) ?_ (release_alters _ _)
    intro p hp; cases p <;> simp_all [Part.same, stopMotor]
  exact .ite (h.seq (request_alters _ _)) h

theorem raiseSpiralFault_alters (p : Nat) (f : Failure) (s : State) :
    Alters [.events] s (raiseSpiralFault p f s) := raise_alters _ _ _ s

theorem setSpiral_alters (p : Nat) (x : SpiralState) (s : State) : Alters [.spirals] s (setSpiral p x s) :=
  modSpiral_alters _ _ s

theorem homeReady_alters (p : Nat) (w : HomeCause) (s : State) : Alters serviceParts s (homeReady p w s) :=
  ((setSpiral_alters _ _ s).seq (rs := serviceParts) (leaveService_alters _)).seq (raise_alters _ _ _ _)

theorem homeStalled_alters (p : Nat) (w : HomeCause) (s : State) : Alters serviceParts s (homeStalled p w s) :=
  (((setSpiral_alters _ _ s).seq (rs := serviceParts) (leaveService_alters _)).seq (rs := serviceParts)
    (raise_alters _ _ _ _)).seq (raise_alters _ _ _ _)

theorem serviceGiven_alters (o : ServiceOp) (s : State) : Alters serviceParts s (serviceGiven o s) := by
  unfold serviceGiven
  dsimp only
  refine Alters.ite (.ite ?_ ?_) ?_
  · exact (setService_alters _ s).seq (homeReady_alters _ _ _)
  · exact (setService_alters _ s).seq (modSpiral_alters _ _ _)
  · exact (setService_alters _ s).seq (startRev_alters _ _)

theorem motorGiven_alters (s : State) : Alters spiralParts s (motorGiven s) := by
  unfold motorGiven
  split
  · exact .refl _ _
  · split
    · exact .ite (.refl _ _) (serviceGiven_alters _ s).mono
    · split
      · exact .ite (.refl _ _) (vendGiven_alters _ s)
      · exact .refl _ _

theorem probeDone_alters (c : Bool) (s : State) : Alters serviceParts s (probeDone c s) := by
  unfold probeDone
  split
  · exact .refl _ _
  · rename_i q _
    dsimp only
    have h1 : Alters serviceParts s
        (modSpiral q (fun r => { r with homeClosed := c }) { s with drive.probing := none }) :=
      (setProbing_alters _ s).seq (modSpiral_alters _ _ _)
    generalize hu : (if (s.spiral q).probePending = true then _ else _) = u
    have h2 : Alters serviceParts s u := by
      rw [← hu]
      exact .ite (h1.seq (modSpiral_alters _ _ _)) h1
    exact .ite (.ite (h2.trans (homeReady_alters _ _ _)) (h2.seq (startRev_alters _ _))) h2

theorem endTest_alters (r : Rev) (s : State) : Alters serviceParts s (endTest r s) := by
  unfold endTest
  dsimp only
  have h : ∀ k x v q y, Alters serviceParts s (setSpiral q y (raise k x v (leaveService s))) :=
    fun k x v q y => ((leaveService_alters s).seq (rs := serviceParts) (raise_alters k x v _)).seq
      (setSpiral_alters q y _)
  split
  · exact .ite (h _ _ _ _ _) ((h _ _ _ _ _).seq (raiseSpiralFault_alters _ _ _))
  · exact h _ _ _ _ _

theorem moveOn_alters (v : VendOp) (b : Bool) (s : State) : Alters spiralParts s (moveOn v b s) := by
  unfold moveOn
  dsimp only
  have h : ∀ x, Alters spiralParts s { s with drive.vend := x, drive.rev := none } := by
    intro x p hp; cases p <;> simp_all [Part.same, spiralParts]
  split
  · exact (((h _).seq (rs := spiralParts) (modSel_alters _ _ _)).seq (rs := spiralParts)
      (raise_alters _ _ _ _)).trans (vendFails_alters _ _ _)
  · exact .ite ((h _).seq (turnSpiral_alters _ _ _ _)) ((h _).trans (vendFails_alters _ _ _))

theorem windowPassed_alters (v : VendOp) (r : Rev) (s : State) : Alters spiralParts s (windowPassed v r s) := by
  unfold windowPassed
  split
  · exact moveOn_alters _ _ s
  · refine Alters.ite (startRev_alters _ s).mono ?_
    exact ((setSpiral_alters _ _ s).seq (rs := spiralParts) (raise_alters _ _ _ _)).trans (moveOn_alters _ _ _)

theorem motorStarts_alters (b : Bool) (s : State) :
    Alters [.vendOp, .rev, .row, .spirals] s (motorStarts b s) := by
  unfold motorStarts
  split
  · exact .refl _ _
  · split
    · dsimp only
      have h : ∀ x y, Alters [.vendOp, .rev, .row, .spirals] s { s with drive.row := x, drive.rev := y } := by
        intro x y p hp; cases p <;> simp_all [Part.same]
      split
      · exact .ite (h _ _) ((h _ _).seq (modSpiral_alters _ _ _))
      · intro p hp; cases p <;> simp_all [Part.same]
    · exact .refl _ _

theorem keepSwitch_alters (r : Rev) (s : State) : Alters [.spirals] s (keepSwitch r s) := modSpiral_alters _ _ s

theorem storeTime_alters (q t : Nat) (s : State) : Alters [.spirals, .events] s (storeTime q t s) := by
  unfold storeTime
  dsimp only
  exact .ite ((modSpiral_alters _ _ s).seq (raise_alters _ _ _ _)) (modSpiral_alters _ _ s).mono

theorem enterTail_alters (r : Rev) (s : State) : Alters [.rev] s (enterTail r s) := setRev_alters _ s

theorem revComplete_alters (r : Rev) (t : Nat) (s : State) : Alters spiralParts s (revComplete r t s) := by
  unfold revComplete
  dsimp only
  have h : Alters spiralParts s (keepSwitch r (stopMotor s)) :=
    (stopMotor_alters s).seq (keepSwitch_alters _ _)
  split
  · exact .ite (h.seq (homeReady_alters _ _ _)) ((h.seq (rs := spiralParts) (storeTime_alters _ _ _)).seq
      (enterTail_alters _ _))
  · have h2 : Alters spiralParts s (storeTime r.spiral t (keepSwitch r (stopMotor s))) :=
      h.seq (storeTime_alters _ _ _)
    split
    · exact h2
    · exact .ite (h2.trans (vendSucceeds_alters _ _)) (h2.seq (enterTail_alters _ _))

theorem revFails_alters (r : Rev) (f : Failure) (s : State) : Alters spiralParts s (revFails r f s) := by
  unfold revFails
  dsimp only
  have h : Alters spiralParts s (keepSwitch r (stopMotor s)) :=
    (stopMotor_alters s).seq (keepSwitch_alters _ _)
  split
  · exact .ite (h.seq (homeStalled_alters _ _ _)) (h.seq (enterTail_alters _ _))
  · split
    · exact h
    · have h2 : Alters spiralParts s (raiseSpiralFault r.spiral f (setSpiral r.spiral f.state (keepSwitch r (stopMotor s)))) :=
        (h.seq (rs := spiralParts) (setSpiral_alters _ _ _)).seq (raiseSpiralFault_alters _ _ _)
      exact .ite (h2.trans (moveOn_alters _ _ _)) (.ite (h2.trans (vendSucceeds_alters _ _))
        (h2.seq (enterTail_alters _ _)))

theorem switchLeaves_alters (b : List Bool) (s : State) : Alters [.rev] s (switchLeaves b s) := by
  unfold switchLeaves
  split
  · exact .refl _ _
  · exact .ite (.refl _ _) (setRev_alters _ s)

theorem switchCloses_alters (b : List Bool) (t : Nat) (s : State) : Alters spiralParts s (switchCloses b t s) := by
  unfold switchCloses
  split
  · exact .refl _ _
  · exact .ite (.ite (revComplete_alters _ _ s) (setRev_alters _ s).mono) (.refl _ _)

theorem leaveLimitPasses_alters (s : State) : Alters spiralParts s (leaveLimitPasses s) := by
  unfold leaveLimitPasses
  split
  · exact .refl _ _
  · exact .ite (.refl _ _) (revFails_alters _ _ s)

theorem revLimitPasses_alters (s : State) : Alters spiralParts s (revLimitPasses s) := by
  unfold revLimitPasses
  split
  · exact .refl _ _
  · exact revFails_alters _ _ s

theorem currentJams_alters (c : List Nat) (s : State) : Alters spiralParts s (currentJams c s) := by
  unfold currentJams
  split
  · exact .refl _ _
  · exact .ite (revFails_alters _ _ s) (.refl _ _)

theorem currentAt200_alters (c : Nat) (s : State) : Alters spiralParts s (currentAt200 c s) := by
  unfold currentAt200
  split
  · exact .refl _ _
  · exact .ite (.refl _ _) (.ite (revFails_alters _ _ s) (setRev_alters _ s).mono)

theorem dropConfirmed_alters (r : Rev) (s : State) : Alters spiralParts s (dropConfirmed r s) := by
  unfold dropConfirmed
  dsimp only
  have h : ∀ x y, Alters spiralParts s { s with drive.rev := x, drive.vend := y } := by
    intro x y p hp; cases p <;> simp_all [Part.same, spiralParts]
  split
  · split
    · exact (h _ _).seq (endTest_alters _ _)
    · split
      · exact (h _ _).trans (vendSucceeds_alters _ _)
      · exact h _ _
  · exact h _ _

theorem windowEnds_alters (r : Rev) (s : State) : Alters spiralParts s (windowEnds r s) := by
  unfold windowEnds
  split
  · exact (endTest_alters _ s).mono
  · split
    · exact windowPassed_alters _ _ s
    · exact .refl _ _

theorem watchBeam_alters (b : List Bool) (c : Bool) (s : State) : Alters spiralParts s (watchBeam b c s) := by
  unfold watchBeam
  split
  · exact .refl _ _
  · exact .ite (.refl _ _) (.ite (dropConfirmed_alters _ s) (.ite (windowEnds_alters _ s)
      (setRev_alters _ s).mono))

theorem holdReachesVend_alters (z : Nat) (s : State) : Alters spiralParts s (holdReachesVend z s) := by
  unfold holdReachesVend
  split
  · exact .refl _ _
  · split
    · split
      · split
        · have h : ∀ q r, Alters spiralParts s (addProbe q (keepSwitch r s)) := fun q r =>
            (keepSwitch_alters r s).seq (addProbe_alters q _)
          exact .ite ((h _ _).trans (vendSucceeds_alters _ _)) ((h _ _).trans (vendFails_alters _ _ _))
        · exact vendFails_alters _ _ s
      · exact vendFails_alters _ _ s
    · exact .refl _ _

/-! ### Cold -/
theorem setComp_alters (x : CompState) (s : State) : Alters [.compressor] s { s with cold.state := x } := by
  intro p hp; cases p <;> simp_all [Part.same]

theorem askCompressor_alters (s : State) : Alters [.compressor, .grants] s (askCompressor s) :=
  .ite ((setComp_alters _ s).seq (request_alters _ _)) (.refl _ _)

theorem lockOff_alters (s : State) : Alters [.compressor] s (lockOff s) := by
  intro p hp; cases p <;> simp_all [Part.same, lockOff]

theorem stopIfDone_alters (s : State) : Alters [.compressor, .grants] s (stopIfDone s) :=
  .ite ((lockOff_alters s).seq (release_alters _ _)) (.refl _ _)

theorem demandChanged_alters (s : State) : Alters [.compressor, .grants] s (demandChanged s) := by
  unfold demandChanged
  split
  · exact askCompressor_alters s
  · exact .ite (.refl _ _) ((setComp_alters _ s).seq (release_alters _ _))
  · exact stopIfDone_alters s
  · exact .refl _ _

theorem setDemand_alters (z : Nat) (b : Bool) (s : State) :
    Alters [.zones, .damper, .compressor, .grants] s (setDemand z b s) := by
  unfold setDemand
  split
  · exact .refl _ _
  · dsimp only
    have h : Alters [.zones, .damper] (modZone z (fun r => { r with demand := b }) s)
        { modZone z (fun r => { r with demand := b }) s with cold.damper := b } := by
      intro p hp; cases p <;> simp_all [Part.same]
    exact ((modZone_alters _ _ s).seq (rs := [.zones, .damper]) (Alters.ite h (.refl _ _))).seq
      (demandChanged_alters _)

theorem compStartGiven_alters (s : State) : Alters [.compressor] s (compStartGiven s) := by
  unfold compStartGiven
  split
  · intro p hp; cases p <;> simp_all [Part.same]
  · exact .refl _ _

theorem surgeEnds_alters (s : State) : Alters [.compressor, .grants] s (surgeEnds s) := by
  unfold surgeEnds
  refine Alters.ite (.ite ?_ ((lockOff_alters s).seq (release_alters _ _))) (.refl _ _)
  have h : ∀ x, Alters [.compressor, .grants] s
      { s with cold.surgeTimer := none, cold.state := .running, supply.granted := x } := by
    intro x p hp; cases p <;> simp_all [Part.same]
  exact ((h _).seq (rs := [.compressor, .grants]) (grantRule_alters _)).seq (stopIfDone_alters _)

theorem minRunPasses_alters (s : State) : Alters [.compressor, .grants] s (minRunPasses s) := by
  unfold minRunPasses
  split
  · refine Alters.seq (ps := [.compressor]) ?_ (stopIfDone_alters _)
    intro p hp; cases p <;> simp_all [Part.same]
  · exact .refl _ _

theorem offTimerExpires_alters (s : State) : Alters [.compressor, .grants] s (offTimerExpires s) := by
  unfold offTimerExpires
  have h : ∀ x, Alters [.compressor] s { s with cold.offTimer := x } := by
    intro x p hp; cases p <;> simp_all [Part.same]
  split
  · exact .refl _ _
  · exact .ite (((h _).seq (rs := [.compressor]) (setComp_alters _ _)).seq (askCompressor_alters _)) (h _).mono

theorem leaveForDefrost_alters (s : State) : Alters [.compressor, .grants] s (leaveForDefrost s) := by
  unfold leaveForDefrost
  split
  · exact (lockOff_alters s).seq (release_alters _ _)
  · exact (release_alters _ s).mono
  · exact .refl _ _

theorem beginDefrost_alters (c : DefrostCause) (s : State) :
    Alters [.compressor, .defrost, .grants, .events] s (beginDefrost c s) := by
  unfold beginDefrost
  dsimp only
  refine ((leaveForDefrost_alters s).seq (rs := [.compressor, .defrost, .grants, .events])
    (qs := [.compressor, .defrost]) ?_).trans ((request_alters _ _).seq (raise_alters _ _ _ _))
  intro p hp; cases p <;> simp_all [Part.same]

theorem heaterGiven_alters (s : State) : Alters [.defrost] s (heaterGiven s) := by
  unfold heaterGiven
  split
  · intro p hp; cases p <;> simp_all [Part.same]
  · exact .refl _ _

theorem endDefrost_alters (c : Nat) (s : State) :
    Alters [.compressor, .defrost, .grants, .events] s (endDefrost c s) := by
  unfold endDefrost
  dsimp only
  have h1 : ∀ (u : State), Alters [.defrost, .compressor] u { u with cold.heater := false, cold.state := .drip } := by
    intro u p hp; cases p <;> simp_all [Part.same]
  have h2 : ∀ (u : State) x, Alters [.defrost] u { u with cold.dripTimer := x } := by
    intro u x p hp; cases p <;> simp_all [Part.same]
  exact (((h1 s).seq (rs := [.compressor, .defrost, .grants, .events]) (release_alters _ _)).seq
    (rs := [.compressor, .defrost, .grants, .events]) (h2 _ _)).seq (raise_alters _ _ _ _)

theorem defrostTests_alters (s : State) :
    Alters [.compressor, .defrost, .grants, .events] s (defrostTests s) :=
  .ite (.ite (endDefrost_alters _ s) (.ite (endDefrost_alters _ s) (.refl _ _))) (.refl _ _)

theorem heaterTick_alters (s : State) : Alters [.defrost] s (heaterTick s) := by
  unfold heaterTick
  split
  · intro p hp; cases p <;> simp_all [Part.same]
  · exact .refl _ _

theorem intervalTick_alters (s : State) :
    Alters [.compressor, .defrost, .grants, .events] s (intervalTick s) := by
  unfold intervalTick
  dsimp only
  have h : ∀ x, Alters [.defrost] s { s with cold.runSince := x } := by
    intro x p hp; cases p <;> simp_all [Part.same]
  generalize hu : (if s.cold.state = .starting ∨ s.cold.state = .running then _ else _) = u
  have h2 : Alters [.compressor, .defrost, .grants, .events] s u := by
    rw [← hu]; exact .ite (h _).mono (.refl _ _)
  exact .ite (.ite (h2.trans (beginDefrost_alters _ _)) (.ite (h2.trans (beginDefrost_alters _ _)) h2)) h2

theorem dripEnds_alters (s : State) : Alters [.compressor, .defrost, .grants] s (dripEnds s) := by
  unfold dripEnds
  have h : ∀ x, Alters [.defrost] s { s with cold.dripTimer := x } := by
    intro x p hp; cases p <;> simp_all [Part.same]
  exact .ite (.ite ((h _).seq (setComp_alters _ _)) (((h _).seq (rs := [.compressor, .defrost])
    (setComp_alters _ _)).seq (askCompressor_alters _))) (.refl _ _)

theorem setLatch_alters (z : Nat) (s : State) : Alters [.zones] s (setLatch z s) := modZone_alters _ _ s

theorem holdTick_alters (z : Nat) (s : State) : Alters (.zones :: spiralParts) s (holdTick z s) := by
  unfold holdTick
  refine Alters.ite (.refl _ _) (.ite (.ite ?_ (modZone_alters _ _ s).mono) (modZone_alters _ _ s).mono)
  exact ((setLatch_alters z s).seq (rs := .zones :: spiralParts) (raise_alters _ _ _ _)).seq
    (holdReachesVend_alters _ _)

theorem startCheck_alters (z c : Nat) (s : State) : Alters [.zones] s (startCheck z c s) :=
  .ite (.ite (setLatch_alters _ s) (.refl _ _)) (setLatch_alters _ s)

theorem releaseHold_alters (z : Nat) (s : State) : Alters [.zones, .events] s (releaseHold z s) :=
  (modZone_alters _ _ s).seq (raise_alters _ _ _ _)

theorem thermostat_alters (z : Nat) (s : State) :
    Alters [.zones, .damper, .compressor, .grants] s (thermostat z s) := by
  unfold thermostat
  split
  · exact .refl _ _
  · exact .ite (setDemand_alters _ _ s) (.ite (setDemand_alters _ _ s) (.refl _ _))

theorem beginDuty_alters (k : Nat) (s : State) :
    Alters [.zones, .damper, .compressor, .grants] s (beginDuty k s) :=
  .ite ((modZone_alters _ _ s).seq (setDemand_alters _ _ _)) (.refl _ _)

theorem endDuty_alters (k : Nat) (s : State) : Alters [.zones] s (endDuty k s) :=
  .ite (modZone_alters _ _ s) (.refl _ _)

theorem badTaken_alters (k c : Nat) (s : State) :
    Alters [.sensors, .events, .zones, .damper, .compressor, .grants] s (badTaken k c s) := by
  unfold badTaken
  refine Alters.ite (modSensor_alters _ _ s).mono (.ite (modSensor_alters _ _ s).mono ?_)
  have h : ∀ f g e x v, Alters [.sensors, .events] s (raise e x v (modSensor k g (modSensor k f s))) :=
    fun f g e x v => ((modSensor_alters k f s).seq (rs := [.sensors]) (modSensor_alters k g _)).seq (raise_alters _ _ _ _)
  exact (h _ _ _ _ _).seq (beginDuty_alters _ _)

theorem goodTaken_alters (k c : Nat) (s : State) :
    Alters [.sensors, .events, .zones] s (goodTaken k c s) := by
  unfold goodTaken
  have h : ∀ f g, Alters [.sensors] s (modSensor k g (modSensor k f s)) :=
    fun f g => (modSensor_alters k f s).trans (modSensor_alters k g _)
  refine Alters.ite (.ite (h _ _).mono ?_) (h _ _).mono
  exact ((h _ _).seq (rs := [.sensors, .events, .zones]) (raise_alters _ _ _ _)).seq (endDuty_alters _ _)

theorem zoneSteps_alters (z c : Nat) (b : Bool) (s : State) : Alters sampleParts s (zoneSteps z c b s) := by
  unfold zoneSteps
  dsimp only
  have h : Alters sampleParts s (if (s.sensor z).faulted = true then s else thermostat z s) :=
    .ite (.refl _ _) (thermostat_alters _ s).mono
  exact (h.seq (rs := sampleParts) (Alters.ite (startCheck_alters z c _) (.refl _ _))).seq (holdTick_alters _ _)

theorem takeSample_alters (k c : Nat) (s : State) : Alters sampleParts s (takeSample k c s) := by
  unfold takeSample
  dsimp only
  have h0 : Alters sampleParts s (if k = 2 then heaterTick s else s) :=
    .ite (heaterTick_alters s).mono (.refl _ _)
  have h1 : ∀ f, Alters sampleParts s (modSensor k f (if k = 2 then heaterTick s else s)) :=
    fun f => h0.seq (modSensor_alters _ _ _)
  have h2 : ∀ f, Alters sampleParts s (if goodSample c = true then
      goodTaken k c (modSensor k f (if k = 2 then heaterTick s else s)) else
      badTaken k c (modSensor k f (if k = 2 then heaterTick s else s))) :=
    fun f => .ite ((h1 f).seq (goodTaken_alters _ _ _)) ((h1 f).seq (badTaken_alters _ _ _))
  refine Alters.ite ?_ ((h2 _).trans (zoneSteps_alters _ _ _ _))
  exact ((h2 _).seq (rs := sampleParts) (defrostTests_alters _)).seq (intervalTick_alters _)

theorem sample_alters (k : Fin 3) (c : BitVec 12) (s : State) : Alters sampleParts s (sample k c s) :=
  .ite (takeSample_alters _ _ s) (.refl _ _)

theorem sampleWhen_alters (k : Fin 3) (c : BitVec 12) (f : State → State → Bool) (s : State) :
    Alters sampleParts s (sampleWhen k c f s) :=
  .ite (sample_alters _ _ s) (.refl _ _)

theorem dutyPhase_alters (z : Nat) (s : State) :
    Alters [.zones, .damper, .compressor, .grants] s (dutyPhase z s) := by
  unfold dutyPhase
  split
  · exact .refl _ _
  · exact (modZone_alters _ _ s).seq (setDemand_alters _ _ _)

theorem defrostNow_alters (s : State) :
    Alters [.compressor, .defrost, .grants, .events] s (defrostNow s).1 := by
  unfold defrostNow
  split
  · exact .refl _ _
  · exact .refl _ _
  · intro p hp; cases p <;> simp_all [Part.same]
  all_goals exact beginDefrost_alters _ s

end Sys2Proof.Machine
end

