-- ==== Sys2Proof/Laws/FrameLine.lean ====
section
/-! SUPPORT. What each operation of the Line Master, the Load Arbiter and the Retention Store leaves as it was. -/

/- One lemma after another: side by side their waiting threads take all the memory there is. -/
set_option Elab.async false

namespace Sys2Proof.Machine

/-! ### The Line Master -/
theorem sendTrans_alters (slot : Nat) (b : TransBody) (s : State) :
    Alters [.receiver, .trans] s (sendTrans slot b s) := by
  intro p hp; cases p <;> simp_all [Part.same, sendTrans]

theorem beginRound_alters (s : State) : Alters [.ring] s (beginRound s) := by
  intro p hp; cases p <;> simp_all [Part.same, beginRound]

theorem roundIfDue_alters (s : State) : Alters [.ring] s (roundIfDue s) :=
  .ite (beginRound_alters s) (.refl _ _)

theorem roundDue_alters (s : State) : Alters [.ring] s (roundDue s) := by
  unfold roundDue
  refine Alters.ite (beginRound_alters s) ?_
  intro p hp; cases p <;> simp_all [Part.same]

theorem choosePassOrPoll_alters (s : State) :
    Alters [.receiver, .trans, .passQueue, .ring] s (choosePassOrPoll s) := by
  unfold choosePassOrPoll
  have h : ∀ x, Alters [.passQueue] s { s with line.pass := x } := by
    intro x p hp; cases p <;> simp_all [Part.same]
  have h2 : ∀ x, Alters [.ring] s { s with line.list := x } := by
    intro x p hp; cases p <;> simp_all [Part.same]
  split
  · exact (h _).seq (sendTrans_alters _ _ _)
  · split
    · exact ((h2 _).seq (rs := [.ring]) (roundIfDue_alters _)).seq (sendTrans_alters _ _ _)
    · exact .refl _ _

theorem chooseNext_alters (n : Nat) (s : State) : Alters choiceParts s (chooseNext n s) := by
  induction n generalizing s with
  | zero => exact .refl _ _
  | succ n ih =>
    unfold chooseNext
    split
    · exact (choosePassOrPoll_alters s).mono
    · exact .ite ((queue_alters _ s).seq (sendTrans_alters _ _ _))
        (((queue_alters _ s).seq (rs := choiceParts) (returnCmd_alters _ _ _)).trans (ih _))

theorem lineChoose_alters (s : State) : Alters choiceParts s (lineChoose s) :=
  .ite (chooseNext_alters _ s) (.refl _ _)

theorem setEconomy_alters (b : Bool) (s : State) : Alters [.economy] s { s with lock.economy := b } := by
  intro p hp; cases p <;> simp_all [Part.same]

theorem endEconomy_alters (c : ModeEnd) (s : State) : Alters [.economy, .events] s (endEconomy c s) :=
  .ite ((setEconomy_alters _ s).seq (raise_alters _ _ _ _)) (.refl _ _)

theorem faultPair_alters (a c : Nat) (s : State) : Alters [.slots, .events] s (faultPair a c s) :=
  .ite (.refl _ _) ((modSlot_alters _ _ s).seq (raise_alters _ _ _ _))

theorem validatorPair_alters (slot c a : Nat) (s : State) : Alters reportParts s (validatorPair slot c a s) :=
  .ite ((coinTube_alters a s).seq (endEconomy_alters _ _)) (.ite ((coinBox_alters a s).seq (endEconomy_alters _ _))
    (.ite (raise_alters _ _ _ s).mono (.ite (returnLever_alters s).mono (.ite (faultPair_alters _ _ s).mono
      (raise_alters _ _ _ s).mono))))

theorem readerPair_alters (slot c a : Nat) (s : State) : Alters reportParts s (readerPair slot c a s) :=
  .ite ((noteEscrow_alters a s).seq (endEconomy_alters _ _)) (.ite (noteStacked_alters a s).mono
    (.ite (noteReturned_alters a s).mono (.ite (raise_alters _ _ _ s).mono (.ite (faultPair_alters _ _ s).mono
      (raise_alters _ _ _ s).mono))))

theorem readPairs_alters (ps : List Part) (f : Nat → Nat → State → State) (hf : ∀ c a s, Alters ps s (f c a s)) :
    ∀ (l : List Byte) (s : State), Alters ps s (readPairs f l s)
  | [], _ => .refl _ _
  | [_], _ => .refl _ _
  | _ :: _ :: rest, s => (hf _ _ s).trans (readPairs_alters ps f hf rest _)

theorem readPoll_alters (slot : Nat) (l : List Byte) (s : State) : Alters reportParts s (readPoll slot l s) := by
  unfold readPoll
  split
  · exact readPairs_alters _ _ (validatorPair_alters slot) _ _
  · exact readPairs_alters _ _ (readerPair_alters slot) _ _
  · exact .ite (.refl _ _) (raisePassReply_alters _ _ _ _ s).mono
  · exact .refl _ _

theorem tellPresent_alters (slot : Nat) (s : State) : Alters maskParts s (tellPresent slot s) := by
  unfold tellPresent
  split
  · exact (modMaskRec_alters _ _ s).seq (recomputeMasks_alters _)
  · exact (modMaskRec_alters _ _ s).seq (recomputeNote_alters _)
  · exact .refl _ _

theorem tellSilent_alters (slot : Nat) (s : State) : Alters reportParts s (tellSilent slot s) := by
  unfold tellSilent
  split
  · exact (recomputeMasks_alters s).mono
  · exact (expireEscrow_alters s).seq (recomputeNote_alters _)
  · exact .refl _ _

theorem slotReplied_alters (slot : Nat) (s : State) :
    Alters [.slots, .events, .coinMasks, .noteMask, .cmdQueue, .lineCounts, .maskRecs] s (slotReplied slot s) := by
  unfold slotReplied
  exact .ite (modSlot_alters _ _ s).mono (((modSlot_alters _ _ s).seq (rs := [.slots, .events])
    (raise_alters _ _ _ _)).seq (tellPresent_alters _ _))

theorem slotMissed_alters (slot : Nat) (s : State) : Alters reportParts s (slotMissed slot s) := by
  unfold slotMissed
  refine Alters.ite ?_ (modSlot_alters _ _ s).mono
  exact (((modSlot_alters _ _ s).seq (rs := reportParts) (modSlot_alters _ _ _)).seq (rs := reportParts)
    (raise_alters _ _ _ _)).trans (tellSilent_alters _ _)

theorem leaveTrans_alters (b : Bool) (s : State) : Alters [.receiver, .trans] s (leaveTrans b s) := by
  intro p hp; cases p <;> simp_all [Part.same, leaveTrans]

theorem returnFlying_alters (r : CmdReturn) (s : State) :
    Alters [.cmdQueue, .lineCounts, .maskRecs] s (returnFlying r s) := by
  unfold returnFlying
  split
  · exact .refl _ _
  · exact (queue_alters _ s).seq (returnCmd_alters _ _ _)

theorem setPass_alters (x : List PassEntry) (s : State) : Alters [.passQueue] s { s with line.pass := x } := by
  intro p hp; cases p <;> simp_all [Part.same]

theorem returnPass_alters (e : PassEntry) (r : Nat) (l : List Byte) (s : State) :
    Alters [.passQueue, .events] s (returnPass e r l s) :=
  (setPass_alters _ s).seq (raisePassReply_alters _ _ _ _ _)

theorem handOn_alters (t : Trans) (o : TransEnd) (s : State) : Alters lineParts s (handOn t o s) := by
  unfold handOn
  split
  · exact .ite (.refl _ _) ((readPoll_alters _ _ s).seq (modSlot_alters _ _ _))
  · exact .refl _ _
  · exact .refl _ _
  all_goals first | exact (returnFlying_alters _ s).mono | exact (returnPass_alters _ _ _ s).mono

theorem endTrans_alters (t : Trans) (o : TransEnd) (s : State) : Alters lineParts s (endTrans t o s) := by
  unfold endTrans
  dsimp only
  generalize heldOutcome t o s = q
  have h1 : Alters lineParts s (leaveTrans (q == .missed) s) := (leaveTrans_alters _ s).mono
  refine Alters.trans (Alters.trans h1 ?_) (handOn_alters _ _ _)
  refine Alters.ite (.refl _ _) ?_
  split
  · exact (slotReplied_alters _ _).mono
  · exact (slotMissed_alters _ _).mono
  · exact (slotMissed_alters _ _).mono

theorem contendCmd_alters (e : Cmd) (s : State) :
    Alters [.cmdQueue, .lineCounts, .maskRecs] s (contendCmd e s) :=
  .ite (returnFlying_alters _ s) (queue_alters _ s).mono

theorem contendPass_alters (e : PassEntry) (s : State) : Alters [.passQueue, .events] s (contendPass e s) :=
  .ite (returnPass_alters _ _ _ s) (setPass_alters _ s).mono

theorem contend_alters (t : Trans) (s : State) : Alters lineParts s (contend t s) := by
  unfold contend
  dsimp only
  have h : ∀ f, Alters lineParts s
      (if t.stale then leaveTrans false s else modSlot t.slot f (leaveTrans false s)) := fun f =>
    .ite (leaveTrans_alters _ s).mono ((leaveTrans_alters _ s).seq (modSlot_alters _ _ _))
  have h1 := h fun r => { r with contention := satAdd Config.maxCount16 r.contention 1 }
  refine h1.trans ?_
  generalize (if t.stale then leaveTrans false s else modSlot t.slot
    (fun r => { r with contention := satAdd Config.maxCount16 r.contention 1 }) (leaveTrans false s)) = u
  split
  · exact .refl _ _
  · split
    · exact (contendCmd_alters _ _).mono
    · exact .refl _ _
  · exact (contendPass_alters _ _).mono

theorem countNoisy_alters (n : Nat) (s : State) : Alters [.lineCounts, .slots] s (countNoisy n s) := by
  unfold countNoisy
  dsimp only
  have h : ∀ x, Alters [.lineCounts] s { s with line.noisy := x } := by
    intro x p hp; cases p <;> simp_all [Part.same]
  split
  · exact (h _).seq (modSlot_alters _ _ _)
  · exact (h _).mono

theorem countFraming_alters (s : State) : Alters [.lineCounts] s (countFraming s) := by
  intro p hp; cases p <;> simp_all [Part.same, countFraming]

theorem countCrc_alters (s : State) : Alters [.lineCounts] s (countCrc s) := by
  intro p hp; cases p <;> simp_all [Part.same, countCrc]

theorem countTruncated_alters (s : State) : Alters [.lineCounts] s (countTruncated s) := by
  intro p hp; cases p <;> simp_all [Part.same, countTruncated]

theorem discardFrame_alters (s : State) : Alters lineParts s (discardFrame s) := by
  unfold discardFrame
  have h : ∀ x, Alters [.receiver] s { s with line.assembling := x } := by
    intro x p hp; cases p <;> simp_all [Part.same]
  dsimp only
  split
  · exact (h _).mono.trans (endTrans_alters _ _ _)
  · intro p hp; cases p <;> simp_all [Part.same, lineParts]

theorem unsolicitedBreak_alters (s : State) : Alters [.receiver, .lineCounts] s (unsolicitedBreak s) := by
  intro p hp; cases p <;> simp_all [Part.same, unsolicitedBreak, countUnsolicited]

theorem lineBreakSeen_alters (s : State) : Alters lineParts s (lineBreakSeen s) := by
  unfold lineBreakSeen
  split
  · exact (unsolicitedBreak_alters s).mono
  · refine Alters.ite ((discardFrame_alters s).seq (unsolicitedBreak_alters _)) ?_
    intro p hp; cases p <;> simp_all [Part.same, lineParts]

theorem setTrans_alters (t : Option Trans) (s : State) : Alters [.trans] s { s with line.trans := t } := by
  intro p hp; cases p <;> simp_all [Part.same]

theorem setIdle_alters (b : Bool) (s : State) : Alters [.receiver] s { s with line.idle := b } := by
  intro p hp; cases p <;> simp_all [Part.same]

theorem lineLow_alters (s : State) : Alters [.receiver, .trans] s (lineLow s) := by
  unfold lineLow
  split
  · exact (setTrans_alters _ _).mono
  · exact (setIdle_alters _ _).mono

theorem lineFramingSeen_alters (s : State) : Alters lineParts s (lineFramingSeen s) :=
  .ite ((countFraming_alters s).seq (discardFrame_alters _)) ((countFraming_alters s).seq (lineLow_alters _))

theorem strayChars_alters (cs : List RxChar) (s : State) : Alters lineParts s (strayChars cs s) :=
  .ite (.refl _ _) (.ite ((countNoisy_alters _ s).seq (lineFramingSeen_alters _))
    ((countNoisy_alters _ s).seq (lineLow_alters _)))

theorem lineTruncatedSeen_alters (s : State) : Alters lineParts s (lineTruncatedSeen s) := by
  unfold lineTruncatedSeen
  refine Alters.ite ((countTruncated_alters s).seq (discardFrame_alters _)) ?_
  split
  · exact endTrans_alters _ _ s
  · exact .refl _ _

theorem lineBadHeaderSeen_alters (s : State) : Alters lineParts s (lineBadHeaderSeen s) :=
  .ite ((countCrc_alters s).seq (discardFrame_alters _)) (.refl _ _)

theorem lineCutShort_alters (cs : List RxChar) (s : State) : Alters lineParts s (lineCutShort cs s) := by
  unfold lineCutShort
  split
  · exact (countNoisy_alters _ s).seq (lineBadHeaderSeen_alters _)
  · exact (countNoisy_alters _ s).seq (lineFramingSeen_alters _)
  · exact .refl _ _

theorem lineFrameSeen_alters (cs : List RxChar) (s : State) : Alters lineParts s (lineFrameSeen cs s) := by
  unfold lineFrameSeen
  split
  · split
    · exact lineCutShort_alters _ s
    · dsimp only
      have h : ∀ n, Alters lineParts s (countNoisy n s) := fun n => (countNoisy_alters n s).mono
      split
      · split
        · refine (h (noisyCount cs)).trans ?_
          intro p hp; cases p <;> simp_all [Part.same, lineParts]
        · exact .ite ((h _).trans (endTrans_alters _ _ _)) ((h _).trans (endTrans_alters _ _ _))
      · exact ((h _).trans ((countCrc_alters _).seq (discardFrame_alters _)))
  · exact strayChars_alters _ s

theorem requestEnds_alters (s : State) : Alters [.receiver, .trans] s (requestEnds s) := by
  unfold requestEnds
  split
  · split
    · intro p hp; cases p <;> simp_all [Part.same]
    · exact .refl _ _
  · exact .refl _ _

theorem windowCloseSeen_alters (s : State) : Alters lineParts s (windowCloseSeen s) := by
  unfold windowCloseSeen
  split
  · exact .ite (endTrans_alters _ _ s) (.refl _ _)
  · exact .refl _ _

theorem lineQuiet_alters (s : State) : Alters [.receiver] s (lineQuiet s) := .ite (setIdle_alters _ s) (.refl _ _)

theorem moveMaskRec_alters (q : Option Periph) (s : State) : Alters [.maskRecs] s (moveMaskRec q s) := by
  unfold moveMaskRec
  split
  · exact modMaskRec_alters _ _ s
  · exact .refl _ _

theorem dropSlotCmds_alters (slot n : Nat) (s : State) :
    Alters [.cmdQueue, .lineCounts, .maskRecs] s (dropSlotCmds slot n s) := by
  induction n generalizing s with
  | zero => exact .refl _ _
  | succ n ih =>
    unfold dropSlotCmds
    split
    · exact .refl _ _
    · exact ((queue_alters _ s).seq (rs := [.cmdQueue, .lineCounts, .maskRecs]) (returnCmd_alters _ _ _)).trans (ih _)

/-- A fold of changes, each to the same parts. -/
theorem Alters.foldl {ps : List Part} {α : Type} (f : State → α → State) (hf : ∀ s a, Alters ps s (f s a)) :
    ∀ (l : List α) (s : State), Alters ps s (l.foldl f s)
  | [], _ => .refl _ _
  | a :: l, s => (hf s a).trans (Alters.foldl f hf l _)

theorem dropSlotPasses_alters (slot : Nat) (s : State) : Alters [.passQueue, .events] s (dropSlotPasses slot s) := by
  unfold dropSlotPasses
  dsimp only
  exact (setPass_alters _ s).seq (ps := [.passQueue]) (qs := [.events])
    (Alters.foldl _ (fun s e => raisePassReply_alters _ _ _ _ s) _ _)

theorem tellKindLost_alters (q : Option Periph) (s : State) : Alters reportParts s (tellKindLost q s) := by
  unfold tellKindLost
  split
  · exact (expireEscrow_alters s).seq (recomputeNote_alters _)
  · exact (recomputeMasks_alters s).mono
  · exact .refl _ _

theorem tellKindTaken_alters (q : Option Periph) (s : State) :
    Alters [.noteMask, .maskRecs] s (tellKindTaken q s) := by
  unfold tellKindTaken
  split
  · refine Alters.ite (Alters.seq (ps := [.noteMask]) ?_ (modMaskRec_alters _ _ _)) (.refl _ _)
    intro p hp; cases p <;> simp_all [Part.same]
  · exact .refl _ _
  · exact .refl _ _

theorem setSlotKind_alters (slot : Nat) (k : SlotKind) (s : State) :
    Alters slotKindParts s (setSlotKind slot k s) := by
  unfold setSlotKind
  refine Alters.ite (.refl _ _) ?_
  dsimp only
  have h0 : ∀ x, Alters slotKindParts s { s with tables.slotKinds := x } := by
    intro x p hp; cases p <;> simp_all [Part.same, slotKindParts]
  have h1 : ∀ x f n, Alters slotKindParts s (dropSlotCmds slot n (modSlot slot f { s with tables.slotKinds := x })) :=
    fun x f n => ((h0 x).seq (rs := slotKindParts) (modSlot_alters _ _ _)).seq (dropSlotCmds_alters _ _ _)
  have h2 : ∀ x f n, Alters slotKindParts s (if k = .unused then
      roundIfDue (dropSlotPasses slot { dropSlotCmds slot n (modSlot slot f { s with tables.slotKinds := x }) with
        line.list := (dropSlotCmds slot n (modSlot slot f { s with tables.slotKinds := x })).line.list.filter (· != slot) })
      else dropSlotCmds slot n (modSlot slot f { s with tables.slotKinds := x })) := by
    intro x f n
    refine Alters.ite ?_ (h1 x f n)
    refine ((h1 x f n).seq (ps := slotKindParts) (rs := slotKindParts) (qs := [.ring])
      ?_).trans (((dropSlotPasses_alters _ _).seq (rs := slotKindParts) (roundIfDue_alters _)))
    intro p hp; cases p <;> simp_all [Part.same]
  refine Alters.seq (ps := slotKindParts) (qs := slotKindParts) ?_
    (Alters.seq (tellKindLost_alters _ _) (tellKindTaken_alters _ _))
  refine Alters.seq (ps := slotKindParts) ?_ (Alters.trans (moveMaskRec_alters _ _) (moveMaskRec_alters _ _))
  exact (h2 _ _ _).seq (setTrans_alters _ _)

theorem placePass_alters (a k t : Nat) (l : List Byte) (s : State) : Alters [.passQueue] s (placePass a k t l s) :=
  setPass_alters _ s

theorem clearLatches_alters (slot : Nat) (s : State) : Alters [.slots] s (clearLatches slot s) := by
  unfold clearLatches
  refine Alters.ite ?_ (modSlot_alters _ _ s)
  intro p hp; cases p <;> simp_all [Part.same]

/-! ### Arbiter and store -/
theorem raiseShed_alters (x : Load) (s : State) : Alters [.events] s (raiseShed x s) := raise_alters _ _ _ s

theorem shedHeater_alters (s : State) : Alters [.grants, .defrost, .events] s (shedHeater s) := by
  unfold shedHeater
  refine Alters.ite (Alters.seq (ps := [.grants, .defrost]) ?_ (raiseShed_alters _ _)) (.refl _ _)
  intro p hp; cases p <;> simp_all [Part.same]

theorem shedCompressor_alters (s : State) : Alters [.grants, .compressor, .events] s (shedCompressor s) := by
  unfold shedCompressor
  have h : ∀ x, Alters [.grants] s { s with supply.granted := x } := by
    intro x p hp; cases p <;> simp_all [Part.same]
  exact .ite (((h _).seq (rs := [.grants, .events]) (raiseShed_alters _ _)).seq (lockOff_alters _))
    (.ite (((h _).seq (rs := [.grants, .events]) (raiseShed_alters _ _)).seq (lockOff_alters _)) (.refl _ _))

theorem budgetChanged_alters (s : State) : Alters [.grants, .compressor, .defrost, .events] s (budgetChanged s) :=
  ((shedHeater_alters s).seq (rs := [.grants, .compressor, .defrost, .events]) (shedCompressor_alters _)).seq
    (grantRule_alters _)

theorem setStore_alters (x : Store) (s : State) : Alters [.store] s { s with store := x } := by
  intro p hp; cases p <;> simp_all [Part.same]

theorem beginTableWrite_alters (s : State) : Alters [.store] s (beginTableWrite s) := setStore_alters _ s

theorem askTableWrite_alters (s : State) : Alters [.store] s (askTableWrite s) :=
  .ite (setStore_alters _ s) (beginTableWrite_alters s)

theorem commitTables_alters (s : State) : Alters [.store] s (commitTables s) := by
  unfold commitTables
  split
  · exact .refl _ _
  · exact .ite (setStore_alters _ s) (setStore_alters _ s)

theorem commitRetained_alters (s : State) : Alters [.store] s (commitRetained s) := by
  unfold commitRetained
  split
  · exact .refl _ _
  · exact .ite (setStore_alters _ s) (setStore_alters _ s)

theorem tablesChanged_alters (s : State) : Alters [.storeDefaults, .store] s (tablesChanged s) := by
  unfold tablesChanged
  refine Alters.seq (ps := [.storeDefaults]) ?_ (askTableWrite_alters _)
  intro p hp; cases p <;> simp_all [Part.same]

end Sys2Proof.Machine
end

