-- ==== Sys2Proof/Laws/FrameRequests.lean ====
section
/-! SUPPORT. What each request, the taking of a request and the end of a step leave as they were. -/

/- One lemma after another: side by side their waiting threads take all the memory there is. -/
set_option Elab.async false

namespace Sys2Proof.Machine

/-! ### Tables -/
theorem setTables_alters (x : Tables) (s : State) : Alters [.tables] s { s with tables := x } := by
  intro p hp; cases p <;> simp_all [Part.same]

theorem applyTube_alters (n : Nat) (t : TubeRec) (s : State) : Alters tableParts s (applyTube n t s) := by
  unfold applyTube
  dsimp only
  have h0 : ∀ x, Alters tableParts s { s with tables.tubes := x } := by
    intro x p hp; cases p <;> simp_all [Part.same, tableParts, slotKindParts]
  have h1 : ∀ k m u, Alters tableParts s u → Alters tableParts s (unpairCoin k m u) := by
    intro k m u hu
    refine hu.trans ?_
    intro p hp; cases p <;> simp_all [Part.same, tableParts, slotKindParts, unpairCoin]
  have h2 : ∀ u w a b, Alters tableParts s u → Alters tableParts s (raiseCorrected n w a b (rawCount n b u)) :=
    fun u w a b hu => hu.trans ((rawCount_alters n b u).seq (raiseCorrected_alters _ _ _ _ _))
  have h3 : ∀ u c, Alters tableParts s u → Alters tableParts s (reconcile n (rawCond n c u)) :=
    fun u c hu => hu.trans ((rawCond_alters n c u).seq (reconcile_alters _ _))
  exact h3 _ _ (.ite (.ite (h2 _ _ _ _ (h0 _)) (h0 _)) (h2 _ _ _ _ (h1 _ _ _ (h0 _))))

theorem removeFromList_alters (p i : Nat) (s : State) : Alters [.tables, .sels] s (removeFromList p i s) := by
  unfold removeFromList
  split
  · exact .refl _ _
  · refine Alters.seq (ps := [.tables]) ?_ (modSel_alters _ _ _)
    intro p hp; cases p <;> simp_all [Part.same]

theorem unassign_alters (p : Nat) (s : State) : Alters [.spirals] s (unassign p s) := modSpiral_alters _ _ s

theorem takeSpirals_alters (i : Nat) (l : List Nat) (x : State × Nat) :
    Alters [.tables, .sels] x.1 (l.foldl (takeSpiral i) x).1 := by
  induction l generalizing x with
  | nil => exact .refl _ _
  | cons a l ih =>
    refine Alters.trans ?_ (ih _)
    unfold takeSpiral
    split
    · exact .refl _ _
    · exact removeFromList_alters _ _ _

theorem applySel_alters (i : Nat) (r : SelLoaded) (s : State) :
    Alters [.tables, .sels, .spirals] s (applySel i r s).1 := by
  unfold applySel
  dsimp only
  have h1 := takeSpirals_alters i r.spirals (s, 0)
  have h2 := h1.seq (rs := [.tables, .sels, .spirals]) (Alters.foldl (ps := [.spirals]) (fun s p => unassign p s)
    (fun s a => unassign_alters a s) ((s.tables.sel i).spirals.filter fun p => !r.spirals.contains p) _)
  generalize List.foldl (fun s p => unassign p s) _ _ = u at h2
  have h3 : ∀ x, Alters [.tables] u { u with tables.sels := x } := by
    intro x p hp; cases p <;> simp_all [Part.same]
  refine Alters.trans ?_ ((Alters.foldl (ps := [.spirals]) _ (fun s a => addProbe_alters a s) _ _).mono)
  exact .ite (h2.trans (h3 _).mono) (h2.trans ((h3 _).seq (modSel_alters _ _ _)))

theorem loadRecord_alters (table i : Nat) (r : List Byte) (s : State) (x : State × Nat × Nat)
    (h : recordStep table i r s = .ok x) : Alters tableParts s x.1 := by
  have ht : ∀ y, Alters tableParts s { s with tables := y } := fun y => (setTables_alters y s).mono
  have hx : ∀ (u : State) a b, Alters tableParts s u → Except.ok (ε := ReplyCode) (u, a, b) = Except.ok x →
      Alters tableParts s x.1 := fun u a b hu he => by cases he; exact hu
  unfold recordStep at h
  split at h
  · unfold loadMoney at h
    refine hx _ _ _ ?_ h
    refine Alters.trans ?_ (recomputeMasks_alters _).mono
    exact .ite (ht _) ((ht _).trans (evalExact_alters _).mono)
  · unfold loadCoin at h; split at h; · cases h
    exact hx _ _ _ (ht _) h
  · unfold loadTube at h; split at h; · cases h
    exact hx _ _ _ (applyTube_alters _ _ s) h
  · unfold loadNote at h
    exact hx _ _ _ (ht _) h
  · unfold loadSel at h; dsimp only at h; split at h; · cases h
    split at h; · cases h
    exact hx _ _ _ (applySel_alters _ _ s).mono h
  · unfold loadDrive at h
    exact hx _ _ _ (ht _) h
  · exact hx _ _ _ (ht _) h
  · exact hx _ _ _ (ht _) h
  · exact hx _ _ _ (ht _) h
  · exact hx _ _ _ ((ht _).trans (budgetChanged_alters _).mono) h
  · unfold loadSlot at h; split at h; · cases h
    split at h; · cases h
    exact hx _ _ _ (setSlotKind_alters _ _ s).mono h
  · exact hx _ _ _ (ht _) h
  · exact hx _ _ _ (ht _) h
  · cases h

theorem loadAll_alters (ps : List Part) (f : Nat → List Byte → State → Loaded)
    (hf : ∀ i r s x, f i r s = .ok x → Alters ps s x.1) :
    ∀ (l : List (List Byte)) (i c m : Nat) (s : State) (x : State × Nat × Nat),
      loadAll f i l c m s = .ok x → Alters ps s x.1
  | [], i, c, m, s, x, h => by cases h; exact .refl _ _
  | r :: l, i, c, m, s, x, h => by
    unfold loadAll at h
    split at h
    · cases h
    · rename_i h1
      exact (hf _ _ _ _ h1).trans (loadAll_alters ps f hf l _ _ _ _ _ h)

theorem afterSection_alters (table : Nat) (s : State) : Alters tableParts s (afterSection table s) := by
  unfold afterSection
  split
  · exact (evalExact_alters s).mono.trans (recomputeMasks_alters _).mono
  · exact (evalExact_alters s).mono.trans (recomputeMasks_alters _).mono
  · exact (recomputeNote_alters s).mono
  · exact .refl _ _

theorem loadSection_alters (t f c : Nat) (l : List Byte) (s : State) (x : State × Nat × Nat)
    (h : loadSection t f c l s = .ok x) : Alters loadParts s x.1 := by
  unfold loadSection at h
  split at h
  · cases h
  split at h
  · cases h
  split at h
  · cases h
  split at h
  · cases h
  · rename_i h1
    cases h
    exact ((loadAll_alters _ _ (loadRecord_alters t) _ _ _ _ _ _ h1).trans (afterSection_alters _ _)).mono.trans
      (tablesChanged_alters _).mono

/-! ### Service -/
theorem resetTag_alters (s : State) : Alters [.tag, .marks] s (resetTag s) := by
  unfold resetTag
  refine Alters.ite (.refl _ _) ?_
  intro p hp; cases p <;> simp_all [Part.same]

theorem endSession_alters (s : State) : Alters [.lockState, .tag, .marks] s (endSession s) := by
  unfold endSession
  refine Alters.ite (Alters.seq (ps := [.lockState]) ?_ (resetTag_alters _)) (.refl _ _)
  intro p hp; cases p <;> simp_all [Part.same]

theorem endFill_alters (c : ModeEnd) (s : State) : Alters [.fill, .events] s (endFill c s) := by
  unfold endFill
  refine Alters.ite (Alters.seq (ps := [.fill]) ?_ (raise_alters _ _ _ _)) (.refl _ _)
  intro p hp; cases p <;> simp_all [Part.same]

theorem doorChanged_alters (b : Bool) (s : State) : Alters doorParts s (doorChanged b s) := by
  unfold doorChanged
  dsimp only
  refine Alters.ite ((raise_alters _ _ _ s).seq (endEconomy_alters _ _)) ?_
  exact (((raise_alters _ _ _ s).seq (rs := doorParts) (endSession_alters _)).seq (rs := doorParts)
    (endFill_alters _ _)).seq (recomputeMasks_alters _)

theorem doorReads_alters (l : List Bool) (s : State) : Alters doorParts s (doorReads l s) := by
  unfold doorReads
  have h : ∀ x, Alters doorParts s { s with lock.door := x } := by
    intro x p hp; cases p <;> simp_all [Part.same, doorParts]
  dsimp only
  split
  · exact (h _).trans (doorChanged_alters _ _)
  · exact h _

theorem lockoutExpires_alters (s : State) : Alters [.lockout] s (lockoutExpires s) := by
  unfold lockoutExpires
  refine Alters.ite ?_ (.refl _ _)
  intro p hp; cases p <;> simp_all [Part.same]

theorem countFailure_alters (s : State) : Alters [.lockout, .events] s (countFailure s) := by
  unfold countFailure
  refine Alters.ite ?_ (Alters.seq (ps := [.lockout]) ?_ (raise_alters _ _ _ _)) <;>
    (intro p hp; cases p <;> simp_all [Part.same])

theorem serveUnlock_alters (c : CodeArg) (s : State) :
    Alters [.lockState, .lockout, .events] s (serveUnlock c s).1 := by
  unfold serveUnlock
  split
  · exact .refl _ _
  · exact .refl _ _
  · split
    · exact .refl _ _
    · split
      · intro p hp; cases p <;> simp_all [Part.same, doneWith]
      · exact (countFailure_alters s).mono

theorem serveLock_alters (s : State) : Alters [.lockState, .tag, .marks] s (serveLock s).1 := by
  unfold serveLock
  split
  · exact endSession_alters s
  · exact .refl _ _
  · exact .refl _ _

theorem setCode_alters (d : List Nat) (n : Nat) (s : State) : Alters [.code, .lockState] s (setCode d n s) := by
  intro p hp; cases p <;> simp_all [Part.same, setCode]

theorem serveSetCode_alters (o n : CodeArg) (k : Nat) (s : State) :
    Alters [.code, .lockState] s (serveSetCode o n k s).1 := by
  unfold serveSetCode
  split
  · exact .refl _ _
  · split
    · exact .refl _ _
    · exact .refl _ _
    · split
      · split
        · exact setCode_alters _ _ s
        · exact .refl _ _
      · split
        · exact setCode_alters _ _ s
        · exact .refl _ _
      · exact .refl _ _

theorem serveClearCode_alters (c : CodeArg) (s : State) :
    Alters [.code, .lockState] s (serveClearCode c s).1 := by
  unfold serveClearCode
  split
  · exact .refl _ _
  · split
    · intro p hp; cases p <;> simp_all [Part.same, doneWith]
    · exact .refl _ _
  · exact .refl _ _

theorem factoryClear_alters (s : State) : Alters clearParts s (factoryClear s) := by
  have a1 : ∀ s, Alters clearParts s (clearLock s) := fun s => by
    unfold clearLock
    refine Alters.trans (t := { s with lock.code := none, lock.state := .opened, lock.lockout := false, lock.failures := 0, lock.tag := .empty }) ?_ (endFill_alters _ _).mono
    intro p hp; cases p <;> simp_all [Part.same, clearParts]
  have a2 : ∀ s, Alters clearParts s (clearAudit s) := fun s => by
    intro p hp; cases p <;> simp_all [Part.same, clearParts, clearAudit, loadParts, tableParts, slotKindParts, lineParts, reportParts]
  have a3 : ∀ s, Alters clearParts s (applyPlainDefaults (applyDefaultSels (applyDefaultTubes (defaultMoneyAndCoins s)))) := fun s => by
    have b1 : Alters clearParts s (defaultMoneyAndCoins s) := by
      intro p hp; cases p <;> simp_all [Part.same, clearParts, loadParts, tableParts, slotKindParts, defaultMoneyAndCoins]
    have b2 : ∀ s, Alters clearParts s (applyDefaultTubes s) := fun s =>
      Alters.foldl _ (fun s n => (applyTube_alters _ _ s).mono) _ _
    have b3 : ∀ s, Alters clearParts s (applyDefaultSels s) := fun s => by
      intro p hp; cases p <;> simp_all [Part.same, clearParts, loadParts, tableParts, slotKindParts, applyDefaultSels, probeAll]
    have b4 : ∀ s, Alters clearParts s (applyPlainDefaults s) := fun s => by
      intro p hp; cases p <;> simp_all [Part.same, clearParts, loadParts, tableParts, slotKindParts, applyPlainDefaults]
    exact ((b1.trans (b2 _)).trans (b3 _)).trans (b4 _)
  have a4 : ∀ s, Alters clearParts s (restoreDefaults s) := fun s => by
    unfold restoreDefaults
    dsimp only
    refine Alters.trans (((a3 s).trans (evalExact_alters _).mono).trans (recomputeMasks_alters _).mono) ?_
    refine Alters.trans (t := budgetChanged { recomputeMasks (evalExact (applyPlainDefaults (applyDefaultSels
      (applyDefaultTubes (defaultMoneyAndCoins s))))) with tables.loads := defaultLoads }) ?_
      (Alters.foldl _ (fun s n => (setSlotKind_alters _ _ s).mono) _ _)
    refine Alters.trans ?_ (budgetChanged_alters _).mono
    intro p hp; cases p <;> simp_all [Part.same, clearParts, loadParts, tableParts, slotKindParts]
  have a5 : ∀ s, Alters clearParts s (clearTubes s) := fun s =>
    (Alters.foldl (ps := clearParts) _ (fun s n => ((rawCount_alters n 0 s).seq (rs := clearParts)
      (rawCond_alters _ _ _)).seq (reconcile_alters _ _)) _ _).trans (afterTubes_alters _).mono
  have a6 : ∀ s, Alters clearParts s (clearHolds s) := fun s => by
    intro p hp; cases p <;> simp_all [Part.same, clearParts, clearHolds]
  have a7 : ∀ s, Alters clearParts s (clearStore s) := fun s => by
    intro p hp; cases p <;> simp_all [Part.same, clearParts, loadParts, clearStore]
  exact ((((((a1 s).trans (a2 _)).trans (a4 _)).trans (a5 _)).trans (a6 _)).trans (a7 _))

theorem serveFactoryClear_alters (s : State) : Alters clearParts s (serveFactoryClear s).1 := by
  unfold serveFactoryClear
  repeat' split
  all_goals first | exact .refl _ _ | exact factoryClear_alters s

theorem setTag_alters (t : TagRec) (s : State) : Alters [.tag] s { s with lock.tag := t } := by
  intro p hp; cases p <;> simp_all [Part.same]

theorem serveTagFirst_alters (u v : Nat) (s : State) : Alters [.tag] s (serveTagFirst u v s).1 := by
  unfold serveTagFirst
  repeat' split
  all_goals exact setTag_alters _ s

theorem serveTagLast_alters (u v : Nat) (s : State) : Alters [.tag] s (serveTagLast u v s).1 := by
  unfold serveTagLast
  repeat' split
  all_goals exact setTag_alters _ s

theorem serveUntag_alters (c : Nat) (s : State) : Alters [.tag] s (serveUntag c s).1 := by
  unfold serveUntag
  repeat' split
  all_goals exact setTag_alters _ s

theorem applyTo_alters (a : Action) (x : State × Nat × Nat) (i : Nat) :
    Alters applyParts x.1 (applyTo a x i).1 := by
  unfold applyTo
  cases a with
  | setPrice p => exact (setTables_alters _ x.1).mono
  | inhibit => exact (modSel_alters _ _ x.1).mono
  | enable => dsimp only; split
              · exact .refl _ _
              · exact (modSel_alters _ _ x.1).mono
  | restock =>
    dsimp only; split
    · exact .refl _ _
    · exact (Alters.foldl (ps := applyParts) _ (fun s p => (modSpiral_alters _ _ s).mono) _ _).trans
        (modSel_alters _ _ _).mono

theorem applyAll_alters (a : Action) (l : List Nat) (x : State × Nat × Nat) :
    Alters applyParts x.1 (l.foldl (applyTo a) x).1 := by
  induction l generalizing x with
  | nil => exact .refl _ _
  | cons i l ih => exact (applyTo_alters a x i).trans (ih _)

theorem serveApply_alters (c p : Nat) (s : State) : Alters applyParts s (serveApply c p s).1 := by
  unfold serveApply
  split
  · exact (setTag_alters _ s).mono
  · rename_i a _
    unfold applyAction
    split
    · dsimp only
      split
      · exact .refl _ _
      · rename_i u f l off _ _
        have h : Alters applyParts s { ((taggedSet u f l off).foldl (applyTo a) (s, 0, 0)).1 with lock.tag := .empty } :=
          (applyAll_alters a (taggedSet u f l off) (s, 0, 0)).trans (setTag_alters .empty _).mono
        dsimp only
        cases a with
        | setPrice p => exact h.trans (tablesChanged_alters _).mono
        | inhibit => exact h
        | enable => exact h
        | restock => exact h
    · exact (setTag_alters _ s).mono
    · exact (setTag_alters _ s).mono

theorem serveFill_alters (n : Nat) (s : State) : Alters (.fill :: maskParts) s (serveFill n s).1 := by
  have h : ∀ b, Alters (.fill :: maskParts) s (recomputeMasks { s with lock.fill := b }) := fun b => by
    refine Alters.seq (ps := [.fill]) ?_ (recomputeMasks_alters _)
    intro p hp; cases p <;> simp_all [Part.same]
  unfold serveFill
  repeat' split
  all_goals first | exact .refl _ _ | exact h _

theorem serveEconomy_alters (n : Nat) (s : State) : Alters [.economy] s (serveEconomy n s).1 := by
  unfold serveEconomy
  repeat' split
  all_goals first | exact .refl _ _ | exact setEconomy_alters _ s

/-! ### Requests -/
theorem admitCash_alters (i : Nat) (s : State) : Alters spiralParts s (admitCash i s) := by
  unfold admitCash
  dsimp only
  refine Alters.trans (Alters.trans (t := { s with credit.credit := s.credit.credit - (s.tables.sel i).price, credit.vendHold := s.credit.vendHold + (s.tables.sel i).price, credit.inFlight := some .cash }) ?_
    (setSale_alters _).mono) (beginVend_alters _ _)
  intro p hp; cases p <;> simp_all [Part.same, spiralParts]

theorem admitExternal_alters (i a : Nat) (s : State) : Alters spiralParts s (admitExternal i a s) := by
  unfold admitExternal
  refine Alters.trans (Alters.trans (t := { s with credit.inFlight := some (.external a) }) ?_
    (setSale_alters _).mono) (beginVend_alters _ _)
  intro p hp; cases p <;> simp_all [Part.same, spiralParts]

theorem serveVend_alters (c f a : Nat) (s : State) : Alters spiralParts s (serveVend c f a s).1 := by
  unfold serveVend
  split
  · unfold serveCash
    repeat' split
    all_goals first | exact .refl _ _ | exact admitCash_alters _ s
  · unfold serveExternal
    repeat' split
    all_goals first | exact .refl _ _ | exact admitExternal_alters _ _ s
  · exact .refl _ _

theorem serveReturn_alters (s : State) : Alters moneyParts s (serveReturn s).1 := by
  unfold serveReturn
  repeat' split
  all_goals first | exact .refl _ _ | exact returnAll_alters s

theorem serveLoad_alters (t f c : Nat) (l : List Byte) (s : State) :
    Alters loadParts s (serveLoad t f c l s).1 := by
  unfold serveLoad
  split
  · exact .refl _ _
  · rename_i h
    exact loadSection_alters _ _ _ _ _ _ h

theorem serveRead_alters (t f c : Nat) (s : State) : (serveRead t f c s).1 = s := by
  unfold serveRead; split <;> rfl

theorem servePass_alters (a k t : Nat) (l : List Byte) (s : State) :
    Alters [.passQueue] s (servePass a k t l s).1 := by
  unfold servePass
  repeat' split
  all_goals first | exact .refl _ _ | exact placePass_alters _ _ _ _ s

theorem serveClearFaults_alters (a : Nat) (s : State) : Alters [.slots] s (serveClearFaults a s).1 :=
  by unfold serveClearFaults; split; exacts [.refl _ _, clearLatches_alters _ s]

theorem serveClearAudit_alters (s : State) : Alters [.audit, .sels] s (serveClearAudit s).1 := by
  unfold serveClearAudit
  split
  · intro p hp; cases p <;> simp_all [Part.same, doneWith, clearAudit]
  · exact .refl _ _

theorem serveSettle_alters (s : State) :
    Alters [.amounts, .audit, .shortWait, .sale] s (serveSettle s).1 := by
  unfold serveSettle
  split
  · dsimp only
    refine Alters.trans (t := { s with credit.returnDue := 0, audit.writtenOff := addTotal s.audit.writtenOff s.credit.returnDue, change.shortWait := false }) ?_ (setSale_alters _).mono
    intro p hp; cases p <;> simp_all [Part.same]
  · exact .refl _ _

theorem serveClearTube_alters (n : Nat) (s : State) : Alters coinParts s (serveClearTube n s).1 := by
  unfold serveClearTube; split; exacts [.refl _ _, clearFault_alters _ s]

theorem serveDrain_alters (n k : Nat) (s : State) : Alters [.sale, .payout, .grants] s (serveDrain n k s).1 := by
  unfold serveDrain
  repeat' split
  all_goals first | exact .refl _ _ | exact startPayout_alters _ s

theorem beginService_alters (h : Bool) (p : Nat) (s : State) :
    Alters [.serviceOp, .grants] s (beginService h p s) := (setService_alters _ s).seq (request_alters _ _)

theorem serveSpiral_alters (h : Bool) (p : Nat) (s : State) :
    Alters [.serviceOp, .grants] s (serveSpiral h p s).1 := by
  unfold serveSpiral
  repeat' split
  all_goals first | exact .refl _ _ | exact beginService_alters _ _ s

theorem serveDefrost_alters (s : State) :
    Alters [.compressor, .defrost, .grants, .events] s (serveDefrost s).1 := by
  unfold serveDefrost
  dsimp only
  split
  · exact defrostNow_alters s
  · exact .refl _ _

theorem serveRelease_alters (z : Nat) (s : State) : Alters [.zones, .events] s (serveRelease z s).1 := by
  unfold serveRelease
  repeat' split
  all_goals first | exact .refl _ _ | exact releaseHold_alters _ s

theorem setLink_alters (x : Link) (s : State) (h1 : x.up = s.link.up) (h2 : x.lostAt = s.link.lostAt) :
    Alters [.linkRate, .staging, .marks, .linkCounts] s { s with link := x } := by
  intro p hp; cases p <;> simp_all [Part.same]

theorem serveRestart_alters (s : State) : Alters [.staging] s (serveRestart s).1 := by
  unfold serveRestart
  split
  · intro p hp; cases p <;> simp_all [Part.same, doneWith]
  · exact .refl _ _

theorem setEvents_alters (x : Events) (s : State) : Alters [.events] s { s with events := x } := by
  intro p hp; cases p <;> simp_all [Part.same]

theorem serveFetch_alters (n : Nat) (s : State) : Alters [.events] s (serveFetch n s).1 := by
  unfold serveFetch
  split
  · exact setEvents_alters _ s
  · exact .refl _ _
  · exact .refl _ _


theorem serveOwner_alters (r : Request) (s : State) : Alters r.parts s (serveOwner r s).1 := by
  cases r with
  | unknown k => exact .refl _ _
  | badLength k => exact .refl _ _
  | status => exact .refl _ _
  | fetch n => exact serveFetch_alters n s
  | vend c f a => exact serveVend_alters c f a s
  | returnCredit => exact serveReturn_alters s
  | load t f c l => exact serveLoad_alters t f c l s
  | read t f c => exact fun q _ => by rw [show (serveOwner (.read t f c) s).1 = s from serveRead_alters t f c s]; exact Alters.refl [] s q (by simp)
  | pass a k t l => exact servePass_alters a k t l s
  | clearFaults a => exact serveClearFaults_alters a s
  | unlock c => exact serveUnlock_alters c s
  | lock => exact serveLock_alters s
  | setCode o n k => exact serveSetCode_alters o n k s
  | clearCode c => exact serveClearCode_alters c s
  | factoryClear => exact serveFactoryClear_alters s
  | tagFirst u v => exact serveTagFirst_alters u v s
  | tagLast u v => exact serveTagLast_alters u v s
  | untag c => exact serveUntag_alters c s
  | apply c p => exact serveApply_alters c p s
  | fillMode n => exact serveFill_alters n s
  | economyMode n => exact serveEconomy_alters n s
  | drain n k => exact serveDrain_alters n k s
  | clearAudit => exact serveClearAudit_alters s
  | settle => exact serveSettle_alters s
  | defrostNow => exact serveDefrost_alters s
  | clearTubeFault n => exact serveClearTube_alters n s
  | testSpiral p => exact serveSpiral_alters _ p s
  | homeSpiral p => exact serveSpiral_alters _ p s
  | releaseHold z => exact serveRelease_alters z s
  | restart => exact serveRestart_alters s


theorem serve_alters (r : Request) (s : State) : Alters (r.parts ++ [.tag, .marks]) s (serve r s).1 := by
  unfold serve
  dsimp only
  have h : Alters (r.parts ++ [.tag, .marks]) s (if r.keepsTag = true then s else resetTag s) :=
    .ite (.refl _ _) ((resetTag_alters s).mono (by simp))
  generalize (if r.keepsTag = true then s else resetTag s) = u at h ⊢
  split
  · exact h
  · exact h.trans ((serveOwner_alters r _).mono (fun a ha => List.mem_append_left _ ha))

theorem compose_alters (r : Request) (x : Served) : Alters [.staging, .marks] x.1 (compose r x) := by
  intro p hp; cases p <;> simp_all [Part.same, compose, clearMarks]

theorem takeRequest_alters (s : State) (r : Request) (h : s.link.waiting = some r) :
    Alters r.takes s (takeRequest s) := by
  unfold takeRequest
  rw [h]
  dsimp only
  refine Alters.ite ?_ (.refl _ _)
  have h0 : Alters r.takes s { s with link.waiting := none } := by
    intro p hp; cases p <;> simp_all [Part.same, Request.takes]
  refine Alters.trans (h0.trans ((serve_alters r _).mono ?_)) ?_
  · intro a ha; simp [Request.takes] at ha ⊢; tauto
  · exact Alters.trans (((setSale_alters _).seq (rs := [.sale, .payout, .grants]) (payoutTest_alters _)).trans
      (setSale_alters _).mono |>.mono (by simp [Request.takes])) ((compose_alters r _).mono (by simp [Request.takes]))

theorem restoreLink_alters (s : State) :
    Alters (.linkState :: .events :: maskParts) s (restoreLink s) := by
  unfold restoreLink
  refine Alters.ite (.refl _ _) ?_
  dsimp only
  refine Alters.seq (ps := [.linkState, .events]) (Alters.seq (ps := [.linkState])
    (t := { s with link.up := true }) ?_ (raise_alters _ _ _ _)) (recomputeMasks_alters _)
  intro p hp; cases p <;> simp_all [Part.same]

/-- With the link up and no request waiting, a frame changes only what its request takes and the receiver. -/
theorem frameValid_alters (r : Request) (s : State) (hu : s.link.up = true) (hw : s.link.waiting = none) :
    Alters (.linkRate :: r.takes) s (frameValid r s) := by
  unfold frameValid restoreLink
  simp only [hu, if_true]
  simp only [hw]
  refine Alters.trans ?_ ((takeRequest_alters _ r (by simp)).mono (by simp +contextual))
  intro p hp; cases p <;> simp_all [Part.same, Request.takes]

theorem loseLink_alters (s : State) :
    Alters (.linkRate :: .linkState :: .marks :: .lockState :: .tag :: maskParts) s (loseLink s) := by
  unfold loseLink
  refine Alters.ite ?_ (.refl _ _)
  refine Alters.seq (ps := .linkRate :: .linkState :: .marks :: maskParts)
    (Alters.seq (ps := [.linkRate, .linkState, .marks]) ?_ (recomputeMasks_alters _)) (endSession_alters _)
  intro p hp; cases p <;> simp_all [Part.same]

/-! ### The end of a step -/
theorem settle_alters (s : State) : Alters dueParts s (settle s) :=
  ((((setSale_alters s).seq (rs := [.sale, .payout, .grants]) (payoutTest_alters _)).seq (rs := [.sale, .payout, .grants])
    (setSale_alters _)).seq (rs := dueParts) (kickMatrix_alters _)).seq (lineChoose_alters _)

theorem finish_alters (s : State) (h : s.phase = .run) : Alters dueParts s (finish s) := by
  unfold finish; rw [h]; exact settle_alters s

theorem finish_saving (s : State) (w : Bool) (h : s.phase = .saving w) : finish s = s := by
  unfold finish; rw [h]

theorem finish_failWait (s : State) (h : s.phase = .failWait) : finish s = s := by
  unfold finish; rw [h]

theorem finish_lineReset (s : State) (c : Cause) (h : s.phase = .lineReset c) : finish s = s := by
  unfold finish; rw [h]

end Sys2Proof.Machine
end

