-- ==== Sys2Proof/Laws/Requests.lean ====
section
/-! SUPPORT. How a request is taken in one step: from what its owner does to the state, to the step's outcome,
its reply and its frame. -/

/- One lemma after another: side by side their waiting threads take all the memory there is. -/
set_option Elab.async false

namespace Sys2Proof.Machine

/-- A command that carries a request is a valid frame with it (log 5). -/
theorem exec_request {c : Instr} {r : Request} (h : requestOf c = some r) (s : State) :
    exec c s = .next (finish (frameValid r s)) := by
  cases c <;> cases h <;> rfl

/-- The state a request's owner is handed. -/
def received (r : Request) (s : State) : State :=
  let s1 := { s with link.assembling := false, link.detecting := false, link.waiting := none }
  if r.keepsTag then s1 else resetTag s1

theorem received_alters (r : Request) (s : State) :
    Alters [.linkRate, .staging, .tag, .marks] s (received r s) := by
  have h : Alters [.linkRate, .staging] s
      { s with link.assembling := false, link.detecting := false, link.waiting := none } := by
    intro p hp; cases p <;> simp_all [Part.same]
  exact .ite h.mono (h.seq (resetTag_alters _))

theorem received_keeps {r : Request} (h : r.keepsTag = true) (s : State) :
    received r s = { s with link.assembling := false, link.detecting := false, link.waiting := none } := by
  simp [received, h]

theorem received_tag {r : Request} (h : r.keepsTag = false) (s : State) :
    (received r s).lock.tag = .empty := by
  simp only [received, h, resetTag, Bool.false_eq_true, if_false]
  split
  · assumption
  · rfl

/-- What the link holds of a request that is refused at the gate, or served by its owner. -/
theorem takes_request (c : Instr) (r : Request) (s : State) (hr : requestOf c = some r) (hs : Ready s)
    (x : Served)
    (hx : (if r.gated && s.lock.state == .locked then refuse .locked (received r s)
      else serveOwner r (received r s)) = x) (hrun : x.1.phase = .run) :
    ∃ t, exec c s = .next t ∧ replyIs t (r.kind ||| 0x80) x.2.1 x.2.2 ∧
      Alters (.staging :: .marks :: dueParts) x.1 t := by
  refine ⟨_, exec_request hr s, ?_⟩
  have hl : (received r s).lock.state = s.lock.state := by
    have := received_alters r s .lockState (by simp); exact this
  have e1 : serve r { s with link.assembling := false, link.detecting := false, link.waiting := none } = x := by
    unfold serve
    dsimp only
    rw [← hx, ← hl]
    rfl
  have e2 : frameValid r s = compose r (setSale (payoutTest (setSale x.1)), x.2.1, x.2.2) := by
    have h1 : frameValid r s = takeRequest
        { s with link.assembling := false, link.detecting := false, link.waiting := some r } := by
      unfold frameValid restoreLink
      dsimp only
      rw [if_pos hs.up]
      simp only [hs.waiting]
    rw [h1]
    unfold takeRequest
    dsimp only
    rw [if_pos (by simp [State.running, hs.run, hs.answer]), e1]
  rw [e2]
  have h3 : Alters [.sale, .payout, .grants] x.1 (setSale (payoutTest (setSale x.1))) :=
    ((setSale_alters _).seq (rs := [.sale, .payout, .grants]) (payoutTest_alters _)).seq (setSale_alters _)
  have h4 := compose_alters r (setSale (payoutTest (setSale x.1)), x.2.1, x.2.2)
  have h5 : (compose r (setSale (payoutTest (setSale x.1)), x.2.1, x.2.2)).phase = .run := by
    have a := h3 .phase (by simp); have b := h4 .phase (by simp)
    simp only [Part.same] at a b
    rw [b, a, hrun]
  have h6 := finish_alters _ h5
  refine ⟨⟨conditionSet (setSale (payoutTest (setSale x.1))), ?_⟩,
    (h3.seq (rs := .staging :: .marks :: dueParts) h4).seq h6⟩
  have h7 := h6 .staging (by decide)
  simp only [Part.same] at h7
  rw [h7.2.1]
  rfl

/-- A request that its owner serves, changing no part but `parts`. -/
theorem replies_of_owner {c : Instr} {r : Request} {s : State} (hr : requestOf c = some r) (hs : Ready s)
    (hg : r.gated = true → s.lock.state ≠ .locked) {x : Served} (hx : serveOwner r (received r s) = x)
    {parts : List Part} (hp : Alters parts (received r s) x.1) (ht : r.keepsTag = true ∨ .tag ∈ parts)
    (hrun : .phase ∉ parts) {good : State → Prop}
    (hgood : ∀ t, Alters (.staging :: .marks :: dueParts) x.1 t → good t) :
    Replies c s (r.kind ||| 0x80) x.2.1 x.2.2 parts good := by
  have h0 := received_alters r s
  have hph : x.1.phase = .run := by
    have a := hp .phase hrun; have b := h0 .phase (by decide)
    simp only [Part.same] at a b
    rw [a, b, hs.run]
  obtain ⟨t, h1, h2, h3⟩ := takes_request c r s hr hs x (by
    rw [← hx]
    split
    · rename_i h; simp at h; exact absurd h.2 (hg h.1)
    · rfl) hph
  refine ⟨t, h1, h2, ?_, hgood t h3⟩
  have h0' : Alters (parts ++ (replyParts ++ dueParts)) s (received r s) := by
    rcases ht with ht | ht
    · rw [received_keeps ht]
      intro p hp; cases p <;> simp_all [Part.same, replyParts]
    · exact h0.mono (by intro a ha; simp only [List.mem_cons, List.not_mem_nil, or_false] at ha
                        rcases ha with rfl | rfl | rfl | rfl <;> simp_all [replyParts])
  exact (h0'.trans (hp.mono (by simp +contextual))).trans (h3.mono (by
    intro a ha; simp only [List.mem_append, replyParts]; simp only [List.mem_cons] at ha
    rcases ha with rfl | rfl | h
    · simp
    · simp
    · exact .inr (.inr h)))

end Sys2Proof.Machine
end

