-- ==== Sys2Proof/Tests/Slice0.lean ====
section
/-! SUPPORT. Tests of the model on small states, the spec's worked figures among them, and for every
statement with hypotheses a state that meets them, at the ends of their ranges. -/

/- One test after another: side by side their waiting threads take all the memory there is. -/
set_option Elab.async false

namespace Sys2Proof.Tests

open Sys2Proof Sys2Proof.Machine

/-! ### Well-formedness and decoding -/

/-- One command that each check refuses. -/
theorem test_wf_refuses_ill_formed :
    ([.linkFrameComplete [], .unknownRequest 0x05 [], .unknownRequest 0x100 [], .unknownRequest 2 [1],
      .vend 256, .vendExternal 11 65536, .vendExternal 256 0, .loadTableSection 256 0 1 [],
      .loadTableSection 0 256 1 [], .loadTableSection 0 0 256 [], .loadTableSection 0 0 1 (List.replicate 190 0),
      .readTableSection 256 0 1, .readTableSection 0 256 1, .readTableSection 0 0 256,
      .pass 256 0 0 [], .pass 1 256 0 [], .pass 1 0x20 256 [], .pass 1 0x20 1 (List.replicate 189 0),
      .clearFaults 256, .unlock ⟨4, []⟩, .unlock ⟨256, List.replicate 8 0⟩, .unlock ⟨4, List.replicate 8 256⟩,
      .setCode ⟨0, []⟩ ⟨4, List.replicate 8 0⟩ true, .setCode ⟨4, List.replicate 8 0⟩ ⟨0, []⟩ true,
      .clearCode ⟨0, []⟩, .tagFirst 256 0, .tagLast 0 256, .untag 256, .applySetPrice 65536, .drain 256 1,
      .drain 0 256, .clearTubeFault 256, .testSpiral 256, .homeSpiral 256, .releaseHold 256,
      .lineFrameComplete [], .levelSensorChange 0 true [], .homeProbe [], .homeSwitchLeave [],
      .homeSwitchClose [] 0, .jam [], .drop [], .beamInterruptionEnd [], .supplySag [401],
      .supplyNormal [401], .supplyFail [401], .powerRestored [401], .serviceDoor []] : List Instr).all
      (fun i => !i.wf) = true := by decide +kernel

/-- The table gives its rows no bits: no word spells a command. -/
theorem test_no_word_spells_a_command : decodeTableWord 16 0x1234 = none := rfl

/-! ### The spec's worked figures -/

/-- The check of the digits 1 to 9 (R133). -/
theorem test_crc_of_nine_digits :
    crc16 [0x31, 0x32, 0x33, 0x34, 0x35, 0x36, 0x37, 0x38, 0x39] = 0x29B1#16 := by decide +kernel

/-- The conversions worked in section 5.1 (R93). -/
theorem test_conversion_worked : [1650, 4079, 16].map (convert defaultTables) = [123, -400, 785] := by decide

/-- The filter worked in section 5.2 (R94). -/
theorem test_filter_worked :
    [120, 120, 120, 30].foldl (fun f t => filtered (some f) t) (filtered none 40) = 61 := by decide

/-- The tubes of the worked cases of section 2.6. -/
def workedTubes : List PlanTube :=
  [⟨0, 10, 0⟩, ⟨1, 20, 5⟩, ⟨2, 50, 2⟩, ⟨3, 50, 1⟩, ⟨4, 100, 0⟩, ⟨5, 200, 4⟩].foldr insertTube []

theorem test_plan_order_worked : workedTubes.map (·.tube) = [5, 4, 2, 3, 1, 0] := by decide

/-- The plans worked in section 2.6: 160 after one trial, 30 short by 10 (R40 to R42). -/
theorem test_plans_worked :
    planOver workedTubes 160 = { takes := [(5, 0), (4, 0), (2, 1), (3, 1), (1, 3), (0, 0)], residual := 0 } ∧
    planOver workedTubes 30 = { takes := [(5, 0), (4, 0), (2, 0), (3, 0), (1, 1), (0, 0)], residual := 10 } := by
  decide

/-- The first amount found short in section 2.7 (R43). -/
theorem test_exact_worked : firstShort workedTubes 10 100 1 = some 10 := by decide

/-! ### Small states -/

/-- The state a command leads to. -/
def ran (c : Instr) (s : State) : State :=
  match exec c s with
  | .next t => t
  | _ => s

/-- Normal operation, nothing in hand, no service code, the door taken as OPEN. -/
def running : State := { State.reset with phase := .run }

def shut : Debounce := { accepted := some false, runValue := false, runLen := 5 }
def ajar : Debounce := { accepted := some true, runValue := true, runLen := 5 }

/-- Normal operation with the door CLOSED. -/
def closed : State := { running with lock := { running.lock with door := shut } }

/-- A locked part, and one in a session. -/
def locked : State :=
  { running with lock := { running.lock with code := some [1, 2, 3, 4], state := .locked } }
def session : State := { locked with lock := { locked.lock with state := .unlocked } }

theorem ready_running : Ready running := ⟨rfl, rfl, rfl, rfl⟩
theorem ready_closed : Ready closed := ⟨rfl, rfl, rfl, rfl⟩
theorem ready_locked : Ready locked := ⟨rfl, rfl, rfl, rfl⟩
theorem ready_session : Ready session := ⟨rfl, rfl, rfl, rfl⟩
theorem unlocked_running : unlocked running := by unfold unlocked; decide
theorem unlocked_closed : unlocked closed := by unfold unlocked; decide

/-- Selection 0 (code 11) for 350 from spirals 0 and 1, perishable, of zone 0. -/
def selection : SelLoaded :=
  { price := 350, zone := 0, perishable := true, firstMode := false, spirals := [0, 1] }

/-- The tables of section 1.10: ceiling 500. -/
def saleTables : Tables :=
  { defaultTables with
    money := { defaultMoney with ceiling := 500, exactRequired := false },
    sels := selection :: defaultSels.tail }

/-- The part of section 1.10 before its step 6: credit 500, spirals 0 and 1 READY. -/
def shop : State :=
  { closed with
    tables := saleTables,
    credit := { CreditUnit.initial with credit := 500, sale := .opened },
    audit := { Audit.zero with cashIn := 600, changePaid := 100 },
    sels := { SelKept.default with state := .enabled } :: List.replicate 63 SelKept.default,
    spirals := List.replicate 64 { SpiralRec.initial with state := .ready, homeClosed := true } }

/-- Step 6 of section 1.10: the price moves to `vend_hold`. -/
theorem test_vend_worked :
    (ran (.vend 11) shop).credit.credit = 150 ∧ (ran (.vend 11) shop).credit.vendHold = 350 ∧
    (ran (.vend 11) shop).credit.sale = .vend := by decide

/-- The vend of section 1.10, its motor energised on spiral 0. -/
def turning : Rev := { newRev 0 with stage := .turning, leaveDone := true, switch := shut, window := true,
                                     armed := true }
def op : VendOp := { sel := 0, spiral := 0, position := 0, revolutions := 1, drop := false, tried := false,
                     params := defaultDrive, told := true }
def vending : State :=
  { shop with
    credit := { shop.credit with credit := 150, vendHold := 350, sale := .vend, inFlight := some .cash },
    drive := { Drive.initial with vend := some op, rev := some turning, column := some 0, row := some 0 },
    supply := { shop.supply with state := .normal, granted := { LoadSet.none with motor := true } } }
/-- The same after the motor has stopped. -/
def inTail : State :=
  { vending with drive := { vending.drive with rev := some { turning with stage := .tail }, row := none } }

/-- Step 7 of section 1.10: a drop in the tail sells, and the rest of the credit is paid back. -/
theorem test_drop_sells_worked :
    let t := ran (.drop [true, true, true]) inTail
    t.credit.credit = 0 ∧ t.credit.returnDue = 150 ∧ t.audit.cashSales = 350 ∧ t.credit.sale = .payout := by
  decide

/-! ### Witnesses: the queue and the laws -/

theorem witness_StepTakesTheFrontCommand :
    ({ running with pending := [.status, .lock] } : State).pending = .status :: [.lock] ∧
    running.pending = [] := ⟨rfl, rfl⟩

theorem witness_EndOfStepTakesOnlyWhatIsDue : vending.phase = .run ∧ (finish vending).phase = .run :=
  ⟨rfl, by decide⟩

/-- A full Event Queue, and a command that raises one event more. -/
def fullEvents : State :=
  { closed with
    pending := [.serviceDoor [true, true, true, true, true]],
    events := { queue := List.replicate 32 (eventAt 0 .start none (val 0)), dropped := 255,
                lastBatch := [], lastDropped := 0 } }
def fullQueues : State :=
  { running with
    pending := [.pass 1 0x20 1 []],
    line := { Line.initial with
      queue := [⟨2, .escrow .stack 0 true, false, false⟩, ⟨2, .escrow .stack 1 true, false, false⟩,
                ⟨1, .masks (.coin 0 0), false, false⟩, ⟨2, .masks (.note 0), false, false⟩],
      pass := List.replicate 4 ⟨1, 0x20, 1, [], false, false⟩ } }
theorem witness_QueuesStayBoundedAndOrdered :
    (EventLaw fullEvents ∧ ∃ t, step fullEvents = .next t) ∧ QueueLaw fullQueues ∧ ∃ t, step fullQueues = .next t :=
  ⟨⟨by unfold EventLaw; decide, _, rfl⟩, by unfold QueueLaw; decide, _, rfl⟩

def lockedOut : State :=
  { locked with
    pending := [.unlock ⟨4, [1, 2, 3, 4, 0, 0, 0, 0]⟩],
    lock := { locked.lock with failures := 3, lockout := true } }
theorem witness_LockStaysConsistent : LockLaw lockedOut ∧ ∃ t, step lockedOut = .next t :=
  ⟨⟨by decide, by decide, by decide, fun _ _ _ _ h => nomatch h⟩, _, rfl⟩

theorem witness_OneCrossingConducts :
    MatrixLaw { vending with pending := [.revolutionLimit] } ∧ TurnLaw { vending with pending := [.revolutionLimit] } ∧
    ∃ t, step { vending with pending := [.revolutionLimit] } = .next t :=
  ⟨⟨fun p h => h, by decide⟩, fun _ h _ => ⟨op, rfl, rfl, by injection h with h; subst h; rfl⟩, _, rfl⟩

/-- Sensors at the two ends of the temperature range, the first faulted. -/
def extremes : State :=
  { running with
    cold := { Cold.initial with sensors :=
      [{ TempSensor.initial with temp := some 800, faulted := true, goodRun := 9, sampled := true },
       { TempSensor.initial with temp := some (-400), sampled := true },
       { TempSensor.initial with sampled := true }] } }
theorem temperature_law_extremes :
    TemperatureLaw { extremes with pending := [.temperatureSample 1 16] } ∧
    ∃ t, step { extremes with pending := [.temperatureSample 1 16] } = .next t := by
  refine ⟨?_, _, rfl⟩
  intro x hx f hf
  simp only [extremes, List.mem_cons, List.not_mem_nil, or_false] at hx
  rcases hx with rfl | rfl | rfl <;> simp [TempSensor.initial] at hf <;> omega

/-- Tube 0 filled to its capacity, tube 1 empty. -/
def fullTube : State :=
  { running with
    change := { ChangeUnit.initial with
      tubes := { TubeState.initial with count := (defaultTables.tube 0).capacity } ::
                 List.replicate 5 TubeState.initial } }
theorem witness_TemperaturesAndTubeCountsStayInRange :
    (TemperatureLaw { extremes with pending := [.temperatureSample 1 16] } ∧
      ∃ t, step { extremes with pending := [.temperatureSample 1 16] } = .next t) ∧
    TubeLaw { fullTube with pending := [.levelSensorChange 0 true [false, false, false]] } ∧
    ∃ t, step { fullTube with pending := [.levelSensorChange 0 true [false, false, false]] } = .next t :=
  ⟨temperature_law_extremes,
   ⟨by unfold TubesOk; decide, fun _ h => absurd h List.not_mem_nil, by decide, by decide +kernel⟩, _, rfl⟩

/-- Selection 0 lists spirals 0 and 1, and every other spiral from 2 on stands in the list of its own selection. -/
def listed : State :=
  { closed with
    tables := { saleTables with sels := selection :: { selection with spirals := [] } :: defaultSels.drop 2 },
    sels := List.replicate 64 { SelKept.default with state := .enabled, next := 1 } }
theorem lists_ok_listed : ListsOk listed.tables := by unfold ListsOk; decide +kernel
/-- A record that gives selection 1 spirals 0 and 5, which two other lists hold. -/
def moveSpirals : Instr := .loadTableSection 4 1 1 [1, 0, 0, 0, 0, 2, 0, 5, 0, 0]
theorem witness_SpiralListsStayDisjoint :
    ListLaw { listed with pending := [moveSpirals] } ∧ ∃ t, step { listed with pending := [moveSpirals] } = .next t :=
  ⟨⟨lists_ok_listed, fun _ h => absurd h List.not_mem_nil⟩, _, rfl⟩

/-- The vend of section 1.10 stands at the ceiling, and its balance holds. -/
theorem credit_law_vending : CreditLaw vending :=
  ⟨by decide, by decide, by decide, by decide, by decide, by decide, by decide⟩
theorem witness_HeldMoneyStaysWithinCeiling :
    CreditLaw { vending with pending := [.coinAtExitSensor] } ∧
    ∃ t, step { vending with pending := [.coinAtExitSensor] } = .next t :=
  ⟨⟨by decide, by decide, by decide, by decide, by decide, by decide, by decide⟩, _, rfl⟩
theorem witness_AuditBalanceIsKept :
    CreditLaw { inTail with pending := [.drop [true, true, true]] } ∧
    BalanceLaw { inTail with pending := [.drop [true, true, true]] } ∧
    ∃ t, step { inTail with pending := [.drop [true, true, true]] } = .next t :=
  ⟨⟨by decide, by decide, by decide, by decide, by decide, by decide, by decide⟩,
   ⟨by unfold balanced; right; decide, fun _ h => nomatch h⟩, _, rfl⟩

/-- A compressor starting beside a payout, the whole budget granted. -/
def starting : State :=
  { running with
    pending := [.surgeWindowEnd],
    change := { ChangeUnit.initial with payout := some (newPayout (.drain 0 1)) },
    credit := { CreditUnit.initial with sale := .payout },
    cold := { Cold.initial with state := .starting, surgeTimer := some 2000, relay := true,
                                runTimer := .running 120000 },
    supply := { State.reset.supply with
      state := .normal, granted := { LoadSet.none with payout := true, compStart := true } } }
theorem credit_law_starting : CreditLaw starting :=
  ⟨by decide, by decide, by decide, by decide, by decide, by decide, by decide⟩
theorem budget_law_starting : BudgetLaw starting where
  table := by decide
  budget := by decide
  disjoint := by intro x; cases x <;> decide
  runNotAsked := by decide
  payoutOwner := by decide
  motorOwner := by decide
  startAsked := by decide
  startHeld := by decide
  starting := by decide
  runHeld := by decide
  probing := fun _ h => h.elim nofun nofun
  stopped := by decide
theorem witness_LoadBudgetIsKept :
    CreditLaw starting ∧ BudgetLaw starting ∧ starting.grantedSum = 36 ∧ ∃ t, step starting = .next t :=
  ⟨credit_law_starting, budget_law_starting, by decide, _, rfl⟩

/-- A retained image as it is written, and a store with copies on both sides of the generation's wrap. -/
def image : Retained := retainedOf shop
def wrapped : Store :=
  { Store.blank with
    retainedA := some (copyOf 0xFFFFFFFF image),
    retainedB := some (copyOf 0 image),
    retainedWriting := some { first := true, copy := copyOf 1 image } }
def savingWrapped : State :=
  { State.reset with pending := [.retainedImageWriteDone], phase := .saving true, store := wrapped }
theorem store_law_wrapped : StoreLaw savingWrapped := by
  refine ⟨⟨(fun _ h => h.elim nofun nofun), nofun, nofun, nofun⟩, ?_, ?_, ?_, ?_⟩
  · intro x hx
    rcases hx with hx | hx <;> (injection hx with hx; subst hx; rfl)
  · intro v hv
    injection hv with hv; subst hv; rfl
  · intro x y hx hy
    injection hx with hx; injection hy with hy; subst hx; subst hy; right; decide
  · intro v hv x hx
    injection hv with hv; subst hv; injection hx with hx; subst hx; decide
/-- Of the two copies the one whose generation has wrapped to 0 is the newer (R123). -/
theorem latest_wrapped : latest savingWrapped.store.retainedA savingWrapped.store.retainedB = some image := by
  simp [savingWrapped, wrapped, latest, newerFirst]
/-- A copy whose check value does not match its contents is not used, and the next write goes to it (R123). -/
theorem test_mismatched_copy_is_invalid (x : StoreCopy Tables) (h : ¬checked x) :
    latest (some x) (some (copyOf 5 defaultTables)) = some defaultTables ∧
    (nextWrite (some x) (some (copyOf 5 defaultTables)) saleTables).first = true ∧
    latest (some x) none = none := by
  simp [latest, newerFirst, nextWrite, validCopy_of_not_checked h]
theorem witness_StoreGenerationsStayAdjacent :
    StoreLaw savingWrapped ∧ ∃ t, step savingWrapped = .next t := ⟨store_law_wrapped, _, rfl⟩

/-! ### Witnesses: frames, the link and requests -/

/-- A character whose stop bit reads low. -/
def lowStop : RxChar := ⟨0x1FE, 0x1FE, 0x1FE⟩
theorem witness_FramesAreReadAsSent :
    (1 ≤ 1 ∧ 255 < 256 ∧ (List.replicate 32 (0 : Byte)).length ≤ 32) ∧
    ({ running with link := { running.link with assembling := true } } : State).link.assembling = true ∧
    running.link.noisy ≤ 65535 ∧ (List.replicate 192 (0 : Byte)).length ≤ 192 ∧
    [0, 0] ≠ crcChars [(0x07 : Byte), 0] ∧ isGlitch lowStop = false ∧ stopLow lowStop = true ∧
    (∀ kind l p, ([1, 2, 0, 0, 0, 0, 0] : List Byte) = kind :: l :: p → l.toNat ≤ 96 ∧ p.length < 2 * l.toNat + 2) := by
  refine ⟨by decide +kernel, rfl, by decide, by decide +kernel, by decide +kernel, by decide, by decide, ?_⟩
  intro kind l p h
  injection h with _ h; injection h with hl hp; subst hl; subst hp; decide
/-- The character stops the frame: it is counted as a framing error, once (R160; log 10). -/
theorem test_stop_bit_low_is_counted :
    let s : State := { running with link := { running.link with assembling := true } }
    (ran (.linkFrameComplete (clean [7] ++ lowStop :: clean [0, 1, 2])) s).link.framing = 1 := by decide +kernel

/-- A link receiver with no rate held that has seen a break. -/
def detecting : State := { running with link := { running.link with detecting := true } }
theorem witness_LinkReceptionMeasuresDiscardsAndCounts :
    detecting.link.detecting = true ∧ detecting.link.rate = none ∧ detecting.link.assembling = false ∧
    ({ running with link := { running.link with assembling := true } } : State).link.assembling = true ∧
    (∀ low ∈ [825, 911], 95 * 868 ≤ 100 * low ∧ 100 * low ≤ 105 * 868) ∧
    (∀ bitTime ∈ [10417, 5208, 2604, 1736, 868], ¬(95 * bitTime ≤ 100 * 824 ∧ 100 * 824 ≤ 105 * bitTime)) ∧
    running.link.detecting = false := by decide

def linkLost : State := { session with link := { session.link with up := false } }
theorem witness_LinkIsLostAndRestored :
    (session.phase = .run ∧ session.link.up = true ∧ session.lock.state = .unlocked) ∧
    (running.lock.state ≠ .unlocked) ∧ requestOf .status = some .status ∧ linkLost.link.up = false := by decide

def answering : State :=
  { running with
    link := { running.link with
      answer := some (makeReply 0x81 .done 0 []) } }
theorem witness_RequestsWaitForTheReplyOrAreLost :
    requestOf .status = some .status ∧ answering.link.up = true ∧ answering.link.answer.isSome = true ∧
    answering.link.waiting = none ∧ answering.link.restarting = false ∧ answering.link.assembling = false ∧
    answering.link.detecting = false ∧ running.link.answer = none ∧
    ({ answering with link := { answering.link with waiting := some .status } } : State).link.waiting.isSome := by
  decide

theorem witness_EveryRequestIsAnsweredInItsStep : requestOf .settle = some .settle ∧ Ready running :=
  ⟨rfl, ready_running⟩

def tagging : State :=
  { running with lock := { running.lock with tag := .rangeSet .selection 11 18 [12] } }
theorem witness_GateRefusesWhenLockedAndResetsTheTagSequence :
    requestOf .settle = some .settle ∧ Request.settle.gated = true ∧ Ready locked ∧ locked.lock.state = .locked ∧
    Request.settle.keepsTag = false ∧ Ready tagging ∧ tagging.lock.tag ≠ .empty :=
  ⟨rfl, rfl, ready_locked, rfl, rfl, ⟨rfl, rfl, rfl, rfl⟩, by decide⟩

theorem witness_UnknownAndMisfitRequestsAreRefused :
    (isRequestKind 0x39 = false ∧ isRequestKind 0x02 = false) ∧ Ready running ∧
    readRequest 0x05 [1, 2] = .badLength 0x05 ∧ ([1, 2] : List Byte).length % 2 = 0 :=
  ⟨by decide, ready_running, by decide, rfl⟩

theorem witness_StatusAndReadShowTheState :
    Ready running ∧ (56 + 8 ≤ recordCount 4) ∧ (14 ≤ 14 ∧ 1 ≤ 1 ∧ 0 + 1 ≤ recordCount 14) ∧
    recordCount 4 < 57 + 8 := ⟨ready_running, by decide⟩
/-- The reply's frame has 150 characters (R188). -/
theorem test_status_frame_length :
    (ran .status running).link.answer.map (·.frame.length) = some 150 := by decide +kernel

theorem witness_FetchTakesEventsInOrderAndAgainRepeats : Ready fullEvents := ⟨rfl, rfl, rfl, rfl⟩

/-! ### Witnesses: the sale -/

theorem ready_shop : Ready shop := ⟨rfl, rfl, rfl, rfl⟩
theorem witness_VendThatPassesIsAdmitted :
    Ready shop ∧ shop.credit.sale ≠ .vend ∧ shop.credit.sale ≠ .payout ∧ validCode 11 = true ∧
    shop.doorOpen = false ∧ available shop (codeIndex 11) = .passes ∧
    (shop.tables.sel (codeIndex 11)).price ≤ shop.credit.credit ∧
    shop.tables.money.exactRequired = false := ⟨ready_shop, by decide⟩

/-- The shop with selection 0 and spirals 0 and 1 in given states. -/
def shopWith (x : SelState) (p : SpiralState) : State :=
  { shop with
    sels := { SelKept.default with state := x } :: shop.sels.tail,
    spirals := List.replicate 64 { SpiralRec.initial with state := p } }
def heldShop : State :=
  { shop with cold := { Cold.initial with zones := List.replicate 2 { ZoneState.initial with latched := true } } }
theorem witness_VendIsRefusedByItsFirstFailingCheck :
    (Ready vending ∧ vending.credit.sale = .vend) ∧ validCode 9 = false ∧ running.doorOpen = true ∧
    ((shopWith .inhibited .ready).sel 0).state = .inhibited ∧
    ((shopWith .soldOut .ready).sel 0).state = .soldOut ∧
    (({ shop with tables := { saleTables with sels := [] } } : State).tables.sel 0).spirals = [] ∧
    selHeld heldShop 0 = true ∧
    (∀ p ∈ ((shopWith .enabled .empty).tables.sel 0).spirals, spiralReady (shopWith .enabled .empty) p = false) ∧
    (∃ p ∈ (shop.tables.sel 0).spirals, spiralReady shop p = true) ∧
    (({ shop with credit := { shop.credit with credit := 349 } } : State).credit.credit <
      (shop.tables.sel 0).price) ∧
    (changePlan shop (500 - 350)).exact = false :=
  ⟨⟨⟨rfl, rfl, rfl, rfl⟩, rfl⟩, by decide +kernel⟩

/-- Money owed up to the limit, and more held. -/
def owing : State :=
  { running with credit := { CreditUnit.initial with credit := 36, returnDue := 65500, sale := .opened } }
theorem witness_ReturnCreditPaysEverythingBack :
    (Ready running ∧ running.credit.sale = .idle) ∧ (Ready vending ∧ vending.credit.sale = .vend) ∧
    (Ready owing ∧ owing.credit.sale = .opened ∧ owing.credit.credit ≠ 0 ∧ owing.credit.returnDue ≤ 65535 ∧
      owing.credit.inFlight = none ∧ owing.credit.returnDue + owing.credit.credit - 65535 = 1) :=
  ⟨⟨ready_running, rfl⟩, ⟨⟨rfl, rfl, rfl, rfl⟩, rfl⟩, ⟨rfl, rfl, rfl, rfl⟩, by decide⟩
theorem test_return_credit_writes_off :
    (ran .returnCredit owing).credit.returnDue = 65535 ∧ (ran .returnCredit owing).audit.writtenOff = 1 := by
  decide

/-! ### Witnesses: tables, Pass, the lock -/

theorem witness_TableSectionIsAppliedWholeOrNotAtAll :
    (Ready running ∧ unlocked running ∧ sectionFits 13 0 1 [59] = true ∧ sectionFits 13 1 1 [59] = false ∧
      tableBusy 13 running = false ∧ running.store.tableWriting = none) ∧
    (Ready vending ∧ unlocked vending ∧ sectionFits 0 0 1 (List.replicate 10 0) = true ∧
      tableBusy 0 vending = true) ∧
    ((∀ r ∈ sectionRecords 0 1 (List.replicate 10 0), codesListed 0 r = true) ∧
      (∀ r ∈ sectionRecords 13 1 [59], codesListed 13 r = true) ∧
      sectionFits 0 0 1 [0, 0, 2, 0, 0, 0, 0, 0, 0, 0] = true ∧
      ∃ r ∈ sectionRecords 0 1 [0, 0, 2, 0, 0, 0, 0, 0, 0, 0], codesListed 0 r = false) ∧
    (∃ u, loadAll (recordStep 13) 0 (splitRecords (recordSize 13) 1 [60]) 0 0 running.asServed = .ok (u, 1, 0)) ∧
    loadAll (recordStep 11) 0 (splitRecords (recordSize 11) 2 [1, 1]) 0 0 running.asServed =
      .error .badArgument :=
  ⟨⟨ready_running, unlocked_running, by decide⟩,
   ⟨⟨rfl, rfl, rfl, rfl⟩, by unfold unlocked; decide, by decide⟩, by decide, ⟨_, rfl⟩, rfl⟩
/-- A policy code of 2 is refused for the code while a vend is in flight, a listed one for the sale state (R186, R3). -/
theorem test_bad_code_comes_before_busy :
    (ran (.loadTableSection 0 0 1 [0, 0, 2, 0, 0, 0, 0, 0, 0, 0]) vending).link.answer.map (·.outcome) =
      some .badArgument ∧
    (ran (.loadTableSection 0 0 1 (List.replicate 10 0)) vending).link.answer.map (·.outcome) = some .busy := by
  decide +kernel
/-- A payout, for the loads it shuts out. -/
def refunding : State := { running with credit := { running.credit with sale := .payout } }
/-- A note in escrow, for the load it shuts out. -/
def holdingNote : State :=
  { running with credit := { running.credit with escrow := some { noteType := 0, decision := .giveBack, time := 0 } } }
theorem witness_LoadedFieldsAreClamped :
    Ready running ∧ unlocked running ∧ (∀ table ∈ [1, 2, 3, 10], tableBusy table running = false) ∧
    running.credit.sale = .idle ∧ running.tables.money.granularity = 10 ∧
    running.tables.tubes.length = 6 ∧ (∃ m < 6, m ≠ 0 ∧ (running.tables.tube m).coinType = 5) ∧
    (¬∃ m < 6, m ≠ 0 ∧ (running.tables.tube m).coinType = 15) ∧ (running.tables.tube 5).coinType = 5 ∧
    (Ready refunding ∧ unlocked refunding ∧ refunding.credit.sale = .payout) ∧
    (Ready vending ∧ unlocked vending ∧ vending.credit.sale ≠ .idle) ∧
    Ready holdingNote ∧ unlocked holdingNote ∧ holdingNote.credit.escrow.isSome = true :=
  ⟨ready_running, unlocked_running, by decide, by decide, by decide, by decide, by decide, by decide, by decide,
   ⟨⟨rfl, rfl, rfl, rfl⟩, by unfold unlocked; decide, by decide⟩,
   ⟨⟨rfl, rfl, rfl, rfl⟩, by unfold unlocked; decide, by decide⟩,
   ⟨rfl, rfl, rfl, rfl⟩, by unfold unlocked; decide, by decide⟩
/-- Selection 3 takes spiral 0 while a Test Spiral of spiral 9 is in flight. -/
def testing : State :=
  { listed with
    spirals := List.replicate 64 { SpiralRec.initial with state := .ready },
    drive := { Drive.initial with
      service := some { home := false, spiral := 9, params := defaultDrive, told := false } } }
theorem witness_SelectionSlotAndLineLoadsTakeEffect :
    (Ready testing ∧ unlocked testing ∧ ListsOk testing.tables ∧ testing.spirals.length = 64 ∧
      testing.sels.length = 64 ∧ testing.drive.vend = none ∧ 9 ∈ (testing.tables.sel 9).spirals ∧
      9 ∉ (testing.tables.sel 3).spirals ∧ ([0, 9] : List Nat).Nodup) ∧
    (Ready running ∧ unlocked running ∧ running.tables.slotKinds.length = 8 ∧ running.line.slots.length = 8 ∧
      running.line.queue.length ≤ 4 ∧ running.tables.slotKind 1 = .coinValidator ∧
      running.tables.slotKind 2 = .noteReader ∧ running.tables.slotKind 8 = .unused ∧
      ∀ b, 1 ≤ b → b ≤ 8 → running.tables.slotKind b = .noteReader → b = 2) :=
  ⟨⟨⟨rfl, rfl, rfl, rfl⟩, by unfold unlocked; decide, lists_ok_listed, by decide⟩,
   ready_running, unlocked_running, by decide, by decide, by decide, by decide, by decide, by decide,
   fun b h1 h2 => (by decide : ∀ b ≤ 8, 1 ≤ b → running.tables.slotKind b = .noteReader → b = 2) b h2 h1⟩
/-- Spirals 0 and 5 are moved, the lists they leave close up, and both are to be probed (R57, R63). -/
theorem test_spirals_are_moved :
    let t := ran moveSpirals { listed with spirals := testing.spirals }
    t.link.answer.map (·.payload) = some [0, 2] ∧ (t.tables.sel 1).spirals = [0, 5] ∧
    (t.tables.sel 0).spirals = [1] ∧ (t.sel 0).next = 0 ∧ (t.tables.sel 5).spirals = [] ∧
    (t.spiral 5).probePending = true := by decide +kernel
/-- A tube record with a capacity of 0, both marks above it and a new coin type has three clamps (R29); a rating of 200
under a budget of 50 is clamped twice (R116). -/
theorem test_clamps_are_counted :
    (let t := ran (.loadTableSection 2 0 1 [6, 1, 0, 3, 2]) running
     t.link.answer.map (·.payload) = some [3, 0] ∧ (t.tables.tube 0).capacity = 1 ∧
      (t.tables.coin 0).tube = none) ∧
    (ran (.loadTableSection 10 0 1 [50, 200, 30, 30, 30, 30]) running).link.answer.map (·.payload) =
      some [2, 0] := by decide +kernel

/-- Slot 1 PRESENT with one miss, a command for it in flight, `rest` behind the command. -/
def commanding (x : TransStage) (b : CmdBody) (mark : Bool) (rest : List Cmd) : State :=
  { running with
    tables := { defaultTables with slotKinds := [.coinValidator, .noteReader] ++ List.replicate 6 .unused },
    credit := { CreditUnit.initial with escrow := some { noteType := 7, decision := .stack, time := 0 } },
    line := { Line.initial with
      trans := some { slot := if b = .masks (.coin 1 2) then 1 else 2, body := .cmd b, stage := x, stale := false,
                      frame := [] },
      queue := { slot := if b = .masks (.coin 1 2) then 1 else 2, body := b, mark := mark, inFlight := true } :: rest,
      slots := List.replicate 8 { Slot.initial with state := .present, missed := 1 },
      driver := x == .sending, assembling := x == .reply } }
/-- A MASKS for slot 1 that waits. -/
def waitingMasks : Cmd := { slot := 1, body := .masks (.coin 0 0), mark := false, inFlight := false }
/-- The validator's slot made UNUSED: no coin is accepted and the slot is ABSENT (R141). -/
theorem test_slot_made_unused :
    let t := ran (.loadTableSection 11 0 1 [0]) (commanding .window (.masks (.coin 1 2)) false [waitingMasks])
    t.tables.slotKind 1 = .unused ∧ (t.slot 1).state = .absent ∧
    t.line.queue.map (fun e => (e.slot, e.inFlight)) = [(1, true), (2, false)] ∧ t.line.dropped = 1 := by
  decide +kernel
theorem witness_PassesQueueLatchesClearAndCommandsReturn :
    (Ready running ∧ running.tables.slotKind 1 ≠ .unused ∧ running.tables.slotKind 8 = .unused ∧
      running.line.pass.length < 4 ∧ Ready fullQueues ∧ 4 ≤ fullQueues.line.pass.length) ∧
    (let s : State := { running with line := { Line.initial with queue := [waitingMasks] } }
     s.phase = .run ∧ s.line.trans = none ∧ s.line.assembling = false ∧ NothingWaits s ∧ s.line.pass = [] ∧
      s.line.list = [] ∧ s.slotOf .validator = some waitingMasks.slot ∧ s.slotPresent waitingMasks.slot = false) ∧
    (∀ stage ∈ [TransStage.sending, .reply], ∀ mark ∈ [false, true], ∀ rest ∈ [[], List.replicate 3 waitingMasks],
      let s := commanding stage (.masks (.coin 1 2)) mark rest
      s.phase = .run ∧ s.line.slots.length = 8 ∧ NothingWaits s ∧ s.slotOf .validator = some 1 ∧
      (s.slot 1).state = .present ∧ (s.slot 1).missed < 2 ∧
      ∃ x e, Flies x e rest s ∧ x.slot = 1 ∧ x.stage = stage ∧ e.body = .masks (.coin 1 2) ∧ e.mark = mark) ∧
    (commanding .reply (.masks (.coin 1 2)) false []).line.driver = false ∧
    (commanding .reply (.masks (.coin 1 2)) false []).line.assembling = true ∧
    ∀ stage ∈ [TransStage.sending, .reply], ∀ mark ∈ [false, true], ∀ tracked ∈ [false, true],
      let s := commanding stage (.escrow .stack 7 tracked) mark []
      s.slotOf .reader = some 2 ∧ escrowMatches .stack 7 s = true ∧ (s.slot 2).missed < 2 ∧ NothingWaits s ∧
      ∃ x e, Flies x e [] s ∧ x.slot = 2 ∧ x.stage = stage ∧ e.body = .escrow .stack 7 tracked ∧ e.mark = mark := by
  refine ⟨⟨ready_running, by decide, by decide, by decide, ⟨rfl, rfl, rfl, rfl⟩, by decide⟩,
    ⟨rfl, rfl, rfl, ⟨rfl, rfl, rfl⟩, rfl, rfl, rfl, rfl⟩, ?_, rfl, rfl, ?_⟩
  · intro stage _ mark _ rest hrest
    refine ⟨rfl, rfl, ⟨rfl, rfl, rfl⟩, rfl, rfl, Nat.lt_succ_self 1, _, _, ⟨rfl, rfl, rfl, rfl, rfl, rfl, ?_, ?_⟩,
      rfl, rfl, rfl, rfl⟩
    · fin_cases hrest <;> simp [waitingMasks]
    · fin_cases hrest <;> simp
  · intro stage _ mark _ tracked _
    exact ⟨rfl, rfl, Nat.lt_succ_self 1, ⟨rfl, rfl, rfl⟩, _, _, ⟨rfl, rfl, rfl, rfl, rfl, rfl, nofun, by simp⟩,
      rfl, rfl, rfl, rfl⟩
/-- A MASKS refused twice on the wire is dropped and its record told (R138, R154). -/
theorem test_second_contention_drops :
    let t := ran (.contention 0) (commanding .sending (.masks (.coin 1 2)) true [])
    t.line.dropped = 1 ∧ t.line.validator.push = true := by decide +kernel

theorem witness_UnlockFollowsItsTable :
    (Ready running ∧ running.lock.state ≠ .locked) ∧
    (Ready lockedOut ∧ lockedOut.lock.state = .locked ∧ lockedOut.lock.lockout = true) ∧
    (Ready locked ∧ locked.lock.lockout = false ∧ locked.lock.code = some [1, 2, 3, 4] ∧
      codeEquals ⟨4, [1, 2, 3, 4, 0, 0, 0, 0]⟩ [1, 2, 3, 4] = true ∧
      codeEquals ⟨5, [1, 2, 3, 4, 0, 0, 0, 0]⟩ [1, 2, 3, 4] = false ∧ locked.lock.failures < 2 ∧
      ({ locked with lock := { locked.lock with failures := 2 } } : State).lock.failures = 2) ∧
    running.active = true :=
  ⟨⟨ready_running, by decide⟩, ⟨⟨rfl, rfl, rfl, rfl⟩, by decide⟩, ⟨ready_locked, by decide⟩, by decide⟩

theorem witness_CodesAreSetClearedAndLocked :
    (Ready session ∧ session.lock.state = .unlocked ∧ session.lock.code = some [1, 2, 3, 4]) ∧
    (Ready running ∧ running.lock.state = .opened ∧ unlocked running) ∧
    codeValue ⟨0, []⟩ = .none ∧ codeValue ⟨8, [1, 2, 3, 4, 5, 6, 7, 8]⟩ = .digits [1, 2, 3, 4, 5, 6, 7, 8] ∧
    codeValue ⟨3, [1, 2, 3]⟩ = .invalid :=
  ⟨⟨ready_session, rfl, rfl⟩, ⟨ready_running, rfl, unlocked_running⟩, by decide⟩

/-- A locked part with its door OPEN or CLOSED, idle or in a sale. -/
def lockedAjar : State := { locked with lock := { locked.lock with door := ajar } }
def lockedShut : State := { locked with lock := { locked.lock with door := shut } }
theorem witness_FactoryClearLeavesTheDefaults :
    (Ready running ∧ running.lock.state ≠ .locked) ∧
    (Ready lockedShut ∧ lockedShut.lock.state = .locked ∧ lockedShut.doorOpen = false) ∧
    (Ready lockedAjar ∧ lockedAjar.doorOpen = true ∧ lockedAjar.credit.sale = .idle ∧
      lockedAjar.credit.escrow = none ∧ lockedAjar.drive.service = none ∧
      lockedAjar.tables.tubes.length = 6 ∧ lockedAjar.tables.slotKinds.length = 8) ∧
    ({ lockedAjar with credit := owing.credit } : State).credit.sale ≠ .idle :=
  ⟨⟨ready_running, by decide⟩, ⟨⟨rfl, rfl, rfl, rfl⟩, by decide⟩, ⟨⟨rfl, rfl, rfl, rfl⟩, by decide⟩, by decide⟩

theorem witness_TagSequenceIsBuiltInOrder :
    Ready running ∧ unlocked running ∧ running.lock.tag = .empty ∧ validCode 88 = true ∧
    validCode 89 = false ∧
    ({ running with lock := { running.lock with tag := .firstSet .tray 8 } } : State).lock.tag =
      .firstSet .tray 8 ∧
    tagging.lock.tag = .rangeSet .selection 11 18 [12] ∧ inRange .selection 11 18 18 = true ∧
    inRange .selection 11 18 21 = false :=
  ⟨ready_running, unlocked_running, by decide⟩

theorem witness_ApplyActsOnTheTaggedSet :
    (Ready tagging ∧ unlocked tagging ∧ tagging.lock.tag = .rangeSet .selection 11 18 [12]) ∧
    tagging.sels.length = 64 ∧ tagging.tables.sels.length = 64 ∧ tagging.drive.vend = none ∧
    tagged .selection 11 18 [12] 7 = true ∧ tagged .selection 11 18 [12] 1 = false ∧
    (let s : State := { vending with lock := { vending.lock with tag := .rangeSet .selection 11 18 [] } }
     Ready s ∧ unlocked s ∧ s.drive.vend = some op ∧ op.sel < 64 ∧ tagged .selection 11 18 [] op.sel = true ∧
      s.sels.length = 64 ∧ s.tables.sels.length = 64) :=
  ⟨⟨⟨rfl, rfl, rfl, rfl⟩, by unfold unlocked; decide, rfl⟩, by decide, by decide, rfl, by decide, by decide,
   ⟨rfl, rfl, rfl, rfl⟩, by unfold unlocked; decide, rfl, by decide, by decide, by decide, by decide⟩

def filling : State := { running with lock := { running.lock with fill := true } }
theorem witness_ModesAreEnteredUnderTheirChecks :
    (Ready running ∧ unlocked running ∧ running.lock.fill = false ∧ running.doorOpen = true ∧
      running.credit.sale = .idle ∧ running.lock.economy = false) ∧
    (Ready closed ∧ closed.doorOpen = false ∧ closed.credit.escrow = none ∧
      closed.cold.state ≠ .starting ∧ closed.cold.state ≠ .defrost) ∧
    owing.credit.sale ≠ .idle ∧ Ready filling ∧ unlocked filling ∧ filling.lock.fill = true :=
  ⟨⟨ready_running, unlocked_running, by decide⟩, ⟨ready_closed, by decide⟩, by decide, ⟨rfl, rfl, rfl, rfl⟩,
   by unfold unlocked; decide, rfl⟩
/-- Fill mode off while it is off places nothing, though the validator's held masks are unknown (R36, R182). -/
theorem test_fill_off_while_off : (ran .fillModeOff running).line.queue = [] := by decide +kernel

theorem witness_DoorChangesEndModesAndSessions :
    (closed.phase = .run ∧ closed.lock.door.accepted = some false) ∧
    (lockedAjar.phase = .run ∧ lockedAjar.lock.door.accepted = some true) ∧
    running.lock.door.accepted = none := by decide

/-- A part whose compressor stands in a state. -/
def cooling (x : CompState) : State :=
  { running with cold := { Cold.initial with state := x, relay := x == .running || x == .starting,
                                             runTimer := if x = .running then .passed else .off } }
theorem witness_ServiceOperationsAreStarted :
    (Ready running ∧ unlocked running ∧ running.doorOpen = true ∧ running.credit.sale = .idle ∧
      running.credit.inFlight = none ∧ running.drive.service = none ∧
      (running.spiral 63).state = .notHome) ∧
    closed.doorOpen = false ∧ (cooling .starting).cold.state = .starting ∧
    (cooling .running).cold.state = .running ∧ (cooling .drip).cold.state = .drip :=
  ⟨⟨ready_running, unlocked_running, by decide⟩, by decide⟩

theorem witness_ClearAuditZeroesTotalsInIdle :
    (Ready locked ∧ locked.lock.state = .locked) ∧
    (Ready running ∧ unlocked running ∧ running.credit.sale = .idle) ∧
    (Ready owing ∧ owing.credit.sale ≠ .idle) :=
  ⟨⟨ready_locked, rfl⟩, ⟨ready_running, unlocked_running, rfl⟩, ⟨rfl, rfl, rfl, rfl⟩, by decide⟩
theorem witness_SettleWritesOffWhatIsOwed :
    (Ready locked ∧ locked.lock.state = .locked) ∧
    (Ready owing ∧ unlocked owing ∧ owing.credit.sale = .opened) ∧
    (Ready running ∧ running.credit.sale ≠ .opened) :=
  ⟨⟨ready_locked, rfl⟩, ⟨⟨rfl, rfl, rfl, rfl⟩, by unfold unlocked; decide, rfl⟩, ready_running, by decide⟩

/-- Zone 0 held, its sensor good at the hold limit, one tenth above it, without a value, or faulted. -/
def heldAt (f : Option Int) (faulted : Bool) : State :=
  { running with
    cold := { Cold.initial with
      sensors := List.replicate 3 { TempSensor.initial with temp := f, faulted := faulted, sampled := true },
      zones := [{ ZoneState.initial with latched := true }, ZoneState.initial] } }
theorem witness_ReleaseHoldNeedsAColdZone :
    (Ready locked ∧ locked.lock.state = .locked) ∧
    (Ready (heldAt (some 70) false) ∧ unlocked (heldAt (some 70) false)) ∧
    ((heldAt (some 70) false).zone 0).latched = true ∧ ((heldAt (some 70) false).zone 1).latched = false ∧
    ((heldAt (some 70) false).tables.zone 0).holdLimit = 70 ∧
    ((heldAt none false).sensor 0).temp = none ∧ ((heldAt (some 71) true).sensor 0).faulted = true :=
  ⟨⟨ready_locked, rfl⟩, ⟨⟨rfl, rfl, rfl, rfl⟩, by unfold unlocked; decide⟩, by decide⟩
theorem test_release_hold_at_the_limit :
    ((ran (.releaseHold 0) (heldAt (some 70) false)).zone 0).latched = false ∧
    ((ran (.releaseHold 0) (heldAt (some 71) false)).zone 0).latched = true := by decide

/-! ### Witnesses: temperatures and the compressor -/

theorem witness_ConversionInterpolatesTheCurve :
    4095 < 4096 ∧ (∀ j ≤ 16, -400 ≤ defaultTables.point j ∧ defaultTables.point j ≤ 800) ∧
    extremes.phase = .run ∧ extremes.cold.sensors.length = 3 ∧ extremes.tables = defaultTables ∧
    (extremes.sensor 2).faulted = false ∧ (extremes.sensor 2).temp = none := by decide

/-- Sensors of which one has its second bad sample or its ninth good one behind it. -/
def sampling (x : TempSensor) : State :=
  { running with cold := { Cold.initial with sensors := [x, x, x] } }
def bad2 : TempSensor := { TempSensor.initial with temp := some 50, badRun := 2, sampled := true }
def good9 : TempSensor := { TempSensor.initial with temp := some 50, faulted := true, goodRun := 9, sampled := true }
theorem witness_SamplesFilterAndSwitchTheDemand :
    (sampling bad2).phase = .run ∧ (sampling bad2).cold.sensors.length = 3 ∧
    (sampling bad2).cold.zones.length = 2 ∧
    bad2.faulted = false ∧ (bad2.after 15 0).faulted = true ∧ (bad2.after 16 0).faulted = false ∧
    good9.faulted = true ∧ (good9.after 4079 7).faulted = false ∧ (good9.after 4079 7).temp = some 7 ∧
    (good9.after 4080 7).faulted = true := by decide

/-- Zone 0 with its hold timer at the last second before the hold time, at a temperature. -/
def warming (f : Int) : State :=
  { vending with
    cold := { Cold.initial with
      sensors := List.replicate 3 { TempSensor.initial with temp := some f, sampled := true },
      zones := [{ ZoneState.initial with holdTimer := 1799 }, ZoneState.initial] } }
theorem witness_HoldLatchesAtItsTimeAndEndsAVend :
    (warming 200).phase = .run ∧ ((warming 200).sensor 0).sampled = true ∧
    ((warming 200).zone 0).latched = false ∧ ((warming 200).tables.zone 0).holdTime = 1800 ∧
    (((warming 200).sensor 0).after 1650 123).temp = some 191 ∧
    (((warming 0).sensor 0).after 1650 123).temp = some 15 ∧
    (heldAt none false).cold.sensors.length = 3 ∧ ((heldAt none false).zone 0).latched = true ∧
    (warming 200).drive.vend = some op ∧ ((warming 200).tables.sel 0).perishable = true ∧
    op.drop = false ∧ (warming 200).credit.pendingReturn = false ∧
    ({ running with phase := .sampling .cold } : State).sensor 0 = TempSensor.initial := by decide
theorem test_zone_hold_ends_the_vend :
    let t := ran (.zoneHold 0 1650) (warming 200)
    (t.zone 0).latched = true ∧ t.drive.vend = none ∧ t.credit.credit = 500 ∧ t.credit.vendHold = 0 := by decide

/-- A defrost at the last second of its maximum time. -/
def defrosting (f : Int) (on : Nat) : State :=
  { running with
    cold := { Cold.initial with
      sensors := List.replicate 3 { TempSensor.initial with temp := some f, sampled := true },
      state := .defrost, heaterOn := on, heater := true } }
/-- One second before the defrost interval, in STARTING. -/
def overdue : State := { cooling .starting with cold := { (cooling .starting).cold with runSince := 21599 } }
theorem witness_EvaporatorSamplesBeginAndEndDefrost :
    (defrosting 80 0).phase = .run ∧ (defrosting 80 0).cold.state = .defrost ∧
    (defrosting 80 0).tables.refrig.defrostEndTemp = 80 ∧
    (((defrosting 80 0).sensor 2).after 1650 123).temp = some 85 ∧
    (defrosting 0 1799).tables.refrig.maxDefrost = 1799 + 1 ∧
    (cooling .running).cold.state = .running ∧ (cooling .running).tables.refrig.defrostInterval = 21600 ∧
    (cooling .starting).cold.state = .starting ∧ (cooling .drip).cold.state = .drip ∧
    overdue.cold.state = .starting ∧ overdue.tables.refrig.defrostInterval = min 4294967295 (overdue.cold.runSince + 1) ∧
    (cooling .starting).cold.runSince + 1 < (cooling .starting).tables.refrig.defrostInterval := by decide
/-- The sample that reaches the interval in STARTING is taken, and the defrost waits (R105). -/
theorem test_defrost_waits_for_starting :
    let t := ran (.defrostInterval 1650) overdue
    t.cold.state = .starting ∧ t.cold.runSince = 21600 ∧ (t.sensor 2).sampled = true := by decide +kernel

theorem witness_CompressorFollowsItsGrantsAndTimers :
    starting.phase = .run ∧
    (let s : State := { cooling .awaitGrant with supply := starting.supply }
     s.cold.state = .awaitGrant ∧ s.supply.granted.compStart = true) ∧
    starting.cold.runTimer = .running 120000 ∧
    (¬∃ x ∈ (cooling .running).cold.zones, x.demand = true) ∧
    ({ Cold.initial with offTimer := some 180000 } : Cold).offTimer.isSome = true ∧
    ({ Cold.initial with state := .drip, dripTimer := some 180000 } : Cold).dripTimer.isSome = true ∧
    ({ ZoneState.initial with duty := some true } : ZoneState).duty = some true := by decide

theorem witness_SurgeWindowEndExchangesTheGrant :
    starting.phase = .run ∧ starting.cold.state = .starting ∧ starting.cold.surgeTimer.isSome = true ∧
    starting.grantedSum - starting.tables.loads.compStart + starting.tables.loads.compRun ≤
      starting.effectiveBudget ∧
    (let s : State := { starting with tables := { defaultTables with loads := { defaultLoads with compRun := 31 } } }
     ¬ s.grantedSum - s.tables.loads.compStart + s.tables.loads.compRun ≤ s.effectiveBudget) ∧
    BudgetLaw starting :=
  ⟨rfl, rfl, rfl, by decide, by decide, budget_law_starting⟩

/-! ### Witnesses: loads, tubes and payouts -/

theorem witness_GrantRuleKeepsPriorityAndBudget :
    let s : State := { starting with supply := { starting.supply with
      waiting := { LoadSet.none with motor := true, heater := true } } }
    s.grantedSum ≤ s.effectiveBudget ∧ (grantRule s).supply.waiting.has .motor = true ∧
    (grantRule s).supply.waiting.has .payout = false := by decide

/-- The tables of the worked coins, tube 0 with a low mark of 4. -/
def changeTables : Tables :=
  { defaultTables with
    coins := [10, 20, 50, 50, 100, 200].mapIdx (fun k v => ⟨v, true, some k⟩),
    tubes := ⟨0, true, 100, 4, 0⟩ :: defaultTubes.tail }
/-- Tube 0 of the worked coins with its two sensors and a condition. -/
def sensed (count : Nat) (cond : TubeCond) (full low : Option Bool) : State :=
  { running with
    tables := changeTables,
    change := { ChangeUnit.initial with
      tubes := { count := count, cond := cond,
                 full := { accepted := full, runValue := true, runLen := 3 },
                 low := { accepted := low, runValue := true, runLen := 3 } } ::
        List.replicate 5 TubeState.initial } }
/-- The same tube while start step 6 waits for the temperature samples. -/
def sensing : State := { sensed 5 .ok none none with phase := .sampling .cold }
/-- Five coins of 20 in tube 1 and of 50 in tube 2. -/
def coins2050 : State :=
  { running with
    tables := changeTables,
    change := { ChangeUnit.initial with
      tubes := [0, 5, 5, 0, 0, 0].map fun n => { TubeState.initial with count := n } } }
/-- The greedy plan for 60 leaves 10; the first trial, one coin of 50 fewer, is exact. -/
theorem witness_ChangePlanAccountsForTheWholeAmount :
    (greedy (planTubes running) 0).2 = 0 ∧ (changePlan running 10).exact = false ∧
    (greedy (planTubes running) 10).1 = [0, 0, 0, 0, 0, 0] ∧
    (planTubes coins2050).map (·.tube) = [5, 4, 2, 3, 1, 0] ∧
    greedy (planTubes coins2050) 60 = ([0, 0, 1, 0, 0, 0], 10) ∧
    greedy ((planTubes coins2050).drop 3) 60 = ([0, 3, 0], 0) := by decide
theorem test_backoff_pays_60 : (changePlan coins2050 60).exact = true := by decide
/-- EXACT as it stands agrees with the empty tubes, and so does a state that has just to find it out. -/
theorem witness_ExactFollowsTheTubes :
    (let s : State := { running with change := { running.change with exact := true }, pending := [.status] }
     ExactLaw s ∧ ∃ t, step s = .next t) ∧
    (running.change.exact = false ∧ probeShort running 1 ∧ ∀ j, probeShort running j → 1 ≤ j) ∧
    (let s : State := { running with
       tables := { defaultTables with money := { defaultMoney with probeCeiling := 9 } },
       change := { running.change with exact := true } }
     s.change.exact = true ∧ ∀ k, ¬probeShort s k) := by
  have short : probeShort running 1 := by unfold probeShort; decide
  refine ⟨⟨fun _ => ⟨fun _ => ⟨1, short⟩, fun _ => rfl⟩, _, rfl⟩, ⟨rfl, short, fun _ h => h.1⟩, rfl, ?_⟩
  rintro k ⟨h1, h2, -⟩
  have : k ≤ min (9 / 10) 250 := h2
  omega
theorem witness_LevelSensorsReconcileTheirTube :
    (sensed 9 .ok none (some false)).phase = .run ∧ (sensed 9 .ok none none).change.tubes.length = 6 ∧
    ((sensed 9 .ok (some true) none).tube 0).full.accepted = some true ∧
    0 < ((sensed 9 .ok none none).tables.tube 0).lowMark ∧
    ((sensed 9 .faulted none none).tube 0).cond = .faulted ∧ Ready (sensed 9 .faulted none none) ∧
    unlocked (sensed 9 .faulted none none) ∧ (sensed 9 .ok none none).samplingOn = true ∧
    sensing.samplingOn = true ∧ (∃ k ∈ sensing.cold.sensors, k.sampled = false) ∧
    ∀ c, (sensed 9 .ok none none).phase ≠ .sampling c :=
  ⟨rfl, by decide, by decide, by decide, by decide, ⟨rfl, rfl, rfl, rfl⟩, by unfold unlocked; decide, by decide,
   by decide, by decide, nofun⟩
theorem test_level_sensors :
    ((ran (.levelSensorChange 0 true [true, true, true]) (sensed 5 .ok none none)).tube 0).count = 100 ∧
    ((ran (.levelSensorChange 0 false [false, false, false]) (sensed 4 .ok none none)).tube 0).count = 3 ∧
    ((ran (.levelSensorChange 0 false [false, false, false]) (sensed 5 .ok (some true) none)).tube 0).cond =
      .faulted ∧
    ((ran (.levelSensorChange 0 true [true, true, true]) sensing).tube 0).count = 100 := by decide

/-- A payout with a pulse on tube 2 (value 50) and its window open. -/
def paying : Payout :=
  { newPayout .refund with held := true, plan := [(2, 1), (1, 0)], pulsed := some 2, energised := some 2 }
def payingOut (p : Payout) (due : Nat) : State :=
  { running with
    tables := changeTables,
    credit := { CreditUnit.initial with returnDue := due, sale := .payout },
    change := { ChangeUnit.initial with
      payout := some p, tubes := List.replicate 6 { TubeState.initial with count := 5 } },
    supply := { State.reset.supply with state := .normal, granted := { LoadSet.none with payout := true } } }
theorem witness_PayoutsArePaidCoinByCoin :
    (payingOut paying 50).phase = .run ∧ (payingOut paying 50).change.payout = some paying ∧
    (payingOut paying 50).change.tubes.length = 6 ∧ paying.pulsed = some 2 ∧ paying.windowCoins = 0 ∧
    paying.isRetry = false ∧ paying.kind = .refund ∧ paying.replan = false ∧ paying.retry = none ∧
    (newPayout .refund).held = false ∧ (payingOut (newPayout .refund) 50).supply.granted.payout = true ∧
    firstTake (changePlan (payingOut (newPayout .refund) 50) 50).takes = some 2 ∧
    firstTake (changePlan (payingOut (newPayout .refund) 5) 5).takes = none ∧
    ((payingOut paying 50).tube 2).full.accepted ≠ some true ∧
    (newPayout (.drain 0 1)).kind = .drain 0 (0 + 1) := by decide +kernel
theorem test_coin_at_exit_settles :
    let t := ran .coinAtExitSensor (payingOut paying 50)
    t.credit.returnDue = 0 ∧ t.audit.changePaid = 50 ∧ (t.tube 2).count = 4 := by decide +kernel

theorem witness_CoinOutsideAnyWindowIsStray :
    running.active = true ∧ running.change.payout = none ∧ upto16 65535 1 = 65535 := by decide

/-! ### Witnesses: the matrix and the motor -/

/-- A service operation in flight. -/
def servicing (home : Bool) : State :=
  { running with
    drive := { Drive.initial with
      service := some { home := home, spiral := 63, params := defaultDrive, told := false } },
    supply := { State.reset.supply with state := .normal, granted := { LoadSet.none with motor := true } } }
/-- The vend of section 1.10 before its motor start. -/
def closing : State :=
  { vending with drive := { vending.drive with rev := some (newRev 0), row := none } }
theorem witness_MatrixServesOneCrossingAtATime :
    (vending.phase = .run ∧ vending.spirals.length = 64 ∧ vending.drive.probing = none ∧
      vending.supply.granted.motor = true) ∧
    ({ running with drive := { Drive.initial with probing := some 63 } } : State).drive.probing = some 63 ∧
    running.supply.granted.motor = false ∧ spiralReady vending 0 = true ∧
    spiralReady (shopWith .enabled .empty) 0 = false ∧ choose (shopWith .enabled .empty) 0 = none ∧
    (servicing true).drive.service.isSome = true ∧ ((servicing true).spiral 63).state ≠ .ready ∧
    closing.drive.rev = some (newRev 0) ∧ closing.drive.column = some 0 ∧ closing.drive.service = none ∧
    vending.drive.row = some 0 ∧ inTail.drive.column = some 0 ∧ inTail.drive.row = none := by decide

/-- The vend of section 1.10 with drop confirmation off. -/
def unseen (autoNext : Bool) : State :=
  { vending with
    drive := { vending.drive with
      vend := some { op with params := { op.params with dropConfirm := false, autoNext := autoNext } },
      rev := some { turning with window := false } } }
theorem witness_RevolutionsCompleteOrFail :
    vending.phase = .run ∧ vending.spirals.length = 64 ∧ turning.spiral < 64 ∧
    vending.drive.rev = some turning ∧ turning.stage = .turning ∧ vending.drive.service = none ∧
    vending.drive.vend = some op ∧ op.told = true ∧ vending.credit.inFlight.isSome = true ∧
    turning.leaveDone = true ∧
    turning.switch.accepted = some false ∧ op.params.dropConfirm = true ∧ turning.drop = false ∧
    ({ turning with leaveDone := false, switch := ajar } : Rev).switch.accepted = some true ∧
    (∀ c ∈ List.replicate 150 (op.params.jamThreshold + 1), op.params.jamThreshold < c) ∧
    turning.openChecked = false ∧ ({ turning with drop := true } : Rev).drop = true ∧ vending.sels.length = 64 ∧
    op.sel < 64 ∧ (unseen true).drive.vend.map (·.params.dropConfirm) = some false ∧
    choose (setSpiral 0 .jammed (unseen true)) 0 = some (1, 1) ∧
    choose (setSpiral 0 .jammed (setSpiral 1 .jammed (unseen true))) 0 = none := by decide +kernel
/-- With drop confirmation off a jam moves the vend on at once, or ends it as a spiral fault (R82, R83). -/
theorem test_jam_moves_on :
    let jam : Instr := .jam (List.replicate 150 (op.params.jamThreshold + 1))
    (ran jam (unseen true)).drive.rev = some (newRev 1) ∧ (ran jam (unseen false)).credit.credit = 500 := by
  decide +kernel
theorem test_jam_needs_150_readings :
    ((ran (.jam (List.replicate 150 (op.params.jamThreshold + 1))) vending).spiral 0).state = .jammed ∧
    ((ran (.jam (List.replicate 149 (op.params.jamThreshold + 1))) vending).spiral 0).state = .ready := by
  decide +kernel

/-- The drop window held open by an interruption. -/
def heldOpen : State :=
  { vending with
    drive := { vending.drive with
      rev := some { turning with stage := .tail, heldOpen := true, broken := 1 }, row := none } }
theorem witness_DropsSellAndEmptyWindowsMoveOn :
    inTail.phase = .run ∧ inTail.spirals.length = 64 ∧ inTail.sels.length = 64 ∧
    inTail.drive.rev = some { turning with stage := .tail } ∧ turning.window = true ∧ turning.armed = true ∧
    turning.broken = 0 ∧ turning.drop = false ∧ turning.failure = none ∧ inTail.drive.service = none ∧
    inTail.drive.vend = some op ∧ op.told = true ∧ op.spiral = turning.spiral ∧ op.sel < 64 ∧
    op.revolutions < 1 + op.params.extraRevs ∧
    (let last : VendOp := { op with revolutions := 3 }
     1 + last.params.extraRevs ≤ last.revolutions) ∧
    (newRev 0).window = false ∧
    heldOpen.drive.rev = some { turning with stage := .tail, heldOpen := true, broken := 1 } ∧
    heldOpen.drive.vend.isSome = true ∧
    choose (setSpiral 0 .empty inTail) 0 = some (1, 1) := by decide +kernel
/-- The read that ends the interruption closes the window: what is read after it is no drop (R78). -/
theorem test_held_window_closes_at_the_clear_read :
    let t := ran (.beamInterruptionEnd [false, true, true, true]) heldOpen
    t.audit.cashSales = 0 ∧ t.drive.rev = some (newRev 0) := by decide +kernel

/-! ### Witnesses: the supply, the store and the line -/

/-- Normal operation one reading before a sag, and one before its end. -/
def sagging : State :=
  { running with supply := { State.reset.supply with state := .normal, low := 19 } }
def returning : State :=
  { running with supply := { State.reset.supply with state := .sag, good := 499 } }
theorem budget_law_sagging : BudgetLaw sagging where
  table := by decide
  budget := by decide
  disjoint := by intro y; cases y <;> decide
  runNotAsked := by decide
  payoutOwner := by decide
  motorOwner := by decide
  startAsked := by decide
  startHeld := by decide
  starting := by decide
  runHeld := by decide
  probing := fun _ h => h.elim nofun nofun
  stopped := by decide
theorem budget_law_returning : BudgetLaw returning where
  table := by decide
  budget := by decide
  disjoint := by intro y; cases y <;> decide
  runNotAsked := by decide
  payoutOwner := by decide
  motorOwner := by decide
  startAsked := by decide
  startHeld := by decide
  starting := by decide
  runHeld := by decide
  probing := fun _ h => h.elim nofun nofun
  stopped := by decide
theorem witness_SupplySagShedsAndNormalReturns :
    (sagging.phase = .run ∧ sagging.supply.state = .normal ∧ sagging.supply.low = 19 ∧ BudgetLaw sagging) ∧
    (returning.phase = .run ∧ returning.supply.state = .sag ∧ returning.supply.good = 499 ∧
      BudgetLaw returning) ∧
    vending.supply.state = .normal ∧ vending.supply.low < 19 :=
  ⟨⟨rfl, rfl, rfl, budget_law_sagging⟩, ⟨rfl, rfl, rfl, budget_law_returning⟩, by decide⟩
theorem test_supply_limits :
    (ran (.supplySag [199]) sagging).supply.state = .sag ∧
    (ran (.supplySag [200]) sagging).supply.state = .normal := by decide

/-- A start in its steps 1 and 2, one reading before FAIL. -/
def restoring : State :=
  { running with phase := .restoring .warm, supply := { State.reset.supply with state := .normal, fail := 1 } }
theorem witness_PowerFailStopsEverythingAndSaves :
    vending.active = true ∧ CreditLaw vending ∧ savingWrapped.active = false ∧
    (let s : State := { vending with supply := { vending.supply with fail := 1 } }
     s.active = true ∧ s.supply.state ≠ .fail ∧ 1 ≤ s.supply.fail) ∧
    (Ready running ∧ unlocked running ∧ running.credit.sale = .idle) ∧
    (let s : State := { answering with link := { answering.link with restarting := true } }
     s.link.answer.isSome = true ∧ s.link.restarting = true) ∧
    (restoring.active = true ∧ restoring.phase = .restoring .warm ∧ 1 ≤ restoring.supply.fail ∧
      restoring.supply.state ≠ .fail) ∧ ¬∃ c, running.phase = .restoring c :=
  ⟨by decide, credit_law_vending, by decide, by decide, ⟨ready_running, unlocked_running, rfl⟩, by decide,
   by decide, nofun⟩
/-- A reset before start step 2 is complete begins the start again; FAIL writes no image (R129). -/
theorem test_before_step_2 :
    (ran .reset restoring).phase = .restoring .warm ∧
    (ran (.supplyFail [0]) restoring).phase = .failWait ∧
    (ran (.supplyFail [0]) restoring).store.retainedWriting = none := by decide
theorem test_reset_restores_the_hold :
    (ran .reset vending).credit.credit = 500 ∧ (ran .reset vending).drive.row = none := by decide

theorem witness_StoreWritesCommitAndStartsRestore :
    running.store.tableWriting = none ∧
    (∃ w, ({ running with store := { Store.blank with tableWriting := some w } } : State).store.tableWriting =
      some w) ∧
    (savingWrapped.store.retainedWriting = some { first := true, copy := copyOf 1 image } ∧
      savingWrapped.phase = .saving true ∧ StoreLaw savingWrapped) ∧
    (State.reset.phase = .failWait ∧ State.reset.supply.state = .fail ∧ State.reset.store.retainedA = none) ∧
    latest savingWrapped.store.retainedA savingWrapped.store.retainedB = some image ∧
    (validCopy State.reset.store.retainedA = none ∧ validCopy State.reset.store.retainedB = none) ∧
    restoring.phase = .restoring .warm :=
  ⟨rfl, ⟨{ first := true, copy := copyOf 1 defaultTables }, rfl⟩,
   ⟨rfl, rfl, store_law_wrapped⟩, ⟨rfl, rfl, rfl⟩, latest_wrapped, ⟨rfl, rfl⟩, rfl⟩

/-- A poll of slot 1 at a stage, its slot PRESENT with two misses. -/
def polling (x : TransStage) : State :=
  { running with
    line := { Line.initial with
      trans := some { slot := 1, body := .poll, stage := x, stale := false, frame := [] },
      slots := List.replicate 8 { Slot.initial with state := .present, missed := 2 },
      driver := x == .sending, assembling := x == .reply } }
theorem witness_LineTransactionsRunToTheirOutcome :
    (polling .window).phase = .run ∧ (polling .window).line.slots.length = 8 ∧
    (polling .sending).line.driver = true ∧
    (∃ x, (polling .sending).line.trans = some x ∧ x.stage = .sending ∧ x.body = .poll ∧ x.stale = false) ∧
    running.line.trans = none ∧ running.line.assembling = false ∧
    fullQueues.line.trans = none ∧ running.line.list = [] ∧
    ((polling .window).slot 1).state = .present ∧ 2 ≤ ((polling .window).slot 1).missed ∧
    (polling .reply).line.assembling = true ∧ (polling .reply).line.driver = false ∧
    (polling .window).line.driver = false ∧ (polling .window).line.assembling = false ∧
    running.line.driver = false ∧ running.line.noisy ≤ 65535 ∧
    ({ running with phase := .lineReset .cold } : State).phase = .lineReset .cold := by decide
/-- A character with no break has the idle time counted again, and in a reply window it begins the reply (R136). -/
theorem test_stray_characters :
    (ran (.lineFrameComplete (clean [7])) { running with line := { Line.initial with idle := true } }).line.idle =
      false ∧
    (ran .replyWindowClose (ran (.lineFrameComplete (clean [7])) (polling .window))).line.trans.isSome = true := by
  decide +kernel
theorem test_third_miss_is_silent :
    ((ran .replyWindowClose (polling .window)).slot 1).state = .silent := by decide

/-- Step 3 of section 1.10: a coin of 200 with a headroom of 100. -/
def overpaying : State :=
  { polling .reply with
    tables := { saleTables with coins := [⟨200, true, none⟩] },
    credit := { CreditUnit.initial with
      credit := 200, escrowReserve := 200, sale := .opened,
      escrow := some { noteType := 0, decision := .stack, time := 0 } } }
theorem witness_PollRepliesCreditMoneyAndHoldNotes :
    overpaying.phase = .run ∧ overpaying.line.slots.length = 8 ∧
    overpaying.line.trans = some { slot := 1, body := .poll, stage := .reply, stale := false, frame := [] } ∧
    overpaying.line.driver = false ∧ overpaying.line.assembling = true ∧
    (overpaying.slot 1).state = .present ∧ overpaying.tables.slotKind 1 = .coinValidator ∧
    overpaying.lock.fill = false ∧ (overpaying.tables.coin 0).value = 200 ∧ overpaying.headroom = 100 ∧
    overpaying.credit.escrow.isSome = true ∧ running.credit.escrow = none ∧
    overpaying.tables.slotKind 2 = .noteReader := by decide
theorem test_overpay_worked :
    let t := ran (.lineFrameComplete (clean (lineFrame 1 0x81 [0x02, 0x00]))) overpaying
    t.credit.credit = 300 ∧ t.credit.returnDue = 100 ∧ t.audit.cashIn = 200 ∧ t.credit.sale = .payout := by
  decide +kernel

end Sys2Proof.Tests
end

