-- ==== Sys2Proof/Proofs/CreditAndSale.lean ====
section
/-! Clear Audit and Settle (R25, R26): a request refused at the gate or by its owner, the sale state at the end of a
step, and the totals and sale counters that Factory Clear leaves at 0. -/

namespace Sys2Proof.Machine

/-! ### The sale state tests (R4) -/

theorem saleOf_eq_idle_iff (s : State) :
    saleOf s = .idle ↔ s.credit.inFlight = none ∧ s.change.payout = none ∧ s.credit.credit = 0 ∧
      s.credit.returnDue = 0 ∧ s.credit.escrowReserve = 0 := by
  unfold saleOf
  split_ifs with hvend hpayout hheld
  · simp [Option.isSome_iff_ne_none.1 hvend]
  · simp [Option.isSome_iff_ne_none.1 hpayout]
  · simp; omega
  · simp_all

theorem not_in_flight_of_saleOf_opened {s : State} (h : saleOf s = .opened) :
    s.credit.inFlight = none ∧ s.change.payout = none := by
  unfold saleOf at h
  split_ifs at h with hvend hpayout
  exact ⟨Option.not_isSome_iff_eq_none.1 hvend, Option.not_isSome_iff_eq_none.1 hpayout⟩

/-- The sale state tests read the four amounts, the vend and the payout in flight alone. -/
theorem Alters.saleOf_eq {ps : List Part} {s t : State} (h : Alters ps s t) (ha : .amounts ∉ ps := by decide)
    (hv : .inFlight ∉ ps := by decide) (hp : .payout ∉ ps := by decide) : saleOf t = saleOf s := by
  obtain ⟨h1, h2, h3, h4⟩ : Part.amounts.same s t := h _ ha
  have hv : t.credit.inFlight = s.credit.inFlight := h _ hv
  have hp : t.change.payout = s.change.payout := h _ hp
  simp only [saleOf, h1, h3, h4, hv, hp]

theorem saleOf_setSale (s : State) : saleOf (setSale s) = saleOf s := (setSale_alters s).saleOf_eq

theorem payoutTest_of_nothing_owed {s : State} (h : s.credit.returnDue = 0) : payoutTest s = s := by
  simp [payoutTest, h]

/-! ### The end of a step (R4, R5) -/

/-- After the sale state and the payout test, the end of a step takes only matters of the matrix and the line. -/
theorem finish_rest_alters {s : State} (h : s.phase = .run) :
    Alters (.column :: .probing :: choiceParts) (setSale (payoutTest (setSale s))) (finish s) := by
  unfold finish; rw [h]
  exact (kickMatrix_alters _).seq (lineChoose_alters _)

theorem finish_sale {s : State} (h : s.phase = .run) : (finish s).credit.sale = saleOf (finish s) := by
  have hf := finish_rest_alters h
  calc (finish s).credit.sale = saleOf (payoutTest (setSale s)) := hf .sale (by decide)
    _ = saleOf (setSale (payoutTest (setSale s))) := (saleOf_setSale _).symm
    _ = saleOf (finish s) := hf.saleOf_eq.symm

theorem finish_payout_of_nothing_owed {s : State} (h : s.phase = .run) (hd : s.credit.returnDue = 0) :
    (finish s).change.payout = s.change.payout := by
  have hf : (finish s).change.payout = (payoutTest (setSale s)).change.payout :=
    finish_rest_alters h .payout (by decide)
  rw [hf, payoutTest_of_nothing_owed (s := setSale s) hd, setSale_change]

/-! ### A request taken at once (R163) -/

section
variable (r : Request) (s : State)

@[simp] theorem received_credit : (received r s).credit = s.credit := by
  simp only [received, resetTag]; split_ifs <;> rfl
@[simp] theorem received_change : (received r s).change = s.change := by
  simp only [received, resetTag]; split_ifs <;> rfl
@[simp] theorem received_audit : (received r s).audit = s.audit := by
  simp only [received, resetTag]; split_ifs <;> rfl
@[simp] theorem received_sels : (received r s).sels = s.sels := by
  simp only [received, resetTag]; split_ifs <;> rfl
@[simp] theorem received_phase : (received r s).phase = s.phase := by
  simp only [received, resetTag]; split_ifs <;> rfl
@[simp] theorem received_lock_state : (received r s).lock.state = s.lock.state := by
  simp only [received, resetTag]; split_ifs <;> rfl

end

/-- The reply composed from what the owner answered, after the payout test. -/
def answered (r : Request) (x : Served) : State :=
  compose r (setSale (payoutTest (setSale x.1)), x.2.1, x.2.2)

theorem answered_alters (r : Request) (x : Served) :
    Alters [.sale, .payout, .grants, .staging, .marks] x.1 (answered r x) :=
  (((setSale_alters _).seq (rs := [.sale, .payout, .grants]) (payoutTest_alters _)).seq
    (rs := [.sale, .payout, .grants]) (setSale_alters _)).seq (compose_alters _ _)

theorem answered_payout_of_nothing_owed {r : Request} {x : Served} (hd : x.1.credit.returnDue = 0) :
    (answered r x).change.payout = x.1.change.payout := by
  have hc : (answered r x).change.payout = (payoutTest (setSale x.1)).change.payout :=
    compose_alters r (setSale (payoutTest (setSale x.1)), x.2.1, x.2.2) .payout (by decide)
  rw [hc, payoutTest_of_nothing_owed (s := setSale x.1) hd, setSale_change]

/-- With the lock OPEN or UNLOCKED a request reaches its owner. -/
theorem serve_of_unlocked (r : Request) {s : State} (hl : unlocked s) :
    serve r { s with link.assembling := false, link.detecting := false, link.waiting := none } =
      serveOwner r (received r s) := by
  have hgate : ¬(r.gated && (received r s).lock.state == .locked) = true := by
    rw [received_lock_state, Bool.and_eq_true, beq_iff_eq]
    exact fun h => hl h.2
  exact if_neg hgate

/-- A valid frame that finds the part ready is taken at once (R162, R163). -/
theorem frameValid_of_ready (r : Request) {s : State} (hs : Ready s) :
    frameValid r s = answered r
      (serve r { s with link.assembling := false, link.detecting := false, link.waiting := none }) := by
  have hfree : (s.running && s.link.answer.isNone) = true := by simp [State.running, hs.run, hs.answer]
  unfold frameValid restoreLink
  dsimp only
  rw [if_pos hs.up]
  simp only [hs.waiting]
  exact if_pos hfree

/-- The step of a request that passes the gate ends with its owner's answer. -/
theorem exec_of_owner {c : Instr} {r : Request} {s : State} (hr : requestOf c = some r) (hs : Ready s)
    (hl : unlocked s) : exec c s = .next (finish (answered r (serveOwner r (received r s)))) := by
  rw [exec_request hr, frameValid_of_ready r hs, serve_of_unlocked r hl]

/-- After a request its owner answered in normal operation, the sale state is that of the tests, and no payout has
started if nothing is owed (R4, R5). -/
theorem exec_of_owner_ends {c : Instr} {r : Request} {s t : State} (hr : requestOf c = some r) (hs : Ready s)
    (hl : unlocked s) {x : Served} (hx : serveOwner r (received r s) = x) (hrun : x.1.phase = .run)
    (ht : exec c s = .next t) :
    t.credit.sale = saleOf t ∧ (x.1.credit.returnDue = 0 → t.change.payout = x.1.change.payout) := by
  rw [exec_of_owner hr hs hl, hx] at ht
  cases ht
  have hphase : (answered r x).phase = x.1.phase := answered_alters r x .phase (by decide)
  have hrun' := hphase.trans hrun
  refine ⟨finish_sale hrun', fun howed => ?_⟩
  obtain ⟨-, -, -, hdue⟩ : Part.amounts.same x.1 (answered r x) := answered_alters r x .amounts (by decide)
  exact (finish_payout_of_nothing_owed hrun' (hdue.trans howed)).trans (answered_payout_of_nothing_owed howed)

/-- A gated request in LOCKED is refused (R163, R174). -/
theorem refuses_locked {c : Instr} {r : Request} {s : State} (hr : requestOf c = some r) (hs : Ready s)
    (hg : r.gated = true) (hl : s.lock.state = .locked) : Refuses c s (r.kind ||| 0x80) .locked [] := by
  obtain ⟨t, hexec, hreply, ht⟩ := takes_request c r s hr hs (refuse .locked (received r s))
    (if_pos (by simp [hg, hl])) ((received_phase r s).trans hs.run)
  exact ⟨t, hexec, hreply, (received_alters r s).seq ht, trivial⟩

/-- A request that its owner refuses outright changes nothing but what taking it does. -/
theorem refuses_of_owner {c : Instr} {r : Request} {s : State} (hr : requestOf c = some r) (hs : Ready s)
    (hl : unlocked s) {code : ReplyCode} (hx : serveOwner r (received r s) = refuse code (received r s)) :
    Refuses c s (r.kind ||| 0x80) code [] :=
  replies_of_owner hr hs (fun _ => hl) hx (.refl [.tag] _) (.inr (by decide)) (by decide) fun _ _ => trivial

/-- What is known of the state a command answers may be added to what is said of it. -/
theorem Replies.strengthen {c : Instr} {s : State} {kind : Nat} {outcome : ReplyCode} {payload : List Byte}
    {parts : List Part} {good good' : State → Prop} (h : Replies c s kind outcome payload parts good)
    (hg : ∀ t, exec c s = .next t → good t → good' t) : Replies c s kind outcome payload parts good' := by
  obtain ⟨t, hexec, hreply, hframe, ht⟩ := h
  exact ⟨t, hexec, hreply, hframe, hg t hexec ht⟩

/-! ### Clear Audit (R25) -/

theorem serveClearAudit_idle {s : State} (h : s.credit.sale = .idle) :
    serveClearAudit s = doneWith (clearAudit s) := if_pos h
theorem serveClearAudit_busy {s : State} (h : s.credit.sale ≠ .idle) :
    serveClearAudit s = refuse .busy s := if_neg h

theorem clearAudit_alters (s : State) : Alters [.audit, .sels] s (clearAudit s) := by
  intro p hp; cases p <;> simp_all [Part.same, clearAudit]

theorem sel_of_sales_cleared {s t : State} (h : t.sels = s.sels.map fun k => { k with sales := 0 }) (i : Nat) :
    t.sel i = { s.sel i with sales := 0 } := by
  simp only [State.sel, h]
  exact (List.getD_map (n := i) s.sels SelKept.default (f := fun k => { k with sales := 0 }))

/-- In a lawful state of normal operation the sale state is IDLE only when nothing is held or owed (R1, R4, R7). -/
theorem CreditLaw.nothing_held {s : State} (h : CreditLaw s) (hrun : s.phase = .run) (hi : s.credit.sale = .idle) :
    s.credit.credit = 0 ∧ s.credit.vendHold = 0 ∧ s.credit.escrowReserve = 0 ∧ s.credit.returnDue = 0 := by
  obtain ⟨hvend, -, hcredit, hdue, hreserve⟩ := (saleOf_eq_idle_iff s).1 ((h.sale hrun).symm.trans hi)
  have hhold : s.credit.vendHold = 0 := by
    by_contra hne
    exact absurd (h.hold hne) (by simp [hvend])
  exact ⟨hcredit, hhold, hreserve, hdue⟩

theorem balanced_zero : balanced 0 0 0 Audit.zero := .inr rfl

/-- Clear Audit carried out in IDLE (R25). -/
theorem clearAudit_replies {s : State} (hs : Ready s) (hl : unlocked s) (hi : s.credit.sale = .idle) :
    Replies .clearAudit s 0xA9 .done [] [.tag, .audit, .sels] fun t =>
      t.audit = Audit.zero ∧ (∀ i, t.sel i = { s.sel i with sales := 0 }) ∧
      (CreditLaw s → t.credit.credit = 0 ∧ t.credit.vendHold = 0 ∧ t.credit.escrowReserve = 0 ∧
        t.credit.returnDue = 0 ∧ balanced 0 0 0 t.audit) ∧
      (retainedOf t).audit = Audit.zero ∧ ∀ n ∈ (retainedOf t).sales, n = 0 := by
  have hx : serveOwner .clearAudit (received .clearAudit s) = doneWith (clearAudit (received .clearAudit s)) :=
    serveClearAudit_idle (by simpa using hi)
  have hparts : Alters [.tag, .audit, .sels] (received .clearAudit s) (clearAudit (received .clearAudit s)) :=
    (clearAudit_alters _).mono
  refine replies_of_owner (r := .clearAudit) rfl hs (fun _ => hl) hx hparts (.inr (by decide)) (by decide) ?_
  intro t ht
  have haudit : t.audit = Audit.zero := ht .audit (by decide)
  have hsels : t.sels = s.sels.map fun k => { k with sales := 0 } := by
    rw [← received_sels .clearAudit s]; exact ht .sels (by decide)
  have hamounts : Part.amounts.same (received .clearAudit s) t := ht .amounts (by decide)
  obtain ⟨hcredit, hhold, hreserve, hdue⟩ := hamounts
  rw [received_credit] at hcredit hhold hreserve hdue
  refine ⟨haudit, sel_of_sales_cleared hsels, fun law => ?_, haudit, ?_⟩
  · obtain ⟨h1, h2, h3, h4⟩ := law.nothing_held hs.run hi
    exact ⟨hcredit.trans h1, hhold.trans h2, hreserve.trans h3, hdue.trans h4, haudit ▸ balanced_zero⟩
  · simp [retainedOf, hsels]

/-! ### The totals through Factory Clear (R25, R178) -/

/-- Every audit total and every sale counter is 0. -/
def TotalsZero (s : State) : Prop := s.audit = Audit.zero ∧ ∀ k ∈ s.sels, k.sales = 0

theorem TotalsZero.sales {s : State} (h : TotalsZero s) (i : Nat) : (s.sel i).sales = 0 := by
  unfold State.sel
  rw [List.getD_eq_getElem?_getD]
  cases hk : s.sels[i]? with
  | none => rfl
  | some k => exact h.2 k (List.mem_of_getElem? hk)

theorem totalsZero_clearAudit (s : State) : TotalsZero (clearAudit s) := ⟨rfl, by simp [clearAudit]⟩

theorem TotalsZero.alters {ps : List Part} {s t : State} (hz : TotalsZero s) (h : Alters ps s t)
    (ha : .audit ∉ ps := by decide) (hs : .sels ∉ ps := by decide) : TotalsZero t := by
  have haudit : t.audit = s.audit := h _ ha
  have hsels : t.sels = s.sels := h _ hs
  exact ⟨haudit.trans hz.1, hsels ▸ hz.2⟩

theorem TotalsZero.foldl {α : Type} {f : State → α → State} (hf : ∀ s a, TotalsZero s → TotalsZero (f s a)) :
    ∀ (l : List α) {s : State}, TotalsZero s → TotalsZero (l.foldl f s)
  | [], _, hz => hz
  | a :: l, s, hz => TotalsZero.foldl hf l (hf s a hz)

/-- Reconciling a tube whose condition has been set counts no money. -/
theorem totalsZero_reconcile {s : State} (hz : TotalsZero s) (n : Nat) (c : TubeCond) :
    TotalsZero (reconcile n (rawCond n c s)) :=
  (hz.alters (rawCond_alters n c s)).alters (reconcile_alters n _)

theorem totalsZero_applyTube {s : State} (hz : TotalsZero s) (n : Nat) (r : TubeRec) :
    TotalsZero (applyTube n r s) := by
  have hcorrect : ∀ u why old new, TotalsZero u → TotalsZero (raiseCorrected n why old new (rawCount n new u)) :=
    fun u why old new hu => (hu.alters (rawCount_alters n new u)).alters (raiseCorrected_alters n why old new _)
  unfold applyTube
  refine totalsZero_reconcile ?_ n _
  split
  · split
    · exact hcorrect _ _ _ _ hz
    · exact hz
  · exact hcorrect _ _ _ _ hz

theorem totalsZero_applyDefaultSels {s : State} (hz : TotalsZero s) : TotalsZero (applyDefaultSels s) := by
  obtain ⟨haudit, hsales⟩ := hz
  refine ⟨haudit, ?_⟩
  simpa [applyDefaultSels, probeAll] using hsales

/-- An escrow record that expires pays nothing into the totals (R21). -/
theorem totalsZero_expireEscrow {s : State} (hz : TotalsZero s) : TotalsZero (expireEscrow s) := by
  unfold expireEscrow
  split
  · exact hz
  · exact (((hz.alters (removeEscrow_alters s)).alters (raise_alters _ _ _ _)).alters (setSale_alters _)).alters
      (recomputeMasks_alters _)

theorem totalsZero_tellKindLost {s : State} (hz : TotalsZero s) (p : Option Periph) :
    TotalsZero (tellKindLost p s) := by
  unfold tellKindLost
  split
  · exact (totalsZero_expireEscrow hz).alters (recomputeNote_alters _)
  · exact hz.alters (recomputeMasks_alters s)
  · exact hz

theorem totalsZero_setSlotKind {s : State} (hz : TotalsZero s) (slot : Nat) (k : SlotKind) :
    TotalsZero (setSlotKind slot k s) := by
  have hdropped : ∀ u, TotalsZero u → TotalsZero (if k = .unused then
      roundIfDue (dropSlotPasses slot { u with line.list := u.line.list.filter (· != slot) }) else u) := by
    intro u hu
    split
    · have hlist : TotalsZero { u with line.list := u.line.list.filter (· != slot) } := hu
      exact (hlist.alters (dropSlotPasses_alters slot _)).alters (roundIfDue_alters _)
    · exact hu
  unfold setSlotKind
  split
  · exact hz
  · refine TotalsZero.alters (totalsZero_tellKindLost ?_ _) (tellKindTaken_alters _ _)
    refine TotalsZero.alters (TotalsZero.alters ?_ (moveMaskRec_alters _ _)) (moveMaskRec_alters _ _)
    refine hdropped _ (TotalsZero.alters ?_ (dropSlotCmds_alters slot _ _))
    exact hz

theorem totalsZero_applyDefaultTubes {s : State} (hz : TotalsZero s) : TotalsZero (applyDefaultTubes s) :=
  TotalsZero.foldl (fun _ n hu => totalsZero_applyTube hu n _) _ hz

theorem totalsZero_applyDefaultSlots {s : State} (hz : TotalsZero s) : TotalsZero (applyDefaultSlots s) :=
  TotalsZero.foldl (fun _ a hu => totalsZero_setSlotKind hu a _) _ hz

theorem totalsZero_applyPlainDefaults {s : State} (hz : TotalsZero s) : TotalsZero (applyPlainDefaults s) := hz

theorem totalsZero_restoreDefaults {s : State} (hz : TotalsZero s) : TotalsZero (restoreDefaults s) := by
  have hmoney : TotalsZero (defaultMoneyAndCoins s) := hz
  have hplain := totalsZero_applyPlainDefaults (totalsZero_applyDefaultSels (totalsZero_applyDefaultTubes hmoney))
  have hmasks := (hplain.alters (evalExact_alters _)).alters (recomputeMasks_alters _)
  exact totalsZero_applyDefaultSlots ((hmasks.alters (setTables_alters _ _)).alters (budgetChanged_alters _))

theorem totalsZero_clearTubes {s : State} (hz : TotalsZero s) : TotalsZero (clearTubes s) :=
  (TotalsZero.foldl (fun u n hu => totalsZero_reconcile (hu.alters (rawCount_alters n 0 u)) n .ok) _ hz).alters
    (afterTubes_alters _)

theorem totalsZero_factoryClear (s : State) : TotalsZero (factoryClear s) :=
  totalsZero_clearTubes (totalsZero_restoreDefaults (totalsZero_clearAudit (clearLock s)))

/-- Settles O38: the step's frame carries what Clear Audit zeroed to its end, and no later step of Factory Clear
counts money. -/
theorem clearAuditZeroesTotalsInIdle : Obligations.ClearAuditZeroesTotalsInIdle := by
  refine ⟨fun s hs => ⟨refuses_locked (r := .clearAudit) rfl hs rfl, fun hl =>
    ⟨clearAudit_replies hs hl, ?_⟩⟩, ?_⟩
  · intro hi
    exact refuses_of_owner (r := .clearAudit) rfl hs hl (serveClearAudit_busy (by simpa using hi))
  · intro s
    exact ⟨(totalsZero_factoryClear s).1, (totalsZero_factoryClear s).sales⟩

/-! ### Settle (R26) -/

/-- What Settle leaves in OPEN: nothing owed, the amount written off, the sale state tested. -/
def settled (s : State) : State :=
  setSale { s with credit.returnDue := 0, audit.writtenOff := addTotal s.audit.writtenOff s.credit.returnDue,
                   change.shortWait := false }

theorem serveSettle_opened {s : State} (h : s.credit.sale = .opened) :
    serveSettle s = (settled s, .done, word s.credit.returnDue) := if_pos h
theorem serveSettle_busy {s : State} (h : s.credit.sale ≠ .opened) : serveSettle s = refuse .busy s := if_neg h

theorem settled_alters {s : State} (h : s.credit.sale = .opened) :
    Alters [.tag, .amounts, .audit, .shortWait, .sale] s (settled s) := by
  simpa only [serveSettle_opened h] using (serveSettle_alters s).mono
    (qs := [.tag, .amounts, .audit, .shortWait, .sale])

theorem serveOwner_settle_opened {s : State} (ho : s.credit.sale = .opened) :
    serveOwner .settle (received .settle s) = (settled (received .settle s), .done, word s.credit.returnDue) := by
  rw [← received_credit .settle s]
  exact serveSettle_opened (by simpa using ho)

/-- Settle carried out in OPEN replies the amount owed and moves it to the total. -/
theorem settle_replies {s : State} (hs : Ready s) (hl : unlocked s) (ho : s.credit.sale = .opened) :
    Replies .settle s 0xAB .done (word s.credit.returnDue) [.tag, .amounts, .audit, .shortWait, .sale] fun t =>
      (t.credit.returnDue = 0 ∧ t.credit.credit = s.credit.credit ∧ t.credit.vendHold = s.credit.vendHold ∧
        t.credit.escrowReserve = s.credit.escrowReserve) ∧
      t.audit = { s.audit with writtenOff := addTotal s.audit.writtenOff s.credit.returnDue } ∧
      t.credit.inFlight = s.credit.inFlight := by
  refine replies_of_owner (r := .settle) rfl hs (fun _ => hl) (serveOwner_settle_opened ho)
    (settled_alters (by simpa using ho)) (.inr (by decide)) (by decide) ?_
  intro t ht
  obtain ⟨hcredit, hhold, hreserve, hdue⟩ : Part.amounts.same (settled (received .settle s)) t :=
    ht .amounts (by decide)
  have haudit : t.audit = (settled (received .settle s)).audit := ht .audit (by decide)
  have hvend : t.credit.inFlight = (settled (received .settle s)).credit.inFlight := ht .inFlight (by decide)
  simp [settled, hcredit, hhold, hreserve, hdue, haudit, hvend]

/-- The state after a Settle in OPEN: its sale state is that of the tests, and no payout has started. -/
theorem settle_ends {s t : State} (hs : Ready s) (hl : unlocked s) (ho : s.credit.sale = .opened)
    (h : exec .settle s = .next t) : t.credit.sale = saleOf t ∧ t.change.payout = s.change.payout := by
  obtain ⟨hsale, hpayout⟩ := exec_of_owner_ends (r := .settle) rfl hs hl (serveOwner_settle_opened ho)
    (by simpa [settled] using hs.run) h
  exact ⟨hsale, (hpayout rfl).trans (by simp [settled])⟩

/-- Settles O39: with nothing owed no payout starts at the end of the step, and the tests of R4 decide. -/
theorem settleWritesOffWhatIsOwed : Obligations.SettleWritesOffWhatIsOwed := by
  refine fun s hs => ⟨refuses_locked (r := .settle) rfl hs rfl, fun hl => ⟨fun ho => ?_, fun ho => ?_⟩⟩
  · refine (settle_replies hs hl ho).strengthen
      fun t hexec ⟨⟨hdue, hcredit, hhold, hreserve⟩, haudit, hvend⟩ => ?_
    obtain ⟨hsale, hpayout⟩ := settle_ends hs hl ho hexec
    refine ⟨hdue, hcredit, hhold, hreserve, haudit, hsale, fun law hc he => ?_⟩
    obtain ⟨hnone, hquiet⟩ := not_in_flight_of_saleOf_opened ((law.sale hs.run).symm.trans ho)
    rw [hsale, saleOf_eq_idle_iff]
    exact ⟨hvend.trans hnone, hpayout.trans hquiet, hcredit.trans hc, hdue, hreserve.trans he⟩
  · exact refuses_of_owner (r := .settle) rfl hs hl (serveSettle_busy (by simpa using ho))

end Sys2Proof.Machine
end

