-- ==== Sys2Proof/Proofs/StrayCoins.lean ====
section
/-! The stray coin (R47): which coins at the exit sensor are stray, where Status shows their count (R169, R188), and
that neither a start nor the retained image keeps it (R27, R122, R127). -/

namespace Sys2Proof.Machine

/-! ### The coin at the exit sensor (R46, R47) -/

theorem exec_coinAtExitSensor (s : State) :
    exec .coinAtExitSensor s = .next (finish (whenActive coinAtExit s)) := rfl

theorem whenActive_of_active {s : State} (f : State → State) (h : s.active = true) : whenActive f s = f s := if_pos h

/-- With no open window, whether no payout is in flight or its pulse has not begun, the coin is stray. -/
theorem coinAtExit_of_no_window {s : State} (h : ∀ p, s.change.payout = some p → p.pulsed = none) :
    coinAtExit s = { s with change.stray := upto16 s.change.stray 1 } := by
  unfold coinAtExit
  cases hp : s.change.payout with
  | none => rfl
  | some p => simp only [h p hp]; rfl

/-! ### The stray count in Status (R169, R188) -/

@[simp] theorem length_char (n : Nat) : (char n).length = 1 := rfl
@[simp] theorem length_word (n : Nat) : (word n).length = 2 := rfl
@[simp] theorem length_flag (b : Bool) : (flag b).length = 1 := rfl
@[simp] theorem length_escrowStatus (e : Option Escrow) : (escrowStatus e).length = 1 := by cases e <;> rfl
@[simp] theorem length_sensorStatus (x : TempSensor) : (sensorStatus x).length = 5 := by
  unfold sensorStatus
  cases x.temp <;> rfl
@[simp] theorem length_zoneStatus (z : ZoneState) : (zoneStatus z).length = 1 := rfl

@[simp] theorem length_moneyStatus (s : State) : (moneyStatus s).length = 12 := by simp [moneyStatus]
@[simp] theorem length_supplyStatus (s : State) : (supplyStatus s).length = 8 := by simp [supplyStatus]
@[simp] theorem length_serviceStatus (s : State) : (serviceStatus s).length = 2 := by simp [serviceStatus]
@[simp] theorem length_coldStatus (s : State) : (coldStatus s).length = 18 := by simp [coldStatus]

/-- The counts and conditions of the six tubes, which stand before the stray count in the tube group. -/
def tubeLevels (s : State) : List Byte :=
  (List.range 6).flatMap fun n => char (s.tube n).count ++ char (s.tube n).cond.code

theorem tubeStatus_eq (s : State) : tubeStatus s = tubeLevels s ++ word s.change.stray := rfl

@[simp] theorem length_tubeLevels (s : State) : (tubeLevels s).length = 12 := rfl

/-- The groups before the tube group have 40 characters, and the six tubes 12. -/
theorem statusPayload_stray (s : State) : ((statusPayload s).drop 52).take 2 = word s.change.stray := by
  have split : statusPayload s =
      (moneyStatus s ++ supplyStatus s ++ serviceStatus s ++ coldStatus s ++ tubeLevels s) ++
        (word s.change.stray ++ (lineStatus s ++ linkStatus s)) := by
    simp only [statusPayload, tubeStatus_eq, List.append_assoc]
  rw [split, List.drop_left' (by simp), List.take_left' (length_word _)]

/-! ### The stray count over a start and in the retained image (R122, R127) -/

theorem holdToCeiling_alters (s : State) :
    Alters [.amounts, .shortWait, .payout, .audit, .events] s (holdToCeiling s) :=
  .ite (.refl _ _) ((setAmount_alters _ s).seq (addReturnDue_alters _ _))

/-- Step 1 of a start takes the change unit as new, and the ceiling of step 2 leaves its stray count so. -/
theorem beginStart_stray (c : Cause) (s : State) : (beginStart c s).change.stray = 0 :=
  holdToCeiling_alters _ .stray (by decide)

theorem retainedOf_stray (s : State) (n : Nat) :
    retainedOf { s with change.stray := n } = retainedOf s := rfl

/-- Settles O52: with no open window the coin takes the stray branch, and the count is the change unit's alone. -/
theorem coinOutsideAnyWindowIsStray : Obligations.CoinOutsideAnyWindowIsStray := by
  refine ⟨fun s hactive hwindow => ?_, statusPayload_stray, beginStart_stray, retainedOf_stray⟩
  rw [exec_coinAtExitSensor, whenActive_of_active coinAtExit hactive, coinAtExit_of_no_window hwindow]

end Sys2Proof.Machine
end

