-- ==== Sys2Proof/Proofs/ConversionAndFilter.lean ====
section
/-! The temperature of a raw count (R93): the interpolation between two curve points with its bounds, and the good
sample that hands it to the filter of a good sensor (R91, R94). -/

namespace Sys2Proof.Machine

/-! ### Interpolation between two curve points (R93) -/

/-- The part of the rise from one curve point to the next that a count has passed, in 256ths (R93). -/
def passedRise (t : Tables) (c : Nat) : Int := (t.point (c / 256 + 1) - t.point (c / 256)) * (c % 256 : Nat)

theorem convert_eq (t : Tables) (c : Nat) :
    convert t c = max (-400) (min 800 (t.point (c / 256) + passedRise t c / 256)) := by
  have floor : Int.fdiv (passedRise t c) 256 = passedRise t c / 256 :=
    Int.fdiv_eq_ediv_of_nonneg _ (by decide)
  rw [← floor]
  rfl

/-- A product with a remainder of 256 lies between 0 and 255 times its other factor, on the side of its sign. -/
theorem mul_mod_bounds (d : Int) (c : Nat) :
    (0 ≤ d → 0 ≤ d * (c % 256 : Nat) ∧ d * (c % 256 : Nat) ≤ d * 255) ∧
    (d ≤ 0 → d * 255 ≤ d * (c % 256 : Nat) ∧ d * (c % 256 : Nat) ≤ 0) := by
  have nonneg : (0 : Int) ≤ (c % 256 : Nat) := by omega
  have le_255 : ((c % 256 : Nat) : Int) ≤ 255 := by omega
  exact ⟨fun up => ⟨mul_nonneg up nonneg, mul_le_mul_of_nonneg_left le_255 up⟩,
    fun down => ⟨mul_le_mul_of_nonpos_left le_255 down, mul_nonpos_of_nonpos_of_nonneg down nonneg⟩⟩

section
variable {t : Tables} {c : Nat} (hpoints : ∀ j ≤ 16, -400 ≤ t.point j ∧ t.point j ≤ 800) (hc : c < 4096)
include hpoints hc

theorem passedRise_bounds : -(1200 * 255) ≤ passedRise t c ∧ passedRise t c ≤ 1200 * 255 := by
  have this_point := hpoints (c / 256) (by omega)
  have next_point := hpoints (c / 256 + 1) (by omega)
  obtain ⟨rising, falling⟩ := mul_mod_bounds (t.point (c / 256 + 1) - t.point (c / 256)) c
  unfold passedRise
  omega

/-- Between two points of the range the interpolation stays between them, so the clamp changes nothing. -/
theorem convert_of_points_in_range : convert t c = t.point (c / 256) + passedRise t c / 256 := by
  have this_point := hpoints (c / 256) (by omega)
  have next_point := hpoints (c / 256 + 1) (by omega)
  obtain ⟨rising, falling⟩ := mul_mod_bounds (t.point (c / 256 + 1) - t.point (c / 256)) c
  rw [convert_eq]
  unfold passedRise
  omega

end

/-! ### A sensor's record under the operations of a sample (R91) -/

theorem Alters.sensor_eq {ps : List Part} {s t : State} (h : Alters ps s t) (k : Nat)
    (hs : .sensors ∉ ps := by decide) : t.sensor k = s.sensor k := by
  have hsensors : t.cold.sensors = s.cold.sensors := h .sensors hs
  simp only [State.sensor, hsensors]

theorem modSensor_sensor {k : Nat} {s : State} (hk : k < s.cold.sensors.length) (f : TempSensor → TempSensor) :
    (modSensor k f s).sensor k = f (s.sensor k) := by
  simp only [State.sensor, modSensor_cold, getD_updAt, hk, and_self, if_true]

theorem zoneSteps_sensor (z c : Nat) (first : Bool) (s : State) (k : Nat) :
    (zoneSteps z c first s).sensor k = s.sensor k := by
  have hthermostat : Alters [.zones, .damper, .compressor, .grants] s
      (if (s.sensor z).faulted then s else thermostat z s) := .ite (.refl _ _) (thermostat_alters z s)
  have hstart (u : State) : Alters [.zones] u (if first then startCheck z c u else u) :=
    .ite (startCheck_alters z c u) (.refl _ _)
  calc (zoneSteps z c first s).sensor k
      = State.sensor (if first then startCheck z c _ else _) k := (holdTick_alters z _).sensor_eq k
    _ = State.sensor (if (s.sensor z).faulted then s else thermostat z s) k := (hstart _).sensor_eq k
    _ = s.sensor k := hthermostat.sensor_eq k

/-- The steps after the sensor record's own leave it; before them at most the heater's time has grown (log 9). -/
theorem takeSample_sensor_of_goodSample {c : Nat} (hc : goodSample c = true) (k : Nat) (s : State) :
    ∃ u, Alters [.defrost] s u ∧ (takeSample k c s).sensor k =
      (goodTaken k c (modSensor k (fun r => { r with raw := c, sampled := true }) u)).sensor k := by
  refine ⟨if k = 2 then heaterTick s else s, .ite (heaterTick_alters s) (.refl _ _), ?_⟩
  simp only [takeSample, hc, if_true]
  split
  · exact ((defrostTests_alters _).trans (intervalTick_alters _)).sensor_eq k
  · exact zoneSteps_sensor k c _ _ k

/-! ### The filter of a good sensor (R94) -/

theorem filterStep_eq (d : Int) : filterStep d = if Int.tdiv d 8 ≠ 0 then Int.tdiv d 8 else Int.sign d := by
  unfold filterStep
  obtain hd | rfl | hd := lt_trichotomy d 0
  · simp [Int.sign_eq_neg_one_of_neg hd, hd, hd.not_gt]
  · rfl
  · simp [Int.sign_eq_one_of_pos hd, hd]

theorem after_of_good {x : TempSensor} {c : Nat} (hx : x.faulted = false) (hlow : 16 ≤ c) (hhigh : c ≤ 4079)
    (temp : Int) : x.after c temp =
      { x with raw := c, sampled := true, badRun := 0, temp := some (filtered x.temp temp) } := by
  simp only [TempSensor.after, hlow, hhigh, and_self, if_true, hx]
  cases x.temp with
  | none => rfl
  | some f => simp only [filtered, filterStep_eq]

theorem goodTaken_of_not_faulted {k : Nat} {s : State} (hx : (s.sensor k).faulted = false) (c : Nat) :
    goodTaken k c s = modSensor k (fun r => { r with temp := some (filtered r.temp (convert s.tables c)) })
      (modSensor k (fun r => { r with badRun := 0 }) s) := by
  unfold goodTaken
  exact if_neg (by simp [hx])

theorem goodTaken_sensor_of_not_faulted {k : Nat} {s : State} (hk : k < s.cold.sensors.length)
    (hx : (s.sensor k).faulted = false) (c : Nat) : (goodTaken k c s).sensor k =
      { s.sensor k with badRun := 0, temp := some (filtered (s.sensor k).temp (convert s.tables c)) } := by
  rw [goodTaken_of_not_faulted hx, modSensor_sensor (by simpa using hk), modSensor_sensor hk]

/-- A good sample hands its temperature to the filter of a sensor that is good (R91, R93, R94). -/
theorem takeSample_sensor_of_good {k c : Nat} {s : State} (hk : k < s.cold.sensors.length)
    (hx : (s.sensor k).faulted = false) (hlow : 16 ≤ c) (hhigh : c ≤ 4079) :
    (takeSample k c s).sensor k = (s.sensor k).after c (convert s.tables c) := by
  have hgood : goodSample c = true := by simp [goodSample, Config.goodLow, Config.goodHigh, hlow, hhigh]
  obtain ⟨u, hu, htaken⟩ := takeSample_sensor_of_goodSample hgood k s
  have hsensors : u.cold.sensors = s.cold.sensors := hu .sensors (by decide)
  have htables : u.tables = s.tables := hu .tables (by decide)
  have hku : k < u.cold.sensors.length := hsensors ▸ hk
  have hrecord := modSensor_sensor hku fun r => { r with raw := c, sampled := true }
  rw [hu.sensor_eq k] at hrecord
  rw [htaken, goodTaken_sensor_of_not_faulted (by simpa using hku) (by rw [hrecord]; exact hx), hrecord,
    modSensor_tables, htables, after_of_good hx hlow hhigh]

/-! ### The step of a sample -/

theorem exec_temperatureSample (q : Fin 3) (n : BitVec 12) (s : State) :
    exec (.temperatureSample q n) s = .next (finish (sample q n s)) := rfl

theorem sample_of_run {s : State} (h : s.phase = .run) (q : Fin 3) (n : BitVec 12) :
    sample q n s = takeSample q n.toNat s := by
  simp [sample, State.samplingOn, h]

/-- The end of a sample's step leaves the sensor records to the sample. -/
theorem finish_sample_sensor {s : State} (h : s.phase = .run) (q : Fin 3) (n : BitVec 12) (k : Nat) :
    (finish (sample q n s)).sensor k = (takeSample q n.toNat s).sensor k := by
  have hrun : (sample q n s).phase = .run := (sample_alters q n s .phase (by decide)).trans h
  rw [(finish_alters _ hrun).sensor_eq k, sample_of_run h]

/-- Settles O41: the interpolation stays between two points of the range, and the sample's other steps leave the
sensor's record to the filter. -/
theorem conversionInterpolatesTheCurve : Obligations.ConversionInterpolatesTheCurve := by
  intro t c hc
  dsimp only
  rw [← Nat.mod_def]
  have hle : 256 * (passedRise t c / 256) ≤ passedRise t c := Int.mul_ediv_self_le (by decide)
  have hlt : passedRise t c < 256 * (passedRise t c / 256 + 1) := by omega
  refine ⟨by omega, by omega, by omega, ⟨passedRise t c / 256, hle, hlt, convert_eq t c⟩,
    fun hpoints => ?_, fun q n s hn hrun hsensors ht hlow hhigh hgood => ?_⟩
  · obtain ⟨hmin, hmax⟩ := passedRise_bounds hpoints hc
    rw [convert_of_points_in_range hpoints hc, add_sub_cancel_left]
    exact ⟨hmin, hmax, hle, hlt⟩
  · subst hn ht
    have hafter : (finish (sample q n s)).sensor q = (s.sensor q).after n.toNat (convert s.tables n.toNat) :=
      (finish_sample_sensor hrun q n q).trans
        (takeSample_sensor_of_good (q.isLt.trans_eq hsensors.symm) hgood hlow hhigh)
    refine ⟨_, exec_temperatureSample q n s, hafter, fun hnone => ?_⟩
    rw [hafter, after_of_good hgood hlow hhigh, hnone]
    rfl

end Sys2Proof.Machine
end

