-- ==== Sys2Proof/Proofs/StepInvariants.lean ====
section
/-! How a law of the part is proved of every step: which commands have which effect before the end of the step, and the
induction principle `Kept.step`, which asks of each law only the operations that may change the parts it is about. -/

/- One lemma after another, to keep the memory of a compile small. -/
set_option Elab.async false

namespace Sys2Proof.Machine

/-- The parts a law is about lie apart from those an operation may change. -/
def Apart (L ps : List Part) : Prop := ∀ p ∈ L, p ∉ ps

theorem apart_iff (L ps : List Part) : (L.all fun p => !ps.contains p) = true ↔ Apart L ps := by
  simp [Apart]

/-- A law that reads the parts `L` alone. -/
def Reads (L : List Part) (P : State → Prop) : Prop := ∀ s t, (∀ p ∈ L, p.same s t) → P s → P t

theorem Reads.alters {L ps : List Part} {P : State → Prop} (hP : Reads L P) {s t : State} (h : Alters ps s t)
    (ha : Apart L ps) (hs : P s) : P t := hP s t (fun p hp => h p (ha p hp)) hs

/-- An operation keeps a law whose parts it may change: `P` holds before it and `Q` after it. -/
def KeptBy (L ps : List Part) (P Q : State → Prop) (f : State → State) : Prop :=
  ¬Apart L ps → ∀ s, s.active = true → P s → Q (f s)

theorem KeptBy.apply {L ps : List Part} {P Q : State → Prop} {f : State → State} (h : KeptBy L ps P Q f)
    (hQ : Reads L Q) (hPQ : ∀ s, P s → Q s) (hf : ∀ s, Alters ps s (f s)) {s : State} (ha : s.active = true)
    (hs : P s) : Q (f s) := by
  by_cases hap : Apart L ps
  · exact hQ.alters (hf s) hap (hPQ s hs)
  · exact h hap s ha hs

theorem phase_notMem_parts (r : Request) : Part.phase ∉ r.parts := by
  have happart : Apart [.phase] r.parts := by cases r <;> exact (apart_iff _ _).1 rfl
  exact happart _ (by decide)

/-- The parts that a start step 4 may change. -/
def reconcileParts : List Part := [.tubes, .shortWait, .payout, .events, .exact, .compressor, .phase]

/-- What contention may change. -/
def contendParts : List Part :=
  [.receiver, .trans, .slots, .cmdQueue, .lineCounts, .maskRecs, .passQueue, .events]

theorem contend_alters_parts (x : Trans) (s : State) : Alters contendParts s (contend x s) := by
  have hslot (u : State) : Alters [.slots] u (if x.stale then u else modSlot x.slot
      (fun r => { r with contention := satAdd Config.maxCount16 r.contention 1 }) u) :=
    .ite (.refl _ _) (modSlot_alters _ _ _)
  have hleft := (leaveTrans_alters false s).seq (rs := [.receiver, .trans, .slots]) (hslot _)
  unfold contend
  dsimp only
  split
  · exact hleft.mono
  · split
    · exact hleft.seq (contendCmd_alters _ _)
    · exact hleft.mono
  · exact hleft.seq (contendPass_alters _ _)

theorem countLinkNoisy_alters (n : Nat) (s : State) : Alters [.linkCounts] s (countLinkNoisy n s) := by
  intro p hp; cases p <;> simp_all [Part.same, countLinkNoisy]

theorem linkBreakSeen_alters (s : State) : Alters [.linkRate] s (linkBreakSeen s) := by
  unfold linkBreakSeen
  split <;> (intro p hp; cases p <;> simp_all [Part.same])

theorem detectRate_alters (low : Nat) (s : State) : Alters [.linkRate, .linkCounts] s (detectRate low s) := by
  unfold detectRate
  split
  · split <;> (intro p hp; cases p <;> simp_all [Part.same])
  · exact .refl _ _

theorem linkFraming_alters (s : State) : Alters [.linkRate, .linkCounts] s (linkFraming s) :=
  .ite (by intro p hp; cases p <;> simp_all [Part.same]) (.refl _ _)

theorem linkTruncated_alters (s : State) : Alters [.linkRate, .linkCounts] s (linkTruncated s) :=
  .ite (by intro p hp; cases p <;> simp_all [Part.same]) (.refl _ _)

theorem linkCrc_alters (s : State) : Alters [.linkRate, .linkCounts] s (linkCrc s) :=
  .ite (by intro p hp; cases p <;> simp_all [Part.same]) (.refl _ _)

/-- A law `P` of the part between steps, with the part `Q` of it that also holds within a step, before the sale state
is brought up to date (R4). `L` names the parts they read. Of an operation that changes none of those parts nothing is
asked. -/
structure Kept (L : List Part) (P Q : State → Prop) : Prop where
  before : Reads L P
  within : Reads L Q
  enter : ∀ s, P s → Q s
  leave : ∀ s, Q s → (s.phase = .run → s.credit.sale = saleOf s) → P s
  -- what every step may do
  setSale : ¬Apart L [.sale] → ∀ s, Q s → Q (setSale s) := by exact fun h => absurd ((apart_iff _ _).1 rfl) h
  payoutTest : ¬Apart L [.sale, .payout, .grants] → ∀ s, s.phase = .run → Q s → Q (payoutTest s) := by
    exact fun h => absurd ((apart_iff _ _).1 rfl) h
  kickMatrix : ¬Apart L [.column, .probing] → ∀ s, Q s → Q (kickMatrix s) := by
    exact fun h => absurd ((apart_iff _ _).1 rfl) h
  lineChoose : ¬Apart L choiceParts → ∀ s, Q s → Q (lineChoose s) := by
    exact fun h => absurd ((apart_iff _ _).1 rfl) h
  -- requests and the link
  raise : ¬Apart L [.events] → ∀ k x v s, P s → P (raise k x v s) := by
    exact fun h => absurd ((apart_iff _ _).1 rfl) h
  recomputeMasks : ¬Apart L maskParts → ∀ s, P s → P (recomputeMasks s) := by
    exact fun h => absurd ((apart_iff _ _).1 rfl) h
  resetTag : ¬Apart L [.tag, .marks] → ∀ s, P s → P (resetTag s) := by
    exact fun h => absurd ((apart_iff _ _).1 rfl) h
  endSession : ¬Apart L [.lockState, .tag, .marks] → ∀ s, P s → P (endSession s) := by
    exact fun h => absurd ((apart_iff _ _).1 rfl) h
  serveOwner : ∀ r, ¬Apart L r.parts → ∀ s, s.phase = .run → P s → Q (serveOwner r s).1
  link : Apart L [.linkRate, .linkCounts, .staging, .marks, .linkState, .seconds, .receiver, .trans, .ring, .lineCounts,
    .slots] := by exact (apart_iff _ _).1 rfl
  -- the Line Master
  endTrans : ∀ x o, KeptBy L lineParts P Q (endTrans x o) := by
    exact fun _ _ h => absurd ((apart_iff _ _).1 rfl) h
  contend : ∀ x, ¬Apart L contendParts → ∀ s, P s → Q (contend x s) := by
    exact fun _ h => absurd ((apart_iff _ _).1 rfl) h
  -- the Change Unit and the Credit Unit
  levelRead : ∀ n full c, KeptBy L [.tubes, .shortWait, .payout, .events, .exact, .coinMasks, .noteMask, .cmdQueue,
      .lineCounts, .maskRecs] Q Q (levelRead n full · c) := by
    exact fun _ _ _ h => absurd ((apart_iff _ _).1 rfl) h
  payoutGiven : KeptBy L moneyParts P Q payoutGiven := by exact fun h => absurd ((apart_iff _ _).1 rfl) h
  pulseEnds : KeptBy L [.payout] P Q pulseEnds := by exact fun h => absurd ((apart_iff _ _).1 rfl) h
  coinAtExit : KeptBy L payoutParts P Q coinAtExit := by exact fun h => absurd ((apart_iff _ _).1 rfl) h
  windowCloses : KeptBy L payoutParts P Q windowCloses := by exact fun h => absurd ((apart_iff _ _).1 rfl) h
  expireEscrow : KeptBy L (.escrow :: moneyParts) P Q expireEscrow := by
    exact fun h => absurd ((apart_iff _ _).1 rfl) h
  -- the Spiral Drive
  probeDone : ∀ b, KeptBy L serviceParts P Q (probeDone b) := by
    exact fun _ h => absurd ((apart_iff _ _).1 rfl) h
  motorGiven : KeptBy L spiralParts P Q motorGiven := by exact fun h => absurd ((apart_iff _ _).1 rfl) h
  motorStarts : ∀ b, KeptBy L [.vendOp, .rev, .row, .spirals] P Q (motorStarts b) := by
    exact fun _ h => absurd ((apart_iff _ _).1 rfl) h
  columnOpens : KeptBy L [.column] P Q columnOpens := by exact fun h => absurd ((apart_iff _ _).1 rfl) h
  switchLeaves : ∀ l, KeptBy L [.rev] P Q (switchLeaves l) := by
    exact fun _ h => absurd ((apart_iff _ _).1 rfl) h
  switchCloses : ∀ l n, KeptBy L spiralParts P Q (switchCloses l n) := by
    exact fun _ _ h => absurd ((apart_iff _ _).1 rfl) h
  leaveLimitPasses : KeptBy L spiralParts P Q leaveLimitPasses := by
    exact fun h => absurd ((apart_iff _ _).1 rfl) h
  revLimitPasses : KeptBy L spiralParts P Q revLimitPasses := by
    exact fun h => absurd ((apart_iff _ _).1 rfl) h
  currentJams : ∀ l, KeptBy L spiralParts P Q (currentJams l) := by
    exact fun _ h => absurd ((apart_iff _ _).1 rfl) h
  currentAt200 : ∀ n, KeptBy L spiralParts P Q (currentAt200 n) := by
    exact fun _ h => absurd ((apart_iff _ _).1 rfl) h
  watchBeam : ∀ l b, KeptBy L spiralParts P Q (watchBeam l b) := by
    exact fun _ _ h => absurd ((apart_iff _ _).1 rfl) h
  -- the Refrigeration Controller
  takeSample : ∀ k c, ¬Apart L sampleParts → ∀ s, s.samplingOn = true → P s → Q (takeSample k c s) := by
    exact fun _ _ h => absurd ((apart_iff _ _).1 rfl) h
  dutyPhase : ∀ z, KeptBy L [.zones, .damper, .compressor, .grants] P Q (dutyPhase z) := by
    exact fun _ h => absurd ((apart_iff _ _).1 rfl) h
  offTimerExpires : KeptBy L [.compressor, .grants] P Q offTimerExpires := by
    exact fun h => absurd ((apart_iff _ _).1 rfl) h
  compStartGiven : KeptBy L [.compressor] P Q compStartGiven := by
    exact fun h => absurd ((apart_iff _ _).1 rfl) h
  surgeEnds : KeptBy L [.compressor, .grants] P Q surgeEnds := by
    exact fun h => absurd ((apart_iff _ _).1 rfl) h
  minRunPasses : KeptBy L [.compressor, .grants] P Q minRunPasses := by
    exact fun h => absurd ((apart_iff _ _).1 rfl) h
  heaterGiven : KeptBy L [.defrost] P Q heaterGiven := by exact fun h => absurd ((apart_iff _ _).1 rfl) h
  dripEnds : KeptBy L [.compressor, .defrost, .grants] P Q dripEnds := by
    exact fun h => absurd ((apart_iff _ _).1 rfl) h
  -- the Service Lock
  doorReads : ∀ l, KeptBy L doorParts P Q (doorReads l) := by
    exact fun _ h => absurd ((apart_iff _ _).1 rfl) h
  lockoutExpires : KeptBy L [.lockout] P Q lockoutExpires := by
    exact fun h => absurd ((apart_iff _ _).1 rfl) h
  -- the supply, the store and the start
  reading : ¬Apart L [.supply] → ∀ s (x : Supply), x.state = s.supply.state ∨ s.active = false →
      x.granted = s.supply.granted → x.waiting = s.supply.waiting → Q s → Q { s with supply := x } := by
    exact fun h => absurd ((apart_iff _ _).1 rfl) h
  sagBegins : ¬Apart L [.supply, .grants, .compressor, .defrost, .events] → ∀ s v, s.supply.state = .normal → Q s →
      Q (budgetChanged (Machine.raise .supplySag none (val v) { s with supply.low := 0, supply.state := .sag })) := by
    exact fun h => absurd ((apart_iff _ _).1 rfl) h
  sagEnds : ¬Apart L [.supply, .grants, .compressor, .defrost, .events] → ∀ s v, s.supply.state = .sag → Q s →
      Q (budgetChanged
        (Machine.raise .supplyNormal none (val v) { s with supply.good := 0, supply.state := .normal })) := by
    exact fun h => absurd ((apart_iff _ _).1 rfl) h
  powerFail : ∀ w s x, Q s → Q (powerFail w { s with supply := x })
  failFast : ∀ s x, Q s → Q { stopAll { s with supply := x } with phase := .failWait }
  stillSaving : ¬Apart L [.phase] → ∀ w w' s, s.phase = .saving w → Q s → Q { s with phase := .saving w' } := by
    exact fun h => absurd ((apart_iff _ _).1 rfl) h
  saved : ¬Apart L [.phase] → ∀ w s, s.phase = .saving w → Q s → Q { s with phase := .failWait } := by
    exact fun h => absurd ((apart_iff _ _).1 rfl) h
  commitTables : ¬Apart L [.store] → ∀ s, Q s → Q (commitTables s) := by
    exact fun h => absurd ((apart_iff _ _).1 rfl) h
  commitRetained : ¬Apart L [.store] → ∀ s, Q s → Q (commitRetained s) := by
    exact fun h => absurd ((apart_iff _ _).1 rfl) h
  beginTableWrite : ¬Apart L [.store] → ∀ s, Q s → Q (beginTableWrite s) := by
    exact fun h => absurd ((apart_iff _ _).1 rfl) h
  beginRetainedWrite : ¬Apart L [.store] → ∀ s, Q s → Machine.saving s = true →
      Q (beginRetainedWrite s) := by
    exact fun h => absurd ((apart_iff _ _).1 rfl) h
  beginStart : ∀ c s, Q s → Q (beginStart c s)
  powerUp : ∀ s, Q s → Q (powerUp s)
  probing : ¬Apart L [.phase] → ∀ c s, s.phase = .restoring c → Q s → Q { s with phase := .probing c } := by
    exact fun h => absurd ((apart_iff _ _).1 rfl) h
  sampling : ¬Apart L reconcileParts → ∀ c s, s.phase = .probing c → Q s →
      Q { reconcileAll s with cold.offTimer := some (reconcileAll s).tables.refrig.minOffMs, cold.state := .lockedOff,
                              phase := .sampling c } := by
    exact fun h => absurd ((apart_iff _ _).1 rfl) h
  resetting : ¬Apart L [.phase] → ∀ c s, s.phase = .sampling c → Q s → Q { s with phase := .lineReset c } := by
    exact fun h => absurd ((apart_iff _ _).1 rfl) h
  complete : ¬Apart L [.phase, .events] → ∀ c s, s.phase = .lineReset c → Q s →
      Q (Machine.raise .start none (val c.code)
        { s with phase := .run, line.driver := false, line.idle := true, events := Events.initial }) := by
    exact fun h => absurd ((apart_iff _ _).1 rfl) h


/-! ### What commands do before the end of their step -/

theorem Alters.active_eq {ps : List Part} {s t : State} (h : Alters ps s t) (hp : .phase ∉ ps := by decide) :
    t.active = s.active := by
  have hphase : t.phase = s.phase := h _ hp
  simp only [State.active, hphase]

/-- What a counted reading leads to, by the supply state (R114). -/
def supplyDecides (v : Nat) (s : State) : State :=
  match s.supply.state with
  | .normal =>
    if 2 ≤ s.supply.fail then enterFail { s with supply.fail := 0, supply.state := .fail }
    else if 20 ≤ s.supply.low then
      budgetChanged (raise .supplySag none (val v) { s with supply.low := 0, supply.state := .sag })
    else s
  | .sag =>
    if 2 ≤ s.supply.fail then enterFail { s with supply.fail := 0, supply.state := .fail }
    else if 500 ≤ s.supply.good then
      budgetChanged (raise .supplyNormal none (val v) { s with supply.good := 0, supply.state := .normal })
    else s
  | .fail => if s.phase = .failWait ∧ 500 ≤ s.supply.good then waitEnds s else s

/-- A reading as the supply record counts it (R114). -/
def supplyCounts (v : Nat) (s : State) : State :=
  { s with supply.reading := v, supply.low := persist (v < 200) s.supply.low,
           supply.fail := persist (v < 170) s.supply.fail, supply.good := persist (210 ≤ v) s.supply.good }

theorem supplyRead_eq (s : State) (v : Nat) : supplyRead s v = supplyDecides v (supplyCounts v s) := rfl

/-- A command of the two serial paths. -/
def serial : Instr → Bool
  | .linkBreak _ | .rateDetection _ | .linkFramingError _ | .linkTruncatedFrame _ | .linkLengthAbove96 _
  | .linkFrameComplete _ | .linkLost | .replySent | .lineBreak _ | .lineFramingError _ | .lineTruncatedFrame _
  | .lineBadLengthOrAddress _ | .lineFrameComplete _ | .contention _ | .endOfRequest _ | .replyWindowClose | .lineIdle
  | .roundStart | .secondsCounterTick | .lineResetBreakEnd => true
  | _ => false

section
variable {L : List Part} {P Q : State → Prop} (K : Kept L P Q)
include K

theorem Kept.beforeOuter {s t : State} (h : Alters [.linkRate, .linkCounts, .staging, .marks, .linkState, .seconds,
    .receiver, .trans, .ring, .lineCounts, .slots] s t) (hs : P s) : P t := K.before.alters h K.link hs

theorem Kept.withinOuter {s t : State} (h : Alters [.linkRate, .linkCounts, .staging, .marks, .linkState, .seconds,
    .receiver, .trans, .ring, .lineCounts, .slots] s t) (hs : Q s) : Q t := K.within.alters h K.link hs

theorem Kept.op {ps : List Part} {f : State → State} (h : KeptBy L ps P Q f) (hf : ∀ s, Alters ps s (f s))
    {s : State} (hs : P s) : Q (whenActive f s) := by
  unfold whenActive
  split
  · exact h.apply K.within K.enter hf ‹_› hs
  · exact K.enter s hs

/-- An operation asked for no more than the parts it may change. -/
theorem Kept.withinBy {ps : List Part} {s t : State} (h : Alters ps s t) (hk : ¬Apart L ps → Q s → Q t) (hs : Q s) :
    Q t := by
  by_cases ha : Apart L ps
  · exact K.within.alters h ha hs
  · exact hk ha hs

theorem Kept.beforeBy {ps : List Part} {s t : State} (h : Alters ps s t) (hk : ¬Apart L ps → P s → P t) (hs : P s) :
    P t := by
  by_cases ha : Apart L ps
  · exact K.before.alters h ha hs
  · exact hk ha hs

theorem Kept.setSale_mem {s : State} (hs : Q s) : Q (Machine.setSale s) :=
  K.withinBy (setSale_alters s) (fun h => K.setSale h s) hs

theorem Kept.payoutTest_mem {s : State} (hrun : s.phase = .run) (hs : Q s) : Q (Machine.payoutTest s) :=
  K.withinBy (payoutTest_alters s) (fun h => K.payoutTest h s hrun) hs

theorem Kept.kickMatrix_mem {s : State} (hs : Q s) : Q (Machine.kickMatrix s) :=
  K.withinBy (kickMatrix_alters s) (fun h => K.kickMatrix h s) hs

theorem Kept.reading_mem {s : State} {x : Supply} (hx : x.state = s.supply.state ∨ s.active = false)
    (hg : x.granted = s.supply.granted) (hw : x.waiting = s.supply.waiting) (hs : Q s) : Q { s with supply := x } :=
  K.withinBy (ps := [.supply]) (by intro p hp; cases p <;> simp_all [Part.same])
    (fun h => K.reading h s x hx hg hw) hs

theorem Kept.phase_mem {s : State} {x : Phase} (hx : ¬Apart L [.phase] → Q s → Q { s with phase := x }) (hs : Q s) :
    Q { s with phase := x } :=
  K.withinBy (ps := [.phase]) (by intro p hp; cases p <;> simp_all [Part.same]) hx hs

/-! ### Requests (R163) -/

theorem Kept.serve {r : Request} {s : State} (hrun : s.phase = .run) (hs : P s) : Q (serve r s).1 := by
  obtain ⟨u, hu, hphase, hserve⟩ : ∃ u, P u ∧ u.phase = .run ∧ Machine.serve r s =
      if r.gated && u.lock.state == .locked then refuse .locked u else Machine.serveOwner r u := by
    refine ⟨if r.keepsTag then s else Machine.resetTag s, ?_, ?_, rfl⟩
    · split
      · exact hs
      · exact K.beforeBy (resetTag_alters s) (fun h => K.resetTag h s) hs
    · split
      · exact hrun
      · exact (resetTag_alters s .phase (by decide)).trans hrun
  rw [hserve]
  split
  · exact K.enter u hu
  · exact K.withinBy (serveOwner_alters r u) (fun h _ => K.serveOwner r h u hphase hu) (K.enter u hu)

theorem Kept.takeRequest {s : State} (hs : P s) : Q (takeRequest s) := by
  unfold Machine.takeRequest
  split
  · exact K.enter s hs
  next r _ =>
    split
    next hfree =>
      have hrun : s.phase = .run := by simp_all [State.running]
      have htaken : Q (Machine.serve r { s with link.waiting := none }).1 :=
        K.serve (s := { s with link.waiting := none }) hrun
          (K.beforeOuter (by intro p hp; cases p <;> simp_all [Part.same]) hs)
      have hserved : (Machine.serve r { s with link.waiting := none }).1.phase = .run :=
        (serve_alters r { s with link.waiting := none } .phase (by simp [phase_notMem_parts])).trans hrun
      exact K.withinOuter ((compose_alters _ _).mono)
        (K.setSale_mem (K.payoutTest_mem hserved (K.setSale_mem htaken)))
    next => exact K.enter s hs

theorem Kept.restoreLink {s : State} (hs : P s) : P (restoreLink s) := by
  unfold Machine.restoreLink
  split
  · exact hs
  · have hup : P { s with link.up := true } :=
      K.beforeOuter (by intro p hp; cases p <;> simp_all [Part.same]) hs
    exact K.beforeBy (recomputeMasks_alters _) (fun h => K.recomputeMasks h _)
      (K.beforeBy (raise_alters _ _ _ _) (fun h => K.raise h _ _ _ _) hup)

theorem Kept.frameValid {r : Request} {s : State} (hs : P s) : Q (frameValid r s) := by
  have hrestored : P (Machine.restoreLink { s with link.assembling := false, link.detecting := false }) :=
    K.restoreLink (K.beforeOuter (by intro p hp; cases p <;> simp_all [Part.same]) hs)
  unfold Machine.frameValid
  dsimp only
  split
  · exact K.withinOuter (by intro p hp; cases p <;> simp_all [Part.same]) (K.enter _ hrestored)
  · exact K.takeRequest (K.beforeOuter (by intro p hp; cases p <;> simp_all [Part.same]) hrestored)

theorem Kept.loseLink {s : State} (hs : P s) : P (loseLink s) := by
  unfold Machine.loseLink
  split
  · exact K.beforeBy (endSession_alters _) (fun h => K.endSession h _)
      (K.beforeBy (recomputeMasks_alters _) (fun h => K.recomputeMasks h _)
        (K.beforeOuter (by intro p hp; cases p <;> simp_all [Part.same]) hs))
  · exact hs

theorem Kept.linkFrameSeen {cs : List RxChar} {s : State} (hs : P s) : Q (linkFrameSeen cs s) := by
  have hcounted (n : Nat) : P (countLinkNoisy n s) := K.beforeOuter ((countLinkNoisy_alters n s).mono) hs
  have hdiscarded (u : State) (hu : P u) : Q (linkCrc u) ∧ Q (linkFraming u) :=
    ⟨K.withinOuter ((linkCrc_alters u).mono) (K.enter u hu),
      K.withinOuter ((linkFraming_alters u).mono) (K.enter u hu)⟩
  unfold Machine.linkFrameSeen
  split
  · split
    · unfold linkCutShort
      split
      · exact (hdiscarded _ (hcounted _)).1
      · exact (hdiscarded _ (hcounted _)).2
      · exact K.enter s hs
    · dsimp only
      split
      · exact K.frameValid (hcounted _)
      · exact (hdiscarded _ (hcounted _)).1
  · exact K.enter s hs

theorem Kept.replyDone {s : State} (hs : P s) : Q (replyDone s) := by
  have hanswered : P { s with link.answer := none } :=
    K.beforeOuter (by intro p hp; cases p <;> simp_all [Part.same]) hs
  unfold Machine.replyDone
  split
  · exact K.enter s hs
  · split
    · exact K.powerFail true { s with link.answer := none } s.supply (K.enter _ hanswered)
    · exact K.takeRequest hanswered

/-! ### The line receiver (R130 to R136) -/

theorem Kept.endTrans_mem {x : Trans} {o : TransEnd} {s : State} (ha : s.active = true) (hs : P s) :
    Q (Machine.endTrans x o s) := (K.endTrans x o).apply K.within K.enter (endTrans_alters x o) ha hs

theorem Kept.countNoisy {n : Nat} {s : State} (hs : P s) : P (countNoisy n s) :=
  K.beforeOuter ((countNoisy_alters n s).mono) hs

theorem Kept.discardFrame {s : State} (ha : s.active = true) (hs : P s) : Q (discardFrame s) := by
  have hends : P { s with line.assembling := false } :=
    K.beforeOuter (by intro p hp; cases p <;> simp_all [Part.same]) hs
  unfold Machine.discardFrame
  dsimp only
  split
  · exact K.endTrans_mem ha hends
  · exact K.withinOuter (by intro p hp; cases p <;> simp_all [Part.same]) (K.enter _ hs)

theorem Kept.lineBreakSeen {s : State} (ha : s.active = true) (hs : P s) : Q (lineBreakSeen s) := by
  unfold Machine.lineBreakSeen
  split
  · exact K.withinOuter ((unsolicitedBreak_alters s).mono) (K.enter s hs)
  · split
    · exact K.withinOuter ((unsolicitedBreak_alters _).mono) (K.discardFrame ha hs)
    · exact K.withinOuter (by intro p hp; cases p <;> simp_all [Part.same]) (K.enter s hs)

theorem Kept.lineFramingSeen {s : State} (ha : s.active = true) (hs : P s) : Q (lineFramingSeen s) := by
  have hcounted : P (countFraming s) := K.beforeOuter ((countFraming_alters s).mono) hs
  unfold Machine.lineFramingSeen
  dsimp only
  split
  · exact K.discardFrame ha hcounted
  · exact K.withinOuter ((lineLow_alters _).mono) (K.enter _ hcounted)

theorem Kept.strayChars {cs : List RxChar} {s : State} (ha : s.active = true) (hs : P s) : Q (strayChars cs s) := by
  unfold Machine.strayChars
  dsimp only
  split
  · exact K.enter s hs
  · split
    · exact K.lineFramingSeen (((countNoisy_alters _ s).active_eq).trans ha) (K.countNoisy hs)
    · exact K.withinOuter ((lineLow_alters _).mono) (K.enter _ (K.countNoisy hs))

theorem Kept.lineTruncatedSeen {s : State} (ha : s.active = true) (hs : P s) : Q (lineTruncatedSeen s) := by
  unfold Machine.lineTruncatedSeen
  split
  · exact K.discardFrame (((countTruncated_alters s).active_eq).trans ha)
      (K.beforeOuter ((countTruncated_alters s).mono) hs)
  · split
    · exact K.endTrans_mem ha hs
    · exact K.enter s hs

theorem Kept.lineBadHeaderSeen {s : State} (ha : s.active = true) (hs : P s) : Q (lineBadHeaderSeen s) := by
  unfold Machine.lineBadHeaderSeen
  split
  · exact K.discardFrame (((countCrc_alters s).active_eq).trans ha) (K.beforeOuter ((countCrc_alters s).mono) hs)
  · exact K.enter s hs

theorem Kept.lineFrameSeen {cs : List RxChar} {s : State} (ha : s.active = true) (hs : P s) :
    Q (lineFrameSeen cs s) := by
  have hnoisy (n : Nat) : (Machine.countNoisy n s).active = true := ((countNoisy_alters n s).active_eq).trans ha
  unfold Machine.lineFrameSeen
  split
  · split
    · unfold lineCutShort
      split
      · exact K.lineBadHeaderSeen (hnoisy _) (K.countNoisy hs)
      · exact K.lineFramingSeen (hnoisy _) (K.countNoisy hs)
      · exact K.enter s hs
    · dsimp only
      split
      · split
        · exact K.withinOuter (s := Machine.countNoisy (noisyCount cs) s)
            (by intro p hp; cases p <;> simp_all [Part.same]) (K.enter _ (K.countNoisy hs))
        · split
          · exact K.endTrans_mem (hnoisy _) (K.countNoisy hs)
          · exact K.endTrans_mem (hnoisy _) (K.countNoisy hs)
      · exact K.discardFrame (((countCrc_alters _).active_eq).trans (hnoisy _))
          (K.beforeOuter ((countCrc_alters _).mono) (K.countNoisy hs))
  · exact K.strayChars ha hs

theorem Kept.listening {f : State → State} (hf : ∀ s, s.active = true → P s → Q (f s)) {s : State} (hs : P s) :
    Q (whenListening f s) := by
  unfold whenListening
  split
  next h => exact hf s (by simp_all [Machine.listening]) hs
  next => exact K.enter s hs

theorem Kept.windowCloseSeen {s : State} (ha : s.active = true) (hs : P s) : Q (windowCloseSeen s) := by
  unfold Machine.windowCloseSeen
  split
  · split
    · exact K.endTrans_mem ha hs
    · exact K.enter s hs
  · exact K.enter s hs

theorem Kept.contentionSeen {n : Nat} {s : State} (hs : P s) : Q (contentionSeen n s) := by
  unfold Machine.contentionSeen
  split
  next x _ =>
    exact K.withinBy (contend_alters_parts x _) (fun h _ => K.contend x h _ (K.countNoisy hs))
      (K.enter _ (K.countNoisy hs))
  · exact K.enter s hs

theorem Kept.requestSent {n : Nat} {s : State} (hs : P s) : Q (requestSent n s) := by
  unfold Machine.requestSent
  split
  · exact K.withinOuter ((requestEnds_alters _).mono) (K.enter _ (K.countNoisy hs))
  · exact K.enter s hs

/-! ### The supply, the store and the start -/

theorem Kept.enterFail {s : State} {x : Supply} (hg : x.granted = s.supply.granted) (hw : x.waiting = s.supply.waiting)
    (hs : Q s) : Q (enterFail { s with supply := x }) := by
  unfold Machine.enterFail
  split
  next w hphase =>
    have hphase : s.phase = .saving w := hphase
    have hread : Q { s with supply := x } := K.reading_mem (.inr (by simp [State.active, hphase])) hg hw hs
    exact K.phase_mem (s := { s with supply := x }) (fun h => K.stillSaving h w false _ hphase) hread
  next hphase => exact K.reading_mem (.inr (by have : s.phase = .failWait := hphase; simp [State.active, this])) hg hw hs
  next => exact K.failFast s x hs
  next => exact K.powerFail false s x hs

theorem Kept.supplyDecides {s : State} (v : Nat) (hs : Q s) : Q (supplyDecides v s) := by
  have hshed (x : Supply) (k : EventKind) :
      Alters [.supply, .grants, .compressor, .defrost, .events] s
        (budgetChanged (Machine.raise k none (val v) { s with supply := x })) :=
    ((by intro p hp; cases p <;> simp_all [Part.same] : Alters [.supply, .grants] s { s with supply := x }).seq
      (rs := [.supply, .grants, .events]) (raise_alters _ _ _ _)).seq (budgetChanged_alters _)
  unfold Machine.supplyDecides
  split
  next hstate =>
    split_ifs
    · exact K.enterFail rfl rfl hs
    · exact K.withinBy (hshed _ _) (fun h => K.sagBegins h s v hstate) hs
    · exact hs
  next hstate =>
    split_ifs
    · exact K.enterFail rfl rfl hs
    · exact K.withinBy (hshed _ _) (fun h => K.sagEnds h s v hstate) hs
    · exact hs
  next =>
    split
    · exact K.beginStart _ _ hs
    · exact hs

theorem Kept.supplyRead {s : State} (v : Nat) (hs : Q s) : Q (supplyRead s v) := by
  rw [supplyRead_eq]
  exact K.supplyDecides v (K.reading_mem (.inl rfl) rfl rfl hs)

theorem Kept.supplyReads {l : List Nat} {s : State} (hs : Q s) : Q (supplyReads l s) := by
  unfold Machine.supplyReads
  induction l generalizing s with
  | nil => exact hs
  | cons v l ih => exact ih (K.supplyRead v hs)

theorem Kept.commitTables_mem {s : State} (hs : Q s) : Q (Machine.commitTables s) :=
  K.withinBy (commitTables_alters s) (fun h => K.commitTables h s) hs

theorem Kept.tableWriteDone {s : State} (hs : Q s) : Q (tableWriteDone s) := by
  have hcommitted := K.commitTables_mem hs
  unfold Machine.tableWriteDone
  dsimp only
  split
  · exact hs
  · split
    next h =>
      exact K.withinBy (ps := [.store]) (by intro p hp; cases p <;> simp_all [Part.same, Machine.beginRetainedWrite])
        (fun ha hq => K.beginRetainedWrite ha _ hq h) hcommitted
    next =>
      split
      · exact K.withinBy (beginTableWrite_alters _) (fun h => K.beginTableWrite h _) hcommitted
      · exact hcommitted

theorem Kept.retainedWriteDone {s : State} (hs : Q s) : Q (retainedWriteDone s) := by
  have hcommitted : Q (Machine.commitRetained s) :=
    K.withinBy (commitRetained_alters s) (fun h => K.commitRetained h s) hs
  unfold Machine.retainedWriteDone
  dsimp only
  split
  · exact hs
  · split
    · exact K.beginStart _ _ hcommitted
    next hphase =>
      have hwait := K.phase_mem (x := .failWait) (fun h => K.saved h false _ hphase) hcommitted
      split
      · exact K.beginStart _ _ hwait
      · exact hwait
    · exact hcommitted

theorem Kept.resetPulse {s : State} (hs : Q s) : Q (resetPulse s) := by
  unfold Machine.resetPulse
  split
  · exact hs
  · exact hs
  · exact K.beginStart _ _ hs
  · exact K.powerFail true s s.supply hs

theorem Kept.resetBreakEnds {s : State} (hs : P s) : Q (resetBreakEnds s) := by
  unfold Machine.resetBreakEnds
  split
  next c hphase =>
    unfold startComplete
    dsimp only
    have hcomplete : Q (Machine.raise .start none (val c.code)
        { s with phase := .run, line.driver := false, line.idle := true, events := Events.initial }) :=
      K.withinBy (ps := [.phase, .receiver, .events])
        ((by intro p hp; cases p <;> simp_all [Part.same] :
          Alters [.phase, .receiver, .events] s
            { s with phase := .run, line.driver := false, line.idle := true, events := Events.initial }).seq
          (raise_alters _ _ _ _)) (fun h => K.complete (fun ha => h fun p hp => by
            have h1 := ha p hp
            have h2 := K.link p hp
            simp_all) c s hphase) (K.enter s hs)
    have hsale := K.leave _ (K.setSale_mem hcomplete) fun _ => (saleOf_setSale _).symm
    exact K.takeRequest (K.beforeOuter ((beginRound_alters _).mono)
      (K.beforeBy (recomputeMasks_alters _) (fun h => K.recomputeMasks h _) hsale))
  next => exact K.enter s hs

/-! ### The end of every step -/

theorem Kept.settle {s : State} (hrun : s.phase = .run) (hs : Q s) : Q (settle s) :=
  K.withinBy (lineChoose_alters _) (fun h => K.lineChoose h _)
    (K.kickMatrix_mem (K.setSale_mem (K.payoutTest_mem (s := Machine.setSale s) hrun (K.setSale_mem hs))))

theorem Kept.advanceProbing {c : Cause} {s : State} (hphase : s.phase = .probing c) (hs : Q s) :
    Q (advanceProbing c s) := by
  unfold Machine.advanceProbing
  split
  · refine K.withinBy (ps := reconcileParts) ?_ (fun h => K.sampling h c s hphase) hs
    have hall : Alters [.tubes, .shortWait, .payout, .events, .exact] s (reconcileAll s) :=
      (Alters.foldl _ (fun s n => reconcile_alters n s) (List.range 6) s).seq (evalExactSilent_alters _)
    exact hall.seq (qs := [.compressor, .phase]) (by intro p hp; cases p <;> simp_all [Part.same])
  · exact hs

theorem Kept.finish {s : State} (hs : Q s) : P (finish s) := by
  by_cases hrun : s.phase = .run
  · refine K.leave _ ?_ fun _ => finish_sale hrun
    unfold Machine.finish
    rw [hrun]
    exact K.settle hrun hs
  · have hlater (t : State) (ht : Q t) (hphase : t.phase ≠ .run) : P t := K.leave t ht fun h => absurd h hphase
    have hadvance (c : Cause) (u : State) (hu : Q u) (hphase : u.phase = .probing c) :
        P (Machine.advanceProbing c (Machine.kickMatrix u)) := by
      have hkick : (Machine.kickMatrix u).phase = .probing c :=
        (kickMatrix_alters u .phase (by decide)).trans hphase
      refine hlater _ (K.advanceProbing hkick (K.kickMatrix_mem hu)) ?_
      unfold Machine.advanceProbing
      dsimp only
      split <;> simp_all
    unfold Machine.finish
    split
    next h => exact absurd h hrun
    next c h => exact hadvance c _ (K.phase_mem (fun ha => K.probing ha c s h) hs) rfl
    next c h => exact hadvance c s hs h
    next c h =>
      unfold advanceSampling
      split
      · refine hlater _ ?_ (by simp)
        exact K.withinOuter (s := { s with phase := .lineReset c }) (by intro p hp; cases p <;> simp_all [Part.same])
          (K.phase_mem (fun ha => K.resetting ha c s h) hs)
      · exact hlater s hs (by simp [h])
    · exact hlater s hs hrun
    · exact hlater s hs hrun
    · exact hlater s hs hrun

theorem Kept.finishSupply {s : State} (hs : Q s) : P (finishSupply s) := by
  unfold Machine.finishSupply
  split
  next h => exact K.leave s hs fun hrun => absurd hrun (by simp [h])
  next => exact K.finish hs

/-! ### The step -/

theorem Kept.levelReads {n : Nat} {full : Bool} {l : List Bool} {s : State} (ha : s.active = true) (hs : Q s) :
    Q (l.foldl (Machine.levelRead n full) s) := by
  induction l generalizing s with
  | nil => exact hs
  | cons c l ih =>
    exact ih (((levelRead_alters n full s c).active_eq).trans ha)
      ((K.levelRead n full c).apply K.within (fun _ h => h) (fun u => levelRead_alters n full u c) ha hs)

theorem Kept.sample {k : Fin 3} {c : BitVec 12} {s : State} (hs : P s) : Q (sample k c s) := by
  unfold Machine.sample
  split
  next h =>
    exact K.withinBy (takeSample_alters _ _ s) (fun ha _ => K.takeSample k.val c.toNat ha s h hs) (K.enter s hs)
  next => exact K.enter s hs

theorem Kept.sampleWhen {k : Fin 3} {c : BitVec 12} {f : State → State → Bool} {s : State} (hs : P s) :
    Q (sampleWhen k c f s) := by
  unfold Machine.sampleWhen
  dsimp only
  split
  · exact K.sample hs
  · exact K.enter s hs

/-- The link's receiver, whose counts and rate no law reads. -/
theorem Kept.linkOp {f : State → State} (hf : ∀ u, Alters [.linkRate, .linkCounts] u (f u)) {n : Nat} {s : State}
    (hs : P s) : Q (f (countLinkNoisy n s)) :=
  K.withinOuter (((countLinkNoisy_alters n s).seq (rs := [.linkRate, .linkCounts]) (hf _)).mono) (K.enter s hs)

/-- An operation of the Line Master on parts no law reads. -/
theorem Kept.lineOp {ps : List Part} {f : State → State} (hf : ∀ u, Alters ps u (f u))
    (hps : ∀ p ∈ ps, p ∈ [Part.receiver, .trans, .ring, .lineCounts, .slots]) {c : Bool} {s : State} (hs : P s) :
    Q (if c then f s else s) := by
  refine K.withinOuter (.ite ((hf s).mono fun p hp => ?_) (.refl _ _)) (K.enter s hs)
  have := hps p hp
  simp_all

theorem Kept.execSerial {c : Instr} {s t : State} (hc : serial c = true) (hs : P s) (h : exec c s = .next t) :
    P t := by
  cases c
  case linkBreak n => cases h; exact K.finish (K.linkOp (fun u => (linkBreakSeen_alters u).mono) hs)
  case rateDetection n =>
    cases h
    exact K.finish (K.withinOuter ((detectRate_alters n s).mono) (K.enter s hs))
  case linkFramingError n => cases h; exact K.finish (K.linkOp linkFraming_alters hs)
  case linkTruncatedFrame n => cases h; exact K.finish (K.linkOp linkTruncated_alters hs)
  case linkLengthAbove96 n => cases h; exact K.finish (K.linkOp linkCrc_alters hs)
  case linkFrameComplete cs => cases h; exact K.finish (K.linkFrameSeen hs)
  case linkLost => cases h; exact K.finish (K.enter _ (K.loseLink hs))
  case replySent => cases h; exact K.finish (K.replyDone hs)
  case lineBreak n =>
    cases h
    exact K.finish (K.listening (fun u ha hu => K.lineBreakSeen (((countNoisy_alters n u).active_eq).trans ha)
      (K.countNoisy hu)) hs)
  case lineFramingError n =>
    cases h
    exact K.finish (K.listening (fun u ha hu => K.lineFramingSeen (((countNoisy_alters n u).active_eq).trans ha)
      (K.countNoisy hu)) hs)
  case lineTruncatedFrame n =>
    cases h
    exact K.finish (K.listening (fun u ha hu => K.lineTruncatedSeen (((countNoisy_alters n u).active_eq).trans ha)
      (K.countNoisy hu)) hs)
  case lineBadLengthOrAddress n =>
    cases h
    exact K.finish (K.listening (fun u ha hu => K.lineBadHeaderSeen (((countNoisy_alters n u).active_eq).trans ha)
      (K.countNoisy hu)) hs)
  case lineFrameComplete cs =>
    cases h
    exact K.finish (K.listening (fun u ha hu => K.lineFrameSeen ha hu) hs)
  case contention n => cases h; exact K.finish (K.contentionSeen hs)
  case endOfRequest n => cases h; exact K.finish (K.requestSent hs)
  case replyWindowClose =>
    cases h
    refine K.finish ?_
    unfold whenActive
    split
    · exact K.windowCloseSeen ‹_› hs
    · exact K.enter s hs
  case lineIdle => cases h; exact K.finish (K.lineOp lineQuiet_alters (by decide) hs)
  case roundStart => cases h; exact K.finish (K.lineOp roundDue_alters (by decide) hs)
  case secondsCounterTick =>
    cases h
    exact K.finish (K.withinOuter (s := s) (t := { s with seconds := s.seconds + 1 })
      (by intro p hp; cases p <;> simp_all [Part.same]) (K.enter s hs))
  case lineResetBreakEnd => cases h; exact K.finish (K.resetBreakEnds hs)
  all_goals simp [serial] at hc

/-- Every command keeps the law. -/
theorem Kept.exec {c : Instr} {s t : State} (hs : P s) (h : exec c s = .next t) : P t := by
  by_cases hr : ∃ r, requestOf c = some r
  · obtain ⟨r, hr⟩ := hr
    rw [exec_request hr] at h
    cases h
    exact K.finish (K.frameValid hs)
  by_cases hc : serial c = true
  · exact K.execSerial hc hs h
  cases c
  case levelSensorChange n full l =>
    cases h
    refine K.finish ?_
    unfold whenActive
    split
    · exact K.levelReads ‹_› (K.enter s hs)
    · exact K.enter s hs
  case payoutGrant => cases h; exact K.finish (K.op K.payoutGiven payoutGiven_alters hs)
  case pulseEnd => cases h; exact K.finish (K.op K.pulseEnds pulseEnds_alters hs)
  case coinAtExitSensor => cases h; exact K.finish (K.op K.coinAtExit coinAtExit_alters hs)
  case exitWindowClose => cases h; exact K.finish (K.op K.windowCloses windowCloses_alters hs)
  case escrowUnresolved => cases h; exact K.finish (K.op K.expireEscrow expireEscrow_alters hs)
  case homeProbe l => cases h; exact K.finish (K.op (K.probeDone _) (probeDone_alters _) hs)
  case motorGrant => cases h; exact K.finish (K.op K.motorGiven motorGiven_alters hs)
  case motorStart b => cases h; exact K.finish (K.op (K.motorStarts b) (motorStarts_alters b) hs)
  case columnSwitchOpen => cases h; exact K.finish (K.op K.columnOpens columnOpens_alters hs)
  case homeSwitchLeave l => cases h; exact K.finish (K.op (K.switchLeaves l) (switchLeaves_alters l) hs)
  case homeSwitchClose l n => cases h; exact K.finish (K.op (K.switchCloses l n) (switchCloses_alters l n) hs)
  case leaveLimit => cases h; exact K.finish (K.op K.leaveLimitPasses leaveLimitPasses_alters hs)
  case revolutionLimit => cases h; exact K.finish (K.op K.revLimitPasses revLimitPasses_alters hs)
  case jam l => cases h; exact K.finish (K.op (K.currentJams l) (currentJams_alters l) hs)
  case openMotor n => cases h; exact K.finish (K.op (K.currentAt200 n) (currentAt200_alters n) hs)
  case drop l => cases h; exact K.finish (K.op (K.watchBeam l false) (watchBeam_alters l false) hs)
  case beamInterruptionEnd l => cases h; exact K.finish (K.op (K.watchBeam l false) (watchBeam_alters l false) hs)
  case dropWindowClose l => cases h; exact K.finish (K.op (K.watchBeam l true) (watchBeam_alters l true) hs)
  case temperatureSample k n => cases h; exact K.finish (K.sample hs)
  case sensorFault k n => cases h; exact K.finish (K.sampleWhen hs)
  case sensorOk k n => cases h; exact K.finish (K.sampleWhen hs)
  case zoneHold z n => cases h; exact K.finish (K.sampleWhen hs)
  case defrostInterval n => cases h; exact K.finish (K.sampleWhen hs)
  case defrostEnd n => cases h; exact K.finish (K.sampleWhen hs)
  case dutyCyclePhase z => cases h; exact K.finish (K.op (K.dutyPhase z.val) (dutyPhase_alters z.val) hs)
  case offTimerExpiry => cases h; exact K.finish (K.op K.offTimerExpires offTimerExpires_alters hs)
  case compStartGrant => cases h; exact K.finish (K.op K.compStartGiven compStartGiven_alters hs)
  case surgeWindowEnd => cases h; exact K.finish (K.op K.surgeEnds surgeEnds_alters hs)
  case minimumRunTime => cases h; exact K.finish (K.op K.minRunPasses minRunPasses_alters hs)
  case heaterGrant => cases h; exact K.finish (K.op K.heaterGiven heaterGiven_alters hs)
  case dripTimeEnd => cases h; exact K.finish (K.op K.dripEnds dripEnds_alters hs)
  case supplySag l => cases h; exact K.finishSupply (K.supplyReads (K.enter s hs))
  case supplyNormal l => cases h; exact K.finishSupply (K.supplyReads (K.enter s hs))
  case supplyFail l => cases h; exact K.finishSupply (K.supplyReads (K.enter s hs))
  case powerRestored l => cases h; exact K.finishSupply (K.supplyReads (K.enter s hs))
  case tableImageWriteDone => cases h; exact K.finish (K.tableWriteDone (K.enter s hs))
  case retainedImageWriteDone => cases h; exact K.finishSupply (K.retainedWriteDone (K.enter s hs))
  case logicPowerUp => cases h; exact K.finish (K.powerUp s (K.enter s hs))
  case reset => cases h; exact K.finishSupply (K.resetPulse (K.enter s hs))
  case serviceDoor l => cases h; exact K.finish (K.op (K.doorReads l) (doorReads_alters l) hs)
  case lockoutExpiry => cases h; exact K.finish (K.op K.lockoutExpires lockoutExpires_alters hs)
  all_goals first
    | exact absurd rfl hc
    | exact absurd ⟨_, rfl⟩ hr

/-- Every step keeps the law. -/
theorem Kept.step {s t : State} (hs : P s) (h : step s = .next t)
    (hqueue : Apart L [.pending] := by exact (apart_iff _ _).1 rfl) : P t := by
  unfold Machine.step at h
  split at h
  · cases h; exact hs
  next rest _ =>
    exact K.exec (K.before.alters (s := s) (t := { s with pending := rest })
      (by intro p hp; cases p <;> simp_all [Part.same]) hqueue hs) h

end

end Sys2Proof.Machine
end

