-- ==== Sys2Proof/Proofs/FactoryClearFrames.lean ====
section
/-! What each stage of Factory Clear may change (R178), and folds of operations that keep a law. -/

/- One lemma after another, to keep the memory of a compile small. -/
set_option Elab.async false

namespace Sys2Proof.Machine

/-- A law kept by each change of a fold is kept by the fold. -/
theorem keeps_foldl {σ α : Type} {P : σ → Prop} {f : σ → α → σ} (hf : ∀ s a, P s → P (f s a)) (l : List α) {s : σ}
    (hs : P s) : P (l.foldl f s) := by
  induction l generalizing s with
  | nil => exact hs
  | cons a l ih => exact ih (hf s a hs)

theorem clearLock_alters (s : State) :
    Alters [.code, .lockState, .lockout, .tag, .fill, .events] s (clearLock s) := by
  unfold clearLock
  refine Alters.seq (ps := [.code, .lockState, .lockout, .tag]) ?_ (endFill_alters _ _)
  intro p hp; cases p <;> simp_all [Part.same]

theorem defaultMoneyAndCoins_alters (s : State) : Alters [.tables] s (defaultMoneyAndCoins s) := setTables_alters _ s

theorem unpairCoin_alters (k n : Nat) (s : State) : Alters [.tables] s (unpairCoin k n s) := setTables_alters _ s

/-- What applying a tube record may change. -/
def tubeRecordParts : List Part := [.tables, .tubes, .shortWait, .payout, .events]

theorem applyTube_alters_parts (n : Nat) (r : TubeRec) (s : State) : Alters tubeRecordParts s (applyTube n r s) := by
  have hcorrect (u : State) (why : Correction) (old new : Nat) :
      Alters [.tubes, .shortWait, .events] u (raiseCorrected n why old new (rawCount n new u)) :=
    (rawCount_alters n new u).seq (raiseCorrected_alters n why old new _)
  have hreconciled (u : State) (c : TubeCond) : Alters [.tubes, .shortWait, .payout, .events] u
      (reconcile n (rawCond n c u)) := (rawCond_alters n c u).seq (reconcile_alters n _)
  have htables : Alters [.tables] s { s with tables.tubes := updAt s.tables.tubes n fun _ => r } :=
    setTables_alters _ s
  unfold applyTube
  dsimp only
  split
  · split
    · exact (htables.seq (rs := [.tables, .tubes, .shortWait, .events]) (hcorrect _ _ _ _)).seq (hreconciled _ _)
    · exact htables.seq (hreconciled _ _)
  · exact ((htables.trans (unpairCoin_alters _ _ _)).seq (rs := [.tables, .tubes, .shortWait, .events])
      (hcorrect _ _ _ _)).seq (hreconciled _ _)

theorem applyDefaultTubes_alters (s : State) : Alters tubeRecordParts s (applyDefaultTubes s) :=
  Alters.foldl _ (fun u n => applyTube_alters_parts n _ u) _ _

theorem applyDefaultSels_alters (s : State) : Alters [.tables, .sels, .spirals] s (applyDefaultSels s) := by
  intro p hp; cases p <;> simp_all [Part.same, applyDefaultSels, probeAll]

theorem applyPlainDefaults_alters (s : State) : Alters [.tables] s (applyPlainDefaults s) := setTables_alters _ s

theorem applyDefaultSlots_alters (s : State) : Alters slotKindParts s (applyDefaultSlots s) :=
  Alters.foldl _ (fun u a => setSlotKind_alters a _ u) _ _

/-- What the default tables of Factory Clear may change. -/
def defaultParts : List Part := .sels :: .spirals :: .compressor :: .defrost :: slotKindParts

theorem restoreDefaults_alters (s : State) : Alters defaultParts s (restoreDefaults s) := by
  have hplain : Alters defaultParts s
      (applyPlainDefaults (applyDefaultSels (applyDefaultTubes (defaultMoneyAndCoins s)))) :=
    (((defaultMoneyAndCoins_alters s).seq (rs := defaultParts) (applyDefaultTubes_alters _)).seq
      (rs := defaultParts) (applyDefaultSels_alters _)).seq (applyPlainDefaults_alters _)
  have hmasks := (hplain.seq (rs := defaultParts) (evalExact_alters _)).seq (rs := defaultParts)
    (recomputeMasks_alters _)
  exact ((hmasks.seq (rs := defaultParts) (setTables_alters _ _)).seq (rs := defaultParts)
    (budgetChanged_alters _)).seq (applyDefaultSlots_alters _)

/-- What clearing the tubes may change. -/
def clearTubeParts : List Part :=
  [.tubes, .shortWait, .payout, .events, .exact, .coinMasks, .noteMask, .cmdQueue, .lineCounts, .maskRecs]

theorem clearTube_alters (n : Nat) (s : State) : Alters [.tubes, .shortWait, .payout, .events] s (clearTube n s) :=
  ((rawCount_alters n 0 s).seq (rs := [.tubes, .shortWait, .payout]) (rawCond_alters n .ok _)).seq
    (reconcile_alters n _)

theorem clearTubes_alters (s : State) : Alters clearTubeParts s (clearTubes s) :=
  (Alters.foldl _ (fun u n => clearTube_alters n u) (List.range 6) s).seq (afterTubes_alters _)

theorem clearHolds_alters (s : State) : Alters [.zones] s (clearHolds s) := by
  intro p hp; cases p <;> simp_all [Part.same, clearHolds]

theorem clearStore_alters (s : State) : Alters [.storeDefaults, .store] s (clearStore s) := by
  intro p hp; cases p <;> simp_all [Part.same, clearStore]

/-- Factory Clear after its first step. -/
theorem factoryClear_alters_lock (s : State) :
    Alters (.zones :: .storeDefaults :: .store :: .audit :: defaultParts) (clearLock s) (factoryClear s) :=
  (((((clearAudit_alters (clearLock s)).seq (rs := .audit :: defaultParts) (restoreDefaults_alters _)).seq
    (rs := .audit :: defaultParts) (clearTubes_alters _)).seq (rs := .zones :: .audit :: defaultParts)
    (clearHolds_alters _)).seq (clearStore_alters _))

theorem applyTo_alters_parts (a : Action) (x : State × Nat × Nat) (i : Nat) :
    Alters [.tables, .sels, .spirals] x.1 (applyTo a x i).1 := by
  have hrefill (l : List Nat) (u : State) : Alters [.spirals] u (l.foldl (fun s p => refill p s) u) :=
    Alters.foldl _ (fun s p => modSpiral_alters p _ s) l u
  unfold applyTo
  cases a with
  | setPrice p => exact (setTables_alters _ _).mono
  | inhibit => exact (modSel_alters _ _ _).mono
  | enable =>
    dsimp only
    split
    · exact .refl _ _
    · exact (modSel_alters _ _ _).mono
  | restock =>
    dsimp only
    split
    · exact .refl _ _
    · exact (hrefill _ _).seq (modSel_alters _ _ _)

theorem applyAll_alters_parts (a : Action) (l : List Nat) (x : State × Nat × Nat) :
    Alters [.tables, .sels, .spirals] x.1 (l.foldl (applyTo a) x).1 := by
  induction l generalizing x with
  | nil => exact .refl _ _
  | cons i l ih => exact (applyTo_alters_parts a x i).trans (ih _)

theorem afterApply_alters (a : Action) (s : State) : Alters [.storeDefaults, .store] s (afterApply a s) := by
  cases a with
  | setPrice _ => exact tablesChanged_alters s
  | inhibit => exact .refl _ _
  | enable => exact .refl _ _
  | restock => exact .refl _ _

end Sys2Proof.Machine
end

