-- ==== Sys2Proof/Proofs/LockLaw.lean ====
section
/-! The lock law through every step (R174, R175, R179): the requests of the Service Lock, the door, the start and the
power-fail steps. -/

/- One lemma after another, to keep the memory of a compile small. -/
set_option Elab.async false

namespace Sys2Proof.Machine

/-- The parts the lock law reads. -/
def lockParts : List Part := [.code, .lockState, .lockout, .tag]

theorem lockLaw_reads : Reads lockParts LockLaw := by
  intro s t h ⟨hcode, hfail, hlockout, htag⟩
  have h1 : t.lock.code = s.lock.code := h .code (by decide)
  have h2 : t.lock.state = s.lock.state := h .lockState (by decide)
  obtain ⟨h3, h4⟩ : Part.lockout.same s t := h .lockout (by decide)
  have h5 : t.lock.tag = s.lock.tag := h .tag (by decide)
  exact ⟨by rw [h1, h2]; exact hcode, h3 ▸ hfail, by rw [h3, h4]; exact hlockout, by rw [h5]; exact htag⟩

theorem LockLaw.alters {ps : List Part} {s t : State} (hs : LockLaw s) (h : Alters ps s t)
    (ha : Apart lockParts ps := by exact (apart_iff _ _).1 rfl) : LockLaw t := lockLaw_reads.alters h ha hs

/-- A tag record with no list of untagged selections, or one of at most eight. -/
theorem LockLaw.setTag {s : State} (hs : LockLaw s) {x : TagRec}
    (hx : ∀ u first last off, x = .rangeSet u first last off → off.length ≤ 8) :
    LockLaw { s with lock.tag := x } := ⟨hs.1, hs.2.1, hs.2.2.1, hx⟩

theorem LockLaw.dropTag {s : State} (hs : LockLaw s) (c : ReplyCode) : LockLaw (dropTag c s).1 :=
  hs.setTag (by simp)

theorem LockLaw.resetTag {s : State} (hs : LockLaw s) : LockLaw (resetTag s) := by
  unfold Machine.resetTag
  split
  · exact hs
  · exact (hs.setTag (x := .empty) (by simp)).alters (ps := [.marks]) (by intro p hp; cases p <;> simp_all [Part.same])

theorem LockLaw.code_of_state {s : State} (hs : LockLaw s) {x : LockState} (hx : s.lock.state = x) (ho : x ≠ .opened) :
    s.lock.code ≠ none := fun h => ho (hx.symm.trans (hs.1.2 h))

theorem LockLaw.endSession {s : State} (hs : LockLaw s) : LockLaw (endSession s) := by
  unfold Machine.endSession
  split
  next h =>
    exact LockLaw.resetTag (s := { s with lock.state := .locked })
      ⟨by simpa using hs.code_of_state h (by decide), hs.2.1, hs.2.2.1, hs.2.2.2⟩
  next => exact hs

/-! ### The requests of the Service Lock -/

theorem LockLaw.countFailure {s : State} (hs : LockLaw s) (hl : s.lock.lockout = false) :
    LockLaw (countFailure s) := by
  unfold Machine.countFailure
  dsimp only
  split
  next h => exact ⟨hs.1, by simp only; omega, by simp [hl], hs.2.2.2⟩
  next => exact ⟨hs.1, le_refl 3, fun _ => rfl, hs.2.2.2⟩

theorem LockLaw.serveUnlock {s : State} (hs : LockLaw s) (c : CodeArg) : LockLaw (serveUnlock c s).1 := by
  unfold Machine.serveUnlock
  split
  · exact hs
  · exact hs
  next h =>
    split_ifs with hlockout
    · exact hs
    · exact ⟨by simpa [doneWith] using hs.code_of_state h (by decide), Nat.zero_le 3,
        by simp [doneWith, hlockout], hs.2.2.2⟩
    · exact hs.countFailure (by simpa using hlockout)

theorem LockLaw.setCode {s : State} (hs : LockLaw s) (ds : List Nat) (n : Nat) : LockLaw (setCode ds n s) := by
  refine ⟨?_, hs.2.1, hs.2.2.1, hs.2.2.2⟩
  unfold Machine.setCode
  dsimp only
  split <;> simp

theorem LockLaw.serveSetCode {s : State} (hs : LockLaw s) (old new : CodeArg) (n : Nat) :
    LockLaw (serveSetCode old new n s).1 := by
  unfold Machine.serveSetCode
  split
  · exact hs
  · split
    · exact hs
    · exact hs
    · split
      · split
        · exact hs.setCode _ _
        · exact hs
      · split
        · exact hs.setCode _ _
        · exact hs
      · exact hs

theorem LockLaw.serveClearCode {s : State} (hs : LockLaw s) (c : CodeArg) : LockLaw (serveClearCode c s).1 := by
  unfold Machine.serveClearCode
  split
  · exact hs
  · split
    · exact ⟨by simp [doneWith], hs.2.1, hs.2.2.1, hs.2.2.2⟩
    · exact hs
  · exact hs

/-- Step 1 of Factory Clear leaves no code, no lockout and no tag record; its other steps leave the lock alone. -/
theorem lockLaw_factoryClear (s : State) : LockLaw (factoryClear s) := by
  have hcleared : LockLaw (clearLock s) := by
    unfold clearLock
    refine LockLaw.alters ?_ (endFill_alters _ _)
    exact ⟨by simp, Nat.zero_le 3, by simp, by simp⟩
  exact hcleared.alters (factoryClear_alters_lock s)

theorem LockLaw.serveFactoryClear {s : State} (hs : LockLaw s) : LockLaw (serveFactoryClear s).1 := by
  unfold Machine.serveFactoryClear
  split_ifs
  · exact hs
  · exact hs
  · exact hs
  · exact lockLaw_factoryClear s

theorem LockLaw.serveTagFirst {s : State} (hs : LockLaw s) (u v : Nat) : LockLaw (serveTagFirst u v s).1 := by
  unfold Machine.serveTagFirst
  split
  · exact hs.dropTag _
  · split
    · exact hs.setTag (by simp)
    · exact hs.dropTag _
    · exact hs.dropTag _

theorem LockLaw.serveTagLast {s : State} (hs : LockLaw s) (u v : Nat) : LockLaw (serveTagLast u v s).1 := by
  unfold Machine.serveTagLast
  split
  · exact hs.dropTag _
  · split
    · split
      · exact hs.setTag (by simp +contextual)
      · exact hs.dropTag _
    · exact hs.dropTag _
    · exact hs.dropTag _

/-- Untag adds to a list of fewer than eight. -/
theorem LockLaw.serveUntag {s : State} (hs : LockLaw s) (c : Nat) : LockLaw (serveUntag c s).1 := by
  unfold Machine.serveUntag
  split
  · exact hs.dropTag _
  · split
    · split_ifs
      · exact hs.dropTag _
      · exact hs
      · refine hs.setTag fun u first last off h => ?_
        cases h
        simp only [List.length_append, List.length_singleton]
        omega
      · exact hs.dropTag _
    · exact hs.dropTag _
    · exact hs.dropTag _

theorem LockLaw.serveApply {s : State} (hs : LockLaw s) (c n : Nat) : LockLaw (serveApply c n s).1 := by
  unfold Machine.serveApply
  split
  · exact hs.dropTag _
  next a _ =>
    unfold applyAction
    split
    · dsimp only
      split
      · exact hs
      · exact ((hs.alters (applyAll_alters_parts a _ (s, 0, 0))).setTag (x := .empty) (by simp)).alters
          (afterApply_alters a _)
    · exact hs.dropTag _
    · exact hs.dropTag _

theorem LockLaw.serveOwner {s : State} (hs : LockLaw s) (r : Request) (h : ¬Apart lockParts r.parts) :
    LockLaw (serveOwner r s).1 := by
  cases r
  case unlock c => exact hs.serveUnlock c
  case lock =>
    show LockLaw (serveLock s).1
    unfold serveLock
    split
    · exact hs.endSession
    · exact hs
    · exact hs
  case setCode old new n => exact hs.serveSetCode old new n
  case clearCode c => exact hs.serveClearCode c
  case factoryClear => exact hs.serveFactoryClear
  case tagFirst u v => exact hs.serveTagFirst u v
  case tagLast u v => exact hs.serveTagLast u v
  case untag c => exact hs.serveUntag c
  case apply c n => exact hs.serveApply c n
  all_goals exact absurd ((apart_iff _ _).1 rfl) h

/-! ### The door, the power-fail steps and the start -/

theorem LockLaw.doorReads {s : State} (hs : LockLaw s) (l : List Bool) : LockLaw (doorReads l s) := by
  have hread : LockLaw { s with lock.door := (s.lock.door.readUntil 5 l).1 } := hs
  unfold Machine.doorReads
  dsimp only
  split
  · unfold doorChanged
    dsimp only
    split
    · exact (hread.alters (raise_alters _ _ _ _)).alters (endEconomy_alters _ _)
    · exact (((hread.alters (raise_alters _ _ _ _)).endSession).alters (endFill_alters _ _)).alters
        (recomputeMasks_alters _)
  · exact hread

theorem endOperations_lock (s : State) : (endOperations s).lock = s.lock := by
  unfold endOperations interruptVend failVend
  dsimp only [setSale_lock]
  split
  · rfl
  · split <;> rfl

theorem stopAll_lock (s : State) : (stopAll s).lock = s.lock := endOperations_lock _

theorem powerFail_lock (w : Bool) (s : State) : (powerFail w s).lock = s.lock := by
  unfold powerFail
  dsimp only
  split
  · exact stopAll_lock s
  · exact stopAll_lock s

/-- A start takes the code from the retained image, and is LOCKED just when there is one. -/
theorem lockLaw_beginStart (c : Cause) (s : State) : LockLaw (beginStart c s) := by
  unfold beginStart
  refine LockLaw.alters (LockLaw.alters ?_ (holdToCeiling_alters _)) (setSale_alters _)
  show LockLaw { s with lock := startLock _ }
  unfold startLock
  split
  · exact ⟨by simp [ServiceLock.initial], by simp [ServiceLock.initial], by simp [ServiceLock.initial],
      by simp [ServiceLock.initial]⟩
  · split
    · exact ⟨by simp [ServiceLock.initial], by simp [ServiceLock.initial], by simp [ServiceLock.initial],
        by simp [ServiceLock.initial]⟩
    · exact ⟨by simp, by simp [ServiceLock.initial], by simp [ServiceLock.initial], by simp [ServiceLock.initial]⟩

theorem lockLaw_kept : Kept lockParts LockLaw LockLaw where
  before := lockLaw_reads
  within := lockLaw_reads
  enter _ h := h
  leave _ h _ := h
  resetTag _ _ h := h.resetTag
  endSession _ _ h := h.endSession
  serveOwner r hr _ _ h := h.serveOwner r hr
  doorReads l _ _ _ h := h.doorReads l
  lockoutExpires _ s _ h := by
    unfold lockoutExpires
    split
    · exact ⟨h.1, Nat.zero_le 3, by simp, h.2.2.2⟩
    · exact h
  powerFail w s x h := by
    have hlock := powerFail_lock w { s with supply := x }
    unfold LockLaw
    rw [hlock]
    exact h
  failFast s x h := by
    have hlock : ({ stopAll { s with supply := x } with phase := .failWait } : State).lock = s.lock :=
      stopAll_lock { s with supply := x }
    unfold LockLaw
    rw [hlock]
    exact h
  beginStart c s _ := lockLaw_beginStart c s
  powerUp s _ := ⟨by simp [powerUp, State.reset, ServiceLock.initial], Nat.zero_le 3,
    by simp [powerUp, State.reset, ServiceLock.initial], by simp [powerUp, State.reset, ServiceLock.initial]⟩

/-- Settles O6: the requests of the Service Lock, a start and a Factory Clear keep the lock law, and no other operation
reads or changes the lock's code, state, failures or tag record. -/
theorem lockStaysConsistent : Obligations.LockStaysConsistent := fun _ _ hs h => lockLaw_kept.step hs h

end Sys2Proof.Machine
end

