-- ==== Sys2Proof/Proofs/PowerFailFrames.lean ====
section
/-! What the power-fail steps may change (R121), and the images of the store through its operations (R123). -/

/- One lemma after another, to keep the memory of a compile small. -/
set_option Elab.async false

namespace Sys2Proof.Machine

/-- What steps 1 and 2 of the power-fail sequence may change. -/
def stopParts : List Part :=
  [.compressor, .defrost, .damper, .grants, .receiver, .trans, .cmdQueue, .passQueue, .ring, .staging, .linkRate,
   .pendingReturn, .amounts, .inFlight, .events, .spirals, .vendOp, .serviceOp, .rev, .column, .row, .probing, .payout,
   .escrow, .sale]

theorem outputsOff_alters (s : State) :
    Alters [.compressor, .defrost, .damper, .grants, .receiver, .trans, .cmdQueue, .passQueue, .ring, .staging,
      .linkRate] s (outputsOff s) := by
  intro p hp; cases p <;> simp_all [Part.same, outputsOff]

theorem failVend_alters_parts (i : Nat) (w : VendFailure) (s : State) :
    Alters [.amounts, .inFlight, .events] s (failVend i w s) := by
  unfold failVend
  split
  · exact .refl _ _
  · intro p hp; cases p <;> simp_all [Part.same]

theorem interruptVend_alters (s : State) :
    Alters [.pendingReturn, .amounts, .inFlight, .events] s (interruptVend s) := by
  have hmark : Alters [.pendingReturn] s { s with credit.pendingReturn := false } := by
    intro p hp; cases p <;> simp_all [Part.same]
  unfold interruptVend
  dsimp only
  split
  · exact hmark.mono
  · exact hmark.seq (failVend_alters_parts _ _ _)

theorem endOperations_alters (s : State) :
    Alters [.pendingReturn, .amounts, .inFlight, .events, .spirals, .vendOp, .serviceOp, .rev, .column, .row, .probing,
      .payout, .escrow, .sale] s (endOperations s) := by
  have hends (u : State) (x : List SpiralRec) : Alters [.spirals, .vendOp, .serviceOp, .rev, .column, .row, .probing,
      .payout, .escrow, .amounts] u
      { u with spirals := x, drive := Drive.initial, change.payout := none, credit.escrow := none,
               credit.escrowReserve := 0 } := by
    intro p hp; cases p <;> simp_all [Part.same]
  unfold endOperations
  exact ((interruptVend_alters s).seq (rs := [.pendingReturn, .amounts, .inFlight, .events, .spirals, .vendOp,
    .serviceOp, .rev, .column, .row, .probing, .payout, .escrow]) (hends _ _)).seq (setSale_alters _)

theorem stopAll_alters (s : State) : Alters stopParts s (stopAll s) :=
  (outputsOff_alters s).seq (endOperations_alters _)

theorem beginRetainedWrite_alters (s : State) : Alters [.store] s (beginRetainedWrite s) := setStore_alters _ s

/-- What the power-fail sequence may change in the step that begins it. -/
def failParts : List Part := .phase :: .store :: stopParts

theorem powerFail_alters (w : Bool) (s : State) : Alters failParts s (powerFail w s) := by
  have hsaving : Alters failParts s { stopAll s with phase := .saving w, store.tableWaiting := false } := by
    refine (stopAll_alters s).seq (qs := [.phase, .store]) ?_
    intro p hp; cases p <;> simp_all [Part.same]
  unfold powerFail
  dsimp only
  split
  · exact hsaving
  · exact hsaving.seq (beginRetainedWrite_alters _)

theorem setSupply_alters (x : Supply) (s : State) : Alters [.supply, .grants] s { s with supply := x } := by
  intro p hp; cases p <;> simp_all [Part.same]

theorem setPhase_alters (x : Phase) (s : State) : Alters [.phase] s { s with phase := x } := by
  intro p hp; cases p <;> simp_all [Part.same]

/-- The power-fail sequence begun with any supply record. -/
theorem powerFail_supply_alters (w : Bool) (x : Supply) (s : State) :
    Alters (.supply :: failParts) s (powerFail w { s with supply := x }) :=
  (setSupply_alters x s).seq (powerFail_alters w _)

theorem stopAll_supply_alters (x : Supply) (s : State) :
    Alters (.supply :: .phase :: stopParts) s { stopAll { s with supply := x } with phase := .failWait } :=
  ((setSupply_alters x s).seq (rs := .supply :: stopParts) (stopAll_alters _)).seq (setPhase_alters _ _)

theorem setTables_store (s : State) (x : Tables) : ({ s with tables := x } : State).store = s.store := rfl

/-! ### The images of the store -/

theorem tableImages_powerFail (w : Bool) (s : State) :
    (powerFail w s).store.tableImages = s.store.tableImages := by
  have hstop : (stopAll s).store = s.store := stopAll_alters s .store (by decide)
  unfold powerFail
  dsimp only
  split
  · simp only [Store.tableImages, hstop]
  · simp only [Store.tableImages, beginRetainedWrite, hstop]

theorem tableImages_commitTables (s : State) :
    ∀ t ∈ (commitTables s).store.tableImages, t ∈ s.store.tableImages := by
  intro t ht
  unfold commitTables at ht
  split at ht
  · exact ht
  next w hw =>
    simp only [Store.tableImages, hw, List.mem_append, Option.mem_toList]
    split at ht <;> simp only [Store.tableImages, Option.map_some, Option.map_none, Option.toList_none,
      List.append_nil, List.mem_append, Option.mem_toList] at ht
    · rcases ht with ht | ht
      · exact .inr ht
      · exact .inl (.inr ht)
    · rcases ht with ht | ht
      · exact .inl (.inl ht)
      · exact .inr ht

theorem tableImages_commitRetained (s : State) : (commitRetained s).store.tableImages = s.store.tableImages := by
  unfold commitRetained
  split
  · rfl
  · split <;> rfl

theorem tableImages_beginTableWrite (s : State) :
    ∀ t ∈ (beginTableWrite s).store.tableImages, t = s.tables ∨ t ∈ s.store.tableImages := by
  intro t ht
  simp only [beginTableWrite, Store.tableImages, Option.map_some, nextWrite_contents, List.mem_append,
    Option.mem_toList] at ht ⊢
  rcases ht with ht | ht
  · exact .inr (.inl ht)
  · exact .inl (Option.some.inj ht).symm

theorem tableImages_askTableWrite (s : State) :
    ∀ t ∈ (askTableWrite s).store.tableImages, t = s.tables ∨ t ∈ s.store.tableImages := by
  unfold askTableWrite
  split
  · exact fun t ht => .inr ht
  · exact tableImages_beginTableWrite s

theorem tableImages_tablesChanged (s : State) :
    ∀ t ∈ (tablesChanged s).store.tableImages, t = s.tables ∨ t ∈ s.store.tableImages :=
  tableImages_askTableWrite { s with storeDefaults := false }

theorem tableImages_cutWrites (x : Store) : ∀ t ∈ (cutWrites x).tableImages, t ∈ x.tableImages := by
  intro t ht
  unfold cutWrites at ht
  simp only [Store.tableImages, Option.map_none, Option.toList_none, List.append_nil, List.mem_append,
    Option.mem_toList] at ht ⊢
  split at ht <;> split at ht <;> (try split at ht) <;> (try split at ht) <;> simp_all

theorem tableImages_clearStore (s : State) : (clearStore s).store.tableImages = [] := rfl

/-- The newer valid copy is one that stands. -/
theorem latest_mem {α : Type} {a b : Option (StoreCopy α)} {x : α} (h : latest a b = some x) :
    x ∈ (a.map (·.contents)).toList ++ (b.map (·.contents)).toList := by
  unfold latest at h
  split at h <;> simp_all

theorem tableImages_latest {x : Store} {t : Tables} (h : latest x.tableA x.tableB = some t) : t ∈ x.tableImages :=
  List.mem_append_left _ (latest_mem h)

end Sys2Proof.Machine
end

