-- ==== Sys2Proof/Proofs/StoreLaw.lean ====
section
/-! The check values and generations of the Retention Store through every step (R122, R123): each write carries a
generation one above the copy it leaves, and its completion makes it the newer copy. -/

/- One lemma after another, to keep the memory of a compile small. -/
set_option Elab.async false

namespace Sys2Proof.Machine

/-! ### The copies of one image -/

section
variable {α : Type} {a b : Option (StoreCopy α)} {w : Option (StoreWrite α)}

theorem imagesOk.noWrite (h : imagesOk a b w) : imagesOk a b none :=
  ⟨h.1, by simp, h.2.2.1, by simp⟩

/-- A write goes to the copy that is not the newer, a generation above the newer one. -/
theorem nextWrite_generation (h : imagesOk a b w) (c : α) :
    ∀ x, (if (nextWrite a b c).first then b else a) = some x →
      (nextWrite a b c).copy.generation = x.generation + 1 := by
  obtain ⟨ha, hb⟩ := h.valid
  intro x hx
  unfold nextWrite newerFirst at *
  rw [ha, hb] at *
  cases a with
  | none => cases b with
    | none => simp at hx
    | some y => simp_all [copyGen]
  | some y => cases b with
    | none => simp_all [copyGen]
    | some z =>
      cases hgen : (z.generation != y.generation + 1) <;> simp only [hgen] at hx ⊢ <;> simp_all [copyGen]

/-- A write of an image may begin at any time. -/
theorem imagesOk.write (h : imagesOk a b w) (c : α) : imagesOk a b (some (nextWrite a b c)) := by
  refine ⟨h.1, fun v hv => ?_, h.2.2.1, fun v hv => ?_⟩
  · cases hv; exact nextWrite_checked a b c
  · cases hv; exact nextWrite_generation h c

/-- A completed write stands a generation above the other copy. -/
theorem imagesOk.commit {v : StoreWrite α} (h : imagesOk a b (some v)) :
    imagesOk (if v.first then some v.copy else a) (if v.first then b else some v.copy) none := by
  obtain ⟨hchecked, hwrite, hadjacent, hahead⟩ := h
  have hcopy := hwrite v rfl
  have hgen := hahead v rfl
  cases hfirst : v.first <;> simp only [hfirst, if_true, Bool.false_eq_true, if_false] at hgen ⊢
  · refine ⟨fun x hx => ?_, by simp, fun x y hx hy => ?_, by simp⟩
    · rcases hx with hx | hx
      · exact hchecked x (.inl hx)
      · cases hx; exact hcopy
    · cases hy; exact .inr (hgen x hx)
  · refine ⟨fun x hx => ?_, by simp, fun x y hx hy => ?_, by simp⟩
    · rcases hx with hx | hx
      · cases hx; exact hcopy
      · exact hchecked x (.inr hx)
    · cases hx; exact .inl (hgen y hy)

theorem imagesOk.cutFirst (h : imagesOk a b w) : imagesOk none b none :=
  ⟨fun x hx => h.1 x (.inr (by simpa using hx)), by simp, by simp, by simp⟩

theorem imagesOk.cutSecond (h : imagesOk a b w) : imagesOk a none none :=
  ⟨fun x hx => h.1 x (.inl (by simpa using hx)), by simp, by simp, by simp⟩

theorem imagesOk_blank : imagesOk (none : Option (StoreCopy α)) none none :=
  ⟨by simp, by simp, by simp, by simp⟩

end

/-! ### The operations of the store -/

theorem storeLaw_reads : Reads [.store] StoreLaw := by
  intro s t h hs
  have hstore : t.store = s.store := h .store (by decide)
  unfold StoreLaw
  rwa [hstore]

theorem StoreLaw.alters {ps : List Part} {s t : State} (hs : StoreLaw s) (h : Alters ps s t)
    (ha : Apart [.store] ps := by exact (apart_iff _ _).1 rfl) : StoreLaw t := storeLaw_reads.alters h ha hs

theorem StoreLaw.beginTableWrite {s : State} (hs : StoreLaw s) : StoreLaw (beginTableWrite s) :=
  ⟨hs.1.write s.tables, hs.2⟩

theorem StoreLaw.beginRetainedWrite {s : State} (hs : StoreLaw s) : StoreLaw (beginRetainedWrite s) :=
  ⟨hs.1, hs.2.write (retainedOf s)⟩

theorem StoreLaw.tablesChanged {s : State} (hs : StoreLaw s) : StoreLaw (tablesChanged s) := by
  unfold Machine.tablesChanged askTableWrite
  split
  · exact hs
  · exact StoreLaw.beginTableWrite (s := { s with storeDefaults := false }) hs

theorem StoreLaw.commitTables {s : State} (hs : StoreLaw s) : StoreLaw (commitTables s) := by
  unfold Machine.commitTables
  split
  · exact hs
  next v hv =>
    have hcommit := imagesOk.commit (hv ▸ hs.1)
    split <;> simp_all [StoreLaw]

theorem StoreLaw.commitRetained {s : State} (hs : StoreLaw s) : StoreLaw (commitRetained s) := by
  unfold Machine.commitRetained
  split
  · exact hs
  next v hv =>
    have hcommit := imagesOk.commit (hv ▸ hs.2)
    split <;> simp_all [StoreLaw]

/-- A write cut off leaves no copy (log 16). -/
theorem StoreLaw.cutWrites {s t : State} (hs : StoreLaw s) (ht : t.store = cutWrites s.store) : StoreLaw t := by
  unfold StoreLaw
  rw [ht]
  unfold Machine.cutWrites
  constructor
  · have hnone := hs.1.noWrite
    have hfirst := hs.1.cutFirst
    have hsecond := hs.1.cutSecond
    split <;> split <;> (try split) <;> (try split) <;> assumption
  · have hnone := hs.2.noWrite
    have hfirst := hs.2.cutFirst
    have hsecond := hs.2.cutSecond
    split <;> split <;> (try split) <;> (try split) <;> assumption

theorem StoreLaw.clearStore {s : State} (hs : StoreLaw s) : StoreLaw (clearStore s) := ⟨imagesOk_blank, hs.2⟩

/-- Factory Clear before it invalidates the table copies (R178 step 6) leaves the store as it was. -/
theorem factoryClear_eq_clearStore (s : State) : ∃ u, u.store = s.store ∧ factoryClear s = clearStore u := by
  refine ⟨_, ?_, rfl⟩
  have h1 := clearLock_alters s .store (by decide)
  have h2 := clearAudit_alters (clearLock s) .store (by decide)
  have h3 := restoreDefaults_alters (clearAudit (clearLock s)) .store (by decide)
  have h4 := clearTubes_alters (restoreDefaults (clearAudit (clearLock s))) .store (by decide)
  exact h4.trans (h3.trans (h2.trans h1))

/-- A Load Table Section asks for a table image write of what its records leave. -/
theorem serveLoad_store (table first count : Nat) (records : List Byte) (s : State) :
    (serveLoad table first count records s).1 = s ∨
      ∃ u, u.store = s.store ∧ (serveLoad table first count records s).1 = tablesChanged u := by
  unfold serveLoad loadSection
  split_ifs
  · exact .inl rfl
  · exact .inl rfl
  · exact .inl rfl
  · cases hall : loadAll (recordStep table) first (sectionRecords table count records) 0 0 s with
    | error e => exact .inl rfl
    | ok x =>
      obtain ⟨u, c, m⟩ := x
      have hu : u.store = s.store :=
        loadAll_alters tableParts (recordStep table) (loadRecord_alters table) _ _ _ _ _ _ hall .store (by decide)
      refine .inr ⟨afterSection table u, ?_, rfl⟩
      rw [← hu]
      unfold afterSection
      split
      · exact ((evalExact_alters u).seq (rs := .exact :: .events :: maskParts)
          (recomputeMasks_alters _)) .store (by decide)
      · exact ((evalExact_alters u).seq (rs := .exact :: .events :: maskParts)
          (recomputeMasks_alters _)) .store (by decide)
      · exact recomputeNote_alters u .store (by decide)
      · rfl

/-- An Apply takes some selections, changes the tag record, and asks for a table image write at most. -/
theorem serveApply_cases (code price : Nat) (s : State) : ∃ (a : Action) (l : List Nat) (u : State),
    Alters [.tag] (l.foldl (applyTo a) (s, 0, 0)).1 u ∧
      ((serveApply code price s).1 = u ∨ (serveApply code price s).1 = tablesChanged u) := by
  unfold serveApply
  split
  · exact ⟨.inhibit, [], (dropTag .badArgument s).1, setTag_alters _ _, .inl rfl⟩
  next a _ =>
    unfold applyAction
    split
    next u first last off _ =>
      dsimp only
      split
      · exact ⟨a, [], s, .refl _ _, .inl rfl⟩
      · refine ⟨a, taggedSet u first last off, { (((taggedSet u first last off).foldl (applyTo a) (s, 0, 0)).1) with
          lock.tag := .empty }, setTag_alters _ _, ?_⟩
        cases a with
        | setPrice _ => exact .inr rfl
        | inhibit => exact .inl rfl
        | enable => exact .inl rfl
        | restock => exact .inl rfl
    · exact ⟨a, [], (dropTag .badSequence s).1, setTag_alters _ _, .inl rfl⟩
    · exact ⟨a, [], (dropTag .badSequence s).1, setTag_alters _ _, .inl rfl⟩

theorem serveApply_store (code price : Nat) (s : State) :
    ∃ u, u.store = s.store ∧ ((serveApply code price s).1 = u ∨ (serveApply code price s).1 = tablesChanged u) := by
  obtain ⟨a, l, u, hu, happly⟩ := serveApply_cases code price s
  exact ⟨u, (hu .store (by decide)).trans (applyAll_alters_parts a l (s, 0, 0) .store (by decide)), happly⟩

theorem StoreLaw.serveOwner {s : State} (hs : StoreLaw s) (r : Request) (h : ¬Apart [.store] r.parts) :
    StoreLaw (serveOwner r s).1 := by
  have hsame {u : State} (hu : u.store = s.store) : StoreLaw u := by unfold StoreLaw; rwa [hu]
  cases r
  case load table first count records =>
    rcases serveLoad_store table first count records s with hload | ⟨u, hu, hload⟩
    · exact (congrArg StoreLaw hload).mpr hs
    · exact (congrArg StoreLaw hload).mpr (hsame hu).tablesChanged
  case factoryClear =>
    show StoreLaw (serveFactoryClear s).1
    obtain ⟨u, hu, hclear⟩ := factoryClear_eq_clearStore s
    unfold serveFactoryClear
    split_ifs
    · exact hs
    · exact hs
    · exact hs
    · exact (congrArg StoreLaw hclear).mpr (hsame hu).clearStore
  case apply code price =>
    obtain ⟨u, hu, happly | happly⟩ := serveApply_store code price s
    · exact (congrArg StoreLaw happly).mpr (hsame hu)
    · exact (congrArg StoreLaw happly).mpr (hsame hu).tablesChanged
  all_goals exact absurd ((apart_iff _ _).1 rfl) h

theorem StoreLaw.powerFail {s : State} (hs : StoreLaw s) (w : Bool) : StoreLaw (powerFail w s) := by
  have hstop : StoreLaw (stopAll s) := hs.alters (stopAll_alters s)
  have hsaving : StoreLaw { stopAll s with phase := .saving w, store.tableWaiting := false } := hstop
  unfold Machine.powerFail
  dsimp only
  split
  · exact hsaving
  · exact hsaving.beginRetainedWrite

theorem beginStart_store (c : Cause) (s : State) : (beginStart c s).store = s.store := by
  unfold beginStart
  exact holdToCeiling_alters _ .store (by decide)

theorem storeLaw_kept : Kept [.store] StoreLaw StoreLaw where
  before := storeLaw_reads
  within := storeLaw_reads
  enter _ h := h
  leave _ h _ := h
  serveOwner r hr _ _ h := h.serveOwner r hr
  powerFail w s x h := (h.alters (setSupply_alters x s)).powerFail w
  failFast s x h := h.alters (stopAll_supply_alters x s)
  commitTables _ _ h := h.commitTables
  commitRetained _ _ h := h.commitRetained
  beginTableWrite _ _ h := h.beginTableWrite
  beginRetainedWrite _ _ h _ := h.beginRetainedWrite
  beginStart c s h := by
    unfold StoreLaw
    rwa [beginStart_store]
  powerUp _ h := h.cutWrites rfl

/-- Settles O13: a write's generation is one above the copy it leaves, so its completion stands next to that copy; a cut
write leaves none. -/
theorem storeGenerationsStayAdjacent : Obligations.StoreGenerationsStayAdjacent := fun _ _ hs h => storeLaw_kept.step hs h

end Sys2Proof.Machine
end

