-- ==== Sys2Proof/Proofs/TemperatureLaw.lean ====
section
/-! The range of every filtered temperature through every step (R93, R94). -/

/- One lemma after another, to keep the memory of a compile small. -/
set_option Elab.async false

namespace Sys2Proof.Machine

/-- A temperature a sensor may hold. -/
def InRange (f : Int) : Prop := -400 ≤ f ∧ f ≤ 800

theorem convert_inRange (t : Tables) (c : Nat) : InRange (convert t c) := by
  rw [convert_eq]
  unfold InRange
  omega

/-- The step of the filter goes no further than the difference. -/
theorem filterStep_between (d : Int) : (0 ≤ d → 0 ≤ filterStep d ∧ filterStep d ≤ d) ∧
    (d ≤ 0 → d ≤ filterStep d ∧ filterStep d ≤ 0) := by
  have hnonneg (n : Int) (hn : 0 ≤ n) : Int.tdiv n 8 = n / 8 := Int.tdiv_eq_ediv_of_nonneg hn
  have hneg : Int.tdiv (-d) 8 = -Int.tdiv d 8 := Int.neg_tdiv d 8
  unfold filterStep
  dsimp only
  constructor
  · intro hd
    rw [hnonneg d hd]
    split_ifs <;> omega
  · intro hd
    have hdiv : Int.tdiv d 8 = -((-d) / 8) := by
      have := hnonneg (-d) (by omega)
      omega
    rw [hdiv]
    split_ifs <;> omega

theorem filtered_inRange {f : Option Int} {t : Int} (hf : ∀ x, f = some x → InRange x) (ht : InRange t) :
    InRange (filtered f t) := by
  unfold filtered
  split
  · exact ht
  next x =>
    have hx := hf x rfl
    obtain ⟨hup, hdown⟩ := filterStep_between (t - x)
    unfold InRange at *
    rcases le_total 0 (t - x) with h | h
    · have := hup h; omega
    · have := hdown h; omega

/-- A sensor's temperature, where it has one, is in range. -/
def TempSensor.Fits (x : TempSensor) : Prop := ∀ f, x.temp = some f → InRange f

theorem temperatureLaw_reads : Reads [.sensors] TemperatureLaw := by
  intro s t h hs
  have hsensors : t.cold.sensors = s.cold.sensors := h .sensors (by decide)
  unfold TemperatureLaw
  rwa [hsensors]

theorem TemperatureLaw.alters {ps : List Part} {s t : State} (hs : TemperatureLaw s) (h : Alters ps s t)
    (ha : Apart [.sensors] ps := by exact (apart_iff _ _).1 rfl) : TemperatureLaw t :=
  temperatureLaw_reads.alters h ha hs

theorem TemperatureLaw.modSensor {s : State} (hs : TemperatureLaw s) (k : Nat) {f : TempSensor → TempSensor}
    (hf : ∀ x, x.Fits → (f x).Fits) : TemperatureLaw (modSensor k f s) := by
  intro x hx
  rcases mem_updAt hx with hx | ⟨y, hy, rfl⟩
  · exact hs x hx
  · exact hf y (hs y hy)

theorem TemperatureLaw.goodTaken {s : State} (hs : TemperatureLaw s) (k c : Nat) : TemperatureLaw (goodTaken k c s) := by
  have hgood : TemperatureLaw (Machine.modSensor k (fun r => { r with badRun := 0 }) s) := hs.modSensor k fun x hx => hx
  unfold Machine.goodTaken
  dsimp only
  split_ifs
  · exact hgood.modSensor k fun x hx => hx
  · refine TemperatureLaw.alters (TemperatureLaw.alters (hgood.modSensor k fun x _ f hf => ?_) (raise_alters _ _ _ _))
      (endDuty_alters _ _)
    cases hf
    exact convert_inRange _ _
  · refine hgood.modSensor k fun x hx f hf => ?_
    cases hf
    exact filtered_inRange hx (convert_inRange _ _)

theorem TemperatureLaw.badTaken {s : State} (hs : TemperatureLaw s) (k c : Nat) : TemperatureLaw (badTaken k c s) := by
  have hbad := hs.modSensor k (f := fun r => { r with badRun := r.badRun + 1 }) fun x hx => hx
  unfold Machine.badTaken
  dsimp only
  split_ifs
  · exact hs.modSensor k fun x hx => hx
  · exact hbad
  · exact ((hbad.modSensor k (f := fun r => { r with faulted := true, goodRun := 0 }) fun x hx => hx).alters
      (raise_alters _ _ _ _)).alters (beginDuty_alters _ _)

theorem zoneSteps_alters_parts (z c : Nat) (first : Bool) (s : State) :
    Alters (.damper :: .compressor :: .zones :: spiralParts) s (zoneSteps z c first s) :=
  (((.ite (.refl _ _) (thermostat_alters z s) : Alters [.zones, .damper, .compressor, .grants] s _).seq
    (rs := [.zones, .damper, .compressor, .grants])
    (.ite (startCheck_alters z c _) (.refl _ _))).seq (holdTick_alters z _))

theorem TemperatureLaw.takeSample {s : State} (hs : TemperatureLaw s) (k c : Nat) : TemperatureLaw (takeSample k c s) := by
  have hheater : TemperatureLaw (if k = 2 then heaterTick s else s) := by
    split
    · exact hs.alters (heaterTick_alters s)
    · exact hs
  have hraw := hheater.modSensor k (f := fun r => { r with raw := c, sampled := true }) fun x hx => hx
  have htaken {u : State} (hu : TemperatureLaw u) :
      TemperatureLaw (if goodSample c then Machine.goodTaken k c u else Machine.badTaken k c u) := by
    split
    · exact hu.goodTaken k c
    · exact hu.badTaken k c
  unfold Machine.takeSample
  dsimp only
  generalize (if k = 2 then heaterTick s else s) = u at hheater hraw ⊢
  split
  · exact ((htaken hraw).alters (defrostTests_alters _)).alters (intervalTick_alters _)
  · exact (htaken hraw).alters (zoneSteps_alters_parts k c _ _)

/-- The sensors of a start have no temperature. -/
theorem startCold_sensors (img : Option Retained) : (startCold img).sensors = List.replicate 3 TempSensor.initial := by
  unfold startCold
  split <;> rfl

theorem temperatureLaw_of_initial {s : State} (h : s.cold.sensors = List.replicate 3 TempSensor.initial) :
    TemperatureLaw s := by
  intro x hx
  rw [h, List.mem_replicate] at hx
  obtain ⟨-, rfl⟩ := hx
  simp [TempSensor.initial]

theorem temperatureLaw_kept : Kept [.sensors] TemperatureLaw TemperatureLaw where
  before := temperatureLaw_reads
  within := temperatureLaw_reads
  enter _ h := h
  leave _ h _ := h
  serveOwner r hr := absurd (by cases r <;> exact (apart_iff _ _).1 rfl) hr
  takeSample k c _ _ _ h := h.takeSample k c
  powerFail w s x h := h.alters (powerFail_supply_alters w x s)
  failFast s x h := h.alters (stopAll_supply_alters x s)
  beginStart c s _ := by
    unfold beginStart
    refine TemperatureLaw.alters (TemperatureLaw.alters ?_ (holdToCeiling_alters _)) (setSale_alters _)
    exact temperatureLaw_of_initial (startCold_sensors _)
  powerUp s _ := temperatureLaw_of_initial rfl

end Sys2Proof.Machine
end

