-- ==== Sys2Proof/Proofs/TableRecords.lean ====
section
/-! What each table record leaves in the tables (R167): a record of one table leaves the others as they were. -/

/- One lemma after another, to keep the memory of a compile small. -/
set_option Elab.async false

namespace Sys2Proof.Machine

/-! ### Slot kinds -/

theorem tellKindLost_alters_parts (q : Option Periph) (s : State) :
    Alters (.escrow :: moneyParts) s (tellKindLost q s) := by
  unfold tellKindLost
  split
  · exact (expireEscrow_alters s).seq (recomputeNote_alters _)
  · exact (recomputeMasks_alters s).mono
  · exact .refl _ _

/-- What a slot's change of kind may change besides the table record. -/
def kindChangeParts : List Part := .trans :: .passQueue :: .ring :: .slots :: .escrow :: moneyParts

/-- A slot's change of kind is its table record's, then what follows from it. -/
theorem setSlotKind_of_tables (slot : Nat) (k : SlotKind) (s : State) (h : s.tables.slotKind slot ≠ k) :
    Alters kindChangeParts { s with tables.slotKinds := updAt s.tables.slotKinds (slot - 1) fun _ => k }
      (setSlotKind slot k s) := by
  have hdropped (u : State) : Alters [.passQueue, .events, .ring] u (if k = .unused then
      roundIfDue (dropSlotPasses slot { u with line.list := u.line.list.filter (· != slot) }) else u) := by
    split
    · have hlist : Alters [.ring] u { u with line.list := u.line.list.filter (· != slot) } := by
        intro p hp; cases p <;> simp_all [Part.same]
      exact (hlist.seq (rs := [.passQueue, .events, .ring]) (dropSlotPasses_alters slot _)).seq
        (roundIfDue_alters _)
    · exact .refl _ _
  have hstale (u : State) (x : Option Trans) : Alters [.trans] u { u with line.trans := x } := setTrans_alters x u
  have hparts {ps : List Part} {u v : State} (hu : Alters ps u v) (hps : ∀ a ∈ ps, a ∈ kindChangeParts) :
      Alters kindChangeParts u v := hu.mono hps
  unfold setSlotKind
  rw [if_neg h]
  refine Alters.trans (Alters.trans (Alters.trans (Alters.trans (Alters.trans (Alters.trans (Alters.trans
    (hparts (modSlot_alters _ _ _) (by decide)) (hparts (dropSlotCmds_alters _ _ _) (by decide)))
    (hparts (hdropped _) (by decide))) (hparts (hstale _ _) (by decide)))
    (hparts (moveMaskRec_alters _ _) (by decide))) (hparts (moveMaskRec_alters _ _) (by decide)))
    (hparts (tellKindLost_alters_parts _ _) (by decide))) (hparts (tellKindTaken_alters _ _) (by decide))

theorem setSlotKind_same {slot : Nat} {k : SlotKind} {s : State} (h : s.tables.slotKind slot = k) :
    setSlotKind slot k s = s := if_pos h

theorem setSlotKind_tables (slot : Nat) (k : SlotKind) (s : State) :
    (setSlotKind slot k s).tables = s.tables ∨ (setSlotKind slot k s).tables =
      { s.tables with slotKinds := updAt s.tables.slotKinds (slot - 1) fun _ => k } := by
  by_cases h : s.tables.slotKind slot = k
  · rw [setSlotKind_same h]; exact .inl rfl
  · exact .inr (setSlotKind_of_tables slot k s h .tables (by decide))

theorem setSlotKind_alters_parts (slot : Nat) (k : SlotKind) (s : State) :
    Alters (.tables :: kindChangeParts) s (setSlotKind slot k s) := by
  by_cases h : s.tables.slotKind slot = k
  · rw [setSlotKind_same h]; exact .refl _ _
  · exact (setTables_alters _ s).seq (setSlotKind_of_tables slot k s h)

/-! ### Tube records -/

/-- The coin table after a tube record: the tube's old type gives up its tube field when the type changes (R29). -/
def coinsAfterTube (t : Tables) (n : Nat) (r : TubeRec) : List CoinRec :=
  if r.coinType = (t.tube n).coinType then t.coins
  else updAt t.coins (t.tube n).coinType fun c => if c.tube = some n then { c with tube := none } else c

theorem applyTube_tables (n : Nat) (r : TubeRec) (s : State) : (applyTube n r s).tables =
    { s.tables with tubes := updAt s.tables.tubes n fun _ => r, coins := coinsAfterTube s.tables n r } := by
  have hcorrect (u : State) (why : Correction) (old new : Nat) :
      (raiseCorrected n why old new (rawCount n new u)).tables = u.tables :=
    ((rawCount_alters n new u).seq (rs := [.tubes, .shortWait, .events]) (raiseCorrected_alters n why old new _))
      .tables (by decide)
  have hreconciled (u : State) (c : TubeCond) : (reconcile n (rawCond n c u)).tables = u.tables :=
    ((rawCond_alters n c u).seq (rs := [.tubes, .shortWait, .payout, .events]) (reconcile_alters n _))
      .tables (by decide)
  unfold applyTube coinsAfterTube
  dsimp only
  rw [hreconciled]
  split_ifs
  · exact hcorrect _ _ _ _
  · rfl
  · exact hcorrect _ _ _ _

/-! ### Records -/

/-- The money parameters a record gives (R2, R3). -/
def moneyOf (r : List Byte) : MoneyParams :=
  { ceiling := max 1 (at2 r 0), policy := if at1 r 2 = 0 then .single else .multi,
    exactRequired := at1 r 3 == 1, granularity := max 1 (at2 r 4), probeCeiling := at2 r 6,
    noteLimit := at2 r 8 }

/-- The money table has taken its record; EXACT is evaluated again only when what it probes has changed (R43). -/
def moneyTaken (r : List Byte) (s : State) : State :=
  if (moneyOf r).granularity = s.tables.money.granularity ∧ (moneyOf r).probeCeiling = s.tables.money.probeCeiling
  then { s with tables.money := moneyOf r } else evalExact { s with tables.money := moneyOf r }

theorem loadMoney_eq (i : Nat) (r : List Byte) (s : State) : loadMoney i r s =
    .ok (recomputeMasks (moneyTaken r s),
      clampedN (at2 r 0) (moneyOf r).ceiling + clampedN (at2 r 4) (moneyOf r).granularity, 0) := rfl

theorem moneyTaken_alters (r : List Byte) (s : State) :
    Alters [.exact, .events, .noteMask, .cmdQueue, .lineCounts, .maskRecs] { s with tables.money := moneyOf r }
      (moneyTaken r s) := .ite (.refl _ _) (evalExact_alters _)

theorem loadMoney_tables {i : Nat} {r : List Byte} {s : State} {x : State × Nat × Nat} (h : loadMoney i r s = .ok x) :
    x.1.tables = { s.tables with money := moneyOf r } := by
  rw [loadMoney_eq] at h
  cases h
  exact (recomputeMasks_alters _ .tables (by decide)).trans (moneyTaken_alters r s .tables (by decide))

theorem loadLoads_tables {i : Nat} {r : List Byte} {s : State} {x : State × Nat × Nat} (h : loadLoads i r s = .ok x) :
    x.1.tables = { s.tables with loads := loadTableOf r } := by
  unfold loadLoads at h
  cases h
  exact budgetChanged_alters _ .tables (by decide)

theorem loadSlot_state {i : Nat} {r : List Byte} {s : State} {x : State × Nat × Nat} (h : loadSlot i r s = .ok x) :
    ∃ k, x.1 = setSlotKind (i + 1) k s := by
  unfold loadSlot at h
  split at h
  · simp at h
  · split at h
    · simp at h
    · cases h
      exact ⟨_, rfl⟩

theorem loadTube_state {n : Nat} {r : List Byte} {s : State} {x : State × Nat × Nat} (h : loadTube n r s = .ok x) :
    ∃ t : TubeRec, t.lowMark ≤ t.capacity ∧ x.1 = applyTube n t s := by
  unfold loadTube at h
  split at h
  · simp at h
  · cases h
    exact ⟨_, by simp, rfl⟩

theorem loadSel_state {i : Nat} {r : List Byte} {s : State} {x : State × Nat × Nat} (h : loadSel i r s = .ok x) :
    ∃ new : SelLoaded, i ≤ 63 ∧ new.spirals = listOf r ∧ goodList new.spirals = true ∧ new.spirals.length ≤ 4 ∧
      x.1 = (applySel i new s).1 := by
  unfold loadSel at h
  dsimp only at h
  split at h
  · simp at h
  next hfits =>
    split at h
    · simp at h
    · cases h
      simp only [Bool.or_eq_true, decide_eq_true_eq, Bool.not_eq_true', not_or, not_lt, Bool.not_eq_false] at hfits
      obtain ⟨⟨⟨⟨hi, -⟩, -⟩, hlen⟩, hgood⟩ := hfits
      refine ⟨_, hi, rfl, hgood, ?_, rfl⟩
      simp only [listOf, List.length_take, List.length_map, List.length_range]
      omega

/-- The spiral lists that a record of another table leaves. -/
theorem recordStep_sels {table i : Nat} {r : List Byte} {s : State} {x : State × Nat × Nat} (ht : table ≠ 4)
    (h : recordStep table i r s = .ok x) : x.1.tables.sels = s.tables.sels := by
  unfold recordStep at h
  split at h
  · rw [loadMoney_tables h]
  · unfold loadCoin at h
    split at h
    · simp at h
    · cases h; rfl
  · obtain ⟨t, -, hx⟩ := loadTube_state h; rw [hx, applyTube_tables]
  · cases h; rfl
  · exact absurd rfl ht
  · cases h; rfl
  · cases h; rfl
  · cases h; rfl
  · cases h; rfl
  · rw [loadLoads_tables h]
  · obtain ⟨k, hx⟩ := loadSlot_state h
    rw [hx]
    rcases setSlotKind_tables (i + 1) k s with hk | hk <;> rw [hk]
  · cases h; rfl
  · cases h; rfl
  · simp at h

theorem applySel_tables_tubes (i : Nat) (new : SelLoaded) (s : State) :
    (applySel i new s).1.tables.tubes = s.tables.tubes := by
  have hremove (p k : Nat) (u : State) : (removeFromList p k u).tables.tubes = u.tables.tubes := by
    unfold removeFromList
    split <;> rfl
  have htake (l : List Nat) (x : State × Nat) :
      (l.foldl (takeSpiral i) x).1.tables.tubes = x.1.tables.tubes := by
    induction l generalizing x with
    | nil => rfl
    | cons p l ih =>
      rw [List.foldl_cons, ih]
      unfold takeSpiral
      split
      · rfl
      · exact hremove _ _ _
  have hunassign (l : List Nat) (u : State) :
      (l.foldl (fun s p => unassign p s) u).tables.tubes = u.tables.tubes :=
    congrArg Tables.tubes (Alters.foldl _ (fun s p => unassign_alters p s) l u .tables (by decide))
  have hprobe (l : List Nat) (u : State) :
      (l.foldl (fun s p => addProbe p s) u).tables.tubes = u.tables.tubes :=
    congrArg Tables.tubes (Alters.foldl _ (fun s p => addProbe_alters p s) l u .tables (by decide))
  unfold applySel
  dsimp only
  rw [hprobe]
  split_ifs
  · exact (hunassign _ _).trans (htake _ _)
  · exact (hunassign _ _).trans (htake _ _)

/-- The tube table that a record of another table leaves. -/
theorem recordStep_tubes {table i : Nat} {r : List Byte} {s : State} {x : State × Nat × Nat} (ht : table ≠ 2)
    (h : recordStep table i r s = .ok x) : x.1.tables.tubes = s.tables.tubes := by
  unfold recordStep at h
  split at h
  · rw [loadMoney_tables h]
  · unfold loadCoin at h
    split at h
    · simp at h
    · cases h; rfl
  · exact absurd rfl ht
  · cases h; rfl
  · obtain ⟨new, -, -, -, -, hx⟩ := loadSel_state h
    rw [hx, applySel_tables_tubes]
  · cases h; rfl
  · cases h; rfl
  · cases h; rfl
  · cases h; rfl
  · rw [loadLoads_tables h]
  · obtain ⟨k, hx⟩ := loadSlot_state h
    rw [hx]
    rcases setSlotKind_tables (i + 1) k s with hk | hk <;> rw [hk]
  · cases h; rfl
  · cases h; rfl
  · simp at h

/-- A property that each record of a section keeps is kept by the section's records. -/
theorem loadAll_keeps {P : State → Prop} {f : Nat → List Byte → State → Loaded}
    (hf : ∀ i r s x, f i r s = .ok x → P s → P x.1) :
    ∀ (l : List (List Byte)) (i c m : Nat) (s : State) (x : State × Nat × Nat),
      loadAll f i l c m s = .ok x → P s → P x.1
  | [], _, _, _, _, _, h, hs => by cases h; exact hs
  | r :: l, i, c, m, s, x, h, hs => by
    unfold loadAll at h
    split at h
    · simp at h
    next hr => exact loadAll_keeps hf l _ _ _ _ _ h (hf _ _ _ _ hr hs)

/-- A Load Table Section changes nothing, or its records are applied and its follow-on made, and a table image write
is asked for (R167). -/
theorem serveLoad_keeps {P : State → Prop} {table first count : Nat} {records : List Byte} {s : State}
    (hrecord : ∀ i r u x, recordStep table i r u = .ok x → P u → P x.1)
    (hafter : ∀ u, P u → P (afterSection table u)) (hstore : ∀ u, P u → P (tablesChanged u)) (hs : P s) :
    P (serveLoad table first count records s).1 := by
  unfold serveLoad loadSection
  split_ifs
  · exact hs
  · exact hs
  · exact hs
  · cases hall : loadAll (recordStep table) first (sectionRecords table count records) 0 0 s with
    | error e => exact hs
    | ok x => exact hstore _ (hafter _ (loadAll_keeps hrecord _ _ _ _ _ _ hall hs))

theorem afterSection_alters_parts (table : Nat) (s : State) :
    Alters (.exact :: .events :: maskParts) s (afterSection table s) := by
  unfold afterSection
  split
  · exact (evalExact_alters s).seq (recomputeMasks_alters _)
  · exact (evalExact_alters s).seq (recomputeMasks_alters _)
  · exact (recomputeNote_alters s).mono
  · exact .refl _ _

end Sys2Proof.Machine
end

