-- ==== Sys2Proof/Proofs/ListLaw.lean ====
section
/-! The spiral lists through every step (R55, R62, R63): a selection record first takes its spirals out of the other
lists, and the tables in use come from a record, a default or an image kept. -/

/- One lemma after another, to keep the memory of a compile small. -/
set_option Elab.async false

namespace Sys2Proof.Machine

/-! ### The lists of a table -/

/-- Two tables with the same selection records. -/
theorem ListsOk.congr {t u : Tables} (ht : ListsOk t) (h : u.sels = t.sels) : ListsOk u := by
  unfold ListsOk Tables.sel at *
  rwa [h]

/-- Lists that lose spirals, or nothing, stay disjoint. -/
theorem ListsOk.sublists {t u : Tables} (ht : ListsOk t) (hlen : u.sels.length = t.sels.length)
    (hsub : ∀ i < 64, ((u.sel i).spirals).Sublist (t.sel i).spirals) : ListsOk u := by
  obtain ⟨hlength, hlists, hdisjoint⟩ := ht
  refine ⟨hlen.trans hlength, fun r hr => ?_, fun i hi j hj p hpi hpj =>
    hdisjoint i hi j hj p ((hsub i hi).subset hpi) ((hsub j hj).subset hpj)⟩
  obtain ⟨i, hi, rfl⟩ := List.getElem_of_mem hr
  have hi64 : i < 64 := by omega
  have hu : u.sel i = u.sels[i] := List.getD_eq_getElem _ _ hi
  have htm : t.sel i ∈ t.sels := by
    unfold Tables.sel
    rw [List.getD_eq_getElem _ _ (by omega)]
    exact List.getElem_mem _
  obtain ⟨h4, hnodup, hrange⟩ := hlists _ htm
  have hs := hsub i hi64
  rw [hu] at hs
  exact ⟨hs.length_le.trans h4, hs.nodup hnodup, fun p hp => hrange p (hs.subset hp)⟩

/-- A list whose spirals stand in no other list may be set. -/
theorem ListsOk.set {t : Tables} (ht : ListsOk t) {i : Nat} {new : SelLoaded} (hlen : new.spirals.length ≤ 4)
    (hnodup : new.spirals.Nodup) (hrange : ∀ p ∈ new.spirals, p < 64)
    (hfree : ∀ j < 64, j ≠ i → ∀ p ∈ new.spirals, p ∉ (t.sel j).spirals) :
    ListsOk { t with sels := updAt t.sels i fun _ => new } := by
  obtain ⟨hlength, hlists, hdisjoint⟩ := ht
  have hsel (j : Nat) : ({ t with sels := updAt t.sels i fun _ => new } : Tables).sel j =
      if j = i ∧ i < 64 then new else t.sel j := by
    simp only [Tables.sel, getD_updAt, hlength]
  refine ⟨by simpa using hlength, fun r hr => ?_, fun a ha b hb p hpa hpb => ?_⟩
  · rcases mem_updAt hr with hr | ⟨-, -, rfl⟩
    · exact hlists r hr
    · exact ⟨hlen, hnodup, hrange⟩
  · rw [hsel] at hpa hpb
    split_ifs at hpa hpb with h1 h2 h2
    · exact h1.1.trans h2.1.symm
    · exact absurd hpb (hfree b hb (fun h => h2 ⟨h, h ▸ hb⟩) p hpa)
    · exact absurd hpa (hfree a ha (fun h => h1 ⟨h, h ▸ ha⟩) p hpb)
    · exact hdisjoint a ha b hb p hpa hpb

theorem goodList_iff (l : List Nat) : goodList l = true ↔ l.Nodup ∧ ∀ p ∈ l, p < 64 := by
  induction l with
  | nil => simp [goodList]
  | cons p l ih =>
    simp only [goodList, Bool.and_eq_true, decide_eq_true_eq, Bool.not_eq_true', ih, List.nodup_cons,
      List.forall_mem_cons, List.contains_eq_mem, decide_eq_false_iff_not]
    constructor
    · rintro ⟨⟨h1, h2⟩, h3, h4⟩; exact ⟨⟨h2, h3⟩, by omega, h4⟩
    · rintro ⟨⟨h2, h3⟩, h1, h4⟩; exact ⟨⟨by omega, h2⟩, h3, h4⟩

theorem positionOf_eq_none {p : Nat} {l : List Nat} (h : positionOf p l = none) : p ∉ l := by
  induction l with
  | nil => simp
  | cons q l ih =>
    unfold positionOf at h
    split at h
    · simp at h
    next hne =>
      simp only [Option.map_eq_none_iff] at h
      simp only [List.mem_cons, not_or]
      exact ⟨fun e => hne e.symm, ih h⟩

/-- A spiral leaves one list, and the others stay (R57, R63). -/
theorem removeFromList_sel (p k : Nat) (s : State) (j : Nat) : ((removeFromList p k s).tables.sel j).spirals =
    if j = k then (s.tables.sel j).spirals.filter (· != p) else (s.tables.sel j).spirals := by
  unfold removeFromList
  split
  next h =>
    split
    next hj =>
      subst hj
      refine (List.filter_eq_self.2 fun q hq => ?_).symm
      have hp := positionOf_eq_none h
      simp only [bne_iff_ne, ne_eq]
      rintro rfl
      exact hp hq
    next => rfl
  next j' h =>
    have hk : k < s.tables.sels.length := by
      by_contra hlt
      unfold Tables.sel at h
      rw [List.getD_eq_default _ _ (by omega)] at h
      simp [positionOf] at h
    show (((updAt s.tables.sels k _).getD j _ : SelLoaded)).spirals = _
    rw [getD_updAt]
    by_cases hj : j = k
    · subst hj
      simp [hk, Tables.sel]
    · simp [hj, Tables.sel]

theorem removeFromList_length (p k : Nat) (s : State) :
    (removeFromList p k s).tables.sels.length = s.tables.sels.length := by
  unfold removeFromList
  split
  · rfl
  · simp

/-- Step 1 of R63 for one spiral: the other lists lose it, and lose nothing else. -/
theorem takeSpiral_lists {i p : Nat} {x : State × Nat} (hx : ListsOk x.1.tables) :
    ListsOk (takeSpiral i x p).1.tables ∧
      ∀ j < 64, (((takeSpiral i x p).1.tables.sel j).spirals).Sublist (x.1.tables.sel j).spirals ∧
        (j ≠ i → p ∉ ((takeSpiral i x p).1.tables.sel j).spirals) := by
  unfold takeSpiral
  split
  next h =>
    refine ⟨hx, fun j hj => ⟨List.Sublist.refl _, fun hji hp => ?_⟩⟩
    have hnone := List.find?_eq_none.1 h j (by simpa using hj)
    simp_all
  next k h =>
    have hfound := List.find?_some h
    have hk : k < 64 := by simpa using List.mem_of_find?_eq_some h
    simp only [Bool.and_eq_true, bne_iff_ne, ne_eq, List.contains_eq_mem, decide_eq_true_eq] at hfound
    have hsub (j : Nat) :
        (((removeFromList p k x.1).tables.sel j).spirals).Sublist (x.1.tables.sel j).spirals := by
      rw [removeFromList_sel]
      split
      · exact List.filter_sublist
      · exact List.Sublist.refl _
    refine ⟨hx.sublists (removeFromList_length p k x.1) fun j _ => hsub j, fun j hj => ⟨hsub j, fun hji => ?_⟩⟩
    rw [removeFromList_sel]
    split
    · simp
    next hjk => exact fun hp => hjk (hx.2.2 j hj k hk p hp hfound.2)

/-- Step 1 of R63: after it no other list holds a spiral of the new one. -/
theorem takeSpirals_lists {i : Nat} (l : List Nat) {x : State × Nat} (hx : ListsOk x.1.tables) :
    ListsOk (l.foldl (takeSpiral i) x).1.tables ∧
      ∀ j < 64, (((l.foldl (takeSpiral i) x).1.tables.sel j).spirals).Sublist (x.1.tables.sel j).spirals ∧
        (j ≠ i → ∀ p ∈ l, p ∉ ((l.foldl (takeSpiral i) x).1.tables.sel j).spirals) := by
  induction l generalizing x with
  | nil => exact ⟨hx, fun j _ => ⟨List.Sublist.refl _, by simp⟩⟩
  | cons q l ih =>
    obtain ⟨hq, hqsub⟩ := takeSpiral_lists (i := i) (p := q) hx
    obtain ⟨hl, hlsub⟩ := ih hq
    refine ⟨hl, fun j hj => ⟨(hlsub j hj).1.trans (hqsub j hj).1, fun hji p hp => ?_⟩⟩
    rcases List.mem_cons.1 hp with rfl | hp
    · exact fun hpj => (hqsub j hj).2 hji ((hlsub j hj).1.subset hpj)
    · exact (hlsub j hj).2 hji p hp

/-- A selection record as applied leaves the tables of step 1 with its own list set. -/
theorem applySel_tables (i : Nat) (new : SelLoaded) (s : State) : (applySel i new s).1.tables =
    { (new.spirals.foldl (takeSpiral i) (s, 0)).1.tables with
      sels := updAt (new.spirals.foldl (takeSpiral i) (s, 0)).1.tables.sels i fun _ => new } := by
  have hunassign (l : List Nat) (u : State) : (l.foldl (fun s p => unassign p s) u).tables = u.tables :=
    Alters.foldl _ (fun s p => unassign_alters p s) l u .tables (by decide)
  have hprobe (l : List Nat) (u : State) : (l.foldl (fun s p => addProbe p s) u).tables = u.tables :=
    Alters.foldl _ (fun s p => addProbe_alters p s) l u .tables (by decide)
  unfold applySel
  dsimp only
  rw [hprobe]
  split_ifs
  · simp only [hunassign]
  · simp only [modSel_tables, hunassign]

theorem ListsOk.applySel {i : Nat} {new : SelLoaded} {s : State} (hs : ListsOk s.tables)
    (hgood : goodList new.spirals = true) (hlen : new.spirals.length ≤ 4) :
    ListsOk (applySel i new s).1.tables := by
  obtain ⟨hnodup, hrange⟩ := (goodList_iff _).1 hgood
  obtain ⟨hl, hsub⟩ := takeSpirals_lists (i := i) new.spirals (x := (s, 0)) hs
  rw [applySel_tables]
  exact hl.set hlen hnodup hrange fun j hj hji => (hsub j hj).2 hji

/-- A price set leaves the lists (R181). -/
theorem applyTo_lists (a : Action) (x : State × Nat × Nat) (i : Nat) (hx : ListsOk x.1.tables) :
    ListsOk (applyTo a x i).1.tables := by
  have hrefill (l : List Nat) (u : State) : (l.foldl (fun s p => refill p s) u).tables = u.tables :=
    Alters.foldl _ (fun s p => modSpiral_alters p _ s) l u .tables (by decide)
  unfold applyTo
  cases a with
  | setPrice price =>
    refine hx.sublists (by simp) fun j _ => ?_
    have : ((({ x.1.tables with sels := updAt x.1.tables.sels i fun r => { r with price := price } } : Tables)).sel j).spirals
        = (x.1.tables.sel j).spirals := by
      simp only [Tables.sel, getD_updAt]
      split <;> rfl
    exact this ▸ List.Sublist.refl _
  | inhibit => exact hx
  | enable =>
    dsimp only
    split <;> exact hx
  | restock =>
    dsimp only
    split
    · exact hx
    · simpa only [modSel_tables, hrefill] using hx

theorem listsOk_default : ListsOk { defaultTables with } := by
  refine ⟨by decide, by decide, fun i hi j hj p hpi hpj => ?_⟩
  have hsel (k : Nat) (hk : k < 64) : (defaultTables.sel k).spirals = [k] := by
    simp [Tables.sel, defaultTables, defaultSels, List.getD_eq_getElem?_getD, hk]
  rw [hsel i hi] at hpi
  rw [hsel j hj] at hpj
  simp_all

/-! ### Every step -/

theorem listLaw_reads : Reads [.tables, .store] ListLaw := by
  intro s t h hs
  have h1 : t.tables = s.tables := h .tables (by decide)
  have h2 : t.store = s.store := h .store (by decide)
  unfold ListLaw
  rwa [h1, h2]

theorem ListLaw.alters {ps : List Part} {s t : State} (hs : ListLaw s) (h : Alters ps s t)
    (ha : Apart [.tables, .store] ps := by exact (apart_iff _ _).1 rfl) : ListLaw t := listLaw_reads.alters h ha hs

/-- The images kept, all of them or fewer, or the tables in use beside them. -/
theorem ListLaw.images {s t : State} (hs : ListLaw s) (ht : t.tables = s.tables)
    (h : ∀ x ∈ t.store.tableImages, x = s.tables ∨ x ∈ s.store.tableImages) : ListLaw t := by
  refine ⟨ht ▸ hs.1, fun x hx => ?_⟩
  rcases h x hx with rfl | hx
  · exact hs.1
  · exact hs.2 x hx

/-- New tables with good lists. -/
theorem ListLaw.withTables {s t : State} (hs : ListLaw s) (ht : ListsOk t.tables) (h : t.store = s.store) : ListLaw t :=
  ⟨ht, h ▸ hs.2⟩

theorem ListLaw.tablesChanged {s : State} (hs : ListLaw s) : ListLaw (tablesChanged s) :=
  hs.images (tablesChanged_alters s .tables (by decide)) (tableImages_tablesChanged s)

theorem ListLaw.record {table i : Nat} {r : List Byte} {s : State} {x : State × Nat × Nat} (hs : ListLaw s)
    (h : recordStep table i r s = .ok x) : ListLaw x.1 := by
  have hstore : x.1.store = s.store := loadRecord_alters table i r s x h .store (by decide)
  by_cases ht : table = 4
  · subst ht
    obtain ⟨new, -, -, hgood, hlen, hx⟩ := loadSel_state h
    rw [hx] at hstore ⊢
    exact hs.withTables (hs.1.applySel hgood hlen) hstore
  · exact hs.withTables (hs.1.congr (recordStep_sels ht h)) hstore

/-- The default tables of Factory Clear keep the default lists (R64, R178). -/
theorem restoreDefaults_sels (s : State) : (restoreDefaults s).tables.sels = defaultSels := by
  have hslots (l : List Nat) (u : State) : (l.foldl (fun s a =>
      setSlotKind a (defaultSlotKinds.getD (a - 1) .unused) s) u).tables.sels = u.tables.sels := by
    induction l generalizing u with
    | nil => rfl
    | cons a l ih =>
      rw [List.foldl_cons, ih]
      rcases setSlotKind_tables a (defaultSlotKinds.getD (a - 1) .unused) u with h | h <;> rw [h]
  have hloads (u : State) : (budgetChanged u).tables = u.tables := budgetChanged_alters u .tables (by decide)
  have hmasks (u : State) : (recomputeMasks (evalExact u)).tables = u.tables :=
    ((evalExact_alters u).seq (rs := .exact :: .events :: maskParts) (recomputeMasks_alters _)) .tables (by decide)
  unfold restoreDefaults applyDefaultSlots
  dsimp only
  rw [hslots, hloads]
  dsimp only
  rw [hmasks]
  rfl

theorem listLaw_factoryClear (s : State) : ListLaw (factoryClear s) := by
  have hsels : (Machine.factoryClear s).tables.sels = defaultSels := by
    have h := clearTubes_alters (restoreDefaults (clearAudit (clearLock s))) .tables (by decide)
    exact (congrArg Tables.sels h).trans (restoreDefaults_sels _)
  exact ⟨listsOk_default.congr hsels, by simp [Machine.factoryClear, tableImages_clearStore]⟩

theorem ListLaw.serveOwner {s : State} (hs : ListLaw s) (r : Request) (h : ¬Apart [.tables, .store] r.parts) :
    ListLaw (serveOwner r s).1 := by
  cases r
  case load table first count records =>
    exact serveLoad_keeps (P := ListLaw) (fun _ _ _ _ hx hu => hu.record hx)
      (fun u hu => hu.alters (afterSection_alters_parts table u)) (fun _ hu => hu.tablesChanged) hs
  case factoryClear =>
    show ListLaw (serveFactoryClear s).1
    unfold serveFactoryClear
    split_ifs
    · exact hs
    · exact hs
    · exact hs
    · exact listLaw_factoryClear s
  case apply code price =>
    obtain ⟨a, l, u, hu, happly⟩ := serveApply_cases code price s
    have happlied : ListLaw u := by
      have hlists : ListsOk (l.foldl (applyTo a) (s, 0, 0)).1.tables :=
        keeps_foldl (P := fun x : State × Nat × Nat => ListsOk x.1.tables) (applyTo_lists a) l hs.1
      refine hs.withTables ?_ ?_
      · exact (hu .tables (by decide) : u.tables = _) ▸ hlists
      · exact (hu .store (by decide)).trans (applyAll_alters_parts a l (s, 0, 0) .store (by decide))
    rcases happly with happly | happly
    · exact (congrArg ListLaw happly).mpr happlied
    · exact (congrArg ListLaw happly).mpr happlied.tablesChanged
  all_goals exact absurd ((apart_iff _ _).1 rfl) h

theorem ListLaw.powerFail {s : State} (hs : ListLaw s) (w : Bool) : ListLaw (powerFail w s) :=
  hs.images (powerFail_alters w s .tables (by decide)) fun x hx => .inr (tableImages_powerFail w s ▸ hx)

theorem beginStart_tables (c : Cause) (s : State) :
    (beginStart c s).tables = (latest s.store.tableA s.store.tableB).getD defaultTables := by
  unfold beginStart
  exact holdToCeiling_alters _ .tables (by decide)

/-- The tables of a start are those of an image kept, or the defaults (R127). -/
theorem beginStart_tables_of {T : Tables → Prop} (hdefault : T defaultTables) (c : Cause) {s : State}
    (himages : ∀ t ∈ s.store.tableImages, T t) : T (beginStart c s).tables := by
  rw [beginStart_tables]
  cases h : latest s.store.tableA s.store.tableB with
  | none => exact hdefault
  | some t => exact himages t (tableImages_latest h)

theorem listLaw_kept : Kept [.tables, .store] ListLaw ListLaw where
  before := listLaw_reads
  within := listLaw_reads
  enter _ h := h
  leave _ h _ := h
  serveOwner r hr _ _ h := h.serveOwner r hr
  powerFail w s x h := (h.alters (setSupply_alters x s)).powerFail w
  failFast s x h := h.alters (stopAll_supply_alters x s)
  commitTables _ s h := h.images (commitTables_alters s .tables (by decide)) fun x hx =>
    .inr (tableImages_commitTables s x hx)
  commitRetained _ s h := h.images (commitRetained_alters s .tables (by decide)) fun x hx =>
    .inr (tableImages_commitRetained s ▸ hx)
  beginTableWrite _ s h := h.images rfl (tableImages_beginTableWrite s)
  beginRetainedWrite _ _ h _ := h
  beginStart c s h := ⟨beginStart_tables_of listsOk_default c h.2, by rw [beginStart_store]; exact h.2⟩
  powerUp s h := ⟨listsOk_default, fun x hx => h.2 x (tableImages_cutWrites s.store x hx)⟩

/-- Settles O9: a selection record takes its spirals out of the other lists before its own is set; every other change of
the tables leaves the lists, takes the defaults, or takes an image kept. -/
theorem spiralListsStayDisjoint : Obligations.SpiralListsStayDisjoint := fun _ _ hs h => listLaw_kept.step hs h

end Sys2Proof.Machine
end

