-- ==== Sys2Proof/Proofs/TubeLaw.lean ====
section
/-! The tubes' counts and capacities through every step (R29 to R32, R37, R38, R48, R54, R178). -/

/- One lemma after another, to keep the memory of a compile small. -/
set_option Elab.async false

namespace Sys2Proof.Machine

/-! ### One tube's count -/

theorem tube_modTube (n m : Nat) (f : TubeState → TubeState) (s : State) : (modTube n f s).tube m =
    if m = n ∧ n < s.change.tubes.length then f (s.tube n) else s.tube m := by
  simp only [State.tube, modTube, getD_updAt]
  split_ifs with h
  · rw [h.1]
  · rfl

theorem length_modTube (n : Nat) (f : TubeState → TubeState) (s : State) :
    (modTube n f s).change.tubes.length = s.change.tubes.length := length_updAt _ _ _

theorem rawCount_tubes (n k : Nat) (s : State) :
    (rawCount n k s).change.tubes = (modTube n (fun t => { t with count := k }) s).change.tubes := by
  unfold rawCount
  dsimp only
  split <;> rfl

theorem tube_rawCount (n m k : Nat) (s : State) : (rawCount n k s).tube m =
    if m = n ∧ n < s.change.tubes.length then { s.tube n with count := k } else s.tube m := by
  rw [← tube_modTube n m (fun t => { t with count := k })]
  simp only [State.tube, rawCount_tubes]

theorem rawCond_tubes (n : Nat) (c : TubeCond) (s : State) : (rawCond n c s).change.tubes = s.change.tubes ∨
    (rawCond n c s).change.tubes = (modTube n (fun t => { t with cond := c }) s).change.tubes := by
  unfold rawCond
  split
  · exact .inl rfl
  · dsimp only
    split
    · exact .inr (markReplan_alters _ .tubes (by decide))
    · exact .inr (markReplan_alters _ .tubes (by decide))

theorem tubesOk_congr {t u : Tables} (h : u.tubes = t.tubes) (ht : TubesOk t) : TubesOk u := by
  unfold TubesOk Tables.tube at *
  rwa [h]

/-! ### The law through the operations of the Change Unit -/

theorem tubeLaw_reads : Reads [.tables, .store, .tubes] TubeLaw := by
  intro s t h hs
  have htables : t.tables = s.tables := h .tables (by decide)
  have hstore : t.store = s.store := h .store (by decide)
  have htubes : t.change.tubes = s.change.tubes := h .tubes (by decide)
  unfold TubeLaw State.tube at *
  rwa [htables, hstore, htubes]

theorem TubeLaw.alters {ps : List Part} {s t : State} (hs : TubeLaw s) (h : Alters ps s t)
    (ha : Apart [.tables, .store, .tubes] ps := by exact (apart_iff _ _).1 rfl) : TubeLaw t :=
  tubeLaw_reads.alters h ha hs

theorem TubeLaw.lowMark {s : State} (hs : TubeLaw s) {n : Nat} (hn : n < 6) :
    (s.tables.tube n).lowMark ≤ (s.tables.tube n).capacity := by
  obtain ⟨⟨-, h⟩, -⟩ := hs
  exact h n hn

/-- A tube's record changes in place, its count within its capacity. -/
theorem TubeLaw.modTube {s : State} (hs : TubeLaw s) (n : Nat) {f : TubeState → TubeState}
    (hf : n < 6 → (f (s.tube n)).count ≤ (s.tables.tube n).capacity) : TubeLaw (modTube n f s) := by
  obtain ⟨hok, himages, hlen, hcounts⟩ := hs
  refine ⟨hok, himages, (length_modTube n f s).trans hlen, fun m hm => ?_⟩
  rw [tube_modTube]
  split_ifs with h
  · rw [h.1]; exact hf (h.1 ▸ hm)
  · exact hcounts m hm

theorem TubeLaw.keepCount {s : State} (hs : TubeLaw s) (n : Nat) {f : TubeState → TubeState}
    (hf : ∀ t, (f t).count = t.count) : TubeLaw (Machine.modTube n f s) :=
  hs.modTube n fun hn => by
    obtain ⟨-, -, -, hcounts⟩ := hs
    rw [hf]; exact hcounts n hn

/-- Tubes as another state has them, with the tables and the store unchanged. -/
theorem TubeLaw.withTubes {s t : State} (hs : TubeLaw s) (htubes : t.change.tubes = s.change.tubes)
    (htables : t.tables = s.tables) (hstore : t.store = s.store) : TubeLaw t := by
  unfold TubeLaw State.tube at *
  rwa [htables, hstore, htubes]

theorem TubeLaw.rawCount {s : State} (hs : TubeLaw s) {n k : Nat} (hk : n < 6 → k ≤ (s.tables.tube n).capacity) :
    TubeLaw (rawCount n k s) :=
  (hs.modTube n (f := fun t => { t with count := k }) hk).withTubes (rawCount_tubes n k s)
    (rawCount_alters n k s .tables (by decide)) (rawCount_alters n k s .store (by decide))

theorem TubeLaw.rawCond {s : State} (hs : TubeLaw s) (n : Nat) (c : TubeCond) : TubeLaw (rawCond n c s) := by
  have htables : (Machine.rawCond n c s).tables = s.tables := rawCond_alters n c s .tables (by decide)
  have hstore : (Machine.rawCond n c s).store = s.store := rawCond_alters n c s .store (by decide)
  rcases rawCond_tubes n c s with h | h
  · exact hs.withTubes h htables hstore
  · exact (hs.keepCount n (f := fun t => { t with cond := c }) fun _ => rfl).withTubes h htables hstore

theorem TubeLaw.correctCount {s : State} (hs : TubeLaw s) (n : Nat) (w : Correction) {k : Nat}
    (hk : n < 6 → k ≤ (s.tables.tube n).capacity) : TubeLaw (correctCount n w k s) :=
  ((hs.rawCount hk).alters (raiseCorrected_alters n w _ k _)).alters (mapPayout_alters _ _)

theorem TubeLaw.reconcile {s : State} (hs : TubeLaw s) (n : Nat) : TubeLaw (reconcile n s) := by
  have hlow (hn : n < 6) := hs.lowMark hn
  unfold Machine.reconcile
  dsimp only
  split_ifs
  · exact (hs.rawCond n .faulted).alters (raiseTubeFault_alters n 0 _)
  · exact hs
  · exact hs.correctCount n _ fun _ => le_rfl
  · exact hs.correctCount n _ fun hn => (Nat.sub_le _ _).trans (hlow hn)
  · exact hs.correctCount n _ hlow
  · exact hs

theorem TubeLaw.levelRead {s : State} (hs : TubeLaw s) (n : Nat) (full c : Bool) : TubeLaw (levelRead n full s c) := by
  have hset := hs.keepCount n (f := fun t => t.setSensor full (((s.tube n).sensor full).read 3 c).1) fun t => by
    unfold TubeState.setSensor
    split <;> rfl
  have hafter (u v : State) (hv : TubeLaw v) : TubeLaw (afterTubesIf u v) := by
    exact hv.alters (afterTubesIf_alters u v)
  unfold Machine.levelRead
  dsimp only
  split
  · exact hset
  · split
    · exact hafter _ _ (hset.reconcile n)
    · exact hset

theorem TubeLaw.coinIntoTube {s : State} (hs : TubeLaw s) (n : Nat) : TubeLaw (coinIntoTube n s) := by
  unfold Machine.coinIntoTube
  dsimp only
  split_ifs
  · exact ((hs.rawCount fun _ => le_rfl).alters (raiseCorrected_alters n _ _ _ _)).reconcile n
  · exact (hs.rawCount fun _ => by omega).reconcile n

theorem takeCoin_alters_parts (k : Nat) (s : State) : Alters moneyParts s (takeCoin k s) := takeCoin_alters k s

theorem TubeLaw.coinTube {s : State} (hs : TubeLaw s) (k : Nat) : TubeLaw (coinTube k s) := by
  unfold Machine.coinTube
  split
  · exact hs.alters (coinBox_alters k s)
  · exact ((hs.coinIntoTube _).alters (evalExactIf_alters s _)).alters (takeCoin_alters k _)

theorem TubeLaw.coinAtExit {s : State} (hs : TubeLaw s) : TubeLaw (coinAtExit s) := by
  have hstray (k : Nat) : TubeLaw { s with change.stray := k } :=
    hs.withTubes rfl rfl rfl
  have hafter (u v : State) (hv : TubeLaw v) (b : Prop) [Decidable b] :
      TubeLaw (if b then afterTubesIf u v else afterTubes v) := by
    split
    · exact hv.alters (afterTubesIf_alters u v)
    · exact hv.alters (afterTubes_alters v)
  obtain ⟨-, -, -, hcounts⟩ := id hs
  unfold Machine.coinAtExit
  split
  · exact hstray _
  · split
    · exact hstray _
    next p _ _ n _ =>
      refine hafter _ _ ?_ _
      refine TubeLaw.alters (TubeLaw.alters (TubeLaw.alters ?_ (mapPayout_alters _ _)) (countPaid_alters p.kind _ _))
        (setSale_alters _)
      exact (hs.rawCount fun hn => (Nat.sub_le _ _).trans (hcounts n hn)).reconcile n

theorem TubeLaw.decideTube {s : State} (hs : TubeLaw s) (n : Nat) : TubeLaw (decideTube n s).1 := by
  unfold Machine.decideTube
  split_ifs
  · exact (((hs.rawCount fun _ => Nat.zero_le _).alters (raiseCorrected_alters n _ _ 0 _)).reconcile n).alters
      (markReplan_alters _)
  · exact ((hs.rawCond n .faulted).alters (raiseTubeFault_alters n 1 _)).alters (markReplan_alters _)
  · exact hs.alters (markReplan_alters s)

theorem TubeLaw.miss {s : State} (hs : TubeLaw s) (n : Nat) (b : Bool) : TubeLaw (miss n b s).1 := by
  unfold Machine.miss
  split
  · exact (hs.decideTube n).alters (afterTubesIf_alters s _)
  · exact hs.alters (mapPayout_alters _ s)

theorem TubeLaw.windowCloses {s : State} (hs : TubeLaw s) : TubeLaw (windowCloses s) := by
  unfold Machine.windowCloses
  split
  · exact hs
  · split
    · exact hs
    next p _ _ n _ =>
      have hpayout : TubeLaw { s with change.payout := some { p with pulsed := none, energised := none } } :=
        hs.alters (setPayout_alters _ s)
      refine TubeLaw.alters (TubeLaw.alters ?_ (replanIfMarked_alters _)) (afterWindow_alters _ _)
      split
      · exact hpayout.miss n p.isRetry
      · exact hpayout

theorem TubeLaw.clearFault {s : State} (hs : TubeLaw s) (n : Nat) : TubeLaw (clearFault n s) :=
  ((hs.rawCond n .ok).reconcile n).alters (afterTubes_alters _)

/-! ### The law through the polls of the line -/

theorem TubeLaw.validatorPair {s : State} (hs : TubeLaw s) (slot code arg : Nat) :
    TubeLaw (validatorPair slot code arg s) := by
  unfold Machine.validatorPair
  split_ifs
  · exact (hs.coinTube arg).alters (endEconomy_alters _ _)
  · exact (hs.alters (coinBox_alters arg s)).alters (endEconomy_alters _ _)
  · exact hs.alters (raise_alters _ _ _ s)
  · exact hs.alters (returnLever_alters s)
  · exact hs.alters (faultPair_alters slot arg s)
  · exact hs.alters (raise_alters _ _ _ s)

theorem readPairs_keeps {P : State → Prop} {pair : Nat → Nat → State → State} (h : ∀ c a s, P s → P (pair c a s)) :
    ∀ (l : List Byte) (s : State), P s → P (readPairs pair l s)
  | [], _, hs => hs
  | [_], _, hs => hs
  | _ :: _ :: rest, _, hs => readPairs_keeps h rest _ (h _ _ _ hs)

/-- The parts of a reader's reports, which leave the tubes alone. -/
def readerParts : List Part := .escrow :: .slots :: .economy :: moneyParts

theorem readerPair_alters_parts (slot code arg : Nat) (s : State) :
    Alters readerParts s (readerPair slot code arg s) := by
  unfold readerPair
  split_ifs
  · exact (noteEscrow_alters arg s).seq (endEconomy_alters _ _)
  · exact (noteStacked_alters arg s).mono
  · exact (noteReturned_alters arg s).mono
  · exact (raise_alters _ _ _ s).mono
  · exact (faultPair_alters slot arg s).mono
  · exact (raise_alters _ _ _ s).mono

theorem TubeLaw.readPoll {s : State} (hs : TubeLaw s) (slot : Nat) (l : List Byte) : TubeLaw (readPoll slot l s) := by
  unfold Machine.readPoll
  split
  · exact readPairs_keeps (P := TubeLaw) (fun c a u hu => hu.validatorPair slot c a) l s hs
  · exact hs.alters (readPairs_alters readerParts _ (readerPair_alters_parts slot) l s)
  · split
    · exact hs
    · exact hs.alters (raisePassReply_alters _ _ _ _ s)
  · exact hs

theorem tellSilent_alters_parts (slot : Nat) (s : State) : Alters (.escrow :: moneyParts) s (tellSilent slot s) := by
  unfold tellSilent
  split
  · exact (recomputeMasks_alters s).mono
  · exact (expireEscrow_alters s).seq (recomputeNote_alters _)
  · exact .refl _ _

theorem slotMissed_alters_parts (slot : Nat) (s : State) :
    Alters (.slots :: .escrow :: moneyParts) s (slotMissed slot s) := by
  unfold slotMissed
  dsimp only
  split
  · exact ((((modSlot_alters _ _ s).seq (rs := [.slots]) (modSlot_alters _ _ _)).seq (rs := [.slots, .events])
      (raise_alters _ _ _ _)).seq (tellSilent_alters_parts _ _))
  · exact (modSlot_alters _ _ s).mono

/-- The slot's record takes an outcome, which leaves the tubes alone. -/
theorem slotTakes_alters (slot : Nat) (o : TransEnd) (s : State) : Alters (.slots :: .escrow :: moneyParts) s
    (match o with | .replied _ => slotReplied slot s | .missed => slotMissed slot s | .badReply => slotMissed slot s) := by
  cases o
  case replied => exact (slotReplied_alters slot s).mono
  case missed => exact slotMissed_alters_parts slot s
  case badReply => exact slotMissed_alters_parts slot s

theorem TubeLaw.handOn {s : State} (hs : TubeLaw s) (x : Trans) (o : TransEnd) : TubeLaw (handOn x o s) := by
  unfold Machine.handOn
  split
  · split
    · exact hs
    · exact (hs.readPoll _ _).alters (modSlot_alters _ _ _)
  · exact hs
  · exact hs
  · exact hs.alters (returnFlying_alters _ s)
  · exact hs.alters (returnFlying_alters _ s)
  · exact hs.alters (returnFlying_alters _ s)
  · exact hs.alters (returnPass_alters _ _ _ s)
  · exact hs.alters (returnPass_alters _ _ _ s)
  · exact hs.alters (returnPass_alters _ _ _ s)

/-- A law that a transaction's end keeps when its outcome, handed on, keeps it. -/
theorem endTrans_keeps {P Q : State → Prop} {x : Trans} {o : TransEnd} {s : State} (hs : P s)
    (hleft : ∀ b u, P u → P (leaveTrans b u)) (hslot : ∀ o u, P u → P (match (o : TransEnd) with
      | .replied _ => slotReplied x.slot u | .missed => slotMissed x.slot u | .badReply => slotMissed x.slot u))
    (hhand : ∀ o u, P u → Q (handOn x o u)) : Q (endTrans x o s) := by
  unfold endTrans
  dsimp only
  refine hhand _ _ ?_
  split
  · exact hleft _ _ hs
  · exact hslot _ _ (hleft _ _ hs)

theorem TubeLaw.endTrans {s : State} (hs : TubeLaw s) (x : Trans) (o : TransEnd) : TubeLaw (endTrans x o s) :=
  endTrans_keeps hs (fun b u hu => hu.alters (leaveTrans_alters b u))
    (fun o u hu => hu.alters (slotTakes_alters x.slot o u)) fun o _ hu => hu.handOn x o

/-! ### The law through the tables -/

/-- The images kept, all of them or fewer, or the tables in use beside them. -/
theorem TubeLaw.images {s t : State} (hs : TubeLaw s) (htables : t.tables = s.tables)
    (htubes : t.change.tubes = s.change.tubes)
    (h : ∀ x ∈ t.store.tableImages, x = s.tables ∨ x ∈ s.store.tableImages) : TubeLaw t := by
  obtain ⟨hok, himages, hcounts⟩ := hs
  refine ⟨htables ▸ hok, fun x hx => ?_, by unfold State.tube at *; rwa [htables, htubes]⟩
  rcases h x hx with rfl | hx
  · exact hok
  · exact himages x hx

/-- Tables with the same tube records. -/
theorem TubeLaw.sameTubes {s t : State} (hs : TubeLaw s) (h : t.tables.tubes = s.tables.tubes)
    (hstore : t.store = s.store) (htubes : t.change.tubes = s.change.tubes) : TubeLaw t := by
  obtain ⟨hok, himages, hcounts⟩ := hs
  refine ⟨tubesOk_congr h hok, hstore ▸ himages, ?_⟩
  unfold State.tube Tables.tube at *
  rwa [h, htubes]

/-- One tube takes a new record, with a count within its capacity. -/
theorem TubeLaw.retube {s t : State} (hs : TubeLaw s) {n : Nat} {r : TubeRec} (hlow : r.lowMark ≤ r.capacity)
    (htables : t.tables.tubes = updAt s.tables.tubes n fun _ => r) (hstore : t.store = s.store)
    (hlen : t.change.tubes.length = s.change.tubes.length) (hother : ∀ m, m ≠ n → t.tube m = s.tube m)
    (hn : n < 6 → (t.tube n).count ≤ r.capacity) : TubeLaw t := by
  obtain ⟨⟨hsix, hlows⟩, himages, hlength, hcounts⟩ := hs
  have htube (m : Nat) : t.tables.tube m = if m = n ∧ n < 6 then r else s.tables.tube m := by
    simp only [Tables.tube, htables, getD_updAt, hsix]
  refine ⟨⟨by rw [htables, length_updAt, hsix], fun m hm => ?_⟩, hstore ▸ himages, hlen.trans hlength, fun m hm => ?_⟩
  · rw [htube]
    split_ifs
    · exact hlow
    · exact hlows m hm
  · rw [htube]
    split_ifs with h
    · rw [h.1]; exact hn h.2
    · by_cases hmn : m = n
      · exact absurd ⟨hmn, hmn ▸ hm⟩ h
      · rw [hother m hmn]; exact hcounts m hm

theorem TubeLaw.applyTube {s : State} (hs : TubeLaw s) {n : Nat} {r : TubeRec} (hlow : r.lowMark ≤ r.capacity) :
    TubeLaw (applyTube n r s) := by
  have hstored (u : State) (k : Nat) (w : Correction) (old : Nat)
      (hu : u.tables.tubes = updAt s.tables.tubes n fun _ => r) (hstore : u.store = s.store)
      (htubes : u.change.tubes = s.change.tubes) (hk : k ≤ r.capacity) :
      TubeLaw (raiseCorrected n w old k (Machine.rawCount n k u)) := by
    refine TubeLaw.alters ?_ (raiseCorrected_alters n w old k _)
    refine hs.retube (n := n) hlow ?_ ?_ ?_ (fun m hm => ?_) fun hn => ?_
    · rw [← hu]; exact congrArg Tables.tubes (rawCount_alters n k u .tables (by decide))
    · exact (rawCount_alters n k u .store (by decide)).trans hstore
    · rw [rawCount_tubes, length_modTube, htubes]
    · rw [tube_rawCount, if_neg fun h => hm h.1, State.tube, State.tube, htubes]
    · have hlt : n < u.change.tubes.length := by
        obtain ⟨-, -, hlength, -⟩ := hs
        rw [htubes]; omega
      rw [tube_rawCount, if_pos ⟨rfl, hlt⟩]
      exact hk
  unfold Machine.applyTube
  dsimp only
  refine TubeLaw.reconcile (TubeLaw.rawCond ?_ _ _) _
  split_ifs with htype hcap
  · exact hstored _ _ _ _ rfl rfl rfl le_rfl
  · exact hs.retube hlow rfl rfl rfl (fun _ _ => rfl) fun _ => by exact not_lt.1 hcap
  · exact hstored _ _ _ _ rfl rfl rfl (Nat.zero_le _)

/-- A record of another table leaves the tubes as they stand. -/
theorem recordStep_tubeStates {table i : Nat} {r : List Byte} {s : State} {x : State × Nat × Nat} (ht : table ≠ 2)
    (h : recordStep table i r s = .ok x) : x.1.change.tubes = s.change.tubes := by
  unfold recordStep at h
  split at h
  · rw [loadMoney_eq] at h
    cases h
    exact (recomputeMasks_alters _ .tubes (by decide)).trans (moneyTaken_alters r s .tubes (by decide))
  · unfold loadCoin at h
    split at h
    · simp at h
    · cases h; rfl
  · exact absurd rfl ht
  · cases h; rfl
  · obtain ⟨new, -, -, -, -, hx⟩ := loadSel_state h
    rw [hx]
    exact applySel_alters i new s .tubes (by decide)
  · cases h; rfl
  · cases h; rfl
  · cases h; rfl
  · cases h; rfl
  · unfold loadLoads at h
    cases h
    exact budgetChanged_alters _ .tubes (by decide)
  · obtain ⟨k, hx⟩ := loadSlot_state h
    rw [hx]
    exact setSlotKind_alters_parts (i + 1) k s .tubes (by decide)
  · cases h; rfl
  · cases h; rfl
  · simp at h

theorem TubeLaw.record {table i : Nat} {r : List Byte} {s : State} {x : State × Nat × Nat} (hs : TubeLaw s)
    (h : recordStep table i r s = .ok x) : TubeLaw x.1 := by
  have hframe := loadRecord_alters table i r s x h
  by_cases ht : table = 2
  · subst ht
    obtain ⟨t, hlow, hx⟩ := loadTube_state h
    rw [hx]
    exact hs.applyTube hlow
  · exact hs.sameTubes (recordStep_tubes ht h) (hframe .store (by decide)) (recordStep_tubeStates ht h)

/-- The default tables of Factory Clear (R178). -/
theorem TubeLaw.restoreDefaults {s : State} (hs : TubeLaw s) : TubeLaw (restoreDefaults s) := by
  have hmoney : TubeLaw (defaultMoneyAndCoins s) := hs.sameTubes rfl rfl rfl
  have htubes : TubeLaw (applyDefaultTubes (defaultMoneyAndCoins s)) :=
    keeps_foldl (P := TubeLaw) (fun u n hu => hu.applyTube (Nat.zero_le _)) _ hmoney
  have hdefaults (u : State) (hu : TubeLaw u) : TubeLaw (applyPlainDefaults (applyDefaultSels u)) :=
    hu.sameTubes rfl rfl rfl
  have hplain := hdefaults _ htubes
  have hmasks := (hplain.alters (evalExact_alters _)).alters (recomputeMasks_alters _)
  have hloaded (u : State) (hu : TubeLaw u) : TubeLaw { u with tables.loads := defaultLoads } :=
    hu.sameTubes rfl rfl rfl
  have hloads := (hloaded _ hmasks).alters (budgetChanged_alters _)
  refine keeps_foldl (P := TubeLaw) (fun u a hu => hu.sameTubes ?_ ?_ ?_) _ hloads
  · rcases setSlotKind_tables a (defaultSlotKinds.getD (a - 1) .unused) u with h | h <;> rw [h]
  · exact setSlotKind_alters_parts a _ u .store (by decide)
  · exact setSlotKind_alters_parts a _ u .tubes (by decide)

theorem TubeLaw.factoryClear {s : State} (hs : TubeLaw s) : TubeLaw (factoryClear s) := by
  have hlock := (hs.alters (clearLock_alters s)).alters (clearAudit_alters _)
  have htubes : TubeLaw (clearTubes (Machine.restoreDefaults (clearAudit (clearLock s)))) := by
    refine TubeLaw.alters ?_ (afterTubes_alters _)
    exact keeps_foldl (P := TubeLaw)
      (fun u n hu => ((hu.rawCount fun _ => Nat.zero_le _).rawCond n .ok).reconcile n) _ hlock.restoreDefaults
  exact (htubes.alters (clearHolds_alters _)).images rfl rfl (by simp [Machine.factoryClear, tableImages_clearStore])

theorem TubeLaw.tablesChanged {s : State} (hs : TubeLaw s) : TubeLaw (tablesChanged s) :=
  hs.images (tablesChanged_alters s .tables (by decide)) (tablesChanged_alters s .tubes (by decide))
    (tableImages_tablesChanged s)

/-- Apply leaves the tube table. -/
theorem applyTo_tubes (a : Action) (x : State × Nat × Nat) (i : Nat) :
    (applyTo a x i).1.tables.tubes = x.1.tables.tubes := by
  have hrefill (l : List Nat) (u : State) : (l.foldl (fun s p => refill p s) u).tables = u.tables :=
    Alters.foldl _ (fun s p => modSpiral_alters p _ s) l u .tables (by decide)
  unfold applyTo
  cases a with
  | setPrice price => rfl
  | inhibit => rfl
  | enable => dsimp only; split <;> rfl
  | restock =>
    dsimp only
    split
    · rfl
    · simp only [modSel_tables, hrefill]

theorem TubeLaw.serveOwner {s : State} (hs : TubeLaw s) (r : Request) (h : ¬Apart [.tables, .store, .tubes] r.parts) :
    TubeLaw (serveOwner r s).1 := by
  cases r
  case load table first count records =>
    exact serveLoad_keeps (P := TubeLaw) (fun _ _ _ _ hx hu => hu.record hx)
      (fun u hu => hu.alters (afterSection_alters_parts table u)) (fun _ hu => hu.tablesChanged) hs
  case factoryClear =>
    show TubeLaw (serveFactoryClear s).1
    unfold serveFactoryClear
    split_ifs
    · exact hs
    · exact hs
    · exact hs
    · exact hs.factoryClear
  case apply code price =>
    obtain ⟨a, l, u, hu, happly⟩ := serveApply_cases code price s
    have happlied : TubeLaw u := by
      have hall := applyAll_alters_parts a l (s, 0, 0)
      refine TubeLaw.alters (hs.sameTubes ?_ (hall .store (by decide)) (hall .tubes (by decide))) hu
      exact keeps_foldl (P := fun x : State × Nat × Nat => x.1.tables.tubes = s.tables.tubes)
        (fun x i hx => (applyTo_tubes a x i).trans hx) l rfl
    rcases happly with happly | happly
    · exact (congrArg TubeLaw happly).mpr happlied
    · exact (congrArg TubeLaw happly).mpr happlied.tablesChanged
  case clearTubeFault n =>
    show TubeLaw (serveClearTube n s).1
    unfold serveClearTube
    split
    · exact hs
    · exact hs.clearFault n
  all_goals exact absurd ((apart_iff _ _).1 rfl) h

/-! ### Every step -/

/-- The tubes of a start count no more than their tables allow (R54). -/
theorem beginStart_tubes (c : Cause) (s : State) : ∃ img, (beginStart c s).change.tubes =
    (List.range 6).map (startTube (beginStart c s).tables img) := by
  refine ⟨latest s.store.retainedA s.store.retainedB, ?_⟩
  rw [beginStart_tables]
  unfold beginStart
  exact holdToCeiling_alters _ .tubes (by decide)

theorem tubesOk_default : TubesOk defaultTables := by
  unfold TubesOk
  decide

theorem startTube_count (x : Tables) (img : Option Retained) (n : Nat) :
    (startTube x img n).count ≤ (x.tube n).capacity := by
  unfold startTube
  split
  · exact Nat.zero_le _
  · exact Nat.min_le_left _ _

theorem TubeLaw.beginStart {s : State} (hs : TubeLaw s) (c : Cause) : TubeLaw (beginStart c s) := by
  obtain ⟨-, himages, -⟩ := hs
  obtain ⟨img, htubes⟩ := beginStart_tubes c s
  refine ⟨beginStart_tables_of tubesOk_default c himages, by rw [beginStart_store]; exact himages, by simp [htubes],
    fun n hn => ?_⟩
  have hget : (Machine.beginStart c s).tube n = startTube (Machine.beginStart c s).tables img n := by
    simp [State.tube, htubes, List.getD_eq_getElem?_getD, hn]
  rw [hget]
  exact startTube_count _ _ _

theorem TubeLaw.reconcileAll {s : State} (hs : TubeLaw s) : TubeLaw (reconcileAll s) :=
  (keeps_foldl (P := TubeLaw) (fun _ n hu => hu.reconcile n) (List.range 6) hs).alters (evalExactSilent_alters _)

theorem tubeLaw_kept : Kept [.tables, .store, .tubes] TubeLaw TubeLaw where
  before := tubeLaw_reads
  within := tubeLaw_reads
  enter _ h := h
  leave _ h _ := h
  serveOwner r hr _ _ h := h.serveOwner r hr
  endTrans x o _ _ _ h := h.endTrans x o
  levelRead n full c _ _ _ h := h.levelRead n full c
  coinAtExit _ _ _ h := h.coinAtExit
  windowCloses _ _ _ h := h.windowCloses
  powerFail w s x h := by
    have hset := h.alters (setSupply_alters x s)
    have hframe := powerFail_alters w { s with supply := x }
    exact hset.images (hframe .tables (by decide)) (hframe .tubes (by decide)) fun y hy =>
      .inr (tableImages_powerFail w _ ▸ hy)
  failFast s x h := h.alters (stopAll_supply_alters x s)
  commitTables _ s h := h.images (commitTables_alters s .tables (by decide)) (commitTables_alters s .tubes (by decide))
    fun x hx => .inr (tableImages_commitTables s x hx)
  commitRetained _ s h := h.images (commitRetained_alters s .tables (by decide))
    (commitRetained_alters s .tubes (by decide)) fun x hx => .inr (tableImages_commitRetained s ▸ hx)
  beginTableWrite _ s h := h.images rfl rfl (tableImages_beginTableWrite s)
  beginRetainedWrite _ _ h _ := h
  beginStart c s h := h.beginStart c
  powerUp s h := by
    obtain ⟨-, himages, -⟩ := h
    refine ⟨tubesOk_default, fun x hx => himages x (tableImages_cutWrites s.store x hx), rfl, ?_⟩
    show ∀ n < 6, (State.reset.tube n).count ≤ (State.reset.tables.tube n).capacity
    decide
  sampling _ c s _ h := h.reconcileAll.alters (ps := [.compressor, .phase])
    (by intro p hp; cases p <;> simp_all [Part.same])

/-- Settles O8: the filter moves a temperature toward a converted one, which the curve's clamps hold to range, and goes
no further than it; every count set is at most its tube's capacity, and R38 sets the capacity or the low mark. -/
theorem temperaturesAndTubeCountsStayInRange : Obligations.TemperaturesAndTubeCountsStayInRange :=
  ⟨fun _ _ hs h => temperatureLaw_kept.step hs h, fun _ _ hs h => tubeLaw_kept.step hs h⟩

end Sys2Proof.Machine
end

