-- ==== Sys2Proof/Proofs/QueueGrowth.lean ====
section
/-! What every operation does to the Event Queue and the two queues of the line (R138, R144, R170): it is made of single
changes to them, so a relation that those are in holds from before to after each operation. -/

/- One lemma after another, to keep the memory of a compile small. -/
set_option Elab.async false

namespace Sys2Proof.Machine

/-- The queues, and the time that an event is stamped with. -/
def queueParts : List Part := [.events, .cmdQueue, .passQueue, .seconds]

/-- A relation from before to after: what leaves the queues alone is in it, and so is every single change to a queue. -/
structure Growth (R : State → State → Prop) : Prop where
  refl : ∀ s, R s s
  trans : ∀ {s t u}, R s t → R t u → R s u
  frame : ∀ {ps s t}, Alters ps s t → Apart queueParts ps → R s t
  raise : ∀ k x v s, R s (raise k x v s)
  passReply : ∀ a r t l s, R s (raisePassReply a r t l s)
  queue : ∀ s q, (q.map Cmd.isMasks).Sublist (s.line.queue.map Cmd.isMasks) → R s { s with line.queue := q }
  masks : ∀ a p m s, R s (enqueueMasks a p m s)
  escrow : ∀ s e, e.isMasks = false → s.line.queue.length < Config.lineQueueSize →
    R s { s with line.queue := insertEscrow e s.line.queue }
  displaced : ∀ s e q m, e.isMasks = false → removeLastMasks s.line.queue = (q, some m) →
    R s { s with line.queue := insertEscrow e q }
  back : ∀ s x, R s { s with line.escrowBack := x }
  pass : ∀ s l, l.length ≤ s.line.pass.length → R s { s with line.pass := l }

theorem Growth.ite {R : State → State → Prop} (_ : Growth R) {c : Prop} [Decidable c] {s t u : State} (ht : R s t)
    (hu : R s u) : R s (if c then t else u) := by
  split
  · exact ht
  · exact hu

section
variable {R : State → State → Prop} (G : Growth R)
include G

theorem Growth.still {ps : List Part} {s t : State} (h : Alters ps s t)
    (ha : Apart queueParts ps := by exact (apart_iff _ _).1 rfl) : R s t := G.frame h ha

theorem Growth.foldl {α : Type} {f : State → α → State} (hf : ∀ s a, R s (f s a)) (l : List α) (s : State) :
    R s (l.foldl f s) := by
  induction l generalizing s with
  | nil => exact G.refl s
  | cons a l ih => exact G.trans (hf s a) (ih _)

/-! ### Masks and the internal queue -/

theorem Growth.compareMasks (p : Periph) (s : State) : R s (compareMasks p s) := by
  unfold Machine.compareMasks
  split
  · exact G.refl s
  · exact G.ite (G.refl s) (G.masks _ _ _ s)

theorem Growth.sendMasks (p : Periph) (m : Masks) (s : State) : R s (sendMasks p m s) :=
  G.ite (G.refl s) (G.trans (G.still (modMaskRec_alters p _ s)) (G.compareMasks p _))

theorem Growth.recomputeNote (s : State) : R s (recomputeNote s) := by
  have hmask (m : BitVec 8) : Alters [.noteMask] s { s with credit.noteMask := m } := by
    intro p hp; cases p <;> simp_all [Part.same]
  exact G.ite (G.trans (G.still (hmask _)) (G.sendMasks _ _ _)) (G.refl s)

theorem Growth.recomputeMasks (s : State) : R s (recomputeMasks s) := by
  have hmasks (a r : BitVec 16) : Alters [.coinMasks] s { s with change.accept := a, change.route := r } := by
    intro p hp; cases p <;> simp_all [Part.same]
  exact G.ite (G.trans (G.trans (G.still (hmasks _ _)) (G.sendMasks _ _ _)) (G.recomputeNote _)) (G.refl s)

theorem Growth.masksIfHeld (o s : State) : R s (masksIfHeld o s) := G.ite (G.refl s) (G.recomputeMasks s)

theorem Growth.pushMasks (b : Line) (s : State) : R s (pushMasks b s) :=
  have hvalidator := G.ite (c := (b.validator.push && s.line.validator.push && s.periphPresent .validator) = true)
    (G.compareMasks .validator s) (G.refl s)
  G.trans hvalidator (G.ite (G.compareMasks .reader _) (G.refl _))

theorem Growth.masksDropped (a : Nat) (p : Periph) (s : State) : R s (masksDropped a p s) :=
  G.still (masksDropped_alters a p s)

theorem Growth.countDropped (s : State) : R s (countDropped s) := G.still (countDropped_alters s)

theorem Growth.dropMasksEntry (e : Cmd) (s : State) : R s (dropMasksEntry e s) := by
  unfold Machine.dropMasksEntry
  split
  · exact G.trans (G.countDropped s) (G.masksDropped _ _ _)
  · exact G.countDropped s

theorem Growth.placeEscrow (d : Decision) (n : Nat) (k : Bool) (s : State) : R s (placeEscrow d n k s) := by
  unfold Machine.placeEscrow
  split
  · exact G.refl s
  · dsimp only
    split
    next h => exact G.escrow s _ rfl h
    next =>
      split
      next q m h => exact G.trans (G.trans (G.displaced s _ q m rfl h) (G.dropMasksEntry m _)) (G.pushMasks _ _)
      next => exact G.trans (G.countDropped s) (G.ite (G.back _ _) (G.refl _))

theorem Growth.masksReturn (r : CmdReturn) (a : Nat) (m : Masks) (s : State) : R s (masksReturn r a m s) := by
  have hrec (f : MaskRec → MaskRec) : R s (modMaskRec m.periph f s) := G.still (modMaskRec_alters _ f s)
  unfold Machine.masksReturn
  dsimp only
  split
  · split
    · exact hrec _
    · exact G.trans (hrec _) (G.ite (G.compareMasks _ _) (G.refl _))
    · exact G.masksDropped _ _ s
  · exact G.refl s

theorem Growth.escrowReturn (r : CmdReturn) (d : Decision) (n : Nat) (k : Bool) (s : State) :
    R s (escrowReturn r d n k s) := by
  unfold Machine.escrowReturn
  split
  · exact G.refl s
  · exact G.ite (G.placeEscrow d n true s) (G.refl s)

theorem Growth.pushWaiting (b : Line) (s : State) : R s (pushWaiting b s) := by
  unfold Machine.pushWaiting
  dsimp only
  split
  · exact G.trans (G.trans (G.back s _) (G.ite (G.placeEscrow _ _ _ _) (G.refl _))) (G.pushMasks b _)
  · exact G.pushMasks b s

theorem Growth.returnCmd (r : CmdReturn) (e : Cmd) (s : State) : R s (returnCmd r e s) := by
  have hcount := G.ite (c := r = .dropped) (G.countDropped s) (G.refl s)
  unfold Machine.returnCmd
  dsimp only
  generalize (if r = .dropped then Machine.countDropped s else s) = u at hcount
  refine G.trans (G.trans hcount ?_) (G.pushWaiting _ _)
  split
  · exact G.masksReturn _ _ _ _
  · exact G.escrowReturn _ _ _ _ _

/-! ### Tubes -/

theorem Growth.evalExact (s : State) : R s (evalExact s) := by
  have hexact (b : Bool) : R s { s with change.exact := b } :=
    G.still (ps := [.exact]) (by intro p hp; cases p <;> simp_all [Part.same])
  unfold Machine.evalExact
  dsimp only
  split
  · exact G.refl s
  · refine G.trans ?_ (G.recomputeNote _)
    split
    · exact G.trans (hexact _) (G.raise _ _ _ _)
    · exact G.trans (hexact _) (G.raise _ _ _ _)

theorem Growth.rawCount (n k : Nat) (s : State) : R s (rawCount n k s) := G.still (rawCount_alters n k s)
theorem Growth.rawCond (n : Nat) (c : TubeCond) (s : State) : R s (rawCond n c s) := G.still (rawCond_alters n c s)
theorem Growth.markReplan (s : State) : R s (markReplan s) := G.still (markReplan_alters s)
theorem Growth.mapPayout (f : Payout → Payout) (s : State) : R s { s with change.payout := s.change.payout.map f } :=
  G.still (mapPayout_alters f s)

theorem Growth.correctCount (n : Nat) (w : Correction) (k : Nat) (s : State) : R s (correctCount n w k s) :=
  G.trans (G.trans (G.rawCount n k s) (G.raise _ _ _ _)) (G.mapPayout _ _)

theorem Growth.reconcile (n : Nat) (s : State) : R s (reconcile n s) :=
  G.ite (G.ite (G.trans (G.rawCond n .faulted s) (G.raise _ _ _ _)) (G.refl s))
    (G.ite (G.correctCount _ _ _ s) (G.ite (G.correctCount _ _ _ s) (G.ite (G.correctCount _ _ _ s) (G.refl s))))

theorem Growth.afterTubes (s : State) : R s (afterTubes s) := G.trans (G.evalExact s) (G.recomputeMasks _)
theorem Growth.afterTubesIf (o s : State) : R s (afterTubesIf o s) := G.ite (G.refl s) (G.afterTubes s)

theorem Growth.levelRead (n : Nat) (full : Bool) (s : State) (c : Bool) : R s (levelRead n full s c) := by
  unfold Machine.levelRead
  dsimp only
  split
  · exact G.still (modTube_alters _ _ s)
  · exact G.ite (G.trans (G.trans (G.still (modTube_alters _ _ s)) (G.reconcile n _)) (G.afterTubesIf _ _))
      (G.still (modTube_alters _ _ s))

/-! ### Money -/

theorem Growth.setSale (s : State) : R s (setSale s) := G.still (setSale_alters s)
theorem Growth.payoutTest (s : State) : R s (payoutTest s) := G.still (payoutTest_alters s)
theorem Growth.request (x : Load) (s : State) : R s (request x s) := G.still (request_alters x s)
theorem Growth.release (x : Load) (s : State) : R s (release x s) := G.still (release_alters x s)

/-- A change of the four amounts, of the totals, or of the short-end wait. -/
theorem Growth.amounts {s : State} {c h e d : Nat} {a : Audit} {w : Bool} :
    R s { s with credit.credit := c, credit.vendHold := h, credit.escrowReserve := e, credit.returnDue := d,
                 audit := a, change.shortWait := w } :=
  G.still (ps := [.amounts, .audit, .shortWait]) (by intro p hp; cases p <;> simp_all [Part.same])

theorem Growth.addReturnDue (a : Nat) (s : State) : R s (addReturnDue a s) := by
  have hdue : R s { s with credit.returnDue := s.credit.returnDue + returnFits s.credit.returnDue a } := G.amounts
  have hmarked : R s (if returnFits s.credit.returnDue a = 0 then
      { s with credit.returnDue := s.credit.returnDue + returnFits s.credit.returnDue a }
      else Machine.markReplan { s with credit.returnDue := s.credit.returnDue + returnFits s.credit.returnDue a,
                                       change.shortWait := false }) :=
    G.ite hdue (G.trans (G.trans hdue G.amounts) (G.markReplan _))
  unfold Machine.addReturnDue
  exact G.ite hmarked (G.trans (G.trans hmarked G.amounts) (G.raise _ _ _ _))

theorem Growth.creditToReturn (s : State) : R s (creditToReturn s) :=
  G.trans (t := { s with credit.credit := 0 }) G.amounts (G.addReturnDue _ _)

theorem Growth.returnAll (s : State) : R s (returnAll s) :=
  G.trans (G.trans (G.trans (G.trans (G.creditToReturn s) G.amounts) (G.setSale _)) (G.payoutTest _))
    (G.masksIfHeld _ _)

theorem Growth.returnLever (s : State) : R s (returnLever s) := by
  unfold Machine.returnLever
  split
  · exact G.refl s
  · exact G.ite (G.refl s) (G.returnAll s)
  · exact G.returnAll s
  · exact G.still (ps := [.pendingReturn]) (by intro p hp; cases p <;> simp_all [Part.same])

theorem Growth.creditMoney (k : EventKind) (x v : Nat) (s : State) : R s (creditMoney k x v s) := by
  have hcredited (c : Nat) (a : Audit) : R s { s with credit.credit := c, audit := a } := G.amounts
  have hraised (c : Nat) (a : Audit) := G.trans (hcredited c a) (G.raise k (some x) (val v) _)
  have hover (c : Nat) (a : Audit) (m : Nat) := G.trans (hraised c a) (G.addReturnDue m _)
  exact G.trans (G.trans (G.trans (G.ite (hraised _ _) (G.trans (hover _ _ _) (G.raise _ _ _ _))) (G.setSale _))
    (G.payoutTest _)) (G.recomputeMasks _)

theorem Growth.removeEscrow (s : State) : R s (removeEscrow s) := by
  have hback := G.back s none
  refine G.trans hback ?_
  exact G.still (ps := [.escrow, .amounts]) (by intro p hp; cases p <;> simp_all [Part.same, Machine.removeEscrow])

theorem Growth.expireEscrow (s : State) : R s (expireEscrow s) := by
  unfold Machine.expireEscrow
  split
  · exact G.refl s
  · exact G.trans (G.trans (G.trans (G.removeEscrow s) (G.raise _ _ _ _)) (G.setSale _)) (G.recomputeMasks _)

theorem Growth.noteEscrow (n : Nat) (s : State) : R s (noteEscrow n s) := by
  have hrecord (e : Option Escrow) (v : Nat) : R s { s with credit.escrow := e, credit.escrowReserve := v } :=
    G.still (ps := [.escrow, .amounts]) (by intro p hp; cases p <;> simp_all [Part.same])
  have hdecided (e : Option Escrow) : R s { s with credit.escrow := e } := hrecord e s.credit.escrowReserve
  unfold Machine.noteEscrow
  split
  · exact G.placeEscrow _ _ _ s
  · exact G.ite (G.trans (G.trans (G.trans (hrecord _ _) (G.setSale _)) (G.placeEscrow _ _ _ _)) (G.recomputeMasks _))
      (G.trans (hdecided _) (G.placeEscrow _ _ _ _))

theorem Growth.noteStacked (n : Nat) (s : State) : R s (noteStacked n s) := by
  unfold Machine.noteStacked
  dsimp only
  split
  · split
    · split
      · exact G.trans (G.trans (G.trans (G.trans (t := { s with credit.credit := _, audit := _ }) G.amounts
          (G.removeEscrow _)) (G.raise _ _ _ _)) (G.setSale _)) (G.recomputeMasks _)
      · exact G.trans (G.removeEscrow s) (G.creditMoney _ _ _ _)
    · exact G.creditMoney _ _ _ s
  · exact G.creditMoney _ _ _ s

theorem Growth.noteReturned (n : Nat) (s : State) : R s (noteReturned n s) := by
  unfold Machine.noteReturned
  split
  · split
    · have hraised := G.trans (G.removeEscrow s) (G.raise .noteReturned (some n) (val (s.tables.note n).value) _)
      dsimp only
      split
      · exact G.trans (G.trans hraised (G.setSale _)) (G.recomputeMasks _)
      · exact hraised
    · exact G.refl s
  · exact G.refl s

/-! ### Coins and payouts -/

theorem Growth.takeCoin (k : Nat) (s : State) : R s (takeCoin k s) :=
  G.ite (G.trans (G.trans (t := { s with audit := _ }) G.amounts (G.raise _ _ _ _)) (G.recomputeMasks _))
    (G.creditMoney _ _ _ s)

theorem Growth.coinIntoTube (n : Nat) (s : State) : R s (coinIntoTube n s) :=
  G.ite (G.trans (G.trans (G.rawCount _ _ s) (G.raise _ _ _ _)) (G.reconcile n _))
    (G.trans (G.rawCount _ _ s) (G.reconcile n _))

theorem Growth.coinTube (k : Nat) (s : State) : R s (coinTube k s) := by
  unfold Machine.coinTube
  split
  · exact G.takeCoin k s
  · exact G.trans (G.trans (G.coinIntoTube _ s) (G.ite (G.refl _) (G.evalExact _))) (G.takeCoin k _)

theorem Growth.endPayout (s : State) : R s (endPayout s) := G.still (endPayout_alters s)

theorem Growth.payoutDone (s : State) : R s (payoutDone s) := G.trans (G.raise _ _ _ s) (G.endPayout _)

theorem Growth.payoutShort (s : State) : R s (payoutShort s) := by
  have hraised (c d r : Nat) := G.trans (t := { s with credit.returnDue := d, credit.credit := c }) G.amounts
    (G.raise .payoutShort none (val r) _)
  have hwait (u : State) : R u { u with change.shortWait := true } := G.amounts
  exact G.trans (G.trans (G.trans (hraised _ _ _) (hwait _)) (G.endPayout _)) (G.masksIfHeld _ _)

theorem Growth.pulse (n : Nat) (s : State) : R s (pulse n s) := G.still (pulse_alters n s)
theorem Growth.replan (s : State) : R s (replan s) := G.still (replan_alters s)

theorem Growth.pulseOrShort (s : State) : R s (pulseOrShort s) := by
  unfold Machine.pulseOrShort
  split
  · exact G.pulse _ s
  · exact G.payoutShort s

theorem Growth.nextReturn (s : State) : R s (nextReturn s) := by
  unfold Machine.nextReturn
  split
  · exact G.refl s
  · split
    · exact G.payoutDone s
    · split
      · exact G.pulse _ s
      · split
        · exact G.pulse _ s
        · exact G.trans (G.replan s) (G.pulseOrShort _)

theorem Growth.drainDone (n c : Nat) (e : DrainEnding) (s : State) : R s (drainDone n c e s) :=
  G.trans (G.raise _ _ _ s) (G.endPayout _)

theorem Growth.nextDrain (n l c : Nat) (v : Verdict) (s : State) : R s (nextDrain n l c v s) :=
  G.ite (G.drainDone _ _ _ s) (G.ite (G.drainDone _ _ _ s) (G.ite (G.drainDone _ _ _ s) (G.pulse n s)))

theorem Growth.payoutGiven (s : State) : R s (payoutGiven s) := by
  have hset (p : Option Payout) : R s { s with change.payout := p } := G.still (setPayout_alters p s)
  unfold Machine.payoutGiven
  split
  · exact G.refl s
  · split
    · exact G.refl s
    · dsimp only
      split
      · exact G.trans (G.trans (hset _) (G.replan _)) (G.pulseOrShort _)
      · exact G.trans (hset _) (G.pulse _ _)

theorem Growth.coinAtExit (s : State) : R s (coinAtExit s) := by
  have hstray : R s { s with change.stray := satAdd Config.maxCount16 s.change.stray 1 } :=
    G.still (ps := [.stray]) (by intro p hp; cases p <;> simp_all [Part.same])
  unfold Machine.coinAtExit
  split
  · exact hstray
  · split
    · exact hstray
    · have hcounted (n k : Nat) (f : Payout → Payout) (x : PayoutKind) (v : Nat) :=
        G.trans (G.trans (G.trans (G.trans (G.rawCount n k s) (G.reconcile n _)) (G.mapPayout f _))
          (G.still (countPaid_alters x v _))) (G.setSale _)
      exact G.ite (G.trans (hcounted _ _ _ _ _) (G.afterTubesIf s _)) (G.trans (hcounted _ _ _ _ _) (G.afterTubes _))

theorem Growth.decideTube (n : Nat) (s : State) : R s (decideTube n s).1 := by
  unfold Machine.decideTube
  split
  · exact G.trans (G.trans (G.trans (G.rawCount n 0 s) (G.raise _ _ _ _)) (G.reconcile n _)) (G.markReplan _)
  · split
    · exact G.trans (G.trans (G.rawCond n .faulted s) (G.raise _ _ _ _)) (G.markReplan _)
    · exact G.markReplan s

theorem Growth.miss (n : Nat) (b : Bool) (s : State) : R s (miss n b s).1 := by
  unfold Machine.miss
  split
  · exact G.trans (G.decideTube n s) (G.afterTubesIf s _)
  · exact G.mapPayout _ s

theorem Growth.afterWindow (v : Verdict) (s : State) : R s (afterWindow v s) := by
  unfold Machine.afterWindow
  split
  · exact G.refl s
  · split
    · exact G.nextReturn s
    · exact G.nextDrain _ _ _ _ s

theorem Growth.windowCloses (s : State) : R s (windowCloses s) := by
  have hset (p : Option Payout) : R s { s with change.payout := p } := G.still (setPayout_alters p s)
  unfold Machine.windowCloses
  split
  · exact G.refl s
  · split
    · exact G.refl s
    · refine G.trans (G.trans ?_ (G.still (replanIfMarked_alters _))) (G.afterWindow _ _)
      split
      · exact G.trans (hset _) (G.miss _ _ _)
      · exact hset _

theorem Growth.clearFault (n : Nat) (s : State) : R s (clearFault n s) :=
  G.trans (G.trans (G.rawCond n .ok s) (G.reconcile n _)) (G.afterTubes _)

end

end Sys2Proof.Machine
end

