-- ==== Sys2Proof/Proofs/QueueGrowthOps.lean ====
section
/-! The operations of the Spiral Drive, the Refrigeration Controller, the Line Master, the tables and the Service Lock on
the queues: each is made of single changes to them. -/

/- One lemma after another, to keep the memory of a compile small. -/
set_option Elab.async false

namespace Sys2Proof.Machine

section
variable {R : State → State → Prop} (G : Growth R)
include G

/-! ### The Spiral Drive -/

theorem Growth.failVend (i : Nat) (w : VendFailure) (s : State) : R s (failVend i w s) := by
  have hrestored (c h : Nat) : R s { s with credit.credit := c, credit.vendHold := h, credit.inFlight := none } :=
    G.still (ps := [.amounts, .inFlight]) (by intro p hp; cases p <;> simp_all [Part.same])
  unfold Machine.failVend
  split
  · exact G.refl s
  · exact G.trans (hrestored _ _) (G.raise _ _ _ _)

theorem Growth.commitVend (i : Nat) (s : State) : R s (commitVend i s) := by
  have htotal (a : Audit) : R s { s with audit := a } := G.amounts
  have hcount (a : Audit) := G.trans (htotal a) (G.still (countSale_alters i _))
  have hended (u : State) (h : Nat) : R u { u with credit.vendHold := h, credit.inFlight := none } :=
    G.still (ps := [.amounts, .inFlight]) (by intro p hp; cases p <;> simp_all [Part.same])
  unfold Machine.commitVend
  split
  · exact G.refl s
  · dsimp only
    refine G.trans ?_ (G.raise _ _ _ _)
    have hpaid := G.trans (hcount { s.audit with cashSales := addTotal s.audit.cashSales s.credit.vendHold })
      (hended _ 0)
    split
    · exact G.trans hpaid (G.creditToReturn _)
    · exact hpaid
  · exact G.trans (G.trans (hcount _) (hended _ _)) (G.raise _ _ _ _)

theorem Growth.afterVend (o s : State) : R s (afterVend o s) := by
  have hmark : R s { s with credit.pendingReturn := false } :=
    G.still (ps := [.pendingReturn]) (by intro p hp; cases p <;> simp_all [Part.same])
  have hwait (u : State) : R u { u with change.shortWait := false } := G.amounts
  have hlever := G.ite (c := s.credit.pendingReturn = true)
    (G.trans (G.trans hmark (G.creditToReturn _)) (hwait _)) (G.refl s)
  exact G.trans (G.trans (G.trans hlever (G.setSale _)) (G.payoutTest _)) (G.masksIfHeld _ _)

theorem Growth.leaveVend (s : State) : R s (leaveVend s) := G.still (leaveVend_alters s)

theorem Growth.vendSucceeds (v : VendOp) (s : State) : R s (vendSucceeds v s) :=
  G.trans (G.trans (G.trans (G.leaveVend s) (G.still (advancePointer_alters _ _ _))) (G.commitVend _ _))
    (G.afterVend s _)

theorem Growth.vendFails (v : VendOp) (w : VendFailure) (s : State) : R s (vendFails v w s) :=
  G.trans (G.trans (G.leaveVend s) (G.failVend _ _ _)) (G.afterVend s _)

theorem Growth.setVend (v : Option VendOp) (s : State) : R s { s with drive.vend := v } := G.still (setVend_alters v s)

theorem Growth.beginVend (i : Nat) (s : State) : R s (beginVend i s) := by
  unfold Machine.beginVend
  split
  · exact G.trans (G.failVend _ _ s) (G.afterVend s _)
  · exact G.ite (G.setVend _ s) (G.trans (G.setVend _ s) (G.request _ _))

theorem Growth.turnSpiral (v : VendOp) (p j : Nat) (s : State) : R s (turnSpiral v p j s) :=
  G.still (turnSpiral_alters v p j s)

theorem Growth.vendGiven (v : VendOp) (s : State) : R s (vendGiven v s) := by
  unfold Machine.vendGiven
  split
  · exact G.turnSpiral _ _ _ s
  · split
    · exact G.turnSpiral _ _ _ s
    · exact G.vendFails _ _ s

theorem Growth.leaveService (s : State) : R s (leaveService s) := G.still (leaveService_alters s)
theorem Growth.modSpiral (p : Nat) (f : SpiralRec → SpiralRec) (s : State) : R s (modSpiral p f s) :=
  G.still (modSpiral_alters p f s)

theorem Growth.homeReady (p : Nat) (w : HomeCause) (s : State) : R s (homeReady p w s) :=
  G.trans (G.trans (G.modSpiral p _ s) (G.leaveService _)) (G.raise _ _ _ _)

theorem Growth.homeStalled (p : Nat) (w : HomeCause) (s : State) : R s (homeStalled p w s) :=
  G.trans (G.trans (G.trans (G.modSpiral p _ s) (G.leaveService _)) (G.raise _ _ _ _)) (G.raise _ _ _ _)

theorem Growth.startRev (p : Nat) (s : State) : R s (startRev p s) := G.still (startRev_alters p s)

theorem Growth.serviceGiven (o : ServiceOp) (s : State) : R s (serviceGiven o s) := by
  have htold : R s { s with drive.service := some { o with told := true } } := G.still (setService_alters _ s)
  exact G.ite (G.ite (G.trans htold (G.homeReady _ _ _)) (G.trans htold (G.modSpiral _ _ _)))
    (G.trans htold (G.startRev _ _))

theorem Growth.motorGiven (s : State) : R s (motorGiven s) := by
  unfold Machine.motorGiven
  split
  · exact G.refl s
  · split
    · exact G.ite (G.refl s) (G.serviceGiven _ s)
    · split
      · exact G.ite (G.refl s) (G.vendGiven _ s)
      · exact G.refl s

theorem Growth.probeDone (b : Bool) (s : State) : R s (probeDone b s) := by
  unfold Machine.probeDone
  split
  · exact G.refl s
  next p _ =>
    have hprobed : R s { s with drive.probing := none } := G.still (setProbing_alters _ s)
    have hread (f : SpiralRec → SpiralRec) := G.trans hprobed (G.modSpiral p f _)
    have hset (f g : SpiralRec → SpiralRec) (c : Prop) [Decidable c] :=
      G.trans (hread f) (G.ite (c := c) (G.modSpiral p g _) (G.refl _))
    exact G.ite (G.ite (G.trans (hset _ _ _) (G.homeReady _ _ _)) (G.trans (hset _ _ _) (G.startRev _ _))) (hset _ _ _)

theorem Growth.endTest (r : Rev) (s : State) : R s (endTest r s) := by
  have hdone (v : Option Word32) (x : SpiralState) := G.trans (G.trans (G.leaveService s)
    (G.raise .spiralTestDone (some r.spiral) v _)) (G.modSpiral r.spiral (fun k => { k with state := x }) _)
  unfold Machine.endTest
  dsimp only
  split
  · exact G.ite (hdone _ _) (G.trans (hdone _ _) (G.raise _ _ _ _))
  · exact hdone _ _

theorem Growth.moveOn (v : VendOp) (b : Bool) (s : State) : R s (moveOn v b s) := by
  have htried (x : Option VendOp) : R s { s with drive.vend := x, drive.rev := none } :=
    G.still (ps := [.vendOp, .rev]) (by intro p hp; cases p <;> simp_all [Part.same])
  unfold Machine.moveOn
  dsimp only
  split
  · exact G.trans (G.trans (G.trans (htried _) (G.still (modSel_alters _ _ _))) (G.raise _ _ _ _)) (G.vendFails _ _ _)
  · exact G.ite (G.trans (htried _) (G.turnSpiral _ _ _ _)) (G.trans (htried _) (G.vendFails _ _ _))

theorem Growth.windowPassed (v : VendOp) (r : Rev) (s : State) : R s (windowPassed v r s) := by
  unfold Machine.windowPassed
  split
  · exact G.moveOn _ _ s
  · exact G.ite (G.startRev _ s) (G.trans (G.trans (G.modSpiral _ _ s) (G.raise _ _ _ _)) (G.moveOn _ _ _))

theorem Growth.storeTime (p k : Nat) (s : State) : R s (storeTime p k s) :=
  G.ite (G.trans (G.modSpiral p _ s) (G.raise _ _ _ _)) (G.modSpiral p _ s)

theorem Growth.enterTail (r : Rev) (s : State) : R s (enterTail r s) := G.still (enterTail_alters r s)

theorem Growth.stopped (r : Rev) (s : State) : R s (keepSwitch r (stopMotor s)) :=
  G.trans (G.still (stopMotor_alters s)) (G.modSpiral _ _ _)

theorem Growth.revComplete (r : Rev) (k : Nat) (s : State) : R s (revComplete r k s) := by
  have hstored := G.trans (G.stopped r s) (G.storeTime r.spiral k _)
  unfold Machine.revComplete
  dsimp only
  split
  · exact G.ite (G.trans (G.stopped r s) (G.homeReady _ _ _)) (G.trans hstored (G.enterTail _ _))
  · split
    · exact hstored
    · exact G.ite (G.trans hstored (G.vendSucceeds _ _)) (G.trans hstored (G.enterTail _ _))

theorem Growth.revFails (r : Rev) (f : Failure) (s : State) : R s (revFails r f s) := by
  have hstopped := G.stopped r s
  unfold Machine.revFails
  dsimp only
  split
  · exact G.ite (G.trans hstopped (G.homeStalled _ _ _)) (G.trans hstopped (G.enterTail _ _))
  · split
    · exact hstopped
    · have hfault := G.trans (G.trans hstopped (G.modSpiral r.spiral (fun k => { k with state := f.state }) _))
        (G.raise .spiralFault (some r.spiral) (some (pack 0 0 f.kindCode f.causeCode)) _)
      exact G.ite (G.trans hfault (G.moveOn _ _ _)) (G.ite (G.trans hfault (G.vendSucceeds _ _))
        (G.trans hfault (G.enterTail _ _)))

theorem Growth.setRev (r : Option Rev) (s : State) : R s { s with drive.rev := r } := G.still (setRev_alters r s)

theorem Growth.switchCloses (l : List Bool) (n : Nat) (s : State) : R s (switchCloses l n s) := by
  unfold Machine.switchCloses
  split
  · exact G.refl s
  · split
    · exact G.ite (G.revComplete _ _ s) (G.setRev _ s)
    · exact G.refl s

theorem Growth.leaveLimitPasses (s : State) : R s (leaveLimitPasses s) := by
  unfold Machine.leaveLimitPasses
  split
  · exact G.refl s
  · exact G.ite (G.refl s) (G.revFails _ _ s)

theorem Growth.revLimitPasses (s : State) : R s (revLimitPasses s) := by
  unfold Machine.revLimitPasses
  split
  · exact G.refl s
  · exact G.revFails _ _ s

theorem Growth.currentJams (l : List Nat) (s : State) : R s (currentJams l s) := by
  unfold Machine.currentJams
  split
  · exact G.refl s
  · exact G.ite (G.revFails _ _ s) (G.refl s)

theorem Growth.currentAt200 (n : Nat) (s : State) : R s (currentAt200 n s) := by
  unfold Machine.currentAt200
  split
  · exact G.refl s
  · exact G.ite (G.refl s) (G.ite (G.revFails _ _ s) (G.setRev _ s))

theorem Growth.dropConfirmed (r : Rev) (s : State) : R s (dropConfirmed r s) := by
  have hdrop (x : Option Rev) (v : Option VendOp) : R s { s with drive.rev := x, drive.vend := v } :=
    G.still (ps := [.vendOp, .rev]) (by intro p hp; cases p <;> simp_all [Part.same])
  unfold Machine.dropConfirmed
  dsimp only
  split
  · split
    · exact G.trans (hdrop _ _) (G.endTest _ _)
    · split
      · exact G.trans (hdrop _ _) (G.vendSucceeds _ _)
      · exact hdrop _ _
  · exact hdrop _ _

theorem Growth.windowEnds (r : Rev) (s : State) : R s (windowEnds r s) := by
  unfold Machine.windowEnds
  split
  · exact G.endTest _ s
  · split
    · exact G.windowPassed _ _ s
    · exact G.refl s

theorem Growth.watchBeam (l : List Bool) (b : Bool) (s : State) : R s (watchBeam l b s) := by
  unfold Machine.watchBeam
  split
  · exact G.refl s
  · exact G.ite (G.refl s) (G.ite (G.dropConfirmed _ s) (G.ite (G.windowEnds _ s) (G.setRev _ s)))

theorem Growth.holdReachesVend (z : Nat) (s : State) : R s (holdReachesVend z s) := by
  unfold Machine.holdReachesVend
  split
  · exact G.refl s
  · split
    · split
      next r _ =>
        have hprobe (p : Nat) := G.trans (G.modSpiral _ _ s : R s (keepSwitch r s)) (G.still (addProbe_alters p _))
        exact G.ite (G.ite (G.trans (hprobe _) (G.vendSucceeds _ _)) (G.trans (hprobe _) (G.vendFails _ _ _)))
          (G.vendFails _ _ s)
      · exact G.vendFails _ _ s
    · exact G.refl s

/-! ### The Refrigeration Controller -/

theorem Growth.beginDefrost (c : DefrostCause) (s : State) : R s (beginDefrost c s) := by
  have hset (u : State) (k : Nat) : R u { u with cold.runSince := k, cold.heaterOn := 0,
                                                  cold.pendingDefrost := false, cold.state := .defrost } :=
    G.still (ps := [.compressor, .defrost]) (by intro p hp; cases p <;> simp_all [Part.same])
  exact G.trans (G.trans (G.trans (G.still (leaveForDefrost_alters s)) (hset _ 0)) (G.request _ _)) (G.raise _ _ _ _)

theorem Growth.endDefrost (c : Nat) (s : State) : R s (endDefrost c s) := by
  have hoff : R s { s with cold.heater := false, cold.state := .drip } :=
    G.still (ps := [.compressor, .defrost]) (by intro p hp; cases p <;> simp_all [Part.same])
  have hdrip (u : State) (x : Option Nat) : R u { u with cold.dripTimer := x } :=
    G.still (ps := [.defrost]) (by intro p hp; cases p <;> simp_all [Part.same])
  exact G.trans (G.trans (G.trans hoff (G.release _ _)) (hdrip _ _)) (G.raise _ _ _ _)

theorem Growth.defrostTests (s : State) : R s (defrostTests s) :=
  G.ite (G.ite (G.endDefrost _ s) (G.ite (G.endDefrost _ s) (G.refl s))) (G.refl s)

theorem Growth.intervalTick (s : State) : R s (intervalTick s) := by
  have htick (k : Nat) : R s { s with cold.runSince := k } :=
    G.still (ps := [.defrost]) (by intro p hp; cases p <;> simp_all [Part.same])
  have hgrown : R s (if s.cold.state = .starting ∨ s.cold.state = .running then
      { s with cold.runSince := satAdd Config.maxRunSince s.cold.runSince 1 } else s) := G.ite (htick _) (G.refl s)
  exact G.ite (G.ite (G.trans hgrown (G.beginDefrost _ _)) (G.ite (G.trans hgrown (G.beginDefrost _ _)) hgrown)) hgrown

theorem Growth.holdTick (z : Nat) (s : State) : R s (holdTick z s) := by
  have hzone (f : ZoneState → ZoneState) : R s (modZone z f s) := G.still (modZone_alters z f s)
  exact G.ite (G.refl s) (G.ite (G.ite (G.trans (G.trans (hzone _) (G.raise _ _ _ _)) (G.holdReachesVend z _))
    (hzone _)) (hzone _))

theorem Growth.goodTaken (k c : Nat) (s : State) : R s (goodTaken k c s) := by
  have hsensor (u : State) (f : TempSensor → TempSensor) : R u (modSensor k f u) := G.still (modSensor_alters k f u)
  exact G.ite (G.ite (G.trans (hsensor s _) (hsensor _ _)) (G.trans (G.trans (G.trans (hsensor s _) (hsensor _ _))
    (G.raise _ _ _ _)) (G.still (endDuty_alters k _)))) (G.trans (hsensor s _) (hsensor _ _))

theorem Growth.badTaken (k c : Nat) (s : State) : R s (badTaken k c s) := by
  have hsensor (u : State) (f : TempSensor → TempSensor) : R u (modSensor k f u) := G.still (modSensor_alters k f u)
  exact G.ite (hsensor s _) (G.ite (hsensor s _) (G.trans (G.trans (G.trans (hsensor s _) (hsensor _ _))
    (G.raise _ _ _ _)) (G.still (beginDuty_alters k _))))

theorem Growth.zoneSteps (z c : Nat) (b : Bool) (s : State) : R s (zoneSteps z c b s) := by
  have hheat : R s (if (s.sensor z).faulted then s else thermostat z s) :=
    G.ite (G.refl s) (G.still (thermostat_alters z s))
  exact G.trans (G.trans hheat (G.ite (G.still (startCheck_alters z c _)) (G.refl _))) (G.holdTick z _)

theorem Growth.takeSample (k c : Nat) (s : State) : R s (takeSample k c s) := by
  have hraw : R s (modSensor k (fun r => { r with raw := c, sampled := true }) (if k = 2 then heaterTick s else s)) :=
    G.trans (G.ite (G.still (heaterTick_alters s)) (G.refl s)) (G.still (modSensor_alters k _ _))
  have htaken := G.trans hraw (G.ite (c := goodSample c = true) (G.goodTaken k c _) (G.badTaken k c _))
  exact G.ite (G.trans (G.trans htaken (G.defrostTests _)) (G.intervalTick _)) (G.trans htaken (G.zoneSteps k c _ _))

/-! ### The Load Arbiter -/

theorem Growth.budgetChanged (s : State) : R s (budgetChanged s) := by
  have hgrants (u : State) (g w : LoadSet) (b : Bool) :
      R u { u with supply.granted := g, supply.waiting := w, cold.heater := b } :=
    G.still (ps := [.grants, .defrost]) (by intro p hp; cases p <;> simp_all [Part.same])
  have hshed (u : State) (g : LoadSet) : R u { u with supply.granted := g } := hgrants u g u.supply.waiting u.cold.heater
  have hheater : R s (shedHeater s) := G.ite (G.trans (hgrants s _ _ _) (G.raise _ _ _ _)) (G.refl s)
  have hcompressor (u : State) : R u (shedCompressor u) :=
    G.ite (G.trans (G.trans (hshed u _) (G.raise _ _ _ _)) (G.still (lockOff_alters _)))
      (G.ite (G.trans (G.trans (hshed u _) (G.raise _ _ _ _)) (G.still (lockOff_alters _))) (G.refl u))
  exact G.trans (G.trans hheater (hcompressor _)) (G.still (grantRule_alters _))

/-! ### The Line Master -/

theorem Growth.sendTrans (a : Nat) (b : TransBody) (s : State) : R s (sendTrans a b s) := G.still (sendTrans_alters a b s)

theorem Growth.choosePassOrPoll (s : State) : R s (choosePassOrPoll s) := by
  have hlist (l : List Nat) : R s { s with line.list := l } :=
    G.still (ps := [.ring]) (by intro p hp; cases p <;> simp_all [Part.same])
  have hmark : (markPass s.line.pass).length ≤ s.line.pass.length := by cases s.line.pass <;> simp [markPass]
  unfold Machine.choosePassOrPoll
  split
  · exact G.trans (G.pass s _ hmark) (G.sendTrans _ _ _)
  · split
    · exact G.trans (G.trans (hlist _) (G.still (roundIfDue_alters _))) (G.sendTrans _ _ _)
    · exact G.refl s

theorem Growth.chooseNext (n : Nat) (s : State) : R s (chooseNext n s) := by
  induction n generalizing s with
  | zero => exact G.refl s
  | succ n ih =>
    unfold Machine.chooseNext
    split
    · exact G.choosePassOrPoll s
    next e es hq =>
      split
      · refine G.trans (G.queue s _ ?_) (G.sendTrans _ _ _)
        simp [hq, markHead, Cmd.isMasks]
      · exact G.trans (G.trans (G.queue s _ (by simp [hq])) (G.returnCmd _ _ _)) (ih _)

theorem Growth.lineChoose (s : State) : R s (lineChoose s) := G.ite (G.chooseNext _ s) (G.refl s)

theorem Growth.endEconomy (c : ModeEnd) (s : State) : R s (endEconomy c s) :=
  G.ite (G.trans (G.still (setEconomy_alters _ s)) (G.raise _ _ _ _)) (G.refl s)

theorem Growth.modSlot (a : Nat) (f : Slot → Slot) (s : State) : R s (modSlot a f s) := G.still (modSlot_alters a f s)

theorem Growth.faultPair (a c : Nat) (s : State) : R s (faultPair a c s) :=
  G.ite (G.refl s) (G.trans (G.modSlot a _ s) (G.raise _ _ _ _))

theorem Growth.validatorPair (slot c a : Nat) (s : State) : R s (validatorPair slot c a s) :=
  G.ite (G.trans (G.coinTube a s) (G.endEconomy _ _)) (G.ite (G.trans (G.takeCoin a s) (G.endEconomy _ _))
    (G.ite (G.raise _ _ _ s) (G.ite (G.returnLever s) (G.ite (G.faultPair _ _ s) (G.raise _ _ _ s)))))

theorem Growth.readerPair (slot c a : Nat) (s : State) : R s (readerPair slot c a s) :=
  G.ite (G.trans (G.noteEscrow a s) (G.endEconomy _ _)) (G.ite (G.noteStacked a s) (G.ite (G.noteReturned a s)
    (G.ite (G.raise _ _ _ s) (G.ite (G.faultPair _ _ s) (G.raise _ _ _ s)))))

theorem Growth.readPairs {f : Nat → Nat → State → State} (hf : ∀ c a s, R s (f c a s)) :
    ∀ (l : List Byte) (s : State), R s (readPairs f l s)
  | [], s => G.refl s
  | [_], s => G.refl s
  | _ :: _ :: rest, s => G.trans (hf _ _ s) (Growth.readPairs hf rest _)

theorem Growth.readPoll (slot : Nat) (l : List Byte) (s : State) : R s (readPoll slot l s) := by
  unfold Machine.readPoll
  split
  · exact G.readPairs (G.validatorPair slot) l s
  · exact G.readPairs (G.readerPair slot) l s
  · exact G.ite (G.refl s) (G.passReply _ _ _ _ s)
  · exact G.refl s

theorem Growth.modMaskRec (p : Periph) (f : MaskRec → MaskRec) (s : State) : R s (modMaskRec p f s) :=
  G.still (modMaskRec_alters p f s)

theorem Growth.tellPresent (slot : Nat) (s : State) : R s (tellPresent slot s) := by
  unfold Machine.tellPresent
  split
  · exact G.trans (G.modMaskRec _ _ s) (G.recomputeMasks _)
  · exact G.trans (G.modMaskRec _ _ s) (G.recomputeNote _)
  · exact G.refl s

theorem Growth.tellSilent (slot : Nat) (s : State) : R s (tellSilent slot s) := by
  unfold Machine.tellSilent
  split
  · exact G.recomputeMasks s
  · exact G.trans (G.expireEscrow s) (G.recomputeNote _)
  · exact G.refl s

theorem Growth.slotReplied (slot : Nat) (s : State) : R s (slotReplied slot s) :=
  G.ite (G.modSlot _ _ s) (G.trans (G.trans (G.modSlot _ _ s) (G.raise _ _ _ _)) (G.tellPresent _ _))

theorem Growth.slotMissed (slot : Nat) (s : State) : R s (slotMissed slot s) :=
  G.ite (G.trans (G.trans (G.trans (G.modSlot _ _ s) (G.modSlot _ _ _)) (G.raise _ _ _ _)) (G.tellSilent _ _))
    (G.modSlot _ _ s)

theorem Growth.returnFlying (r : CmdReturn) (s : State) : R s (returnFlying r s) := by
  unfold Machine.returnFlying
  split
  · exact G.refl s
  · exact G.trans (G.queue s _ (List.filter_sublist.map _)) (G.returnCmd _ _ _)

theorem Growth.returnPass (e : PassEntry) (n : Nat) (l : List Byte) (s : State) : R s (returnPass e n l s) :=
  G.trans (G.pass s _ (List.length_filter_le _ _)) (G.passReply _ _ _ _ _)

theorem Growth.handOn (x : Trans) (o : TransEnd) (s : State) : R s (handOn x o s) := by
  unfold Machine.handOn
  split
  · exact G.ite (G.refl s) (G.trans (G.readPoll _ _ s) (G.modSlot _ _ _))
  · exact G.refl s
  · exact G.refl s
  · exact G.returnFlying _ s
  · exact G.returnFlying _ s
  · exact G.returnFlying _ s
  · exact G.returnPass _ _ _ s
  · exact G.returnPass _ _ _ s
  · exact G.returnPass _ _ _ s

theorem Growth.endTrans (x : Trans) (o : TransEnd) (s : State) : R s (endTrans x o s) :=
  endTrans_keeps (P := R s) (Q := R s) (G.refl s) (fun b u hu => G.trans hu (G.still (leaveTrans_alters b u)))
    (fun o u hu => by
      cases o with
      | replied l => exact G.trans hu (G.slotReplied _ u)
      | missed => exact G.trans hu (G.slotMissed _ u)
      | badReply => exact G.trans hu (G.slotMissed _ u))
    fun o u hu => G.trans hu (G.handOn x o u)

theorem Growth.contendCmd (e : Cmd) (s : State) : R s (contendCmd e s) := by
  refine G.ite (G.returnFlying _ s) (G.queue s _ ?_)
  have hsame : (s.line.queue.map fun x => if x.inFlight then { x with inFlight := false, mark := true } else x).map
      Cmd.isMasks = s.line.queue.map Cmd.isMasks := by
    rw [List.map_map]
    refine List.map_congr_left fun x _ => ?_
    simp only [Function.comp]
    split <;> rfl
  exact hsame ▸ List.Sublist.refl _

theorem Growth.contendPass (e : PassEntry) (s : State) : R s (contendPass e s) :=
  G.ite (G.returnPass _ _ _ s) (G.pass s _ (by simp))

theorem Growth.contend (x : Trans) (s : State) : R s (contend x s) := by
  have hleft : R s (leaveTrans false s) := G.still (leaveTrans_alters false s)
  have hslot (u : State) : R u (if x.stale then u else Machine.modSlot x.slot
      (fun r => { r with contention := satAdd Config.maxCount16 r.contention 1 }) u) :=
    G.ite (G.refl u) (G.modSlot _ _ u)
  have hmoved := G.trans hleft (hslot _)
  unfold Machine.contend
  dsimp only
  refine G.trans hmoved ?_
  generalize (if x.stale then leaveTrans false s else _ : State) = u
  split
  · exact G.refl _
  · split
    · exact G.contendCmd _ _
    · exact G.refl _
  · exact G.contendPass _ _

theorem Growth.dropSlotCmds (slot n : Nat) (s : State) : R s (dropSlotCmds slot n s) := by
  induction n generalizing s with
  | zero => exact G.refl s
  | succ n ih =>
    unfold Machine.dropSlotCmds
    split
    · exact G.refl s
    · exact G.trans (G.trans (G.queue s _ (List.erase_sublist.map _)) (G.returnCmd _ _ _)) (ih _)

theorem Growth.dropSlotPasses (slot : Nat) (s : State) : R s (dropSlotPasses slot s) :=
  G.trans (G.pass s _ (List.length_filter_le _ _)) (G.foldl (fun u e => G.passReply slot 2 (PassEntry.tag e) [] u) _ _)

theorem Growth.setSlotKind (slot : Nat) (k : SlotKind) (s : State) : R s (setSlotKind slot k s) := by
  have htables (x : Tables) : R s { s with tables := x } := G.still (setTables_alters x s)
  have hlist (u : State) (l : List Nat) : R u { u with line.list := l } :=
    G.still (ps := [.ring]) (by intro p hp; cases p <;> simp_all [Part.same])
  have hunused (u : State) : R u (if k = .unused then
      roundIfDue (Machine.dropSlotPasses slot { u with line.list := u.line.list.filter (· != slot) }) else u) :=
    G.ite (G.trans (G.trans (hlist u _) (G.dropSlotPasses slot _)) (G.still (roundIfDue_alters _))) (G.refl u)
  have hmoved (p : Option Periph) (u : State) : R u (moveMaskRec p u) := G.still (moveMaskRec_alters p u)
  have hlost (p : Option Periph) (u : State) : R u (tellKindLost p u) := by
    unfold tellKindLost
    split
    · exact G.trans (G.expireEscrow u) (G.recomputeNote _)
    · exact G.recomputeMasks u
    · exact G.refl u
  have hchanged (x : Tables) (f : Slot → Slot) := G.trans (G.trans (G.trans (htables x) (G.modSlot slot f _))
    (G.dropSlotCmds slot Config.lineQueueSize _)) (hunused _)
  unfold Machine.setSlotKind
  split
  · exact G.refl s
  · exact G.trans (G.trans (G.trans (G.trans (G.trans (hchanged _ _) (G.still (setTrans_alters _ _))) (hmoved _ _))
      (hmoved _ _)) (hlost _ _)) (G.still (tellKindTaken_alters _ _))

end

end Sys2Proof.Machine
end

