-- ==== Sys2Proof/Proofs/QueueLaws.lean ====
section
/-! The bounds of the Event Queue and of the line's two queues, and the order of ESCROW before MASKS, through every step
(R138, R144, R170). -/

/- One lemma after another, to keep the memory of a compile small. -/
set_option Elab.async false

namespace Sys2Proof.Machine

/-! ### Requests, the door, the supply and the starts on the queues -/

section
variable {R : State → State → Prop} (G : Growth R)
include G

theorem Growth.setTables (x : Tables) (s : State) : R s { s with tables := x } := G.still (setTables_alters x s)

theorem Growth.applyTube (n : Nat) (r : TubeRec) (s : State) : R s (applyTube n r s) := by
  have hcorrect (u : State) (w : Correction) (old new : Nat) : R u (raiseCorrected n w old new (Machine.rawCount n new u)) :=
    G.trans (G.rawCount n new u) (G.raise _ _ _ _)
  have hreconciled (u : State) (c : TubeCond) : R u (Machine.reconcile n (Machine.rawCond n c u)) :=
    G.trans (G.rawCond n c u) (G.reconcile n _)
  unfold Machine.applyTube
  dsimp only
  split
  · split
    · exact G.trans (G.trans (G.setTables _ s) (hcorrect _ _ _ _)) (hreconciled _ _)
    · exact G.trans (G.setTables _ s) (hreconciled _ _)
  · exact G.trans (G.trans (G.trans (G.setTables _ s) (G.still (unpairCoin_alters _ _ _))) (hcorrect _ _ _ _))
      (hreconciled _ _)

theorem Growth.record {table i : Nat} {r : List Byte} {s : State} {x : State × Nat × Nat}
    (h : recordStep table i r s = .ok x) : R s x.1 := by
  have hplain {y : Tables} {a b : Nat} (he : Except.ok (ε := ReplyCode) ({ s with tables := y }, a, b) = .ok x) :
      R s x.1 := by cases he; exact G.setTables y s
  unfold recordStep at h
  split at h
  · rw [loadMoney_eq] at h
    cases h
    refine G.trans (G.ite (G.setTables _ s) (G.trans (G.setTables _ s) (G.evalExact _)) : R s (moneyTaken r s)) ?_
    exact G.recomputeMasks _
  · unfold loadCoin at h
    split at h
    · simp at h
    · exact hplain h
  · obtain ⟨t, -, hx⟩ := loadTube_state h
    rw [hx]
    exact G.applyTube _ _ s
  · exact hplain h
  · obtain ⟨new, -, -, -, -, hx⟩ := loadSel_state h
    rw [hx]
    exact G.still (applySel_alters i new s)
  · exact hplain h
  · exact hplain h
  · exact hplain h
  · exact hplain h
  · unfold loadLoads at h
    cases h
    exact G.trans (G.setTables _ s) (G.budgetChanged _)
  · obtain ⟨k, hx⟩ := loadSlot_state h
    rw [hx]
    exact G.setSlotKind _ k s
  · exact hplain h
  · exact hplain h
  · simp at h

theorem Growth.afterSection (table : Nat) (s : State) : R s (afterSection table s) := by
  unfold Machine.afterSection
  split
  · exact G.trans (G.evalExact s) (G.recomputeMasks _)
  · exact G.trans (G.evalExact s) (G.recomputeMasks _)
  · exact G.recomputeNote s
  · exact G.refl s

theorem Growth.serveLoad (table first count : Nat) (records : List Byte) (s : State) :
    R s (serveLoad table first count records s).1 :=
  serveLoad_keeps (P := R s) (fun _ _ _ _ hx hu => G.trans hu (G.record hx))
    (fun u hu => G.trans hu (G.afterSection table u)) (fun u hu => G.trans hu (G.still (tablesChanged_alters u)))
    (G.refl s)

theorem Growth.endFill (c : ModeEnd) (s : State) : R s (endFill c s) := by
  have hoff : R s { s with lock.fill := false } :=
    G.still (ps := [.fill]) (by intro p hp; cases p <;> simp_all [Part.same])
  exact G.ite (G.trans hoff (G.raise _ _ _ _)) (G.refl s)

theorem Growth.factoryClear (s : State) : R s (factoryClear s) := by
  have hunlocked : R s { s with lock.code := none, lock.state := .opened, lock.lockout := false, lock.failures := 0,
                                lock.tag := .empty } :=
    G.still (ps := [.code, .lockState, .lockout, .tag]) (by intro p hp; cases p <;> simp_all [Part.same])
  have hlock : R s (clearAudit (clearLock s)) :=
    G.trans (G.trans hunlocked (G.endFill _ _)) (G.still (clearAudit_alters _))
  have hplain (u : State) :
      R u (applyPlainDefaults (applyDefaultSels (applyDefaultTubes (defaultMoneyAndCoins u)))) :=
    G.trans (G.trans (G.trans (G.still (defaultMoneyAndCoins_alters u))
      (G.foldl (fun u n => G.applyTube n _ u) _ _)) (G.still (applyDefaultSels_alters _)))
      (G.still (applyPlainDefaults_alters _))
  have hdefaults (u : State) : R u (restoreDefaults u) :=
    G.trans (G.trans (G.trans (G.trans (G.trans (hplain u) (G.evalExact _)) (G.recomputeMasks _)) (G.setTables _ _))
      (G.budgetChanged _)) (G.foldl (fun u a => G.setSlotKind a _ u) _ _)
  have htubes (u : State) : R u (clearTubes u) :=
    G.trans (G.foldl (fun u n => G.trans (G.trans (G.rawCount n 0 u) (G.rawCond n .ok _)) (G.reconcile n _)) _ u)
      (G.afterTubes _)
  exact G.trans (G.trans (G.trans (G.trans hlock (hdefaults _)) (htubes _)) (G.still (clearHolds_alters _)))
    (G.still (clearStore_alters _))

theorem Growth.vendAdmitted (i c h : Nat) (x : Option Funding) (s : State) : R s (Machine.beginVend i (Machine.setSale
    { s with credit.credit := c, credit.vendHold := h, credit.inFlight := x })) := by
  refine G.trans (G.trans (G.still (ps := [.amounts, .inFlight]) ?_) (G.setSale _)) (G.beginVend _ _)
  intro p hp; cases p <;> simp_all [Part.same]

theorem Growth.serveVend (c f a : Nat) (s : State) : R s (serveVend c f a s).1 := by
  unfold Machine.serveVend
  split
  · unfold serveCash
    split
    · exact G.refl s
    · split
      · exact G.refl s
      · exact G.vendAdmitted _ _ _ _ s
  · unfold serveExternal
    split
    · exact G.refl s
    · exact G.vendAdmitted _ _ _ _ s
  · exact G.refl s

theorem Growth.serveUnlock (c : CodeArg) (s : State) : R s (serveUnlock c s).1 := by
  have hset (n : Nat) (b : Bool) : R s { s with lock.failures := n, lock.lockout := b } :=
    G.still (ps := [.lockout]) (by intro p hp; cases p <;> simp_all [Part.same])
  have hcount : R s (countFailure s) := G.ite (hset _ _) (G.trans (hset _ _) (G.raise _ _ _ _))
  have hopen : R s { s with lock.state := .unlocked, lock.failures := 0 } :=
    G.still (ps := [.lockState, .lockout]) (by intro p hp; cases p <;> simp_all [Part.same])
  unfold Machine.serveUnlock
  split
  · exact G.refl s
  · exact G.refl s
  · split_ifs
    · exact G.refl s
    · exact hopen
    · exact hcount

theorem Growth.serveFill (n : Nat) (s : State) : R s (serveFill n s).1 := by
  have hset (b : Bool) : R s { s with lock.fill := b } :=
    G.still (ps := [.fill]) (by intro p hp; cases p <;> simp_all [Part.same])
  unfold Machine.serveFill
  split_ifs
  · exact G.refl s
  · exact G.trans (hset _) (G.recomputeMasks _)
  · exact G.refl s
  · exact G.refl s
  · exact G.refl s
  · exact G.refl s
  · exact G.trans (hset _) (G.recomputeMasks _)

/-- Every request but Fetch Events and Pass, which act on the queues themselves. -/
theorem Growth.serveOwner (r : Request) (s : State) (hfetch : ∀ n, r ≠ .fetch n) (hpass : ∀ a k n l, r ≠ .pass a k n l) :
    R s (serveOwner r s).1 := by
  cases r
  case unknown => exact G.refl s
  case badLength => exact G.refl s
  case status => exact G.refl s
  case fetch n => exact absurd rfl (hfetch n)
  case vend c f a => exact G.serveVend c f a s
  case returnCredit =>
    show R s (serveReturn s).1
    unfold serveReturn
    split
    · exact G.refl s
    · split
      · exact G.refl s
      · exact G.returnAll s
    · exact G.returnAll s
    · exact G.refl s
  case load t f c l => exact G.serveLoad t f c l s
  case read t f c => exact (serveRead_alters t f c s).symm ▸ G.refl s
  case pass a k n l => exact absurd rfl (hpass a k n l)
  case clearFaults a => exact G.still (serveClearFaults_alters a s)
  case unlock c => exact G.serveUnlock c s
  case lock => exact G.still (serveLock_alters s)
  case setCode o n k => exact G.still (serveSetCode_alters o n k s)
  case clearCode c => exact G.still (serveClearCode_alters c s)
  case factoryClear =>
    show R s (serveFactoryClear s).1
    unfold serveFactoryClear
    split_ifs
    · exact G.refl s
    · exact G.refl s
    · exact G.refl s
    · exact G.factoryClear s
  case tagFirst u v => exact G.still (serveTagFirst_alters u v s)
  case tagLast u v => exact G.still (serveTagLast_alters u v s)
  case untag c => exact G.still (serveUntag_alters c s)
  case apply c p => exact G.still (serveApply_alters c p s)
  case fillMode n => exact G.serveFill n s
  case economyMode n => exact G.still (serveEconomy_alters n s)
  case drain n k => exact G.still (serveDrain_alters n k s)
  case clearAudit => exact G.still (serveClearAudit_alters s)
  case settle => exact G.still (serveSettle_alters s)
  case defrostNow =>
    show R s (serveDefrost s).1
    unfold serveDefrost
    have hnow : R s (defrostNow s).1 := by
      unfold defrostNow
      split
      · exact G.refl s
      · exact G.refl s
      · exact G.still (ps := [.defrost]) (by intro p hp; cases p <;> simp_all [Part.same])
      · exact G.beginDefrost _ s
      · exact G.beginDefrost _ s
      · exact G.beginDefrost _ s
      · exact G.beginDefrost _ s
    dsimp only
    split
    · exact hnow
    · exact G.refl s
  case clearTubeFault n =>
    show R s (serveClearTube n s).1
    unfold serveClearTube
    split
    · exact G.refl s
    · exact G.clearFault n s
  case testSpiral p => exact G.still (serveSpiral_alters false p s)
  case homeSpiral p => exact G.still (serveSpiral_alters true p s)
  case releaseHold z =>
    show R s (serveRelease z s).1
    unfold serveRelease
    split_ifs
    · exact G.refl s
    · exact G.refl s
    · exact G.refl s
    · exact G.refl s
    · exact G.trans (G.still (modZone_alters z _ s)) (G.raise _ _ _ _)
  case restart => exact G.still (serveRestart_alters s)

theorem Growth.doorReads (l : List Bool) (s : State) : R s (doorReads l s) := by
  have hset (d : Debounce) : R s { s with lock.door := d } :=
    G.still (ps := [.door]) (by intro p hp; cases p <;> simp_all [Part.same])
  have hchanged (b : Bool) (u : State) : R u (doorChanged b u) :=
    G.ite (G.trans (G.raise _ _ _ u) (G.endEconomy _ _)) (G.trans (G.trans (G.trans (G.raise _ _ _ u)
      (G.still (endSession_alters _))) (G.endFill _ _)) (G.recomputeMasks _))
  unfold Machine.doorReads
  dsimp only
  split
  · exact G.trans (hset _) (hchanged _ _)
  · exact hset _

theorem Growth.interruptVend (s : State) : R s (interruptVend s) := by
  have hmark : R s { s with credit.pendingReturn := false } :=
    G.still (ps := [.pendingReturn]) (by intro p hp; cases p <;> simp_all [Part.same])
  unfold Machine.interruptVend
  dsimp only
  split
  · exact hmark
  · exact G.trans hmark (G.failVend _ _ _)

theorem Growth.endOperations (s : State) : R s (endOperations s) := by
  have hends (u : State) (x : List SpiralRec) : R u
      { u with spirals := x, drive := Drive.initial, change.payout := none, credit.escrow := none,
               credit.escrowReserve := 0 } :=
    G.still (ps := [.spirals, .vendOp, .serviceOp, .rev, .column, .row, .probing, .payout, .escrow, .amounts])
      (by intro p hp; cases p <;> simp_all [Part.same])
  exact G.trans (G.trans (G.interruptVend s) (hends _ _)) (G.setSale _)

theorem Growth.stopAll (s : State) : R s (stopAll s) := by
  have hqueue : R s { s with line.queue := [] } := G.queue s [] (by simp)
  have hpass (u : State) : R u { u with line.pass := [] } := G.pass u [] (by simp)
  have hoff (u : State) : Alters [.compressor, .defrost, .damper, .grants, .receiver, .trans, .ring, .staging, .linkRate]
      u { outputsOff u with line.queue := u.line.queue, line.pass := u.line.pass,
                            line.escrowBack := u.line.escrowBack } := by
    intro p hp; cases p <;> simp_all [Part.same, outputsOff]
  have houtputs : R s (outputsOff s) :=
    G.trans (G.trans (G.trans hqueue (hpass _)) (G.back _ none)) (G.still (hoff _))
  exact G.trans houtputs (G.endOperations _)

theorem Growth.powerFail (w : Bool) (s : State) : R s (powerFail w s) := by
  have hsaving : R s { Machine.stopAll s with phase := .saving w, store.tableWaiting := false } :=
    G.trans (G.stopAll s) (G.still (ps := [.phase, .store]) (by intro p hp; cases p <;> simp_all [Part.same]))
  exact G.ite hsaving (G.trans hsaving (G.still (beginRetainedWrite_alters _)))

theorem Growth.holdToCeiling (s : State) : R s (holdToCeiling s) :=
  G.ite (G.refl s) (G.trans (t := { s with credit.credit := _ }) G.amounts (G.addReturnDue _ _))

theorem Growth.reconcileAll (s : State) : R s (reconcileAll s) :=
  G.trans (G.foldl (fun u n => G.reconcile n u) _ s) (G.still (evalExactSilent_alters _))

end

/-! ### Laws of the queues -/

/-- A law of the queues that every change of them keeps: every step keeps it when Fetch Events, a Pass, and queues newly
empty do. -/
theorem Growth.kept {P : State → Prop} (hreads : Reads [.events, .cmdQueue, .passQueue] P)
    (G : Growth fun s t => P s → P t)
    (hfetch : ∀ s n, P s → P (serveFetch n s).1) (hpass : ∀ s a k n l, P s → P (servePass a k n l s).1)
    (hline : ∀ s t : State, t.events = s.events → t.line.queue = [] → t.line.pass = [] → P s → P t)
    (hevents : ∀ s t : State, t.events = Events.initial → t.line.queue = s.line.queue → t.line.pass = s.line.pass →
      t.line.escrowBack = s.line.escrowBack → P s → P t)
    (hreset : ∀ s, P (powerUp s)) : Kept [.events, .cmdQueue, .passQueue] P P where
  before := hreads
  within := hreads
  enter _ h := h
  leave _ h _ := h
  lineChoose _ s h := G.lineChoose s h
  raise _ k x v s h := G.raise k x v s h
  recomputeMasks _ s h := G.recomputeMasks s h
  serveOwner r _ s _ h := by
    by_cases hf : ∃ n, r = .fetch n
    · obtain ⟨n, rfl⟩ := hf
      exact hfetch s n h
    · by_cases hp : ∃ a k n l, r = .pass a k n l
      · obtain ⟨a, k, n, l, rfl⟩ := hp
        exact hpass s a k n l h
      · exact G.serveOwner r s (fun n hn => hf ⟨n, hn⟩) (fun a k n l hr => hp ⟨a, k, n, l, hr⟩) h
  endTrans x o _ s _ h := G.endTrans x o s h
  contend x _ s h := G.contend x s h
  levelRead n full c _ s _ h := G.levelRead n full s c h
  payoutGiven _ s _ h := G.payoutGiven s h
  coinAtExit _ s _ h := G.coinAtExit s h
  windowCloses _ s _ h := G.windowCloses s h
  expireEscrow _ s _ h := G.expireEscrow s h
  probeDone b _ s _ h := G.probeDone b s h
  motorGiven _ s _ h := G.motorGiven s h
  switchCloses l n _ s _ h := G.switchCloses l n s h
  leaveLimitPasses _ s _ h := G.leaveLimitPasses s h
  revLimitPasses _ s _ h := G.revLimitPasses s h
  currentJams l _ s _ h := G.currentJams l s h
  currentAt200 n _ s _ h := G.currentAt200 n s h
  watchBeam l b _ s _ h := G.watchBeam l b s h
  takeSample k c _ s _ h := G.takeSample k c s h
  doorReads l _ s _ h := G.doorReads l s h
  sagBegins _ s v _ h := G.budgetChanged _ (G.raise _ _ _ _
    (hreads.alters (setSupply_alters _ s) ((apart_iff _ _).1 rfl) h))
  sagEnds _ s v _ h := G.budgetChanged _ (G.raise _ _ _ _
    (hreads.alters (setSupply_alters _ s) ((apart_iff _ _).1 rfl) h))
  powerFail w s x h := G.powerFail w _ (hreads.alters (setSupply_alters x s) ((apart_iff _ _).1 rfl) h)
  failFast s x h := by
    have hstopped := G.stopAll { s with supply := x } (hreads.alters (setSupply_alters x s) ((apart_iff _ _).1 rfl) h)
    exact hreads.alters (setPhase_alters _ _) ((apart_iff _ _).1 rfl) hstopped
  beginStart c s h := by
    unfold beginStart
    exact G.setSale _ (G.holdToCeiling _ (hline s _ rfl rfl rfl h))
  powerUp s _ := hreset s
  sampling _ c s _ h := by
    refine hreads.alters (ps := [.compressor, .phase]) ?_ ((apart_iff _ _).1 rfl) (G.reconcileAll s h)
    intro p hp; cases p <;> simp_all [Part.same]
  complete _ c s _ h := G.raise _ _ _ _ (hevents s _ rfl rfl rfl rfl h)

/-! ### The Event Queue -/

theorem eventLaw_reads : Reads [.events, .cmdQueue, .passQueue] EventLaw := by
  intro s t h hs
  have hevents : t.events = s.events := h .events (by decide)
  unfold EventLaw
  rwa [hevents]

theorem EventLaw.sameEvents {s t : State} (hs : EventLaw s) (h : t.events = s.events) : EventLaw t := by
  unfold EventLaw
  rwa [h]

theorem EventLaw.place {s t : State} (e : Event) (h : t.events = s.events.place e) (hs : EventLaw s) : EventLaw t := by
  obtain ⟨hlen, hdropped⟩ := hs
  unfold EventLaw
  rw [h]
  exact ⟨place_length _ _ hlen, place_dropped _ _ hdropped⟩

theorem eventLaw_initial : EventLaw State.reset := ⟨by decide, by decide⟩

theorem eventLaw_growth : Growth fun s t => EventLaw s → EventLaw t where
  refl _ h := h
  trans h1 h2 h := h2 (h1 h)
  frame h ha hs := eventLaw_reads.alters h (fun p hp => ha p (by revert hp; cases p <;> decide)) hs
  raise _ _ _ _ h := h.place _ rfl
  passReply _ _ _ _ _ h := h.place _ rfl
  queue _ _ _ h := h
  masks a p m s h := h.sameEvents (enqueueMasks_alters a p m s .events (by decide))
  escrow _ _ _ _ h := h
  displaced _ _ _ _ _ _ h := h
  back _ _ h := h
  pass _ _ _ h := h

theorem eventLaw_fetch (s : State) (n : Nat) (h : EventLaw s) : EventLaw (serveFetch n s).1 := by
  obtain ⟨hlen, hdropped⟩ := h
  unfold serveFetch
  split
  · exact ⟨(List.length_drop ▸ Nat.sub_le _ _).trans hlen, Nat.zero_le _⟩
  · exact ⟨hlen, hdropped⟩
  · exact ⟨hlen, hdropped⟩

/-! ### The queues of the line -/

/-- No ESCROW stands behind a MASKS, said of which entries are MASKS. -/
theorem pairwise_isMasks (q : List Cmd) : (q.Pairwise fun a b => a.isMasks = true → b.isMasks = true) ↔
    (q.map Cmd.isMasks).Pairwise fun a b => a = true → b = true :=
  (List.pairwise_map (f := Cmd.isMasks) (R := fun a b => a = true → b = true)).symm

theorem isUnsentMasks_isMasks {slot : Nat} {e : Cmd} (h : e.isUnsentMasks slot = true) : e.isMasks = true := by
  unfold Cmd.isUnsentMasks at h
  unfold Cmd.isMasks
  split at h <;> simp_all

theorem insertEscrow_length (e : Cmd) (q : List Cmd) : (insertEscrow e q).length = q.length + 1 := by
  induction q with
  | nil => rfl
  | cons x q ih =>
    unfold insertEscrow
    split
    · rfl
    · simp [ih]

theorem mem_insertEscrow {e x : Cmd} {q : List Cmd} (h : x ∈ insertEscrow e q) : x = e ∨ x ∈ q := by
  induction q with
  | nil => simpa [insertEscrow] using h
  | cons y q ih =>
    unfold insertEscrow at h
    split at h
    · simpa using h
    · rcases List.mem_cons.1 h with rfl | h
      · simp
      · rcases ih h with rfl | h <;> simp_all

/-- An ESCROW placed after the last ESCROW leaves the classes in order (R138). -/
theorem insertEscrow_pairwise {e : Cmd} {q : List Cmd} (he : e.isMasks = false)
    (hq : q.Pairwise fun a b => a.isMasks = true → b.isMasks = true) :
    (insertEscrow e q).Pairwise fun a b => a.isMasks = true → b.isMasks = true := by
  induction q with
  | nil => simp [insertEscrow]
  | cons x q ih =>
    obtain ⟨hx, hq⟩ := List.pairwise_cons.1 hq
    unfold insertEscrow
    split
    · exact List.pairwise_cons.2 ⟨fun y _ h => by simp [he] at h, List.pairwise_cons.2 ⟨hx, hq⟩⟩
    next hxm => exact List.pairwise_cons.2 ⟨fun y _ h => absurd h hxm, ih hq⟩

/-- The last unsent MASKS leaves the queue, and nothing else does. -/
theorem removeLastMasks_some {q r : List Cmd} {m : Cmd} (h : removeLastMasks q = (r, some m)) :
    r.Sublist q ∧ r.length + 1 = q.length := by
  induction q generalizing r m with
  | nil => simp [removeLastMasks] at h
  | cons x q ih =>
    unfold removeLastMasks at h
    split at h
    next ys e heq =>
      simp only [Prod.mk.injEq] at h
      obtain ⟨rfl, -⟩ := h
      obtain ⟨hsub, hlen⟩ := ih heq
      exact ⟨hsub.cons_cons x, by simp [hlen]⟩
    next ys heq =>
      split at h
      · simp only [Prod.mk.injEq] at h
        obtain ⟨rfl, -⟩ := h
        exact ⟨List.sublist_cons_self _ _, rfl⟩
      · simp at h

theorem queueLaw_reads : Reads [.events, .cmdQueue, .passQueue] QueueLaw := by
  intro s t h hs
  obtain ⟨hqueue, -⟩ : t.line.queue = s.line.queue ∧ t.line.escrowBack = s.line.escrowBack := h .cmdQueue (by decide)
  have hpass : t.line.pass = s.line.pass := h .passQueue (by decide)
  unfold QueueLaw
  rwa [hqueue, hpass]

theorem QueueLaw.withQueue {s t : State} (hs : QueueLaw s) (hpass : t.line.pass = s.line.pass)
    (hlen : t.line.queue.length ≤ 4)
    (horder : t.line.queue.Pairwise fun a b => a.isMasks = true → b.isMasks = true) : QueueLaw t := by
  obtain ⟨-, hpasses, -⟩ := hs
  exact ⟨hlen, hpass ▸ hpasses, horder⟩

/-- Entries that leave the queue, or change their contents but not their class, leave it in order. -/
theorem QueueLaw.fewer {s t : State} (hs : QueueLaw s) (hpass : t.line.pass = s.line.pass)
    (h : (t.line.queue.map Cmd.isMasks).Sublist (s.line.queue.map Cmd.isMasks)) : QueueLaw t := by
  obtain ⟨hlen, -, horder⟩ := id hs
  refine hs.withQueue hpass ?_ ?_
  · have := h.length_le
    simp only [List.length_map] at this
    omega
  · rw [pairwise_isMasks] at horder ⊢
    exact horder.sublist h

theorem QueueLaw.enqueueMasks {s : State} (hs : QueueLaw s) (a : Nat) (p : Periph) (m : Masks) :
    QueueLaw (enqueueMasks a p m s) := by
  have hrec (u : State) (f : MaskRec → MaskRec) (hu : QueueLaw u) : QueueLaw (modMaskRec p f u) :=
    queueLaw_reads.alters (modMaskRec_alters p f u) ((apart_iff _ _).1 rfl) hu
  obtain ⟨hlen, -, horder⟩ := id hs
  unfold Machine.enqueueMasks
  split
  · refine hrec _ _ (hs.fewer rfl ?_)
    have hsame : (s.line.queue.map fun e => if e.isUnsentMasks a then { e with body := .masks m } else e).map
        Cmd.isMasks = s.line.queue.map Cmd.isMasks := by
      rw [List.map_map]
      refine List.map_congr_left fun e _ => ?_
      simp only [Function.comp]
      split
      next h => rw [isUnsentMasks_isMasks h]; rfl
      next => rfl
    exact hsame ▸ List.Sublist.refl _
  · split
    next hroom =>
      refine hrec _ _ (hs.withQueue rfl ?_ ?_)
      · simp only [Config.lineQueueSize] at hroom
        simp only [List.length_append, List.length_singleton]
        omega
      · refine List.pairwise_append.2 ⟨horder, List.pairwise_singleton _ _, fun x _ y hy _ => ?_⟩
        rw [List.mem_singleton.1 hy]
        rfl
    next =>
      exact queueLaw_reads.alters ((countDropped_alters s).seq (rs := [.lineCounts, .maskRecs]) (masksDropped_alters a p _))
        ((apart_iff _ _).1 rfl) hs

theorem queueLaw_growth : Growth fun s t => QueueLaw s → QueueLaw t where
  refl _ h := h
  trans h1 h2 h := h2 (h1 h)
  frame h ha hs := queueLaw_reads.alters h (fun p hp => ha p (by revert hp; cases p <;> decide)) hs
  raise _ _ _ _ h := h
  passReply _ _ _ _ _ h := h
  queue _ _ hq h := h.fewer rfl hq
  masks a p m s h := h.enqueueMasks a p m
  escrow s e he hroom h := by
    obtain ⟨-, -, horder⟩ := id h
    refine h.withQueue rfl ?_ (insertEscrow_pairwise he horder)
    simp only [Config.lineQueueSize] at hroom
    simp only [insertEscrow_length]
    omega
  displaced s e q m he hq h := by
    obtain ⟨hlen, -, horder⟩ := id h
    obtain ⟨hsub, hlength⟩ := removeLastMasks_some hq
    refine h.withQueue rfl ?_ (insertEscrow_pairwise he (horder.sublist hsub))
    simp only [insertEscrow_length]
    omega
  back _ _ h := h
  pass _ _ hl h := by
    obtain ⟨hlen, hpass, horder⟩ := h
    exact ⟨hlen, hl.trans hpass, horder⟩

theorem queueLaw_empty {t : State} (hqueue : t.line.queue = []) (hpass : t.line.pass.length ≤ 4) : QueueLaw t := by
  unfold QueueLaw
  rw [hqueue]
  exact ⟨by simp, hpass, List.Pairwise.nil⟩

theorem queueLaw_fetch (s : State) (n : Nat) (h : QueueLaw s) : QueueLaw (serveFetch n s).1 :=
  have hframe := serveFetch_alters n s
  h.fewer (hframe .passQueue (by decide)) ((hframe .cmdQueue (by decide)).1 ▸ List.Sublist.refl _)

theorem queueLaw_pass (s : State) (a k n : Nat) (l : List Byte) (h : QueueLaw s) : QueueLaw (servePass a k n l s).1 := by
  unfold servePass
  split_ifs with h1 h2 h3 hroom
  · exact h
  · exact h
  · exact h
  · exact h
  · obtain ⟨hlen, -, horder⟩ := h
    refine ⟨hlen, ?_, horder⟩
    simp only [Config.lineQueueSize, not_le] at hroom
    simp only [placePass, List.length_append, List.length_singleton]
    omega

/-- Settles O5: an event is placed only while the queue holds fewer than 32 and its dropped count stops at 255; a MASKS is
placed last and an ESCROW after the last ESCROW, each while there is room or for an entry that leaves. -/
theorem queuesStayBoundedAndOrdered : Obligations.QueuesStayBoundedAndOrdered := by
  have hevents : Kept [.events, .cmdQueue, .passQueue] EventLaw EventLaw := eventLaw_growth.kept eventLaw_reads
    eventLaw_fetch
    (fun s a k n l h => h.sameEvents (servePass_alters a k n l s .events (by decide)))
    (fun _ _ he _ _ h => h.sameEvents he) (fun _ _ he _ _ _ _ => eventLaw_initial.sameEvents (s := State.reset) he)
    (fun s => eventLaw_initial.sameEvents (s := State.reset) rfl)
  have hqueues : Kept [.events, .cmdQueue, .passQueue] QueueLaw QueueLaw := queueLaw_growth.kept queueLaw_reads
    (fun s n h => queueLaw_fetch s n h) queueLaw_pass
    (fun s t _ hq hp _ => queueLaw_empty hq (by simp [hp]))
    (fun s t _ hq hp _ h => by unfold QueueLaw at *; rwa [hq, hp])
    (fun s => queueLaw_empty rfl (Nat.zero_le _))
  exact ⟨fun _ _ => hevents.step, fun _ _ => hqueues.step⟩

end Sys2Proof.Machine
end

