-- ==== Sys2Proof/Proofs/TurnLaw.lean ====
section
/-! The turn law alone is not kept by a Vend request: it says nothing of the sale state, which the request's BUSY check
reads (R6, R71). -/

/- One lemma after another, to keep the memory of a compile small. -/
set_option Elab.async false

namespace Sys2Proof.Machine

/-- A vend of selection 1 turns its spiral while the credit record shows no vend in flight and the sale state is IDLE,
which the turn law allows and the credit law does not; an EXTERNAL vend of selection 0 is asked for. -/
def turningWhileIdle : State :=
  let v : VendOp := { sel := 1, spiral := 1, position := 0, revolutions := 1, drop := false, tried := false,
                      params := defaultDrive, told := true }
  { State.reset with
    phase := .run, pending := [.vendExternal 11 100], link.up := true,
    lock.door := { accepted := some false, runValue := false, runLen := 0 },
    sels := [{ SelKept.default with state := .enabled }], spirals := [{ SpiralRec.initial with state := .ready }],
    drive := { Drive.initial with vend := some v, rev := some { newRev 1 with stage := .turning } } }

theorem turningWhileIdle_turnLaw : TurnLaw turningWhileIdle := fun r hr _ => by
  cases hr
  exact ⟨_, rfl, rfl, rfl⟩

/-- The vend admitted takes the place of the one that turns, and has not been told of a grant. -/
theorem turningWhileIdle_step : ∃ t, step turningWhileIdle = .next t ∧ t.drive.service = none ∧
    t.drive.rev = some { newRev 1 with stage := .turning } ∧ t.drive.vend.map (·.told) = some false :=
  ⟨_, rfl, rfl, rfl, rfl⟩

/-- Refutes O7: the turn law without the credit law lets a Vend request find the sale state IDLE while a vend turns its
spiral; it is admitted, and the revolution goes on beside a vend not told of its grant. -/
theorem not_oneCrossingConducts : ¬ Obligations.OneCrossingConducts := by
  rintro ⟨-, hturn⟩
  obtain ⟨t, hstep, hservice, hrev, hvend⟩ := turningWhileIdle_step
  obtain ⟨v, hv, htold, -⟩ := hturn _ _ turningWhileIdle_turnLaw hstep _ hrev hservice
  simp [hv, htold] at hvend

end Sys2Proof.Machine
end

