-- ==== Sys2Proof/Proofs/FundsFrames.lean ====
section
/-! What leaves the money held and its funding as they were: the change to a payout in flight, the operations of the tubes,
and the service operations of the Spiral Drive. -/

/- One lemma after another, to keep the memory of a compile small. -/
set_option Elab.async false

namespace Sys2Proof.Machine

/-! ### The drive after the operations of the Credit Unit and the Load Arbiter -/

theorem Alters.drive_eq {ps : List Part} {s t : State} (h : Alters ps s t)
    (hp : Apart [.vendOp, .serviceOp, .rev, .column, .row, .probing] ps := by exact (apart_iff _ _).1 rfl) :
    t.drive = s.drive := by
  have hvend : t.drive.vend = s.drive.vend := h .vendOp (hp _ (by decide))
  have hservice : t.drive.service = s.drive.service := h .serviceOp (hp _ (by decide))
  have hrev : t.drive.rev = s.drive.rev := h .rev (hp _ (by decide))
  have hcolumn : t.drive.column = s.drive.column := h .column (hp _ (by decide))
  have hrow : t.drive.row = s.drive.row := h .row (hp _ (by decide))
  have hprobing : t.drive.probing = s.drive.probing := h .probing (hp _ (by decide))
  cases htd : t.drive
  cases hsd : s.drive
  simp_all

/-- The drive when a vend's record is gone (R84): its motor too, unless a service operation has it. -/
def Drive.withoutVend (d : Drive) : Drive :=
  if d.service.isSome then { d with vend := none } else { d with vend := none, rev := none, row := none }

/-- The drive when a service operation's record is gone. -/
def Drive.withoutService (d : Drive) : Drive := { d with service := none, rev := none, row := none }

theorem leaveVend_drive (s : State) : (leaveVend s).drive = s.drive.withoutVend := by
  unfold leaveVend Drive.withoutVend
  split
  · rfl
  · exact (release_alters _ _).drive_eq

theorem leaveService_drive (s : State) : (leaveService s).drive = s.drive.withoutService := by
  unfold leaveService
  dsimp only
  split
  · exact (request_alters _ _).drive_eq.trans (release_alters _ _).drive_eq
  · exact (release_alters _ _).drive_eq

theorem vendSucceeds_drive (v : VendOp) (s : State) : (vendSucceeds v s).drive = s.drive.withoutVend := by
  unfold vendSucceeds
  rw [(afterVend_alters _ _).drive_eq, (commitVend_alters _ _).drive_eq, (advancePointer_alters _ _ _).drive_eq,
    leaveVend_drive]

theorem vendFails_drive (v : VendOp) (w : VendFailure) (s : State) :
    (vendFails v w s).drive = s.drive.withoutVend := by
  unfold vendFails
  rw [(afterVend_alters _ _).drive_eq, (failVend_alters _ _ _).drive_eq, leaveVend_drive]

theorem homeReady_drive (p : Nat) (w : HomeCause) (s : State) : (homeReady p w s).drive = s.drive.withoutService :=
  leaveService_drive (setSpiral p .ready s)

theorem homeStalled_drive (p : Nat) (w : HomeCause) (s : State) : (homeStalled p w s).drive = s.drive.withoutService :=
  leaveService_drive (setSpiral p .stalled s)

theorem endTest_drive (r : Rev) (s : State) : (endTest r s).drive = s.drive.withoutService := by
  unfold endTest
  dsimp only
  split
  · split
    · exact leaveService_drive s
    · exact leaveService_drive s
  · exact leaveService_drive s

@[simp] theorem Drive.withoutVend_vend (d : Drive) : d.withoutVend.vend = none := by
  unfold Drive.withoutVend
  split <;> rfl

@[simp] theorem Drive.withoutService_vend (d : Drive) : d.withoutService.vend = d.vend := rfl

/-! ### What a service operation may change -/

/-- What a service operation may change: not the vend in flight. -/
def serviceOnlyParts : List Part := [.serviceOp, .rev, .row, .probing, .spirals, .grants, .events]

theorem homeReady_alters_parts (p : Nat) (w : HomeCause) (s : State) :
    Alters serviceOnlyParts s (homeReady p w s) :=
  ((setSpiral_alters _ _ s).seq (rs := serviceOnlyParts) (leaveService_alters _)).seq (raise_alters _ _ _ _)

theorem homeStalled_alters_parts (p : Nat) (w : HomeCause) (s : State) :
    Alters serviceOnlyParts s (homeStalled p w s) :=
  (((setSpiral_alters _ _ s).seq (rs := serviceOnlyParts) (leaveService_alters _)).seq (rs := serviceOnlyParts)
    (raise_alters _ _ _ _)).seq (raise_alters _ _ _ _)

theorem serviceGiven_alters_parts (o : ServiceOp) (s : State) : Alters serviceOnlyParts s (serviceGiven o s) := by
  unfold serviceGiven
  dsimp only
  refine Alters.ite (.ite ?_ ?_) ?_
  · exact (setService_alters _ s).seq (homeReady_alters_parts _ _ _)
  · exact (setService_alters _ s).seq (modSpiral_alters _ _ _)
  · exact (setService_alters _ s).seq (startRev_alters _ _)

theorem probeDone_alters_parts (b : Bool) (s : State) : Alters serviceOnlyParts s (probeDone b s) := by
  unfold probeDone
  split
  · exact .refl _ _
  next p _ =>
    have hread (f : SpiralRec → SpiralRec) : Alters serviceOnlyParts s
        (modSpiral p f { s with drive.probing := none }) := (setProbing_alters _ s).seq (modSpiral_alters _ _ _)
    have hset (f g : SpiralRec → SpiralRec) (c : Prop) [Decidable c] : Alters serviceOnlyParts s
        (if c then modSpiral p g (modSpiral p f { s with drive.probing := none })
          else modSpiral p f { s with drive.probing := none }) :=
      .ite ((hread f).seq (modSpiral_alters _ _ _)) (hread f)
    exact .ite (.ite ((hset _ _ _).trans (homeReady_alters_parts _ _ _)) ((hset _ _ _).seq (startRev_alters _ _)))
      (hset _ _ _)

theorem endTest_alters_parts (r : Rev) (s : State) : Alters serviceOnlyParts s (endTest r s) := by
  have hdone (v : Option Word32) (x : SpiralState) : Alters serviceOnlyParts s
      (setSpiral r.spiral x (raise .spiralTestDone (some r.spiral) v (leaveService s))) :=
    ((leaveService_alters s).seq (rs := serviceOnlyParts) (raise_alters _ _ _ _)).seq (setSpiral_alters _ _ _)
  unfold endTest
  dsimp only
  split
  · exact .ite (hdone _ _) ((hdone _ _).seq (raiseSpiralFault_alters _ _ _))
  · exact hdone _ _

/-! ### The money held and its funding -/

/-- The parts that the money held and its funding are read from. -/
def fundsParts : List Part := [.amounts, .tables, .escrow, .inFlight, .vendOp, .payout, .phase]

/-- The money held, its funding and the operations it pays for are as they were; a payout in flight may have changed or
ended, and what is owed may have too. -/
structure SameFunds (s t : State) : Prop where
  credit : t.credit.credit = s.credit.credit
  hold : t.credit.vendHold = s.credit.vendHold
  reserve : t.credit.escrowReserve = s.credit.escrowReserve
  escrow : t.credit.escrow = s.credit.escrow
  funding : t.credit.inFlight = s.credit.inFlight
  tables : t.tables = s.tables
  vend : t.drive.vend.isSome = s.drive.vend.isSome
  payout : s.change.payout = none → t.change.payout = none
  phase : t.phase = s.phase

theorem SameFunds.refl (s : State) : SameFunds s s := ⟨rfl, rfl, rfl, rfl, rfl, rfl, rfl, id, rfl⟩

theorem SameFunds.trans {s t u : State} (h1 : SameFunds s t) (h2 : SameFunds t u) : SameFunds s u :=
  ⟨h2.credit.trans h1.credit, h2.hold.trans h1.hold, h2.reserve.trans h1.reserve, h2.escrow.trans h1.escrow,
    h2.funding.trans h1.funding, h2.tables.trans h1.tables, h2.vend.trans h1.vend, h2.payout ∘ h1.payout,
    h2.phase.trans h1.phase⟩

theorem SameFunds.frame {ps : List Part} {s t : State} (h : Alters ps s t)
    (hp : Apart fundsParts ps := by exact (apart_iff _ _).1 rfl) : SameFunds s t := by
  obtain ⟨hcredit, hhold, hreserve, -⟩ : t.credit.credit = s.credit.credit ∧ t.credit.vendHold = s.credit.vendHold ∧
    t.credit.escrowReserve = s.credit.escrowReserve ∧ t.credit.returnDue = s.credit.returnDue :=
    h .amounts (hp _ (by decide))
  have hvend : t.drive.vend = s.drive.vend := h .vendOp (hp _ (by decide))
  have hpayout : t.change.payout = s.change.payout := h .payout (hp _ (by decide))
  exact ⟨hcredit, hhold, hreserve, h .escrow (hp _ (by decide)), h .inFlight (hp _ (by decide)),
    h .tables (hp _ (by decide)), by rw [hvend], fun hs => hpayout.trans hs, h .phase (hp _ (by decide))⟩

theorem SameFunds.ite {c : Prop} [Decidable c] {s t u : State} (ht : SameFunds s t) (hu : SameFunds s u) :
    SameFunds s (if c then t else u) := by
  split
  · exact ht
  · exact hu

theorem SameFunds.foldl {α : Type} {f : State → α → State} (hf : ∀ s a, SameFunds s (f s a)) (l : List α) (s : State) :
    SameFunds s (l.foldl f s) := by
  induction l generalizing s with
  | nil => exact .refl s
  | cons a l ih => exact (hf s a).trans (ih _)

theorem SameFunds.mapPayout (f : Payout → Payout) (s : State) :
    SameFunds s { s with change.payout := s.change.payout.map f } :=
  ⟨rfl, rfl, rfl, rfl, rfl, rfl, rfl, fun h => by simp [h], rfl⟩

theorem sameFunds_markReplan (s : State) : SameFunds s (markReplan s) := .mapPayout _ s

theorem sameFunds_rawCond (n : Nat) (c : TubeCond) (s : State) : SameFunds s (rawCond n c s) := by
  have hset : SameFunds s { modTube n (fun t => { t with cond := c }) s with change.shortWait := false } :=
    .frame (ps := [.tubes, .shortWait]) (by intro p hp; cases p <;> simp_all [Part.same])
  exact .ite (.refl s) (.ite (hset.trans (sameFunds_markReplan _))
    ((hset.trans (sameFunds_markReplan _)).trans (.mapPayout _ _)))

theorem sameFunds_correctCount (n : Nat) (w : Correction) (k : Nat) (s : State) :
    SameFunds s (correctCount n w k s) :=
  ((SameFunds.frame (rawCount_alters n k s)).trans (.frame (raiseCorrected_alters n w _ k _))).trans (.mapPayout _ _)

theorem sameFunds_reconcile (n : Nat) (s : State) : SameFunds s (reconcile n s) :=
  .ite (.ite ((sameFunds_rawCond n .faulted s).trans (.frame (raiseTubeFault_alters n 0 _))) (.refl s))
    (.ite (sameFunds_correctCount _ _ _ s) (.ite (sameFunds_correctCount _ _ _ s)
      (.ite (sameFunds_correctCount _ _ _ s) (.refl s))))

theorem sameFunds_levelRead (n : Nat) (full : Bool) (s : State) (c : Bool) : SameFunds s (levelRead n full s c) := by
  unfold levelRead
  dsimp only
  split
  · exact .frame (modTube_alters _ _ s)
  · exact .ite (((SameFunds.frame (modTube_alters _ _ s)).trans (sameFunds_reconcile n _)).trans
      (.frame (afterTubesIf_alters _ _))) (.frame (modTube_alters _ _ s))

theorem sameFunds_coinIntoTube (n : Nat) (s : State) : SameFunds s (coinIntoTube n s) :=
  .ite (((SameFunds.frame (rawCount_alters n _ s)).trans (.frame (raiseCorrected_alters n _ _ _ _))).trans
    (sameFunds_reconcile n _)) ((SameFunds.frame (rawCount_alters n _ s)).trans (sameFunds_reconcile n _))

theorem sameFunds_evalExact (s : State) : SameFunds s (evalExact s) := .frame (evalExact_alters s)

theorem sameFunds_pulse (n : Nat) (s : State) : SameFunds s (pulse n s) := .mapPayout _ s

theorem sameFunds_replan (s : State) : SameFunds s (replan s) := .mapPayout _ s

theorem sameFunds_endPayout (s : State) : SameFunds s (endPayout s) := by
  have hgone : SameFunds s { s with change.payout := none } := ⟨rfl, rfl, rfl, rfl, rfl, rfl, rfl, fun _ => rfl, rfl⟩
  exact (hgone.trans (.frame (release_alters _ _))).trans (.frame (setSale_alters _))

/-- The payout in flight takes a new record. -/
theorem sameFunds_setPayout {s : State} {p : Payout} (h : s.change.payout = some p) (q : Option Payout) :
    SameFunds s { s with change.payout := q } :=
  ⟨rfl, rfl, rfl, rfl, rfl, rfl, rfl, fun hs => absurd (hs.symm.trans h) (by simp), rfl⟩

theorem sameFunds_countPaid (k : PayoutKind) (v : Nat) (s : State) : SameFunds s (countPaid k v s) := by
  unfold countPaid
  split
  · exact ⟨rfl, rfl, rfl, rfl, rfl, rfl, rfl, id, rfl⟩
  · exact ⟨rfl, rfl, rfl, rfl, rfl, rfl, rfl, id, rfl⟩

theorem sameFunds_coinAtExit (s : State) : SameFunds s (coinAtExit s) := by
  have hstray : SameFunds s { s with change.stray := satAdd Config.maxCount16 s.change.stray 1 } :=
    ⟨rfl, rfl, rfl, rfl, rfl, rfl, rfl, id, rfl⟩
  have hcounted (n k v : Nat) (f : Payout → Payout) (x : PayoutKind) : SameFunds s (setSale (countPaid x v
      { reconcile n (rawCount n k s) with change.payout := (reconcile n (rawCount n k s)).change.payout.map f })) :=
    ((((SameFunds.frame (rawCount_alters n k s)).trans (sameFunds_reconcile n _)).trans (.mapPayout f _)).trans
      (sameFunds_countPaid x v _)).trans (.frame (setSale_alters _))
  unfold coinAtExit
  split
  · exact hstray
  · split
    · exact hstray
    · exact .ite ((hcounted _ _ _ _ _).trans (.frame (afterTubesIf_alters s _)))
        ((hcounted _ _ _ _ _).trans (.frame (afterTubes_alters _)))

theorem sameFunds_miss (n : Nat) (b : Bool) (s : State) : SameFunds s (miss n b s).1 := by
  have hdecided : SameFunds s (decideTube n s).1 := by
    unfold decideTube
    split
    · exact (((SameFunds.frame (rawCount_alters n 0 s)).trans (.frame (raiseCorrected_alters n _ _ 0 _))).trans
        (sameFunds_reconcile n _)).trans (sameFunds_markReplan _)
    · split
      · exact ((sameFunds_rawCond n .faulted s).trans (.frame (raiseTubeFault_alters n 1 _))).trans
          (sameFunds_markReplan _)
      · exact sameFunds_markReplan s
  unfold miss
  split
  · exact hdecided.trans (.frame (afterTubesIf_alters s _))
  · exact .mapPayout _ s

theorem sameFunds_replanIfMarked (s : State) : SameFunds s (replanIfMarked s) := by
  unfold replanIfMarked
  split
  · exact .ite (sameFunds_replan s) (.refl s)
  · exact .refl s

/-- A window that closes decides its tube and plans again before the ending tests. -/
theorem windowCloses_cases (s : State) : windowCloses s = s ∨
    ∃ u v, SameFunds s u ∧ windowCloses s = afterWindow v u := by
  unfold windowCloses
  split
  · exact .inl rfl
  · split
    · exact .inl rfl
    next p hp _ n _ =>
      refine .inr ⟨_, _, SameFunds.trans ?_ (sameFunds_replanIfMarked _), rfl⟩
      split
      · exact (sameFunds_setPayout hp _).trans (sameFunds_miss _ _ _)
      · exact sameFunds_setPayout hp _

/-- What is owed grows, or is written off; the money held stays. -/
theorem sameFunds_addReturnDue (a : Nat) (s : State) : SameFunds s (addReturnDue a s) := by
  have hdue (d : Nat) : SameFunds s { s with credit.returnDue := d } := ⟨rfl, rfl, rfl, rfl, rfl, rfl, rfl, id, rfl⟩
  have hmarked (d : Nat) (c : Prop) [Decidable c] : SameFunds s (if c then { s with credit.returnDue := d }
      else markReplan { s with credit.returnDue := d, change.shortWait := false }) :=
    .ite (hdue d) (SameFunds.trans (t := { s with credit.returnDue := d, change.shortWait := false })
      ⟨rfl, rfl, rfl, rfl, rfl, rfl, rfl, id, rfl⟩ (sameFunds_markReplan _))
  have haudit (u : State) (x : Audit) : SameFunds u { u with audit := x } :=
    ⟨rfl, rfl, rfl, rfl, rfl, rfl, rfl, id, rfl⟩
  exact .ite (hmarked _ _) (((hmarked _ _).trans (haudit _ _)).trans (.frame (raise_alters _ _ _ _)))

end Sys2Proof.Machine
end

