-- ==== Sys2Proof/Proofs/CreditLaw.lean ====
section
/-! The credit law through every step (R1, R4, R7, R9, R10, R17): money is taken only up to the headroom, and the record of
a vend and its funding begin and end together. -/

/- One lemma after another, to keep the memory of a compile small. -/
set_option Elab.async false

namespace Sys2Proof.Machine

/-- The credit law but for the sale state, which is brought up to date at the end of an operation (R4). -/
structure CreditCore (s : State) : Prop where
  ceiling : s.heldSum ≤ s.tables.money.ceiling
  reserve : s.credit.escrowReserve = reserveOf s
  hold : s.credit.vendHold ≠ 0 → s.credit.inFlight = some .cash
  vend : s.credit.inFlight.isSome = s.drive.vend.isSome
  payout : s.credit.inFlight.isSome = true → s.change.payout = none
  quiet : s.active = false → s.credit.inFlight = none

theorem CreditLaw.core {s : State} (h : CreditLaw s) : CreditCore s :=
  ⟨h.ceiling, h.reserve, h.hold, h.vend, h.payout, h.quiet⟩

theorem CreditCore.law {s : State} (h : CreditCore s) (hsale : s.phase = .run → s.credit.sale = saleOf s) :
    CreditLaw s := ⟨h.ceiling, h.reserve, h.hold, h.vend, h.payout, hsale, h.quiet⟩

theorem reserveOf_congr {s t : State} (hescrow : t.credit.escrow = s.credit.escrow) (htables : t.tables = s.tables) :
    reserveOf t = reserveOf s := by
  unfold reserveOf
  rw [hescrow, htables]

theorem active_congr {s t : State} (h : t.phase = s.phase) : t.active = s.active := by
  simp only [State.active, h]

/-- Money moves within the ceiling while the funding of a vend stays as it was. -/
theorem CreditCore.moved {s t : State} (hs : CreditCore s) (hheld : t.heldSum ≤ t.tables.money.ceiling)
    (hreserve : t.credit.escrowReserve = reserveOf t) (hhold : t.credit.vendHold = s.credit.vendHold)
    (hfunding : t.credit.inFlight = s.credit.inFlight) (hvend : t.drive.vend.isSome = s.drive.vend.isSome)
    (hpayout : s.change.payout = none → t.change.payout = none) (hphase : t.phase = s.phase) : CreditCore t where
  ceiling := hheld
  reserve := hreserve
  hold := by rw [hhold, hfunding]; exact hs.hold
  vend := by rw [hfunding, hvend]; exact hs.vend
  payout := by rw [hfunding]; exact hpayout ∘ hs.payout
  quiet := by rw [hfunding, active_congr hphase]; exact hs.quiet

theorem CreditCore.same {s t : State} (hs : CreditCore s) (h : SameFunds s t) : CreditCore t := by
  refine hs.moved ?_ ?_ h.hold h.funding h.vend h.payout h.phase
  · have hceiling := hs.ceiling
    simpa only [State.heldSum, h.credit, h.hold, h.reserve, h.tables] using hceiling
  · rw [reserveOf_congr h.escrow h.tables, h.reserve]
    exact hs.reserve

theorem CreditCore.alters {ps : List Part} {s t : State} (hs : CreditCore s) (h : Alters ps s t)
    (hp : Apart fundsParts ps := by exact (apart_iff _ _).1 rfl) : CreditCore t := hs.same (.frame h hp)

theorem CreditCore.ite {c : Prop} [Decidable c] {t u : State} (ht : CreditCore t) (hu : CreditCore u) :
    CreditCore (if c then t else u) := by
  split
  · exact ht
  · exact hu

/-- Credit that moves to what is owed, or shrinks for it. -/
theorem CreditCore.lessCredit {s : State} (hs : CreditCore s) {c d : Nat} (hc : c ≤ s.credit.credit) :
    CreditCore { s with credit.credit := c, credit.returnDue := d } := by
  refine hs.moved ?_ hs.reserve rfl rfl rfl id rfl
  have hceiling := hs.ceiling
  simp only [State.heldSum] at hceiling ⊢
  omega

/-- Money credited within the headroom. -/
theorem CreditCore.moreCredit {s : State} (hs : CreditCore s) {m d : Nat} {a : Audit} (hm : m ≤ s.headroom) :
    CreditCore { s with credit.credit := s.credit.credit + m, credit.returnDue := d, audit := a } := by
  refine hs.moved ?_ hs.reserve rfl rfl rfl id rfl
  have hceiling := hs.ceiling
  simp only [State.headroom, State.heldSum] at hceiling hm ⊢
  omega

/-! ### Money -/

theorem CreditCore.creditToReturn {s : State} (hs : CreditCore s) : CreditCore (creditToReturn s) :=
  (hs.lessCredit (d := s.credit.returnDue) (Nat.zero_le _)).same (sameFunds_addReturnDue _ _)

/-- A payout that begins does so beside no vend. -/
theorem CreditCore.payoutTest {s : State} (hs : CreditCore s) : CreditCore (payoutTest s) := by
  unfold Machine.payoutTest
  split
  next h =>
    have hnone : s.credit.inFlight = none := by simp_all
    refine CreditCore.alters (CreditCore.alters ?_ (request_alters .payout _)) (setSale_alters _)
    exact ⟨hs.ceiling, hs.reserve, hs.hold, hs.vend, fun hv => by simp [hnone] at hv, hs.quiet⟩
  next => exact hs

theorem CreditCore.setSale {s : State} (hs : CreditCore s) : CreditCore (setSale s) := hs.alters (setSale_alters s)

theorem CreditCore.recomputeMasks {s : State} (hs : CreditCore s) : CreditCore (recomputeMasks s) :=
  hs.alters (recomputeMasks_alters s)

theorem CreditCore.masksIfHeld {s : State} (hs : CreditCore s) (o : State) : CreditCore (masksIfHeld o s) :=
  hs.alters (masksIfHeld_alters o s)

theorem CreditCore.raise {s : State} (hs : CreditCore s) (k : EventKind) (x : Option Nat) (v : Option Word32) :
    CreditCore (raise k x v s) := hs.alters (raise_alters k x v s)

theorem CreditCore.shortWait {s : State} (hs : CreditCore s) (b : Bool) :
    CreditCore { s with change.shortWait := b } := hs.alters (shortWait_alters b s)

theorem CreditCore.returnAll {s : State} (hs : CreditCore s) : CreditCore (returnAll s) :=
  ((hs.creditToReturn.shortWait false).setSale.payoutTest).masksIfHeld s

theorem CreditCore.returnLever {s : State} (hs : CreditCore s) : CreditCore (returnLever s) := by
  unfold Machine.returnLever
  split
  · exact hs
  · split
    · exact hs
    · exact hs.returnAll
  · exact hs.returnAll
  · exact hs.alters (ps := [.pendingReturn]) (by intro p hp; cases p <;> simp_all [Part.same])

theorem CreditCore.creditMoney {s : State} (hs : CreditCore s) (k : EventKind) (x v : Nat) :
    CreditCore (creditMoney k x v s) := by
  have hcredited := (hs.moreCredit (d := s.credit.returnDue)
    (a := { s.audit with cashIn := addTotal s.audit.cashIn v }) (Nat.min_le_right v s.headroom)).raise k (some x) (val v)
  unfold Machine.creditMoney
  dsimp only
  refine CreditCore.recomputeMasks (CreditCore.payoutTest (CreditCore.setSale ?_))
  split
  · exact hcredited
  · exact (hcredited.same (sameFunds_addReturnDue _ _)).raise _ _ _

/-- The escrow record goes with its reserve. -/
theorem CreditCore.removeEscrow {s : State} (hs : CreditCore s) : CreditCore (removeEscrow s) := by
  refine hs.moved ?_ rfl rfl rfl rfl id rfl
  have hceiling := hs.ceiling
  simp only [State.heldSum, Machine.removeEscrow] at hceiling ⊢
  omega

theorem CreditCore.expireEscrow {s : State} (hs : CreditCore s) : CreditCore (expireEscrow s) := by
  unfold Machine.expireEscrow
  split
  · exact hs
  · exact ((hs.removeEscrow.raise _ _ _).setSale).recomputeMasks

theorem placeEscrow_sameFunds (d : Decision) (n : Nat) (k : Bool) (s : State) : SameFunds s (placeEscrow d n k s) :=
  .frame (placeEscrow_alters d n k s)

theorem CreditCore.noteEscrow {s : State} (hs : CreditCore s) (n : Nat) : CreditCore (noteEscrow n s) := by
  have hreserve := hs.reserve
  have hceiling := hs.ceiling
  unfold Machine.noteEscrow
  split
  · exact hs.same (placeEscrow_sameFunds _ _ _ s)
  next hnone =>
    have hzero : s.credit.escrowReserve = 0 := by rw [hreserve]; simp only [reserveOf, hnone]
    split
    next hfits =>
      have hroom : (s.tables.note n).value ≤ s.headroom := by
        unfold noteFits at hfits
        simp_all
      refine CreditCore.recomputeMasks (CreditCore.same (CreditCore.setSale ?_) (placeEscrow_sameFunds _ _ _ _))
      refine hs.moved ?_ rfl rfl rfl rfl id rfl
      simp only [State.headroom, State.heldSum] at hceiling hroom ⊢
      omega
    next =>
      refine CreditCore.same ?_ (placeEscrow_sameFunds _ _ _ _)
      exact hs.moved hceiling hzero rfl rfl rfl id rfl

theorem CreditCore.noteStacked {s : State} (hs : CreditCore s) (n : Nat) : CreditCore (noteStacked n s) := by
  unfold Machine.noteStacked
  dsimp only
  split
  · split
    · split
      · refine CreditCore.recomputeMasks (CreditCore.setSale (CreditCore.raise ?_ _ _ _))
        refine hs.moved ?_ rfl rfl rfl rfl id rfl
        have hceiling := hs.ceiling
        simp only [State.heldSum, Machine.removeEscrow] at hceiling ⊢
        omega
      · exact hs.removeEscrow.creditMoney _ _ _
    · exact hs.creditMoney _ _ _
  · exact hs.creditMoney _ _ _

theorem CreditCore.noteReturned {s : State} (hs : CreditCore s) (n : Nat) : CreditCore (noteReturned n s) := by
  unfold Machine.noteReturned
  split
  · split
    · have hraised := hs.removeEscrow.raise .noteReturned (some n) (val (s.tables.note n).value)
      dsimp only
      split
      · exact hraised.setSale.recomputeMasks
      · exact hraised
    · exact hs
  · exact hs

/-! ### Coins and payouts -/

theorem CreditCore.takeCoin {s : State} (hs : CreditCore s) (k : Nat) : CreditCore (takeCoin k s) := by
  unfold Machine.takeCoin
  dsimp only
  split
  · refine CreditCore.recomputeMasks (CreditCore.raise ?_ _ _ _)
    exact hs.alters (ps := [.audit]) (by intro p hp; cases p <;> simp_all [Part.same])
  · exact hs.creditMoney _ _ _

theorem CreditCore.coinTube {s : State} (hs : CreditCore s) (k : Nat) : CreditCore (coinTube k s) := by
  unfold Machine.coinTube
  split
  · exact hs.takeCoin k
  · exact ((hs.same (sameFunds_coinIntoTube _ s)).alters (evalExactIf_alters s _)).takeCoin k

theorem CreditCore.payoutShort {s : State} (hs : CreditCore s) : CreditCore (payoutShort s) := by
  have hmoved := ((hs.moreCredit (d := s.credit.returnDue - min s.credit.returnDue s.headroom) (a := s.audit)
    (Nat.min_le_right s.credit.returnDue s.headroom)).raise .payoutShort none (val s.credit.returnDue)).shortWait true
  exact (hmoved.same (sameFunds_endPayout _)).masksIfHeld s

theorem CreditCore.pulseOrShort {s : State} (hs : CreditCore s) : CreditCore (pulseOrShort s) := by
  unfold Machine.pulseOrShort
  split
  · exact hs.same (sameFunds_pulse _ s)
  · exact hs.payoutShort

theorem CreditCore.nextReturn {s : State} (hs : CreditCore s) : CreditCore (nextReturn s) := by
  unfold Machine.nextReturn
  split
  · exact hs
  · split
    · exact (hs.raise _ _ _).same (sameFunds_endPayout _)
    · split
      · exact hs.same (sameFunds_pulse _ s)
      · split
        · exact hs.same (sameFunds_pulse _ s)
        · exact (hs.same (sameFunds_replan s)).pulseOrShort

theorem sameFunds_nextDrain (n l c : Nat) (v : Verdict) (s : State) : SameFunds s (nextDrain n l c v s) := by
  have hdone (e : DrainEnding) : SameFunds s (drainDone n c e s) :=
    (SameFunds.frame (raise_alters _ _ _ s)).trans (sameFunds_endPayout _)
  exact .ite (hdone _) (.ite (hdone _) (.ite (hdone _) (sameFunds_pulse n s)))

theorem CreditCore.afterWindow {s : State} (hs : CreditCore s) (v : Verdict) : CreditCore (afterWindow v s) := by
  unfold Machine.afterWindow
  split
  · exact hs
  · split
    · exact hs.nextReturn
    · exact hs.same (sameFunds_nextDrain _ _ _ _ s)

theorem CreditCore.windowCloses {s : State} (hs : CreditCore s) : CreditCore (windowCloses s) := by
  rcases windowCloses_cases s with h | ⟨u, v, hu, h⟩
  · rw [h]; exact hs
  · rw [h]; exact (hs.same hu).afterWindow v

theorem CreditCore.payoutGiven {s : State} (hs : CreditCore s) : CreditCore (payoutGiven s) := by
  unfold Machine.payoutGiven
  split
  · exact hs
  next p hp =>
    split
    · exact hs
    · dsimp only
      split
      · exact ((hs.same (sameFunds_setPayout hp _)).same (sameFunds_replan _)).pulseOrShort
      · exact (hs.same (sameFunds_setPayout hp _)).same (sameFunds_pulse _ _)

theorem CreditCore.clearFault {s : State} (hs : CreditCore s) (n : Nat) : CreditCore (clearFault n s) :=
  ((hs.same (sameFunds_rawCond n .ok s)).same (sameFunds_reconcile n _)).alters (afterTubes_alters _)

/-! ### Vends -/

/-- A vend has ended: its record and its funding are gone, its price is held no longer. -/
theorem CreditCore.ended {s t : State} (hs : CreditCore s) (hheld : t.heldSum ≤ s.heldSum)
    (hreserve : t.credit.escrowReserve = s.credit.escrowReserve) (hescrow : t.credit.escrow = s.credit.escrow)
    (htables : t.tables = s.tables) (hhold : t.credit.vendHold = 0) (hfunding : t.credit.inFlight = none)
    (hvend : t.drive.vend = none) : CreditCore t where
  ceiling := by rw [htables]; exact hheld.trans hs.ceiling
  reserve := by rw [reserveOf_congr hescrow htables, hreserve]; exact hs.reserve
  hold h := absurd hhold h
  vend := by rw [hfunding, hvend]; rfl
  payout h := by simp [hfunding] at h
  quiet _ := hfunding

theorem CreditCore.no_hold {s : State} (hs : CreditCore s) (h : s.credit.inFlight ≠ some .cash) :
    s.credit.vendHold = 0 := by
  by_contra hne
  exact h (hs.hold hne)

/-- The parts of a vend's record, which its outcome at the Credit Unit does not read. -/
def leaveParts : List Part := [.vendOp, .rev, .row, .grants]

/-- A vend whose operation has left is committed (R8, R10). -/
theorem CreditCore.commitVend {s u : State} (hs : CreditCore s) (hu : Alters (.sels :: leaveParts) s u)
    (hvend : u.drive.vend = none) (i : Nat) : CreditCore (commitVend i u) := by
  have hcredit : u.credit = s.credit := by
    have h1 : u.credit.sale = s.credit.sale := hu .sale (by decide)
    have h2 : u.credit.inFlight = s.credit.inFlight := hu .inFlight (by decide)
    have h3 : u.credit.pendingReturn = s.credit.pendingReturn := hu .pendingReturn (by decide)
    have h4 : u.credit.escrow = s.credit.escrow := hu .escrow (by decide)
    have h5 : u.credit.noteMask = s.credit.noteMask := hu .noteMask (by decide)
    obtain ⟨h6, h7, h8, h9⟩ := hu .amounts (by decide)
    cases hc : u.credit
    cases hd : s.credit
    simp_all
  have htables : u.tables = s.tables := hu .tables (by decide)
  have hceiling := hs.ceiling
  have hended (w : State) (hw : w.credit = s.credit) (hwt : w.tables = s.tables) (hwv : w.drive.vend = none)
      (h : Nat) (hh : h = 0) : CreditCore { w with credit.vendHold := h, credit.inFlight := none } := by
    refine hs.ended ?_ ?_ ?_ hwt hh rfl hwv
    · simp only [State.heldSum, hw, hh]
      omega
    · simp only [hw]
    · simp only [hw]
  unfold Machine.commitVend
  split
  next hnone =>
    exact hs.ended (by simp [State.heldSum, hcredit]) (by rw [hcredit]) (by rw [hcredit]) htables
      (by rw [hcredit]; exact hs.no_hold (by simp [← hcredit, hnone])) hnone hvend
  next hcash =>
    have hpaid := hended (countSale i { u with audit.cashSales := addTotal u.audit.cashSales u.credit.vendHold })
      hcredit htables hvend 0 rfl
    dsimp only
    refine CreditCore.raise ?_ _ _ _
    split
    · exact hpaid.creditToReturn
    · exact hpaid
  next amount hexternal =>
    refine CreditCore.raise ?_ _ _ _
    refine hended (countSale i { u with audit.externalSales := addTotal u.audit.externalSales amount })
      hcredit htables hvend u.credit.vendHold ?_
    rw [hcredit]
    exact hs.no_hold (by simp [← hcredit, hexternal])

/-- A vend whose operation has left is restored (R9, R10). -/
theorem CreditCore.failVend {s u : State} (hs : CreditCore s) (hu : Alters (.pendingReturn :: .sels :: leaveParts) s u)
    (hvend : u.drive.vend = none) (i : Nat) (w : VendFailure) : CreditCore (failVend i w u) := by
  obtain ⟨h6, h7, h8, h9⟩ := hu .amounts (by decide)
  have hfunding : u.credit.inFlight = s.credit.inFlight := hu .inFlight (by decide)
  have hescrow : u.credit.escrow = s.credit.escrow := hu .escrow (by decide)
  have htables : u.tables = s.tables := hu .tables (by decide)
  unfold Machine.failVend
  split
  next hnone =>
    exact hs.ended (by simp [State.heldSum, h6, h7, h8]) h8 hescrow htables
      (by rw [h7]; exact hs.no_hold (by simp [← hfunding, hnone])) hnone hvend
  next =>
    refine CreditCore.raise ?_ _ _ _
    refine hs.ended ?_ h8 hescrow htables rfl rfl hvend
    simp only [State.heldSum, h6, h7, h8]
    omega

theorem CreditCore.afterVend {s : State} (hs : CreditCore s) (o : State) : CreditCore (afterVend o s) := by
  have hmark : CreditCore { s with credit.pendingReturn := false } :=
    hs.alters (ps := [.pendingReturn]) (by intro p hp; cases p <;> simp_all [Part.same])
  unfold Machine.afterVend
  dsimp only
  refine CreditCore.masksIfHeld (CreditCore.payoutTest (CreditCore.setSale ?_)) o
  split
  · exact hmark.creditToReturn.shortWait false
  · exact hs

theorem leaveVend_vend (s : State) : (leaveVend s).drive.vend = none := by
  rw [leaveVend_drive, Drive.withoutVend_vend]

theorem CreditCore.vendSucceeds {s : State} (hs : CreditCore s) (v : VendOp) : CreditCore (vendSucceeds v s) := by
  refine CreditCore.afterVend (hs.commitVend ?_ ?_ v.sel) s
  · exact (leaveVend_alters s).seq (advancePointer_alters _ _ _)
  · rw [(advancePointer_alters v.sel v.position (leaveVend s)).drive_eq, leaveVend_vend]

theorem CreditCore.vendFails {s : State} (hs : CreditCore s) (v : VendOp) (w : VendFailure) :
    CreditCore (vendFails v w s) :=
  CreditCore.afterVend (hs.failVend (leaveVend_alters s).mono (leaveVend_vend s) v.sel w) s

/-- The vend in flight takes a new record. -/
theorem sameFunds_setVend {s : State} (h : s.drive.vend.isSome = true) (v : VendOp) (r : Option Rev) :
    SameFunds s { s with drive.vend := some v, drive.rev := r } :=
  ⟨rfl, rfl, rfl, rfl, rfl, rfl, h.symm, id, rfl⟩

theorem sameFunds_turnSpiral {s : State} (h : s.drive.vend.isSome = true) (v : VendOp) (p j : Nat) :
    SameFunds s (turnSpiral v p j s) := ⟨rfl, rfl, rfl, rfl, rfl, rfl, h.symm, id, rfl⟩

theorem CreditCore.vendGiven {s : State} (hs : CreditCore s) {v : VendOp} (hv : s.drive.vend = some v) :
    CreditCore (vendGiven v s) := by
  unfold Machine.vendGiven
  split
  · exact hs.same (sameFunds_turnSpiral (by simp [hv]) _ _ _)
  · split
    · exact hs.same (sameFunds_turnSpiral (by simp [hv]) _ _ _)
    · exact hs.vendFails _ _

theorem CreditCore.motorGiven {s : State} (hs : CreditCore s) : CreditCore (motorGiven s) := by
  unfold Machine.motorGiven
  split
  · exact hs
  · split
    · split
      · exact hs
      · exact hs.alters (serviceGiven_alters_parts _ s)
    · split
      next v hv =>
        split
        · exact hs
        · exact hs.vendGiven hv
      · exact hs

theorem CreditCore.moveOn {s : State} (hs : CreditCore s) {v : VendOp} (hv : s.drive.vend.isSome = true) (b : Bool) :
    CreditCore (moveOn v b s) := by
  have htried := hs.same (sameFunds_setVend hv { v with tried := true } none)
  unfold Machine.moveOn
  dsimp only
  split
  · exact CreditCore.vendFails ((htried.alters (modSel_alters _ _ _)).raise _ _ _) _ _
  · split
    · exact htried.same (sameFunds_turnSpiral rfl _ _ _)
    · exact htried.vendFails _ _

theorem CreditCore.windowPassed {s : State} (hs : CreditCore s) {v : VendOp} (hv : s.drive.vend.isSome = true)
    (r : Rev) : CreditCore (windowPassed v r s) := by
  unfold Machine.windowPassed
  split
  · exact hs.moveOn hv true
  · split
    · exact hs.alters (startRev_alters _ s)
    · have hempty := (hs.alters (setSpiral_alters v.spiral .empty s)).raise .spiralEmpty (some v.spiral)
        (val v.revolutions)
      exact hempty.moveOn hv false

theorem CreditCore.stopped {s : State} (hs : CreditCore s) (r : Rev) : CreditCore (keepSwitch r (stopMotor s)) :=
  (hs.alters (stopMotor_alters s)).alters (keepSwitch_alters r _)

theorem CreditCore.revComplete {s : State} (hs : CreditCore s) (r : Rev) (n : Nat) : CreditCore (revComplete r n s) := by
  have hstored := (hs.stopped r).alters (storeTime_alters r.spiral n _)
  unfold Machine.revComplete
  dsimp only
  split
  · split
    · exact (hs.stopped r).alters (homeReady_alters_parts _ _ _)
    · exact hstored.alters (enterTail_alters _ _)
  · split
    · exact hstored
    · split
      · exact hstored.vendSucceeds _
      · exact hstored.alters (enterTail_alters _ _)

theorem CreditCore.revFails {s : State} (hs : CreditCore s) (r : Rev) (f : Failure) : CreditCore (revFails r f s) := by
  have hstopped := hs.stopped r
  unfold Machine.revFails
  dsimp only
  split
  · split
    · exact hstopped.alters (homeStalled_alters_parts _ _ _)
    · exact hstopped.alters (enterTail_alters _ _)
  · split
    · exact hstopped
    next v hv =>
      have hfault := (hstopped.alters (setSpiral_alters r.spiral f.state _)).alters (raiseSpiralFault_alters r.spiral f _)
      split
      · exact hfault.moveOn (by
          show (keepSwitch r (stopMotor s)).drive.vend.isSome = true
          rw [hv]; rfl) true
      · split
        · exact hfault.vendSucceeds v
        · exact hfault.alters (enterTail_alters _ _)

theorem CreditCore.switchCloses {s : State} (hs : CreditCore s) (l : List Bool) (n : Nat) :
    CreditCore (switchCloses l n s) := by
  unfold Machine.switchCloses
  split
  · exact hs
  · split
    · dsimp only
      split
      · exact hs.revComplete _ _
      · exact hs.alters (setRev_alters _ s)
    · exact hs

theorem CreditCore.leaveLimitPasses {s : State} (hs : CreditCore s) : CreditCore (leaveLimitPasses s) := by
  unfold Machine.leaveLimitPasses
  split
  · exact hs
  · exact .ite hs (hs.revFails _ _)

theorem CreditCore.revLimitPasses {s : State} (hs : CreditCore s) : CreditCore (revLimitPasses s) := by
  unfold Machine.revLimitPasses
  split
  · exact hs
  · exact hs.revFails _ _

theorem CreditCore.currentJams {s : State} (hs : CreditCore s) (l : List Nat) : CreditCore (currentJams l s) := by
  unfold Machine.currentJams
  split
  · exact hs
  · split
    · exact hs.revFails _ _
    · exact hs

theorem CreditCore.currentAt200 {s : State} (hs : CreditCore s) (n : Nat) : CreditCore (currentAt200 n s) := by
  unfold Machine.currentAt200
  split
  · exact hs
  · split
    · exact hs
    · dsimp only
      split
      · exact hs.revFails _ _
      · exact hs.alters (setRev_alters _ s)

theorem sameFunds_mapVend (f : VendOp → VendOp) (s : State) :
    SameFunds s { s with drive.vend := s.drive.vend.map f } :=
  ⟨rfl, rfl, rfl, rfl, rfl, rfl, by simp, id, rfl⟩

theorem CreditCore.motorStarts {s : State} (hs : CreditCore s) (b : Bool) : CreditCore (motorStarts b s) := by
  have hrow (x : Option Nat) (y : Option Rev) : CreditCore { s with drive.row := x, drive.rev := y } :=
    hs.alters (ps := [.row, .rev]) (by intro p hp; cases p <;> simp_all [Part.same])
  unfold Machine.motorStarts
  split
  · exact hs
  · split
    · dsimp only
      split
      · split
        · exact hrow _ _
        · exact (hrow _ _).alters (modSpiral_alters _ _ _)
      · exact hs.same ⟨rfl, rfl, rfl, rfl, rfl, rfl, by simp, id, rfl⟩
    · exact hs

theorem CreditCore.dropConfirmed {s : State} (hs : CreditCore s) (r : Rev) : CreditCore (dropConfirmed r s) := by
  have hdrop := (hs.alters (setRev_alters (some { r with drop := true }) s)).same
    (sameFunds_mapVend (fun v => if v.told then { v with drop := true } else v) _)
  unfold Machine.dropConfirmed
  dsimp only
  split
  · split
    · exact hdrop.alters (endTest_alters_parts _ _)
    · split
      · exact hdrop.vendSucceeds _
      · exact hdrop
  · exact hdrop

theorem CreditCore.windowEnds {s : State} (hs : CreditCore s) (r : Rev) : CreditCore (windowEnds r s) := by
  unfold Machine.windowEnds
  split
  · exact hs.alters (endTest_alters_parts _ s)
  · split
    next v hv => exact hs.windowPassed (by simp [hv]) r
    · exact hs

theorem CreditCore.watchBeam {s : State} (hs : CreditCore s) (l : List Bool) (b : Bool) :
    CreditCore (watchBeam l b s) := by
  unfold Machine.watchBeam
  split
  · exact hs
  · exact .ite hs (.ite (hs.dropConfirmed _) (.ite (hs.windowEnds _) (hs.alters (setRev_alters _ s))))

theorem CreditCore.holdReachesVend {s : State} (hs : CreditCore s) (z : Nat) : CreditCore (holdReachesVend z s) := by
  unfold Machine.holdReachesVend
  split
  · exact hs
  · split
    · split
      next r _ =>
        have hprobe (p : Nat) : CreditCore (addProbe p (keepSwitch r s)) :=
          (hs.alters (keepSwitch_alters r s)).alters (addProbe_alters p _)
        exact .ite (.ite ((hprobe _).vendSucceeds _) ((hprobe _).vendFails _ _)) (hs.vendFails _ _)
      · exact hs.vendFails _ _
    · exact hs

end Sys2Proof.Machine
end

