-- ==== Sys2Proof/Proofs/ReportedMoney.lean ====
section
/-! A law of the money that the reports of a peripheral keep is kept by every outcome of a transaction, and by a change of
a slot's kind (R136, R141, R148). -/

/- One lemma after another, to keep the memory of a compile small. -/
set_option Elab.async false

namespace Sys2Proof.Machine

/-- The parts of the line, the masks and the events, which no law of the money reads. -/
def quietParts : List Part :=
  [.receiver, .trans, .passQueue, .ring, .slots, .cmdQueue, .lineCounts, .maskRecs, .events, .noteMask, .coinMasks,
   .economy]

/-- A law that reads none of the quiet parts, and that every report of money keeps. -/
structure ReportsKeep (P : State → Prop) : Prop where
  quiet : ∀ {s t}, Alters quietParts s t → P s → P t
  coinTube : ∀ k s, P s → P (coinTube k s)
  takeCoin : ∀ k s, P s → P (takeCoin k s)
  returnLever : ∀ s, P s → P (returnLever s)
  noteEscrow : ∀ n s, P s → P (noteEscrow n s)
  noteStacked : ∀ n s, P s → P (noteStacked n s)
  noteReturned : ∀ n s, P s → P (noteReturned n s)
  expireEscrow : ∀ s, P s → P (expireEscrow s)

section
variable {P : State → Prop} (K : ReportsKeep P)
include K

theorem ReportsKeep.still {ps : List Part} {s t : State} (hs : P s) (h : Alters ps s t)
    (hp : ∀ p ∈ ps, p ∈ quietParts := by decide) : P t := K.quiet (h.mono hp) hs

theorem ReportsKeep.validatorPair (slot code arg : Nat) {s : State} (hs : P s) : P (validatorPair slot code arg s) := by
  unfold Machine.validatorPair
  split_ifs
  · exact K.still (K.coinTube arg s hs) (endEconomy_alters _ _)
  · exact K.still (K.takeCoin arg s hs) (endEconomy_alters _ _)
  · exact K.still hs (raise_alters _ _ _ s)
  · exact K.returnLever s hs
  · exact K.still hs (faultPair_alters slot arg s)
  · exact K.still hs (raise_alters _ _ _ s)

theorem ReportsKeep.readerPair (slot code arg : Nat) {s : State} (hs : P s) : P (readerPair slot code arg s) := by
  unfold Machine.readerPair
  split_ifs
  · exact K.still (K.noteEscrow arg s hs) (endEconomy_alters _ _)
  · exact K.noteStacked arg s hs
  · exact K.noteReturned arg s hs
  · exact K.still hs (raise_alters _ _ _ s)
  · exact K.still hs (faultPair_alters slot arg s)
  · exact K.still hs (raise_alters _ _ _ s)

theorem ReportsKeep.readPoll (slot : Nat) (l : List Byte) {s : State} (hs : P s) : P (readPoll slot l s) := by
  unfold Machine.readPoll
  split
  · exact readPairs_keeps (P := P) (fun c a _ hu => K.validatorPair slot c a hu) l s hs
  · exact readPairs_keeps (P := P) (fun c a _ hu => K.readerPair slot c a hu) l s hs
  · split
    · exact hs
    · exact K.still hs (raisePassReply_alters _ _ _ _ s)
  · exact hs

theorem ReportsKeep.tellSilent (slot : Nat) {s : State} (hs : P s) : P (tellSilent slot s) := by
  unfold Machine.tellSilent
  split
  · exact K.still hs (recomputeMasks_alters s)
  · exact K.still (K.expireEscrow s hs) (recomputeNote_alters _)
  · exact hs

theorem ReportsKeep.slotMissed (slot : Nat) {s : State} (hs : P s) : P (slotMissed slot s) := by
  have hmissed (f : Slot → Slot) : P (modSlot slot f s) := K.still hs (modSlot_alters slot f s)
  unfold Machine.slotMissed
  dsimp only
  split
  · exact K.tellSilent slot (K.still (K.still (hmissed _) (modSlot_alters _ _ _)) (raise_alters _ _ _ _))
  · exact hmissed _

theorem ReportsKeep.handOn (x : Trans) (o : TransEnd) {s : State} (hs : P s) : P (handOn x o s) := by
  unfold Machine.handOn
  split
  · split
    · exact hs
    · exact K.still (K.readPoll _ _ hs) (modSlot_alters _ _ _)
  · exact hs
  · exact hs
  · exact K.still hs (returnFlying_alters _ s)
  · exact K.still hs (returnFlying_alters _ s)
  · exact K.still hs (returnFlying_alters _ s)
  · exact K.still hs (returnPass_alters _ _ _ s)
  · exact K.still hs (returnPass_alters _ _ _ s)
  · exact K.still hs (returnPass_alters _ _ _ s)

theorem ReportsKeep.endTrans (x : Trans) (o : TransEnd) {s : State} (hs : P s) : P (endTrans x o s) := by
  refine endTrans_keeps (P := P) hs (fun b u hu => K.still hu (leaveTrans_alters b u)) (fun o u hu => ?_)
    fun o _ hu => K.handOn x o hu
  cases o with
  | replied l => exact K.still hu (slotReplied_alters x.slot u)
  | missed => exact K.slotMissed x.slot hu
  | badReply => exact K.slotMissed x.slot hu

theorem ReportsKeep.contend (x : Trans) {s : State} (hs : P s) : P (contend x s) :=
  K.still hs (contend_alters_parts x s)

/-- A change of a slot's kind keeps the law when its table record does. -/
theorem ReportsKeep.setSlotKind (hkinds : ∀ s k, P s → P { s with tables.slotKinds := k }) (slot : Nat) (k : SlotKind)
    {s : State} (hs : P s) : P (setSlotKind slot k s) := by
  have hlist (u : State) (l : List Nat) (hu : P u) : P { u with line.list := l } :=
    K.still (ps := [.ring]) hu (by intro p hp; cases p <;> simp_all [Part.same])
  have hunused (u : State) (hu : P u) : P (if k = .unused then
      roundIfDue (dropSlotPasses slot { u with line.list := u.line.list.filter (· != slot) }) else u) := by
    split
    · exact K.still (K.still (hlist u _ hu) (dropSlotPasses_alters slot _)) (roundIfDue_alters _)
    · exact hu
  have hmoved (p : Option Periph) (u : State) (hu : P u) : P (moveMaskRec p u) := K.still hu (moveMaskRec_alters p u)
  have hlost (p : Option Periph) (u : State) (hu : P u) : P (tellKindLost p u) := by
    unfold tellKindLost
    split
    · exact K.still (K.expireEscrow u hu) (recomputeNote_alters _)
    · exact K.still hu (recomputeMasks_alters u)
    · exact hu
  unfold Machine.setSlotKind
  split
  · exact hs
  · dsimp only
    refine K.still (hlost _ _ (hmoved _ _ (hmoved _ _ (K.still (hunused _ ?_) (setTrans_alters _ _)))))
      (tellKindTaken_alters _ _)
    exact K.still (K.still (hkinds s _ hs) (modSlot_alters _ _ _)) (dropSlotCmds_alters _ _ _)

end

/-! ### The credit law through requests -/

theorem CreditCore.reports : ReportsKeep CreditCore where
  quiet h hs := hs.alters h
  coinTube k _ hs := hs.coinTube k
  takeCoin k _ hs := hs.takeCoin k
  returnLever _ hs := hs.returnLever
  noteEscrow n _ hs := hs.noteEscrow n
  noteStacked n _ hs := hs.noteStacked n
  noteReturned n _ hs := hs.noteReturned n
  expireEscrow _ hs := hs.expireEscrow

/-- Tables that allow the money held and value the note in escrow as it was reserved. -/
theorem CreditCore.setTables {s : State} (hs : CreditCore s) {x : Tables} (hceiling : s.heldSum ≤ x.money.ceiling)
    (hreserve : s.credit.escrowReserve = reserveOf { s with tables := x }) : CreditCore { s with tables := x } :=
  hs.moved hceiling hreserve rfl rfl rfl id rfl

/-- Tables with the same money parameters and notes. -/
theorem CreditCore.sameMoney {s : State} (hs : CreditCore s) {x : Tables} (hmoney : x.money = s.tables.money)
    (hnotes : x.notes = s.tables.notes) : CreditCore { s with tables := x } := by
  refine hs.setTables (by rw [hmoney]; exact hs.ceiling) ?_
  have hsame : reserveOf { s with tables := x } = reserveOf s := by simp only [reserveOf, Tables.note, hnotes]
  rw [hsame]
  exact hs.reserve

theorem CreditCore.setSlotKind {s : State} (hs : CreditCore s) (slot : Nat) (k : SlotKind) :
    CreditCore (setSlotKind slot k s) :=
  CreditCore.reports.setSlotKind (fun _ _ h => h.sameMoney rfl rfl) slot k hs

theorem CreditCore.applyTube {s : State} (hs : CreditCore s) (n : Nat) (r : TubeRec) : CreditCore (applyTube n r s) := by
  have hcorrect (u : State) (w : Correction) (old new : Nat) (hu : CreditCore u) :
      CreditCore (raiseCorrected n w old new (rawCount n new u)) :=
    (hu.alters (rawCount_alters n new u)).alters (raiseCorrected_alters n w old new _)
  have hunpaired (u : State) (k : Nat) (hu : CreditCore u) : CreditCore (unpairCoin k n u) := hu.sameMoney rfl rfl
  have hset : CreditCore { s with tables.tubes := updAt s.tables.tubes n fun _ => r } := hs.sameMoney rfl rfl
  unfold Machine.applyTube
  dsimp only
  refine CreditCore.same (CreditCore.same ?_ (sameFunds_rawCond n _ _)) (sameFunds_reconcile n _)
  exact .ite (.ite (hcorrect _ _ _ _ hset) hset) (hcorrect _ _ _ _ (hunpaired _ _ hset))

/-- What has changed besides the tables, from a state that has the new tables. -/
theorem Alters.given_tables {ps : List Part} {s t : State} (h : Alters (.tables :: ps) s t) :
    Alters ps { s with tables := t.tables } t := by
  intro p hp
  by_cases htables : p = .tables
  · subst htables; rfl
  · have hsame := h p (by simp [htables, hp])
    cases p
    case tables => exact absurd rfl htables
    all_goals exact hsame

/-- A selection record changes the selection table alone. -/
theorem applySel_tables_sels (i : Nat) (new : SelLoaded) (s : State) :
    ∃ x, (applySel i new s).1.tables = { s.tables with sels := x } := by
  have htake (l : List Nat) (x : State × Nat) :
      ({ (l.foldl (takeSpiral i) x).1.tables with sels := [] } : Tables) = { x.1.tables with sels := [] } := by
    refine keeps_foldl (P := fun u : State × Nat =>
      ({ u.1.tables with sels := [] } : Tables) = { x.1.tables with sels := [] }) (fun u p hu => ?_) l rfl
    unfold takeSpiral removeFromList
    dsimp only
    split
    · exact hu
    · split
      · exact hu
      · exact hu
  rw [applySel_tables]
  generalize updAt (new.spirals.foldl (takeSpiral i) (s, 0)).1.tables.sels i (fun _ => new) = x
  exact ⟨x, congrArg (fun t : Tables => { t with sels := x }) (htake new.spirals (s, 0))⟩

theorem CreditCore.applySel {s : State} (hs : CreditCore s) (i : Nat) (new : SelLoaded) :
    CreditCore (applySel i new s).1 := by
  obtain ⟨x, hx⟩ := applySel_tables_sels i new s
  have hframe : Alters [.sels, .spirals] _ (Machine.applySel i new s).1 := (applySel_alters i new s).given_tables
  exact (hs.sameMoney (by rw [hx]) (by rw [hx])).alters hframe

end Sys2Proof.Machine
end

