-- ==== Sys2Proof/Proofs/CreditLawSteps.lean ====
section
/-! The credit law through requests, tables, samples, power failures and starts, and so through every step. -/

/- One lemma after another, to keep the memory of a compile small. -/
set_option Elab.async false

namespace Sys2Proof.Machine

/-! ### Requests -/

/-- In normal operation a sale state other than VEND and PAYOUT shows no vend and no payout in flight (R4). -/
theorem CreditLaw.free {s : State} (h : CreditLaw s) (hrun : s.phase = .run)
    (hsale : ¬(s.credit.sale = .vend ∨ s.credit.sale = .payout)) :
    s.credit.inFlight = none ∧ s.change.payout = none := by
  rw [h.sale hrun] at hsale
  unfold saleOf at hsale
  split_ifs at hsale with h1 h2 h3
  · simp at hsale
  · simp at hsale
  · exact ⟨by simpa using h1, by simpa using h2⟩
  · exact ⟨by simpa using h1, by simpa using h2⟩

/-- In IDLE the money held is none (R4). -/
theorem CreditLaw.idle {s : State} (h : CreditLaw s) (hrun : s.phase = .run) (hsale : s.credit.sale = .idle) :
    s.heldSum = 0 := by
  obtain ⟨hfunding, -⟩ := h.free hrun (by simp [hsale])
  have hhold := h.core.no_hold (by simp [hfunding])
  have hof := h.sale hrun
  rw [hsale] at hof
  unfold saleOf at hof
  split_ifs at hof with h1 h2 h3
  simp only [not_or, not_not] at h3
  simp [State.heldSum, h3, hhold]

/-- The operation of a vend begins for a price or an amount taken in the same step (R7, R10, R71). -/
theorem CreditCore.beginVend {s u : State} (hs : CreditCore s) (hfree : s.credit.inFlight = none)
    (hpayout : s.change.payout = none) (hactive : s.active = true) {f : Funding}
    (hu : Alters [.amounts, .inFlight, .sale] s u) (hfunding : u.credit.inFlight = some f)
    (hheld : u.heldSum = s.heldSum) (hhold : u.credit.vendHold ≠ 0 → f = .cash)
    (hreserve : u.credit.escrowReserve = s.credit.escrowReserve) (i : Nat) : CreditCore (beginVend i u) := by
  have htables : u.tables = s.tables := hu .tables (by decide)
  have hescrow : u.credit.escrow = s.credit.escrow := hu .escrow (by decide)
  have hvend : u.drive.vend = none := by
    have hsame : u.drive.vend = s.drive.vend := hu .vendOp (by decide)
    have hlaw := hs.vend
    rw [hfree] at hlaw
    rw [hsame]
    simpa using hlaw.symm
  unfold Machine.beginVend
  split
  next =>
    refine CreditCore.afterVend ?_ u
    unfold Machine.failVend
    rw [hfunding]
    dsimp only
    refine CreditCore.raise ?_ _ _ _
    refine hs.ended ?_ hreserve hescrow htables rfl rfl hvend
    rw [← hheld]
    simp only [State.heldSum]
    omega
  next p j _ =>
    have hbegun (v : VendOp) : CreditCore { u with drive.vend := some v } := by
      have hceiling := hs.ceiling
      refine ⟨by rw [← hheld, ← htables] at hceiling; exact hceiling, ?_, fun h => ?_, ?_, fun _ => ?_, fun h => ?_⟩
      · show u.credit.escrowReserve = reserveOf u
        rw [hreserve, reserveOf_congr hescrow htables]
        exact hs.reserve
      · show u.credit.inFlight = some .cash
        rw [hfunding, hhold h]
      · show u.credit.inFlight.isSome = true
        rw [hfunding]
        rfl
      · exact (hu .payout (by decide)).trans hpayout
      · have hphase : u.phase = s.phase := hu .phase (by decide)
        have hoff : u.active = false := h
        rw [active_congr hphase, hactive] at hoff
        exact absurd hoff (by simp)
    exact .ite (hbegun _) ((hbegun _).alters (request_alters .motor _))

theorem vendRefusal_free {code : Nat} {s : State} (h : vendRefusal code s = none) :
    ¬(s.credit.sale = .vend ∨ s.credit.sale = .payout) := by
  unfold vendRefusal at h
  split at h
  · simp at h
  · assumption

theorem cashRefusal_credit {i : Nat} {s : State} (h : cashRefusal i s = none) :
    (s.tables.sel i).price ≤ s.credit.credit := by
  unfold cashRefusal at h
  dsimp only at h
  split at h
  · simp at h
  · omega

theorem active_of_run {s : State} (h : s.phase = .run) : s.active = true := by simp [State.active, h]

theorem CreditLaw.serveVend {s : State} (hs : CreditLaw s) (hrun : s.phase = .run) (code funding amount : Nat) :
    CreditCore (serveVend code funding amount s).1 := by
  unfold Machine.serveVend
  split
  · unfold serveCash
    split
    · exact hs.core
    next hrefusal =>
      obtain ⟨hfree, hpayout⟩ := hs.free hrun (vendRefusal_free hrefusal)
      split
      · exact hs.core
      next hcash =>
        have hprice := cashRefusal_credit hcash
        have hhold := hs.core.no_hold (by simp [hfree])
        refine hs.core.beginVend hfree hpayout (active_of_run hrun) (f := .cash)
          (u := setSale { s with credit.credit := s.credit.credit - (s.tables.sel (codeIndex code)).price,
                                 credit.vendHold := s.credit.vendHold + (s.tables.sel (codeIndex code)).price,
                                 credit.inFlight := some .cash }) ?_ rfl ?_ (fun _ => rfl) rfl _
        · intro p hp; cases p <;> simp_all [Part.same]
        · simp only [State.heldSum, setSale]
          omega
  · unfold serveExternal
    split
    · exact hs.core
    next hrefusal =>
      obtain ⟨hfree, hpayout⟩ := hs.free hrun (vendRefusal_free hrefusal)
      have hhold := hs.core.no_hold (by simp [hfree])
      refine hs.core.beginVend hfree hpayout (active_of_run hrun) (f := .external amount)
        (u := setSale { s with credit.inFlight := some (.external amount) }) ?_ rfl rfl
        (fun h => absurd hhold h) rfl _
      intro p hp; cases p <;> simp_all [Part.same]
  · exact hs.core

theorem CreditCore.serveReturn {s : State} (hs : CreditCore s) : CreditCore (serveReturn s).1 := by
  unfold Machine.serveReturn
  split
  · exact hs
  · split
    · exact hs
    · exact hs.returnAll
  · exact hs.returnAll
  · exact hs

/-- What holds of the money while a section of a table is loaded (R2, R151). -/
def LoadFunds (table : Nat) (s : State) : Prop :=
  CreditCore s ∧ (table = 0 → s.heldSum = 0) ∧ (table = 3 → s.credit.escrow = none)

theorem LoadFunds.record {table i : Nat} {r : List Byte} {s : State} {x : State × Nat × Nat} (hs : LoadFunds table s)
    (h : recordStep table i r s = .ok x) : LoadFunds table x.1 := by
  obtain ⟨hcore, hmoney, hnotes⟩ := hs
  have hplain {y : Tables} {a b : Nat} (he : Except.ok (ε := ReplyCode) ({ s with tables := y }, a, b) = .ok x)
      (hm : y.money = s.tables.money) (hn : y.notes = s.tables.notes) : CreditCore x.1 := by
    cases he; exact hcore.sameMoney hm hn
  unfold recordStep at h
  split at h
  · refine ⟨?_, fun _ => ?_, fun h3 => absurd h3 (by decide)⟩
    · rw [loadMoney_eq] at h
      cases h
      have htaken : CreditCore (moneyTaken r s) := by
        refine CreditCore.alters ?_ (moneyTaken_alters r s)
        exact hcore.setTables (by rw [hmoney rfl]; exact Nat.zero_le _) hcore.reserve
      exact htaken.recomputeMasks
    · rw [loadMoney_eq] at h
      cases h
      have hframe : Alters (.exact :: .events :: maskParts) { s with tables.money := moneyOf r }
          (recomputeMasks (moneyTaken r s)) := (moneyTaken_alters r s).seq (recomputeMasks_alters _)
      obtain ⟨h1, h2, h3, -⟩ := hframe .amounts (by decide)
      have hzero := hmoney rfl
      simp only [State.heldSum] at hzero ⊢
      rw [h1, h2, h3]
      exact hzero
  · refine ⟨?_, fun h0 => absurd h0 (by decide), fun h3 => absurd h3 (by decide)⟩
    unfold loadCoin at h
    split at h
    · simp at h
    · exact hplain h rfl rfl
  · obtain ⟨t, -, hx⟩ := loadTube_state h
    exact ⟨hx ▸ hcore.applyTube _ t, fun h0 => absurd h0 (by decide), fun h3 => absurd h3 (by decide)⟩
  · refine ⟨?_, fun h0 => absurd h0 (by decide), fun _ => ?_⟩
    · cases h
      refine hcore.setTables hcore.ceiling ?_
      have hreserve := hcore.reserve
      simp only [reserveOf, hnotes rfl] at hreserve ⊢
      exact hreserve
    · cases h
      exact hnotes rfl
  · obtain ⟨new, -, -, -, -, hx⟩ := loadSel_state h
    exact ⟨hx ▸ hcore.applySel _ new, fun h0 => absurd h0 (by decide), fun h3 => absurd h3 (by decide)⟩
  · exact ⟨hplain h rfl rfl, fun h0 => absurd h0 (by decide), fun h3 => absurd h3 (by decide)⟩
  · exact ⟨hplain h rfl rfl, fun h0 => absurd h0 (by decide), fun h3 => absurd h3 (by decide)⟩
  · exact ⟨hplain h rfl rfl, fun h0 => absurd h0 (by decide), fun h3 => absurd h3 (by decide)⟩
  · exact ⟨hplain h rfl rfl, fun h0 => absurd h0 (by decide), fun h3 => absurd h3 (by decide)⟩
  · refine ⟨?_, fun h0 => absurd h0 (by decide), fun h3 => absurd h3 (by decide)⟩
    unfold loadLoads at h
    cases h
    exact (hcore.sameMoney (x := { s.tables with loads := loadTableOf r }) rfl rfl).alters (budgetChanged_alters _)
  · obtain ⟨k, hx⟩ := loadSlot_state h
    exact ⟨hx ▸ hcore.setSlotKind _ k, fun h0 => absurd h0 (by decide), fun h3 => absurd h3 (by decide)⟩
  · exact ⟨hplain h rfl rfl, fun h0 => absurd h0 (by decide), fun h3 => absurd h3 (by decide)⟩
  · exact ⟨hplain h rfl rfl, fun h0 => absurd h0 (by decide), fun h3 => absurd h3 (by decide)⟩
  · simp at h

theorem CreditLaw.serveLoad {s : State} (hs : CreditLaw s) (hrun : s.phase = .run) (table first count : Nat)
    (records : List Byte) : CreditCore (serveLoad table first count records s).1 := by
  unfold Machine.serveLoad loadSection
  split_ifs with _ _ hbusy
  · exact hs.core
  · exact hs.core
  · exact hs.core
  · cases hall : loadAll (recordStep table) first (sectionRecords table count records) 0 0 s with
    | error e => exact hs.core
    | ok x =>
      have hfunds : LoadFunds table s := by
        refine ⟨hs.core, fun h => ?_, fun h => ?_⟩
        · subst h
          exact hs.idle hrun (by simpa [tableBusy] using hbusy)
        · subst h
          simpa [tableBusy] using hbusy
      obtain ⟨hcore, -⟩ := loadAll_keeps (P := LoadFunds table) (fun _ _ _ _ hx hu => hu.record hx) _ _ _ _ _ _ hall hfunds
      exact CreditCore.alters (hcore.alters (afterSection_alters_parts table _)) (tablesChanged_alters _)

/-- Factory Clear finds no money held and no note in escrow (R177). -/
theorem CreditCore.factoryClear {s : State} (hs : CreditCore s) (hheld : s.heldSum = 0) (hescrow : s.credit.escrow = none) :
    CreditCore (factoryClear s) := by
  have hlock : CreditCore (clearAudit (clearLock s)) := (hs.alters (clearLock_alters s)).alters (clearAudit_alters _)
  have hframe : Alters [.code, .lockState, .lockout, .tag, .fill, .events, .audit, .sels] s (clearAudit (clearLock s)) :=
    (clearLock_alters s).seq (clearAudit_alters _)
  have hzero : (clearAudit (clearLock s)).heldSum = 0 := by
    obtain ⟨h1, h2, h3, -⟩ := hframe .amounts (by decide)
    simp only [State.heldSum] at hheld ⊢
    rw [h1, h2, h3]
    exact hheld
  have hnote : (clearAudit (clearLock s)).credit.escrow = none := (hframe .escrow (by decide)).trans hescrow
  have hmoney (u : State) (hu : CreditCore u) (hz : u.heldSum = 0) : CreditCore (defaultMoneyAndCoins u) :=
    hu.setTables (by rw [hz]; exact Nat.zero_le _) hu.reserve
  have htubes (u : State) (hu : CreditCore u) : CreditCore (applyDefaultTubes u) :=
    keeps_foldl (P := CreditCore) (fun u n hu => hu.applyTube n _) _ hu
  have hescrowed (u : State) (he : u.credit.escrow = none) : (applyDefaultTubes u).credit.escrow = none :=
    (applyDefaultTubes_alters u .escrow (by decide)).trans he
  have hplain (u : State) (hu : CreditCore u) (he : u.credit.escrow = none) :
      CreditCore (applyPlainDefaults (applyDefaultSels u)) := by
    have hsels : CreditCore (applyDefaultSels u) :=
      CreditCore.alters (ps := [.sels, .spirals]) (hu.sameMoney (x := { u.tables with sels := defaultSels }) rfl rfl)
        (by intro p hp; cases p <;> simp_all [Part.same, applyDefaultSels, probeAll])
    refine hsels.setTables hsels.ceiling ?_
    have hreserve := hsels.reserve
    have hnone : (applyDefaultSels u).credit.escrow = none := he
    simp only [reserveOf, hnone] at hreserve ⊢
    exact hreserve
  have hloads (u : State) (hu : CreditCore u) : CreditCore (budgetChanged { u with tables.loads := defaultLoads }) :=
    (hu.sameMoney (x := { u.tables with loads := defaultLoads }) rfl rfl).alters (budgetChanged_alters _)
  have hslots (u : State) (hu : CreditCore u) : CreditCore (applyDefaultSlots u) :=
    keeps_foldl (P := CreditCore) (fun u a hu => hu.setSlotKind a _) _ hu
  have hcleared (u : State) (hu : CreditCore u) : CreditCore (clearTubes u) := by
    refine CreditCore.alters (keeps_foldl (P := CreditCore) (fun u n hu => ?_) _ hu) (afterTubes_alters _)
    exact ((hu.alters (rawCount_alters n 0 u)).same (sameFunds_rawCond n .ok _)).same (sameFunds_reconcile n _)
  have hdefaults : CreditCore (restoreDefaults (clearAudit (clearLock s))) :=
    hslots _ (hloads _ (((hplain _ (htubes _ (hmoney _ hlock hzero)) (hescrowed _ hnote)).alters
      (evalExact_alters _)).recomputeMasks))
  exact ((hcleared _ hdefaults).alters (clearHolds_alters _)).alters (clearStore_alters _)

theorem CreditLaw.serveFactoryClear {s : State} (hs : CreditLaw s) (hrun : s.phase = .run) :
    CreditCore (serveFactoryClear s).1 := by
  unfold Machine.serveFactoryClear
  split_ifs with _ _ hbusy
  · exact hs.core
  · exact hs.core
  · exact hs.core
  · simp only [not_or, not_not] at hbusy
    obtain ⟨hsale, hescrow, -⟩ := hbusy
    exact hs.core.factoryClear (hs.idle hrun hsale) (by simpa using hescrow)

theorem CreditCore.applyTo {x : State × Nat × Nat} (hx : CreditCore x.1) (a : Action) (i : Nat) :
    CreditCore (applyTo a x i).1 := by
  have hrefill (l : List Nat) (u : State) (hu : CreditCore u) : CreditCore (l.foldl (fun s p => refill p s) u) :=
    keeps_foldl (P := CreditCore) (fun u p hu => hu.alters (modSpiral_alters p _ u)) l hu
  unfold Machine.applyTo
  cases a with
  | setPrice price => exact hx.sameMoney rfl rfl
  | inhibit => exact hx.alters (modSel_alters i _ _)
  | enable =>
    dsimp only
    split
    · exact hx
    · exact hx.alters (modSel_alters i _ _)
  | restock =>
    dsimp only
    split
    · exact hx
    · exact (hrefill _ _ hx).alters (modSel_alters i _ _)

theorem CreditCore.serveApply {s : State} (hs : CreditCore s) (code price : Nat) :
    CreditCore (serveApply code price s).1 := by
  obtain ⟨a, l, u, hu, happly⟩ := serveApply_cases code price s
  have happlied : CreditCore u :=
    (keeps_foldl (P := fun x : State × Nat × Nat => CreditCore x.1) (fun _ i hx => hx.applyTo a i) l hs :
      CreditCore (l.foldl (Machine.applyTo a) (s, 0, 0)).1).alters hu
  rcases happly with happly | happly
  · exact (congrArg CreditCore happly).mpr happlied
  · exact (congrArg CreditCore happly).mpr (happlied.alters (tablesChanged_alters u))

theorem CreditLaw.serveDrain {s : State} (hs : CreditLaw s) (hrun : s.phase = .run) (n k : Nat) :
    CreditCore (serveDrain n k s).1 := by
  unfold Machine.serveDrain
  split_ifs with _ _ hbusy
  · exact hs.core
  · exact hs.core
  · exact hs.core
  · obtain ⟨hfree, -⟩ := hs.free hrun (by simp_all)
    refine CreditCore.alters (CreditCore.alters ?_ (request_alters .payout _)) (setSale_alters _)
    have hcore := hs.core
    exact ⟨hcore.ceiling, hcore.reserve, hcore.hold, hcore.vend, fun hv => by simp [hfree] at hv, hcore.quiet⟩

theorem CreditCore.serveSettle {s : State} (hs : CreditCore s) : CreditCore (serveSettle s).1 := by
  unfold Machine.serveSettle
  split
  · exact CreditCore.setSale (CreditCore.alters (ps := [.audit, .shortWait])
      (hs.lessCredit (c := s.credit.credit) (d := 0) le_rfl) (by intro p hp; cases p <;> simp_all [Part.same]))
  · exact hs

/-- The parts the credit law reads. -/
def creditParts : List Part := .sale :: fundsParts

theorem CreditLaw.serveOwner {s : State} (hs : CreditLaw s) (hrun : s.phase = .run) (r : Request)
    (h : ¬Apart creditParts r.parts) : CreditCore (serveOwner r s).1 := by
  cases r
  case vend c f a => exact hs.serveVend hrun c f a
  case returnCredit => exact hs.core.serveReturn
  case load table first count records => exact hs.serveLoad hrun table first count records
  case factoryClear => exact hs.serveFactoryClear hrun
  case apply code price => exact hs.core.serveApply code price
  case drain n k => exact hs.serveDrain hrun n k
  case settle => exact hs.core.serveSettle
  case clearTubeFault n =>
    show CreditCore (serveClearTube n s).1
    unfold serveClearTube
    split
    · exact hs.core
    · exact hs.core.clearFault n
  all_goals exact absurd ((apart_iff _ _).1 rfl) h

/-! ### Samples, power failures and starts -/

/-- What a sample changes besides a vend that its hold ends. -/
def sampleOnlyParts : List Part := [.sensors, .zones, .compressor, .defrost, .damper, .grants, .events]

/-- A law that a sample's own parts do not matter to is kept when the hold that reaches a vend keeps it (R66, R91). -/
theorem takeSample_keeps {P : State → Prop} (hquiet : ∀ {s t}, Alters sampleOnlyParts s t → P s → P t)
    (hhold : ∀ z s, P s → P (holdReachesVend z s)) (k c : Nat) {s : State} (hs : P s) : P (takeSample k c s) := by
  have hzone (z : Nat) (f : ZoneState → ZoneState) {u : State} (hu : P u) : P (modZone z f u) :=
    hquiet ((modZone_alters z f u).mono) hu
  have htick (z : Nat) {u : State} (hu : P u) : P (holdTick z u) := by
    unfold holdTick
    dsimp only
    split_ifs
    · exact hu
    · exact hhold z _ (hquiet ((raise_alters _ _ _ _).mono) (hzone z _ hu))
    · exact hzone z _ hu
    · exact hzone z _ hu
  have hzoneSteps (z c : Nat) (b : Bool) {u : State} (hu : P u) : P (zoneSteps z c b u) := by
    have hheat : P (if (u.sensor z).faulted then u else thermostat z u) := by
      split
      · exact hu
      · exact hquiet ((thermostat_alters z u).mono) hu
    unfold zoneSteps
    dsimp only
    refine htick z ?_
    split
    · exact hquiet ((startCheck_alters z c _).mono) hheat
    · exact hheat
  have hheater : P (if k = 2 then heaterTick s else s) := by
    split
    · exact hquiet ((heaterTick_alters s).mono) hs
    · exact hs
  have htaken {u : State} (hu : P u) : P (if goodSample c then goodTaken k c u else badTaken k c u) := by
    split
    · exact hquiet ((goodTaken_alters k c u).mono) hu
    · exact hquiet ((badTaken_alters k c u).mono) hu
  unfold takeSample
  dsimp only
  generalize (if k = 2 then heaterTick s else s) = u at hheater ⊢
  have hraw : P (modSensor k (fun r => { r with raw := c, sampled := true }) u) :=
    hquiet ((modSensor_alters k _ u).mono) hheater
  split
  · exact hquiet ((intervalTick_alters _).mono) (hquiet ((defrostTests_alters _).mono) (htaken hraw))
  · exact hzoneSteps k c _ (htaken hraw)

/-- After steps 1 and 2 of the power-fail sequence no vend is in flight and no note in escrow (R121). -/
theorem CreditCore.stopAll {s t : State} (hs : CreditCore s) (hcredit : t.credit = (stopAll s).credit)
    (htables : t.tables = s.tables) (hdrive : t.drive = (stopAll s).drive) : CreditCore t := by
  have hoff : CreditCore (outputsOff s) := hs.same ⟨rfl, rfl, rfl, rfl, rfl, rfl, rfl, id, rfl⟩
  have hstopped : (Machine.stopAll s).credit.inFlight = none ∧ (Machine.stopAll s).credit.vendHold = 0 ∧
      (Machine.stopAll s).credit.escrowReserve = 0 ∧ (Machine.stopAll s).credit.escrow = none ∧
      (Machine.stopAll s).heldSum ≤ s.heldSum ∧ (Machine.stopAll s).drive.vend = none := by
    have hhold := hoff.no_hold
    have hvend := hoff.vend
    unfold Machine.stopAll endOperations interruptVend
    dsimp only
    split
    next hnone =>
      have hfree : s.credit.inFlight = none := by
        have : s.credit.inFlight.isSome = s.drive.vend.isSome := hvend
        rw [show s.drive.vend = none from hnone] at this
        simpa using this
      have hzero : s.credit.vendHold = 0 := hhold (by simpa [outputsOff] using hfree.symm ▸ (by simp))
      exact ⟨hfree, hzero, rfl, rfl, by simp only [State.heldSum, Machine.setSale, outputsOff]; omega, rfl⟩
    next v hv =>
      unfold Machine.failVend
      split
      next hfree =>
        have hzero : s.credit.vendHold = 0 := hhold (by
          have : s.credit.inFlight = none := hfree
          simp [outputsOff, this])
        exact ⟨hfree, hzero, rfl, rfl, by simp only [State.heldSum, Machine.setSale, outputsOff]; omega, rfl⟩
      next =>
        exact ⟨rfl, rfl, rfl, rfl, by
          simp only [State.heldSum, Machine.setSale, Machine.raise, outputsOff]; omega, rfl⟩
  obtain ⟨hfree, hhold, hreserve, hescrow, hheld, hvend⟩ := hstopped
  have hceiling := hs.ceiling
  refine ⟨?_, ?_, fun h => ?_, ?_, fun h => ?_, fun _ => ?_⟩
  · rw [htables]
    refine le_trans ?_ hceiling
    simp only [State.heldSum, hcredit] at hheld ⊢
    exact hheld
  · simp only [reserveOf, hcredit, hescrow, hreserve]
  · exact absurd (hcredit ▸ hhold) h
  · rw [hcredit, hfree, hdrive, hvend]
    rfl
  · rw [hcredit, hfree] at h
    simp at h
  · rw [hcredit, hfree]

theorem powerFail_credit (w : Bool) (s : State) : (powerFail w s).credit = (stopAll s).credit ∧
    (powerFail w s).drive = (stopAll s).drive := by
  unfold powerFail
  dsimp only
  split
  · exact ⟨rfl, rfl⟩
  · exact ⟨rfl, rfl⟩

theorem CreditCore.powerFail {s : State} (hs : CreditCore s) (w : Bool) (x : Supply) :
    CreditCore (powerFail w { s with supply := x }) := by
  have hset : CreditCore { s with supply := x } := hs.alters (setSupply_alters x s)
  obtain ⟨hcredit, hdrive⟩ := powerFail_credit w { s with supply := x }
  exact hset.stopAll hcredit (powerFail_alters w _ .tables (by decide)) hdrive

/-- A start holds what fits the ceiling, in a record with nothing in flight (R27). -/
theorem creditCore_beginStart (c : Cause) (s : State) : CreditCore (beginStart c s) := by
  have hstart (img : Option Retained) : (startCredit img).vendHold = 0 ∧ (startCredit img).escrowReserve = 0 ∧
      (startCredit img).escrow = none ∧ (startCredit img).inFlight = none := by
    unfold startCredit
    split
    · exact ⟨rfl, rfl, rfl, rfl⟩
    · exact ⟨rfl, rfl, rfl, rfl⟩
  obtain ⟨hhold, hreserve, hescrow, hfree⟩ := hstart (latest s.store.retainedA s.store.retainedB)
  have hceiling (u : State) (hh : u.credit.vendHold = 0) (hr : u.credit.escrowReserve = 0)
      (he : u.credit.escrow = none) (hf : u.credit.inFlight = none) (hv : u.drive.vend = none) :
      CreditCore (holdToCeiling u) := by
    have hlowered (d : Nat) (hd : u.credit.credit - d ≤ u.tables.money.ceiling) :
        CreditCore { u with credit.credit := u.credit.credit - d } :=
      ⟨by simp only [State.heldSum, hh, hr]; omega, by simp only [reserveOf, he, hr], fun h => absurd hh h,
        by simp only [hf, hv]; rfl, fun h => by simp [hf] at h, fun _ => hf⟩
    unfold holdToCeiling
    dsimp only
    split
    next h => exact hlowered 0 (by omega)
    next h => exact (hlowered _ (by omega)).same (sameFunds_addReturnDue _ _)
  exact CreditCore.setSale (hceiling _ hhold hreserve hescrow hfree rfl)

theorem creditLaw_reads : Reads creditParts CreditLaw := by
  intro s t h hs
  have hfunds : SameFunds s t := by
    obtain ⟨hcredit, hhold, hreserve, -⟩ := h .amounts (by decide)
    have hvend : t.drive.vend = s.drive.vend := h .vendOp (by decide)
    have hpayout : t.change.payout = s.change.payout := h .payout (by decide)
    exact ⟨hcredit, hhold, hreserve, h .escrow (by decide), h .inFlight (by decide), h .tables (by decide),
      by rw [hvend], fun hs => hpayout.trans hs, h .phase (by decide)⟩
  refine (hs.core.same hfunds).law fun hrun => ?_
  have hsale : t.credit.sale = s.credit.sale := h .sale (by decide)
  have hphase : t.phase = s.phase := h .phase (by decide)
  obtain ⟨hcredit, -, hreserve, hdue⟩ := h .amounts (by decide)
  have hpayout : t.change.payout = s.change.payout := h .payout (by decide)
  rw [hsale, hs.sale (hphase ▸ hrun)]
  simp only [saleOf, hfunds.funding, hpayout, hcredit, hdue, hreserve]

theorem creditCore_reads : Reads creditParts CreditCore := by
  intro s t h hs
  obtain ⟨hcredit, hhold, hreserve, -⟩ := h .amounts (by decide)
  have hvend : t.drive.vend = s.drive.vend := h .vendOp (by decide)
  have hpayout : t.change.payout = s.change.payout := h .payout (by decide)
  exact hs.same ⟨hcredit, hhold, hreserve, h .escrow (by decide), h .inFlight (by decide), h .tables (by decide),
    by rw [hvend], fun hs => hpayout.trans hs, h .phase (by decide)⟩

/-- The core of the credit law reads the phase only for whether the part is active. -/
theorem CreditCore.setPhase {s : State} (hs : CreditCore s) {x : Phase}
    (h : ({ s with phase := x } : State).active = false → s.active = false) : CreditCore { s with phase := x } :=
  ⟨hs.ceiling, hs.reserve, hs.hold, hs.vend, hs.payout, fun hx => hs.quiet (h hx)⟩

theorem CreditCore.atSampling {s : State} (hs : CreditCore s) (x : Option Nat) (c : Cause) :
    CreditCore { s with cold.offTimer := x, cold.state := .lockedOff, phase := .sampling c } :=
  ⟨hs.ceiling, hs.reserve, hs.hold, hs.vend, hs.payout, fun h => by simp [State.active] at h⟩

theorem CreditCore.atRun {s : State} (hs : CreditCore s) (x : Line) (e : Events) :
    CreditCore { s with phase := .run, line := x, events := e } :=
  ⟨hs.ceiling, hs.reserve, hs.hold, hs.vend, hs.payout, fun h => by simp [State.active] at h⟩

theorem creditCore_reset : CreditCore State.reset :=
  ⟨by decide, rfl, fun h => absurd rfl h, rfl, fun h => absurd h (by decide), fun _ => rfl⟩

theorem creditLaw_kept : Kept creditParts CreditLaw CreditCore where
  before := creditLaw_reads
  within := creditCore_reads
  enter _ h := h.core
  leave _ h hsale := h.law hsale
  setSale _ _ h := h.setSale
  payoutTest _ _ _ h := h.payoutTest
  serveOwner r hr _ hrun h := h.serveOwner hrun r hr
  endTrans x o _ _ _ h := CreditCore.reports.endTrans x o h.core
  levelRead n full c _ s _ h := h.same (sameFunds_levelRead n full s c)
  payoutGiven _ _ _ h := h.core.payoutGiven
  pulseEnds _ s _ h := h.core.same (.mapPayout _ s)
  coinAtExit _ s _ h := h.core.same (sameFunds_coinAtExit s)
  windowCloses _ _ _ h := h.core.windowCloses
  expireEscrow _ _ _ h := h.core.expireEscrow
  probeDone b _ s _ h := h.core.alters (probeDone_alters_parts b s)
  motorGiven _ _ _ h := h.core.motorGiven
  motorStarts b _ _ _ h := h.core.motorStarts b
  switchCloses l n _ _ _ h := h.core.switchCloses l n
  leaveLimitPasses _ _ _ h := h.core.leaveLimitPasses
  revLimitPasses _ _ _ h := h.core.revLimitPasses
  currentJams l _ _ _ h := h.core.currentJams l
  currentAt200 n _ _ _ h := h.core.currentAt200 n
  watchBeam l b _ _ _ h := h.core.watchBeam l b
  takeSample k c _ _ _ h := takeSample_keeps (P := CreditCore)
    (fun ha hu => hu.alters ha) (fun z _ hu => hu.holdReachesVend z) k c h.core
  powerFail w _ x h := h.powerFail w x
  failFast s x h := (h.alters (setSupply_alters x s)).stopAll rfl
    (stopAll_alters { s with supply := x } .tables (by decide)) rfl
  stillSaving _ w w' s hphase h := h.setPhase fun _ => by simp [State.active, hphase]
  saved _ w s hphase h := h.setPhase fun _ => by simp [State.active, hphase]
  beginStart c s _ := creditCore_beginStart c s
  powerUp s _ := creditCore_reset.same ⟨rfl, rfl, rfl, rfl, rfl, rfl, rfl, id, rfl⟩
  probing _ c s hphase h := h.setPhase fun hx => by simp [State.active] at hx
  sampling _ c s _ h := by
    have hall : SameFunds s (reconcileAll s) :=
      (SameFunds.foldl (fun u n => sameFunds_reconcile n u) (List.range 6) s).trans (.frame (evalExactSilent_alters _))
    exact (h.same hall).atSampling _ c
  resetting _ c s hphase h := h.setPhase fun hx => by simp [State.active] at hx
  complete _ c s _ h := (h.atRun _ _).raise _ _ _

/-- Settles O10: money is credited within the headroom alone, an escrow record goes with its reserve, a vend's record with
its funding and price, and a payout begins only where no vend is in flight. -/
theorem heldMoneyStaysWithinCeiling : Obligations.HeldMoneyStaysWithinCeiling := fun _ _ hs h => creditLaw_kept.step hs h

end Sys2Proof.Machine
end

