-- ==== Sys2Proof/Proofs/BalanceLaw.lean ====
section
/-! The audit balance through every step (R24, R27, R122): money that comes in is credited, owed or written off, and money
that goes out lowers what is owed. -/

/- One lemma after another, to keep the memory of a compile small. -/
set_option Elab.async false

namespace Sys2Proof.Machine

/-! ### What an addition to the money owed leaves (R15) -/

theorem addReturnDue_credit (a : Nat) (s : State) : (addReturnDue a s).credit =
    { s.credit with returnDue := s.credit.returnDue + returnFits s.credit.returnDue a } := by
  unfold addReturnDue markReplan
  dsimp only
  split_ifs <;> rfl

theorem addReturnDue_audit (a : Nat) (s : State) : (addReturnDue a s).audit =
    if returnFits s.credit.returnDue a = a then s.audit
    else { s.audit with writtenOff := addTotal s.audit.writtenOff (a - returnFits s.credit.returnDue a) } := by
  unfold addReturnDue markReplan
  dsimp only
  split_ifs <;> rfl

/-! ### The balance of the record in use -/

/-- The balance with `k` more still to be credited or owed. -/
def Outstanding (k : Nat) (s : State) : Prop :=
  balanced (s.credit.credit + k) s.credit.vendHold s.credit.returnDue s.audit

/-- The balance of the record in use (R24). -/
def Balanced (s : State) : Prop := Outstanding 0 s

theorem Outstanding.congr {k : Nat} {s t : State} (hs : Outstanding k s) (hcredit : t.credit.credit = s.credit.credit)
    (hhold : t.credit.vendHold = s.credit.vendHold) (hdue : t.credit.returnDue = s.credit.returnDue)
    (haudit : t.audit = s.audit) : Outstanding k t := by
  unfold Outstanding
  rw [hcredit, hhold, hdue, haudit]
  exact hs

theorem Outstanding.alters {k : Nat} {ps : List Part} {s t : State} (hs : Outstanding k s) (h : Alters ps s t)
    (hp : Apart [.amounts, .audit] ps := by exact (apart_iff _ _).1 rfl) : Outstanding k t := by
  obtain ⟨hcredit, hhold, -, hdue⟩ := h .amounts (hp _ (by decide))
  exact hs.congr hcredit hhold hdue (h .audit (hp _ (by decide)))

theorem Balanced.alters {ps : List Part} {s t : State} (hs : Balanced s) (h : Alters ps s t)
    (hp : Apart [.amounts, .audit] ps := by exact (apart_iff _ _).1 rfl) : Balanced t := Outstanding.alters hs h hp

theorem balanced_addReturnDue {a : Nat} {s : State} (hs : Outstanding a s) : Balanced (addReturnDue a s) := by
  have hfits := returnFits_le s.credit.returnDue a
  unfold Balanced Outstanding balanced Audit.someFull at *
  rw [addReturnDue_credit, addReturnDue_audit]
  generalize returnFits s.credit.returnDue a = f at *
  split_ifs with h
  · subst h
    simpa only [Nat.add_zero, Nat.add_assoc, Nat.add_comm, Nat.add_left_comm] using hs
  · simp only [addTotal, satAdd, Config.maxTotal] at *
    omega

theorem Balanced.creditToReturn {s : State} (hs : Balanced s) : Balanced (creditToReturn s) := by
  refine balanced_addReturnDue ?_
  unfold Outstanding
  rwa [Nat.zero_add]

theorem Balanced.returnAll {s : State} (hs : Balanced s) : Balanced (returnAll s) :=
  (((hs.creditToReturn.alters (shortWait_alters false _)).alters (setSale_alters _)).alters
    (payoutTest_alters _)).alters (masksIfHeld_alters s _)

theorem Balanced.returnLever {s : State} (hs : Balanced s) : Balanced (returnLever s) := by
  unfold Machine.returnLever
  split
  · exact hs
  · split
    · exact hs
    · exact hs.returnAll
  · exact hs.returnAll
  · exact hs.alters (ps := [.pendingReturn]) (by intro p hp; cases p <;> simp_all [Part.same])

theorem Balanced.creditMoney {s : State} (hs : Balanced s) (k : EventKind) (x v : Nat) :
    Balanced (creditMoney k x v s) := by
  have hcredited : Outstanding (v - s.headroom) { s with
      credit.credit := s.credit.credit + min v s.headroom, audit.cashIn := addTotal s.audit.cashIn v } := by
    unfold Balanced Outstanding balanced Audit.someFull at *
    simp only [addTotal, satAdd, Config.maxTotal] at *
    omega
  have hraised := hcredited.alters (raise_alters k (some x) (val v) _)
  unfold Machine.creditMoney
  dsimp only
  refine Balanced.alters (Balanced.alters (Balanced.alters ?_ (setSale_alters _)) (payoutTest_alters _))
    (recomputeMasks_alters _)
  split
  next h =>
    rw [Nat.sub_eq_zero_of_le h] at hraised
    exact hraised
  next => exact (balanced_addReturnDue hraised).alters (raise_alters _ _ _ _)

theorem Balanced.removeEscrow {s : State} (hs : Balanced s) : Balanced (removeEscrow s) := hs

theorem Balanced.expireEscrow {s : State} (hs : Balanced s) : Balanced (expireEscrow s) := by
  unfold Machine.expireEscrow
  split
  · exact hs
  · exact ((hs.removeEscrow.alters (raise_alters _ _ _ _)).alters (setSale_alters _)).alters (recomputeMasks_alters _)

theorem Balanced.noteEscrow {s : State} (hs : Balanced s) (n : Nat) : Balanced (noteEscrow n s) := by
  unfold Machine.noteEscrow
  split
  · exact hs.alters (placeEscrow_alters _ _ _ s)
  · split
    · refine Balanced.alters (Balanced.alters (Balanced.alters ?_ (setSale_alters _)) (placeEscrow_alters _ _ _ _))
        (recomputeMasks_alters _)
      exact hs
    · refine Balanced.alters ?_ (placeEscrow_alters _ _ _ _)
      exact hs

/-- A note decided STACK is credited from its reserve, which is its value (R17, R20). -/
theorem Balanced.noteStacked {s : State} (hs : Balanced s) (hcore : CreditCore s) (n : Nat) :
    Balanced (noteStacked n s) := by
  have hreserve := hcore.reserve
  unfold Machine.noteStacked
  dsimp only
  split
  next e hescrow =>
    split
    next htype =>
      split
      next hdecision =>
        refine Balanced.alters (Balanced.alters (Balanced.alters ?_ (raise_alters _ _ _ _)) (setSale_alters _))
          (recomputeMasks_alters _)
        simp only [reserveOf, hescrow, hdecision, htype] at hreserve
        refine Balanced.removeEscrow ?_
        unfold Balanced Outstanding balanced Audit.someFull at *
        simp only [addTotal, satAdd, Config.maxTotal] at *
        omega
      · exact hs.removeEscrow.creditMoney _ _ _
    · exact hs.creditMoney _ _ _
  · exact hs.creditMoney _ _ _

theorem Balanced.noteReturned {s : State} (hs : Balanced s) (n : Nat) : Balanced (noteReturned n s) := by
  unfold Machine.noteReturned
  split
  · split
    · have hraised := hs.removeEscrow.alters (raise_alters .noteReturned (some n) (val (s.tables.note n).value) _)
      dsimp only
      split
      · exact (hraised.alters (setSale_alters _)).alters (recomputeMasks_alters _)
      · exact hraised
    · exact hs
  · exact hs

theorem Balanced.takeCoin {s : State} (hs : Balanced s) (k : Nat) : Balanced (takeCoin k s) := by
  unfold Machine.takeCoin
  dsimp only
  split
  · refine Balanced.alters (Balanced.alters ?_ (raise_alters _ _ _ _)) (recomputeMasks_alters _)
    unfold Balanced Outstanding balanced Audit.someFull at *
    simp only [addTotal, satAdd, Config.maxTotal] at *
    omega
  · exact hs.creditMoney _ _ _

theorem Balanced.coinTube {s : State} (hs : Balanced s) (k : Nat) : Balanced (coinTube k s) := by
  unfold Machine.coinTube
  split
  · exact hs.takeCoin k
  · exact ((hs.alters (coinIntoTube_alters _ s)).alters (evalExactIf_alters s _)).takeCoin k

theorem Balanced.payoutShort {s : State} (hs : Balanced s) : Balanced (payoutShort s) := by
  have hmoved (m : Nat) (hm : m ≤ s.credit.returnDue) : Balanced { s with
      credit.returnDue := s.credit.returnDue - m, credit.credit := s.credit.credit + m } := by
    unfold Balanced Outstanding balanced at *
    dsimp only
    refine hs.imp_right fun h => ?_
    omega
  exact (((((hmoved _ (Nat.min_le_left _ _)).alters (raise_alters _ _ _ _)).alters (shortWait_alters true _)).alters
    (endPayout_alters _))).alters (masksIfHeld_alters s _)

theorem Balanced.pulseOrShort {s : State} (hs : Balanced s) : Balanced (pulseOrShort s) := by
  unfold Machine.pulseOrShort
  split
  · exact hs.alters (pulse_alters _ s)
  · exact hs.payoutShort

theorem Balanced.nextReturn {s : State} (hs : Balanced s) : Balanced (nextReturn s) := by
  unfold Machine.nextReturn
  split
  · exact hs
  · split
    · exact hs.alters (payoutDone_alters s)
    · split
      · exact hs.alters (pulse_alters _ s)
      · split
        · exact hs.alters (pulse_alters _ s)
        · exact (hs.alters (replan_alters s)).pulseOrShort

theorem nextDrain_alters_parts (n l c : Nat) (v : Verdict) (s : State) :
    Alters [.sale, .payout, .grants, .events] s (nextDrain n l c v s) :=
  .ite (drainDone_alters _ _ _ s) (.ite (drainDone_alters _ _ _ s) (.ite (drainDone_alters _ _ _ s)
    (pulse_alters n s).mono))

theorem Balanced.afterWindow {s : State} (hs : Balanced s) (v : Verdict) : Balanced (afterWindow v s) := by
  unfold Machine.afterWindow
  split
  · exact hs
  · split
    · exact hs.nextReturn
    · exact hs.alters (nextDrain_alters_parts _ _ _ _ s)

theorem miss_alters_parts (n : Nat) (b : Bool) (s : State) : Alters
    [.tubes, .shortWait, .payout, .events, .exact, .coinMasks, .noteMask, .cmdQueue, .lineCounts, .maskRecs] s
    (miss n b s).1 := by
  unfold miss
  split
  · exact (decideTube_alters n s).seq (afterTubesIf_alters s _)
  · exact (mapPayout_alters _ s).mono

theorem Balanced.windowCloses {s : State} (hs : Balanced s) : Balanced (windowCloses s) := by
  unfold Machine.windowCloses
  split
  · exact hs
  · split
    · exact hs
    · refine Balanced.afterWindow (Balanced.alters ?_ (replanIfMarked_alters _)) _
      split
      · exact Balanced.alters (hs.alters (setPayout_alters _ s)) (miss_alters_parts _ _ _)
      · exact hs.alters (setPayout_alters _ s)

theorem Balanced.payoutGiven {s : State} (hs : Balanced s) : Balanced (payoutGiven s) := by
  unfold Machine.payoutGiven
  split
  · exact hs
  · split
    · exact hs
    · dsimp only
      split
      · exact ((hs.alters (setPayout_alters _ s)).alters (replan_alters _)).pulseOrShort
      · exact (hs.alters (setPayout_alters _ s)).alters (pulse_alters _ _)

theorem Balanced.countPaid {s : State} (hs : Balanced s) (k : PayoutKind) (v : Nat) : Balanced (countPaid k v s) := by
  unfold Machine.countPaid
  unfold Balanced Outstanding balanced Audit.someFull at *
  split
  · simp only [addTotal, satAdd, Config.maxTotal] at *
    omega
  · simp only [addTotal, satAdd, Config.maxTotal] at *
    omega

theorem Balanced.coinAtExit {s : State} (hs : Balanced s) : Balanced (coinAtExit s) := by
  have hcounted (n k v : Nat) (f : Payout → Payout) (x : PayoutKind) : Balanced (setSale (Machine.countPaid x v
      { reconcile n (rawCount n k s) with change.payout := (reconcile n (rawCount n k s)).change.payout.map f })) :=
    ((((hs.alters (rawCount_alters n k s)).alters (reconcile_alters n _)).alters
      (mapPayout_alters f _)).countPaid x v).alters (setSale_alters _)
  unfold Machine.coinAtExit
  split
  · exact hs
  · split
    · exact hs
    · dsimp only
      split
      · exact (hcounted _ _ _ _ _).alters (afterTubesIf_alters s _)
      · exact (hcounted _ _ _ _ _).alters (afterTubes_alters _)

theorem Balanced.commitVend {s : State} (hs : Balanced s) (i : Nat) : Balanced (commitVend i s) := by
  have hpaid : Balanced { countSale i { s with audit.cashSales := addTotal s.audit.cashSales s.credit.vendHold } with
      credit.vendHold := 0, credit.inFlight := none } := by
    unfold Balanced Outstanding balanced Audit.someFull at *
    simp only [countSale, modSel, addTotal, satAdd, Config.maxTotal] at *
    omega
  unfold Machine.commitVend
  split
  · exact hs
  · dsimp only
    refine Balanced.alters ?_ (raise_alters _ _ _ _)
    split
    · exact hpaid.creditToReturn
    · exact hpaid
  · refine Balanced.alters ?_ (raise_alters _ _ _ _)
    unfold Balanced Outstanding balanced Audit.someFull at *
    simp only [countSale, modSel, addTotal, satAdd, Config.maxTotal] at *
    omega

theorem Balanced.failVend {s : State} (hs : Balanced s) (i : Nat) (w : VendFailure) : Balanced (failVend i w s) := by
  unfold Machine.failVend
  split
  · exact hs
  · refine Balanced.alters ?_ (raise_alters _ _ _ _)
    unfold Balanced Outstanding balanced at *
    dsimp only
    refine hs.imp_right fun h => ?_
    omega

theorem Balanced.afterVend {s : State} (hs : Balanced s) (o : State) : Balanced (afterVend o s) := by
  have hmark : Balanced { s with credit.pendingReturn := false } := hs
  unfold Machine.afterVend
  dsimp only
  refine Balanced.alters (Balanced.alters (Balanced.alters ?_ (setSale_alters _)) (payoutTest_alters _))
    (masksIfHeld_alters o _)
  split
  · exact hmark.creditToReturn.alters (shortWait_alters false _)
  · exact hs

theorem Balanced.vendSucceeds {s : State} (hs : Balanced s) (v : VendOp) : Balanced (vendSucceeds v s) :=
  Balanced.afterVend (((hs.alters (leaveVend_alters s)).alters (advancePointer_alters _ _ _)).commitVend _) s

theorem Balanced.vendFails {s : State} (hs : Balanced s) (v : VendOp) (w : VendFailure) :
    Balanced (vendFails v w s) := Balanced.afterVend ((hs.alters (leaveVend_alters s)).failVend _ w) s

end Sys2Proof.Machine
end

