-- ==== Sys2Proof/Proofs/BalanceLawSteps.lean ====
section
/-! The audit balance through vends, requests, samples, power failures and starts, and so through every step (R24, R122). -/

/- One lemma after another, to keep the memory of a compile small. -/
set_option Elab.async false

namespace Sys2Proof.Machine

/-! ### The Spiral Drive: a vend sells or gives its price back -/

theorem Balanced.ite {c : Prop} [Decidable c] {t u : State} (ht : Balanced t) (hu : Balanced u) :
    Balanced (if c then t else u) := by
  split
  · exact ht
  · exact hu

theorem Balanced.raise {s : State} (hs : Balanced s) (k : EventKind) (x : Option Nat) (v : Option Word32) :
    Balanced (raise k x v s) := hs.alters (raise_alters k x v s)

/-- The balance reads none of the drive. -/
theorem Balanced.setDrive {s : State} (hs : Balanced s) (d : Drive) : Balanced { s with drive := d } := hs

theorem Balanced.vendGiven {s : State} (hs : Balanced s) (v : VendOp) : Balanced (vendGiven v s) := by
  unfold Machine.vendGiven
  split
  · exact hs.alters (turnSpiral_alters _ _ _ s)
  · split
    · exact hs.alters (turnSpiral_alters _ _ _ s)
    · exact hs.vendFails _ _

theorem Balanced.motorGiven {s : State} (hs : Balanced s) : Balanced (motorGiven s) := by
  unfold Machine.motorGiven
  split
  · exact hs
  · split
    · exact .ite hs (hs.alters (serviceGiven_alters_parts _ s))
    · split
      · exact .ite hs (hs.vendGiven _)
      · exact hs

theorem Balanced.moveOn {s : State} (hs : Balanced s) (v : VendOp) (b : Bool) : Balanced (moveOn v b s) := by
  have htried := hs.setDrive { s.drive with vend := some { v with tried := true }, rev := none }
  unfold Machine.moveOn
  dsimp only
  split
  · exact Balanced.vendFails ((htried.alters (modSel_alters _ _ _)).raise _ _ _) _ _
  · split
    · exact htried.alters (turnSpiral_alters _ _ _ _)
    · exact htried.vendFails _ _

theorem Balanced.windowPassed {s : State} (hs : Balanced s) (v : VendOp) (r : Rev) : Balanced (windowPassed v r s) := by
  unfold Machine.windowPassed
  split
  · exact hs.moveOn v true
  · split
    · exact hs.alters (startRev_alters _ s)
    · exact ((hs.alters (setSpiral_alters v.spiral .empty s)).raise .spiralEmpty (some v.spiral)
        (val v.revolutions)).moveOn v false

theorem Balanced.stopped {s : State} (hs : Balanced s) (r : Rev) : Balanced (keepSwitch r (stopMotor s)) :=
  (hs.alters (stopMotor_alters s)).alters (keepSwitch_alters r _)

theorem Balanced.revComplete {s : State} (hs : Balanced s) (r : Rev) (n : Nat) : Balanced (revComplete r n s) := by
  have hstored := (hs.stopped r).alters (storeTime_alters r.spiral n _)
  unfold Machine.revComplete
  dsimp only
  split
  · split
    · exact (hs.stopped r).alters (homeReady_alters_parts _ _ _)
    · exact hstored.alters (enterTail_alters _ _)
  · split
    · exact hstored
    · exact .ite (hstored.vendSucceeds _) (hstored.alters (enterTail_alters _ _))

theorem Balanced.revFails {s : State} (hs : Balanced s) (r : Rev) (f : Failure) : Balanced (revFails r f s) := by
  have hfault := ((hs.stopped r).alters (setSpiral_alters r.spiral f.state _)).alters
    (raiseSpiralFault_alters r.spiral f _)
  unfold Machine.revFails
  dsimp only
  split
  · exact .ite ((hs.stopped r).alters (homeStalled_alters_parts _ _ _)) ((hs.stopped r).alters (enterTail_alters _ _))
  · split
    · exact hs.stopped r
    · exact .ite (hfault.moveOn _ _) (.ite (hfault.vendSucceeds _) (hfault.alters (enterTail_alters _ _)))

theorem Balanced.switchCloses {s : State} (hs : Balanced s) (l : List Bool) (n : Nat) :
    Balanced (switchCloses l n s) := by
  unfold Machine.switchCloses
  split
  · exact hs
  · split
    · exact .ite (hs.revComplete _ _) (hs.alters (setRev_alters _ s))
    · exact hs

theorem Balanced.leaveLimitPasses {s : State} (hs : Balanced s) : Balanced (leaveLimitPasses s) := by
  unfold Machine.leaveLimitPasses
  split
  · exact hs
  · exact .ite hs (hs.revFails _ _)

theorem Balanced.revLimitPasses {s : State} (hs : Balanced s) : Balanced (revLimitPasses s) := by
  unfold Machine.revLimitPasses
  split
  · exact hs
  · exact hs.revFails _ _

theorem Balanced.currentJams {s : State} (hs : Balanced s) (l : List Nat) : Balanced (currentJams l s) := by
  unfold Machine.currentJams
  split
  · exact hs
  · exact .ite (hs.revFails _ _) hs

theorem Balanced.currentAt200 {s : State} (hs : Balanced s) (n : Nat) : Balanced (currentAt200 n s) := by
  unfold Machine.currentAt200
  split
  · exact hs
  · exact .ite hs (.ite (hs.revFails _ _) (hs.alters (setRev_alters _ s)))

theorem Balanced.dropConfirmed {s : State} (hs : Balanced s) (r : Rev) : Balanced (dropConfirmed r s) := by
  have hdrop (v : Option VendOp) (x : Option Rev) : Balanced { s with drive.vend := v, drive.rev := x } := hs
  unfold Machine.dropConfirmed
  dsimp only
  split
  · split
    · exact Balanced.alters (hdrop _ _) (endTest_alters_parts _ _)
    · split
      · exact Balanced.vendSucceeds (hdrop _ _) _
      · exact hdrop _ _
  · exact hdrop _ _

theorem Balanced.windowEnds {s : State} (hs : Balanced s) (r : Rev) : Balanced (windowEnds r s) := by
  unfold Machine.windowEnds
  split
  · exact hs.alters (endTest_alters_parts _ s)
  · split
    · exact hs.windowPassed _ r
    · exact hs

theorem Balanced.watchBeam {s : State} (hs : Balanced s) (l : List Bool) (b : Bool) :
    Balanced (watchBeam l b s) := by
  unfold Machine.watchBeam
  split
  · exact hs
  · exact .ite hs (.ite (hs.dropConfirmed _) (.ite (hs.windowEnds _) (hs.alters (setRev_alters _ s))))

theorem Balanced.holdReachesVend {s : State} (hs : Balanced s) (z : Nat) : Balanced (holdReachesVend z s) := by
  unfold Machine.holdReachesVend
  split
  · exact hs
  · split
    · split
      next r _ =>
        have hprobe (p : Nat) : Balanced (addProbe p (keepSwitch r s)) :=
          (hs.alters (keepSwitch_alters r s)).alters (addProbe_alters p _)
        exact .ite (.ite ((hprobe _).vendSucceeds _) ((hprobe _).vendFails _ _)) (hs.vendFails _ _)
      · exact hs.vendFails _ _
    · exact hs

/-! ### Requests -/

theorem Balanced.beginVend {s : State} (hs : Balanced s) (i : Nat) : Balanced (beginVend i s) := by
  unfold Machine.beginVend
  split
  · exact (hs.failVend i _).afterVend s
  · exact .ite (hs.setDrive _) ((hs.setDrive _).alters (request_alters .motor _))

/-- The price moves from credit to the money held for the vend (R7). -/
theorem Balanced.serveVend {s : State} (hs : Balanced s) (code funding amount : Nat) :
    Balanced (serveVend code funding amount s).1 := by
  unfold Machine.serveVend
  split
  · unfold serveCash
    split
    · exact hs
    · split
      · exact hs
      next hcash =>
        have hprice := cashRefusal_credit hcash
        refine Balanced.beginVend (Balanced.alters ?_ (setSale_alters _)) _
        unfold Balanced Outstanding balanced at *
        dsimp only
        refine hs.imp_right fun h => ?_
        omega
  · unfold serveExternal
    split
    · exact hs
    · refine Balanced.beginVend (Balanced.alters ?_ (setSale_alters _)) _
      exact hs
  · exact hs

theorem Balanced.serveReturn {s : State} (hs : Balanced s) : Balanced (serveReturn s).1 := by
  unfold Machine.serveReturn
  split
  · exact hs
  · split
    · exact hs
    · exact hs.returnAll
  · exact hs.returnAll
  · exact hs

/-- What is owed is written off (R26). -/
theorem Balanced.serveSettle {s : State} (hs : Balanced s) : Balanced (serveSettle s).1 := by
  unfold Machine.serveSettle
  split
  · refine Balanced.alters ?_ (setSale_alters _)
    unfold Balanced Outstanding balanced Audit.someFull at *
    simp only [addTotal, satAdd, Config.maxTotal] at *
    omega
  · exact hs

/-- The credit law's core and the balance, which the reports of a peripheral keep. -/
def Books (s : State) : Prop := CreditCore s ∧ Balanced s

theorem Books.reports : ReportsKeep Books where
  quiet h hs := ⟨hs.1.alters h, hs.2.alters h⟩
  coinTube k _ hs := ⟨hs.1.coinTube k, hs.2.coinTube k⟩
  takeCoin k _ hs := ⟨hs.1.takeCoin k, hs.2.takeCoin k⟩
  returnLever _ hs := ⟨hs.1.returnLever, hs.2.returnLever⟩
  noteEscrow n _ hs := ⟨hs.1.noteEscrow n, hs.2.noteEscrow n⟩
  noteStacked n _ hs := ⟨hs.1.noteStacked n, hs.2.noteStacked hs.1 n⟩
  noteReturned n _ hs := ⟨hs.1.noteReturned n, hs.2.noteReturned n⟩
  expireEscrow _ hs := ⟨hs.1.expireEscrow, hs.2.expireEscrow⟩

/-- The balance is kept by what keeps it where no money is held at all. -/
theorem Balanced.setSlotKind {s : State} (hs : Balanced s) (slot : Nat) (k : SlotKind) :
    Balanced (setSlotKind slot k s) := by
  have hlost (p : Option Periph) (u : State) (hu : Balanced u) : Balanced (tellKindLost p u) := by
    unfold tellKindLost
    split
    · exact hu.expireEscrow.alters (recomputeNote_alters _)
    · exact hu.alters (recomputeMasks_alters u)
    · exact hu
  have hkinds (x : List SlotKind) : Balanced { s with tables.slotKinds := x } := hs
  have hdropped (x : List SlotKind) (f : Slot → Slot) (n : Nat) :
      Balanced (dropSlotCmds slot n (modSlot slot f { s with tables.slotKinds := x })) :=
    ((hkinds x).alters (modSlot_alters slot f _)).alters (dropSlotCmds_alters _ _ _)
  have hunused (u : State) (hu : Balanced u) : Balanced (if k = .unused then
      roundIfDue (dropSlotPasses slot { u with line.list := u.line.list.filter (· != slot) }) else u) := by
    have hlist (x : List Nat) : Balanced { u with line.list := x } := hu
    exact .ite (((hlist _).alters (dropSlotPasses_alters slot _)).alters (roundIfDue_alters _)) hu
  have hmoved (p : Option Periph) (u : State) (hu : Balanced u) : Balanced (moveMaskRec p u) :=
    hu.alters (moveMaskRec_alters p u)
  unfold Machine.setSlotKind
  split
  · exact hs
  · dsimp only
    refine Balanced.alters (hlost _ _ (hmoved _ _ (hmoved _ _ ?_))) (tellKindTaken_alters _ _)
    exact (hunused _ (hdropped _ _ _)).alters (setTrans_alters _ _)

theorem Balanced.applyTube {s : State} (hs : Balanced s) (n : Nat) (r : TubeRec) : Balanced (applyTube n r s) :=
  hs.alters (applyTube_alters_parts n r s)

theorem Balanced.record {table i : Nat} {r : List Byte} {s : State} {x : State × Nat × Nat} (hs : Balanced s)
    (h : recordStep table i r s = .ok x) : Balanced x.1 := by
  have hplain {y : Tables} {a b : Nat} (he : Except.ok (ε := ReplyCode) ({ s with tables := y }, a, b) = .ok x) :
      Balanced x.1 := by
    cases he; exact hs
  unfold recordStep at h
  split at h
  · rw [loadMoney_eq] at h
    cases h
    exact Balanced.alters (s := { s with tables.money := moneyOf r }) hs
      ((moneyTaken_alters r s).seq (rs := .exact :: .events :: maskParts) (recomputeMasks_alters _))
  · unfold loadCoin at h
    split at h
    · simp at h
    · exact hplain h
  · obtain ⟨t, -, hx⟩ := loadTube_state h
    exact hx ▸ hs.applyTube _ t
  · exact hplain h
  · obtain ⟨new, -, -, -, -, hx⟩ := loadSel_state h
    exact hx ▸ hs.alters (applySel_alters _ new s)
  · exact hplain h
  · exact hplain h
  · exact hplain h
  · exact hplain h
  · unfold loadLoads at h
    cases h
    exact Balanced.alters (s := { s with tables.loads := loadTableOf r }) hs (budgetChanged_alters _)
  · obtain ⟨k, hx⟩ := loadSlot_state h
    exact hx ▸ hs.setSlotKind _ k
  · exact hplain h
  · exact hplain h
  · simp at h

theorem Balanced.serveLoad {s : State} (hs : Balanced s) (table first count : Nat) (records : List Byte) :
    Balanced (serveLoad table first count records s).1 :=
  serveLoad_keeps (P := Balanced) (fun _ _ _ _ hx hu => hu.record hx)
    (fun u hu => hu.alters (afterSection_alters_parts table u)) (fun u hu => hu.alters (tablesChanged_alters u)) hs

/-- With no money held and nothing owed the totals balance at 0. -/
theorem Balanced.ofNone {s : State} (hcredit : s.credit.credit = 0) (hhold : s.credit.vendHold = 0)
    (hdue : s.credit.returnDue = 0) (haudit : s.audit = Audit.zero) : Balanced s := by
  unfold Balanced Outstanding balanced
  rw [hcredit, hhold, hdue, haudit]
  exact .inr rfl

/-- In IDLE nothing is held and nothing owed (R4). -/
theorem CreditLaw.idle_amounts {s : State} (h : CreditLaw s) (hrun : s.phase = .run) (hsale : s.credit.sale = .idle) :
    s.credit.credit = 0 ∧ s.credit.vendHold = 0 ∧ s.credit.returnDue = 0 := by
  have hheld := h.idle hrun hsale
  have hof := h.sale hrun
  rw [hsale] at hof
  unfold saleOf at hof
  split_ifs at hof with h1 h2 h3
  simp only [State.heldSum] at hheld
  simp only [not_or, not_not] at h3
  obtain ⟨-, hdue, -⟩ := h3
  exact ⟨by omega, by omega, hdue⟩

theorem balanced_serveClearAudit {s : State} (hs : Balanced s) (hlaw : CreditLaw s) (hrun : s.phase = .run) :
    Balanced (serveClearAudit s).1 := by
  unfold serveClearAudit
  split
  next hsale =>
    obtain ⟨hcredit, hhold, hdue⟩ := hlaw.idle_amounts hrun hsale
    exact .ofNone hcredit hhold hdue rfl
  next => exact hs

theorem balanced_factoryClear {s : State} (hcredit : s.credit.credit = 0) (hhold : s.credit.vendHold = 0)
    (hdue : s.credit.returnDue = 0) : Balanced (factoryClear s) := by
  have hcleared : Balanced (clearAudit (clearLock s)) := by
    obtain ⟨h1, h2, -, h3⟩ := clearLock_alters s .amounts (by decide)
    exact .ofNone (h1.trans hcredit) (h2.trans hhold) (h3.trans hdue) rfl
  have htubes (u : State) (hu : Balanced u) : Balanced (applyDefaultTubes u) :=
    keeps_foldl (P := Balanced) (fun u n hu => hu.applyTube n _) _ hu
  have hslots (u : State) (hu : Balanced u) : Balanced (applyDefaultSlots u) :=
    keeps_foldl (P := Balanced) (fun u a hu => hu.setSlotKind a _) _ hu
  have hmoney (u : State) (hu : Balanced u) : Balanced (defaultMoneyAndCoins u) := hu
  have hplain (u : State) (hu : Balanced u) : Balanced (applyPlainDefaults (applyDefaultSels u)) := hu
  have hloads (u : State) (hu : Balanced u) : Balanced (budgetChanged { u with tables.loads := defaultLoads }) :=
    Balanced.alters (s := { u with tables.loads := defaultLoads }) hu (budgetChanged_alters _)
  have htubesCleared (u : State) (hu : Balanced u) : Balanced (clearTubes u) := by
    refine Balanced.alters (keeps_foldl (P := Balanced) (fun u n hu => ?_) _ hu) (afterTubes_alters _)
    exact ((hu.alters (rawCount_alters n 0 u)).alters (rawCond_alters n .ok _)).alters (reconcile_alters n _)
  have hdefaults : Balanced (restoreDefaults (clearAudit (clearLock s))) :=
    hslots _ (hloads _ (((hplain _ (htubes _ (hmoney _ hcleared))).alters (evalExact_alters _)).alters
      (recomputeMasks_alters _)))
  exact ((htubesCleared _ hdefaults).alters (clearHolds_alters _)).alters (clearStore_alters _)

theorem balanced_serveFactoryClear {s : State} (hs : Balanced s) (hlaw : CreditLaw s) (hrun : s.phase = .run) :
    Balanced (serveFactoryClear s).1 := by
  unfold serveFactoryClear
  split_ifs with _ _ hbusy
  · exact hs
  · exact hs
  · exact hs
  · simp only [not_or, not_not] at hbusy
    obtain ⟨hsale, -, -⟩ := hbusy
    obtain ⟨hcredit, hhold, hdue⟩ := hlaw.idle_amounts hrun hsale
    exact balanced_factoryClear hcredit hhold hdue

/-! ### Images -/

/-- The balance of every retained image (R122). -/
def ImagesBalanced (s : State) : Prop := ∀ r ∈ s.store.retainedImages, balanced r.credit 0 r.returnDue r.audit

theorem ImagesBalanced.mono {s t : State} (hs : ImagesBalanced s)
    (h : ∀ r ∈ t.store.retainedImages, r ∈ s.store.retainedImages) : ImagesBalanced t := fun r hr => hs r (h r hr)

theorem ImagesBalanced.same {s t : State} (hs : ImagesBalanced s) (h : t.store = s.store) : ImagesBalanced t := by
  unfold ImagesBalanced
  rw [h]
  exact hs

theorem retainedImages_commitRetained (s : State) :
    ∀ r ∈ (commitRetained s).store.retainedImages, r ∈ s.store.retainedImages := by
  intro r hr
  unfold commitRetained at hr
  split at hr
  · exact hr
  next w hw =>
    simp only [Store.retainedImages, hw, List.mem_append, Option.mem_toList]
    split at hr <;> simp only [Store.retainedImages, Option.map_some, Option.map_none, Option.toList_none,
      List.append_nil, List.mem_append, Option.mem_toList] at hr
    · rcases hr with hr | hr
      · exact .inr hr
      · exact .inl (.inr hr)
    · rcases hr with hr | hr
      · exact .inl (.inl hr)
      · exact .inr hr

theorem retainedImages_commitTables (s : State) :
    (commitTables s).store.retainedImages = s.store.retainedImages := by
  unfold commitTables
  split
  · rfl
  · split <;> rfl

theorem retainedImages_tablesChanged (s : State) :
    (tablesChanged s).store.retainedImages = s.store.retainedImages := by
  unfold tablesChanged askTableWrite
  split <;> rfl

theorem retainedImages_cutWrites (x : Store) : ∀ r ∈ (cutWrites x).retainedImages, r ∈ x.retainedImages := by
  intro r hr
  unfold cutWrites at hr
  simp only [Store.retainedImages, Option.map_none, Option.toList_none, List.append_nil, List.mem_append,
    Option.mem_toList] at hr ⊢
  split at hr <;> split at hr <;> (try split at hr) <;> (try split at hr) <;> simp_all

theorem retainedImages_beginRetainedWrite (s : State) :
    ∀ r ∈ (beginRetainedWrite s).store.retainedImages, r = retainedOf s ∨ r ∈ s.store.retainedImages := by
  intro r hr
  simp only [beginRetainedWrite, Store.retainedImages, Option.map_some, nextWrite_contents, List.mem_append,
    Option.mem_toList] at hr ⊢
  rcases hr with hr | hr
  · exact .inr (.inl hr)
  · exact .inl (Option.some.inj hr).symm

/-- The image written holds no price, and so balances where the record in use does. -/
theorem ImagesBalanced.beginRetainedWrite {s : State} (himages : ImagesBalanced s) (hs : Balanced s)
    (hhold : s.credit.vendHold = 0) : ImagesBalanced (beginRetainedWrite s) := by
  intro r hr
  rcases retainedImages_beginRetainedWrite s r hr with h | h
  · subst h
    unfold Balanced Outstanding at hs
    rwa [hhold] at hs
  · exact himages r h

theorem ImagesBalanced.tablesChanged {s : State} (hs : ImagesBalanced s) : ImagesBalanced (tablesChanged s) :=
  hs.mono fun _ hr => retainedImages_tablesChanged s ▸ hr

theorem retainedImages_clearStore (s : State) : (clearStore s).store.retainedImages = s.store.retainedImages := rfl

theorem ImagesBalanced.serveOwner {s : State} (hs : ImagesBalanced s) (r : Request) :
    ImagesBalanced (serveOwner r s).1 := by
  by_cases hstore : Part.store ∈ r.parts
  · cases r
    case load table first count records =>
      rcases serveLoad_store table first count records s with hload | ⟨u, hu, hload⟩
      · exact (congrArg ImagesBalanced hload).mpr hs
      · exact (congrArg ImagesBalanced hload).mpr (hs.same hu).tablesChanged
    case factoryClear =>
      show ImagesBalanced (serveFactoryClear s).1
      obtain ⟨u, hu, hclear⟩ := factoryClear_eq_clearStore s
      have hcleared : ImagesBalanced (clearStore u) :=
        (hs.same hu).mono fun r hr => retainedImages_clearStore u ▸ hr
      unfold serveFactoryClear
      split_ifs
      · exact hs
      · exact hs
      · exact hs
      · exact (congrArg ImagesBalanced hclear).mpr hcleared
    case apply code price =>
      obtain ⟨u, hu, happly | happly⟩ := serveApply_store code price s
      · exact (congrArg ImagesBalanced happly).mpr (hs.same hu)
      · exact (congrArg ImagesBalanced happly).mpr (hs.same hu).tablesChanged
    all_goals exact absurd hstore (by simp only [Request.parts]; decide)
  · exact hs.same (serveOwner_alters r s .store hstore)

/-! ### Power failures and starts -/

theorem Balanced.stopAll {s t : State} (hs : Balanced s) (hcredit : t.credit = (stopAll s).credit)
    (haudit : t.audit = s.audit) : Balanced t := by
  have hmark : Balanced { outputsOff s with credit.pendingReturn := false } := hs
  have hinterrupted : Balanced (interruptVend (outputsOff s)) := by
    unfold interruptVend
    dsimp only
    split
    · exact hmark
    · exact hmark.failVend _ _
  have hends (u : State) (hu : Balanced u) (x : List SpiralRec) (p : Option Payout) (e : Option Escrow) (n : Nat) :
      Balanced { u with spirals := x, drive := Drive.initial, change.payout := p, credit.escrow := e,
                        credit.escrowReserve := n } := hu
  have hstopped : Balanced (Machine.stopAll s) :=
    (hends _ hinterrupted _ none none 0).alters (setSale_alters _)
  exact Outstanding.congr hstopped (by rw [hcredit]) (by rw [hcredit]) (by rw [hcredit])
    (haudit.trans (stopAll_alters s .audit (by decide)).symm)

/-- A start takes the record of the image it finds, or empty ones; money above the ceiling becomes owed (R27). -/
theorem balanced_beginStart {s : State} (himages : ImagesBalanced s) (c : Cause) : Balanced (beginStart c s) := by
  have hstart : ∀ img, latest s.store.retainedA s.store.retainedB = img →
      balanced (startCredit img).credit (startCredit img).vendHold (startCredit img).returnDue (startAudit img) := by
    intro img himg
    cases img with
    | none => exact .inr rfl
    | some m => exact himages m (List.mem_append_left _ (latest_mem himg))
  have hceiling (u : State) (hu : Balanced u) : Balanced (holdToCeiling u) := by
    unfold holdToCeiling
    dsimp only
    split
    · exact hu
    · refine balanced_addReturnDue ?_
      unfold Balanced Outstanding at *
      dsimp only
      rwa [Nat.sub_add_cancel (Nat.sub_le _ _)]
  unfold beginStart
  dsimp only
  refine Balanced.alters (hceiling _ ?_) (setSale_alters _)
  exact hstart _ rfl

/-! ### Every step -/

/-- The laws of the money between steps. -/
structure BooksLaw (s : State) : Prop where
  credit : CreditLaw s
  balance : BalanceLaw s

/-- What holds of the money within a step. -/
structure BooksKept (s : State) : Prop where
  core : CreditCore s
  record : Balanced s
  images : ImagesBalanced s

theorem BooksLaw.kept {s : State} (h : BooksLaw s) : BooksKept s :=
  ⟨h.credit.core, h.balance.1, h.balance.2⟩

/-- An operation that leaves the store alone. -/
theorem BooksKept.op {ps : List Part} {s t : State} (hs : BooksKept s) (h : Alters ps s t) (hcore : CreditCore t)
    (hrecord : Balanced t) (hp : .store ∉ ps := by decide) : BooksKept t :=
  ⟨hcore, hrecord, hs.images.same (h .store hp)⟩

/-- An operation that leaves the amounts and the totals alone. -/
theorem BooksKept.unpaid {ps : List Part} {s t : State} (hs : BooksKept s) (h : Alters ps s t) (hcore : CreditCore t)
    (hp : Apart [.amounts, .audit, .store] ps := by exact (apart_iff _ _).1 rfl) : BooksKept t :=
  hs.op h hcore (hs.record.alters h fun p hq => hp p (by simp_all; tauto)) (hp _ (by decide))

/-- An operation on parts neither law reads. -/
theorem BooksKept.alters {ps : List Part} {s t : State} (hs : BooksKept s) (h : Alters ps s t)
    (hcore : Apart fundsParts ps := by exact (apart_iff _ _).1 rfl)
    (hp : Apart [.amounts, .audit, .store] ps := by exact (apart_iff _ _).1 rfl) : BooksKept t :=
  hs.unpaid h (hs.core.alters h hcore) hp

/-- The parts the laws of the money read. -/
def booksParts : List Part := .audit :: .store :: creditParts

theorem booksKept_reads : Reads booksParts BooksKept := by
  intro s t h hs
  obtain ⟨hcredit, hhold, -, hdue⟩ := h .amounts (by decide)
  exact ⟨creditCore_reads s t (fun p hp => h p (List.mem_cons_of_mem _ (List.mem_cons_of_mem _ hp))) hs.core,
    Outstanding.congr hs.record hcredit hhold hdue (h .audit (by decide)), hs.images.same (h .store (by decide))⟩

theorem booksLaw_reads : Reads booksParts BooksLaw := by
  intro s t h hs
  obtain ⟨-, hrecord, himages⟩ := booksKept_reads s t h hs.kept
  exact ⟨creditLaw_reads s t (fun p hp => h p (List.mem_cons_of_mem _ (List.mem_cons_of_mem _ hp))) hs.credit,
    hrecord, himages⟩

theorem balanced_serveOwner {s : State} (hs : BooksLaw s) (hrun : s.phase = .run) (r : Request)
    (h : ¬Apart [.amounts, .audit] r.parts) : Balanced (serveOwner r s).1 := by
  have hrecord : Balanced s := hs.balance.1
  cases r
  case vend c f a => exact hrecord.serveVend c f a
  case returnCredit => exact hrecord.serveReturn
  case load table first count records => exact hrecord.serveLoad table first count records
  case factoryClear => exact balanced_serveFactoryClear hrecord hs.credit hrun
  case clearAudit => exact balanced_serveClearAudit hrecord hs.credit hrun
  case settle => exact hrecord.serveSettle
  case clearTubeFault n =>
    show Balanced (serveClearTube n s).1
    unfold serveClearTube
    split
    · exact hrecord
    · exact ((hrecord.alters (rawCond_alters n .ok s)).alters (reconcile_alters n _)).alters (afterTubes_alters _)
  all_goals exact absurd ((apart_iff _ _).1 rfl) h

theorem BooksLaw.serveOwner {s : State} (hs : BooksLaw s) (hrun : s.phase = .run) (r : Request) :
    BooksKept (serveOwner r s).1 := by
  refine ⟨?_, ?_, ImagesBalanced.serveOwner hs.balance.2 r⟩
  · by_cases h : Apart creditParts r.parts
    · exact creditCore_reads.alters (serveOwner_alters r s) h hs.credit.core
    · exact hs.credit.serveOwner hrun r h
  · by_cases h : Apart [.amounts, .audit] r.parts
    · exact Balanced.alters (s := s) hs.balance.1 (serveOwner_alters r s) h
    · exact balanced_serveOwner hs hrun r h

theorem BooksKept.powerFail {s : State} (hs : BooksKept s) (w : Bool) (x : Supply) :
    BooksKept (powerFail w { s with supply := x }) := by
  have hcore := hs.core.powerFail w x
  have hframe := powerFail_supply_alters w x s
  have hrecord : Balanced (Machine.powerFail w { s with supply := x }) :=
    Balanced.stopAll (s := { s with supply := x }) hs.record (powerFail_credit w _).1 (hframe .audit (by decide))
  refine ⟨hcore, hrecord, ?_⟩
  have hquiet := hcore.quiet
  have hnohold := hcore.no_hold
  unfold Machine.powerFail at hcore hrecord hquiet hnohold ⊢
  dsimp only at hcore hrecord hquiet hnohold ⊢
  have hstored : (Machine.stopAll { s with supply := x }).store = s.store :=
    stopAll_alters { s with supply := x } .store (by decide)
  have hsaving : ImagesBalanced { Machine.stopAll { s with supply := x } with
      phase := .saving w, store.tableWaiting := false } := by
    intro r hr
    refine hs.images r ?_
    rw [← hstored]
    exact hr
  split at hcore
  next h => rw [if_pos h] at hrecord ⊢; exact hsaving
  next h =>
    rw [if_neg h] at hrecord hquiet hnohold ⊢
    refine hsaving.beginRetainedWrite hrecord (hnohold ?_)
    have hfree := hquiet rfl
    intro hcash
    rw [hfree] at hcash
    exact absurd hcash (by simp)

theorem booksLaw_kept : Kept booksParts BooksLaw BooksKept where
  before := booksLaw_reads
  within := booksKept_reads
  enter _ h := h.kept
  leave _ h hsale := ⟨h.core.law hsale, h.record, h.images⟩
  setSale _ s h := h.alters (setSale_alters s)
  payoutTest _ s _ h := h.unpaid (payoutTest_alters s) h.core.payoutTest
  serveOwner r _ _ hrun h := h.serveOwner hrun r
  endTrans x o _ s _ h := by
    obtain ⟨hcore, hrecord⟩ := Books.reports.endTrans x o ⟨h.credit.core, h.balance.1⟩
    exact h.kept.op (endTrans_alters x o s) hcore hrecord
  levelRead n full c _ s _ h := h.unpaid (levelRead_alters n full s c) (h.core.same (sameFunds_levelRead n full s c))
  payoutGiven _ s _ h := h.kept.op (payoutGiven_alters s) h.credit.core.payoutGiven (Balanced.payoutGiven h.balance.1)
  pulseEnds _ s _ h := h.kept.unpaid (pulseEnds_alters s) (h.credit.core.same (.mapPayout _ s))
  coinAtExit _ s _ h := h.kept.op (coinAtExit_alters s) (h.credit.core.same (sameFunds_coinAtExit s))
    (Balanced.coinAtExit h.balance.1)
  windowCloses _ s _ h := h.kept.op (windowCloses_alters s) h.credit.core.windowCloses
    (Balanced.windowCloses h.balance.1)
  expireEscrow _ s _ h := h.kept.op (expireEscrow_alters s) h.credit.core.expireEscrow
    (Balanced.expireEscrow h.balance.1)
  probeDone b _ s _ h := h.kept.alters (probeDone_alters_parts b s)
  motorGiven _ s _ h := h.kept.op (motorGiven_alters s) h.credit.core.motorGiven (Balanced.motorGiven h.balance.1)
  motorStarts b _ s _ h := h.kept.unpaid (motorStarts_alters b s) (h.credit.core.motorStarts b)
  switchCloses l n _ s _ h := h.kept.op (switchCloses_alters l n s) (h.credit.core.switchCloses l n)
    (Balanced.switchCloses h.balance.1 l n)
  leaveLimitPasses _ s _ h := h.kept.op (leaveLimitPasses_alters s) h.credit.core.leaveLimitPasses
    (Balanced.leaveLimitPasses h.balance.1)
  revLimitPasses _ s _ h := h.kept.op (revLimitPasses_alters s) h.credit.core.revLimitPasses
    (Balanced.revLimitPasses h.balance.1)
  currentJams l _ s _ h := h.kept.op (currentJams_alters l s) (h.credit.core.currentJams l)
    (Balanced.currentJams h.balance.1 l)
  currentAt200 n _ s _ h := h.kept.op (currentAt200_alters n s) (h.credit.core.currentAt200 n)
    (Balanced.currentAt200 h.balance.1 n)
  watchBeam l b _ s _ h := h.kept.op (watchBeam_alters l b s) (h.credit.core.watchBeam l b)
    (Balanced.watchBeam h.balance.1 l b)
  takeSample k c _ s _ h := by
    obtain ⟨hcore, hrecord⟩ := takeSample_keeps (P := Books) (fun ha hu => ⟨hu.1.alters ha, hu.2.alters ha⟩)
      (fun z _ hu => ⟨hu.1.holdReachesVend z, hu.2.holdReachesVend z⟩) k c ⟨h.credit.core, h.balance.1⟩
    exact h.kept.op (takeSample_alters k c s) hcore hrecord
  powerFail w _ x h := h.powerFail w x
  failFast s x h := by
    have hcore := (h.core.alters (setSupply_alters x s)).stopAll (t := { stopAll { s with supply := x } with
      phase := .failWait }) rfl (stopAll_alters { s with supply := x } .tables (by decide)) rfl
    have hframe := stopAll_supply_alters x s
    exact h.op hframe hcore (Balanced.stopAll (s := { s with supply := x }) h.record rfl (hframe .audit (by decide)))
  stillSaving _ w w' s hphase h :=
    h.unpaid (setPhase_alters _ s) (h.core.setPhase fun _ => by simp [State.active, hphase])
  saved _ w s hphase h := h.unpaid (setPhase_alters _ s) (h.core.setPhase fun _ => by simp [State.active, hphase])
  commitTables _ s h := ⟨h.core.alters (commitTables_alters s), h.record.alters (commitTables_alters s),
    h.images.mono fun _ hr => retainedImages_commitTables s ▸ hr⟩
  commitRetained _ s h := ⟨h.core.alters (commitRetained_alters s), h.record.alters (commitRetained_alters s),
    h.images.mono (retainedImages_commitRetained s)⟩
  beginTableWrite _ s h := ⟨h.core.alters (beginTableWrite_alters s), h.record.alters (beginTableWrite_alters s),
    h.images⟩
  beginRetainedWrite _ s h hsaving := by
    have hoff : s.active = false := by
      unfold saving at hsaving
      unfold State.active
      split at hsaving
      next w hphase => simp [hphase]
      next => simp at hsaving
    have hhold := h.core.no_hold (by simp [h.core.quiet hoff])
    exact ⟨h.core.alters (beginRetainedWrite_alters s), h.record.alters (beginRetainedWrite_alters s),
      h.images.beginRetainedWrite h.record hhold⟩
  beginStart c s h := ⟨creditCore_beginStart c s, balanced_beginStart h.images c, h.images.same (beginStart_store c s)⟩
  powerUp s h := ⟨creditCore_reset.same ⟨rfl, rfl, rfl, rfl, rfl, rfl, rfl, id, rfl⟩, .ofNone rfl rfl rfl rfl,
    h.images.mono (retainedImages_cutWrites s.store)⟩
  probing _ c s hphase h := h.unpaid (setPhase_alters _ s) (h.core.setPhase fun hx => by simp [State.active] at hx)
  sampling _ c s _ h := by
    have hall : SameFunds s (reconcileAll s) :=
      (SameFunds.foldl (fun u n => sameFunds_reconcile n u) (List.range 6) s).trans (.frame (evalExactSilent_alters _))
    have hframe : Alters [.tubes, .shortWait, .payout, .events, .exact] s (reconcileAll s) :=
      (Alters.foldl (fun u n => reconcile n u) (fun u n => reconcile_alters n u) (List.range 6) s).seq (evalExactSilent_alters _)
    have hall' : BooksKept (reconcileAll s) := h.unpaid hframe (h.core.same hall)
    refine hall'.unpaid (ps := [.compressor, .phase]) ?_ (hall'.core.atSampling _ c)
    intro p hp; cases p <;> simp_all [Part.same]
  resetting _ c s hphase h := h.unpaid (setPhase_alters _ s) (h.core.setPhase fun hx => by simp [State.active] at hx)
  complete _ c s _ h := by
    have hstart (x : Line) (e : Events) : BooksKept { s with phase := .run, line := x, events := e } :=
      ⟨h.core.atRun x e, h.record, h.images⟩
    exact (hstart _ _).alters (raise_alters _ _ _ _)

/-- Settles O11: each movement of money is entered in the totals as it is made, an image is written only when no price is
held, and a start takes its totals with its money. -/
theorem auditBalanceIsKept : Obligations.AuditBalanceIsKept := fun _ _ hcredit hbalance h =>
  (booksLaw_kept.step ⟨hcredit, hbalance⟩ h).balance

end Sys2Proof.Machine
end

