-- ==== Sys2Proof/Proofs/LoadGrants.lean ====
section
/-! The grant rule (R117, R118): what it grants, what keeps waiting, and the budget it keeps. -/

/- One lemma after another, to keep the memory of a compile small. -/
set_option Elab.async false

namespace Sys2Proof.Machine

/-! ### Sets of loads -/

@[simp] theorem has_put (l : LoadSet) (x y : Load) (b : Bool) : (l.put x b).has y = if y = x then b else l.has y := by
  cases x <;> cases y <;> rfl

@[simp] theorem LoadSet.none_has (x : Load) : LoadSet.none.has x = false := by cases x <;> rfl

/-- A set is known by its members. -/
theorem LoadSet.eq_of_has {l m : LoadSet} (h : ∀ x, l.has x = m.has x) : l = m := by
  have h1 := h .payout
  have h2 := h .motor
  have h3 := h .compStart
  have h4 := h .compRun
  have h5 := h .heater
  cases l
  cases m
  simp_all [LoadSet.has]

/-! ### The grant rule -/

section
variable (t : LoadTable) (b : Nat)

/-- A waiter stays or is granted: nothing else moves. -/
theorem grantLoop_moves (xs : List Load) (g w : LoadSet) (y : Load) :
    ((grantLoop t b xs g w).1.has y = true ↔
      g.has y = true ∨ (w.has y = true ∧ (grantLoop t b xs g w).2.has y = false)) ∧
    ((grantLoop t b xs g w).2.has y = true → w.has y = true) := by
  induction xs generalizing g w with
  | nil =>
    unfold grantLoop
    exact ⟨⟨.inl, fun h => h.elim id fun ⟨h1, h2⟩ => absurd h1 (by simp [h2])⟩, id⟩
  | cons x xs ih =>
    unfold grantLoop
    split
    next hx =>
      split
      next =>
        obtain ⟨hmoves, hwaits⟩ := ih (g.put x true) (w.put x false)
        rw [hmoves]
        by_cases hy : y = x
        · subst hy
          have hgone : (grantLoop t b xs (g.put y true) (w.put y false)).2.has y = false := by
            by_contra hstays
            simpa using hwaits (by simpa using hstays)
          simp [hx, hgone]
        · simp only [has_put, hy, if_false] at hwaits ⊢
          exact ⟨trivial, hwaits⟩
      next => exact ⟨⟨.inl, fun h => h.elim id fun ⟨h1, h2⟩ => absurd h1 (by simp [h2])⟩, id⟩
    next => exact ih g w

theorem grantLoop_other (xs : List Load) (g w : LoadSet) {y : Load} (hy : y ∉ xs) :
    (grantLoop t b xs g w).1.has y = g.has y ∧ (grantLoop t b xs g w).2.has y = w.has y := by
  induction xs generalizing g w with
  | nil => exact ⟨rfl, rfl⟩
  | cons x xs ih =>
    simp only [List.mem_cons, not_or] at hy
    obtain ⟨hyx, hy⟩ := hy
    unfold grantLoop
    split
    · split
      · obtain ⟨h1, h2⟩ := ih (g.put x true) (w.put x false) hy
        rw [h1, h2]
        simp [hyx]
      · exact ⟨rfl, rfl⟩
    · exact ih g w hy

theorem grantLoop_disjoint (xs : List Load) (g w : LoadSet) (h : ∀ y, g.has y = true → w.has y = false) (y : Load)
    (hy : (grantLoop t b xs g w).1.has y = true) : (grantLoop t b xs g w).2.has y = false := by
  obtain ⟨hmoves, hwaits⟩ := grantLoop_moves t b xs g w y
  rcases hmoves.1 hy with hg | ⟨-, hgone⟩
  · by_contra hstays
    exact absurd (hwaits (by simpa using hstays)) (by simp [h y hg])
  · exact hgone

theorem grantLoop_none (xs : List Load) : grantLoop t b xs .none .none = (.none, .none) := by
  induction xs with
  | nil => rfl
  | cons x xs ih =>
    unfold grantLoop
    rw [if_neg (by simp)]
    exact ih

/-- The first waiter that stays did not fit, and nothing behind it was granted. -/
theorem grantLoop_stops {xs : List Load} (hnodup : xs.Nodup) (g w : LoadSet) {before after : List Load} {x : Load}
    (hxs : xs = before ++ x :: after) (hx : (grantLoop t b xs g w).2.has x = true)
    (hbefore : ∀ y ∈ before, (grantLoop t b xs g w).2.has y = false) :
    b < t.sum (grantLoop t b xs g w).1 + t.rating x ∧
      ∀ y ∈ after, (grantLoop t b xs g w).1.has y = g.has y := by
  induction xs generalizing g w before with
  | nil => simp at hxs
  | cons z xs ih =>
    rw [List.nodup_cons] at hnodup
    obtain ⟨hz, hnodup⟩ := hnodup
    unfold grantLoop at hx hbefore ⊢
    cases before with
    | nil =>
      obtain ⟨rfl, rfl⟩ : z = x ∧ xs = after := by simpa using hxs
      split
      next hw =>
        rw [if_pos hw] at hx
        split
        next hfits =>
          rw [if_pos hfits] at hx
          exact absurd ((grantLoop_moves t b xs _ _ z).2 hx) (by simp)
        next hfits => exact ⟨Nat.lt_of_not_le hfits, fun _ _ => rfl⟩
      next hw =>
        rw [if_neg hw] at hx
        exact absurd ((grantLoop_moves t b xs _ _ z).2 hx) hw
    | cons u before =>
      obtain ⟨rfl, hrest⟩ : z = u ∧ xs = before ++ x :: after := by simpa using hxs
      have hafter : ∀ y ∈ after, y ≠ z := fun y hy heq => hz (by rw [hrest, ← heq]; simp [hy])
      split
      next hw =>
        rw [if_pos hw] at hx hbefore
        split
        next hfits =>
          rw [if_pos hfits] at hx hbefore
          obtain ⟨hover, hsame⟩ := ih hnodup _ _ hrest hx fun y hy => hbefore y (List.mem_cons_of_mem _ hy)
          exact ⟨hover, fun y hy => (hsame y hy).trans (by simp [hafter y hy])⟩
        next hfits =>
          rw [if_neg hfits] at hbefore
          exact absurd hw (by simp [hbefore z List.mem_cons_self])
      next hw =>
        rw [if_neg hw] at hx hbefore
        exact ih hnodup _ _ hrest hx fun y hy => hbefore y (List.mem_cons_of_mem _ hy)

end

/-- Settles O47: the rule goes through the waiters once, in their priority, and stops at the first that does not fit. -/
theorem grantRuleKeepsPriorityAndBudget : Obligations.GrantRuleKeepsPriorityAndBudget := by
  intro s
  refine ⟨grantRule_alters s, fun y => (grantLoop_moves _ _ _ _ _ y).1, fun y => (grantLoop_moves _ _ _ _ _ y).2,
    grantLoop_sum_le _ _ _ _ _, fun h => ?_, fun before after x hxs hx hbefore => ?_⟩
  · have hover := grantLoop_over s.tables.loads s.effectiveBudget grantPriority s.supply.granted s.supply.waiting h
    exact ⟨congrArg Prod.fst hover, congrArg Prod.snd hover⟩
  · exact grantLoop_stops _ _ (by decide) _ _ hxs hx hbefore

end Sys2Proof.Machine
end

