-- ==== Sys2Proof/Proofs/LoadOwners.lean ====
section
/-! The load budget and the loads' owners (R117 to R120): the two halves of the budget law, and what a request and a release
of a load leave of them. -/

/- One lemma after another, to keep the memory of a compile small. -/
set_option Elab.async false

namespace Sys2Proof.Machine

/-! ### The two sets -/

/-- The part of the budget law that is about the two sets alone. -/
structure GrantsFit (s : State) : Prop where
  table : s.grantedSum ≤ s.tables.loads.budget
  budget : s.grantedSum ≤ s.effectiveBudget ∨
    (s.supply.state = .sag ∧ (s.supply.granted.motor = true ∨ s.supply.granted.payout = true) ∧
      s.supply.granted.heater = false ∧ s.supply.granted.compRun = false ∧ s.supply.granted.compStart = false)
  disjoint : ∀ x, s.supply.granted.has x = true → s.supply.waiting.has x = false
  runNotAsked : s.supply.waiting.compRun = false

theorem effectiveBudget_le (s : State) : s.effectiveBudget ≤ s.tables.loads.budget := by
  unfold State.effectiveBudget
  split
  · exact le_rfl
  · exact Nat.div_le_self _ _
  · exact Nat.zero_le _

/-- Sets that fit the effective budget. -/
theorem GrantsFit.ofFits {s : State} (hfits : s.grantedSum ≤ s.effectiveBudget)
    (hdisjoint : ∀ x, s.supply.granted.has x = true → s.supply.waiting.has x = false)
    (hrun : s.supply.waiting.compRun = false) : GrantsFit s :=
  ⟨hfits.trans (effectiveBudget_le s), .inl hfits, hdisjoint, hrun⟩

theorem GrantsFit.congr {s t : State} (hs : GrantsFit s) (hloads : t.tables.loads = s.tables.loads)
    (hstate : t.supply.state = s.supply.state) (hgranted : t.supply.granted = s.supply.granted)
    (hwaiting : t.supply.waiting = s.supply.waiting) : GrantsFit t := by
  have hbudget : t.effectiveBudget = s.effectiveBudget := by simp only [State.effectiveBudget, hstate, hloads]
  have hsum : t.grantedSum = s.grantedSum := by simp only [State.grantedSum, hloads, hgranted]
  refine ⟨?_, ?_, ?_, ?_⟩
  · rw [hsum, hloads]; exact hs.table
  · rw [hsum, hbudget, hstate, hgranted]; exact hs.budget
  · rw [hgranted, hwaiting]; exact hs.disjoint
  · rw [hwaiting]; exact hs.runNotAsked

/-- A load leaves both sets. -/
def drop (x : Load) (s : State) : State :=
  { s with supply.granted := s.supply.granted.put x false, supply.waiting := s.supply.waiting.put x false }

/-- A load waits. -/
def await (x : Load) (s : State) : State := { s with supply.waiting := s.supply.waiting.put x true }

theorem release_eq (x : Load) (s : State) : release x s = grantRule (drop x s) := rfl

theorem request_eq (x : Load) (s : State) : request x s =
    if s.supply.granted.has x || s.supply.waiting.has x then s else grantRule (await x s) := rfl

/-- With a load less the sum still fits, or the MOTOR or PAYOUT grant that is left is carried through the sag. -/
theorem GrantsFit.lose {s t : State} (hs : GrantsFit s) (x : Load) (hloads : t.tables.loads = s.tables.loads)
    (hstate : t.supply.state = s.supply.state) (hgranted : t.supply.granted = s.supply.granted.put x false)
    (hdisjoint : ∀ y, t.supply.granted.has y = true → t.supply.waiting.has y = false)
    (hrun : t.supply.waiting.compRun = false) : GrantsFit t := by
  have hsum : t.grantedSum ≤ s.grantedSum := by
    simp only [State.grantedSum, hloads, hgranted]
    exact sum_put_false_le _ _ _
  have hbudget : t.effectiveBudget = s.effectiveBudget := by simp only [State.effectiveBudget, hstate, hloads]
  refine ⟨?_, ?_, hdisjoint, hrun⟩
  · rw [hloads]; exact hsum.trans hs.table
  · rcases hs.budget with hfits | ⟨hsag, -, hheater, hcompRun, hcompStart⟩
    · exact .inl (by rw [hbudget]; exact hsum.trans hfits)
    · have hother (y : Load) (h : s.supply.granted.has y = false) : t.supply.granted.has y = false := by
        rw [hgranted, has_put]
        split
        · rfl
        · exact h
      have hheater' : t.supply.granted.heater = false := hother .heater hheater
      have hcompRun' : t.supply.granted.compRun = false := hother .compRun hcompRun
      have hcompStart' : t.supply.granted.compStart = false := hother .compStart hcompStart
      by_cases hcarried : t.supply.granted.motor = true ∨ t.supply.granted.payout = true
      · exact .inr ⟨hstate.trans hsag, hcarried, hheater', hcompRun', hcompStart'⟩
      · simp only [not_or, Bool.not_eq_true] at hcarried
        obtain ⟨hmotor, hpayout⟩ := hcarried
        refine .inl ?_
        simp [State.grantedSum, LoadTable.sum, hheater', hcompRun', hcompStart', hmotor, hpayout]

theorem GrantsFit.drop {s : State} (hs : GrantsFit s) (x : Load) : GrantsFit (drop x s) := by
  refine hs.lose (t := Machine.drop x s) x rfl rfl rfl (fun y hy => ?_) ?_
  · simp only [Machine.drop, has_put] at hy ⊢
    split at hy
    · simp at hy
    next h => rw [if_neg h]; exact hs.disjoint y hy
  · have hrun : s.supply.waiting.has .compRun = false := hs.runNotAsked
    show (s.supply.waiting.put x false).has .compRun = false
    rw [has_put]
    split
    · rfl
    · exact hrun

theorem GrantsFit.await {s : State} (hs : GrantsFit s) {x : Load} (hx : x ≠ .compRun)
    (hg : s.supply.granted.has x = false) : GrantsFit (await x s) := by
  refine ⟨hs.table, hs.budget, fun y hy => ?_, ?_⟩
  · simp only [Machine.await, has_put]
    split
    next h => subst h; exact absurd hy (by simp [Machine.await, hg])
    next => exact hs.disjoint y hy
  · have hrun : s.supply.waiting.has .compRun = false := hs.runNotAsked
    show (s.supply.waiting.put x true).has .compRun = false
    rw [has_put, if_neg (Ne.symm hx)]
    exact hrun

/-- What the grant rule leaves of the two sets. -/
theorem grantRule_has (s : State) (x : Load) :
    ((grantRule s).supply.granted.has x = true → s.supply.granted.has x = true ∨ s.supply.waiting.has x = true) ∧
    (s.supply.granted.has x = true → (grantRule s).supply.granted.has x = true) ∧
    ((grantRule s).supply.waiting.has x = true → s.supply.waiting.has x = true) := by
  obtain ⟨hmoves, hwaits⟩ := grantLoop_moves s.tables.loads s.effectiveBudget grantPriority s.supply.granted
    s.supply.waiting x
  exact ⟨fun h => (hmoves.1 h).imp_right And.left, fun h => hmoves.2 (.inl h), hwaits⟩

theorem grantRule_run (s : State) : (grantRule s).supply.granted.compRun = s.supply.granted.compRun ∧
    (grantRule s).supply.waiting.compRun = s.supply.waiting.compRun :=
  grantLoop_other (y := .compRun) s.tables.loads s.effectiveBudget grantPriority _ _ (by decide)

theorem GrantsFit.grantRule {s : State} (hs : GrantsFit s) : GrantsFit (grantRule s) := by
  have hstate : (Machine.grantRule s).supply.state = s.supply.state := rfl
  by_cases hfits : s.grantedSum ≤ s.effectiveBudget
  · refine .ofFits (grantLoop_sum_le _ _ _ _ _ hfits) (grantLoop_disjoint _ _ _ _ _ hs.disjoint) ?_
    rw [(grantRule_run s).2]
    exact hs.runNotAsked
  · have hover := grantLoop_over s.tables.loads s.effectiveBudget grantPriority s.supply.granted s.supply.waiting
      (Nat.lt_of_not_le hfits)
    exact hs.congr rfl rfl (congrArg Prod.fst hover) (congrArg Prod.snd hover)

/-! ### The loads' owners -/

/-- The compressor's and the start's part of the budget law (R102 to R104, R119, R127). -/
structure Cooling (s : State) : Prop where
  startAsked : s.supply.waiting.compStart = true → s.cold.state = .awaitGrant
  startHeld : s.supply.granted.compStart = true → s.cold.state = .awaitGrant ∨ s.cold.state = .starting
  starting : s.active = true → s.cold.state = .starting → s.supply.granted.compStart = true
  runHeld : s.supply.granted.compRun = true → s.cold.state = .running
  probing : ∀ c, s.phase = .restoring c ∨ s.phase = .probing c → s.cold.state = .lockedOff ∧ s.cold.offTimer = none

theorem Cooling.congr {s t : State} (hs : Cooling s) (hgranted : t.supply.granted = s.supply.granted)
    (hwaiting : t.supply.waiting = s.supply.waiting) (hstate : t.cold.state = s.cold.state)
    (hoff : t.cold.offTimer = s.cold.offTimer) (hphase : t.phase = s.phase) : Cooling t := by
  refine ⟨?_, ?_, ?_, ?_, ?_⟩
  · rw [hwaiting, hstate]; exact hs.startAsked
  · rw [hgranted, hstate]; exact hs.startHeld
  · rw [active_congr hphase, hgranted, hstate]; exact hs.starting
  · rw [hgranted, hstate]; exact hs.runHeld
  · rw [hphase, hstate, hoff]; exact hs.probing

theorem Cooling.grantRule {s : State} (hs : Cooling s) : Cooling (grantRule s) := by
  obtain ⟨hgiven, hkept, hwaits⟩ := grantRule_has s .compStart
  refine ⟨fun h => hs.startAsked (hwaits h), fun h => ?_, fun ha h => hkept (hs.starting ha h), fun h => ?_, hs.probing⟩
  · rcases hgiven h with hg | hw
    · exact hs.startHeld hg
    · exact .inl (hs.startAsked hw)
  · rw [(grantRule_run s).1] at h
    exact hs.runHeld h

/-- A load that is not the compressor's leaves or waits. -/
theorem Cooling.otherLoad {s t : State} (hs : Cooling s)
    (hgranted : ∀ x, x = .compStart ∨ x = .compRun → t.supply.granted.has x = s.supply.granted.has x)
    (hwaiting : t.supply.waiting.compStart = s.supply.waiting.compStart) (hcold : t.cold = s.cold)
    (hphase : t.phase = s.phase) : Cooling t := by
  have hstart : t.supply.granted.compStart = s.supply.granted.compStart := hgranted .compStart (.inl rfl)
  have hrun : t.supply.granted.compRun = s.supply.granted.compRun := hgranted .compRun (.inr rfl)
  refine ⟨?_, ?_, ?_, ?_, ?_⟩
  · rw [hwaiting, hcold]; exact hs.startAsked
  · rw [hstart, hcold]; exact hs.startHeld
  · rw [active_congr hphase, hstart, hcold]; exact hs.starting
  · rw [hrun, hcold]; exact hs.runHeld
  · rw [hphase, hcold]; exact hs.probing

/-- The owner of a load: PAYOUT the payout in flight, MOTOR a vend or a service operation (R44, R71, R86). -/
def Owned (x : Load) (s : State) : Prop :=
  match x with
  | .payout => s.change.payout.isSome = true
  | .motor => s.drive.vend.isSome = true ∨ s.drive.service.isSome = true
  | .compStart | .compRun | .heater => True

/-- The budget law of an active part. -/
structure Budgeted (s : State) : Prop where
  fit : GrantsFit s
  cooling : Cooling s
  owned : ∀ x, s.supply.asked x → Owned x s
  active : s.active = true

theorem BudgetLaw.fit {s : State} (h : BudgetLaw s) : GrantsFit s := ⟨h.table, h.budget, h.disjoint, h.runNotAsked⟩

theorem BudgetLaw.cooling {s : State} (h : BudgetLaw s) : Cooling s :=
  ⟨h.startAsked, h.startHeld, h.starting, h.runHeld, h.probing⟩

theorem BudgetLaw.owned {s : State} (h : BudgetLaw s) (x : Load) (hx : s.supply.asked x) : Owned x s := by
  cases x
  · exact h.payoutOwner hx
  · exact h.motorOwner hx
  · trivial
  · trivial
  · trivial

theorem BudgetLaw.budgeted {s : State} (h : BudgetLaw s) (ha : s.active = true) : Budgeted s :=
  ⟨h.fit, h.cooling, h.owned, ha⟩

theorem BudgetLaw.ofParts {s : State} (hfit : GrantsFit s) (hcooling : Cooling s)
    (howned : ∀ x, s.supply.asked x → Owned x s)
    (hstopped : s.active = false → s.supply.granted = .none ∧ s.supply.waiting = .none) : BudgetLaw s :=
  ⟨hfit.table, hfit.budget, hfit.disjoint, hfit.runNotAsked, fun h => howned .payout h, fun h => howned .motor h,
    hcooling.startAsked, hcooling.startHeld, hcooling.starting, hcooling.runHeld, hcooling.probing, hstopped⟩

theorem Budgeted.law {s : State} (h : Budgeted s) : BudgetLaw s :=
  .ofParts h.fit h.cooling h.owned fun hoff => absurd h.active (by simp [hoff])

/-- Nothing granted, nothing waiting, and the compressor locked off. -/
theorem budgetLaw_idle {s : State} (hgranted : s.supply.granted = .none) (hwaiting : s.supply.waiting = .none)
    (hcooling : Cooling s) : BudgetLaw s := by
  refine .ofParts ?_ hcooling (fun x hx => ?_) fun _ => ⟨hgranted, hwaiting⟩
  · refine .ofFits ?_ (fun x hx => by simp [hgranted] at hx) (by rw [hwaiting]; rfl)
    simp [State.grantedSum, hgranted, LoadTable.sum, LoadSet.none]
  · simp [Supply.asked, hgranted, hwaiting] at hx

theorem Budgeted.ite {c : Prop} [Decidable c] {t u : State} (ht : Budgeted t) (hu : Budgeted u) :
    Budgeted (if c then t else u) := by
  split
  · exact ht
  · exact hu

/-- The parts the budget law reads. -/
def budgetParts : List Part := [.tables, .supply, .grants, .payout, .vendOp, .serviceOp, .compressor, .phase]

theorem Budgeted.congr {s t : State} (hs : Budgeted s) (hloads : t.tables.loads = s.tables.loads)
    (hstate : t.supply.state = s.supply.state) (hgranted : t.supply.granted = s.supply.granted)
    (hwaiting : t.supply.waiting = s.supply.waiting) (hcomp : t.cold.state = s.cold.state)
    (hoff : t.cold.offTimer = s.cold.offTimer) (hphase : t.phase = s.phase)
    (howned : ∀ x, Owned x s → Owned x t) : Budgeted t where
  fit := hs.fit.congr hloads hstate hgranted hwaiting
  cooling := hs.cooling.congr hgranted hwaiting hcomp hoff hphase
  owned x hx := howned x (hs.owned x (by unfold Supply.asked at hx ⊢; rwa [hgranted, hwaiting] at hx))
  active := (active_congr hphase).trans hs.active

/-- Neither the budget nor an operation that owns a load has changed; a payout in flight may have been revised. -/
theorem Budgeted.revised {ps : List Part} {s t : State} (hs : Budgeted s) (h : Alters ps s t)
    (hpayout : s.change.payout.isSome = true → t.change.payout.isSome = true)
    (hp : Apart [.tables, .supply, .grants, .vendOp, .serviceOp, .compressor, .phase] ps := by
      exact (apart_iff _ _).1 rfl) : Budgeted t := by
  have htables : t.tables = s.tables := h .tables (hp _ (by decide))
  obtain ⟨hstate, -⟩ := h .supply (hp _ (by decide))
  obtain ⟨hgranted, hwaiting⟩ := h .grants (hp _ (by decide))
  obtain ⟨hcomp, hoff, -⟩ := h .compressor (hp _ (by decide))
  have hvend : t.drive.vend = s.drive.vend := h .vendOp (hp _ (by decide))
  have hservice : t.drive.service = s.drive.service := h .serviceOp (hp _ (by decide))
  refine hs.congr (by rw [htables]) hstate hgranted hwaiting hcomp hoff (h .phase (hp _ (by decide))) fun x hx => ?_
  cases x
  · exact hpayout hx
  · simpa only [Owned, hvend, hservice] using hx
  · trivial
  · trivial
  · trivial

theorem Budgeted.alters {ps : List Part} {s t : State} (hs : Budgeted s) (h : Alters ps s t)
    (hp : Apart budgetParts ps := by exact (apart_iff _ _).1 rfl) : Budgeted t := by
  have hpayout : t.change.payout = s.change.payout := h .payout (hp _ (by decide))
  exact hs.revised h (fun hs => by rwa [hpayout]) fun p hq => hp p (by simp_all [budgetParts]; tauto)

theorem Budgeted.raise {s : State} (hs : Budgeted s) (k : EventKind) (x : Option Nat) (v : Option Word32) :
    Budgeted (raise k x v s) := hs.alters (raise_alters k x v s)

/-- A load's owner is unchanged by the rule that grants it. -/
theorem owned_grantRule {x : Load} {s : State} : Owned x (grantRule s) ↔ Owned x s := by cases x <;> exact Iff.rfl

theorem Budgeted.grantRule {s : State} (hs : Budgeted s) : Budgeted (grantRule s) where
  fit := hs.fit.grantRule
  cooling := hs.cooling.grantRule
  active := hs.active
  owned x hx := by
    obtain ⟨hgiven, -, hwaits⟩ := grantRule_has s x
    exact owned_grantRule.2 (hs.owned x (hx.elim hgiven fun h => .inr (hwaits h)))

/-- A load is asked for by its owner (R117, R118). -/
theorem Budgeted.request {s t : State} (hs : Budgeted s) (x : Load) (hx : x ≠ .compRun)
    (hloads : t.tables.loads = s.tables.loads) (hstate : t.supply.state = s.supply.state)
    (hgranted : t.supply.granted = s.supply.granted) (hwaiting : t.supply.waiting = s.supply.waiting)
    (hphase : t.phase = s.phase) (hcooling : Cooling (await x t)) (hcool : Cooling t)
    (howned : ∀ y, (y = x ∨ Owned y s) → Owned y t) : Budgeted (request x t) := by
  have hfit := hs.fit.congr hloads hstate hgranted hwaiting
  have hactive := (active_congr hphase).trans hs.active
  have hasked (y : Load) (hy : t.supply.asked y) : Owned y t :=
    howned y (.inr (hs.owned y (by unfold Supply.asked at hy ⊢; rwa [hgranted, hwaiting] at hy)))
  rw [request_eq]
  split
  next => exact ⟨hfit, hcool, hasked, hactive⟩
  next h =>
    simp only [Bool.or_eq_true, not_or, Bool.not_eq_true] at h
    obtain ⟨hfree, -⟩ := h
    refine Budgeted.grantRule ⟨hfit.await hx hfree, hcooling, fun y hy => ?_, hactive⟩
    have howns : Owned y t := by
      by_cases hyx : y = x
      · exact howned y (.inl hyx)
      · exact hasked y (by simpa [Supply.asked, await, hyx] using hy)
    cases y <;> exact howns

/-- A load is released or withdrawn (R117, R118). -/
theorem Budgeted.release {s t : State} (hs : Budgeted s) (x : Load)
    (hloads : t.tables.loads = s.tables.loads) (hstate : t.supply.state = s.supply.state)
    (hgranted : t.supply.granted = s.supply.granted) (hwaiting : t.supply.waiting = s.supply.waiting)
    (hphase : t.phase = s.phase) (hcooling : Cooling (drop x t))
    (howned : ∀ y, y ≠ x → Owned y s → Owned y t) : Budgeted (release x t) := by
  have hfit := hs.fit.congr hloads hstate hgranted hwaiting
  rw [release_eq]
  refine Budgeted.grantRule ⟨hfit.drop x, hcooling, fun y hy => ?_, (active_congr hphase).trans hs.active⟩
  have howns : Owned y t := by
    have hyx : y ≠ x := by
      rintro rfl
      simp [Supply.asked, drop] at hy
    refine howned y hyx (hs.owned y ?_)
    unfold Supply.asked at hy ⊢
    rw [← hgranted, ← hwaiting]
    simpa [drop, hyx] using hy
  cases y <;> exact howns

/-- A load of another unit's is asked for. -/
theorem Budgeted.requestBy {s t : State} (hs : Budgeted s) (x : Load) (hx : x ≠ .compRun ∧ x ≠ .compStart)
    (htables : t.tables.loads = s.tables.loads) (hsupply : t.supply = s.supply) (hcold : t.cold = s.cold)
    (hphase : t.phase = s.phase) (howned : ∀ y, (y = x ∨ Owned y s) → Owned y t) : Budgeted (Machine.request x t) := by
  have hcool : Cooling t := hs.cooling.congr (by rw [hsupply]) (by rw [hsupply]) (by rw [hcold]) (by rw [hcold]) hphase
  refine hs.request x hx.1 htables (by rw [hsupply]) (by rw [hsupply]) (by rw [hsupply]) hphase ?_ hcool howned
  refine hcool.otherLoad (fun _ _ => rfl) ?_ rfl rfl
  show (t.supply.waiting.put x true).has .compStart = t.supply.waiting.has .compStart
  rw [has_put, if_neg (Ne.symm hx.2)]

/-- A load of another unit's is released. -/
theorem Budgeted.releaseBy {s t : State} (hs : Budgeted s) (x : Load) (hx : x ≠ .compRun ∧ x ≠ .compStart)
    (htables : t.tables.loads = s.tables.loads) (hsupply : t.supply = s.supply) (hcold : t.cold = s.cold)
    (hphase : t.phase = s.phase) (howned : ∀ y, y ≠ x → Owned y s → Owned y t) : Budgeted (Machine.release x t) := by
  have hcool : Cooling t := hs.cooling.congr (by rw [hsupply]) (by rw [hsupply]) (by rw [hcold]) (by rw [hcold]) hphase
  refine hs.release x htables (by rw [hsupply]) (by rw [hsupply]) (by rw [hsupply]) hphase ?_ howned
  refine hcool.otherLoad (fun y hy => ?_) ?_ rfl rfl
  · show (t.supply.granted.put x false).has y = t.supply.granted.has y
    rw [has_put, if_neg]
    rintro rfl
    rcases hy with hy | hy
    · exact hx.2 hy
    · exact hx.1 hy
  · show (t.supply.waiting.put x false).has .compStart = t.supply.waiting.has .compStart
    rw [has_put, if_neg (Ne.symm hx.2)]

end Sys2Proof.Machine
end

