-- ==== Sys2Proof/Proofs/LoadMoney.lean ====
section
/-! The load budget through tubes, payouts and the money a report brings (R5, R44, R117): a payout in flight keeps its
record while it is revised, begins with its request for PAYOUT and ends with its release. -/

/- One lemma after another, to keep the memory of a compile small. -/
set_option Elab.async false

namespace Sys2Proof.Machine

/-! ### A payout in flight stays in flight -/

/-- A payout in flight is still in flight. -/
def PayoutStays (s t : State) : Prop := s.change.payout.isSome = true → t.change.payout.isSome = true

theorem PayoutStays.refl (s : State) : PayoutStays s s := id

theorem PayoutStays.trans {s t u : State} (h1 : PayoutStays s t) (h2 : PayoutStays t u) : PayoutStays s u := h2 ∘ h1

theorem PayoutStays.frame {ps : List Part} {s t : State} (h : Alters ps s t) (hp : .payout ∉ ps := by decide) :
    PayoutStays s t := by
  have hpayout : t.change.payout = s.change.payout := h .payout hp
  unfold PayoutStays
  rw [hpayout]
  exact id

theorem PayoutStays.ite {c : Prop} [Decidable c] {s t u : State} (ht : PayoutStays s t) (hu : PayoutStays s u) :
    PayoutStays s (if c then t else u) := by
  split
  · exact ht
  · exact hu

theorem PayoutStays.map {s t : State} (f : Payout → Payout) (h : t.change.payout = s.change.payout.map f) :
    PayoutStays s t := by
  unfold PayoutStays
  simp [h]

theorem PayoutStays.foldl {α : Type} {f : State → α → State} (hf : ∀ s a, PayoutStays s (f s a)) (l : List α)
    (s : State) : PayoutStays s (l.foldl f s) := by
  induction l generalizing s with
  | nil => exact .refl s
  | cons a l ih => exact (hf s a).trans (ih _)

theorem payoutStays_markReplan (s : State) : PayoutStays s (markReplan s) := .map _ rfl

theorem payoutStays_rawCond (n : Nat) (c : TubeCond) (s : State) : PayoutStays s (rawCond n c s) := by
  have hset : PayoutStays s { modTube n (fun t => { t with cond := c }) s with change.shortWait := false } :=
    fun h => h
  exact .ite (.refl s) (.ite (hset.trans (payoutStays_markReplan _))
    ((hset.trans (payoutStays_markReplan _)).trans (.map _ rfl)))

theorem payoutStays_correctCount (n : Nat) (w : Correction) (k : Nat) (s : State) :
    PayoutStays s (correctCount n w k s) :=
  ((PayoutStays.frame (rawCount_alters n k s)).trans (.frame (raiseCorrected_alters n w _ k _))).trans (.map _ rfl)

theorem payoutStays_reconcile (n : Nat) (s : State) : PayoutStays s (reconcile n s) :=
  .ite (.ite ((payoutStays_rawCond n .faulted s).trans (.frame (raiseTubeFault_alters n 0 _))) (.refl s))
    (.ite (payoutStays_correctCount _ _ _ s) (.ite (payoutStays_correctCount _ _ _ s)
      (.ite (payoutStays_correctCount _ _ _ s) (.refl s))))

theorem payoutStays_levelRead (n : Nat) (full : Bool) (s : State) (c : Bool) :
    PayoutStays s (levelRead n full s c) := by
  unfold levelRead
  dsimp only
  split
  · exact .frame (modTube_alters _ _ s)
  · exact .ite (((PayoutStays.frame (modTube_alters _ _ s)).trans (payoutStays_reconcile n _)).trans
      (.frame (afterTubesIf_alters _ _))) (.frame (modTube_alters _ _ s))

theorem payoutStays_coinIntoTube (n : Nat) (s : State) : PayoutStays s (coinIntoTube n s) :=
  .ite (((PayoutStays.frame (rawCount_alters n _ s)).trans (.frame (raiseCorrected_alters n _ _ _ _))).trans
    (payoutStays_reconcile n _)) ((PayoutStays.frame (rawCount_alters n _ s)).trans (payoutStays_reconcile n _))

theorem payoutStays_replan (s : State) : PayoutStays s (replan s) := .map _ rfl

theorem payoutStays_decideTube (n : Nat) (s : State) : PayoutStays s (decideTube n s).1 := by
  unfold decideTube
  split
  · exact (((PayoutStays.frame (rawCount_alters n 0 s)).trans (.frame (raiseCorrected_alters n _ _ 0 _))).trans
      (payoutStays_reconcile n _)).trans (payoutStays_markReplan _)
  · split
    · exact ((payoutStays_rawCond n .faulted s).trans (.frame (raiseTubeFault_alters n 1 _))).trans
        (payoutStays_markReplan _)
    · exact payoutStays_markReplan s

theorem payoutStays_miss (n : Nat) (b : Bool) (s : State) : PayoutStays s (miss n b s).1 := by
  unfold miss
  split
  · exact (payoutStays_decideTube n s).trans (.frame (afterTubesIf_alters s _))
  · exact .map _ rfl

theorem payoutStays_replanIfMarked (s : State) : PayoutStays s (replanIfMarked s) := by
  unfold replanIfMarked
  split
  · exact .ite (payoutStays_replan s) (.refl s)
  · exact .refl s

theorem payoutStays_addReturnDue (a : Nat) (s : State) : PayoutStays s (addReturnDue a s) := by
  have hmarked (d : Nat) (c : Prop) [Decidable c] : PayoutStays s (if c then { s with credit.returnDue := d }
      else markReplan { s with credit.returnDue := d, change.shortWait := false }) :=
    .ite (fun h => h) (.map _ rfl)
  have haudit (u : State) (x : Audit) : PayoutStays u { u with audit := x } := fun h => h
  exact .ite (hmarked _ _) (((hmarked _ _).trans (haudit _ _)).trans (.frame (raise_alters _ _ _ _)))

/-! ### Payouts -/

/-- A payout begins, or a new one is recorded, with its request for PAYOUT (R5, R44). -/
theorem Budgeted.startPayout {s : State} (hs : Budgeted s) (k : PayoutKind) : Budgeted (startPayout k s) := by
  refine Budgeted.alters ?_ (setSale_alters _)
  refine hs.requestBy .payout (by decide) rfl rfl rfl rfl fun y hy => ?_
  cases y
  · rfl
  · exact hy.resolve_left (by decide)
  · trivial
  · trivial
  · trivial

theorem Budgeted.payoutTest {s : State} (hs : Budgeted s) : Budgeted (payoutTest s) := by
  unfold Machine.payoutTest
  split
  · exact hs.startPayout _
  · exact hs

/-- A payout ends with the release of PAYOUT (R44). -/
theorem Budgeted.endPayout {s : State} (hs : Budgeted s) : Budgeted (endPayout s) := by
  refine Budgeted.alters ?_ (setSale_alters _)
  refine hs.releaseBy .payout (by decide) rfl rfl rfl rfl fun y hy h => ?_
  cases y
  · exact absurd rfl hy
  · exact h
  · trivial
  · trivial
  · trivial

theorem Budgeted.addReturnDue {s : State} (hs : Budgeted s) (a : Nat) : Budgeted (addReturnDue a s) :=
  hs.revised (addReturnDue_alters a s) (payoutStays_addReturnDue a s)

theorem Budgeted.creditToReturn {s : State} (hs : Budgeted s) : Budgeted (creditToReturn s) := by
  refine Budgeted.addReturnDue ?_ _
  exact hs.alters (ps := [.amounts]) (by intro p hp; cases p <;> simp_all [Part.same])

theorem Budgeted.setSale {s : State} (hs : Budgeted s) : Budgeted (setSale s) := hs.alters (setSale_alters s)

theorem Budgeted.returnAll {s : State} (hs : Budgeted s) : Budgeted (returnAll s) :=
  Budgeted.alters (Budgeted.payoutTest (Budgeted.setSale (hs.creditToReturn.alters (shortWait_alters false _))))
    (masksIfHeld_alters s _)

theorem Budgeted.returnLever {s : State} (hs : Budgeted s) : Budgeted (returnLever s) := by
  unfold Machine.returnLever
  split
  · exact hs
  · exact .ite hs hs.returnAll
  · exact hs.returnAll
  · exact hs.alters (ps := [.pendingReturn]) (by intro p hp; cases p <;> simp_all [Part.same])

theorem Budgeted.creditMoney {s : State} (hs : Budgeted s) (k : EventKind) (x v : Nat) :
    Budgeted (creditMoney k x v s) := by
  have hcredited : Budgeted { s with
      credit.credit := s.credit.credit + min v s.headroom, audit.cashIn := addTotal s.audit.cashIn v } :=
    hs.alters (ps := [.amounts, .audit]) (by intro p hp; cases p <;> simp_all [Part.same])
  unfold Machine.creditMoney
  dsimp only
  refine Budgeted.alters (Budgeted.payoutTest (Budgeted.setSale ?_)) (recomputeMasks_alters _)
  exact .ite (hcredited.raise _ _ _) (((hcredited.raise _ _ _).addReturnDue _).raise _ _ _)

theorem Budgeted.removeEscrow {s : State} (hs : Budgeted s) : Budgeted (removeEscrow s) :=
  hs.alters (removeEscrow_alters s)

theorem Budgeted.noteStacked {s : State} (hs : Budgeted s) (n : Nat) : Budgeted (noteStacked n s) := by
  unfold Machine.noteStacked
  dsimp only
  split
  · split
    · split
      · refine Budgeted.alters (Budgeted.setSale (Budgeted.raise ?_ _ _ _)) (recomputeMasks_alters _)
        exact hs.alters (ps := [.amounts, .audit, .escrow, .cmdQueue]) (by
          intro p hp; cases p <;> simp_all [Part.same, Machine.removeEscrow])
      · exact hs.removeEscrow.creditMoney _ _ _
    · exact hs.creditMoney _ _ _
  · exact hs.creditMoney _ _ _

theorem Budgeted.expireEscrow {s : State} (hs : Budgeted s) : Budgeted (expireEscrow s) := by
  unfold Machine.expireEscrow
  split
  · exact hs
  · exact Budgeted.alters (Budgeted.setSale (hs.removeEscrow.raise _ _ _)) (recomputeMasks_alters _)

theorem Budgeted.noteEscrow {s : State} (hs : Budgeted s) (n : Nat) : Budgeted (noteEscrow n s) := by
  have hheld (e : Option Escrow) (k : Nat) : Budgeted { s with credit.escrow := e, credit.escrowReserve := k } :=
    hs.alters (ps := [.escrow, .amounts]) (by intro p hp; cases p <;> simp_all [Part.same])
  have hnoted (e : Option Escrow) : Budgeted { s with credit.escrow := e } :=
    hs.alters (ps := [.escrow]) (by intro p hp; cases p <;> simp_all [Part.same])
  unfold Machine.noteEscrow
  split
  · exact hs.alters (placeEscrow_alters _ _ _ s)
  · split
    · exact (((hheld _ _).setSale).alters (placeEscrow_alters _ _ _ _)).alters (recomputeMasks_alters _)
    · exact (hnoted _).alters (placeEscrow_alters _ _ _ _)

theorem Budgeted.noteReturned {s : State} (hs : Budgeted s) (n : Nat) : Budgeted (noteReturned n s) := by
  unfold Machine.noteReturned
  split
  · split
    · have hraised := hs.removeEscrow.raise .noteReturned (some n) (val (s.tables.note n).value)
      dsimp only
      split
      · exact hraised.setSale.alters (recomputeMasks_alters _)
      · exact hraised
    · exact hs
  · exact hs

theorem Budgeted.takeCoin {s : State} (hs : Budgeted s) (k : Nat) : Budgeted (takeCoin k s) := by
  unfold Machine.takeCoin
  dsimp only
  split
  · refine Budgeted.alters (Budgeted.raise ?_ _ _ _) (recomputeMasks_alters _)
    exact hs.alters (ps := [.audit]) (by intro p hp; cases p <;> simp_all [Part.same])
  · exact hs.creditMoney _ _ _

theorem Budgeted.coinTube {s : State} (hs : Budgeted s) (k : Nat) : Budgeted (coinTube k s) := by
  unfold Machine.coinTube
  split
  · exact hs.takeCoin k
  next n _ =>
    exact ((hs.revised (coinIntoTube_alters n s) (payoutStays_coinIntoTube n s)).alters (evalExactIf_alters s _)).takeCoin k

theorem Budgeted.reports : ReportsKeep Budgeted where
  quiet h hs := hs.alters h
  coinTube k _ hs := hs.coinTube k
  takeCoin k _ hs := hs.takeCoin k
  returnLever _ hs := hs.returnLever
  noteEscrow n _ hs := hs.noteEscrow n
  noteStacked n _ hs := hs.noteStacked n
  noteReturned n _ hs := hs.noteReturned n
  expireEscrow _ hs := hs.expireEscrow

theorem Budgeted.payoutShort {s : State} (hs : Budgeted s) : Budgeted (payoutShort s) := by
  refine Budgeted.alters (Budgeted.endPayout ?_) (masksIfHeld_alters s _)
  refine Budgeted.alters (Budgeted.raise ?_ .payoutShort none (val s.credit.returnDue)) (shortWait_alters true _)
  exact hs.alters (ps := [.amounts]) (by intro p hp; cases p <;> simp_all [Part.same])

theorem Budgeted.pulse {s : State} (hs : Budgeted s) (n : Nat) : Budgeted (pulse n s) :=
  hs.revised (pulse_alters n s) (PayoutStays.map _ rfl)

theorem Budgeted.replan {s : State} (hs : Budgeted s) : Budgeted (replan s) :=
  hs.revised (replan_alters s) (payoutStays_replan s)

theorem Budgeted.pulseOrShort {s : State} (hs : Budgeted s) : Budgeted (pulseOrShort s) := by
  unfold Machine.pulseOrShort
  split
  · exact hs.pulse _
  · exact hs.payoutShort

theorem Budgeted.nextReturn {s : State} (hs : Budgeted s) : Budgeted (nextReturn s) := by
  unfold Machine.nextReturn
  split
  · exact hs
  · split
    · exact (hs.raise _ _ _).endPayout
    · split
      · exact hs.pulse _
      · split
        · exact hs.pulse _
        · exact hs.replan.pulseOrShort

theorem Budgeted.nextDrain {s : State} (hs : Budgeted s) (n l c : Nat) (v : Verdict) :
    Budgeted (nextDrain n l c v s) := by
  have hdone (e : DrainEnding) : Budgeted (drainDone n c e s) := (hs.raise _ _ _).endPayout
  exact .ite (hdone _) (.ite (hdone _) (.ite (hdone _) (hs.pulse n)))

theorem Budgeted.afterWindow {s : State} (hs : Budgeted s) (v : Verdict) : Budgeted (afterWindow v s) := by
  unfold Machine.afterWindow
  split
  · exact hs
  · split
    · exact hs.nextReturn
    · exact hs.nextDrain _ _ _ _

/-- The payout in flight takes a new record. -/
theorem Budgeted.setPayout {s : State} (hs : Budgeted s) (p : Payout) :
    Budgeted { s with change.payout := some p } := hs.revised (setPayout_alters (some p) s) fun _ => rfl

theorem Budgeted.windowCloses {s : State} (hs : Budgeted s) : Budgeted (windowCloses s) := by
  unfold Machine.windowCloses
  split
  · exact hs
  · split
    · exact hs
    next p _ _ n _ =>
      refine Budgeted.afterWindow (Budgeted.revised ?_ (replanIfMarked_alters _) (payoutStays_replanIfMarked _)) _
      split
      · exact (hs.setPayout _).revised (miss_alters_parts _ _ _) (payoutStays_miss _ _ _)
      · exact hs.setPayout _

theorem Budgeted.payoutGiven {s : State} (hs : Budgeted s) : Budgeted (payoutGiven s) := by
  unfold Machine.payoutGiven
  split
  · exact hs
  · split
    · exact hs
    · dsimp only
      split
      · exact (hs.setPayout _).replan.pulseOrShort
      · exact (hs.setPayout _).pulse _

theorem Budgeted.countPaid {s : State} (hs : Budgeted s) (k : PayoutKind) (v : Nat) : Budgeted (countPaid k v s) := by
  unfold Machine.countPaid
  split
  · exact hs.alters (ps := [.amounts, .audit]) (by intro p hp; cases p <;> simp_all [Part.same])
  · exact hs.alters (ps := [.audit]) (by intro p hp; cases p <;> simp_all [Part.same])

theorem Budgeted.reconcile {s : State} (hs : Budgeted s) (n : Nat) : Budgeted (reconcile n s) :=
  hs.revised (reconcile_alters n s) (payoutStays_reconcile n s)

theorem Budgeted.mapPayout {s : State} (hs : Budgeted s) (f : Payout → Payout) :
    Budgeted { s with change.payout := s.change.payout.map f } :=
  hs.revised (mapPayout_alters f s) (PayoutStays.map f rfl)

theorem Budgeted.coinAtExit {s : State} (hs : Budgeted s) : Budgeted (coinAtExit s) := by
  have hstray : Budgeted { s with change.stray := satAdd Config.maxCount16 s.change.stray 1 } :=
    hs.alters (ps := [.stray]) (by intro p hp; cases p <;> simp_all [Part.same])
  have hcounted (n k v : Nat) (f : Payout → Payout) (x : PayoutKind) : Budgeted (Machine.setSale (Machine.countPaid x v
      { Machine.reconcile n (rawCount n k s) with
        change.payout := (Machine.reconcile n (rawCount n k s)).change.payout.map f })) :=
    ((((hs.alters (rawCount_alters n k s)).reconcile n).mapPayout f).countPaid x v).setSale
  unfold Machine.coinAtExit
  split
  · exact hstray
  · split
    · exact hstray
    · exact .ite ((hcounted _ _ _ _ _).alters (afterTubesIf_alters s _))
        ((hcounted _ _ _ _ _).alters (afterTubes_alters _))

/-! ### Vends -/

theorem Budgeted.afterVend {s : State} (hs : Budgeted s) (o : State) : Budgeted (afterVend o s) := by
  have hmark : Budgeted { s with credit.pendingReturn := false } :=
    hs.alters (ps := [.pendingReturn]) (by intro p hp; cases p <;> simp_all [Part.same])
  unfold Machine.afterVend
  dsimp only
  refine Budgeted.alters (Budgeted.payoutTest (Budgeted.setSale ?_)) (masksIfHeld_alters o _)
  split
  · exact hmark.creditToReturn.alters (shortWait_alters false _)
  · exact hs

theorem Budgeted.commitVend {s : State} (hs : Budgeted s) (i : Nat) : Budgeted (commitVend i s) := by
  have hpaid (a : Audit) (h : Nat) : Budgeted { countSale i { s with audit := a } with
      credit.vendHold := h, credit.inFlight := none } :=
    hs.alters (ps := [.audit, .sels, .amounts, .inFlight]) (by
      intro p hp; cases p <;> simp_all [Part.same, countSale, modSel])
  unfold Machine.commitVend
  split
  · exact hs
  · dsimp only
    refine Budgeted.raise ?_ _ _ _
    split
    · exact (hpaid _ _).creditToReturn
    · exact hpaid _ _
  · exact Budgeted.raise (hpaid _ _) _ _ _

theorem Budgeted.failVend {s : State} (hs : Budgeted s) (i : Nat) (w : VendFailure) : Budgeted (failVend i w s) :=
  hs.alters (failVend_alters_parts i w s)

/-- A vend's record goes with its MOTOR request, unless a service operation has it (R84). -/
theorem Budgeted.leaveVend {s : State} (hs : Budgeted s) : Budgeted (leaveVend s) := by
  unfold Machine.leaveVend
  split
  next hservice =>
    refine hs.congr rfl rfl rfl rfl rfl rfl rfl fun x hx => ?_
    cases x
    · exact hx
    · exact .inr hservice
    · trivial
    · trivial
    · trivial
  next =>
    refine hs.releaseBy .motor (by decide) rfl rfl rfl rfl fun y hy h => ?_
    cases y
    · exact h
    · exact absurd rfl hy
    · trivial
    · trivial
    · trivial

theorem Budgeted.vendSucceeds {s : State} (hs : Budgeted s) (v : VendOp) : Budgeted (vendSucceeds v s) :=
  Budgeted.afterVend ((hs.leaveVend.alters (advancePointer_alters _ _ _)).commitVend _) s

theorem Budgeted.vendFails {s : State} (hs : Budgeted s) (v : VendOp) (w : VendFailure) :
    Budgeted (vendFails v w s) := Budgeted.afterVend (hs.leaveVend.failVend _ w) s

/-- A service operation's record goes with its MOTOR grant, for which a waiting vend then asks (R71). -/
theorem Budgeted.leaveService {s : State} (hs : Budgeted s) : Budgeted (leaveService s) := by
  have hreleased : Budgeted (Machine.release .motor { stopMotor s with drive.service := none, drive.rev := none }) := by
    refine hs.releaseBy .motor (by decide) rfl rfl rfl rfl fun y hy h => ?_
    cases y
    · exact h
    · exact absurd rfl hy
    · trivial
    · trivial
    · trivial
  unfold Machine.leaveService
  dsimp only
  split
  next hvend =>
    refine hreleased.requestBy .motor (by decide) rfl rfl rfl rfl fun y hy => ?_
    cases y
    · exact hy.resolve_left (by decide)
    · exact .inl hvend
    · trivial
    · trivial
    · trivial
  next => exact hreleased

end Sys2Proof.Machine
end

