-- ==== Sys2Proof/Proofs/LoadDrive.lean ====
section
/-! The load budget through the Spiral Drive and the Refrigeration Controller (R70, R71, R86, R100 to R107, R119): each
operation that has asked for a load gives it up when it ends. -/

/- One lemma after another, to keep the memory of a compile small. -/
set_option Elab.async false

namespace Sys2Proof.Machine

/-! ### Vends and service operations -/

/-- The operations in flight stay in flight. -/
theorem Budgeted.setDrive {s : State} (hs : Budgeted s) (d : Drive)
    (hvend : s.drive.vend.isSome = true → d.vend.isSome = true)
    (hservice : s.drive.service.isSome = true → d.service.isSome = true) : Budgeted { s with drive := d } := by
  refine hs.congr rfl rfl rfl rfl rfl rfl rfl fun x hx => ?_
  cases x
  · exact hx
  · exact hx.imp hvend hservice
  · trivial
  · trivial
  · trivial

theorem Budgeted.turnSpiral {s : State} (hs : Budgeted s) (v : VendOp) (p j : Nat) : Budgeted (turnSpiral v p j s) :=
  hs.setDrive _ (fun _ => rfl) id

theorem Budgeted.vendGiven {s : State} (hs : Budgeted s) (v : VendOp) : Budgeted (vendGiven v s) := by
  unfold Machine.vendGiven
  split
  · exact hs.turnSpiral _ _ _
  · split
    · exact hs.turnSpiral _ _ _
    · exact hs.vendFails _ _

theorem Budgeted.homeReady {s : State} (hs : Budgeted s) (p : Nat) (w : HomeCause) : Budgeted (homeReady p w s) :=
  (hs.alters (setSpiral_alters p .ready s)).leaveService.raise _ _ _

theorem Budgeted.homeStalled {s : State} (hs : Budgeted s) (p : Nat) (w : HomeCause) : Budgeted (homeStalled p w s) :=
  ((hs.alters (setSpiral_alters p .stalled s)).leaveService.raise _ _ _).raise _ _ _

theorem Budgeted.serviceGiven {s : State} (hs : Budgeted s) (o : ServiceOp) : Budgeted (serviceGiven o s) := by
  have htold (o : ServiceOp) : Budgeted { s with drive.service := some o } := hs.setDrive _ id fun _ => rfl
  exact .ite (.ite ((htold _).homeReady _ _) ((htold _).alters (modSpiral_alters _ _ _)))
    ((htold _).alters (startRev_alters _ _))

theorem Budgeted.motorGiven {s : State} (hs : Budgeted s) : Budgeted (motorGiven s) := by
  unfold Machine.motorGiven
  split
  · exact hs
  · split
    · exact .ite hs (hs.serviceGiven _)
    · split
      · exact .ite hs (hs.vendGiven _)
      · exact hs

theorem Budgeted.probeDone {s : State} (hs : Budgeted s) (b : Bool) : Budgeted (probeDone b s) := by
  unfold Machine.probeDone
  split
  · exact hs
  next p _ =>
    have hread (f : SpiralRec → SpiralRec) : Budgeted (modSpiral p f { s with drive.probing := none }) :=
      (hs.alters (setProbing_alters none s)).alters (modSpiral_alters _ _ _)
    have hset (f g : SpiralRec → SpiralRec) (c : Prop) [Decidable c] :
        Budgeted (if c then modSpiral p g (modSpiral p f { s with drive.probing := none })
          else modSpiral p f { s with drive.probing := none }) :=
      .ite ((hread f).alters (modSpiral_alters _ _ _)) (hread f)
    exact .ite (.ite ((hset _ _ _).homeReady _ _) ((hset _ _ _).alters (startRev_alters _ _))) (hset _ _ _)

theorem Budgeted.motorStarts {s : State} (hs : Budgeted s) (b : Bool) : Budgeted (motorStarts b s) := by
  have hrow (x : Option Nat) (y : Option Rev) : Budgeted { s with drive.row := x, drive.rev := y } :=
    hs.setDrive _ id id
  unfold Machine.motorStarts
  split
  · exact hs
  · split
    · dsimp only
      split
      · exact .ite (hrow _ _) ((hrow _ _).alters (modSpiral_alters _ _ _))
      · exact (hrow _ _).setDrive _ (fun h => by simpa using h) id
    · exact hs

theorem Budgeted.endTest {s : State} (hs : Budgeted s) (r : Rev) : Budgeted (endTest r s) := by
  have hdone (v : Option Word32) (x : SpiralState) : Budgeted
      (setSpiral r.spiral x (Machine.raise .spiralTestDone (some r.spiral) v (Machine.leaveService s))) :=
    (hs.leaveService.raise _ _ _).alters (setSpiral_alters _ _ _)
  unfold Machine.endTest
  dsimp only
  split
  · exact .ite (hdone _ _) ((hdone _ _).alters (raiseSpiralFault_alters _ _ _))
  · exact hdone _ _

theorem Budgeted.moveOn {s : State} (hs : Budgeted s) (v : VendOp) (b : Bool) : Budgeted (moveOn v b s) := by
  have htried : Budgeted { s with drive.vend := some { v with tried := true }, drive.rev := none } :=
    hs.setDrive _ (fun _ => rfl) id
  unfold Machine.moveOn
  dsimp only
  split
  · exact Budgeted.vendFails ((htried.alters (modSel_alters _ _ _)).raise _ _ _) _ _
  · exact .ite (htried.turnSpiral _ _ _) (htried.vendFails _ _)

theorem Budgeted.windowPassed {s : State} (hs : Budgeted s) (v : VendOp) (r : Rev) :
    Budgeted (windowPassed v r s) := by
  unfold Machine.windowPassed
  split
  · exact hs.moveOn v true
  · split
    · exact hs.alters (startRev_alters _ s)
    · exact ((hs.alters (setSpiral_alters v.spiral .empty s)).raise .spiralEmpty (some v.spiral)
        (val v.revolutions)).moveOn v false

theorem Budgeted.stopped {s : State} (hs : Budgeted s) (r : Rev) : Budgeted (keepSwitch r (stopMotor s)) :=
  (hs.alters (stopMotor_alters s)).alters (keepSwitch_alters r _)

theorem Budgeted.revComplete {s : State} (hs : Budgeted s) (r : Rev) (n : Nat) : Budgeted (revComplete r n s) := by
  have hstored := (hs.stopped r).alters (storeTime_alters r.spiral n _)
  unfold Machine.revComplete
  dsimp only
  split
  · exact .ite ((hs.stopped r).homeReady _ _) (hstored.alters (enterTail_alters _ _))
  · split
    · exact hstored
    · exact .ite (hstored.vendSucceeds _) (hstored.alters (enterTail_alters _ _))

theorem Budgeted.revFails {s : State} (hs : Budgeted s) (r : Rev) (f : Failure) : Budgeted (revFails r f s) := by
  have hfault := ((hs.stopped r).alters (setSpiral_alters r.spiral f.state _)).alters
    (raiseSpiralFault_alters r.spiral f _)
  unfold Machine.revFails
  dsimp only
  split
  · exact .ite ((hs.stopped r).homeStalled _ _) ((hs.stopped r).alters (enterTail_alters _ _))
  · split
    · exact hs.stopped r
    · exact .ite (hfault.moveOn _ _) (.ite (hfault.vendSucceeds _) (hfault.alters (enterTail_alters _ _)))

theorem Budgeted.switchCloses {s : State} (hs : Budgeted s) (l : List Bool) (n : Nat) :
    Budgeted (switchCloses l n s) := by
  unfold Machine.switchCloses
  split
  · exact hs
  · exact .ite (.ite (hs.revComplete _ _) (hs.alters (setRev_alters _ s))) hs

theorem Budgeted.leaveLimitPasses {s : State} (hs : Budgeted s) : Budgeted (leaveLimitPasses s) := by
  unfold Machine.leaveLimitPasses
  split
  · exact hs
  · exact .ite hs (hs.revFails _ _)

theorem Budgeted.revLimitPasses {s : State} (hs : Budgeted s) : Budgeted (revLimitPasses s) := by
  unfold Machine.revLimitPasses
  split
  · exact hs
  · exact hs.revFails _ _

theorem Budgeted.currentJams {s : State} (hs : Budgeted s) (l : List Nat) : Budgeted (currentJams l s) := by
  unfold Machine.currentJams
  split
  · exact hs
  · exact .ite (hs.revFails _ _) hs

theorem Budgeted.currentAt200 {s : State} (hs : Budgeted s) (n : Nat) : Budgeted (currentAt200 n s) := by
  unfold Machine.currentAt200
  split
  · exact hs
  · exact .ite hs (.ite (hs.revFails _ _) (hs.alters (setRev_alters _ s)))

theorem Budgeted.dropConfirmed {s : State} (hs : Budgeted s) (r : Rev) : Budgeted (dropConfirmed r s) := by
  have hdrop (f : VendOp → VendOp) (x : Option Rev) : Budgeted { s with drive.rev := x, drive.vend := s.drive.vend.map f } :=
    hs.setDrive _ (fun h => by simpa using h) id
  unfold Machine.dropConfirmed
  dsimp only
  split
  · split
    · exact (hdrop _ _).endTest _
    · split
      · exact (hdrop _ _).vendSucceeds _
      · exact hdrop _ _
  · exact hdrop _ _

theorem Budgeted.windowEnds {s : State} (hs : Budgeted s) (r : Rev) : Budgeted (windowEnds r s) := by
  unfold Machine.windowEnds
  split
  · exact hs.endTest _
  · split
    · exact hs.windowPassed _ r
    · exact hs

theorem Budgeted.watchBeam {s : State} (hs : Budgeted s) (l : List Bool) (b : Bool) :
    Budgeted (watchBeam l b s) := by
  unfold Machine.watchBeam
  split
  · exact hs
  · exact .ite hs (.ite (hs.dropConfirmed _) (.ite (hs.windowEnds _) (hs.alters (setRev_alters _ s))))

theorem Budgeted.holdReachesVend {s : State} (hs : Budgeted s) (z : Nat) : Budgeted (holdReachesVend z s) := by
  unfold Machine.holdReachesVend
  split
  · exact hs
  · split
    · split
      next r _ =>
        have hprobe (p : Nat) : Budgeted (addProbe p (keepSwitch r s)) :=
          (hs.alters (keepSwitch_alters r s)).alters (addProbe_alters p _)
        exact .ite (.ite ((hprobe _).vendSucceeds _) ((hprobe _).vendFails _ _)) (hs.vendFails _ _)
      · exact hs.vendFails _ _
    · exact hs

/-- A vend begins with its request for MOTOR, unless a service operation is in flight (R71). -/
theorem Budgeted.beginVend {s : State} (hs : Budgeted s) (i : Nat) : Budgeted (beginVend i s) := by
  unfold Machine.beginVend
  split
  · exact (hs.failVend i _).afterVend s
  next p j _ =>
    refine .ite (hs.setDrive _ (fun _ => rfl) id) ?_
    refine hs.requestBy .motor (by decide) rfl rfl rfl rfl fun y hy => ?_
    cases y
    · exact hy.resolve_left (by decide)
    · exact .inl rfl
    · trivial
    · trivial
    · trivial

/-! ### The compressor -/

/-- A state of the compressor in which it has neither asked for COMP_START nor holds a grant. -/
def CompState.still : CompState → Bool
  | .lockedOff | .idle | .defrost | .drip => true
  | .awaitGrant | .starting | .running => false

/-- With the compressor still nothing of it stands in a set. -/
theorem Cooling.still {s : State} (hs : Cooling s) (h : s.cold.state.still = true) :
    s.supply.waiting.compStart = false ∧ s.supply.granted.compStart = false ∧ s.supply.granted.compRun = false := by
  refine ⟨?_, ?_, ?_⟩
  · by_contra hx
    simp [hs.startAsked (by simpa using hx), CompState.still] at h
  · by_contra hx
    rcases hs.startHeld (by simpa using hx) with h1 | h1 <;> simp [h1, CompState.still] at h
  · by_contra hx
    simp [hs.runHeld (by simpa using hx), CompState.still] at h

/-- A still compressor with nothing in the sets, outside the probing steps. -/
theorem Cooling.ofStill {s : State} (h : s.cold.state.still = true) (hwaiting : s.supply.waiting.compStart = false)
    (hstart : s.supply.granted.compStart = false) (hrun : s.supply.granted.compRun = false)
    (hprobing : ∀ c, s.phase = .restoring c ∨ s.phase = .probing c → s.cold.state = .lockedOff ∧
      s.cold.offTimer = none) : Cooling s :=
  ⟨fun hx => absurd hx (by simp [hwaiting]), fun hx => absurd hx (by simp [hstart]),
    fun _ hx => by simp [hx, CompState.still] at h, fun hx => absurd hx (by simp [hrun]), hprobing⟩

/-- Outside the probing steps. -/
theorem Cooling.notProbing {s : State} (hs : Cooling s) (h : s.cold.state ≠ .lockedOff ∨ s.cold.offTimer.isSome = true)
    (c : Cause) : ¬(s.phase = .restoring c ∨ s.phase = .probing c) := fun hp => by
  obtain ⟨hstate, hoff⟩ := hs.probing c hp
  rcases h with h | h
  · exact h hstate
  · simp [hoff] at h

/-- What the compressor's operations leave alone: everything but its own records. -/
theorem Budgeted.setCold {s : State} (hs : Budgeted s) (x : Cold) (hcooling : Cooling { s with cold := x }) :
    Budgeted { s with cold := x } where
  fit := hs.fit.congr rfl rfl rfl rfl
  cooling := hcooling
  owned y hy := by
    have howned := hs.owned y hy
    cases y <;> exact howned
  active := hs.active

theorem owned_setCold {x : Load} {s : State} (c : Cold) (h : Owned x s) : Owned x { s with cold := c } := by
  cases x <;> exact h

/-- COMP_START or COMP_RUN is given up with the state that had it. -/
theorem Budgeted.releaseCold {s : State} (hs : Budgeted s) (x : Load) (c : Cold)
    (hcooling : Cooling (drop x { s with cold := c })) : Budgeted (Machine.release x { s with cold := c }) :=
  hs.release x rfl rfl rfl rfl rfl hcooling fun _ _ h => owned_setCold c h

/-- COMP_RUN is released as the running compressor stops (R103 to R105). -/
theorem Budgeted.stopRunning {s : State} (hs : Budgeted s) (h : s.cold.state = .running) :
    Budgeted (Machine.release .compRun (lockOff s)) := by
  have hnot := hs.cooling.notProbing (.inl (by simp [h]))
  have hwaiting : s.supply.waiting.compStart = false := by
    by_contra hx
    simp [hs.cooling.startAsked (by simpa using hx)] at h
  have hstart : s.supply.granted.compStart = false := by
    by_contra hx
    rcases hs.cooling.startHeld (by simpa using hx) with h1 | h1 <;> simp [h1] at h
  exact hs.releaseCold .compRun (lockOff s).cold (.ofStill rfl hwaiting hstart rfl fun c hc => absurd hc (hnot c))

theorem Budgeted.stopIfDone {s : State} (hs : Budgeted s) : Budgeted (stopIfDone s) := by
  unfold Machine.stopIfDone
  split
  next h => exact hs.stopRunning h.1
  next => exact hs

/-- The compressor asks for COMP_START from IDLE (R102). -/
theorem Budgeted.askCompressor {s : State} (hs : Budgeted s) : Budgeted (askCompressor s) := by
  unfold Machine.askCompressor
  split
  next h =>
    obtain ⟨hidle, -⟩ := h
    obtain ⟨hwaiting, hstart, hrun⟩ := hs.cooling.still (by simp [hidle, CompState.still])
    have hnot := hs.cooling.notProbing (.inl (by simp [hidle]))
    have hcool (w : LoadSet) : Cooling { s with cold.state := .awaitGrant, supply.waiting := w } :=
      ⟨fun _ => rfl, fun _ => .inl rfl, fun _ h => absurd h (by simp), fun h => absurd h (by simp [hrun]),
        fun c hc => absurd hc (hnot c)⟩
    exact hs.request .compStart (by decide) rfl rfl rfl rfl rfl (hcool _) (hcool s.supply.waiting)
      fun y hy => by
        cases y
        · exact hy.resolve_left (by decide)
        · exact hy.resolve_left (by decide)
        · trivial
        · trivial
        · trivial
  next => exact hs

theorem Budgeted.demandChanged {s : State} (hs : Budgeted s) : Budgeted (demandChanged s) := by
  unfold Machine.demandChanged
  split
  · exact hs.askCompressor
  next hawait =>
    split
    · exact hs
    · have hnot := hs.cooling.notProbing (.inl (by simp [hawait]))
      have hrun : s.supply.granted.compRun = false := by
        by_contra hx
        simp [hs.cooling.runHeld (by simpa using hx)] at hawait
      exact hs.releaseCold .compStart { s.cold with state := .idle } (.ofStill rfl rfl rfl hrun fun c hc => absurd hc (hnot c))
  · exact hs.stopIfDone
  · exact hs

theorem Budgeted.setDemand {s : State} (hs : Budgeted s) (z : Nat) (b : Bool) : Budgeted (setDemand z b s) := by
  have hzone := hs.alters (modZone_alters z (fun r => { r with demand := b }) s)
  unfold Machine.setDemand
  split
  · exact hs
  · refine Budgeted.demandChanged (.ite ?_ hzone)
    exact hzone.alters (ps := [.damper]) (by intro p hp; cases p <;> simp_all [Part.same])

theorem Budgeted.compStartGiven {s : State} (hs : Budgeted s) : Budgeted (compStartGiven s) := by
  unfold Machine.compStartGiven
  split
  next h =>
    obtain ⟨hawait, hgranted⟩ := h
    have hwaiting : s.supply.waiting.compStart = false := hs.fit.disjoint .compStart hgranted
    have hnot := hs.cooling.notProbing (.inl (by simp [hawait]))
    have hrun : s.supply.granted.compRun = false := by
      by_contra hx
      simp [hs.cooling.runHeld (by simpa using hx)] at hawait
    exact hs.setCold _ ⟨fun h => absurd h (by simp [hwaiting]), fun _ => .inr rfl, fun _ _ => hgranted,
      fun h => absurd h (by simp [hrun]), fun c hc => absurd hc (hnot c)⟩
  next => exact hs

/-- The compressor stops with COMP_START, which it holds alone (R104, R119). -/
theorem Budgeted.stopStarting {s : State} (hs : Budgeted s) (h : s.cold.state = .starting) :
    Budgeted (Machine.release .compStart (lockOff s)) := by
  have hnot := hs.cooling.notProbing (.inl (by simp [h]))
  have hrun : s.supply.granted.compRun = false := by
    by_contra hx
    simp [hs.cooling.runHeld (by simpa using hx)] at h
  exact hs.releaseCold .compStart (lockOff s).cold (.ofStill rfl rfl rfl hrun fun c hc => absurd hc (hnot c))

/-- The granted sum with COMP_RUN in the place of COMP_START (R119). -/
theorem sum_exchange (t : LoadTable) (l : LoadSet) (hstart : l.compStart = true) (hrun : l.compRun = false) :
    t.sum ((l.put .compStart false).put .compRun true) = t.sum l - t.compStart + t.compRun := by
  obtain ⟨a, b, c, d, e⟩ := l
  obtain rfl : c = true := hstart
  obtain rfl : d = false := hrun
  cases a <;> cases b <;> cases e <;> simp [LoadTable.sum, LoadSet.put] <;> omega

theorem Budgeted.surgeEnds {s : State} (hs : Budgeted s) : Budgeted (surgeEnds s) := by
  unfold Machine.surgeEnds
  split
  next h =>
    obtain ⟨hstarting, -⟩ := h
    have hstart := hs.cooling.starting hs.active hstarting
    have hwaiting : s.supply.waiting.compStart = false := hs.fit.disjoint .compStart hstart
    have hnot := hs.cooling.notProbing (.inl (by simp [hstarting]))
    have hrun : s.supply.granted.compRun = false := by
      by_contra hx
      simp [hs.cooling.runHeld (by simpa using hx)] at hstarting
    split
    next hfits =>
      refine Budgeted.stopIfDone (Budgeted.grantRule ⟨.ofFits ?_ (fun x hx => ?_) hs.fit.runNotAsked, ?_, ?_, hs.active⟩)
      · rw [State.grantedSum, sum_exchange _ _ hstart hrun]
        exact of_decide_eq_true hfits
      · simp only [has_put] at hx
        split at hx
        next heq => subst heq; exact hs.fit.runNotAsked
        next =>
          split at hx
          · simp at hx
          · exact hs.fit.disjoint x hx
      · exact ⟨fun h => absurd h (by simp [hwaiting]), fun h => absurd h (by simp [LoadSet.put]),
          fun _ h => absurd h (by simp), fun _ => rfl, fun c hc => absurd hc (hnot c)⟩
      · intro x hx
        cases x
        · exact hs.owned .payout hx
        · exact hs.owned .motor hx
        · trivial
        · trivial
        · trivial
    next => exact hs.stopStarting hstarting
  next => exact hs

theorem Budgeted.minRunPasses {s : State} (hs : Budgeted s) : Budgeted (minRunPasses s) := by
  unfold Machine.minRunPasses
  split
  · refine Budgeted.stopIfDone (hs.setCold _ ?_)
    exact hs.cooling.congr rfl rfl rfl rfl rfl
  · exact hs

/-- A still compressor takes another still state. -/
theorem Budgeted.setStill {s : State} (hs : Budgeted s) (hstill : s.cold.state.still = true) (x : Cold)
    (hx : x.state.still = true) (hnot : ∀ c, ¬(s.phase = .restoring c ∨ s.phase = .probing c)) :
    Budgeted { s with cold := x } := by
  obtain ⟨hwaiting, hstart, hrun⟩ := hs.cooling.still hstill
  exact hs.setCold x (.ofStill hx hwaiting hstart hrun fun c hc => absurd hc (hnot c))

theorem Budgeted.offTimerExpires {s : State} (hs : Budgeted s) : Budgeted (offTimerExpires s) := by
  unfold Machine.offTimerExpires
  split
  · exact hs
  next n hn =>
    have hnot := hs.cooling.notProbing (.inr (by simp [hn]))
    dsimp only
    split
    next hoff =>
      exact (hs.setStill (by simp [hoff, CompState.still]) { s.cold with offTimer := none, state := .idle } rfl
        hnot).askCompressor
    next =>
      refine hs.setCold _ ⟨hs.cooling.startAsked, hs.cooling.startHeld, hs.cooling.starting, hs.cooling.runHeld,
        fun c hc => absurd hc (hnot c)⟩

/-! ### Defrost -/

theorem Budgeted.heaterGiven {s : State} (hs : Budgeted s) : Budgeted (heaterGiven s) :=
  hs.alters (heaterGiven_alters s)

/-- A defrost asks for HEATER with the compressor still (R105). -/
theorem Budgeted.requestHeater {s t : State} (hs : Budgeted s) (htables : t.tables = s.tables)
    (hsupply : t.supply = s.supply) (hphase : t.phase = s.phase) (hchange : t.change = s.change)
    (hdrive : t.drive = s.drive) (hcooling : Cooling t) : Budgeted (Machine.request .heater t) := by
  refine hs.request .heater (by decide) (by rw [htables]) (by rw [hsupply]) (by rw [hsupply]) (by rw [hsupply]) hphase
    ?_ hcooling fun y hy => ?_
  · refine hcooling.otherLoad (fun _ _ => rfl) ?_ rfl rfl
    exact (has_put _ _ .compStart true).trans (if_neg (by decide))
  · have hkept : y = .heater ∨ Owned y t := hy.imp_right fun h => by
      cases y <;> simp only [Owned, hchange, hdrive] at h ⊢ <;> exact h
    rcases hkept with rfl | h
    · trivial
    · exact h

/-- The compressor has left its state for a defrost: it is still but for AWAIT_GRANT, with nothing in the sets. -/
theorem leaveForDefrost_sets {s : State} (hs : Budgeted s) (h : s.cold.state.mayDefrost = true) :
    Budgeted (leaveForDefrost s) ∧ (leaveForDefrost s).supply.waiting.compStart = false ∧
      (leaveForDefrost s).supply.granted.compStart = false ∧ (leaveForDefrost s).supply.granted.compRun = false := by
  unfold leaveForDefrost
  split
  next hrun =>
    have hstopped := hs.stopRunning hrun
    exact ⟨hstopped, hstopped.cooling.still rfl⟩
  next hawait =>
    have hnot := hs.cooling.notProbing (.inl (by simp [hawait]))
    have hrun : s.supply.granted.compRun = false := by
      by_contra hx
      simp [hs.cooling.runHeld (by simpa using hx)] at hawait
    have hreleased : Budgeted (release .compStart s) := by
      refine hs.release .compStart rfl rfl rfl rfl rfl ?_ fun _ _ h => h
      exact ⟨fun h => absurd h (by simp [drop, LoadSet.put]), fun h => absurd h (by simp [drop, LoadSet.put]),
        fun _ h => absurd h (by simp [drop, hawait]), fun h => absurd h (by simp [drop, LoadSet.put, hrun]),
        fun c hc => absurd hc (hnot c)⟩
    obtain ⟨hgiven, -, hwaits⟩ := grantRule_has (drop .compStart s) .compStart
    refine ⟨hreleased, ?_, ?_, ?_⟩
    · by_contra hx
      exact absurd (hwaits (Bool.eq_true_of_not_eq_false hx)) (by simp [drop])
    · by_contra hx
      exact absurd (hgiven (Bool.eq_true_of_not_eq_false hx)) (by simp [drop])
    · exact (grantRule_run (drop .compStart s)).1.trans hrun
  next h1 h2 =>
    have hstill : s.cold.state.still = true := by
      cases hstate : s.cold.state <;> simp_all [CompState.still, CompState.mayDefrost]
    exact ⟨hs, hs.cooling.still hstill⟩

theorem Budgeted.beginDefrost {s : State} (hs : Budgeted s) (h : s.cold.state.mayDefrost = true)
    (hnot : ∀ c, ¬(s.phase = .restoring c ∨ s.phase = .probing c)) (w : DefrostCause) : Budgeted (beginDefrost w s) := by
  obtain ⟨hleft, hwaiting, hstart, hrun⟩ := leaveForDefrost_sets hs h
  have hphase : (leaveForDefrost s).phase = s.phase := leaveForDefrost_alters s .phase (by decide)
  unfold Machine.beginDefrost
  dsimp only
  refine Budgeted.raise (hleft.requestHeater (t := { leaveForDefrost s with
    cold := { (leaveForDefrost s).cold with runSince := 0, heaterOn := 0, pendingDefrost := false, state := .defrost } })
    rfl rfl rfl rfl rfl ?_) _ _ _
  exact .ofStill rfl hwaiting hstart hrun fun c hc => absurd (hphase ▸ hc) (hnot c)

theorem Budgeted.endDefrost {s : State} (hs : Budgeted s) (h : s.cold.state = .defrost) (k : Nat) :
    Budgeted (endDefrost k s) := by
  have hnot := hs.cooling.notProbing (.inl (by simp [h]))
  obtain ⟨hwaiting, hstart, hrun⟩ := hs.cooling.still (by simp [h, CompState.still])
  have hreleased : Budgeted (Machine.release .heater { s with cold.heater := false, cold.state := .drip }) :=
    hs.releaseCold .heater { s.cold with heater := false, state := .drip } (.ofStill rfl hwaiting hstart hrun fun c hc => absurd hc (hnot c))
  unfold Machine.endDefrost
  dsimp only
  refine Budgeted.raise (hreleased.setCold _ ?_) _ _ _
  exact hreleased.cooling.congr rfl rfl rfl rfl rfl

theorem Budgeted.defrostTests {s : State} (hs : Budgeted s) : Budgeted (defrostTests s) := by
  unfold Machine.defrostTests
  split
  next h => exact .ite (hs.endDefrost h 0) (.ite (hs.endDefrost h 1) hs)
  next => exact hs

theorem Budgeted.intervalTick {s : State} (hs : Budgeted s)
    (hnot : ∀ c, ¬(s.phase = .restoring c ∨ s.phase = .probing c)) : Budgeted (intervalTick s) := by
  have hgrown : Budgeted { s with cold.runSince := satAdd Config.maxRunSince s.cold.runSince 1 } :=
    hs.alters (ps := [.defrost]) (by intro p hp; cases p <;> simp_all [Part.same])
  have htests (u : State) (hu : Budgeted u) (hphase : u.phase = s.phase) : Budgeted
      (if u.cold.state.mayDefrost then
        if u.cold.pendingDefrost then Machine.beginDefrost .request u
        else if u.tables.refrig.defrostInterval ≤ u.cold.runSince then Machine.beginDefrost .interval u
        else u
      else u) := by
    split
    next h => exact .ite (hu.beginDefrost h (hphase ▸ hnot) _) (.ite (hu.beginDefrost h (hphase ▸ hnot) _) hu)
    next => exact hu
  unfold Machine.intervalTick
  dsimp only
  split
  · exact htests _ hgrown rfl
  · exact htests _ hs rfl

theorem Budgeted.dripEnds {s : State} (hs : Budgeted s) : Budgeted (dripEnds s) := by
  unfold Machine.dripEnds
  split
  next h =>
    obtain ⟨hdrip, -⟩ := h
    have hnot := hs.cooling.notProbing (.inl (by simp [hdrip]))
    have hstill : s.cold.state.still = true := by simp [hdrip, CompState.still]
    dsimp only
    split
    · exact hs.setStill hstill { s.cold with dripTimer := none, state := .lockedOff } rfl hnot
    · exact (hs.setStill hstill { s.cold with dripTimer := none, state := .idle } rfl hnot).askCompressor
  next => exact hs

theorem Budgeted.defrostNow {s : State} (hs : Budgeted s)
    (hnot : ∀ c, ¬(s.phase = .restoring c ∨ s.phase = .probing c)) : Budgeted (defrostNow s).1 := by
  unfold Machine.defrostNow
  split
  · exact hs
  · exact hs
  · exact hs.alters (ps := [.defrost]) (by intro p hp; cases p <;> simp_all [Part.same])
  all_goals
    next h => exact hs.beginDefrost (by simp [h, CompState.mayDefrost]) hnot _

end Sys2Proof.Machine
end

