-- ==== Sys2Proof/Proofs/LoadShedding.lean ====
section
/-! The load budget through shedding (R117, R118, R120): what is left when the effective budget or the ratings change. -/

/- One lemma after another, to keep the memory of a compile small. -/
set_option Elab.async false

namespace Sys2Proof.Machine

/-- The ratings of the MOTOR and PAYOUT grants, which shedding leaves alone (R120). -/
def carriedSum (s : State) : Nat :=
  (if s.supply.granted.payout then s.tables.loads.payout else 0) +
    (if s.supply.granted.motor then s.tables.loads.motor else 0)

theorem grantedSum_eq (s : State) : s.grantedSum = carriedSum s +
    (if s.supply.granted.compStart then s.tables.loads.compStart else 0) +
    (if s.supply.granted.compRun then s.tables.loads.compRun else 0) +
    (if s.supply.granted.heater then s.tables.loads.heater else 0) := rfl

theorem carriedSum_le (s : State) : carriedSum s ≤ s.grantedSum := by
  rw [grantedSum_eq]
  omega

/-- What holds of the two sets whatever the budget is. -/
structure SetsApart (s : State) : Prop where
  disjoint : ∀ x, s.supply.granted.has x = true → s.supply.waiting.has x = false
  runNotAsked : s.supply.waiting.compRun = false
  cooling : Cooling s
  owned : ∀ x, s.supply.asked x → Owned x s
  stopped : s.active = false → s.supply.granted = .none ∧ s.supply.waiting = .none

theorem BudgetLaw.apart {s : State} (h : BudgetLaw s) : SetsApart s :=
  ⟨h.disjoint, h.runNotAsked, h.cooling, h.owned, h.stopped⟩

theorem SetsApart.law {s : State} (h : SetsApart s) (hfit : GrantsFit s) : BudgetLaw s :=
  .ofParts hfit h.cooling h.owned h.stopped

theorem BudgetLaw.grantRule {s : State} (hs : BudgetLaw s) : BudgetLaw (grantRule s) := by
  by_cases hactive : s.active = true
  · exact (hs.budgeted hactive).grantRule.law
  · obtain ⟨hgranted, hwaiting⟩ := hs.stopped (by simpa using hactive)
    have hnone : grantLoop s.tables.loads s.effectiveBudget grantPriority s.supply.granted s.supply.waiting =
        (.none, .none) := by rw [hgranted, hwaiting]; exact grantLoop_none _ _ _
    exact budgetLaw_idle (congrArg Prod.fst hnone) (congrArg Prod.snd hnone) hs.cooling.grantRule

/-- Only the sets' members change, and of those asked for none is new. -/
theorem SetsApart.regrouped {s t : State} (hs : SetsApart s)
    (hasked : ∀ x, t.supply.asked x → s.supply.asked x)
    (hdisjoint : ∀ x, t.supply.granted.has x = true → t.supply.waiting.has x = false)
    (hrun : t.supply.waiting.compRun = false) (hcooling : Cooling t) (hchange : t.change = s.change)
    (hdrive : t.drive = s.drive) (hphase : t.phase = s.phase) : SetsApart t := by
  refine ⟨hdisjoint, hrun, hcooling, fun x hx => ?_, fun hoff => ?_⟩
  · have howned := hs.owned x (hasked x hx)
    cases x <;> simp only [Owned, hchange, hdrive] at howned ⊢ <;> exact howned
  · obtain ⟨hgranted, hwaiting⟩ := hs.stopped ((active_congr hphase).symm.trans hoff)
    have hnone (x : Load) : ¬t.supply.asked x := fun hx => by
      have := hasked x hx
      simp [Supply.asked, hgranted, hwaiting] at this
    refine ⟨LoadSet.eq_of_has fun x => ?_, LoadSet.eq_of_has fun x => ?_⟩
    · have := hnone x
      simp_all [Supply.asked]
    · have := hnone x
      simp_all [Supply.asked]

/-- The heater is shed while the sum is too high. -/
theorem shedHeater_sets {s : State} (hs : SetsApart s) : SetsApart (shedHeater s) ∧
    carriedSum (shedHeater s) = carriedSum s ∧ (shedHeater s).tables = s.tables ∧
    (shedHeater s).supply.state = s.supply.state ∧
    (overBudget (shedHeater s) = true → (shedHeater s).supply.granted.heater = false) := by
  unfold shedHeater
  split
  next h =>
    simp only [Bool.and_eq_true] at h
    obtain ⟨-, hheater⟩ := h
    refine ⟨?_, rfl, rfl, rfl, fun _ => rfl⟩
    refine hs.regrouped (fun x hx => ?_) (fun x hx => ?_) hs.runNotAsked ?_ rfl rfl rfl
    · by_cases hxh : x = .heater
      · subst hxh; exact .inl hheater
      · simpa [Supply.asked, raiseShed, Machine.raise, hxh] using hx
    · by_cases hxh : x = .heater
      · subst hxh; simp [raiseShed, Machine.raise] at hx
      · simp only [raiseShed, Machine.raise, has_put, if_neg hxh] at hx ⊢
        exact hs.disjoint x hx
    · exact ⟨hs.cooling.startAsked, hs.cooling.startHeld, hs.cooling.starting, hs.cooling.runHeld, hs.cooling.probing⟩
  next h =>
    refine ⟨hs, rfl, rfl, rfl, fun hover => ?_⟩
    simpa [hover] using h

/-- The compressor stops as its grant is shed (R104, R120). -/
theorem SetsApart.shedGrant {s : State} (hs : SetsApart s) {x : Load} (hx : x = .compRun ∨ x = .compStart)
    (hgranted : s.supply.granted.has x = true) :
    SetsApart (lockOff (raiseShed x { s with supply.granted := s.supply.granted.put x false })) ∧
      s.supply.granted.compStart = decide (x = .compStart) ∧ s.supply.granted.compRun = decide (x = .compRun) := by
  have hsets : s.supply.granted.compStart = decide (x = .compStart) ∧
      s.supply.granted.compRun = decide (x = .compRun) := by
    rcases hx with rfl | rfl
    · refine ⟨?_, hgranted⟩
      by_contra hstart
      have hrunning := hs.cooling.runHeld hgranted
      rcases hs.cooling.startHeld (by simpa using hstart) with h | h <;> simp [h] at hrunning
    · refine ⟨hgranted, ?_⟩
      by_contra hrun
      have hrunning := hs.cooling.runHeld (by simpa using hrun)
      rcases hs.cooling.startHeld hgranted with h | h <;> simp [h] at hrunning
  obtain ⟨hstart, hrun⟩ := hsets
  have hwaiting : s.supply.waiting.compStart = false := by
    rcases hx with rfl | rfl
    · have hrunning := hs.cooling.runHeld hgranted
      by_contra hw
      simp [hs.cooling.startAsked (by simpa using hw)] at hrunning
    · exact hs.disjoint .compStart hgranted
  have hnot (c : Cause) : ¬(s.phase = .restoring c ∨ s.phase = .probing c) := fun hp => by
    obtain ⟨hoff, -⟩ := hs.cooling.probing c hp
    rcases hx with rfl | rfl
    · simp [hs.cooling.runHeld hgranted] at hoff
    · rcases hs.cooling.startHeld hgranted with h | h <;> simp [h] at hoff
  refine ⟨?_, hstart, hrun⟩
  refine hs.regrouped (fun y hy => ?_) (fun y hy => ?_) hs.runNotAsked (.ofStill rfl hwaiting ?_ ?_ fun c hc =>
    absurd hc (hnot c)) rfl rfl rfl
  · refine hy.imp_left fun h => ?_
    simp only [lockOff, raiseShed, Machine.raise, has_put] at h
    split at h
    · simp at h
    · exact h
  · simp only [lockOff, raiseShed, Machine.raise, has_put] at hy ⊢
    split at hy
    · simp at hy
    · exact hs.disjoint y hy
  · rcases hx with rfl | rfl
    · exact hstart
    · rfl
  · rcases hx with rfl | rfl
    · rfl
    · exact hrun

/-- The compressor's grant is shed while the sum is too high. -/
theorem shedCompressor_sets {s : State} (hs : SetsApart s) : SetsApart (shedCompressor s) ∧
    carriedSum (shedCompressor s) = carriedSum s ∧ (shedCompressor s).tables = s.tables ∧
    (shedCompressor s).supply.state = s.supply.state ∧
    (shedCompressor s).supply.granted.heater = s.supply.granted.heater ∧
    (overBudget (shedCompressor s) = true → overBudget s = true ∧
      (shedCompressor s).supply.granted.compRun = false ∧ (shedCompressor s).supply.granted.compStart = false) := by
  unfold shedCompressor
  split
  next h =>
    simp only [Bool.and_eq_true] at h
    obtain ⟨hover, hrun⟩ := h
    obtain ⟨hset, hstart, -⟩ := hs.shedGrant (.inl rfl) (x := .compRun) hrun
    exact ⟨hset, rfl, rfl, rfl, rfl, fun _ => ⟨hover, rfl, hstart⟩⟩
  next h1 =>
    split
    next h =>
      simp only [Bool.and_eq_true] at h
      obtain ⟨hover, hstart⟩ := h
      obtain ⟨hset, -, hrun⟩ := hs.shedGrant (.inr rfl) (x := .compStart) hstart
      exact ⟨hset, rfl, rfl, rfl, rfl, fun _ => ⟨hover, hrun, rfl⟩⟩
    next h2 =>
      refine ⟨hs, rfl, rfl, rfl, rfl, fun hover => ⟨hover, ?_, ?_⟩⟩
      · simpa [hover] using h1
      · simpa [hover] using h2

/-- After shedding the sum fits, or the MOTOR and PAYOUT grants alone are left and a sag carries them. -/
theorem SetsApart.budgetChanged {s : State} (hs : SetsApart s) (htable : carriedSum s ≤ s.tables.loads.budget)
    (hsag : s.effectiveBudget < carriedSum s → s.supply.state = .sag) : BudgetLaw (budgetChanged s) := by
  obtain ⟨hheated, hcarried1, htables1, hstate1, hheater⟩ := shedHeater_sets hs
  obtain ⟨hshed, hcarried2, htables2, hstate2, hheater2, hcomp⟩ := shedCompressor_sets hheated
  refine BudgetLaw.grantRule (hshed.law ?_)
  generalize hu : shedCompressor (shedHeater s) = u at hshed hcarried2 htables2 hstate2 hheater2 hcomp ⊢
  by_cases hover : overBudget u = true
  · obtain ⟨hover1, hrun, hstart⟩ := hcomp hover
    have hheateroff : u.supply.granted.heater = false := hheater2.trans (hheater hover1)
    have hsum : u.grantedSum = carriedSum u := by simp [grantedSum_eq, hrun, hstart, hheateroff]
    have hcarried : carriedSum u = carriedSum s := hcarried2.trans hcarried1
    have hbudget : u.effectiveBudget = s.effectiveBudget := by
      simp only [State.effectiveBudget, hstate2, hstate1, htables2, htables1]
    have hlt : u.effectiveBudget < u.grantedSum := by simpa [overBudget] using hover
    rw [hsum] at hlt
    refine ⟨?_, .inr ⟨?_, ?_, hheateroff, hrun, hstart⟩, hshed.disjoint, hshed.runNotAsked⟩
    · rw [hsum, hcarried, htables2, htables1]; exact htable
    · rw [hstate2, hstate1]
      exact hsag (by rwa [← hbudget, ← hcarried])
    · by_contra hnone
      simp only [not_or, Bool.not_eq_true] at hnone
      obtain ⟨hmotor, hpayout⟩ := hnone
      simp [carriedSum, hmotor, hpayout] at hlt
  · refine .ofFits ?_ hshed.disjoint hshed.runNotAsked
    simpa [overBudget] using hover

/-- The supply state or the ratings are as they become; the sets are as they were. -/
theorem SetsApart.congr {s t : State} (hs : SetsApart s) (hgranted : t.supply.granted = s.supply.granted)
    (hwaiting : t.supply.waiting = s.supply.waiting) (hcold : t.cold = s.cold) (hchange : t.change = s.change)
    (hdrive : t.drive = s.drive) (hphase : t.phase = s.phase) : SetsApart t := by
  refine hs.regrouped (fun x hx => ?_) ?_ (by rw [hwaiting]; exact hs.runNotAsked)
    (hs.cooling.congr hgranted hwaiting (by rw [hcold]) (by rw [hcold]) hphase) hchange hdrive hphase
  · unfold Supply.asked at hx ⊢
    rwa [hgranted, hwaiting] at hx
  · rw [hgranted, hwaiting]; exact hs.disjoint

/-- A sag begins (R114, R120). -/
theorem BudgetLaw.sagBegins {s : State} (hs : BudgetLaw s) (x : Supply) (hgranted : x.granted = s.supply.granted)
    (hwaiting : x.waiting = s.supply.waiting) (hsag : x.state = .sag) (k : EventKind) (v : Option Word32) :
    BudgetLaw (budgetChanged (raise k none v { s with supply := x })) := by
  refine SetsApart.budgetChanged (hs.apart.congr hgranted hwaiting rfl rfl rfl rfl) ?_ fun _ => hsag
  have hcarried : carriedSum (raise k none v { s with supply := x }) = carriedSum s := by
    simp only [carriedSum, raise, hgranted]
  rw [hcarried]
  exact (carriedSum_le s).trans hs.table

/-- A sag ends: the effective budget is the table's again (R114, R117). -/
theorem BudgetLaw.sagEnds {s : State} (hs : BudgetLaw s) (x : Supply) (hgranted : x.granted = s.supply.granted)
    (hwaiting : x.waiting = s.supply.waiting) (hnormal : x.state = .normal) (k : EventKind) (v : Option Word32) :
    BudgetLaw (budgetChanged (raise k none v { s with supply := x })) := by
  have hcarried : carriedSum (raise k none v { s with supply := x }) = carriedSum s := by
    simp only [carriedSum, raise, hgranted]
  have hle := (carriedSum_le s).trans hs.table
  refine SetsApart.budgetChanged (hs.apart.congr hgranted hwaiting rfl rfl rfl rfl) ?_ fun hover => ?_
  · rw [hcarried]; exact hle
  · rw [hcarried] at hover
    have hbudget : (raise k none v { s with supply := x }).effectiveBudget = s.tables.loads.budget := by
      simp only [State.effectiveBudget, raise, hnormal]
    omega

/-- The ratings change while no MOTOR or PAYOUT stands in a set (R116). -/
theorem Budgeted.setLoads {s : State} (hs : Budgeted s) (x : LoadTable) (hpayout : s.supply.granted.payout = false)
    (hmotor : s.supply.granted.motor = false) : Budgeted (budgetChanged { s with tables.loads := x }) := by
  have hnone : carriedSum { s with tables.loads := x } = 0 := by simp [carriedSum, hpayout, hmotor]
  refine BudgetLaw.budgeted ?_ ((budgetChanged_alters _).active_eq.trans hs.active)
  refine SetsApart.budgetChanged (hs.law.apart.congr rfl rfl rfl rfl rfl rfl) ?_ fun hover => ?_
  · rw [hnone]; exact Nat.zero_le _
  · rw [hnone] at hover; omega

end Sys2Proof.Machine
end

