-- ==== Sys2Proof/Proofs/LoadBudgetSteps.lean ====
section
/-! The load budget through requests, samples, power failures and starts, and so through every step (R117 to R121). -/

/- One lemma after another, to keep the memory of a compile small. -/
set_option Elab.async false

namespace Sys2Proof.Machine

/-! ### Tables -/

theorem Budgeted.setTables {s : State} (hs : Budgeted s) {x : Tables} (hx : x.loads = s.tables.loads) :
    Budgeted { s with tables := x } := by
  refine hs.congr hx rfl rfl rfl rfl rfl rfl fun y hy => ?_
  cases y <;> exact hy

theorem Budgeted.setSlotKind {s : State} (hs : Budgeted s) (slot : Nat) (k : SlotKind) :
    Budgeted (setSlotKind slot k s) :=
  Budgeted.reports.setSlotKind (fun _ _ h => h.setTables rfl) slot k hs

theorem Budgeted.rawCond {s : State} (hs : Budgeted s) (n : Nat) (c : TubeCond) : Budgeted (rawCond n c s) :=
  hs.revised (rawCond_alters n c s) (payoutStays_rawCond n c s)

theorem Budgeted.applyTube {s : State} (hs : Budgeted s) (n : Nat) (r : TubeRec) : Budgeted (applyTube n r s) := by
  have hcorrect (u : State) (w : Correction) (old new : Nat) (hu : Budgeted u) :
      Budgeted (raiseCorrected n w old new (rawCount n new u)) :=
    (hu.alters (rawCount_alters n new u)).alters (raiseCorrected_alters n w old new _)
  have hunpaired (u : State) (k : Nat) (hu : Budgeted u) : Budgeted (unpairCoin k n u) := hu.setTables rfl
  have hset : Budgeted { s with tables.tubes := updAt s.tables.tubes n fun _ => r } := hs.setTables rfl
  unfold Machine.applyTube
  dsimp only
  exact Budgeted.reconcile (Budgeted.rawCond
    (.ite (.ite (hcorrect _ _ _ _ hset) hset) (hcorrect _ _ _ _ (hunpaired _ _ hset))) _ _) _

theorem Budgeted.applySel {s : State} (hs : Budgeted s) (i : Nat) (new : SelLoaded) :
    Budgeted (applySel i new s).1 := by
  obtain ⟨x, hx⟩ := applySel_tables_sels i new s
  have hframe : Alters [.sels, .spirals] _ (Machine.applySel i new s).1 := (applySel_alters i new s).given_tables
  exact (hs.setTables (by rw [hx])).alters hframe

/-- While the load table is loaded no MOTOR or PAYOUT stands in a set (R116). -/
def LoadsFree (table : Nat) (s : State) : Prop :=
  Budgeted s ∧ (table = 10 → ¬s.supply.asked .payout ∧ ¬s.supply.asked .motor)

theorem not_asked_grantRule {x : Load} {s : State} (h : ¬s.supply.asked x) : ¬(grantRule s).supply.asked x := by
  obtain ⟨hgiven, -, hwaits⟩ := grantRule_has s x
  exact fun hx => h (hx.elim hgiven fun hw => .inr (hwaits hw))

/-- Shedding and the grant rule ask for no load but HEATER. -/
theorem not_asked_budgetChanged {x : Load} {s : State} (hx : x ≠ .heater) (h : ¬s.supply.asked x) :
    ¬(budgetChanged s).supply.asked x := by
  have hheater : ¬(shedHeater s).supply.asked x := by
    unfold shedHeater
    split
    · simpa [Supply.asked, raiseShed, raise, hx] using h
    · exact h
  have hcomp : ¬(shedCompressor (shedHeater s)).supply.asked x := by
    generalize shedHeater s = u at hheater
    have hput (y : Load) : ¬(lockOff (raiseShed y { u with supply.granted := u.supply.granted.put y false })).supply.asked
        x := by
      intro hasked
      refine hheater (hasked.imp_left fun hg => ?_)
      simp only [lockOff, raiseShed, raise, has_put] at hg
      split at hg
      · simp at hg
      · exact hg
    unfold shedCompressor
    split
    · exact hput _
    · split
      · exact hput _
      · exact hheater
  exact not_asked_grantRule hcomp

theorem LoadsFree.record {table i : Nat} {r : List Byte} {s : State} {x : State × Nat × Nat} (hs : LoadsFree table s)
    (h : recordStep table i r s = .ok x) : LoadsFree table x.1 := by
  obtain ⟨hbudget, hfree⟩ := hs
  have hother {n : Nat} (hn : n ≠ 10) {u : State} (hu : Budgeted u) : LoadsFree n u := ⟨hu, fun h => absurd h hn⟩
  have hplain {n : Nat} (hn : n ≠ 10) {y : Tables} {a b : Nat}
      (he : Except.ok (ε := ReplyCode) ({ s with tables := y }, a, b) = .ok x) (hy : y.loads = s.tables.loads) :
      LoadsFree n x.1 := by
    cases he; exact hother hn (hbudget.setTables hy)
  unfold recordStep at h
  split at h
  · rw [loadMoney_eq] at h
    cases h
    refine hother (by decide) (Budgeted.alters (hbudget.setTables (x := { s.tables with money := moneyOf r }) rfl)
      ((moneyTaken_alters r s).seq (rs := .exact :: .events :: maskParts) (recomputeMasks_alters _)))
  · unfold loadCoin at h
    split at h
    · simp at h
    · exact hplain (by decide) h rfl
  · obtain ⟨t, -, hx⟩ := loadTube_state h
    exact hother (by decide) (hx ▸ hbudget.applyTube _ t)
  · exact hplain (by decide) h rfl
  · obtain ⟨new, -, -, -, -, hx⟩ := loadSel_state h
    exact hother (by decide) (hx ▸ hbudget.applySel _ new)
  · exact hplain (by decide) h rfl
  · exact hplain (by decide) h rfl
  · exact hplain (by decide) h rfl
  · exact hplain (by decide) h rfl
  · unfold loadLoads at h
    cases h
    obtain ⟨hpayout, hmotor⟩ := hfree rfl
    refine ⟨hbudget.setLoads _ ?_ ?_, fun _ => ⟨?_, ?_⟩⟩
    · by_contra hx
      exact hpayout (.inl (by simpa [LoadSet.has] using hx))
    · by_contra hx
      exact hmotor (.inl (by simpa [LoadSet.has] using hx))
    · exact not_asked_budgetChanged (by decide) hpayout
    · exact not_asked_budgetChanged (by decide) hmotor
  · obtain ⟨k, hx⟩ := loadSlot_state h
    exact hother (by decide) (hx ▸ hbudget.setSlotKind _ k)
  · exact hplain (by decide) h rfl
  · exact hplain (by decide) h rfl
  · simp at h

theorem Budgeted.serveLoad {s : State} (hs : Budgeted s) (table first count : Nat) (records : List Byte) :
    Budgeted (serveLoad table first count records s).1 := by
  unfold Machine.serveLoad loadSection
  split_ifs with _ _ hbusy
  · exact hs
  · exact hs
  · exact hs
  · cases hall : loadAll (recordStep table) first (sectionRecords table count records) 0 0 s with
    | error e => exact hs
    | ok x =>
      have hfree : LoadsFree table s := by
        refine ⟨hs, fun h => ?_⟩
        subst h
        simp only [tableBusy, Bool.not_eq_true, Bool.or_eq_false_iff] at hbusy
        obtain ⟨⟨⟨h1, h2⟩, h3⟩, h4⟩ := hbusy
        simp [Supply.asked, LoadSet.has, h1, h2, h3, h4]
      obtain ⟨hloaded, -⟩ := loadAll_keeps (P := LoadsFree table) (fun _ _ _ _ hx hu => hu.record hx) _ _ _ _ _ _ hall hfree
      exact Budgeted.alters (hloaded.alters (afterSection_alters_parts table _)) (tablesChanged_alters _)

/-! ### Other requests -/

theorem Budgeted.serveVend {s : State} (hs : Budgeted s) (code funding amount : Nat) :
    Budgeted (serveVend code funding amount s).1 := by
  have hpriced (c : CreditUnit) : Budgeted { s with credit := c } :=
    hs.alters (ps := [.amounts, .inFlight, .sale, .pendingReturn, .escrow, .noteMask]) (by
      intro p hp; cases p <;> simp_all [Part.same])
  unfold Machine.serveVend
  split
  · unfold serveCash
    split
    · exact hs
    · split
      · exact hs
      · exact Budgeted.beginVend (Budgeted.setSale (hpriced _)) _
  · unfold serveExternal
    split
    · exact hs
    · exact Budgeted.beginVend (Budgeted.setSale (hpriced _)) _
  · exact hs

theorem Budgeted.serveReturn {s : State} (hs : Budgeted s) : Budgeted (serveReturn s).1 := by
  unfold Machine.serveReturn
  split
  · exact hs
  · split
    · exact hs
    · exact hs.returnAll
  · exact hs.returnAll
  · exact hs

/-- Factory Clear finds no operation in flight, and so no MOTOR or PAYOUT in a set (R177). -/
theorem Budgeted.factoryClear {s : State} (hs : Budgeted s) (hpayout : s.supply.granted.payout = false)
    (hmotor : s.supply.granted.motor = false) : Budgeted (factoryClear s) := by
  have hlock : Budgeted (clearAudit (clearLock s)) := (hs.alters (clearLock_alters s)).alters (clearAudit_alters _)
  have htubes (u : State) (hu : Budgeted u) : Budgeted (applyDefaultTubes u) :=
    keeps_foldl (P := Budgeted) (fun u n hu => hu.applyTube n _) _ hu
  have hplain (u : State) (hu : Budgeted u) : Budgeted (applyPlainDefaults (applyDefaultSels u)) := by
    refine Budgeted.setTables (s := applyDefaultSels u) ?_ rfl
    exact Budgeted.alters (ps := [.sels, .spirals]) (hu.setTables (x := { u.tables with sels := defaultSels }) rfl)
      (by intro p hp; cases p <;> simp_all [Part.same, applyDefaultSels, probeAll])
  have hslots (u : State) (hu : Budgeted u) : Budgeted (applyDefaultSlots u) :=
    keeps_foldl (P := Budgeted) (fun u a hu => hu.setSlotKind a _) _ hu
  have hcleared (u : State) (hu : Budgeted u) : Budgeted (clearTubes u) := by
    refine Budgeted.alters (keeps_foldl (P := Budgeted) (fun u n hu => ?_) _ hu) (afterTubes_alters _)
    exact ((hu.alters (rawCount_alters n 0 u)).rawCond n .ok).reconcile n
  have hmoney (u : State) (hu : Budgeted u) : Budgeted (defaultMoneyAndCoins u) := hu.setTables rfl
  have hmasks : Budgeted (recomputeMasks (evalExact (applyPlainDefaults (applyDefaultSels (applyDefaultTubes
      (defaultMoneyAndCoins (clearAudit (clearLock s)))))))) :=
    ((hplain _ (htubes _ (hmoney _ hlock))).alters (evalExact_alters _)).alters (recomputeMasks_alters _)
  have hplainSets (u : State) : (applyPlainDefaults (applyDefaultSels u)).supply = u.supply := rfl
  have hmoneySets (u : State) : (defaultMoneyAndCoins u).supply = u.supply := rfl
  have hsets : (recomputeMasks (evalExact (applyPlainDefaults (applyDefaultSels (applyDefaultTubes
      (defaultMoneyAndCoins (clearAudit (clearLock s)))))))).supply.granted = s.supply.granted := by
    rw [(recomputeMasks_alters _ .grants (by decide)).1, (evalExact_alters _ .grants (by decide)).1, hplainSets,
      (applyDefaultTubes_alters _ .grants (by decide)).1, hmoneySets, (clearAudit_alters _ .grants (by decide)).1,
      (clearLock_alters _ .grants (by decide)).1]
  have hdefaults : Budgeted (restoreDefaults (clearAudit (clearLock s))) :=
    hslots _ (hmasks.setLoads defaultLoads (by rw [hsets]; exact hpayout) (by rw [hsets]; exact hmotor))
  exact ((hcleared _ hdefaults).alters (clearHolds_alters _)).alters (clearStore_alters _)

theorem budgeted_serveFactoryClear {s : State} (hs : Budgeted s) (hlaw : CreditLaw s) (hrun : s.phase = .run) :
    Budgeted (serveFactoryClear s).1 := by
  unfold serveFactoryClear
  split_ifs with _ _ hbusy
  · exact hs
  · exact hs
  · exact hs
  · simp only [not_or, not_not] at hbusy
    obtain ⟨hsale, -, hservice⟩ := hbusy
    obtain ⟨hfree, hpaid⟩ := hlaw.free hrun (by simp [hsale])
    have hvend : s.drive.vend.isSome = false := by rw [← hlaw.vend, hfree]; rfl
    refine hs.factoryClear ?_ ?_
    · by_contra hx
      have howned : s.change.payout.isSome = true := hs.owned .payout (.inl (by simpa [LoadSet.has] using hx))
      simp [hpaid] at howned
    · by_contra hx
      have howned : s.drive.vend.isSome = true ∨ s.drive.service.isSome = true :=
        hs.owned .motor (.inl (by simpa [LoadSet.has] using hx))
      simp_all

theorem Budgeted.applyTo {x : State × Nat × Nat} (hx : Budgeted x.1) (a : Action) (i : Nat) :
    Budgeted (applyTo a x i).1 := by
  have hrefill (l : List Nat) (u : State) (hu : Budgeted u) : Budgeted (l.foldl (fun s p => refill p s) u) :=
    keeps_foldl (P := Budgeted) (fun u p hu => hu.alters (modSpiral_alters p _ u)) l hu
  unfold Machine.applyTo
  cases a with
  | setPrice price => exact hx.setTables rfl
  | inhibit => exact hx.alters (modSel_alters i _ _)
  | enable =>
    dsimp only
    split
    · exact hx
    · exact hx.alters (modSel_alters i _ _)
  | restock =>
    dsimp only
    split
    · exact hx
    · exact (hrefill _ _ hx).alters (modSel_alters i _ _)

theorem Budgeted.serveApply {s : State} (hs : Budgeted s) (code price : Nat) :
    Budgeted (serveApply code price s).1 := by
  obtain ⟨a, l, u, hu, happly⟩ := serveApply_cases code price s
  have happlied : Budgeted u :=
    (keeps_foldl (P := fun x : State × Nat × Nat => Budgeted x.1) (fun _ i hx => hx.applyTo a i) l hs :
      Budgeted (l.foldl (Machine.applyTo a) (s, 0, 0)).1).alters hu
  rcases happly with happly | happly
  · exact (congrArg Budgeted happly).mpr happlied
  · exact (congrArg Budgeted happly).mpr (happlied.alters (tablesChanged_alters u))

/-- A service operation begins with its request for MOTOR (R86). -/
theorem Budgeted.serveSpiral {s : State} (hs : Budgeted s) (home : Bool) (p : Nat) :
    Budgeted (serveSpiral home p s).1 := by
  have hbegun : Budgeted (beginService home p s) := by
    refine hs.requestBy .motor (by decide) rfl rfl rfl rfl fun y hy => ?_
    cases y
    · exact hy.resolve_left (by decide)
    · exact .inr rfl
    · trivial
    · trivial
    · trivial
  unfold Machine.serveSpiral
  split_ifs
  · exact hs
  · exact hs
  · exact hs
  · exact hs
  · exact hs
  · exact hbegun

theorem notProbing_of_run {s : State} (h : s.phase = .run) (c : Cause) :
    ¬(s.phase = .restoring c ∨ s.phase = .probing c) := by simp [h]

theorem budgeted_serveOwner {s : State} (hs : Budgeted s) (hlaw : CreditLaw s) (hrun : s.phase = .run) (r : Request)
    (h : ¬Apart budgetParts r.parts) : Budgeted (serveOwner r s).1 := by
  cases r
  case vend c f a => exact hs.serveVend c f a
  case returnCredit => exact hs.serveReturn
  case load table first count records => exact hs.serveLoad table first count records
  case factoryClear => exact budgeted_serveFactoryClear hs hlaw hrun
  case apply code price => exact hs.serveApply code price
  case drain n k =>
    show Budgeted (serveDrain n k s).1
    unfold serveDrain
    split_ifs
    · exact hs
    · exact hs
    · exact hs
    · exact hs.startPayout _
  case clearTubeFault n =>
    show Budgeted (serveClearTube n s).1
    unfold serveClearTube
    split
    · exact hs
    · exact ((hs.rawCond n .ok).reconcile n).alters (afterTubes_alters _)
  case testSpiral p => exact hs.serveSpiral false p
  case homeSpiral p => exact hs.serveSpiral true p
  case defrostNow =>
    show Budgeted (serveDefrost s).1
    unfold serveDefrost
    dsimp only
    split
    · exact hs.defrostNow (notProbing_of_run hrun)
    · exact hs
  all_goals exact absurd ((apart_iff _ _).1 rfl) h

/-! ### Samples -/

/-- The budget law while temperatures are sampled. -/
def Sampled (s : State) : Prop := Budgeted s ∧ ∀ c, ¬(s.phase = .restoring c ∨ s.phase = .probing c)

theorem Sampled.alters {ps : List Part} {s t : State} (hs : Sampled s) (h : Alters ps s t)
    (hp : Apart budgetParts ps := by exact (apart_iff _ _).1 rfl) : Sampled t := by
  have hphase : t.phase = s.phase := h .phase (hp _ (by decide))
  exact ⟨hs.1.alters h hp, hphase ▸ hs.2⟩

theorem Sampled.by {ps : List Part} {s t : State} (hs : Sampled s) (h : Alters ps s t) (ht : Budgeted s → Budgeted t)
    (hp : .phase ∉ ps := by decide) : Sampled t := by
  have hphase : t.phase = s.phase := h .phase hp
  exact ⟨ht hs.1, hphase ▸ hs.2⟩

theorem Sampled.ite {c : Prop} [Decidable c] {t u : State} (ht : Sampled t) (hu : Sampled u) :
    Sampled (if c then t else u) := by
  split
  · exact ht
  · exact hu

theorem Sampled.setDemand {s : State} (hs : Sampled s) (z : Nat) (b : Bool) : Sampled (setDemand z b s) :=
  hs.by (setDemand_alters z b s) fun h => h.setDemand z b

theorem Sampled.badTaken {s : State} (hs : Sampled s) (k c : Nat) : Sampled (badTaken k c s) := by
  have hrun (f : TempSensor → TempSensor) {u : State} (hu : Sampled u) : Sampled (modSensor k f u) :=
    hu.alters (modSensor_alters k f u)
  unfold Machine.badTaken
  dsimp only
  refine .ite (hrun _ hs) (.ite (hrun _ hs) ?_)
  unfold beginDuty
  exact .ite (Sampled.setDemand (((hrun _ (hrun _ hs)).alters (raise_alters _ _ _ _)).alters
    (modZone_alters _ _ _)) _ _) ((hrun _ (hrun _ hs)).alters (raise_alters _ _ _ _))

theorem Sampled.goodTaken {s : State} (hs : Sampled s) (k c : Nat) : Sampled (goodTaken k c s) := by
  have hrun (f : TempSensor → TempSensor) {u : State} (hu : Sampled u) : Sampled (modSensor k f u) :=
    hu.alters (modSensor_alters k f u)
  unfold Machine.goodTaken
  dsimp only
  refine .ite (.ite (hrun _ (hrun _ hs)) ?_) (hrun _ (hrun _ hs))
  unfold endDuty
  exact .ite (((hrun _ (hrun _ hs)).alters (raise_alters _ _ _ _)).alters (modZone_alters _ _ _))
    ((hrun _ (hrun _ hs)).alters (raise_alters _ _ _ _))

theorem Sampled.thermostat {s : State} (hs : Sampled s) (z : Nat) : Sampled (thermostat z s) := by
  unfold Machine.thermostat
  split
  · exact hs
  · exact .ite (hs.setDemand _ _) (.ite (hs.setDemand _ _) hs)

theorem Sampled.holdTick {s : State} (hs : Sampled s) (z : Nat) : Sampled (holdTick z s) := by
  have hzone (f : ZoneState → ZoneState) : Sampled (modZone z f s) := hs.alters (modZone_alters z f s)
  unfold Machine.holdTick
  dsimp only
  refine .ite hs (.ite (.ite ?_ (hzone _)) (hzone _))
  exact ((hzone _).alters (raise_alters _ _ _ _)).by (holdReachesVend_alters z _) fun h => h.holdReachesVend z

theorem Sampled.zoneSteps {s : State} (hs : Sampled s) (z c : Nat) (b : Bool) : Sampled (zoneSteps z c b s) := by
  have hheat : Sampled (if (s.sensor z).faulted then s else Machine.thermostat z s) := .ite hs (hs.thermostat z)
  have hcheck (u : State) (hu : Sampled u) : Sampled (startCheck z c u) := hu.alters (startCheck_alters z c u)
  exact Sampled.holdTick (.ite (hcheck _ hheat) hheat) z

theorem Sampled.takeSample {s : State} (hs : Sampled s) (k c : Nat) : Sampled (takeSample k c s) := by
  have hheater : Sampled (if k = 2 then heaterTick s else s) := .ite (hs.alters (heaterTick_alters s)) hs
  unfold Machine.takeSample
  dsimp only
  generalize (if k = 2 then heaterTick s else s) = u at hheater ⊢
  have hraw : Sampled (modSensor k (fun r => { r with raw := c, sampled := true }) u) :=
    hheater.alters (modSensor_alters k _ u)
  have htaken : Sampled (if goodSample c then Machine.goodTaken k c _ else Machine.badTaken k c _) :=
    .ite (hraw.goodTaken k c) (hraw.badTaken k c)
  refine .ite ?_ (htaken.zoneSteps k c _)
  have htests := htaken.by (defrostTests_alters _) fun h => h.defrostTests
  exact htests.by (intervalTick_alters _) fun h => h.intervalTick htests.2

/-! ### Power failures, starts and every step -/

theorem stopAll_supply (s : State) : (stopAll s).supply.granted = .none ∧ (stopAll s).supply.waiting = .none := by
  have hsets := endOperations_alters (outputsOff s) .grants (by decide)
  exact hsets

theorem Cooling.ofStopped {s : State} (hgranted : s.supply.granted = .none) (hwaiting : s.supply.waiting = .none)
    (hoff : s.active = false) : Cooling s := by
  refine ⟨fun h => ?_, fun h => ?_, fun h => absurd h (by simp [hoff]), fun h => ?_, fun c hc => ?_⟩
  · rw [hwaiting] at h; exact absurd h (by decide)
  · rw [hgranted] at h; exact absurd h (by decide)
  · rw [hgranted] at h; exact absurd h (by decide)
  · rcases hc with h | h <;> simp [State.active, h] at hoff

theorem budgetLaw_stopped {s : State} (hgranted : s.supply.granted = .none) (hwaiting : s.supply.waiting = .none)
    (hoff : s.active = false) : BudgetLaw s :=
  budgetLaw_idle hgranted hwaiting (.ofStopped hgranted hwaiting hoff)

theorem budgetLaw_powerFail (w : Bool) (s : State) : BudgetLaw (powerFail w s) := by
  obtain ⟨hgranted, hwaiting⟩ := stopAll_supply s
  unfold powerFail
  dsimp only
  split
  · exact budgetLaw_stopped hgranted hwaiting rfl
  · exact budgetLaw_stopped hgranted hwaiting rfl

/-- A start's compressor is locked off, with no off timer yet. -/
theorem startCold_state (img : Option Retained) :
    (startCold img).state = .lockedOff ∧ (startCold img).offTimer = none := by
  unfold startCold
  split <;> exact ⟨rfl, rfl⟩

theorem startSupply_sets (c : Cause) (x : Supply) :
    (startSupply c x).granted = .none ∧ (startSupply c x).waiting = .none := by
  cases c <;> exact ⟨rfl, rfl⟩

theorem budgetLaw_beginStart (c : Cause) (s : State) : BudgetLaw (beginStart c s) := by
  obtain ⟨hlocked, htimer⟩ := startCold_state (latest s.store.retainedA s.store.retainedB)
  obtain ⟨hgranted, hwaiting⟩ := startSupply_sets c s.supply
  have hbegun (u : State) (hg : u.supply.granted = .none) (hw : u.supply.waiting = .none)
      (hl : u.cold.state = .lockedOff) (ht : u.cold.offTimer = none) (ha : u.active = true) : Budgeted u := by
    refine BudgetLaw.budgeted (budgetLaw_idle hg hw ⟨fun h => ?_, fun h => ?_, fun _ h => ?_, fun h => ?_,
      fun _ _ => ⟨hl, ht⟩⟩) ha
    · rw [hw] at h; exact absurd h (by decide)
    · rw [hg] at h; exact absurd h (by decide)
    · rw [hl] at h; exact absurd h (by decide)
    · rw [hg] at h; exact absurd h (by decide)
  have hceiling (u : State) (hu : Budgeted u) : Budgeted (holdToCeiling u) := by
    unfold holdToCeiling
    dsimp only
    split
    · exact hu
    · refine Budgeted.addReturnDue ?_ _
      exact hu.alters (ps := [.amounts]) (by intro p hp; cases p <;> simp_all [Part.same])
  unfold beginStart
  exact (hceiling _ (hbegun _ hgranted hwaiting hlocked htimer rfl)).setSale.law

theorem budgetLaw_reads : Reads budgetParts BudgetLaw := by
  intro s t h hs
  have htables : t.tables = s.tables := h .tables (by decide)
  obtain ⟨hstate, -⟩ := h .supply (by decide)
  obtain ⟨hgranted, hwaiting⟩ := h .grants (by decide)
  obtain ⟨hcomp, hoff, -⟩ := h .compressor (by decide)
  have hpayout : t.change.payout = s.change.payout := h .payout (by decide)
  have hvend : t.drive.vend = s.drive.vend := h .vendOp (by decide)
  have hservice : t.drive.service = s.drive.service := h .serviceOp (by decide)
  have hphase : t.phase = s.phase := h .phase (by decide)
  refine .ofParts (hs.fit.congr (by rw [htables]) hstate hgranted hwaiting)
    (hs.cooling.congr hgranted hwaiting hcomp hoff hphase) (fun x hx => ?_) ?_
  · unfold Supply.asked at hx
    rw [hgranted, hwaiting] at hx
    have howned := hs.owned x hx
    cases x <;> simp only [Owned, hpayout, hvend, hservice] at howned ⊢ <;> exact howned
  · rw [active_congr hphase, hgranted, hwaiting]
    exact hs.stopped

/-- The two laws between steps. -/
structure LoadsLaw (s : State) : Prop where
  credit : CreditLaw s
  budget : BudgetLaw s

/-- What holds of them within a step. -/
structure LoadsKept (s : State) : Prop where
  core : CreditCore s
  budget : BudgetLaw s

theorem LoadsLaw.kept {s : State} (h : LoadsLaw s) : LoadsKept s := ⟨h.credit.core, h.budget⟩

/-- The parts the two laws read. -/
def loadsParts : List Part := [.supply, .grants, .serviceOp, .compressor] ++ creditParts

theorem loadsKept_reads : Reads loadsParts LoadsKept := fun s t h hs =>
  ⟨creditCore_reads s t (fun p hp => h p (List.mem_append_right _ hp)) hs.core,
    budgetLaw_reads s t (fun p hp => h p (by revert p; decide)) hs.budget⟩

theorem loadsLaw_reads : Reads loadsParts LoadsLaw := fun s t h hs =>
  ⟨creditLaw_reads s t (fun p hp => h p (List.mem_append_right _ hp)) hs.credit,
    budgetLaw_reads s t (fun p hp => h p (by revert p; decide)) hs.budget⟩

/-- An operation of an active part that keeps the credit law and the budget law. -/
theorem LoadsLaw.op {ps : List Part} {f : State → State} {s : State} (h : LoadsLaw s)
    (hcredit : KeptBy creditParts ps CreditLaw CreditCore f) (hf : ∀ s, Alters ps s (f s)) (ha : s.active = true)
    (hbudget : Budgeted s → Budgeted (f s)) : LoadsKept (f s) :=
  ⟨hcredit.apply creditCore_reads (fun _ => CreditLaw.core) hf ha h.credit, (hbudget (h.budget.budgeted ha)).law⟩

/-- An operation on parts the credit law does not read. -/
theorem LoadsKept.uncredited {ps : List Part} {s t : State} (h : LoadsKept s) (hf : Alters ps s t)
    (hbudget : BudgetLaw t) (hp : Apart fundsParts ps := by exact (apart_iff _ _).1 rfl) : LoadsKept t :=
  ⟨h.core.alters hf hp, hbudget⟩

theorem LoadsLaw.serveOwner {s : State} (hs : LoadsLaw s) (hrun : s.phase = .run) (r : Request) :
    LoadsKept (serveOwner r s).1 := by
  refine ⟨?_, ?_⟩
  · by_cases h : Apart creditParts r.parts
    · exact creditCore_reads.alters (serveOwner_alters r s) h hs.credit.core
    · exact hs.credit.serveOwner hrun r h
  · by_cases h : Apart budgetParts r.parts
    · exact budgetLaw_reads.alters (serveOwner_alters r s) h hs.budget
    · exact (budgeted_serveOwner (hs.budget.budgeted (active_of_run hrun)) hs.credit hrun r h).law

theorem not_probing_of_samplingOn {s : State} (h : s.samplingOn = true) (c : Cause) :
    ¬(s.phase = .restoring c ∨ s.phase = .probing c) := by
  rintro (hp | hp) <;> simp [State.samplingOn, hp] at h

theorem active_of_samplingOn {s : State} (h : s.samplingOn = true) : s.active = true := by
  unfold State.samplingOn at h
  unfold State.active
  split at h <;> simp_all

/-- Only the phase changes, and the law holds as well of the new one. -/
theorem BudgetLaw.setPhase {s : State} (hs : BudgetLaw s) {x : Phase}
    (hactive : ({ s with phase := x } : State).active = s.active)
    (hprobing : ∀ c, x = .restoring c ∨ x = .probing c → s.cold.state = .lockedOff ∧ s.cold.offTimer = none) :
    BudgetLaw { s with phase := x } := by
  refine .ofParts (hs.fit.congr rfl rfl rfl rfl)
    ⟨hs.cooling.startAsked, hs.cooling.startHeld, fun ha => hs.cooling.starting (hactive ▸ ha), hs.cooling.runHeld,
      hprobing⟩ (fun y hy => ?_) fun hoff => hs.stopped (hactive ▸ hoff)
  have howned := hs.owned y hy
  cases y <;> exact howned

/-- A reading moves the supply's counts; its state only while the part is stopped. -/
theorem BudgetLaw.reading {s : State} (hs : BudgetLaw s) {x : Supply}
    (hx : x.state = s.supply.state ∨ s.active = false) (hgranted : x.granted = s.supply.granted)
    (hwaiting : x.waiting = s.supply.waiting) : BudgetLaw { s with supply := x } := by
  rcases hx with hstate | hoff
  · refine .ofParts (hs.fit.congr rfl hstate hgranted hwaiting) (hs.cooling.congr hgranted hwaiting rfl rfl rfl)
      (fun y hy => ?_) fun hoff => ?_
    · have howned := hs.owned y (by unfold Supply.asked at hy ⊢; rwa [← hgranted, ← hwaiting])
      cases y <;> exact howned
    · obtain ⟨h1, h2⟩ := hs.stopped hoff
      exact ⟨hgranted.trans h1, hwaiting.trans h2⟩
  · obtain ⟨h1, h2⟩ := hs.stopped hoff
    exact budgetLaw_stopped (hgranted.trans h1) (hwaiting.trans h2) hoff

/-- Step 4's end: the compressor was locked off, and is (R104, R127). -/
theorem Budgeted.startsSampling {s : State} (hs : Budgeted s) {c : Cause} (hphase : s.phase = .probing c)
    (n : Option Nat) (d : Cause) :
    Budgeted { s with cold.offTimer := n, cold.state := .lockedOff, phase := .sampling d } := by
  obtain ⟨hlocked, -⟩ := hs.cooling.probing c (.inr hphase)
  obtain ⟨hwaiting, hstart, hrun⟩ := hs.cooling.still (by simp [hlocked, CompState.still])
  refine ⟨hs.fit.congr rfl rfl rfl rfl, .ofStill rfl hwaiting hstart hrun fun c hc => ?_, fun y hy => ?_, rfl⟩
  · simp at hc
  · have howned := hs.owned y hy
    cases y <;> exact howned

theorem not_apart {L ps : List Part} (p : Part) (hL : p ∈ L := by decide) (hps : p ∈ ps := by decide) :
    ¬Apart L ps := fun h => h p hL hps

theorem CreditCore.supplyDecided {s : State} (hs : CreditCore s) (x : Supply) (k : EventKind) (v : Option Word32) :
    CreditCore (budgetChanged (Machine.raise k none v { s with supply := x })) :=
  (CreditCore.raise (s := { s with supply := x }) (hs.alters (setSupply_alters x s)) k none v).alters
    (budgetChanged_alters _)

theorem loadsLaw_kept : Kept loadsParts LoadsLaw LoadsKept where
  before := loadsLaw_reads
  within := loadsKept_reads
  enter _ h := h.kept
  leave _ h hsale := ⟨h.core.law hsale, h.budget⟩
  setSale _ s h := h.uncredited (setSale_alters s) (budgetLaw_reads.alters (setSale_alters s)
    ((apart_iff _ _).1 rfl) h.budget)
  payoutTest _ _ hrun h := ⟨h.core.payoutTest, (h.budget.budgeted (active_of_run hrun)).payoutTest.law⟩
  serveOwner r _ _ hrun h := h.serveOwner hrun r
  endTrans x o _ _ ha h := h.op (creditLaw_kept.endTrans x o) (endTrans_alters x o) ha
    (Budgeted.reports.endTrans x o)
  levelRead n full c _ s ha h := ⟨h.core.same (sameFunds_levelRead n full s c),
    ((h.budget.budgeted ha).revised (levelRead_alters n full s c) (payoutStays_levelRead n full s c)).law⟩
  payoutGiven _ _ ha h := h.op creditLaw_kept.payoutGiven payoutGiven_alters ha Budgeted.payoutGiven
  pulseEnds _ _ ha h := h.op creditLaw_kept.pulseEnds pulseEnds_alters ha fun hb => hb.mapPayout _
  coinAtExit _ _ ha h := h.op creditLaw_kept.coinAtExit coinAtExit_alters ha Budgeted.coinAtExit
  windowCloses _ _ ha h := h.op creditLaw_kept.windowCloses windowCloses_alters ha Budgeted.windowCloses
  expireEscrow _ _ ha h := h.op creditLaw_kept.expireEscrow expireEscrow_alters ha Budgeted.expireEscrow
  probeDone b _ _ ha h := h.op (creditLaw_kept.probeDone b) (probeDone_alters b) ha fun hb => hb.probeDone b
  motorGiven _ _ ha h := h.op creditLaw_kept.motorGiven motorGiven_alters ha Budgeted.motorGiven
  motorStarts b _ _ ha h := h.op (creditLaw_kept.motorStarts b) (motorStarts_alters b) ha fun hb => hb.motorStarts b
  switchCloses l n _ _ ha h := h.op (creditLaw_kept.switchCloses l n) (switchCloses_alters l n) ha
    fun hb => hb.switchCloses l n
  leaveLimitPasses _ _ ha h := h.op creditLaw_kept.leaveLimitPasses leaveLimitPasses_alters ha
    Budgeted.leaveLimitPasses
  revLimitPasses _ _ ha h := h.op creditLaw_kept.revLimitPasses revLimitPasses_alters ha Budgeted.revLimitPasses
  currentJams l _ _ ha h := h.op (creditLaw_kept.currentJams l) (currentJams_alters l) ha fun hb => hb.currentJams l
  currentAt200 n _ _ ha h := h.op (creditLaw_kept.currentAt200 n) (currentAt200_alters n) ha
    fun hb => hb.currentAt200 n
  watchBeam l b _ _ ha h := h.op (creditLaw_kept.watchBeam l b) (watchBeam_alters l b) ha fun hb => hb.watchBeam l b
  takeSample k c _ s hon h := by
    have hbudget : Sampled s := ⟨h.budget.budgeted (active_of_samplingOn hon), not_probing_of_samplingOn hon⟩
    exact ⟨creditLaw_kept.takeSample k c (not_apart .vendOp) s hon h.credit, (hbudget.takeSample k c).1.law⟩
  dutyPhase z _ _ ha h := h.op (creditLaw_kept.dutyPhase z) (dutyPhase_alters z) ha fun hb => by
    unfold dutyPhase
    split
    · exact hb
    · exact (hb.alters (modZone_alters z _ _)).setDemand z _
  offTimerExpires _ _ ha h := h.op creditLaw_kept.offTimerExpires offTimerExpires_alters ha Budgeted.offTimerExpires
  compStartGiven _ _ ha h := h.op creditLaw_kept.compStartGiven compStartGiven_alters ha Budgeted.compStartGiven
  surgeEnds _ _ ha h := h.op creditLaw_kept.surgeEnds surgeEnds_alters ha Budgeted.surgeEnds
  minRunPasses _ _ ha h := h.op creditLaw_kept.minRunPasses minRunPasses_alters ha Budgeted.minRunPasses
  dripEnds _ _ ha h := h.op creditLaw_kept.dripEnds dripEnds_alters ha Budgeted.dripEnds
  doorReads l _ _ ha h := h.op (creditLaw_kept.doorReads l) (doorReads_alters l) ha
    fun hb => hb.alters (doorReads_alters l _)
  reading _ s x hx hg hw h := h.uncredited (ps := [.supply, .grants]) (setSupply_alters x s) (h.budget.reading hx hg hw)
  sagBegins _ s v _ h := ⟨h.core.supplyDecided { s.supply with low := 0, state := .sag } _ _,
    h.budget.sagBegins { s.supply with low := 0, state := .sag } rfl rfl rfl _ _⟩
  sagEnds _ s v _ h := ⟨h.core.supplyDecided { s.supply with good := 0, state := .normal } _ _,
    h.budget.sagEnds { s.supply with good := 0, state := .normal } rfl rfl rfl _ _⟩
  powerFail w _ x h := ⟨h.core.powerFail w x, budgetLaw_powerFail w _⟩
  failFast s x h := by
    have hcore := creditLaw_kept.failFast s x h.core
    obtain ⟨hgranted, hwaiting⟩ := stopAll_supply { s with supply := x }
    generalize stopAll { s with supply := x } = u at hcore hgranted hwaiting ⊢
    exact ⟨hcore, budgetLaw_stopped hgranted hwaiting rfl⟩
  stillSaving _ w w' s hphase h := ⟨creditLaw_kept.stillSaving (not_apart .phase) w w' s hphase h.core,
    h.budget.setPhase (by simp [State.active, hphase]) fun c hc => by simp at hc⟩
  saved _ w s hphase h := ⟨creditLaw_kept.saved (not_apart .phase) w s hphase h.core,
    h.budget.setPhase (by simp [State.active, hphase]) fun c hc => by simp at hc⟩
  beginStart c s h := ⟨creditCore_beginStart c s, budgetLaw_beginStart c s⟩
  powerUp s h := ⟨creditLaw_kept.powerUp s h.core, budgetLaw_stopped rfl rfl rfl⟩
  probing _ c s hphase h := ⟨creditLaw_kept.probing (not_apart .phase) c s hphase h.core,
    h.budget.setPhase (by simp [State.active, hphase]) fun _ _ => h.budget.probing c (.inl hphase)⟩
  sampling _ c s hphase h := by
    have hstays : PayoutStays s (reconcileAll s) :=
      (PayoutStays.foldl (fun u n => payoutStays_reconcile n u) (List.range 6) s).trans
        (.frame (evalExactSilent_alters _))
    have hframe : Alters [.tubes, .shortWait, .payout, .events, .exact] s (reconcileAll s) :=
      (Alters.foldl (fun u n => reconcile n u) (fun u n => reconcile_alters n u) (List.range 6) s).seq
        (evalExactSilent_alters _)
    have hbudget : Budgeted (reconcileAll s) :=
      (h.budget.budgeted (by simp [State.active, hphase])).revised hframe hstays
    have hprobing : (reconcileAll s).phase = .probing c := (hframe .phase (by decide)).trans hphase
    exact ⟨creditLaw_kept.sampling (not_apart .payout) c s hphase h.core, (hbudget.startsSampling hprobing _ c).law⟩
  resetting _ c s hphase h := ⟨creditLaw_kept.resetting (not_apart .phase) c s hphase h.core,
    h.budget.setPhase (by simp [State.active, hphase]) fun c hc => by simp at hc⟩
  complete _ c s hphase h := by
    have hrun : BudgetLaw { s with phase := .run } :=
      h.budget.setPhase (by simp [State.active, hphase]) fun c hc => by simp at hc
    refine ⟨creditLaw_kept.complete (not_apart .phase) c s hphase h.core, ?_⟩
    have hline (x : Line) (e : Events) : BudgetLaw { s with phase := .run, line := x, events := e } :=
      budgetLaw_reads.alters (ps := [.receiver, .trans, .cmdQueue, .passQueue, .ring, .slots, .lineCounts, .maskRecs,
        .coinMasks, .events]) (by intro p hp; cases p <;> simp_all [Part.same]) ((apart_iff _ _).1 rfl) hrun
    exact budgetLaw_reads.alters (raise_alters _ _ _ _) ((apart_iff _ _).1 rfl) (hline _ _)

/-- Settles O12: a load is granted within what the budget leaves, shedding takes the heater and the compressor before it
stops, and an operation that ends gives its load up. -/
theorem loadBudgetIsKept : Obligations.LoadBudgetIsKept := fun _ _ hcredit hbudget h =>
  (loadsLaw_kept.step ⟨hcredit, hbudget⟩ h).budget

end Sys2Proof.Machine
end

