-- ==== Sys2Proof/Proofs/MaskFrames.lean ====
section
/-! What the three masks are read from, and what recomputing them sets (R16, R35, R36). -/

/- One lemma after another, to keep the memory of a compile small. -/
set_option Elab.async false

namespace Sys2Proof.Machine

/-! ### What the masks are read from -/

theorem tube_congr {s t : State} (h : t.change.tubes = s.change.tubes) (n : Nat) : t.tube n = s.tube n := by
  simp only [State.tube, h]

theorem slotOf_congr {s t : State} (h : t.tables = s.tables) (p : Periph) : t.slotOf p = s.slotOf p := by
  simp only [State.slotOf, h]

theorem slot_congr {s t : State} (h : t.line.slots = s.line.slots) (a : Nat) : t.slot a = s.slot a := by
  simp only [State.slot, h]

theorem headroom_congr {s t : State} (htables : t.tables = s.tables) (hcredit : t.credit.credit = s.credit.credit)
    (hhold : t.credit.vendHold = s.credit.vendHold) (hreserve : t.credit.escrowReserve = s.credit.escrowReserve) :
    t.headroom = s.headroom := by
  simp only [State.headroom, State.heldSum, htables, hcredit, hhold, hreserve]

theorem periphPresent_congr {s t : State} (htables : t.tables = s.tables) (hslots : t.line.slots = s.line.slots)
    (p : Periph) : t.periphPresent p = s.periphPresent p := by
  unfold State.periphPresent State.slotPresent
  rw [slotOf_congr htables]
  split
  · rw [slot_congr hslots]
  · rfl

theorem periphSilent_congr {s t : State} (htables : t.tables = s.tables) (hslots : t.line.slots = s.line.slots)
    (p : Periph) : t.periphSilent p = s.periphSilent p := by
  unfold State.periphSilent
  rw [slotOf_congr htables]
  split
  · rw [slot_congr hslots]
  · rfl

/-- The route mask is read from the tubes and the tables. -/
theorem routeMask_alters {ps : List Part} {s t : State} (h : Alters ps s t)
    (hp : Apart [.tables, .tubes] ps := by exact (apart_iff _ _).1 rfl) : routeMask t = routeMask s := by
  have htables : t.tables = s.tables := h .tables (hp _ (by decide))
  have htubes : t.change.tubes = s.change.tubes := h .tubes (hp _ (by decide))
  refine congrArg (maskOf 16) (funext fun k => ?_)
  simp only [inRoute, htables, tube_congr htubes]

theorem inRoute_congr {s t : State} (htables : t.tables = s.tables) (htubes : t.change.tubes = s.change.tubes) (k : Nat) :
    inRoute t k = inRoute s k := by
  simp only [inRoute, htables, tube_congr htubes]

/-- The accept mask is read from the tubes, the tables, the amounts, the slots, the link's state and fill mode. -/
theorem acceptMask_alters {ps : List Part} {s t : State} (h : Alters ps s t)
    (hp : Apart [.tables, .tubes, .amounts, .slots, .linkState, .fill] ps := by exact (apart_iff _ _).1 rfl) :
    acceptMask t = acceptMask s := by
  have htables : t.tables = s.tables := h .tables (hp _ (by decide))
  have htubes : t.change.tubes = s.change.tubes := h .tubes (hp _ (by decide))
  obtain ⟨hcredit, hhold, hreserve, -⟩ := h .amounts (hp _ (by decide))
  have hslots : t.line.slots = s.line.slots := h .slots (hp _ (by decide))
  obtain ⟨hup, -⟩ := h .linkState (hp _ (by decide))
  have hfill : t.lock.fill = s.lock.fill := h .fill (hp _ (by decide))
  refine congrArg (maskOf 16) (funext fun k => ?_)
  unfold inAccept
  rw [inRoute_congr htables htubes, htables, headroom_congr htables hcredit hhold hreserve, hup, hfill,
    periphPresent_congr htables hslots]

/-- The note mask is read from the tables, the amounts, EXACT, the slots, the link's state and fill mode. -/
theorem noteMask_alters {ps : List Part} {s t : State} (h : Alters ps s t)
    (hp : Apart [.tables, .exact, .amounts, .slots, .linkState, .fill] ps := by exact (apart_iff _ _).1 rfl) :
    noteMask t = noteMask s := by
  have htables : t.tables = s.tables := h .tables (hp _ (by decide))
  have hexact : t.change.exact = s.change.exact := h .exact (hp _ (by decide))
  obtain ⟨hcredit, hhold, hreserve, -⟩ := h .amounts (hp _ (by decide))
  have hslots : t.line.slots = s.line.slots := h .slots (hp _ (by decide))
  obtain ⟨hup, -⟩ := h .linkState (hp _ (by decide))
  have hfill : t.lock.fill = s.lock.fill := h .fill (hp _ (by decide))
  refine congrArg (maskOf 8) (funext fun k => ?_)
  unfold inNote noteFits
  rw [htables, headroom_congr htables hcredit hhold hreserve, hup, hfill, hexact, periphSilent_congr htables hslots]

/-! ### What recomputing them sets -/

theorem running_iff (s : State) : s.running = true ↔ s.phase = .run := by
  unfold State.running
  exact beq_iff_eq

theorem recomputeNote_of_run {s : State} (h : s.phase = .run) : recomputeNote s =
    sendMasks .reader (.note (noteMask s)) { s with credit.noteMask := noteMask s } := by
  unfold recomputeNote
  rw [if_pos ((running_iff s).2 h)]

theorem recomputeMasks_of_run {s : State} (h : s.phase = .run) : recomputeMasks s =
    recomputeNote (sendMasks .validator (.coin (acceptMask s) (routeMask s))
      { s with change.accept := acceptMask s, change.route := routeMask s }) := by
  unfold recomputeMasks
  rw [if_pos ((running_iff s).2 h)]

/-- In normal operation the note mask recomputed is that of the state left. -/
theorem recomputeNote_noteMask {s : State} (h : s.phase = .run) : (recomputeNote s).credit.noteMask = noteMask s := by
  rw [recomputeNote_of_run h]
  exact sendMasks_alters _ _ _ .noteMask (by decide)

theorem noteMask_recomputeNote (s : State) : noteMask (recomputeNote s) = noteMask s :=
  noteMask_alters (recomputeNote_alters s)

/-- In normal operation the three masks recomputed are those of the state. -/
theorem recomputeMasks_masks {s : State} (h : s.phase = .run) : (recomputeMasks s).change.accept = acceptMask s ∧
    (recomputeMasks s).change.route = routeMask s ∧ (recomputeMasks s).credit.noteMask = noteMask s := by
  rw [recomputeMasks_of_run h]
  have hsent := sendMasks_alters .validator (.coin (acceptMask s) (routeMask s))
    { s with change.accept := acceptMask s, change.route := routeMask s }
  generalize sendMasks .validator (.coin (acceptMask s) (routeMask s))
    { s with change.accept := acceptMask s, change.route := routeMask s } = u at hsent ⊢
  have hset : Alters [.coinMasks] s { s with change.accept := acceptMask s, change.route := routeMask s } := by
    intro p hp; cases p <;> simp_all [Part.same]
  have hrun : u.phase = .run := (hsent .phase (by decide)).trans h
  have hcoin := (recomputeNote_alters u .coinMasks (by decide))
  have hcoin' := hsent .coinMasks (by decide)
  refine ⟨hcoin.1.trans hcoin'.1, hcoin.2.trans hcoin'.2, ?_⟩
  rw [recomputeNote_noteMask hrun]
  exact (noteMask_alters hsent).trans (noteMask_alters hset)

end Sys2Proof.Machine
end

