-- ==== Sys2Proof/Proofs/ExactLaw.lean ====
section
/-! EXACT through every step (R43, R127): it is evaluated again wherever a count, a condition or a value that the change plan
reads may have changed. -/

/- One lemma after another, to keep the memory of a compile small. -/
set_option Elab.async false

namespace Sys2Proof.Machine

/-! ### The evaluation -/

/-- A probe is found just when some probe of those tried is not exact. -/
theorem firstShort_eq_none (ts : List PlanTube) (g : Nat) (fuel k : Nat) :
    firstShort ts g fuel k = none ↔ ∀ j, k ≤ j → j < k + fuel → (planOver ts (j * g)).exact = true := by
  induction fuel generalizing k with
  | zero =>
    unfold firstShort
    exact ⟨fun _ j h1 h2 => by omega, fun _ => rfl⟩
  | succ fuel ih =>
    unfold firstShort
    split
    next h =>
      rw [ih]
      refine ⟨fun hall j h1 h2 => ?_, fun hall j h1 h2 => hall j (by omega) (by omega)⟩
      by_cases hj : j = k
      · rw [hj]; exact h
      · exact hall j (by omega) (by omega)
    next h =>
      refine ⟨fun h => by simp at h, fun hall => absurd (hall k le_rfl (by omega)) h⟩

/-- The probe found is the first that is not exact. -/
theorem firstShort_eq_some {ts : List PlanTube} {g fuel k a : Nat} (h : firstShort ts g fuel k = some a) :
    ∃ j, k ≤ j ∧ j < k + fuel ∧ (planOver ts (j * g)).exact = false ∧ a = j * g ∧
      ∀ i, k ≤ i → i < j → (planOver ts (i * g)).exact = true := by
  induction fuel generalizing k with
  | zero => simp [firstShort] at h
  | succ fuel ih =>
    unfold firstShort at h
    split at h
    next hk =>
      obtain ⟨j, h1, h2, h3, h4, h5⟩ := ih h
      refine ⟨j, by omega, by omega, h3, h4, fun i hi hij => ?_⟩
      by_cases hik : i = k
      · rw [hik]; exact hk
      · exact h5 i (by omega) hij
    next hk =>
      refine ⟨k, le_rfl, by omega, by simpa using hk, by simpa using h.symm, fun i h1 h2 => by omega⟩

theorem probeShort_iff (s : State) (k : Nat) : probeShort s k ↔ 1 ≤ k ∧ k < 1 + probeCount s.tables.money ∧
    (planOver (planTubes s) (k * s.tables.money.granularity)).exact = false := by
  unfold probeShort probeCount changePlan Config.maxProbes
  refine and_congr_right fun _ => and_congr_left fun _ => ?_
  omega

theorem exactShort_isSome (s : State) : (exactShort s).isSome = true ↔ ∃ k, probeShort s k := by
  constructor
  · intro h
    obtain ⟨a, ha⟩ := Option.isSome_iff_exists.1 h
    obtain ⟨j, h1, h2, h3, -, -⟩ := firstShort_eq_some ha
    exact ⟨j, (probeShort_iff s j).2 ⟨h1, h2, h3⟩⟩
  · rintro ⟨k, hk⟩
    obtain ⟨h1, h2, h3⟩ := (probeShort_iff s k).1 hk
    by_contra hnone
    have hall := (firstShort_eq_none _ _ _ _).1 (by simpa [exactShort] using hnone) k h1 h2
    simp [h3] at hall

/-- The amount found is that of the least probe that falls short. -/
theorem exactShort_least {s : State} {k : Nat} (hk : probeShort s k) (hleast : ∀ j, probeShort s j → k ≤ j) :
    exactShort s = some (k * s.tables.money.granularity) := by
  obtain ⟨a, ha⟩ := Option.isSome_iff_exists.1 ((exactShort_isSome s).2 ⟨k, hk⟩)
  obtain ⟨j, h1, h2, h3, h4, h5⟩ := firstShort_eq_some ha
  have hj : k ≤ j := hleast j ((probeShort_iff s j).2 ⟨h1, h2, h3⟩)
  obtain ⟨hk1, -, hk3⟩ := (probeShort_iff s k).1 hk
  obtain rfl : k = j := by
    by_contra hne
    simp [h5 k hk1 (by omega)] at hk3
  rw [ha, h4]

/-- EXACT agrees with the tubes. -/
def Exact (s : State) : Prop := s.change.exact = (exactShort s).isSome

theorem exact_iff (s : State) : Exact s ↔ (s.change.exact = true ↔ ∃ k, probeShort s k) := by
  rw [← exactShort_isSome, Exact]
  exact Bool.eq_iff_iff

theorem exactLaw_iff (s : State) : ExactLaw s ↔ (s.samplingOn = true → Exact s) := by
  unfold ExactLaw
  rw [exact_iff]

/-! ### What the evaluation reads -/

/-- The tubes' figures and values, the reserves and the probes are the same. -/
structure SameTubes (s t : State) : Prop where
  tubes : t.tables.tubes = s.tables.tubes
  coins : t.tables.coins = s.tables.coins
  granularity : t.tables.money.granularity = s.tables.money.granularity
  ceiling : t.tables.money.probeCeiling = s.tables.money.probeCeiling
  figures : ∀ n, (t.tube n).count = (s.tube n).count ∧ (t.tube n).cond = (s.tube n).cond

theorem SameTubes.refl (s : State) : SameTubes s s := ⟨rfl, rfl, rfl, rfl, fun _ => ⟨rfl, rfl⟩⟩

theorem SameTubes.trans {s t u : State} (h1 : SameTubes s t) (h2 : SameTubes t u) : SameTubes s u :=
  ⟨h2.tubes.trans h1.tubes, h2.coins.trans h1.coins, h2.granularity.trans h1.granularity, h2.ceiling.trans h1.ceiling,
    fun n => ⟨(h2.figures n).1.trans (h1.figures n).1, (h2.figures n).2.trans (h1.figures n).2⟩⟩

theorem SameTubes.frame {ps : List Part} {s t : State} (h : Alters ps s t)
    (hp : Apart [.tables, .tubes] ps := by exact (apart_iff _ _).1 rfl) : SameTubes s t := by
  have htables : t.tables = s.tables := h .tables (hp _ (by decide))
  have htubes : t.change.tubes = s.change.tubes := h .tubes (hp _ (by decide))
  exact ⟨by rw [htables], by rw [htables], by rw [htables], by rw [htables], fun n => by rw [tube_congr htubes]; exact ⟨rfl, rfl⟩⟩

/-- Tubes whose figures are the same, beside the same tables. -/
theorem SameTubes.ofFigures {s t : State} (htables : t.tables = s.tables) (h : tubeFigures s = tubeFigures t) :
    SameTubes s t := by
  refine ⟨by rw [htables], by rw [htables], by rw [htables], by rw [htables], fun n => ?_⟩
  have hget : (tubeFigures t)[n]? = (tubeFigures s)[n]? := by rw [h]
  simp only [tubeFigures, List.getElem?_map] at hget
  simp only [State.tube, List.getD_eq_getElem?_getD]
  cases ht : t.change.tubes[n]? <;> cases hs : s.change.tubes[n]? <;> simp_all

theorem planTubes_congr {s t : State} (h : SameTubes s t) : planTubes t = planTubes s := by
  have hvalue (n : Nat) : t.tables.tubeValue n = s.tables.tubeValue n := by
    simp only [Tables.tubeValue, Tables.coin, Tables.tube, h.tubes, h.coins]
  have husable (n : Nat) : usableCount t n = usableCount s n := by
    unfold usableCount
    rw [(h.figures n).1, (h.figures n).2]
    simp only [Tables.tube, h.tubes]
  simp only [planTubes, hvalue, husable]

theorem exactShort_congr {s t : State} (h : SameTubes s t) : exactShort t = exactShort s := by
  simp only [exactShort, probeCount, planTubes_congr h, h.granularity, h.ceiling]

theorem Exact.same {s t : State} (hs : Exact s) (h : SameTubes s t) (hexact : t.change.exact = s.change.exact) :
    Exact t := by
  unfold Exact
  rw [exactShort_congr h, hexact]
  exact hs

/-- The parts EXACT and its evaluation read. -/
def exactParts : List Part := [.exact, .tubes, .tables]

theorem Exact.alters {ps : List Part} {s t : State} (hs : Exact s) (h : Alters ps s t)
    (hp : Apart exactParts ps := by exact (apart_iff _ _).1 rfl) : Exact t :=
  hs.same (.frame h fun p hq => hp p (by revert p; decide)) (h .exact (hp _ (by decide)))

/-! ### Where it is evaluated -/

/-- A re-evaluation leaves EXACT in agreement with the tubes. -/
theorem exact_evalExact (s : State) : Exact (evalExact s) := by
  have hsame : SameTubes s (evalExact s) := .frame (evalExact_alters s)
  unfold Exact
  rw [exactShort_congr hsame]
  unfold evalExact
  dsimp only
  split
  next h => exact h.symm
  next h =>
    rw [recomputeNote_alters _ .exact (by decide)]
    cases exactShort s <;> rfl

theorem exact_evalExactIf {o s : State} (ho : Exact o) (htables : s.tables = o.tables)
    (hexact : s.change.exact = o.change.exact) : Exact (evalExactIf o s) := by
  unfold evalExactIf
  split
  next h => exact ho.same (.ofFigures htables h) hexact
  next => exact exact_evalExact s

theorem exact_afterTubes (s : State) : Exact (afterTubes s) := (exact_evalExact s).alters (recomputeMasks_alters _)

theorem exact_afterTubesIf {o s : State} (ho : Exact o) (htables : s.tables = o.tables)
    (hexact : s.change.exact = o.change.exact) : Exact (afterTubesIf o s) := by
  unfold afterTubesIf
  split
  next h => exact ho.same (.ofFigures htables h) hexact
  next => exact exact_afterTubes s

/-- EXACT and the tables are not among the parts that have changed. -/
theorem Alters.exact_tables {ps : List Part} {s t : State} (h : Alters ps s t)
    (hp : Apart [.exact, .tables] ps := by exact (apart_iff _ _).1 rfl) :
    t.tables = s.tables ∧ t.change.exact = s.change.exact := ⟨h .tables (hp _ (by decide)), h .exact (hp _ (by decide))⟩

theorem Exact.coinTube {s : State} (hs : Exact s) (k : Nat) : Exact (coinTube k s) := by
  unfold Machine.coinTube
  split
  · exact hs.alters (takeCoin_alters k s)
  next n _ =>
    obtain ⟨htables, hexact⟩ := (coinIntoTube_alters n s).exact_tables
    exact (exact_evalExactIf hs htables hexact).alters (takeCoin_alters k _)

theorem Exact.reports : ReportsKeep Exact where
  quiet h hs := hs.alters h
  coinTube k _ hs := hs.coinTube k
  takeCoin k s hs := hs.alters (takeCoin_alters k s)
  returnLever s hs := hs.alters (returnLever_alters s)
  noteEscrow n s hs := hs.alters (noteEscrow_alters n s)
  noteStacked n s hs := hs.alters (noteStacked_alters n s)
  noteReturned n s hs := hs.alters (noteReturned_alters n s)
  expireEscrow s hs := hs.alters (expireEscrow_alters s)

theorem tubeFigures_setSensor (n : Nat) (full : Bool) (d : Debounce) (s : State) :
    SameTubes s (modTube n (fun t => t.setSensor full d) s) := by
  refine ⟨rfl, rfl, rfl, rfl, fun m => ?_⟩
  unfold TubeState.setSensor
  rw [tube_modTube]
  split
  next h =>
    obtain ⟨rfl, -⟩ := h
    cases full <;> exact ⟨rfl, rfl⟩
  next => exact ⟨rfl, rfl⟩

theorem Exact.levelRead {s : State} (hs : Exact s) (n : Nat) (full c : Bool) (h : s.samplingOn = true) :
    Exact (levelRead n full s c) := by
  have hread (d : Debounce) : Exact (modTube n (fun t => t.setSensor full d) s) :=
    hs.same (tubeFigures_setSensor n full d s) rfl
  unfold Machine.levelRead
  dsimp only
  split
  · exact hread _
  · rw [if_pos h]
    obtain ⟨htables, hexact⟩ := (reconcile_alters n
      (modTube n (fun t => t.setSensor full (((s.tube n).sensor full).read 3 c).1) s)).exact_tables
    exact exact_afterTubesIf (hread _) htables hexact

theorem Exact.coinAtExit {s : State} (hs : Exact s) : Exact (coinAtExit s) := by
  have hcounted (n k v : Nat) (f : Payout → Payout) (x : PayoutKind) : Alters [.tubes, .shortWait, .events, .payout,
      .amounts, .audit, .sale] s (setSale (countPaid x v
        { reconcile n (rawCount n k s) with change.payout := (reconcile n (rawCount n k s)).change.payout.map f })) := by
    have hcount : Alters [.tubes, .shortWait, .events, .payout] s
        { reconcile n (rawCount n k s) with change.payout := (reconcile n (rawCount n k s)).change.payout.map f } :=
      ((rawCount_alters n k s).seq (rs := [.tubes, .shortWait, .events, .payout]) (reconcile_alters n _)).seq
        (mapPayout_alters f _)
    exact (hcount.seq (rs := [.tubes, .shortWait, .events, .payout, .amounts, .audit]) (countPaid_alters x v _)).seq
      (setSale_alters _)
  have hstray : Exact { s with change.stray := satAdd Config.maxCount16 s.change.stray 1 } :=
    hs.alters (ps := [.stray]) (by intro p hp; cases p <;> simp_all [Part.same])
  unfold Machine.coinAtExit
  split
  · exact hstray
  · split
    · exact hstray
    · dsimp only
      split
      · obtain ⟨htables, hexact⟩ := (hcounted _ _ _ _ _).exact_tables
        exact exact_afterTubesIf hs htables hexact
      · exact exact_afterTubes _

theorem Exact.miss {s : State} (hs : Exact s) (n : Nat) (b : Bool) : Exact (miss n b s).1 := by
  unfold Machine.miss
  split
  · obtain ⟨htables, hexact⟩ := (decideTube_alters n s).exact_tables
    exact exact_afterTubesIf hs htables hexact
  · exact hs.alters (mapPayout_alters _ s)

theorem Exact.windowCloses {s : State} (hs : Exact s) : Exact (windowCloses s) := by
  unfold Machine.windowCloses
  split
  · exact hs
  · split
    · exact hs
    · refine Exact.alters (Exact.alters ?_ (replanIfMarked_alters _)) (afterWindow_alters _ _)
      split
      · exact (hs.alters (setPayout_alters _ s)).miss _ _
      · exact hs.alters (setPayout_alters _ s)

/-! ### Requests -/

/-- Tables that leave what EXACT probes. -/
theorem Exact.setTables {s : State} (hs : Exact s) {x : Tables} (htubes : x.tubes = s.tables.tubes)
    (hcoins : x.coins = s.tables.coins) (hgranularity : x.money.granularity = s.tables.money.granularity)
    (hceiling : x.money.probeCeiling = s.tables.money.probeCeiling) : Exact { s with tables := x } :=
  hs.same ⟨htubes, hcoins, hgranularity, hceiling, fun _ => ⟨rfl, rfl⟩⟩ rfl

theorem Exact.setSlotKind {s : State} (hs : Exact s) (slot : Nat) (k : SlotKind) : Exact (setSlotKind slot k s) :=
  Exact.reports.setSlotKind (fun _ _ h => h.setTables rfl rfl rfl rfl) slot k hs

theorem Exact.applySel {s : State} (hs : Exact s) (i : Nat) (new : SelLoaded) : Exact (applySel i new s).1 := by
  obtain ⟨x, hx⟩ := applySel_tables_sels i new s
  have hframe : Alters [.sels, .spirals] _ (Machine.applySel i new s).1 := (applySel_alters i new s).given_tables
  exact (hs.setTables (by rw [hx]) (by rw [hx]) (by rw [hx]) (by rw [hx])).alters hframe

/-- EXACT after the records of a section: but for the coin and tube tables, whose section's end evaluates it. -/
def ExactUnless (table : Nat) (s : State) : Prop := table ≠ 1 → table ≠ 2 → Exact s

theorem ExactUnless.record {table i : Nat} {r : List Byte} {s : State} {x : State × Nat × Nat}
    (hs : ExactUnless table s) (h : recordStep table i r s = .ok x) : ExactUnless table x.1 := by
  intro h1 h2
  have hexact := hs h1 h2
  have hplain {y : Tables} {a b : Nat} (he : Except.ok (ε := ReplyCode) ({ s with tables := y }, a, b) = .ok x)
      (hy : y.tubes = s.tables.tubes ∧ y.coins = s.tables.coins ∧ y.money = s.tables.money) : Exact x.1 := by
    obtain ⟨htubes, hcoins, hmoney⟩ := hy
    cases he
    exact hexact.setTables htubes hcoins (by rw [hmoney]) (by rw [hmoney])
  unfold recordStep at h
  split at h
  · rw [loadMoney_eq] at h
    cases h
    refine Exact.alters ?_ (recomputeMasks_alters _)
    unfold moneyTaken
    split
    next hsame => exact hexact.setTables rfl rfl hsame.1 hsame.2
    next => exact exact_evalExact _
  · exact absurd rfl h1
  · exact absurd rfl h2
  · exact hplain h ⟨rfl, rfl, rfl⟩
  · obtain ⟨new, -, -, -, -, hx⟩ := loadSel_state h
    exact hx ▸ Exact.applySel hexact _ new
  · exact hplain h ⟨rfl, rfl, rfl⟩
  · exact hplain h ⟨rfl, rfl, rfl⟩
  · exact hplain h ⟨rfl, rfl, rfl⟩
  · exact hplain h ⟨rfl, rfl, rfl⟩
  · unfold loadLoads at h
    cases h
    exact Exact.alters (hexact.setTables (x := { s.tables with loads := loadTableOf r }) rfl rfl rfl rfl)
      (budgetChanged_alters _)
  · obtain ⟨k, hx⟩ := loadSlot_state h
    exact hx ▸ Exact.setSlotKind hexact _ k
  · exact hplain h ⟨rfl, rfl, rfl⟩
  · exact hplain h ⟨rfl, rfl, rfl⟩
  · simp at h

theorem Exact.serveLoad {s : State} (hs : Exact s) (table first count : Nat) (records : List Byte) :
    Exact (serveLoad table first count records s).1 := by
  have hafter (u : State) (hu : ExactUnless table u) : Exact (afterSection table u) := by
    unfold afterSection
    split
    · exact (exact_evalExact u).alters (recomputeMasks_alters _)
    · exact (exact_evalExact u).alters (recomputeMasks_alters _)
    · exact (hu (by decide) (by decide)).alters (recomputeNote_alters u)
    next h1 h2 _ => exact hu h1 h2
  unfold Machine.serveLoad loadSection
  split_ifs
  · exact hs
  · exact hs
  · exact hs
  · cases hall : loadAll (recordStep table) first (sectionRecords table count records) 0 0 s with
    | error e => exact hs
    | ok x =>
      have hloaded : ExactUnless table x.1 :=
        loadAll_keeps (P := ExactUnless table) (fun _ _ _ _ hx hu => hu.record hx) _ _ _ _ _ _ hall fun _ _ => hs
      exact (hafter _ hloaded).alters (tablesChanged_alters _)

/-- Factory Clear evaluates EXACT once more after it has cleared the tubes. -/
theorem exact_factoryClear (s : State) : Exact (factoryClear s) :=
  ((exact_afterTubes _).alters (clearHolds_alters _)).alters (clearStore_alters _)

theorem Exact.applyTo {x : State × Nat × Nat} (hx : Exact x.1) (a : Action) (i : Nat) : Exact (applyTo a x i).1 := by
  have hrefill (l : List Nat) (u : State) (hu : Exact u) : Exact (l.foldl (fun s p => refill p s) u) :=
    keeps_foldl (P := Exact) (fun u p hu => hu.alters (modSpiral_alters p _ u)) l hu
  unfold Machine.applyTo
  cases a with
  | setPrice price => exact hx.setTables rfl rfl rfl rfl
  | inhibit => exact hx.alters (modSel_alters i _ _)
  | enable =>
    dsimp only
    split
    · exact hx
    · exact hx.alters (modSel_alters i _ _)
  | restock =>
    dsimp only
    split
    · exact hx
    · exact (hrefill _ _ hx).alters (modSel_alters i _ _)

theorem Exact.serveApply {s : State} (hs : Exact s) (code price : Nat) : Exact (serveApply code price s).1 := by
  obtain ⟨a, l, u, hu, happly⟩ := serveApply_cases code price s
  have happlied : Exact u :=
    (keeps_foldl (P := fun x : State × Nat × Nat => Exact x.1) (fun _ i hx => hx.applyTo a i) l hs :
      Exact (l.foldl (Machine.applyTo a) (s, 0, 0)).1).alters hu
  rcases happly with happly | happly
  · exact (congrArg Exact happly).mpr happlied
  · exact (congrArg Exact happly).mpr (happlied.alters (tablesChanged_alters u))

theorem Exact.serveOwner {s : State} (hs : Exact s) (r : Request) (h : ¬Apart (.phase :: exactParts) r.parts) :
    Exact (serveOwner r s).1 := by
  cases r
  case load table first count records => exact hs.serveLoad table first count records
  case factoryClear =>
    show Exact (serveFactoryClear s).1
    unfold serveFactoryClear
    split_ifs
    · exact hs
    · exact hs
    · exact hs
    · exact exact_factoryClear s
  case apply code price => exact hs.serveApply code price
  case clearTubeFault n =>
    show Exact (serveClearTube n s).1
    unfold serveClearTube
    split
    · exact hs
    · exact exact_afterTubes _
  all_goals exact absurd ((apart_iff _ _).1 rfl) h

/-! ### Every step -/

theorem ExactLaw.exact {s : State} (h : ExactLaw s) (hon : s.samplingOn = true) : Exact s := (exactLaw_iff s).1 h hon

theorem exactLaw_of_off {s : State} (h : s.samplingOn = false) : ExactLaw s :=
  (exactLaw_iff s).2 fun hon => absurd hon (by simp [h])

theorem Exact.law {s : State} (h : Exact s) : ExactLaw s := (exactLaw_iff s).2 fun _ => h

theorem samplingOn_congr {s t : State} (h : t.phase = s.phase) : t.samplingOn = s.samplingOn := by
  simp only [State.samplingOn, h]

/-- An operation that leaves the phase, and EXACT in agreement once the tubes have been reconciled. -/
theorem ExactLaw.by {ps : List Part} {s t : State} (hs : ExactLaw s) (h : Alters ps s t)
    (ht : s.samplingOn = true → Exact s → Exact t) (hp : .phase ∉ ps := by decide) : ExactLaw t := by
  have hsame := samplingOn_congr (h .phase hp)
  exact (exactLaw_iff t).2 fun hon => ht (hsame ▸ hon) (hs.exact (hsame ▸ hon))

theorem exactLaw_reads : Reads (.phase :: exactParts) ExactLaw := by
  intro s t h hs
  have htubes : t.change.tubes = s.change.tubes := h .tubes (by decide)
  have htables : t.tables = s.tables := h .tables (by decide)
  have hexact : t.change.exact = s.change.exact := h .exact (by decide)
  have hsame := samplingOn_congr (h .phase (by decide))
  refine (exactLaw_iff t).2 fun hon => (hs.exact (hsame ▸ hon)).same ⟨?_, ?_, ?_, ?_, fun n => ?_⟩ hexact
  · rw [htables]
  · rw [htables]
  · rw [htables]
  · rw [htables]
  · rw [tube_congr htubes]
    exact ⟨rfl, rfl⟩

theorem exactLaw_kept : Kept (.phase :: exactParts) ExactLaw ExactLaw where
  before := exactLaw_reads
  within := exactLaw_reads
  enter _ h := h
  leave _ h _ := h
  serveOwner r hr s _ h := h.by (serveOwner_alters r s) (fun _ hu => hu.serveOwner r hr) (phase_notMem_parts r)
  endTrans x o _ s _ h := h.by (endTrans_alters x o s) fun _ hu => Exact.reports.endTrans x o hu
  levelRead n full c _ s _ h := h.by (levelRead_alters n full s c) fun hon hu => hu.levelRead n full c hon
  coinAtExit _ s _ h := h.by (coinAtExit_alters s) fun _ hu => hu.coinAtExit
  windowCloses _ s _ h := h.by (windowCloses_alters s) fun _ hu => hu.windowCloses
  powerFail w s x _ := by
    refine exactLaw_of_off ?_
    unfold powerFail
    dsimp only
    split
    · rfl
    · rfl
  failFast _ _ _ := exactLaw_of_off rfl
  stillSaving _ _ _ _ _ _ := exactLaw_of_off rfl
  saved _ _ _ _ _ := exactLaw_of_off rfl
  beginStart c s _ := by
    refine exactLaw_of_off (samplingOn_congr ?_ |>.trans (rfl : ({ s with phase := .restoring c } : State).samplingOn = false))
    unfold beginStart
    exact holdToCeiling_alters _ .phase (by decide)
  powerUp _ _ := exactLaw_of_off rfl
  probing _ _ _ _ _ := exactLaw_of_off rfl
  sampling _ c s _ _ := by
    have hsilent : Exact (reconcileAll s) := by
      unfold reconcileAll
      generalize (List.range 6).foldl (fun s n => reconcile n s) s = u
      have hsame : exactShort (evalExactSilent u) = exactShort u := exactShort_congr (.frame (evalExactSilent_alters u))
      unfold Exact
      rw [hsame]
      rfl
    exact Exact.law (hsilent.alters (ps := [.compressor, .phase]) (by intro p hp; cases p <;> simp_all [Part.same]))
  resetting _ c s hphase h := by
    have hexact := h.exact (by simp [State.samplingOn, hphase])
    exact Exact.law (hexact.alters (setPhase_alters (.lineReset c) s))
  complete _ c s hphase h := by
    have hexact := h.exact (by simp [State.samplingOn, hphase])
    have hrun (x : Line) (e : Events) : Exact { s with phase := .run, line := x, events := e } := hexact
    exact Exact.law ((hrun _ _).alters (raise_alters _ _ _ _))

/-- A re-evaluation that finds EXACT as it was does nothing; another raises its event and renews the note mask. -/
theorem evalExact_cases (s : State) :
    ((exactShort s).isSome = s.change.exact ∧ evalExact s = s) ∨
    (∃ a, exactShort s = some a ∧ s.change.exact = false ∧
      evalExact s = recomputeNote (raise .exactOn none (val a) { s with change.exact := true })) ∨
    (exactShort s = none ∧ s.change.exact = true ∧
      evalExact s = recomputeNote (raise .exactOff none (val 0) { s with change.exact := false })) := by
  unfold evalExact
  dsimp only
  split
  next h => exact .inl ⟨h, rfl⟩
  next h =>
    cases hshort : exactShort s with
    | none => exact .inr (.inr ⟨rfl, by simpa [hshort] using h, rfl⟩)
    | some a => exact .inr (.inl ⟨a, rfl, by simpa [hshort] using h, rfl⟩)

theorem evalExact_changed {s : State} (h : (evalExact s).change.exact ≠ s.change.exact) :
    (s.phase = .run → (evalExact s).credit.noteMask = noteMask (evalExact s)) ∧
    (∀ a, exactShort s = some a → (evalExact s).events = s.events.place (eventAt s.seconds .exactOn none (val a))) ∧
    (exactShort s = none → (evalExact s).events = s.events.place (eventAt s.seconds .exactOff none (val 0))) := by
  rcases evalExact_cases s with ⟨-, hsame⟩ | ⟨a, hshort, -, hon⟩ | ⟨hshort, -, hoff⟩
  · exact absurd (by rw [hsame]) h
  · rw [hon]
    refine ⟨fun hrun => ?_, fun b hb => ?_, fun hnone => by simp [hshort] at hnone⟩
    · rw [noteMask_recomputeNote]
      exact recomputeNote_noteMask (by exact hrun)
    · obtain rfl : a = b := by simpa [hshort] using hb
      exact recomputeNote_alters _ .events (by decide)
  · rw [hoff]
    refine ⟨fun hrun => ?_, fun b hb => by simp [hshort] at hb, fun _ => ?_⟩
    · rw [noteMask_recomputeNote]
      exact recomputeNote_noteMask (by exact hrun)
    · exact recomputeNote_alters _ .events (by decide)

/-- Settles O49: every operation that changes a count, a condition or a value probed ends with a re-evaluation, which reads
nothing else. -/
theorem exactFollowsTheTubes : Obligations.ExactFollowsTheTubes := by
  refine ⟨fun _ _ hs h => exactLaw_kept.step hs h, fun s => ⟨?_, fun hsame => ?_, fun hchanged => ?_⟩⟩
  · have hexact := exact_evalExact s
    unfold Exact at hexact
    rw [exactShort_congr (.frame (evalExact_alters s))] at hexact
    rw [hexact]
    exact exactShort_isSome s
  · rcases evalExact_cases s with ⟨-, h⟩ | ⟨a, -, hoff, h⟩ | ⟨-, hon, h⟩
    · exact h
    · rw [h, recomputeNote_alters _ .exact (by decide), hoff] at hsame
      exact absurd hsame (by simp [raise])
    · rw [h, recomputeNote_alters _ .exact (by decide), hon] at hsame
      exact absurd hsame (by simp [raise])
  · obtain ⟨hmask, hon, hoff⟩ := evalExact_changed hchanged
    refine ⟨evalExact_alters s, hmask, fun k hk hleast => hon _ (exactShort_least hk hleast), fun hnone => hoff ?_⟩
    by_contra hsome
    obtain ⟨k, hk⟩ := (exactShort_isSome s).1 (Option.isSome_iff_ne_none.2 hsome)
    exact hnone k hk

end Sys2Proof.Machine
end

