-- ==== Sys2Proof/Proofs/EveryCommand.lean ====
section
/-! What holds of every command: the step that takes it, its completion, what the end of a step takes, and the laws at
reset. -/

/- One lemma after another, to keep the memory of a compile small. -/
set_option Elab.async false

namespace Sys2Proof.Machine

/-! ### The queue of waiting commands -/

theorem step_cons {c : Instr} {rest : List Instr} {s : State} (h : s.pending = c :: rest) :
    step s = exec c { s with pending := rest } := by
  unfold step
  rw [h]

/-- Settles O1. -/
theorem stepTakesTheFrontCommand : Obligations.StepTakesTheFrontCommand :=
  ⟨fun _ _ _ => step_cons, fun s h => by unfold step; rw [h]⟩

theorem exec_next (c : Instr) (s : State) : ∃ t, exec c s = .next t := by
  cases c <;> exact ⟨_, rfl⟩

theorem powerFail_supply_pending (w : Bool) (s : State) (x : Supply) :
    (powerFail w { s with supply := x }).pending = s.pending :=
  powerFail_supply_alters w x s .pending (by decide)

theorem beginStart_pending (c : Cause) (s : State) : (beginStart c s).pending = s.pending :=
  (setSale_alters _ .pending (by decide)).trans (holdToCeiling_alters _ .pending (by decide))

/-- No operation reads or changes the commands that wait. -/
theorem pending_kept (l : List Instr) : Kept [.pending] (fun s => s.pending = l) (fun s => s.pending = l) where
  before := fun s t h hs => (h .pending (by decide)).trans hs
  within := fun s t h hs => (h .pending (by decide)).trans hs
  enter _ h := h
  leave _ h _ := h
  serveOwner r hr := absurd (by cases r <;> exact (apart_iff _ _).1 rfl) hr
  powerFail w s x h := (powerFail_supply_pending w s x).trans h
  failFast s x h := (stopAll_supply_alters x s .pending (by decide)).trans h
  beginStart c s h := (beginStart_pending c s).trans h
  powerUp _ h := h

/-- Settles O2: every row answers a next state, and no operation changes the commands that wait. -/
theorem everyCommandCompletes : Obligations.EveryCommandCompletes := fun c s => by
  obtain ⟨t, ht⟩ := exec_next c s
  exact ⟨t, ht, (pending_kept s.pending).exec rfl ht⟩

/-! ### The end of a step -/

theorem payoutTest_due {s : State} (h : (payoutTest s).change.payout ≠ s.change.payout) :
    s.change.payout = none ∧ s.credit.inFlight = none ∧ s.credit.returnDue ≠ 0 ∧ s.change.shortWait = false := by
  unfold payoutTest at h
  split at h
  next hdue =>
    simp only [Bool.and_eq_true, Option.isNone_iff_eq_none, bne_iff_ne, Bool.not_eq_true'] at hdue
    obtain ⟨⟨⟨⟨-, hvend⟩, hpayout⟩, howed⟩, hwait⟩ := hdue
    exact ⟨hpayout, hvend, howed, hwait⟩
  · exact absurd rfl h

/-- Settles O3: after the sale state and the payout test, only the matrix and the line are left. -/
theorem endOfStepTakesOnlyWhatIsDue : Obligations.EndOfStepTakesOnlyWhatIsDue := by
  refine fun s hrun => ⟨finish_alters s hrun, finish_sale hrun, fun hnew => ?_⟩
  have hrest : (finish s).change.payout = (payoutTest (setSale s)).change.payout :=
    finish_rest_alters hrun .payout (by decide)
  obtain ⟨hpayout, hvend, howed, hwait⟩ := payoutTest_due (hrest ▸ hnew : _ ≠ (setSale s).change.payout)
  exact ⟨hpayout, hvend, howed, hwait⟩

/-! ### The laws at reset -/

theorem imagesOk_none {α : Type} : imagesOk (none : Option (StoreCopy α)) none none := by simp [imagesOk]

/-- Settles O4: at reset nothing is queued, held, granted or stored, and the tables are the defaults. -/
theorem resetMeetsEveryLaw : Obligations.ResetMeetsEveryLaw := by
  have hlists : ListsOk State.reset.tables := listsOk_default
  have htubes : TubesOk State.reset.tables := tubesOk_default
  refine ⟨eventLaw_initial, ⟨by decide, by decide, .nil⟩, ?_, ?_, temperatureLaw_of_initial rfl, ?_, ?_, ?_, budgetLaw_stopped rfl rfl rfl, ?_,
    exactLaw_of_off rfl, ?_, ?_⟩
  · exact ⟨by decide, by decide, fun h => absurd h (by decide), fun _ _ _ _ h => nomatch h⟩
  · exact ⟨fun _ h => (nomatch h), fun h => absurd h (by decide)⟩
  · exact ⟨htubes, fun _ h => (nomatch h), rfl, by decide⟩
  · exact creditCore_reset.law fun h => nomatch h
  · exact ⟨.inr rfl, fun _ h => (nomatch h)⟩
  · exact ⟨imagesOk_none, imagesOk_none⟩
  · exact fun _ h => nomatch h
  · exact ⟨hlists, fun _ h => (nomatch h)⟩

end Sys2Proof.Machine
end

