-- ==== Sys2Proof/Proofs/LinkReception.lean ====
section
/-! The Controller Link: breaks, rate detection and discarded frames (R160, R161), the lost link (R166), and the waiting
slot (R162, R163). -/

/- One lemma after another, to keep the memory of a compile small. -/
set_option Elab.async false

namespace Sys2Proof.Machine

/-! ### Breaks, discarded frames and rate detection (R160, R161) -/

theorem next_finish {s t : State} (h : s = t) : (.next (finish s) : Result) = .next (finish t) := congrArg _ (congrArg _ h)

/-- A command of normal operation completes as its effect before the end of the step says. -/
theorem completes_of {c : Instr} {s u : State} {ps : List Part} {good : State → Prop}
    (hexec : exec c s = .next (finish u)) (hrun : s.phase = .run) (hu : Alters ps s u) (hp : .phase ∉ ps)
    (hgood : ∀ t, Alters dueParts u t → good t) : Completes c s ps good := by
  have hfinish := finish_alters u ((hu .phase hp).trans hrun)
  exact ⟨_, hexec, hu.seq hfinish (by simp +contextual) (by simp +contextual), hgood _ hfinish⟩

theorem linkBreakSeen_eq (s : State) :
    linkBreakSeen s = { s with link.assembling := s.link.rate.isSome, link.detecting := s.link.rate.isNone } := by
  unfold linkBreakSeen
  cases s.link.rate with
  | none => rfl
  | some r => rfl

theorem linkFraming_of_assembling {s : State} (h : s.link.assembling = true) :
    linkFraming s = { s with link.assembling := false, link.framing := upto16 s.link.framing 1 } := if_pos h
theorem linkTruncated_of_assembling {s : State} (h : s.link.assembling = true) :
    linkTruncated s = { s with link.assembling := false, link.truncated := upto16 s.link.truncated 1 } := if_pos h
theorem linkCrc_of_assembling {s : State} (h : s.link.assembling = true) :
    linkCrc s = { s with link.assembling := false, link.crc := upto16 s.link.crc 1 } := if_pos h

theorem linkFraming_of_free {s : State} (h : s.link.assembling = false) : linkFraming s = s := if_neg (by simp [h])
theorem linkTruncated_of_free {s : State} (h : s.link.assembling = false) : linkTruncated s = s := if_neg (by simp [h])
theorem linkCrc_of_free {s : State} (h : s.link.assembling = false) : linkCrc s = s := if_neg (by simp [h])

theorem within5_iff (low b : Nat) : within5 low b = true ↔ 95 * b ≤ 100 * low ∧ 100 * low ≤ 105 * b := by
  simp only [within5, Bool.and_eq_true, decide_eq_true_eq]
  omega

/-- The five rates lie so far apart that a time is near one of them at most. -/
theorem rates_apart : ∀ x ∈ rates, ∀ y ∈ rates, x = y ∨ 105 * x.1 < 95 * y.1 ∨ 105 * y.1 < 95 * x.1 := by decide

theorem rateFor_of_near {low b : Nat} {r : Rate} (hr : (b, r) ∈ rates) (h : within5 low b = true) :
    rateFor low = some r := by
  have hsome : (rates.find? fun x => within5 low x.1).isSome = true := List.find?_isSome.2 ⟨_, hr, h⟩
  obtain ⟨y, hy⟩ := Option.isSome_iff_exists.1 hsome
  have hnear : within5 low y.1 = true := List.find?_some (p := fun x : Nat × Rate => within5 low x.1) hy
  have hsame : (b, r) = y := by
    rw [within5_iff] at h hnear
    rcases rates_apart _ hr _ (List.mem_of_find?_eq_some hy) with hsame | hfar
    · exact hsame
    · dsimp only at hfar; omega
  rw [rateFor, hy, ← hsame]
  rfl

theorem rateFor_of_far {low : Nat} (h : ∀ x ∈ rates, within5 low x.1 = false) : rateFor low = none := by
  rw [rateFor, List.find?_eq_none.2 fun x hx => by simp [h x hx]]
  rfl

theorem detectRate_of_near {s : State} {low b : Nat} {r : Rate} (hdetect : s.link.detecting = true)
    (hrate : s.link.rate = none) (hr : (b, r) ∈ rates) (h : within5 low b = true) :
    detectRate low s = { s with link.rate := some r, link.detecting := false, link.assembling := true } := by
  unfold detectRate
  rw [if_pos (by simp [hdetect, hrate]), rateFor_of_near hr h]

theorem detectRate_of_far {s : State} {low : Nat} (hdetect : s.link.detecting = true) (hrate : s.link.rate = none)
    (h : ∀ x ∈ rates, within5 low x.1 = false) :
    detectRate low s = { s with link.detecting := false, link.rateFail := upto16 s.link.rateFail 1 } := by
  unfold detectRate
  rw [if_pos (by simp [hdetect, hrate]), rateFor_of_far h]
  rfl

theorem detectRate_of_idle {s : State} (low : Nat) (h : s.link.detecting = false ∨ s.link.rate.isSome = true) :
    detectRate low s = s := by
  unfold detectRate
  rw [if_neg]
  rcases h with h | h
  · simp [h]
  · simp [Option.isSome_iff_ne_none.1 h]

/-- Settles O15: each command counts its noisy characters, then measures, discards or begins. -/
theorem linkReceptionMeasuresDiscardsAndCounts : Obligations.LinkReceptionMeasuresDiscardsAndCounts := by
  refine ⟨fun n s => ⟨?_, fun ha => ⟨?_, ?_, ?_⟩, fun ha => ⟨?_, ?_, ?_⟩⟩, fun low s => ⟨fun hd hr => ⟨?_, ?_⟩, fun h => ?_⟩⟩
  · exact next_finish (linkBreakSeen_eq (countLinkNoisy n s))
  · exact next_finish (linkFraming_of_assembling (s := countLinkNoisy n s) ha)
  · exact next_finish (linkTruncated_of_assembling (s := countLinkNoisy n s) ha)
  · exact next_finish (linkCrc_of_assembling (s := countLinkNoisy n s) ha)
  · exact next_finish (linkFraming_of_free (s := countLinkNoisy n s) ha)
  · exact next_finish (linkTruncated_of_free (s := countLinkNoisy n s) ha)
  · exact next_finish (linkCrc_of_free (s := countLinkNoisy n s) ha)
  · intro b r hbr hlow hhigh
    exact next_finish (detectRate_of_near hd hr hbr ((within5_iff low b).2 ⟨hlow, hhigh⟩))
  · intro hfar
    refine next_finish (detectRate_of_far hd hr fun x hx => ?_)
    have hmem : x.1 ∈ rates.map (·.1) := List.mem_map_of_mem hx
    exact Bool.eq_false_iff.2 fun hnear => hfar x.1 hmem ((within5_iff low x.1).1 hnear)
  · exact next_finish (detectRate_of_idle low h)

/-! ### The lost link (R23, R166, R174) -/

/-- The link as its silence time leaves it, before the masks follow. -/
def silenced (s : State) : State :=
  { s with link.up := false, link.lostAt := s.seconds, link.rate := none, link.linkWasLost := true,
           link.assembling := false, link.detecting := false }

theorem loseLink_of_up {s : State} (h : s.link.up = true) : loseLink s = endSession (recomputeMasks (silenced s)) :=
  if_pos h

theorem loseLink_of_down {s : State} (h : s.link.up = false) : loseLink s = s := if_neg (by simp [h])

theorem acceptMask_of_down {s : State} (h : s.link.up = false) : acceptMask s = 0 := by
  have hnone : inAccept s = fun _ => false := by funext k; simp [inAccept, h]
  rw [acceptMask, hnone]
  rfl

theorem noteMask_of_down {s : State} (h : s.link.up = false) : noteMask s = 0 := by
  have hnone : inNote s = fun _ => false := by funext k; simp [inNote, noteFits, h]
  rw [noteMask, hnone]
  rfl

theorem endSession_unlocked {s : State} (h : s.lock.state = .unlocked) :
    (endSession s).lock.state = .locked ∧ (endSession s).lock.tag = .empty := by
  unfold endSession resetTag
  rw [if_pos h]
  split
  next hempty => exact ⟨rfl, hempty⟩
  · exact ⟨rfl, rfl⟩

theorem endSession_of_not_unlocked {s : State} (h : s.lock.state ≠ .unlocked) : endSession s = s := if_neg h

/-- The two once-marks that only the link and a lost frame set (R165). -/
def onceMarks (s : State) : Bool × Bool := (s.link.lostFrame, s.link.linkWasLost)

theorem onceMarks_resetTag (s : State) : onceMarks (resetTag s) = onceMarks s := by
  unfold resetTag
  split <;> rfl

theorem onceMarks_endSession (s : State) : onceMarks (endSession s) = onceMarks s := by
  unfold endSession
  split
  · exact onceMarks_resetTag _
  · rfl

theorem setReceiver_self {s : State} (ha : s.link.assembling = false) (hd : s.link.detecting = false) :
    { s with link.assembling := false, link.detecting := false } = s := by
  have hlink (x : Link) (hx : x.assembling = false) (hy : x.detecting = false) :
      { x with assembling := false, detecting := false } = x := by
    cases x
    simp_all
  exact congrArg (fun l => ({ s with link := l } : State)) (hlink s.link ha hd)

/-- A valid frame restores a lost link before it is taken (R166). -/
theorem frameValid_of_down (r : Request) {s : State} (h : s.link.up = false) :
    frameValid r s = frameValid r (recomputeMasks (raise .linkRestored none (some (s.seconds - s.link.lostAt))
      { s with link.up := true, link.assembling := false, link.detecting := false })) := by
  have hmasks := recomputeMasks_alters (raise .linkRestored none (some (s.seconds - s.link.lostAt))
      { s with link.up := true, link.assembling := false, link.detecting := false })
  have hup := (hmasks .linkState (by decide)).1
  obtain ⟨-, hassembling, hdetecting⟩ := hmasks .linkRate (by decide)
  have hdown : restoreLink { s with link.assembling := false, link.detecting := false } =
      recomputeMasks (raise .linkRestored none (some (s.seconds - s.link.lostAt))
        { s with link.up := true, link.assembling := false, link.detecting := false }) := if_neg (by simp [h])
  generalize recomputeMasks (raise .linkRestored none (some (s.seconds - s.link.lostAt))
      { s with link.up := true, link.assembling := false, link.detecting := false }) = u at *
  have hself : restoreLink { u with link.assembling := false, link.detecting := false } = u := by
    rw [setReceiver_self hassembling hdetecting]
    exact if_pos hup
  unfold frameValid
  dsimp only
  rw [hdown, hself]

/-- Settles O16: the masks are recomputed with the link down, and a session ends after them. -/
theorem linkIsLostAndRestored : Obligations.LinkIsLostAndRestored := by
  refine ⟨fun s hrun hup => ?_, fun s hdown => next_finish (loseLink_of_down hdown), fun c r s hr hdown => ?_⟩
  · refine completes_of rfl hrun (loseLink_alters s) (by decide) fun t ht => ?_
    rw [loseLink_of_up hup] at ht
    have hmasks := recomputeMasks_alters (silenced s)
    have hended := endSession_alters (recomputeMasks (silenced s))
    obtain ⟨haccept, -, hnote⟩ := recomputeMasks_masks (s := silenced s) hrun
    rw [acceptMask_of_down rfl] at haccept
    rw [noteMask_of_down rfl] at hnote
    have hlink : Alters (.lockState :: .tag :: .marks :: maskParts ++ dueParts) (silenced s) t :=
      (hmasks.seq hended).seq (ps := .lockState :: .tag :: .marks :: maskParts) ht
    have hafter : Alters (.lockState :: .tag :: .marks :: dueParts) (recomputeMasks (silenced s)) t := hended.seq ht
    obtain ⟨hup', hlost⟩ := hlink .linkState (by decide)
    have hcoin := hafter .coinMasks (by decide)
    have hwas : t.link.linkWasLost = true :=
      (ht .marks (by decide)).2.1.trans ((congrArg Prod.snd (onceMarks_endSession _)).trans (hmasks .marks (by decide)).2.1)
    refine ⟨hup', hlost, (hlink .linkRate (by decide)).1, hwas, hcoin.1.trans haccept,
      (hafter .noteMask (by decide)).trans hnote, fun hlock => ?_, fun hlock => ?_⟩
    · have hlock' : (recomputeMasks (silenced s)).lock.state = .unlocked := (hmasks .lockState (by decide)).trans hlock
      obtain ⟨hstate, htag⟩ := endSession_unlocked hlock'
      exact ⟨(ht .lockState (by decide)).trans hstate, (ht .tag (by decide)).trans htag⟩
    · have hlock' : (recomputeMasks (silenced s)).lock.state ≠ .unlocked :=
        fun h => hlock ((hmasks .lockState (by decide)).symm.trans h)
      rw [endSession_of_not_unlocked hlock'] at ht
      exact ⟨(ht .lockState (by decide)).trans (hmasks .lockState (by decide)),
        (ht .tag (by decide)).trans (hmasks .tag (by decide))⟩
  · rw [exec_request hr, exec_request hr]
    exact next_finish (frameValid_of_down r hdown)

/-! ### The waiting slot (R162, R163) -/

theorem frameValid_of_up (r : Request) {s : State} (h : s.link.up = true) (hw : s.link.waiting = none) :
    frameValid r s = takeRequest
      { s with link.assembling := false, link.detecting := false, link.waiting := some r } := by
  unfold frameValid restoreLink
  dsimp only
  rw [if_pos h]
  simp only [hw]

theorem frameValid_of_full (r : Request) {s : State} (h : s.link.up = true) (hw : s.link.waiting.isSome = true) :
    frameValid r s = { s with link.assembling := false, link.detecting := false,
                              link.lost := upto16 s.link.lost 1, link.lostFrame := true } := by
  obtain ⟨q, hq⟩ := Option.isSome_iff_exists.1 hw
  unfold frameValid restoreLink
  dsimp only
  rw [if_pos h]
  simp only [hq]
  rfl

theorem takeRequest_of_answering {s : State} (h : s.link.answer.isSome = true) : takeRequest s = s := by
  unfold takeRequest
  split
  · rfl
  · exact if_neg (by simp [Option.isSome_iff_ne_none.1 h])

theorem takeRequest_of_none {s : State} (h : s.link.waiting = none) : takeRequest s = s := by
  unfold takeRequest
  rw [h]

theorem replyDone_of_none {s : State} (h : s.link.answer = none) : replyDone s = s := by
  unfold replyDone
  rw [h]

theorem replyDone_of_sent {s : State} (h : s.link.answer.isSome = true) (hr : s.link.restarting = false) :
    replyDone s = takeRequest { s with link.answer := none } := by
  obtain ⟨a, ha⟩ := Option.isSome_iff_exists.1 h
  unfold replyDone
  simp only [ha, hr]
  rfl

/-- Settles O17: a request is taken only while no reply is being sent. -/
theorem requestsWaitForTheReplyOrAreLost : Obligations.RequestsWaitForTheReplyOrAreLost := by
  refine ⟨fun c r s hr hup => ⟨fun ha hw => ?_, fun hw => ?_⟩, fun s ha => next_finish (replyDone_of_none ha),
    fun s ha hrestart hw => ?_, fun c r s hr hup ha hrestart hassembling hdetecting => ?_⟩
  · rw [exec_request hr, frameValid_of_up r hup hw]
    exact next_finish (takeRequest_of_answering ha)
  · rw [exec_request hr, frameValid_of_full r hup hw]
  · exact next_finish ((replyDone_of_sent ha hrestart).trans (takeRequest_of_none hw))
  · rw [exec_request hr, frameValid_of_up r (by exact hup) rfl]
    refine next_finish ((replyDone_of_sent (by exact ha) (by exact hrestart)).trans ?_)
    obtain ⟨⟩ := s
    simp_all

end Sys2Proof.Machine
end

