-- ==== Sys2Proof/Proofs/FramesReceived.lean ====
section
/-! Frames received with clean samples are read as they were sent, on both serial paths (R130, R132, R133, R160). -/

/- One lemma after another, to keep the memory of a compile small. -/
set_option Elab.async false

namespace Sys2Proof.Machine

/-! ### Clean characters (R130) -/

theorem majority_cleanChar (b : Byte) : majority (cleanChar b) = (b.setWidth 10 <<< 1) ||| 0x200#10 := by
  simp [majority, cleanChar]

@[simp] theorem isGlitch_cleanChar (b : Byte) : isGlitch (cleanChar b) = false := by
  simp [isGlitch, majority_cleanChar]

@[simp] theorem stopLow_cleanChar (b : Byte) : stopLow (cleanChar b) = false := by
  simp [stopLow, majority_cleanChar]

@[simp] theorem isNoisy_cleanChar (b : Byte) : isNoisy (cleanChar b) = false := by
  simp [isNoisy, cleanChar]

@[simp] theorem charValue_cleanChar (b : Byte) : charValue (cleanChar b) = b := by
  rw [charValue, majority_cleanChar]
  refine BitVec.eq_of_getLsbD_eq fun i hi => ?_
  have hbit : 1 + i < 10 := by omega
  have hstop : (0x200#10)[1 + i] = false := by
    rw [← BitVec.getLsbD_eq_getElem hbit]
    interval_cases i <;> rfl
  simp [hstop, hi, hbit]

@[simp] theorem takenChars_clean (l : List Byte) : takenChars (clean l) = clean l := by
  simp [takenChars, clean]

theorem takenChars_append (k l : List RxChar) : takenChars (k ++ l) = takenChars k ++ takenChars l := by
  simp [takenChars]

@[simp] theorem map_charValue_clean (l : List Byte) : (clean l).map charValue = l := by
  simp [clean, Function.comp_def]

@[simp] theorem any_stopLow_clean (l : List Byte) : (clean l).any stopLow = false := by
  simp [clean]

@[simp] theorem countP_isNoisy_clean (l : List Byte) : (clean l).countP isNoisy = 0 := by
  simp [clean, List.countP_eq_zero]

theorem noisyCount_clean (l : List Byte) : noisyCount (clean l) = 0 := by simp [noisyCount]

@[simp] theorem length_crcChars (l : List Byte) : (crcChars l).length = 2 := rfl

theorem num_ofNat {n : Nat} (h : n < 256) : num (BitVec.ofNat 8 n) = n := by
  simp [num, Nat.mod_eq_of_lt h]

/-! ### Frames of the line (R132, R133) -/

/-- A whole frame whose header is in range is read, and its check compared (R132, R133). -/
theorem readFrame_clean {a k n : Byte} {p rest : List Byte} (ha : num a ≠ 0 ∧ num a ≤ 8) (hn : num n ≤ 32)
    (hp : p.length = num n) (hrest : rest.length = 2) : readFrame (clean (a :: k :: n :: (p ++ rest))) =
      some { address := num a, kind := num k, payload := p, good := rest == crcChars (a :: k :: n :: p) } := by
  unfold readFrame
  simp only [takenChars_clean, map_charValue_clean, any_stopLow_clean, Bool.false_or]
  rw [if_neg (by simp [hp, hrest, ha]; omega), ← hp, List.take_left, List.drop_left]

theorem lineFrame_eq (a k : Nat) (p : List Byte) : lineFrame a k p =
    BitVec.ofNat 8 a :: BitVec.ofNat 8 k :: BitVec.ofNat 8 p.length ::
      (p ++ crcChars (BitVec.ofNat 8 a :: BitVec.ofNat 8 k :: BitVec.ofNat 8 p.length :: p)) := rfl

theorem readFrame_lineFrame {a k : Nat} {p : List Byte} (hlow : 1 ≤ a) (hhigh : a ≤ 8) (hk : k < 256)
    (hp : p.length ≤ 32) : readFrame (clean (lineFrame a k p)) =
      some { address := a, kind := k, payload := p, good := true } := by
  have hanum : num (BitVec.ofNat 8 a) = a := num_ofNat (by omega)
  have hpnum : num (BitVec.ofNat 8 p.length) = p.length := num_ofNat (by omega)
  rw [lineFrame_eq, readFrame_clean (by omega) (by omega) hpnum.symm rfl, hanum, num_ofNat hk]
  simp

/-! ### Frames of the link (R160) -/

theorem readLinkFrame_clean {k n : Byte} {p rest : List Byte} (hn : num n ≤ 96) (hp : p.length = 2 * num n)
    (hrest : rest.length = 2) : readLinkFrame (clean (k :: n :: (p ++ rest))) =
      some { kind := num k, payload := p, good := rest == crcChars (k :: n :: p) } := by
  unfold readLinkFrame
  simp only [takenChars_clean, map_charValue_clean, any_stopLow_clean, Bool.false_or]
  rw [if_neg (by simp [hp, hrest]; omega), ← hp, List.take_left, List.drop_left]

theorem readLinkFrame_of_payload {k : Byte} {p rest : List Byte} (hp : p.length ≤ 192) (heven : p.length % 2 = 0)
    (hrest : rest.length = 2) : readLinkFrame (clean (k :: BitVec.ofNat 8 (p.length / 2) :: (p ++ rest))) =
      some { kind := num k, payload := p,
             good := rest == crcChars (k :: BitVec.ofNat 8 (p.length / 2) :: p) } := by
  have hnum : num (BitVec.ofNat 8 (p.length / 2)) = p.length / 2 := num_ofNat (by omega)
  exact readLinkFrame_clean (by omega) (by omega) hrest

theorem countLinkNoisy_zero {s : State} (h : s.link.noisy ≤ 65535) : countLinkNoisy 0 s = s := by
  have hcount : satAdd Config.maxCount16 s.link.noisy 0 = s.link.noisy := by
    rw [show satAdd Config.maxCount16 s.link.noisy 0 = min 65535 (s.link.noisy + 0) from rfl]
    omega
  unfold countLinkNoisy
  rw [hcount]

theorem linkFrame_eq (k : Byte) (p : List Byte) : linkFrame k p = k :: BitVec.ofNat 8 (p.length / 2) ::
    (p ++ crcChars (k :: BitVec.ofNat 8 (p.length / 2) :: p)) := rfl

theorem linkFrameSeen_linkFrame {k : Byte} {p : List Byte} {s : State} (hp : p.length ≤ 192)
    (heven : p.length % 2 = 0) (ha : s.link.assembling = true) (hn : s.link.noisy ≤ 65535) :
    linkFrameSeen (clean (linkFrame k p)) s = frameValid (readRequest k.toNat p) s := by
  unfold linkFrameSeen
  rw [if_pos ha, linkFrame_eq, readLinkFrame_of_payload hp heven rfl]
  simp [noisyCount_clean, countLinkNoisy_zero hn, num]

theorem linkFrameSeen_of_bad_check {k : Byte} {p rest : List Byte} {s : State} (hp : p.length ≤ 192)
    (heven : p.length % 2 = 0) (ha : s.link.assembling = true) (hn : s.link.noisy ≤ 65535) (hlen : rest.length = 2)
    (hrest : rest ≠ crcChars (k :: BitVec.ofNat 8 (p.length / 2) :: p)) :
    linkFrameSeen (clean (k :: BitVec.ofNat 8 (p.length / 2) :: (p ++ rest))) s = linkCrc s := by
  unfold linkFrameSeen
  rw [if_pos ha, readLinkFrame_of_payload hp heven hlen]
  simp [noisyCount_clean, countLinkNoisy_zero hn, hrest]

/-! ### A stop bit that reads low (R160) -/

/-- A frame of clean characters that its header leaves unfinished. -/
def Unfinished (before : List Byte) : Prop :=
  ∀ kind l p, before = kind :: l :: p → l.toNat ≤ 96 ∧ p.length < 2 * l.toNat + 2

theorem Unfinished.header {before : List Byte} (h : Unfinished before) : badLinkHeader before = none := by
  match before, h with
  | [], _ => rfl
  | [_], _ => rfl
  | k :: l :: p, h => exact if_neg (by have := h k l p rfl; unfold num; omega)

theorem Unfinished.size {before : List Byte} (h : Unfinished before) {n : Nat} (hn : linkSize before = some n) :
    before.length < n := by
  match before, h with
  | k :: l :: p, h =>
    obtain rfl : 2 * num l + 4 = n := by simpa [linkSize] using hn
    have := h k l p rfl
    simp only [List.length_cons, num]
    omega

theorem takenChars_cons {c : RxChar} (h : isGlitch c = false) (l : List RxChar) :
    takenChars (c :: l) = c :: takenChars l := by
  simp [takenChars, h]

theorem takeWhile_sound {c : RxChar} (h : stopLow c = true) (before : List Byte) (after : List RxChar) :
    (clean before ++ c :: after).takeWhile (fun x => !stopLow x) = clean before := by
  rw [List.takeWhile_append_of_pos (by simp [clean])]
  simp [h]

/-- The characters before the low stop bit are a frame still going on. -/
theorem cutShort_of_low_stop {before : List Byte} {c : RxChar} (hg : isGlitch c = false) (hc : stopLow c = true)
    (h : Unfinished before) (after : List Byte) :
    cutShort badLinkHeader linkSize (clean before ++ c :: clean after) = .framing 0 := by
  unfold cutShort
  simp only [takenChars_append, takenChars_clean, takenChars_cons hg, takeWhile_sound hc, map_charValue_clean,
    h.header, noisyCount_clean]
  rw [if_pos]
  rw [Bool.and_eq_true, decide_eq_true_eq]
  refine ⟨by simp, ?_⟩
  split
  next n hn => exact decide_eq_true (h.size hn)
  · rfl

theorem readLinkFrame_of_low_stop {before : List Byte} {c : RxChar} (hg : isGlitch c = false) (hc : stopLow c = true)
    (after : List Byte) : readLinkFrame (clean before ++ c :: clean after) = none := by
  unfold readLinkFrame
  simp only [takenChars_append, takenChars_clean, takenChars_cons hg]
  split
  · exact if_pos (by simp [hc])
  · rfl

theorem linkFrameSeen_of_low_stop {before : List Byte} {c : RxChar} {s : State} (hg : isGlitch c = false)
    (hc : stopLow c = true) (h : Unfinished before) (after : List Byte) (ha : s.link.assembling = true)
    (hn : s.link.noisy ≤ 65535) : linkFrameSeen (clean before ++ c :: clean after) s = linkFraming s := by
  unfold linkFrameSeen linkCutShort
  rw [if_pos ha, readLinkFrame_of_low_stop hg hc after]
  simp only [cutShort_of_low_stop hg hc h after, countLinkNoisy_zero hn]

/-- Settles O14: clean samples give back every character, so a frame is read as composed and its check compared. -/
theorem framesAreReadAsSent : Obligations.FramesAreReadAsSent := by
  refine ⟨fun a k p hlow hhigh hk hp => readFrame_lineFrame hlow hhigh hk hp, fun kind p s hp heven ha hn => ?_,
    fun kind h l p s hp heven ha hn hcheck => ?_, fun before after c s hg hc hbefore ha hn => ?_⟩
  · exact next_finish (linkFrameSeen_linkFrame hp heven ha hn)
  · exact next_finish ((linkFrameSeen_of_bad_check hp heven ha hn rfl hcheck).trans (linkCrc_of_assembling ha))
  · exact next_finish ((linkFrameSeen_of_low_stop hg hc hbefore after ha hn).trans (linkFraming_of_assembling ha))

end Sys2Proof.Machine
end

