-- ==== Sys2Proof/Proofs/RequestsAnswered.lean ====
section
/-! Requests in general: the reply and its frame (R164, R165), the gate and the tag reset (R163, R174, R180), requests of
no kind or the wrong length (R163), Status, Read Table Section and Fetch Events (R168, R169, R171). -/

/- One lemma after another, to keep the memory of a compile small. -/
set_option Elab.async false

namespace Sys2Proof.Machine

/-! ### The condition set and the once-marks (R165) -/

theorem getLsbD_conditions : ∀ b0 b1 b2 b3 b4 b5 : Bool,
    let x := condBit 0 b0 ||| condBit 1 b1 ||| condBit 2 b2 ||| condBit 3 b3 ||| condBit 4 b4 ||| condBit 5 b5
    x.getLsbD 0 = b0 ∧ x.getLsbD 1 = b1 ∧ x.getLsbD 2 = b2 ∧ x.getLsbD 3 = b3 ∧ x.getLsbD 4 = b4 ∧ x.getLsbD 5 = b5 := by
  decide

theorem onceMarks_serveOwner (r : Request) (s : State) : onceMarks (serveOwner r s).1 = onceMarks s := by
  by_cases hlock : r = .lock
  · subst hlock
    show onceMarks (serveLock s).1 = _
    unfold serveLock
    split
    · exact onceMarks_endSession s
    · rfl
    · rfl
  · have hmarks : Part.marks ∉ r.parts := by
      cases r with
      | lock => exact absurd rfl hlock
      | _ => exact (apart_iff [.marks] _).1 rfl _ (by decide)
    obtain ⟨hframe, hlost, -⟩ := serveOwner_alters r s .marks hmarks
    exact Prod.ext hframe hlost

/-- Serving a request leaves the once-marks that it does not set itself. -/
theorem onceMarks_serve (r : Request) (s : State) : onceMarks (serve r s).1 = onceMarks s := by
  have hentry : onceMarks (if r.keepsTag then s else resetTag s) = onceMarks s := by
    split
    · rfl
    · exact onceMarks_resetTag s
  unfold serve
  dsimp only
  generalize (if r.keepsTag then s else resetTag s) = u at hentry ⊢
  split
  · exact hentry
  · exact (onceMarks_serveOwner r u).trans hentry

/-! ### The reply (R163, R164) -/

/-- What a request that is taken leaves, before the rest of the step: its owner's effect, with the payout test. -/
def servedState (r : Request) (s : State) : State :=
  setSale (payoutTest (setSale
    (serve r { s with link.assembling := false, link.detecting := false, link.waiting := none }).1))

/-- The reply of a request that is taken. -/
def servedReply (r : Request) (s : State) : Reply :=
  let x := serve r { s with link.assembling := false, link.detecting := false, link.waiting := none }
  makeReply (r.kind ||| 0x80) x.2.1 (conditionSet (servedState r s)) x.2.2

theorem exec_taken {c : Instr} {r : Request} {s : State} (hr : requestOf c = some r) (hs : Ready s) :
    exec c s = .next (finish { clearMarks (servedState r s) with link.answer := some (servedReply r s) }) := by
  rw [exec_request hr, frameValid_of_ready r hs]
  rfl

theorem setSale_payoutTest_alters (s : State) :
    Alters [.sale, .payout, .grants] s (setSale (payoutTest (setSale s))) :=
  ((setSale_alters s).seq (rs := [.sale, .payout, .grants]) (payoutTest_alters _)).seq (setSale_alters _)

theorem servedState_alters (r : Request) (s : State) :
    Alters (.linkRate :: .staging :: .tag :: .marks :: r.parts ++ [.sale, .payout, .grants]) s (servedState r s) := by
  have htaken : Alters [.linkRate, .staging] s
      { s with link.assembling := false, link.detecting := false, link.waiting := none } := by
    intro p hp; cases p <;> simp_all [Part.same]
  exact (htaken.seq (serve_alters r _) (by simp) (by simp; tauto)).seq
    (ps := .linkRate :: .staging :: .tag :: .marks :: r.parts) (setSale_payoutTest_alters _)
    (by simp +contextual) (by simp +contextual)

theorem servedState_run {r : Request} {s : State} (hs : Ready s) : (servedState r s).phase = .run :=
  (servedState_alters r s .phase (by simp [phase_notMem_parts r])).trans hs.run

theorem onceMarks_servedState (r : Request) (s : State) : onceMarks (servedState r s) = onceMarks s := by
  obtain ⟨hframe, hlost, -⟩ := setSale_payoutTest_alters
    (serve r { s with link.assembling := false, link.detecting := false, link.waiting := none }).1 .marks (by decide)
  exact (Prod.ext hframe hlost : onceMarks (servedState r s) = onceMarks _).trans (onceMarks_serve r _)

/-- The step of a request that is taken: the state it leaves, its reply in progress, and the once-marks clear. -/
theorem taken_ends {c : Instr} {r : Request} {s : State} (hr : requestOf c = some r) (hs : Ready s) :
    ∃ t, exec c s = .next t ∧ t.link.answer = some (servedReply r s) ∧
      Alters (.staging :: .marks :: dueParts) (servedState r s) t ∧
      t.link.lostFrame = false ∧ t.link.linkWasLost = false ∧ t.link.tagReset = false := by
  have hset : Alters [.staging, .marks] (servedState r s)
      { clearMarks (servedState r s) with link.answer := some (servedReply r s) } := by
    intro p hp; cases p <;> simp_all [Part.same, clearMarks]
  have hfinish := finish_alters { clearMarks (servedState r s) with link.answer := some (servedReply r s) }
    (servedState_run hs)
  obtain ⟨hframe, hlost, htag⟩ := hfinish .marks (by decide)
  exact ⟨_, exec_taken hr hs, (hfinish .staging (by decide)).2.1, hset.seq hfinish, hframe, hlost, htag⟩

/-- Settles O18: the reply shows the state the request leaves, and the end of the step changes nothing it shows. -/
theorem everyRequestIsAnsweredInItsStep : Obligations.EveryRequestIsAnsweredInItsStep := by
  intro c r s hr hs
  obtain ⟨t, hexec, hanswer, hframe, hmarks⟩ := taken_ends hr hs
  have hshown (u : State) := getLsbD_conditions (!u.events.queue.isEmpty) u.change.exact u.storeDefaults u.link.lostFrame
    u.link.tagReset u.link.linkWasLost
  obtain ⟨h0, h1, h2, h3, -, h5⟩ := hshown (servedState r s)
  have hevents : t.events = (servedState r s).events := hframe .events (by decide)
  have hexact : t.change.exact = (servedState r s).change.exact := hframe .exact (by decide)
  have hdefaults : t.storeDefaults = (servedState r s).storeDefaults := hframe .storeDefaults (by decide)
  have honce := onceMarks_servedState r s
  refine ⟨t, servedReply r s, hexec, hanswer, rfl, rfl, ?_, ?_, ?_, ?_, ?_, ?_, hmarks⟩
  · exact ((servedState_alters r s).mono (by simp [dueParts]; tauto)).trans (hframe.mono (by simp +contextual))
  · rw [hevents]; exact h0
  · rw [hexact]; exact h1
  · rw [hdefaults]; exact h2
  · exact h3.trans (congrArg Prod.fst honce)
  · exact h5.trans (congrArg Prod.snd honce)

/-! ### The gate and the tag reset (R163, R174, R180) -/

theorem resetTag_tag (s : State) : (resetTag s).lock.tag = .empty := by
  unfold resetTag
  split
  · assumption
  · rfl

theorem resetTag_tagReset {s : State} (h : s.lock.tag ≠ .empty) : (resetTag s).link.tagReset = true := by
  unfold resetTag
  rw [if_neg h]

theorem resetTag_of_empty {s : State} (h : s.lock.tag = .empty) : resetTag s = s := if_pos h

theorem endSession_of_empty {s : State} (h : s.lock.tag = .empty) :
    (endSession s).lock.tag = .empty ∧ (endSession s).link.tagReset = s.link.tagReset := by
  have hreset : resetTag { s with lock.state := .locked } = { s with lock.state := .locked } := resetTag_of_empty h
  unfold endSession
  split
  · rw [hreset]
    exact ⟨h, rfl⟩
  · exact ⟨h, rfl⟩

/-- A request served with an EMPTY tag sequence record leaves it so, and the mark with it. -/
theorem serveOwner_tag {r : Request} (hr : r.keepsTag = false) {s : State} (h : s.lock.tag = .empty) :
    (serveOwner r s).1.lock.tag = .empty ∧ (serveOwner r s).1.link.tagReset = s.link.tagReset := by
  have hframe := serveOwner_alters r s
  cases r with
  | lock =>
    show (serveLock s).1.lock.tag = _ ∧ (serveLock s).1.link.tagReset = _
    unfold serveLock
    split
    · exact endSession_of_empty h
    · exact ⟨h, rfl⟩
    · exact ⟨h, rfl⟩
  | factoryClear =>
    refine ⟨?_, (hframe .marks (by decide)).2.2⟩
    show (serveFactoryClear s).1.lock.tag = _
    unfold serveFactoryClear
    split_ifs
    · exact h
    · exact h
    · exact h
    · have hcleared := factoryClear_alters_lock s .tag (by decide)
      exact hcleared.trans (endFill_alters _ _ .tag (by decide))
  | tagFirst _ _ => exact nomatch hr
  | tagLast _ _ => exact nomatch hr
  | untag _ => exact nomatch hr
  | apply _ _ => exact nomatch hr
  | _ => exact ⟨(hframe .tag ((apart_iff [.tag] _).1 rfl _ (by decide))).trans h,
      (hframe .marks ((apart_iff [.marks] _).1 rfl _ (by decide))).2.2⟩

/-- A request outside the tagging group, Status and Fetch Events empties a tag sequence record, with its mark. -/
theorem serve_tag {r : Request} (hr : r.keepsTag = false) {s : State} (h : s.lock.tag ≠ .empty) :
    (serve r s).1.lock.tag = .empty ∧ (serve r s).1.link.tagReset = true := by
  unfold serve
  simp only [hr, Bool.false_eq_true, if_false]
  split
  · exact ⟨resetTag_tag s, resetTag_tagReset h⟩
  · obtain ⟨htag, hmark⟩ := serveOwner_tag hr (resetTag_tag s)
    exact ⟨htag, hmark.trans (resetTag_tagReset h)⟩

/-- Settles O19. -/
theorem gateRefusesWhenLockedAndResetsTheTagSequence : Obligations.GateRefusesWhenLockedAndResetsTheTagSequence := by
  refine ⟨fun c r s hr hg hs hl => refuses_locked hr hs hg hl, fun c r s hr hkeeps hs htag => ?_⟩
  obtain ⟨t, hexec, hanswer, hframe, -, -, hmark⟩ := taken_ends hr hs
  obtain ⟨hempty, hreset⟩ := serve_tag hkeeps
    (s := { s with link.assembling := false, link.detecting := false, link.waiting := none }) htag
  have htest := setSale_payoutTest_alters
    (serve r { s with link.assembling := false, link.detecting := false, link.waiting := none }).1
  have htag' : (servedState r s).lock.tag = .empty := (htest .tag (by decide)).trans hempty
  have hreset' : (servedState r s).link.tagReset = true := (htest .marks (by decide)).2.2.trans hreset
  refine ⟨t, servedReply r s, hexec, (hframe .tag (by decide)).trans htag', hanswer, ?_, hmark⟩
  obtain ⟨-, -, -, -, h4, -⟩ := getLsbD_conditions (!(servedState r s).events.queue.isEmpty)
    (servedState r s).change.exact (servedState r s).storeDefaults (servedState r s).link.lostFrame
    (servedState r s).link.tagReset (servedState r s).link.linkWasLost
  exact h4.trans hreset'

/-! ### What an owner's answer makes of the step -/

theorem payoutTest_of_payout {s : State} (h : s.change.payout.isSome = true) : payoutTest s = s := by
  unfold payoutTest
  rw [if_neg]
  simp [Option.isSome_iff_ne_none.1 h]

theorem finish_payout_of_payout {s : State} (h : s.phase = .run) (hp : s.change.payout.isSome = true) :
    (finish s).change.payout = s.change.payout := by
  have hf : (finish s).change.payout = (payoutTest (setSale s)).change.payout :=
    finish_rest_alters h .payout (by decide)
  rw [hf, payoutTest_of_payout (s := setSale s) hp, setSale_change]

theorem asked_grantRule {s : State} {l : Load} (h : s.supply.asked l) : (grantRule s).supply.asked l := by
  obtain ⟨hmoves, hwaits⟩ := grantLoop_moves s.tables.loads s.effectiveBudget grantPriority s.supply.granted
    s.supply.waiting l
  by_cases hw : (grantRule s).supply.waiting.has l = true
  · exact .inr hw
  · exact .inl (hmoves.2 (h.imp_right fun hwait => ⟨hwait, Bool.eq_false_iff.2 hw⟩))

theorem asked_request (x : Load) {s : State} {l : Load} (h : s.supply.asked l) : (request x s).supply.asked l := by
  unfold request
  split
  · exact h
  · refine asked_grantRule (h.imp_right fun hwait => ?_)
    show (s.supply.waiting.put x true).has l = true
    rw [has_put]
    split
    · rfl
    · exact hwait

theorem asked_requested (x : Load) (s : State) : (request x s).supply.asked x := by
  unfold request
  split
  next h => simpa [Supply.asked] using h
  · refine asked_grantRule (.inr ?_)
    show (s.supply.waiting.put x true).has x = true
    rw [has_put, if_pos rfl]

theorem asked_payoutTest {s : State} {l : Load} (h : s.supply.asked l) : (payoutTest s).supply.asked l := by
  unfold payoutTest startPayout
  split
  · exact asked_request .payout (by exact h)
  · exact h

theorem asked_of_alters {ps : List Part} {s t : State} {l : Load} (h : Alters ps s t) (hs : s.supply.asked l)
    (hp : .grants ∉ ps := by decide) : t.supply.asked l := by
  obtain ⟨hgranted, hwaiting⟩ := h .grants hp
  unfold Supply.asked
  rwa [hgranted, hwaiting]

/-- No load asked for is given up at the end of a step. -/
theorem asked_finish {s : State} {l : Load} (hrun : s.phase = .run) (h : s.supply.asked l) :
    (finish s).supply.asked l :=
  asked_of_alters (finish_rest_alters hrun) (asked_payoutTest (s := setSale s) h)

/-- How the step of a request ends, from the state its owner leaves: with the sale state of the tests, and no other
payout than one left in flight or due (R4, R5). -/
structure Ends (u t : State) : Prop where
  frame : Alters (.staging :: .marks :: dueParts) u t
  sale : t.credit.sale = saleOf t
  payout : u.change.payout.isSome = true → t.change.payout = u.change.payout
  unpaid : u.credit.returnDue = 0 → t.change.payout = u.change.payout
  asked : ∀ l, u.supply.asked l → t.supply.asked l

theorem answered_ends (r : Request) {x : Served} (hrun : x.1.phase = .run) :
    Ends x.1 (finish (answered r x)) := by
  have hframe := answered_alters r x
  have hrun' : (answered r x).phase = .run := (hframe .phase (by decide)).trans hrun
  refine ⟨?_, finish_sale hrun', fun hp => ?_, fun hdue => ?_, fun l hl => ?_⟩
  · exact (hframe.mono).trans ((finish_alters _ hrun').mono)
  · have hanswered : (answered r x).change.payout = x.1.change.payout := by
      show (setSale (payoutTest (setSale x.1))).change.payout = _
      rw [setSale_change, payoutTest_of_payout (s := setSale x.1) hp, setSale_change]
    rw [finish_payout_of_payout hrun' (by rw [hanswered]; exact hp)]
    exact hanswered
  · obtain ⟨-, -, -, hdue'⟩ := hframe .amounts (by decide)
    exact (finish_payout_of_nothing_owed hrun' (hdue'.trans hdue)).trans (answered_payout_of_nothing_owed hdue)
  · exact asked_finish hrun' (asked_payoutTest (s := setSale x.1) hl)

section
variable {c : Instr} {r : Request} {s : State} (hr : requestOf c = some r) (hs : Ready s)
  (hg : r.gated = true → s.lock.state ≠ .locked)
include hg

theorem serve_passes :
    serve r { s with link.assembling := false, link.detecting := false, link.waiting := none } =
      serveOwner r (received r s) := by
  refine if_neg ?_
  rw [Bool.and_eq_true, beq_iff_eq]
  exact fun h => hg h.1 ((received_lock_state r s).symm.trans h.2)

include hr hs

theorem exec_served {x : Served} (hx : serveOwner r (received r s) = x) :
    exec c s = .next (finish (answered r x)) := by
  rw [exec_request hr, frameValid_of_ready r hs, serve_passes hg, hx]

/-- The reply of a request that its owner serves, with its kind worked out. -/
theorem replies_served {x : Served} (hx : serveOwner r (received r s) = x) {parts : List Part}
    (hp : Alters parts (received r s) x.1) (ht : r.keepsTag = true ∨ .tag ∈ parts) (hrun : .phase ∉ parts)
    {good : State → Prop} (hgood : ∀ t, Ends x.1 t → good t) {kind : Nat}
    (hkind : r.kind ||| 0x80 = kind := by simp [Request.kind]) : Replies c s kind x.2.1 x.2.2 parts good := by
  have hphase : x.1.phase = .run := (hp .phase hrun).trans ((received_phase r s).trans hs.run)
  refine hkind ▸ (replies_of_owner (good := fun _ => True) hr hs hg hx hp ht hrun fun _ _ => trivial).strengthen
    fun t hexec _ => hgood t ?_
  rw [exec_served hr hs hg hx] at hexec
  cases hexec
  exact answered_ends r hphase

/-- A request that its owner refuses with nothing changed. -/
theorem refuses_served {outcome : ReplyCode} {payload : List Byte}
    (hx : serveOwner r (received r s) = (received r s, outcome, payload)) {kind : Nat}
    (hkind : r.kind ||| 0x80 = kind := by simp [Request.kind]) : Refuses c s kind outcome payload :=
  replies_served hr hs hg hx (.refl [.tag] _) (.inr (by decide)) (by decide) (fun _ _ => trivial) hkind

end

/-- A gated request in LOCKED is refused (R163, R174). -/
theorem refuses_gate {c : Instr} {r : Request} {s : State} (hr : requestOf c = some r) (hs : Ready s)
    (hg : r.gated = true) (hl : s.lock.state = .locked) {kind : Nat}
    (hkind : r.kind ||| 0x80 = kind := by simp [Request.kind]) : Refuses c s kind .locked [] :=
  hkind ▸ refuses_locked hr hs hg hl

/-! ### Unknown and misfit requests (R163) -/

theorem readRequest_unknown {kind : Nat} (h : isRequestKind kind = false) (p : List Byte) :
    readRequest kind p = .unknown kind := by
  unfold readRequest
  split <;> first | exact absurd h (by decide) | rfl

theorem padEven_of_even {p : List Byte} (h : p.length % 2 = 0) : padEven p = p := if_pos h

/-- A request refused before the gate changes nothing. -/
theorem replies_unserved {c : Instr} {r : Request} {s : State} (hr : requestOf c = some r) (hs : Ready s)
    (hg : r.gated = false) (hkeeps : r.keepsTag = true) {code : ReplyCode}
    (hx : serveOwner r (received r s) = refuse code (received r s)) :
    Replies c s (r.kind ||| 0x80) code [] [] fun _ => True :=
  replies_of_owner hr hs (fun h => absurd h (by simp [hg])) hx (.refl [] _) (.inl hkeeps) (by decide) fun _ _ => trivial

/-- A reply speaks of the step alone. -/
theorem Replies.of_exec {c d : Instr} {s : State} {kind : Nat} {outcome : ReplyCode} {payload : List Byte}
    {parts : List Part} {good : State → Prop} (h : Replies d s kind outcome payload parts good)
    (he : exec c s = exec d s) : Replies c s kind outcome payload parts good := by
  obtain ⟨t, hexec, hrest⟩ := h
  exact ⟨t, he.trans hexec, hrest⟩

theorem readRequest_misfit {kind n : Nat} {p : List Byte}
    (h : (kind, n) ∈ [(0x01, 0), (0x03, 2), (0x05, 4), (0x07, 0), (0x0B, 4), (0x0F, 2), (0x11, 10), (0x13, 0),
      (0x15, 20), (0x17, 10), (0x19, 0), (0x1B, 2), (0x1D, 2), (0x1F, 2), (0x21, 4), (0x23, 2), (0x25, 2),
      (0x27, 2), (0x29, 0), (0x2B, 0), (0x2D, 0), (0x2F, 2), (0x31, 2), (0x33, 2), (0x35, 2), (0x37, 0)])
    (hp : p.length ≠ n) : readRequest kind p = .badLength kind := by
  simp only [List.mem_cons, Prod.mk.injEq, List.not_mem_nil, or_false] at h
  iterate 25
    rcases h with ⟨rfl, rfl⟩ | h
    · exact if_neg hp
  obtain ⟨rfl, rfl⟩ := h
  exact if_neg hp

/-- Settles O20: neither refusal reaches the gate or the tag reset. -/
theorem unknownAndMisfitRequestsAreRefused : Obligations.UnknownAndMisfitRequestsAreRefused := by
  refine ⟨fun kind p s hk hs => ?_, fun kind n p h hp => readRequest_misfit h hp,
    fun kind p s hs ha hn hp heven hread => ?_⟩
  · exact replies_unserved (c := .unknownRequest kind p) (r := .unknown kind) (congrArg some (readRequest_unknown hk _)) hs rfl rfl rfl
  · have hreq : requestOf (.unknownRequest kind.toNat p) = some (.badLength kind.toNat) := by
      rw [← hread]
      exact congrArg (fun q => some (readRequest kind.toNat q)) (padEven_of_even heven)
    refine (replies_unserved (r := .badLength kind.toNat) hreq hs rfl rfl rfl).of_exec ?_
    rw [exec_request hreq, ← hread]
    exact next_finish (linkFrameSeen_linkFrame hp heven ha hn)

end Sys2Proof.Machine
end

