-- ==== Sys2Proof/Proofs/StatusAndEvents.lean ====
section
/-! The lengths of what Status and Read Table Section reply (R168, R169, R188, R189), and the batch of Fetch Events
(R171). -/

/- One lemma after another, to keep the memory of a compile small. -/
set_option Elab.async false

namespace Sys2Proof.Machine

/-! ### Status (R169, R188) -/

@[simp] theorem length_slotStatus (r : Slot) : (slotStatus r).length = 4 := rfl
@[simp] theorem length_rateStatus (r : Option Rate) : (rateStatus r).length = 1 := by cases r <;> rfl
@[simp] theorem length_signedWord (i : Int) : (signedWord i).length = 2 := rfl

@[simp] theorem length_lineStatus (s : State) : (lineStatus s).length = 76 := by
  simp [lineStatus, addresses]

@[simp] theorem length_linkStatus (s : State) : (linkStatus s).length = 13 := by simp [linkStatus]

theorem length_statusPayload (s : State) : (statusPayload s).length = 143 := by
  simp [statusPayload, tubeStatus_eq]

theorem length_linkFrame (k : Byte) (p : List Byte) : (linkFrame k p).length = p.length + 4 := by
  simp [linkFrame]

theorem length_padEven (p : List Byte) : (padEven p).length = evenLength p.length := by
  unfold padEven evenLength
  split <;> simp <;> omega

theorem length_makeReply (kind : Nat) (outcome : ReplyCode) (conditions : BitVec 8) (payload : List Byte) :
    (makeReply kind outcome conditions payload).frame.length = evenLength (payload.length + 2) + 4 := by
  simp [makeReply, replyPayload, length_linkFrame, length_padEven, Nat.add_comm 1]

/-- What is known of the reply in progress may be added to what is said of the state. -/
theorem Replies.withReply {c : Instr} {s : State} {kind : Nat} {outcome : ReplyCode} {payload : List Byte}
    {parts : List Part} {good good' : State → Prop} (h : Replies c s kind outcome payload parts good)
    (hg : ∀ t, replyIs t kind outcome payload → good t → good' t) : Replies c s kind outcome payload parts good' := by
  obtain ⟨t, hexec, hreply, hframe, ht⟩ := h
  exact ⟨t, hexec, hreply, hframe, hg t hreply ht⟩

theorem status_replies {s : State} (hs : Ready s) :
    Replies .status s 0x81 .done (statusPayload s) [] fun t => ∃ a, t.link.answer = some a ∧ a.frame.length = 150 := by
  have hreply : Replies .status s 0x81 .done (statusPayload s) [] fun _ => True :=
    replies_of_owner (r := .status) rfl hs (fun h => nomatch h) (x := (received .status s, .done, statusPayload s))
      rfl (.refl [] _) (.inl rfl) (by decide) fun _ _ => trivial
  refine hreply.withReply fun t ⟨conditions, hanswer⟩ _ => ⟨_, hanswer, ?_⟩
  rw [length_makeReply, length_statusPayload]
  rfl

/-! ### Read Table Section (R168, R189) -/

theorem length_field (k n : Nat) : (field k n).length = k := by
  induction k generalizing n with
  | zero => rfl
  | succ k ih => simp [field, ih]

theorem length_flatMap_char (l : List Nat) : (l.flatMap char).length = l.length := by
  simp [List.length_flatMap]

theorem length_fourPlaces (l : List Nat) : (fourPlaces l).length = 4 := by
  rw [fourPlaces, length_flatMap_char]
  simp

theorem length_auditRecord (s : State) (i : Nat) : (auditRecord s i).length = 6 := by
  unfold auditRecord
  split <;> exact length_field _ _

/-- The characters of a record as Read Table Section returns it (R189). -/
def readSize : Nat → Nat
  | 0 => 10 | 1 => 4 | 2 => 5 | 3 => 3 | 4 => 12 | 5 => 4 | 6 => 7 | 7 => 2 | 8 => 7 | 9 => 8 | 10 => 6
  | 11 => 1 | 12 => 1 | 13 => 1 | 14 => 6 | _ => 0

theorem length_readRecord (table : Nat) (s : State) (i : Nat) : (readRecord table s i).length = readSize table := by
  unfold readRecord
  split
  case h_5 => simp [selRecord, length_fourPlaces, readSize]
  case h_15 => exact length_auditRecord s i
  case h_16 => simp [readSize]
  all_goals rfl

theorem length_readSection (table first count : Nat) (s : State) :
    (readSection table first count s).length = count * readSize table := by
  simp [readSection, List.length_flatMap, length_readRecord]

theorem readSection_received (table first count : Nat) (r : Request) (s : State) :
    readSection table first count (received r s) = readSection table first count s := by
  unfold received resetTag
  dsimp only
  split_ifs <;> rfl

theorem serveRead_fits {table first count : Nat} (ht : table ≤ 14) (h1 : 1 ≤ count) (h8 : count ≤ 8)
    (hfirst : first + count ≤ recordCount table) (s : State) :
    serveRead table first count s = (s, .done, readSection table first count s) :=
  if_pos (by simp [readFits, ht, h1, h8, hfirst])

theorem serveRead_refused {table first count : Nat}
    (h : 14 < table ∨ count = 0 ∨ 8 < count ∨ recordCount table < first + count) (s : State) :
    serveRead table first count s = refuse .badArgument s :=
  if_neg (by simp [readFits]; omega)

/-- Settles O21. -/
theorem statusAndReadShowTheState : Obligations.StatusAndReadShowTheState := by
  refine fun s hs => ⟨status_replies hs, length_statusPayload s, fun table first count => ⟨fun ht h1 h8 hfirst =>
    ⟨?_, fun size hsize => ?_⟩, fun h => ?_⟩⟩
  · rw [← readSection_received table first count (.read table first count) s]
    exact replies_served (r := .read table first count) rfl hs (fun h => nomatch h)
      (serveRead_fits ht h1 h8 hfirst _) (.refl [.tag] _) (.inr (by decide)) (by decide) fun _ _ => trivial
  · have hread : size = readSize table := by
      have hall : ∀ x ∈ [(0, 10), (1, 4), (2, 5), (3, 3), (4, 12), (5, 4), (6, 7), (7, 2), (8, 7), (9, 8), (10, 6),
          (11, 1), (12, 1), (13, 1), (14, 6)], x.2 = readSize x.1 := by decide
      exact hall (table, size) hsize
    rw [length_readSection, hread]
  · exact refuses_served (r := .read table first count) rfl hs (fun h => nomatch h) (serveRead_refused h _)

/-! ### Fetch Events (R171) -/

theorem fitCount_le (fuel room : Nat) (l : List Event) : fitCount fuel room l ≤ fuel ∧ fitCount fuel room l ≤ l.length := by
  induction fuel generalizing room l with
  | zero => exact ⟨Nat.le_refl _, Nat.zero_le _⟩
  | succ fuel ih =>
    cases l with
    | nil => exact ⟨Nat.zero_le _, Nat.le_refl _⟩
    | cons e l =>
      have := ih (room - (12 + e.payload.length)) l
      simp only [fitCount, List.length_cons]
      split <;> omega

/-- The characters of records in a Fetch Events reply (R188). -/
def recordsSize (l : List Event) : Nat := (l.map fun e => 12 + e.payload.length).sum

theorem recordsSize_cons (e : Event) (l : List Event) : recordsSize (e :: l) = 12 + e.payload.length + recordsSize l := by
  simp [recordsSize]

/-- The records counted fit, and one more would pass the count, the queue or the room. -/
theorem fitCount_greedy (fuel room : Nat) (l : List Event) :
    recordsSize (l.take (fitCount fuel room l)) ≤ room ∧
    (fitCount fuel room l = fuel ∨ fitCount fuel room l = l.length ∨
      room < recordsSize (l.take (fitCount fuel room l + 1))) := by
  induction fuel generalizing room l with
  | zero => exact ⟨by simp [fitCount, recordsSize], .inl rfl⟩
  | succ fuel ih =>
    cases l with
    | nil => exact ⟨by simp [fitCount, recordsSize], .inr (.inl rfl)⟩
    | cons e l =>
      have hrest := ih (room - (12 + e.payload.length)) l
      simp only [fitCount]
      split
      next hfits =>
        rw [Nat.add_comm 1, List.take_succ_cons, List.take_succ_cons, recordsSize_cons, recordsSize_cons,
          List.length_cons]
        omega
      next hfull =>
        refine ⟨by simp [recordsSize], .inr (.inr ?_)⟩
        rw [List.take_succ_cons, recordsSize_cons]
        omega

/-- Settles O22. -/
theorem fetchTakesEventsInOrderAndAgainRepeats : Obligations.FetchTakesEventsInOrderAndAgainRepeats := by
  intro s hs
  obtain ⟨hfuel, hqueue⟩ := fitCount_le 8 fetchRoom s.events.queue
  obtain ⟨hroom, hmore⟩ := fitCount_greedy 8 fetchRoom s.events.queue
  refine ⟨⟨fitCount 8 fetchRoom s.events.queue, hfuel, hqueue, ?_, hroom, hmore⟩, ?_⟩
  · exact replies_of_owner (r := .fetch 0) rfl hs (fun h => nomatch h) (x := fetchNew (received (.fetch 0) s)) rfl
      (setEvents_alters _ _) (.inl rfl) (by decide) fun t ht => ht .events (by decide)
  · exact replies_of_owner (r := .fetch 1) rfl hs (fun h => nomatch h) (x := fetchAgain (received (.fetch 1) s)) rfl
      (.refl [] _) (.inl rfl) (by decide) fun _ _ => trivial

end Sys2Proof.Machine
end

