-- ==== Sys2Proof/Proofs/SaleRequests.lean ====
section
/-! The sale requests: the order of a vend's checks and what passing them begins (R6, R7, R10, R57, R65, R71), and
Return Credit (R12, R15). -/

/- One lemma after another, to keep the memory of a compile small. -/
set_option Elab.async false

namespace Sys2Proof.Machine

/-! ### The state a request's owner is handed -/

/-- Taking a request touches the Link Port and the tag sequence record alone. -/
theorem received_shape (r : Request) (s : State) :
    ∃ x g, received r s = { s with link := x, lock.tag := g } ∧ x.up = s.link.up := by
  unfold received resetTag
  dsimp only
  split_ifs
  · exact ⟨_, s.lock.tag, rfl, rfl⟩
  · exact ⟨_, s.lock.tag, rfl, rfl⟩
  · exact ⟨_, .empty, rfl, rfl⟩

theorem saleOf_of_inFlight {s : State} (h : s.credit.inFlight.isSome = true) : saleOf s = .vend := if_pos h

@[simp] theorem received_tables (r : Request) (s : State) : (received r s).tables = s.tables :=
  received_alters r s .tables (by decide)

/-! ### The checks of a vend (R6, R65) -/

theorem vendRefusal_received (r : Request) (code : Nat) (s : State) :
    vendRefusal code (received r s) = vendRefusal code s := by
  obtain ⟨x, g, hu, -⟩ := received_shape r s
  rw [hu]
  rfl

theorem cashRefusal_received (r : Request) (i : Nat) (s : State) : cashRefusal i (received r s) = cashRefusal i s := by
  obtain ⟨x, g, hu, -⟩ := received_shape r s
  rw [hu]
  rfl

/-- The refusal that an availability calls for (R65). -/
def Avail.refusal : Avail → Option (ReplyCode × List Byte)
  | .passes => none
  | .unavailable why => some (.unavailable, char why.code)
  | .held => some (.held, [])

theorem vendRefusal_free_eq {code : Nat} {s : State} (hvend : s.credit.sale ≠ .vend) (hpayout : s.credit.sale ≠ .payout)
    (hcode : validCode code = true) (hdoor : s.doorOpen = false) :
    vendRefusal code s = (available s (codeIndex code)).refusal := by
  unfold vendRefusal
  rw [if_neg (by simp [hvend, hpayout]), if_neg (by simp [hcode]), if_neg (by simp [hdoor])]
  cases available s (codeIndex code) <;> rfl

theorem serveVend_refused {code funding amount : Nat} {s : State} {o : ReplyCode} {p : List Byte} (hf : funding ≤ 1)
    (h : vendRefusal code s = some (o, p)) : serveVend code funding amount s = (s, o, p) := by
  match funding, hf with
  | 0, _ => simp only [serveVend, serveCash, h]
  | 1, _ => simp only [serveVend, serveExternal, h]

theorem vend_refused {code amount : Nat} {s : State} (hs : Ready s) {o : ReplyCode} {p : List Byte}
    (h : vendRefusal code s = some (o, p)) :
    Refuses (.vend code) s 0x85 o p ∧ Refuses (.vendExternal code amount) s 0x85 o p :=
  ⟨refuses_served (r := .vend code 0 0) rfl hs (fun h => nomatch h)
      (serveVend_refused (amount := 0) (Nat.zero_le 1) ((vendRefusal_received _ code s).trans h)),
    refuses_served (r := .vend code 1 amount) rfl hs (fun h => nomatch h)
      (serveVend_refused (Nat.le_refl 1) ((vendRefusal_received _ code s).trans h))⟩

theorem vend_refused_cash {code : Nat} {s : State} (hs : Ready s) {o : ReplyCode} (hv : vendRefusal code s = none)
    (h : cashRefusal (codeIndex code) s = some o) : Refuses (.vend code) s 0x85 o [] := by
  refine refuses_served (r := .vend code 0 0) rfl hs (fun h => nomatch h) ?_
  have hv' := (vendRefusal_received (.vend code 0 0) code s).trans hv
  have hc' := (cashRefusal_received (.vend code 0 0) (codeIndex code) s).trans h
  show serveCash code _ = _
  simp only [serveCash, hv', hc', refuse]

theorem available_enabled {s : State} {i : Nat} (h : (s.sel i).state = .enabled) : available s i =
    if (s.tables.sel i).spirals = [] then .unavailable .unassigned
    else if selHeld s i then .held
    else if (s.tables.sel i).spirals.any (spiralReady s) then .passes
    else .unavailable .noReadySpiral := by
  simp only [available, h]

theorem cashRefusal_noChange {s : State} {i : Nat} (hprice : (s.tables.sel i).price ≤ s.credit.credit)
    (hpolicy : s.tables.money.policy = .single) (hexact : s.tables.money.exactRequired = true)
    (hplan : (changePlan s (s.credit.credit - (s.tables.sel i).price)).exact = false) :
    cashRefusal i s = some .noChange := by
  simp [cashRefusal, Nat.not_lt.2 hprice, hpolicy, hexact, hplan]

/-- Settles O24: the checks stand in the order of R6, those of the selection in the order of R65. -/
theorem vendIsRefusedByItsFirstFailingCheck : Obligations.VendIsRefusedByItsFirstFailingCheck := by
  intro code amount s hs
  refine ⟨fun hbusy => vend_refused hs (if_pos hbusy), fun hvend hpayout => ⟨fun hcode => ?_, fun hcode => ⟨fun hdoor => ?_,
    fun hdoor => ?_⟩⟩⟩
  · exact vend_refused hs (by simp [vendRefusal, hvend, hpayout, hcode])
  · exact vend_refused hs (by simp [vendRefusal, hvend, hpayout, hcode, hdoor])
  have hfree := vendRefusal_free_eq hvend hpayout hcode hdoor
  refine ⟨fun hsel => ?_, fun hsel => ?_, fun hsel => ?_⟩
  · exact vend_refused hs (by rw [hfree]; simp [available, hsel]; rfl)
  · exact vend_refused hs (by rw [hfree]; simp [available, hsel]; rfl)
  rw [available_enabled hsel] at hfree
  refine ⟨fun hlist => ?_, fun hlist => ⟨fun hheld => ?_, fun hheld => ⟨fun hready => ?_, fun hready => ?_⟩⟩⟩
  · exact vend_refused hs (by rw [hfree, if_pos hlist]; rfl)
  · exact vend_refused hs (by rw [hfree, if_neg hlist, if_pos hheld]; rfl)
  · refine vend_refused hs ?_
    rw [hfree, if_neg hlist, if_neg (by simp [hheld]), if_neg (by simpa using hready)]
    rfl
  · have hpass : vendRefusal code s = none := by
      rw [hfree, if_neg hlist, if_neg (by simp [hheld]), if_pos (by simpa using hready)]
      rfl
    exact ⟨fun hcredit => vend_refused_cash hs hpass (if_pos hcredit),
      fun hprice hpolicy hexact hplan => vend_refused_cash hs hpass (cashRefusal_noChange hprice hpolicy hexact hplan)⟩

/-! ### A vend that passes (R7, R10, R57, R71) -/

theorem firstReady_of_ready {s : State} {l : List Nat} (h : l.any (spiralReady s) = true) (j : Nat) :
    ∃ p k, firstReady s j l = some (p, k) ∧ spiralReady s p = true := by
  induction l generalizing j with
  | nil => exact absurd h (by simp)
  | cons q l ih =>
    unfold firstReady
    split
    next hq => exact ⟨q, j, rfl, hq⟩
    next hq => exact ih (by simpa [hq] using h) (j + 1)

theorem firstReady_ready {s : State} {j : Nat} {l : List Nat} {p k : Nat} (h : firstReady s j l = some (p, k)) :
    spiralReady s p = true := by
  induction l generalizing j with
  | nil => exact nomatch h
  | cons q l ih =>
    unfold firstReady at h
    split at h
    next hq => cases h; exact hq
    · exact ih h

theorem spiralReady_congr {s t : State} (h : t.spirals = s.spirals) : spiralReady t = spiralReady s := by
  funext p
  simp only [spiralReady, State.spiral, h]

theorem firstReady_congr {s t : State} (h : t.spirals = s.spirals) (j : Nat) (l : List Nat) :
    firstReady t j l = firstReady s j l := by
  induction l generalizing j with
  | nil => rfl
  | cons q l ih => simp only [firstReady, spiralReady_congr h, ih]

/-- The choice of a spiral reads the lists, the next pointers and the spirals' states alone. -/
theorem Alters.choose_eq {ps : List Part} {s t : State} (h : Alters ps s t) (i : Nat) (htables : .tables ∉ ps := by decide)
    (hsels : .sels ∉ ps := by decide) (hspirals : .spirals ∉ ps := by decide) : choose t i = choose s i := by
  have htables' : t.tables = s.tables := h .tables htables
  have hsels' : t.sels = s.sels := h .sels hsels
  have hspirals' : t.spirals = s.spirals := h .spirals hspirals
  simp only [choose, htables', State.sel, hsels', firstReady_congr hspirals']

/-- An available selection has a spiral to choose, and the one chosen is READY (R57, R65). -/
theorem choose_of_available {s : State} {i : Nat} (h : available s i = .passes) :
    ∃ p j, choose s i = some (p, j) ∧ spiralReady s p = true := by
  have hready : (s.tables.sel i).spirals.any (spiralReady s) = true := by
    unfold available at h
    split at h
    · exact nomatch h
    · exact nomatch h
    · split_ifs at h with h1 h2 h3
      exact h3
  unfold choose
  dsimp only
  split
  · exact firstReady_of_ready hready 0
  · split
    next c hc => exact ⟨c.1, c.2, rfl, firstReady_ready hc⟩
    next hnone =>
      rw [← List.take_append_drop (s.sel i).next (s.tables.sel i).spirals, List.any_append, Bool.or_eq_true] at hready
      rcases hready with hready | hready
      · exact firstReady_of_ready hready 0
      · obtain ⟨p, k, hp, -⟩ := firstReady_of_ready hready (s.sel i).next
        exact absurd (hnone.symm.trans hp) (by simp)

/-- The vend operation as it begins (R71). -/
def begunVend (i p j : Nat) (params : DriveParams) : VendOp :=
  { sel := i, spiral := p, position := j, revolutions := 0, drop := false, tried := false, params := params,
    told := false }

theorem beginVend_chosen {s : State} {i p j : Nat} (h : choose s i = some (p, j)) :
    (beginVend i s).drive.vend = some (begunVend i p j s.tables.drive) ∧
    Alters [.vendOp, .grants] s (beginVend i s) := by
  have hset : Alters [.vendOp] s { s with drive.vend := some (begunVend i p j s.tables.drive) } := by
    intro p hp; cases p <;> simp_all [Part.same]
  have hbegin : beginVend i s = if s.drive.service.isSome then
      { s with drive.vend := some (begunVend i p j s.tables.drive) }
      else request .motor { s with drive.vend := some (begunVend i p j s.tables.drive) } := by
    simp only [beginVend, h]
    rfl
  rw [hbegin]
  split
  · exact ⟨rfl, hset.mono⟩
  · exact ⟨by simp, hset.seq (request_alters _ _)⟩

/-- What a vend admitted begins: its operation, on a spiral that is READY. -/
def Begun (i : Nat) (s t : State) : Prop :=
  ∃ p j, choose s i = some (p, j) ∧ spiralReady s p = true ∧
    t.drive.vend = some (begunVend i p j s.tables.drive)

/-- The record of a vend's funding, before its operation begins (R7, R10). -/
def funded (x : CreditUnit) (s : State) : State := setSale { s with credit := x }

theorem beginVend_funded {s : State} {i : Nat} (h : available s i = .passes) (x : CreditUnit) :
    Begun i s (beginVend i (funded x s)) ∧ Alters [.vendOp, .grants] (funded x s) (beginVend i (funded x s)) := by
  obtain ⟨p, j, hchoose, hready⟩ := choose_of_available h
  have hset : Alters [.amounts, .inFlight, .pendingReturn, .escrow, .noteMask, .sale] s (funded x s) := by
    intro p hp; cases p <;> simp_all [Part.same, funded]
  have hfunded : choose (funded x s) i = some (p, j) := (hset.choose_eq i).trans hchoose
  obtain ⟨hvend, hframe⟩ := beginVend_chosen hfunded
  exact ⟨⟨p, j, hchoose, hready, hvend⟩, hframe⟩

theorem Begun.received {r : Request} {i : Nat} {s t : State} (h : Begun i (received r s) t) : Begun i s t := by
  have hframe := received_alters r s
  obtain ⟨p, j, hchoose, hready, hvend⟩ := h
  rw [hframe.choose_eq i] at hchoose
  rw [spiralReady_congr (hframe .spirals (by decide))] at hready
  rw [hframe .tables (by decide)] at hvend
  exact ⟨p, j, hchoose, hready, hvend⟩

theorem Begun.alters {ps : List Part} {i : Nat} {s t u : State} (h : Begun i s t) (ht : Alters ps t u)
    (hp : .vendOp ∉ ps := by decide) : Begun i s u := by
  obtain ⟨p, j, hchoose, hready, hvend⟩ := h
  exact ⟨p, j, hchoose, hready, (ht .vendOp hp).trans hvend⟩

theorem cashRefusal_none {s : State} {i : Nat} (hprice : (s.tables.sel i).price ≤ s.credit.credit)
    (hexact : s.tables.money.policy = .single → s.tables.money.exactRequired = true →
      (changePlan s (s.credit.credit - (s.tables.sel i).price)).exact = true) : cashRefusal i s = none := by
  unfold cashRefusal
  dsimp only
  rw [if_neg (Nat.not_lt.2 hprice), if_neg]
  rintro ⟨hpolicy, hrequired, hplan⟩
  simp [hexact hpolicy hrequired] at hplan

theorem serveVend_cash {code : Nat} {s : State} (hv : vendRefusal code s = none)
    (hc : cashRefusal (codeIndex code) s = none) : serveVend code 0 0 s =
      (beginVend (codeIndex code) (funded { s.credit with
        credit := s.credit.credit - (s.tables.sel (codeIndex code)).price,
        vendHold := s.credit.vendHold + (s.tables.sel (codeIndex code)).price, inFlight := some .cash } s),
        .started, []) := by
  show serveCash code s = _
  simp only [serveCash, hv, hc]
  rfl

theorem serveVend_external {code amount : Nat} {s : State} (hv : vendRefusal code s = none) :
    serveVend code 1 amount s =
      (beginVend (codeIndex code) (funded { s.credit with inFlight := some (.external amount) } s), .started, []) := by
  show serveExternal code amount s = _
  simp only [serveExternal, hv]
  rfl

/-- Settles O23: past its checks a vend moves its price, if any, and begins on the spiral chosen. -/
theorem vendThatPassesIsAdmitted : Obligations.VendThatPassesIsAdmitted := by
  intro code amount s hs hvend hpayout hcode hdoor havailable
  have hpass : vendRefusal code s = none := by
    rw [vendRefusal_free_eq hvend hpayout hcode hdoor, havailable]
    rfl
  have havail (r : Request) : available (received r s) (codeIndex code) = .passes := by
    obtain ⟨x, g, hu, -⟩ := received_shape r s
    rw [hu]
    exact havailable
  dsimp only
  refine ⟨fun hprice hexact => ?_, ?_⟩
  · have hx := serveVend_cash ((vendRefusal_received (.vend code 0 0) code s).trans hpass)
      ((cashRefusal_received (.vend code 0 0) (codeIndex code) s).trans (cashRefusal_none hprice hexact))
    obtain ⟨hbegun, hframe⟩ := beginVend_funded (havail (.vend code 0 0))
      { (received (.vend code 0 0) s).credit with
        credit := (received (.vend code 0 0) s).credit.credit - ((received (.vend code 0 0) s).tables.sel (codeIndex code)).price,
        vendHold := (received (.vend code 0 0) s).credit.vendHold +
          ((received (.vend code 0 0) s).tables.sel (codeIndex code)).price,
        inFlight := some .cash }
    refine replies_served (c := .vend code) (r := .vend code 0 0) rfl hs (fun h => nomatch h) hx ?_ (.inr (by decide))
      (by decide) fun t ht => ?_
    · refine Alters.seq (ps := [.amounts, .sale, .inFlight]) ?_ hframe
      intro p hp; cases p <;> simp_all [Part.same, funded]
    · have hafter := hframe.seq (rs := .vendOp :: .grants :: .staging :: .marks :: dueParts) ht.frame
      have hfund : t.credit.inFlight = some .cash := hafter .inFlight (by decide)
      obtain ⟨hcredit, hhold, hreserve, hdue⟩ := hafter .amounts (by decide)
      simp only [funded, setSale_credit, received_credit, received_tables] at hcredit hhold hreserve hdue
      exact ⟨hcredit, hhold, hreserve, hdue, hfund, ht.sale.trans (saleOf_of_inFlight (by simp [hfund])),
        (hbegun.alters ht.frame).received⟩
  · have hx := serveVend_external (amount := amount) ((vendRefusal_received (.vend code 1 amount) code s).trans hpass)
    obtain ⟨hbegun, hframe⟩ := beginVend_funded (havail (.vend code 1 amount))
      { (received (.vend code 1 amount) s).credit with inFlight := some (.external amount) }
    refine replies_served (c := .vendExternal code amount) (r := .vend code 1 amount) rfl hs (fun h => nomatch h) hx ?_
      (.inr (by decide)) (by decide) fun t ht => ?_
    · refine Alters.seq (ps := [.sale, .inFlight]) ?_ hframe
      intro p hp; cases p <;> simp_all [Part.same, funded]
    · have hfund : t.credit.inFlight = some (.external amount) :=
        (hframe.seq (rs := .vendOp :: .grants :: .staging :: .marks :: dueParts) ht.frame) .inFlight (by decide)
      exact ⟨hfund, ht.sale.trans (saleOf_of_inFlight (by simp [hfund])), (hbegun.alters ht.frame).received⟩

/-! ### Return Credit (R12, R15) -/

theorem addReturnDue_events (a : Nat) (s : State) : (addReturnDue a s).events =
    if returnFits s.credit.returnDue a = a then s.events
    else s.events.place { kind := .writtenOff, time := s.seconds, subject := none,
                          value := val (a - returnFits s.credit.returnDue a), payload := [] } := by
  unfold addReturnDue markReplan
  dsimp only
  split_ifs <;> rfl

theorem addReturnDue_inFlight (a : Nat) (s : State) : (addReturnDue a s).credit.inFlight = s.credit.inFlight := by
  rw [addReturnDue_credit]

/-- What the money owed grows by, below its limit (R15). -/
theorem returnFits_eq {due a : Nat} (h : due ≤ 65535) :
    due + returnFits due a = min 65535 (due + a) ∧ a - returnFits due a = due + a - 65535 ∧
    (returnFits due a = a ↔ due + a - 65535 = 0) := by
  unfold returnFits
  rw [show Config.maxAmount = 65535 from rfl]
  omega

/-- All of the credit owed, before the payout test. -/
def owed (s : State) : State := { creditToReturn s with change.shortWait := false }

theorem returnAll_eq (s : State) : returnAll s = masksIfHeld s (payoutTest (setSale (owed s))) := rfl

theorem owed_credit (s : State) : (owed s).credit =
    { s.credit with credit := 0, returnDue := s.credit.returnDue + returnFits s.credit.returnDue s.credit.credit } :=
  addReturnDue_credit _ { s with credit.credit := 0 }

theorem payoutTest_starts {s : State} (hrun : s.phase = .run) (hvend : s.credit.inFlight = none)
    (hdue : s.credit.returnDue ≠ 0) (hwait : s.change.shortWait = false) :
    (payoutTest s).change.payout.isSome = true := by
  by_cases hpayout : s.change.payout.isSome = true
  · rw [payoutTest_of_payout hpayout]
    exact hpayout
  · unfold payoutTest
    rw [if_pos (by simp_all [State.running])]
    simp [startPayout]

section
variable {s : State} (hrun : s.phase = .run) (hdue : s.credit.returnDue ≤ 65535) (hvend : s.credit.inFlight = none)
include hdue

theorem owed_amounts : (owed s).credit.returnDue = min 65535 (s.credit.returnDue + s.credit.credit) := by
  rw [owed_credit]
  exact (returnFits_eq hdue).1

theorem owed_audit : (owed s).audit = { s.audit with
    writtenOff := if s.credit.returnDue + s.credit.credit - 65535 = 0 then s.audit.writtenOff
                  else addTotal s.audit.writtenOff (s.credit.returnDue + s.credit.credit - 65535) } := by
  obtain ⟨-, hexcess, hfits⟩ := returnFits_eq (a := s.credit.credit) hdue
  have haudit : (owed s).audit = _ := addReturnDue_audit _ { s with credit.credit := 0 }
  rw [haudit]
  simp only [hfits, hexcess]
  split <;> rfl

theorem owed_events : (owed s).events = if s.credit.returnDue + s.credit.credit - 65535 = 0 then s.events
    else s.events.place { kind := .writtenOff, time := s.seconds, subject := none,
                          value := val (s.credit.returnDue + s.credit.credit - 65535), payload := [] } := by
  obtain ⟨-, hexcess, hfits⟩ := returnFits_eq (a := s.credit.credit) hdue
  have hevents : (owed s).events = _ := addReturnDue_events _ { s with credit.credit := 0 }
  rw [hevents]
  simp only [hfits, hexcess]

include hrun hvend

theorem returnAll_payout (hsome : s.credit.returnDue + s.credit.credit ≠ 0) :
    (returnAll s).change.payout.isSome = true := by
  have howed : Alters moneyParts s (owed s) := (creditToReturn_alters s).seq (shortWait_alters false _)
  have hphase : (owed s).phase = .run := (howed .phase (by decide)).trans hrun
  have hamount := owed_amounts hdue
  rw [returnAll_eq, masksIfHeld_alters _ _ .payout (by decide)]
  refine payoutTest_starts hphase (by simp [owed_credit, hvend]) ?_ rfl
  rw [setSale_credit]
  dsimp only
  omega

end

theorem serveReturn_pays {s : State} (h : s.credit.sale = .payout ∨
    (s.credit.sale = .opened ∧ (s.credit.credit ≠ 0 ∨ s.credit.returnDue ≠ 0))) :
    serveReturn s = (returnAll s, .started, []) := by
  unfold serveReturn
  rcases h with h | ⟨h, hheld⟩
  · simp only [h]
  · simp only [h]
    rw [if_neg]
    simp [nothingToReturn]
    tauto

/-- Settles O25: the amounts move before the payout test, which then finds a payout due. -/
theorem returnCreditPaysEverythingBack : Obligations.ReturnCreditPaysEverythingBack := by
  intro s hs
  have hrefuse {o : ReplyCode} (h : serveReturn (received .returnCredit s) = refuse o (received .returnCredit s)) :
      Refuses .returnCredit s 0x87 o [] := refuses_served (r := .returnCredit) rfl hs (fun h => nomatch h) h
  refine ⟨fun h => hrefuse ?_, fun h => hrefuse ?_, fun h hcredit hdue => hrefuse ?_, fun hsale hdue hvend => ?_⟩
  · simp [serveReturn, h]
  · simp [serveReturn, h]
  · simp [serveReturn, h, nothingToReturn, hcredit, hdue]
  have hx : serveOwner .returnCredit (received .returnCredit s) = (returnAll (received .returnCredit s), .started, []) :=
    serveReturn_pays (by simpa using hsale)
  have hframe := returnAll_alters (received .returnCredit s)
  refine replies_served (c := .returnCredit) (r := .returnCredit) rfl hs (fun h => nomatch h) hx
    (hframe.mono (by simp +contextual)) (.inr (by simp)) (by decide) fun t ht => ?_
  have hmasks : Alters (.sale :: .payout :: .grants :: maskParts) (owed (received .returnCredit s))
      (returnAll (received .returnCredit s)) :=
    (((setSale_alters _).seq (rs := [.sale, .payout, .grants]) (payoutTest_alters _)).seq (masksIfHeld_alters _ _))
  have hafter := hmasks.seq (rs := .staging :: .marks :: .coinMasks :: .noteMask :: dueParts) ht.frame
  obtain ⟨hcredit, hhold, hreserve, hreturn⟩ := hafter .amounts (by decide)
  have hrun : (received .returnCredit s).phase = .run := (received_phase _ s).trans hs.run
  have hdue' : (received .returnCredit s).credit.returnDue ≤ 65535 := by simpa using hdue
  have hvend' : (received .returnCredit s).credit.inFlight = none := by simpa using hvend
  rw [owed_credit] at hcredit hhold hreserve
  refine ⟨hcredit, ?_, by simpa using hhold, by simpa using hreserve, ?_, ?_, hafter .shortWait (by decide), fun hsome => ?_⟩
  · simpa [owed_amounts hdue'] using hreturn
  · have haudit : t.audit = _ := (hafter .audit (by decide)).trans (owed_audit hdue')
    simpa using haudit
  · have hevents : t.events = _ := (hafter .events (by decide)).trans (owed_events hdue')
    obtain ⟨y, g, hu, -⟩ := received_shape .returnCredit s
    rw [hu] at hevents
    exact hevents
  · have hpays := returnAll_payout hrun hdue' hvend' (by simpa using hsome)
    rw [ht.payout hpays]
    exact hpays

end Sys2Proof.Machine
end

