-- ==== Sys2Proof/Proofs/LockAndModes.lean ====
section
/-! The Service Lock: codes, sessions and the lockout (R174 to R176), the tag sequence record (R179), the operating
modes (R182, R184) and the door (R173). -/

/- One lemma after another, to keep the memory of a compile small. -/
set_option Elab.async false

namespace Sys2Proof.Machine

/-! ### Reads of a sensed input (R37, R73, R173) -/

/-- The length of the run of agreeing reads after one more read. -/
def Debounce.runAfter (n : Nat) (b : Bool) (d : Debounce) : Nat :=
  if d.runLen ≠ 0 ∧ d.runValue = b then min n (d.runLen + 1) else 1

theorem runAfter_pos {n : Nat} (hn : 1 ≤ n) (b : Bool) (d : Debounce) : 1 ≤ d.runAfter n b := by
  unfold Debounce.runAfter
  split <;> omega

theorem runAfter_le {n : Nat} (hn : 1 ≤ n) (b : Bool) (d : Debounce) : d.runAfter n b ≤ n := by
  unfold Debounce.runAfter
  split <;> omega

theorem read_changes {n : Nat} {b : Bool} {d : Debounce} (hd : d.accepted ≠ some b) (h : n ≤ d.runAfter n b) :
    d.read n b = (⟨some b, b, d.runAfter n b⟩, some b) := if_pos ⟨hd, h⟩

theorem read_waits {n : Nat} {b : Bool} {d : Debounce} (h : d.runAfter n b < n) :
    d.read n b = (⟨d.accepted, b, d.runAfter n b⟩, none) := if_neg fun hc => absurd hc.2 (Nat.not_le.2 h)

/-- Agreeing reads that differ from the accepted state change it once enough of them have been taken. -/
theorem readUntil_replicate {n : Nat} (hn : 1 ≤ n) (b : Bool) (m : Nat) (d : Debounce) (hd : d.accepted ≠ some b)
    (hm : 1 ≤ m) (hlen : n + 1 ≤ m + d.runAfter n b) :
    d.readUntil n (List.replicate m b) = (⟨some b, b, n⟩, some b) := by
  induction m generalizing d with
  | zero => omega
  | succ m ih =>
    have hpos := runAfter_pos hn b d
    have hle := runAfter_le hn b d
    rw [List.replicate_succ]
    unfold Debounce.readUntil
    by_cases hnow : n ≤ d.runAfter n b
    · rw [read_changes hd hnow, Nat.le_antisymm hle hnow]
    · rw [read_waits (Nat.not_le.1 hnow)]
      have hnext : Debounce.runAfter n b ⟨d.accepted, b, d.runAfter n b⟩ = min n (d.runAfter n b + 1) :=
        if_pos ⟨by dsimp only; omega, rfl⟩
      exact ih _ hd (by omega) (by rw [hnext]; omega)

/-- `n` agreeing reads that differ from the accepted state change it (R37, R73, R173). -/
theorem readUntil_agreeing {n : Nat} (hn : 1 ≤ n) (b : Bool) {d : Debounce} (hd : d.accepted ≠ some b) :
    d.readUntil n (List.replicate n b) = (⟨some b, b, n⟩, some b) :=
  readUntil_replicate hn b n d hd hn (by have := runAfter_pos hn b d; omega)

/-! ### Unlock and the lockout (R175) -/

theorem codeEquals_digits {ds : List Nat} (pad : List Nat) (hlow : 4 ≤ ds.length) (hhigh : ds.length ≤ 8)
    (hds : ∀ d ∈ ds, d ≤ 9) : codeEquals { count := ds.length, chars := ds ++ pad } ds = true := by
  have hvalue : codeValue { count := ds.length, chars := ds ++ pad } = .digits ds := by
    unfold codeValue
    dsimp only
    rw [List.take_left, if_neg (by omega), if_pos ⟨hlow, hhigh, by simpa using hds, rfl⟩]
  simp [codeEquals, hvalue]

theorem codeEquals_reads {c : CodeArg} {ds : List Nat} (h : codeEquals c ds = true) :
    c.count = ds.length ∧ c.chars.take c.count = ds := by
  have hvalue : codeValue c = .digits ds := by simpa [codeEquals] using h
  unfold codeValue at hvalue
  split_ifs at hvalue with hzero hfits
  cases hvalue
  exact ⟨hfits.2.2.2.symm, rfl⟩

theorem codeMatches_of_code {s : State} {ds : List Nat} (h : s.lock.code = some ds) (c : CodeArg) :
    codeMatches s c = codeEquals c ds := by simp only [codeMatches, h]

theorem received_lock_eq {r : Request} (hr : r.keepsTag = false) (s : State) :
    (received r s).lock = { s.lock with tag := .empty } := by
  simp only [received, hr, resetTag, Bool.false_eq_true, if_false]
  split
  next h => dsimp only at h ⊢; rw [← h]
  · rfl

theorem serveUnlock_eq {s : State} (h : s.lock.state = .locked) (hl : s.lock.lockout = false) (c : CodeArg) :
    serveUnlock c s = if codeMatches s c then doneWith { s with lock.state := .unlocked, lock.failures := 0 }
      else refuse .codeMismatch (countFailure s) := by
  simp [serveUnlock, h, hl]

theorem countFailure_few {s : State} (h : s.lock.failures < 2) :
    countFailure s = { s with lock.failures := s.lock.failures + 1 } :=
  if_pos (show s.lock.failures + 1 < 3 by omega)

theorem countFailure_third {s : State} (h : s.lock.failures = 2) : countFailure s =
    raise .lockout none (some s.seconds) { s with lock.failures := 3, lock.lockout := true } :=
  if_neg (show ¬s.lock.failures + 1 < 3 by omega)

/-- Settles O30. -/
theorem unlockFollowsItsTable : Obligations.UnlockFollowsItsTable := by
  refine ⟨fun c s hs => ⟨fun h => ?_, fun h hl => ?_, fun h hl ds hcode => ?_⟩,
    fun ds pad hlow hhigh hds => codeEquals_digits pad hlow hhigh hds, fun c ds h => codeEquals_reads h, fun s ha => ?_⟩
  · refine refuses_served (r := .unlock c) rfl hs (fun h => nomatch h) ?_
    have hlock := received_lock_eq (r := .unlock c) rfl s
    show serveUnlock c _ = _
    cases hstate : s.lock.state with
    | opened => simp [serveUnlock, hlock, hstate, refuse]
    | unlocked => simp [serveUnlock, hlock, hstate, refuse]
    | locked => exact absurd hstate h
  · refine refuses_served (r := .unlock c) rfl hs (fun h => nomatch h) ?_
    have hlock := received_lock_eq (r := .unlock c) rfl s
    show serveUnlock c _ = _
    simp [serveUnlock, hlock, h, hl, refuse]
  · have hlock := received_lock_eq (r := .unlock c) rfl s
    have hx := serveUnlock_eq (s := received (.unlock c) s) (by simp [hlock, h]) (by simp [hlock, hl]) c
    rw [codeMatches_of_code (ds := ds) (by simp [hlock, hcode])] at hx
    refine ⟨fun heq => ?_, fun hne hfew => ?_, fun hne htwo => ?_⟩
    · rw [if_pos heq] at hx
      refine replies_served (c := .unlock c) (r := .unlock c) rfl hs (fun h => nomatch h) hx ?_ (.inr (by decide))
        (by decide) fun t ht => ?_
      · intro p hp; cases p <;> simp_all [Part.same, doneWith]
      · obtain ⟨hfail, hout⟩ := ht.frame .lockout (by decide)
        exact ⟨ht.frame .lockState (by decide), hfail, hout.trans (by simp [doneWith, hlock, hl])⟩
    · rw [if_neg (by simp [hne])] at hx
      rw [countFailure_few (by simpa [hlock] using hfew)] at hx
      refine replies_served (c := .unlock c) (r := .unlock c) rfl hs (fun h => nomatch h) hx ?_ (.inr (by decide))
        (by decide) fun t ht => ?_
      · intro p hp; cases p <;> simp_all [Part.same, refuse]
      · obtain ⟨hfail, hout⟩ := ht.frame .lockout (by decide)
        exact ⟨hfail.trans (by simp [refuse, hlock]), hout.trans (by simp [refuse, hlock, hl])⟩
    · rw [if_neg (by simp [hne])] at hx
      rw [countFailure_third (by simpa [hlock] using htwo)] at hx
      refine replies_served (c := .unlock c) (r := .unlock c) rfl hs (fun h => nomatch h) hx ?_ (.inr (by decide))
        (by decide) fun t ht => ?_
      · refine Alters.seq (ps := [.lockout]) ?_ (raise_alters _ _ _ _)
        intro p hp; cases p <;> simp_all [Part.same]
      · obtain ⟨hfail, hout⟩ := ht.frame .lockout (by decide)
        have hevents : t.events = _ := ht.frame .events (by decide)
        refine ⟨hfail, hout, hevents.trans ?_⟩
        obtain ⟨y, g, hu, -⟩ := received_shape (.unlock c) s
        rw [hu]
        rfl
  · exact next_finish (whenActive_of_active lockoutExpires ha)

end Sys2Proof.Machine
end

