-- ==== Sys2Proof/Proofs/CodesAndTags.lean ====
section
/-! Service codes set, cleared and locked (R174, R176), and the tag sequence record (R179). -/

/- One lemma after another, to keep the memory of a compile small. -/
set_option Elab.async false

namespace Sys2Proof.Machine

/-! ### Lock, Set Code and Clear Code (R174, R176) -/

section
variable {c : Instr} {r : Request} {s : State} (hr : requestOf c = some r) (hs : Ready s)
  (hg : r.gated = true → s.lock.state ≠ .locked)
include hr hs hg

/-- A request whose owner changes the lock record alone, and answers no payload. -/
theorem replies_lock {x : ServiceLock} {o : ReplyCode}
    (hx : serveOwner r (received r s) = ({ received r s with lock := x }, o, [])) {parts : List Part}
    (hp : Alters parts (received r s) { received r s with lock := x }) (ht : r.keepsTag = true ∨ .tag ∈ parts)
    (hrun : .phase ∉ parts) {good : ServiceLock → Prop} (hgood : good x) {kind : Nat}
    (hkind : r.kind ||| 0x80 = kind := by simp [Request.kind])
    (hreads : ∀ y, y.code = x.code → y.state = x.state → y.tag = x.tag → good x → good y) :
    Replies c s kind o [] parts fun t => good t.lock :=
  replies_served hr hs hg hx hp ht hrun (fun t ht => hreads t.lock (ht.frame .code (by decide))
    (ht.frame .lockState (by decide)) (ht.frame .tag (by decide)) hgood) hkind

end

theorem serveLock_unlocked {s : State} (h : s.lock.state = .unlocked) (ht : s.lock.tag = .empty) :
    serveLock s = ({ s with lock.state := .locked }, .done, []) := by
  have hreset : resetTag { s with lock.state := .locked } = { s with lock.state := .locked } := resetTag_of_empty ht
  have hended : endSession s = { s with lock.state := .locked } := (if_pos h).trans hreset
  simp only [serveLock, h, hended, doneWith]

theorem serveLock_refused {s : State} (h : s.lock.state ≠ .unlocked) : serveLock s = (s, .badSequence, []) := by
  unfold serveLock
  split
  next hu => exact absurd hu h
  · rfl
  · rfl

/-- The old code a Set Code carries is the one its lock state asks for (R176). -/
def OldFits (old : CodeArg) (s : State) : Prop :=
  (s.lock.state = .opened ∧ codeValue old = .none) ∨
  (s.lock.state = .unlocked ∧ ∃ ds, s.lock.code = some ds ∧ codeEquals old ds = true)

theorem codeMatches_iff (s : State) (c : CodeArg) :
    codeMatches s c = true ↔ ∃ ds, s.lock.code = some ds ∧ codeEquals c ds = true := by
  unfold codeMatches
  cases s.lock.code <;> simp

theorem badFlag_bool (b : Bool) : badFlag (if b then 1 else 0) = false := by cases b <;> rfl

theorem serveSetCode_bad {old new : CodeArg} {s : State} (b : Bool) (h : ∀ ds, codeValue new ≠ .digits ds) :
    serveSetCode old new (if b then 1 else 0) s = (s, .badArgument, []) := by
  unfold serveSetCode
  rw [badFlag_bool]
  split
  · rfl
  · split
    · rfl
    · rfl
    next ds hds => exact absurd hds (h ds)

theorem serveSetCode_fits {old new : CodeArg} {s : State} {ds : List Nat} (b : Bool) (hds : codeValue new = .digits ds)
    (h : OldFits old s) : serveSetCode old new (if b then 1 else 0) s =
      ({ s with lock := { s.lock with code := some ds, state := if b then .locked else .unlocked } }, .done, []) := by
  have hset : setCode ds (if b then 1 else 0) s =
      { s with lock := { s.lock with code := some ds, state := if b then .locked else .unlocked } } := by
    cases b <;> rfl
  unfold serveSetCode
  rw [badFlag_bool, hds, ← hset]
  rcases h with ⟨hstate, hold⟩ | ⟨hstate, hold⟩
  · simp [hstate, hold, doneWith]
  · simp [hstate, (codeMatches_iff s old).2 hold, doneWith]

theorem serveSetCode_misfit {old new : CodeArg} {s : State} {ds : List Nat} (b : Bool) (hl : unlocked s)
    (hds : codeValue new = .digits ds) (h : ¬OldFits old s) :
    serveSetCode old new (if b then 1 else 0) s = (s, .codeMismatch, []) := by
  unfold serveSetCode
  rw [badFlag_bool, hds]
  cases hstate : s.lock.state with
  | opened =>
    have hold : codeValue old ≠ .none := fun hold => h (.inl ⟨hstate, hold⟩)
    simp [hold, refuse]
  | unlocked =>
    have hold : codeMatches s old = false :=
      Bool.eq_false_iff.2 fun hold => h (.inr ⟨hstate, (codeMatches_iff s old).1 hold⟩)
    simp [hold, refuse]
  | locked => exact absurd hstate hl

theorem received_unlocked {s : State} (r : Request) (hl : unlocked s) : unlocked (received r s) := by
  unfold unlocked
  rw [received_lock_state]
  exact hl

theorem oldFits_received {r : Request} (hr : r.keepsTag = false) (old : CodeArg) (s : State) :
    OldFits old (received r s) ↔ OldFits old s := by
  unfold OldFits
  rw [received_lock_eq hr]

/-- Settles O31. -/
theorem codesAreSetClearedAndLocked : Obligations.CodesAreSetClearedAndLocked := by
  intro old new b s hs
  have hlock (r : Request) (hr : r.keepsTag = false) := received_lock_eq hr s
  refine ⟨fun h => ?_, fun h => ?_, fun hl => ⟨fun hbad => ?_, fun ds hds => ⟨fun hfits => ?_, fun hmis => ?_⟩⟩, fun h => ?_,
    fun h ds hcode => ⟨fun heq => ?_, fun hne => ?_⟩⟩
  · refine replies_lock (c := .lock) (r := .lock) rfl hs (fun h => nomatch h)
      (serveLock_unlocked (by simpa [hlock .lock rfl] using h) (received_tag rfl s)) ?_ (.inr (by decide)) (by decide)
      (good := fun y => y.state = .locked ∧ y.tag = .empty) ⟨rfl, received_tag (r := .lock) rfl s⟩ (hreads := ?_)
    · intro p hp; cases p <;> simp_all [Part.same]
    · rintro y - hstate htag ⟨h1, h2⟩
      exact ⟨hstate.trans h1, htag.trans h2⟩
  · exact refuses_served (r := .lock) rfl hs (fun h => nomatch h)
      (serveLock_refused (by simpa [hlock .lock rfl] using h))
  · exact refuses_served (c := .setCode old new b) (r := .setCode old new (if b then 1 else 0)) rfl hs (fun _ => hl)
      (serveSetCode_bad b hbad)
  · refine replies_lock (c := .setCode old new b) (r := .setCode old new (if b then 1 else 0)) rfl hs (fun _ => hl)
      (serveSetCode_fits b hds ((oldFits_received rfl old s).2 hfits)) ?_ (.inr (by decide)) (by decide)
      (good := fun y => y.code = some ds ∧ y.state = if b then .locked else .unlocked) ⟨rfl, rfl⟩ (hreads := ?_)
    · intro p hp; cases p <;> simp_all [Part.same]
    · rintro y hcode hstate - ⟨h1, h2⟩
      exact ⟨hcode.trans h1, hstate.trans h2⟩
  · exact refuses_served (c := .setCode old new b) (r := .setCode old new (if b then 1 else 0)) rfl hs (fun _ => hl)
      (serveSetCode_misfit b (received_unlocked _ hl) hds fun h => hmis ((oldFits_received rfl old s).1 h))
  · refine refuses_served (c := .clearCode old) (r := .clearCode old) rfl hs (fun _ => by simp [h]) ?_
    show serveClearCode old _ = _
    simp [serveClearCode, h, refuse]
  · refine replies_lock (c := .clearCode old) (r := .clearCode old) (o := .done)
      (x := { (received (.clearCode old) s).lock with code := none, state := .opened }) rfl hs (fun _ => by simp [h])
      ?_ ?_ (.inr (by decide)) (by decide) (good := fun y => y.code = none ∧ y.state = .opened) ⟨rfl, rfl⟩ (hreads := ?_)
    · show serveClearCode old _ = _
      have hmatch : codeMatches (received (.clearCode old) s) old = true :=
        (codeMatches_iff _ old).2 ⟨ds, by simp [hlock (.clearCode old) rfl, hcode], heq⟩
      simp [serveClearCode, h, hmatch, doneWith]
    · intro p hp; cases p <;> simp_all [Part.same]
    · rintro y hcode hstate - ⟨h1, h2⟩
      exact ⟨hcode.trans h1, hstate.trans h2⟩
  · refine refuses_served (c := .clearCode old) (r := .clearCode old) rfl hs (fun _ => by simp [h]) ?_
    show serveClearCode old _ = _
    have hmatch : codeMatches (received (.clearCode old) s) old = false := by
      rw [codeMatches_of_code (ds := ds) (by simp [hlock (.clearCode old) rfl, hcode])]
      exact hne
    simp [serveClearCode, h, hmatch, refuse]

/-! ### The tag sequence record (R179) -/

/-- A tag argument with a meaning (R179). -/
def GoodArg (unit value : Nat) (u : TagUnit) : Prop :=
  (unit = 0 ∧ u = .selection ∧ validCode value = true) ∨ (unit = 1 ∧ u = .tray ∧ 1 ≤ value ∧ value ≤ 8)

theorem tagArg_iff (unit value : Nat) (u : TagUnit) : tagArg unit value = some u ↔ GoodArg unit value u := by
  unfold tagArg GoodArg
  match unit with
  | 0 => cases u <;> simp [unitOf]
  | 1 => cases u <;> simp [unitOf]
  | n + 2 => simp [unitOf]

/-- The tag sequence record replaced. -/
def withTag (g : TagRec) (s : State) : State := { s with lock.tag := g }

section
variable {c : Instr} {r : Request} {s : State} (hr : requestOf c = some r) (hs : Ready s) (hl : unlocked s)
  (hkeeps : r.keepsTag = true)
include hr hs hl hkeeps

/-- A tagging request whose owner changes the tag sequence record alone. -/
theorem replies_tag {o : ReplyCode} {g : TagRec}
    (hx : serveOwner r (received r s) = (withTag g (received r s), o, [])) {kind : Nat}
    (hkind : r.kind ||| 0x80 = kind := by simp [Request.kind]) :
    Replies c s kind o [] [.tag] fun t => t.lock.tag = g := by
  refine replies_served hr hs (fun _ => hl) hx ?_ (.inl hkeeps) (by decide)
    (fun t ht => ht.frame .tag (by decide)) hkind
  intro p hp; cases p <;> simp_all [Part.same, withTag]

end

theorem received_lock {r : Request} (hr : r.keepsTag = true) (s : State) : (received r s).lock = s.lock := by
  rw [received_keeps hr]

section
variable {unit value : Nat} {s : State}

theorem serveTagFirst_bad (h : ∀ u, ¬GoodArg unit value u) :
    serveTagFirst unit value s = (withTag .empty s, .badArgument, []) := by
  have hnone : tagArg unit value = none :=
    Option.eq_none_iff_forall_ne_some.2 fun u hu => h u ((tagArg_iff unit value u).1 hu)
  simp only [serveTagFirst, hnone]
  rfl

theorem serveTagLast_bad (h : ∀ u, ¬GoodArg unit value u) :
    serveTagLast unit value s = (withTag .empty s, .badArgument, []) := by
  have hnone : tagArg unit value = none :=
    Option.eq_none_iff_forall_ne_some.2 fun u hu => h u ((tagArg_iff unit value u).1 hu)
  simp only [serveTagLast, hnone]
  rfl

variable {u : TagUnit} (hu : GoodArg unit value u)
include hu

theorem serveTagFirst_sets (h : s.lock.tag = .empty) :
    serveTagFirst unit value s = (withTag (.firstSet u value) s, .done, []) := by
  simp only [serveTagFirst, (tagArg_iff unit value u).2 hu, h]
  rfl

theorem serveTagFirst_drops (h : s.lock.tag ≠ .empty) :
    serveTagFirst unit value s = (withTag .empty s, .badSequence, []) := by
  simp only [serveTagFirst, (tagArg_iff unit value u).2 hu]
  split
  next hempty => exact absurd hempty h
  · rfl
  · rfl

theorem serveTagLast_of_first {v : TagUnit} {first : Nat} (h : s.lock.tag = .firstSet v first) :
    serveTagLast unit value s = if rangeFits v u first value then (withTag (.rangeSet u first value []) s, .done, [])
      else (withTag .empty s, .badArgument, []) := by
  simp only [serveTagLast, (tagArg_iff unit value u).2 hu, h]
  rfl

theorem serveTagLast_drops (h : ∀ v first, s.lock.tag ≠ .firstSet v first) :
    serveTagLast unit value s = (withTag .empty s, .badSequence, []) := by
  simp only [serveTagLast, (tagArg_iff unit value u).2 hu]
  split
  next v first hfirst => exact absurd hfirst (h v first)
  · rfl
  · rfl

end

theorem rangeFits_iff (u v : TagUnit) (first last : Nat) : rangeFits v u first last = true ↔
    u = v ∧ first ≤ last ∧ (u = .selection → first / 10 = last / 10) := by
  cases u <;> cases v <;> simp [rangeFits]

theorem serveUntag_invalid {code : Nat} {s : State} (h : validCode code = false) :
    serveUntag code s = (withTag .empty s, .badArgument, []) := by
  simp only [serveUntag, h]
  rfl

theorem serveUntag_drops {code : Nat} {s : State} (hcode : validCode code = true)
    (h : ∀ u f l off, s.lock.tag ≠ .rangeSet u f l off) :
    serveUntag code s = (withTag .empty s, .badSequence, []) := by
  unfold serveUntag
  rw [if_neg (by simp [hcode])]
  split
  next u f l off hrange => exact absurd hrange (h u f l off)
  · rfl
  · rfl

theorem serveUntag_of_range {code : Nat} {s : State} (hcode : validCode code = true) {u : TagUnit} {f l : Nat}
    {off : List Nat} (h : s.lock.tag = .rangeSet u f l off) : serveUntag code s =
      if !inRange u f l code then (withTag .empty s, .badArgument, [])
      else if off.contains code then (withTag (.rangeSet u f l off) s, .done, [])
      else if off.length < 8 then (withTag (.rangeSet u f l (off ++ [code])) s, .done, [])
      else (withTag .empty s, .badSequence, []) := by
  have hself : withTag (.rangeSet u f l off) s = s := by
    unfold withTag
    rw [← h]
  unfold serveUntag
  rw [if_neg (by simp [hcode]), h, hself]
  rfl

/-- Settles O33. -/
theorem tagSequenceIsBuiltInOrder : Obligations.TagSequenceIsBuiltInOrder := by
  intro unit value s hs hl
  have hfirst : ∀ {o g}, serveTagFirst unit value (received (.tagFirst unit value) s) =
      (withTag g (received (.tagFirst unit value) s), o, []) →
      Replies (.tagFirst unit value) s 0x9B o [] [.tag] fun t => t.lock.tag = g :=
    fun h => replies_tag (r := .tagFirst unit value) rfl hs hl rfl h
  have hlast : ∀ {o g}, serveTagLast unit value (received (.tagLast unit value) s) =
      (withTag g (received (.tagLast unit value) s), o, []) →
      Replies (.tagLast unit value) s 0x9D o [] [.tag] fun t => t.lock.tag = g :=
    fun h => replies_tag (r := .tagLast unit value) rfl hs hl rfl h
  have huntag : ∀ {o g}, serveUntag value (received (.untag value) s) = (withTag g (received (.untag value) s), o, []) →
      Replies (.untag value) s 0x9F o [] [.tag] fun t => t.lock.tag = g :=
    fun h => replies_tag (r := .untag value) rfl hs hl rfl h
  have htag {r : Request} (hr : r.keepsTag = true) : (received r s).lock.tag = s.lock.tag := by rw [received_lock hr]
  refine ⟨fun hbad => ⟨hfirst (serveTagFirst_bad hbad), hlast (serveTagLast_bad hbad)⟩, fun u hu => ⟨fun h => ?_, fun h => ?_,
    fun v first h => ⟨fun hsame hle htray => ?_, fun hmis => ?_⟩, fun h => ?_⟩, fun hcode => ?_, fun hcode => ⟨fun h => ?_,
    fun u f l off h => ⟨fun hout => ?_, fun hin hmem => ?_, fun hin hmem => ⟨fun hroom => ?_, fun hfull => ?_⟩⟩⟩⟩
  · exact hfirst (serveTagFirst_sets hu ((htag rfl).trans h))
  · exact hfirst (serveTagFirst_drops hu (by rwa [htag rfl]))
  · exact hlast ((serveTagLast_of_first hu ((htag rfl).trans h)).trans
      (if_pos ((rangeFits_iff u v first value).2 ⟨hsame, hle, htray⟩)))
  · refine hlast ((serveTagLast_of_first hu ((htag rfl).trans h)).trans (if_neg fun hfits => ?_))
    obtain ⟨hsame, hle, htray⟩ := (rangeFits_iff u v first value).1 hfits
    rcases hmis with hmis | hmis | ⟨hsel, hmis⟩
    · exact hmis hsame
    · omega
    · exact hmis (htray hsel)
  · exact hlast (serveTagLast_drops hu fun v first => by rw [htag rfl]; exact h v first)
  · exact huntag (serveUntag_invalid hcode)
  · exact huntag (serveUntag_drops hcode fun u f l off => by rw [htag rfl]; exact h u f l off)
  · exact huntag (by rw [serveUntag_of_range hcode ((htag rfl).trans h)]; simp [hout])
  · exact huntag (by rw [serveUntag_of_range hcode ((htag rfl).trans h)]; simp [hin, hmem])
  · exact huntag (by rw [serveUntag_of_range hcode ((htag rfl).trans h)]; simp [hin, hmem, hroom])
  · exact huntag (by rw [serveUntag_of_range hcode ((htag rfl).trans h)]; simp [hin, hmem, Nat.not_lt.2 hfull])

end Sys2Proof.Machine
end

