-- ==== Sys2Proof/Proofs/ModesAndDoor.lean ====
section
/-! The operating modes (R182, R184) and the door (R173). -/

/- One lemma after another, to keep the memory of a compile small. -/
set_option Elab.async false

namespace Sys2Proof.Machine

/-! ### Fill mode (R182) -/

/-- Fill mode set, with the masks that follow it. -/
def withFill (b : Bool) (s : State) : State := recomputeMasks { s with lock.fill := b }

theorem setFill_alters (b : Bool) (s : State) : Alters [.fill] s { s with lock.fill := b } := by
  intro p hp; cases p <;> simp_all [Part.same]

theorem withFill_alters (b : Bool) (s : State) : Alters (.fill :: maskParts) s (withFill b s) :=
  (setFill_alters b s).seq (recomputeMasks_alters _)

theorem withFill_route {s : State} (h : s.phase = .run) (b : Bool) : (withFill b s).change.route = routeMask s :=
  (recomputeMasks_masks (s := { s with lock.fill := b }) h).2.1

theorem noteMask_of_fill {s : State} (h : s.lock.fill = true) : noteMask s = 0 := by
  have hnone : inNote s = fun _ => false := by funext k; simp [inNote, noteFits, h]
  rw [noteMask, hnone]
  rfl

/-- In fill mode the coins accepted are those routed to a tube (R35). -/
theorem acceptMask_of_fill {s : State} (hfill : s.lock.fill = true) (hup : s.link.up = true)
    (hpresent : s.periphPresent .validator = true) : acceptMask s = routeMask s := by
  have hsame : inAccept s = inRoute s := by funext k; simp [inAccept, hfill, hup, hpresent]
  rw [acceptMask, hsame]
  rfl

theorem withFill_lock (b : Bool) (s : State) : (withFill b s).lock.fill = b :=
  recomputeMasks_alters _ .fill (by decide)

theorem serveFill_off {s : State} (h : s.lock.fill = true) : serveFill 0 s = doneWith (withFill false s) := by
  simp [serveFill, badFlag, h, withFill]

theorem serveFill_on {s : State} (h : s.lock.fill = false) (hd : s.doorOpen = true) (hsale : s.credit.sale = .idle) :
    serveFill 1 s = doneWith (withFill true s) := by
  simp [serveFill, badFlag, h, hd, hsale, withFill]

theorem received_fill {r : Request} (s : State) : (received r s).lock.fill = s.lock.fill :=
  received_alters r s .fill (by decide)

/-! ### Economy mode (R184) -/

theorem economyBlocks_eq (s : State) : economyBlocks s =
    (if s.credit.sale = .idle then 0 else 1) + (if s.credit.escrow = none then 0 else 2) +
      (if s.cold.state = .starting ∨ s.cold.state = .defrost then 4 else 0) + (if s.doorOpen then 8 else 0) := by
  have hescrow : (if s.credit.escrow.isSome then 2 else 0) = if s.credit.escrow = none then 0 else 2 := by
    cases s.credit.escrow <;> rfl
  unfold economyBlocks
  rw [hescrow, ite_not]

theorem economyBlocks_received (r : Request) (s : State) : economyBlocks (received r s) = economyBlocks s := by
  obtain ⟨x, g, hu, -⟩ := received_shape r s
  rw [hu]
  rfl

theorem doorOpen_received (r : Request) (s : State) : (received r s).doorOpen = s.doorOpen := by
  obtain ⟨x, g, hu, -⟩ := received_shape r s
  rw [hu]
  rfl

theorem setEconomyMode_alters (b : Bool) (s : State) : Alters [.economy] s { s with lock.economy := b } := by
  intro p hp; cases p <;> simp_all [Part.same]

/-- Settles O35. -/
theorem modesAreEnteredUnderTheirChecks : Obligations.ModesAreEnteredUnderTheirChecks := by
  intro s hs hl
  have hrun (r : Request) : (received r s).phase = .run := (received_phase r s).trans hs.run
  have hlock {r : Request} (hr : r.keepsTag = false) := received_lock_eq hr s
  have hroute (r : Request) : routeMask (received r s) = routeMask s := routeMask_alters (received_alters r s)
  refine ⟨fun h => ?_, fun h => ?_, fun h => ?_, fun h => ⟨fun hd => ?_, fun hd hsale => ?_, fun hd hsale => ?_⟩, ?_, fun h => ?_,
    fun h => ⟨fun hb => ?_, fun hb => ?_⟩⟩
  · have hx : serveOwner (.fillMode 0) (received (.fillMode 0) s) = doneWith (withFill false (received (.fillMode 0) s)) :=
      serveFill_off ((received_fill s).trans h)
    refine replies_served (c := .fillModeOff) (r := .fillMode 0) rfl hs (fun _ => hl) hx
      ((withFill_alters false _).mono) (.inr (by decide)) (by decide) fun t ht => ⟨?_, ?_⟩
    · exact (ht.frame .fill (by decide)).trans (withFill_lock false _)
    · exact (ht.frame .coinMasks (by decide)).2.trans ((withFill_route (hrun _) false).trans (hroute _))
  · refine refuses_served (c := .fillModeOff) (r := .fillMode 0) rfl hs (fun _ => hl) ?_
    show serveFill 0 _ = _
    simp [serveFill, badFlag, hlock (r := .fillMode 0) rfl, h, doneWith]
  · refine refuses_served (c := .fillModeOn) (r := .fillMode 1) rfl hs (fun _ => hl) ?_
    show serveFill 1 _ = _
    simp [serveFill, badFlag, hlock (r := .fillMode 1) rfl, h, doneWith]
  · refine refuses_served (c := .fillModeOn) (r := .fillMode 1) rfl hs (fun _ => hl) ?_
    show serveFill 1 _ = _
    simp [serveFill, badFlag, hlock (r := .fillMode 1) rfl, h, doorOpen_received, hd, refuse]
  · refine refuses_served (c := .fillModeOn) (r := .fillMode 1) rfl hs (fun _ => hl) ?_
    show serveFill 1 _ = _
    simp [serveFill, badFlag, hlock (r := .fillMode 1) rfl, h, doorOpen_received, hd, hsale, refuse]
  · have hx : serveOwner (.fillMode 1) (received (.fillMode 1) s) = doneWith (withFill true (received (.fillMode 1) s)) :=
      serveFill_on ((received_fill s).trans h) ((doorOpen_received _ s).trans hd) (by simpa using hsale)
    refine replies_served (c := .fillModeOn) (r := .fillMode 1) rfl hs (fun _ => hl) hx
      ((withFill_alters true _).mono) (.inr (by decide)) (by decide) fun t ht => ?_
    obtain ⟨haccept, hroute', hnote⟩ :=
      recomputeMasks_masks (s := { received (.fillMode 1) s with lock.fill := true }) (hrun _)
    obtain ⟨hta, htr⟩ := ht.frame .coinMasks (by decide)
    refine ⟨(ht.frame .fill (by decide)).trans (withFill_lock true _), ?_, ?_, fun hpresent => ?_⟩
    · exact (ht.frame .noteMask (by decide)).trans (hnote.trans (noteMask_of_fill rfl))
    · exact htr.trans ((withFill_route (hrun _) true).trans (hroute _))
    · have hup : (received (.fillMode 1) s).link.up = true := (received_alters _ s .linkState (by decide)).1.trans hs.up
      have hpresent' : (received (.fillMode 1) s).periphPresent .validator = true := by
        rw [periphPresent_congr (received_tables _ s) (received_alters _ s .slots (by decide))]
        exact hpresent
      exact hta.trans (haccept.trans ((acceptMask_of_fill (s := { received (.fillMode 1) s with lock.fill := true }) rfl hup
        hpresent').trans (htr.trans hroute').symm))
  · refine replies_served (c := .economyModeOff) (r := .economyMode 0)
      (x := doneWith { received (.economyMode 0) s with lock.economy := false }) rfl hs (fun _ => hl) rfl
      ((setEconomyMode_alters false _).mono) (.inr (by decide)) (by decide) fun t ht => ht.frame .economy (by decide)
  · refine refuses_served (c := .economyModeOn) (r := .economyMode 1) rfl hs (fun _ => hl) ?_
    show serveEconomy 1 _ = _
    simp [serveEconomy, badFlag, hlock (r := .economyMode 1) rfl, h, doneWith]
  · rw [← economyBlocks_eq] at hb ⊢
    refine refuses_served (c := .economyModeOn) (r := .economyMode 1) rfl hs (fun _ => hl) ?_
    show serveEconomy 1 _ = _
    simp [serveEconomy, badFlag, hlock (r := .economyMode 1) rfl, h, economyBlocks_received, hb]
  · rw [← economyBlocks_eq] at hb
    have hx : serveOwner (.economyMode 1) (received (.economyMode 1) s) =
        doneWith { received (.economyMode 1) s with lock.economy := true } := by
      show serveEconomy 1 _ = _
      simp [serveEconomy, badFlag, hlock (r := .economyMode 1) rfl, h, economyBlocks_received, hb]
    exact replies_served (c := .economyModeOn) (r := .economyMode 1) rfl hs (fun _ => hl) hx
      ((setEconomyMode_alters true _).mono) (.inr (by decide)) (by decide) fun t ht => ht.frame .economy (by decide)

/-! ### The door (R173) -/

/-- The door's record replaced. -/
def withDoor (d : Debounce) (s : State) : State := { s with lock.door := d }

theorem withDoor_alters (d : Debounce) (s : State) : Alters [.door] s (withDoor d s) := by
  intro p hp; cases p <;> simp_all [Part.same, withDoor]

theorem doorReads_changes {s : State} {a : Bool} (h : s.lock.door.accepted = some a) (b : Bool) (hb : a ≠ b) :
    doorReads [b, b, b, b, b] s = doorChanged b (withDoor ⟨some b, b, 5⟩ s) := by
  have hread := readUntil_agreeing (n := 5) (by decide) b (d := s.lock.door) (by rw [h]; simpa using hb)
  have hreads : List.replicate 5 b = [b, b, b, b, b] := rfl
  rw [hreads] at hread
  unfold doorReads
  simp only [h, hread]
  rfl

theorem doorReads_first {s : State} (h : s.lock.door.accepted = none) (b : Bool) :
    doorReads [b, b, b, b, b] s = withDoor ⟨some b, b, 5⟩ s := by
  have hread := readUntil_agreeing (n := 5) (by decide) b (d := s.lock.door) (by simp [h])
  have hreads : List.replicate 5 b = [b, b, b, b, b] := rfl
  rw [hreads] at hread
  unfold doorReads
  simp only [h, hread]
  rfl

theorem endEconomy_economy (c : ModeEnd) (s : State) : (endEconomy c s).lock.economy = false := by
  unfold endEconomy
  split
  · rfl
  next hoff => exact Bool.eq_false_iff.2 hoff

theorem endEconomy_events (c : ModeEnd) (s : State) : (endEconomy c s).events =
    if s.lock.economy then s.events.place (eventAt s.seconds .modeEnded none (some (pack 0 0 1 c.code)))
    else s.events := by
  unfold endEconomy
  split <;> rfl

theorem endFill_fill (c : ModeEnd) (s : State) : (endFill c s).lock.fill = false := by
  unfold endFill
  split
  · rfl
  next hoff => exact Bool.eq_false_iff.2 hoff

theorem endFill_events (c : ModeEnd) (s : State) : (endFill c s).events =
    if s.lock.fill then s.events.place (eventAt s.seconds .modeEnded none (some (pack 0 0 0 c.code)))
    else s.events := by
  unfold endFill
  split <;> rfl

/-- The door accepted as closed, before the masks follow: the session and fill mode have ended. -/
def closedDoor (s : State) : State :=
  endFill .door (endSession (raise .serviceDoor none (val 0) (withDoor ⟨some false, false, 5⟩ s)))

theorem Alters.doorOpen_eq {ps : List Part} {s t : State} (h : Alters ps s t) (hp : .door ∉ ps := by decide) :
    t.doorOpen = s.doorOpen := by
  have hdoor : t.lock.door = s.lock.door := h .door hp
  simp only [State.doorOpen, hdoor]

/-- Settles O36. -/
theorem doorChangesEndModesAndSessions : Obligations.DoorChangesEndModesAndSessions := by
  intro s hrun
  have hexec (l : List Bool) : exec (.serviceDoor l) s = .next (finish (doorReads l s)) :=
    next_finish (whenActive_of_active (doorReads l) (active_of_run hrun))
  refine ⟨fun h => ?_, fun h => ?_, fun h b => ?_⟩
  · have hu := doorReads_changes h true (by decide)
    have hopened := (withDoor_alters ⟨some true, true, 5⟩ s).seq (rs := [.door, .events])
      (raise_alters .serviceDoor none (val 1) _)
    have hended := endEconomy_alters .door (raise .serviceDoor none (val 1) (withDoor ⟨some true, true, 5⟩ s))
    refine completes_of (u := endEconomy .door (raise .serviceDoor none (val 1) (withDoor ⟨some true, true, 5⟩ s)))
      ((hexec _).trans (next_finish hu)) hrun (hopened.seq hended) (by decide) fun t ht => ⟨?_, ?_, ?_⟩
    · exact ht.doorOpen_eq.trans (hended.doorOpen_eq.trans rfl)
    · exact (ht .economy (by decide)).trans (endEconomy_economy _ _)
    · exact (ht .events (by decide)).trans (endEconomy_events _ _)
  · have hu : doorReads [false, false, false, false, false] s = recomputeMasks (closedDoor s) :=
      doorReads_changes h false (by decide)
    have hmasks := recomputeMasks_alters (closedDoor s)
    have hraised := (withDoor_alters ⟨some false, false, 5⟩ s).seq (rs := [.door, .events])
      (raise_alters .serviceDoor none (val 0) _)
    have hsession := endSession_alters (raise .serviceDoor none (val 0) (withDoor ⟨some false, false, 5⟩ s))
    have hfill := endFill_alters .door (endSession (raise .serviceDoor none (val 0) (withDoor ⟨some false, false, 5⟩ s)))
    have hclosed : Alters [.door, .events, .fill, .lockState, .tag, .marks] s (closedDoor s) :=
      (hraised.seq (rs := [.door, .events, .lockState, .tag, .marks]) hsession).seq hfill
    refine completes_of ((hexec _).trans (next_finish hu)) hrun (hclosed.seq hmasks) (by decide) fun t ht => ?_
    have hafter := hmasks.seq (rs := .coinMasks :: .noteMask :: dueParts) ht
    refine ⟨?_, ?_, ?_, fun hlock => ?_, ?_⟩
    · exact hafter.doorOpen_eq.trans ((hsession.seq (rs := [.lockState, .tag, .marks, .fill, .events]) hfill).doorOpen_eq.trans rfl)
    · exact (hafter .fill (by decide)).trans (endFill_fill _ _)
    · exact (hafter .economy (by decide)).trans (hclosed .economy (by decide))
    · obtain ⟨hstate, htag⟩ :=
        endSession_unlocked (s := raise .serviceDoor none (val 0) (withDoor ⟨some false, false, 5⟩ s)) hlock
      exact ⟨(hafter .lockState (by decide)).trans ((hfill .lockState (by decide)).trans hstate),
        (hafter .tag (by decide)).trans ((hfill .tag (by decide)).trans htag)⟩
    · have hfillsame := hsession .fill (by decide)
      have heventsame := hsession .events (by decide)
      have hsecondsame := hsession .seconds (by decide)
      have hevents : t.events = (closedDoor s).events := hafter .events (by decide)
      rw [hevents]
      unfold closedDoor
      rw [endFill_events, hfillsame, heventsame, hsecondsame]
      rfl
  · refine completes_of ((hexec _).trans (next_finish (doorReads_first h b))) hrun (withDoor_alters _ s) (by decide)
      fun t ht => ?_
    have hdoor : t.lock.door = ⟨some b, b, 5⟩ := ht .door (by decide)
    rw [hdoor]

end Sys2Proof.Machine
end

