-- ==== Sys2Proof/Proofs/ServiceOperations.lean ====
section
/-! Service requests of other blocks: Drain, Test Spiral, Home Spiral and Defrost Now (R86, R105, R108, R183), and Release
Hold (R111). -/

/- One lemma after another, to keep the memory of a compile small. -/
set_option Elab.async false

namespace Sys2Proof.Machine

/-! ### Drain (R183) -/

theorem startPayout_payout (k : PayoutKind) (s : State) : (startPayout k s).change.payout = some (newPayout k) := by
  simp [startPayout]

theorem startPayout_asked (k : PayoutKind) (s : State) : (startPayout k s).supply.asked .payout :=
  asked_requested .payout { s with change.payout := some (newPayout k) }

theorem serveDrain_bad {n k : Nat} (h : 5 < n ∨ k = 0 ∨ 250 < k) (s : State) :
    serveDrain n k s = (s, .badArgument, []) := if_pos h

section
variable {n k : Nat} (hn : n ≤ 5) (hlow : 1 ≤ k) (hhigh : k ≤ 250)
include hn hlow hhigh

theorem serveDrain_good (s : State) : serveDrain n k s =
    if !s.doorOpen then refuse .doorClosed s else if s.credit.sale ≠ .idle then refuse .busy s
    else (startPayout (.drain n k) s, .started, []) := if_neg (by omega)

theorem drain_replies {s : State} (hs : Ready s) (hl : unlocked s) :
    (s.doorOpen = false → Refuses (.drain n k) s 0xA7 .doorClosed []) ∧
    (s.doorOpen = true → s.credit.sale ≠ .idle → Refuses (.drain n k) s 0xA7 .busy []) ∧
    (s.doorOpen = true → s.credit.sale = .idle → s.credit.inFlight = none →
      Replies (.drain n k) s 0xA7 .started [] [.tag, .sale, .payout, .grants] fun t =>
        t.change.payout = some (newPayout (.drain n k)) ∧ t.credit.sale = .payout ∧ t.supply.asked .payout) := by
  have hx := serveDrain_good hn hlow hhigh (received (.drain n k) s)
  rw [doorOpen_received, received_credit] at hx
  refine ⟨fun hd => ?_, fun hd hsale => ?_, fun hd hsale hvend => ?_⟩
  · exact refuses_served (r := .drain n k) rfl hs (fun _ => hl) (hx.trans (by simp [hd, refuse]))
  · exact refuses_served (r := .drain n k) rfl hs (fun _ => hl) (hx.trans (by simp [hd, hsale, refuse]))
  · have hserved : serveOwner (.drain n k) (received (.drain n k) s) =
        (startPayout (.drain n k) (received (.drain n k) s), .started, []) := hx.trans (by simp [hd, hsale])
    refine replies_served (c := .drain n k) (r := .drain n k) rfl hs (fun _ => hl) hserved
      ((startPayout_alters _ _).mono) (.inr (by decide)) (by decide) fun t ht => ?_
    have hpayout : t.change.payout = some (newPayout (.drain n k)) :=
      (ht.payout (by simp [startPayout_payout])).trans (startPayout_payout _ _)
    have hafter := (startPayout_alters (.drain n k) (received (.drain n k) s)).seq
      (rs := .staging :: .marks :: dueParts) ht.frame
    have hnone : t.credit.inFlight = none := (hafter .inFlight (by decide)).trans (by simpa using hvend)
    exact ⟨hpayout, ht.sale.trans (by simp [saleOf, hnone, hpayout]), ht.asked _ (startPayout_asked _ _)⟩

end

/-! ### Test Spiral and Home Spiral (R86) -/

/-- The command and the request kind of a service operation. -/
def spiralCommand (home : Bool) (p : Nat) : Instr := if home then .homeSpiral p else .testSpiral p

def spiralRequest (home : Bool) (p : Nat) : Request := if home then .homeSpiral p else .testSpiral p

theorem requestOf_spiralCommand (home : Bool) (p : Nat) :
    requestOf (spiralCommand home p) = some (spiralRequest home p) := by cases home <;> rfl

theorem spiralRequest_kind (home : Bool) (p : Nat) :
    (spiralRequest home p).kind ||| 0x80 = if home then 0xB3 else 0xB1 := by
  cases home <;> simp [spiralRequest, Request.kind]

theorem serveOwner_spiralRequest (home : Bool) (p : Nat) (s : State) :
    serveOwner (spiralRequest home p) s = serveSpiral home p s := by cases home <;> rfl

theorem beginService_service (home : Bool) (p : Nat) (s : State) : (beginService home p s).drive.service =
    some { home := home, spiral := p, params := s.tables.drive, told := false } := by
  simp [beginService]

theorem serveSpiral_bad {home : Bool} {p : Nat} {s : State}
    (h : 63 < p ∨ (home = true ∧ (s.spiral p).state ≠ .notHome)) : serveSpiral home p s = (s, .badArgument, []) := by
  unfold serveSpiral
  by_cases hp : 63 < p
  · exact if_pos hp
  · rw [if_neg hp]
    exact if_pos (h.resolve_left hp)

theorem serveSpiral_good {home : Bool} {p : Nat} {s : State} (hp : p ≤ 63)
    (h : home = true → (s.spiral p).state = .notHome) : serveSpiral home p s =
      if !s.doorOpen then refuse .doorClosed s else if s.credit.sale ≠ .idle then refuse .busy s
      else if s.drive.service.isSome then refuse .busy s else (beginService home p s, .started, []) := by
  unfold serveSpiral
  rw [if_neg (Nat.not_lt.2 hp), if_neg fun hc => hc.2 (h hc.1)]

theorem received_spiral (r : Request) (s : State) (p : Nat) : (received r s).spiral p = s.spiral p := by
  have hspirals : (received r s).spirals = s.spirals := received_alters r s .spirals (by decide)
  simp only [State.spiral, hspirals]

theorem received_drive (r : Request) (s : State) : (received r s).drive = s.drive := by
  obtain ⟨x, g, hu, -⟩ := received_shape r s
  rw [hu]

theorem spiral_replies (home : Bool) (p : Nat) {s : State} (hs : Ready s) (hl : unlocked s) :
    let c := spiralCommand home p
    let kind := if home then 0xB3 else 0xB1
    (63 < p ∨ (home = true ∧ (s.spiral p).state ≠ .notHome) → Refuses c s kind .badArgument []) ∧
    (p ≤ 63 → (home = true → (s.spiral p).state = .notHome) →
      (s.doorOpen = false → Refuses c s kind .doorClosed []) ∧
      (s.doorOpen = true → s.credit.sale ≠ .idle ∨ s.drive.service.isSome = true → Refuses c s kind .busy []) ∧
      (s.doorOpen = true → s.credit.sale = .idle → s.drive.service = none →
        Replies c s kind .started [] [.tag, .serviceOp, .grants] fun t =>
          t.drive.service = some { home := home, spiral := p, params := s.tables.drive, told := false } ∧
          t.supply.asked .motor)) := by
  have hserve (x : Served) (h : serveSpiral home p (received (spiralRequest home p) s) = x) :=
    (serveOwner_spiralRequest home p _).trans h
  refine ⟨fun h => ?_, fun hp hhome => ?_⟩
  · exact refuses_served (requestOf_spiralCommand home p) hs (fun _ => hl)
      (hserve _ (serveSpiral_bad (by rwa [received_spiral]))) (spiralRequest_kind home p)
  have hx := serveSpiral_good (s := received (spiralRequest home p) s) hp (by rwa [received_spiral])
  rw [doorOpen_received, received_credit, received_drive] at hx
  refine ⟨fun hd => ?_, fun hd hbusy => ?_, fun hd hsale hservice => ?_⟩
  · exact refuses_served (requestOf_spiralCommand home p) hs (fun _ => hl) (hserve _ (hx.trans (by simp [hd, refuse])))
      (spiralRequest_kind home p)
  · refine refuses_served (requestOf_spiralCommand home p) hs (fun _ => hl) (hserve _ (hx.trans ?_))
      (spiralRequest_kind home p)
    rw [if_neg (by simp [hd])]
    by_cases hsale : s.credit.sale = .idle
    · rw [if_neg (by simp [hsale]), if_pos (hbusy.resolve_left fun h => h hsale)]
      rfl
    · exact if_pos hsale
  · refine replies_served (x := (beginService home p (received (spiralRequest home p) s), .started, []))
      (requestOf_spiralCommand home p) hs (fun _ => hl) (hserve _ (hx.trans (by simp [hd, hsale, hservice])))
      ((beginService_alters home p _).mono) (.inr (by decide)) (by decide) (fun t ht => ⟨?_, ?_⟩)
      (spiralRequest_kind home p)
    · have hbegun : t.drive.service = _ := (ht.frame .serviceOp (by decide)).trans (beginService_service home p _)
      rwa [received_tables] at hbegun
    · exact ht.asked _ (asked_requested .motor _)

/-! ### Defrost Now (R108) -/

theorem received_cold (r : Request) (s : State) : (received r s).cold = s.cold := by
  obtain ⟨x, g, hu, -⟩ := received_shape r s
  rw [hu]

/-- What the compressor is left as when a defrost begins (R105). -/
theorem beginDefrost_cold (c : DefrostCause) (s : State) :
    (beginDefrost c s).cold.state = .defrost ∧ (beginDefrost c s).cold.runSince = 0 ∧
    (beginDefrost c s).cold.heaterOn = 0 ∧ (beginDefrost c s).cold.pendingDefrost = false ∧
    (s.cold.state = .running → (beginDefrost c s).cold.relay = false ∧
      (beginDefrost c s).cold.offTimer = some s.tables.refrig.minOffMs) := by
  refine ⟨by simp [beginDefrost], by simp [beginDefrost], by simp [beginDefrost], by simp [beginDefrost], fun h => ?_⟩
  have hleft : leaveForDefrost s = release .compRun (lockOff s) := by simp only [leaveForDefrost, h]
  unfold beginDefrost
  rw [hleft]
  exact ⟨by simp [lockOff], by simp [lockOff]⟩

theorem beginDefrost_asked (c : DefrostCause) (s : State) : (beginDefrost c s).supply.asked .heater :=
  asked_of_alters (raise_alters .defrostBegin none (val c.code) _) (asked_requested .heater _)

theorem leaveForDefrost_same (s : State) :
    (leaveForDefrost s).events = s.events ∧ (leaveForDefrost s).seconds = s.seconds := by
  have hframe := leaveForDefrost_alters s
  exact ⟨hframe .events (by decide), hframe .seconds (by decide)⟩

theorem beginDefrost_events (c : DefrostCause) (s : State) : (beginDefrost c s).events =
    s.events.place (eventAt s.seconds .defrostBegin none (val c.code)) := by
  obtain ⟨hevents, hseconds⟩ := leaveForDefrost_same s
  unfold beginDefrost
  simp only [raise_events, request_events, request_seconds, hevents, hseconds]
  rfl

theorem serveDefrost_begins {s : State} (h : s.cold.state = .lockedOff ∨ s.cold.state = .idle ∨
    s.cold.state = .awaitGrant ∨ s.cold.state = .running) : serveDefrost s = (beginDefrost .request s, .started, []) := by
  rcases h with h | h | h | h <;> simp [serveDefrost, defrostNow, h]

/-- Settles O37: each owner applies its checks in order, and what it asks for is still asked for at the step's end. -/
theorem serviceOperationsAreStarted : Obligations.ServiceOperationsAreStarted := by
  intro n k p s hs hl
  refine ⟨fun h => ?_, fun hn hlow hhigh => drain_replies hn hlow hhigh hs hl, fun home => spiral_replies home p hs hl,
    fun h => ?_, fun h => ?_, fun h => ?_⟩
  · exact refuses_served (r := .drain n k) rfl hs (fun _ => hl) (serveDrain_bad h _)
  · refine refuses_served (r := .defrostNow) rfl hs (fun _ => hl) ?_
    show serveDefrost _ = _
    rcases h with h | h <;> simp [serveDefrost, defrostNow, received_cold, h, refuse]
  · have hx : serveOwner .defrostNow (received .defrostNow s) =
        ({ received .defrostNow s with cold.pendingDefrost := true }, .started, []) := by
      show serveDefrost _ = _
      simp [serveDefrost, defrostNow, received_cold, h]
    refine replies_served (c := .defrostNow) (r := .defrostNow) rfl hs (fun _ => hl) hx ?_ (.inr (by decide)) (by decide)
      fun t ht => ?_
    · intro p hp; cases p <;> simp_all [Part.same]
    · obtain ⟨-, hpending, -, -, hheater⟩ := ht.frame .defrost (by decide)
      exact ⟨hpending, hheater.trans (by simp [received_cold])⟩
  · have hx : serveOwner .defrostNow (received .defrostNow s) =
        (beginDefrost .request (received .defrostNow s), .started, []) :=
      serveDefrost_begins (by rwa [received_cold])
    refine replies_served (c := .defrostNow) (r := .defrostNow) rfl hs (fun _ => hl) hx ((beginDefrost_alters _ _).mono)
      (.inr (by decide)) (by decide) fun t ht => ?_
    obtain ⟨hstate, hsince, hon, hpending, hrunning⟩ := beginDefrost_cold .request (received .defrostNow s)
    obtain ⟨hts, htoff, -, -, htrelay⟩ := ht.frame .compressor (by decide)
    obtain ⟨-, htpending, htsince, hton, -⟩ := ht.frame .defrost (by decide)
    refine ⟨hts.trans hstate, htsince.trans hsince, hton.trans hon, htpending.trans hpending,
      ht.asked _ (beginDefrost_asked _ _), fun hrun => ?_, ?_⟩
    · obtain ⟨hrelay, hoff⟩ := hrunning (by rwa [received_cold])
      rw [received_tables] at hoff
      exact ⟨htrelay.trans hrelay, htoff.trans hoff⟩
    · have hevents : t.events = _ := (ht.frame .events (by decide)).trans (beginDefrost_events _ _)
      obtain ⟨x, g, hu, -⟩ := received_shape .defrostNow s
      rw [hu] at hevents
      exact hevents

/-! ### Release Hold (R111) -/

theorem zone_modZone {z : Nat} {s : State} (h : z < s.cold.zones.length) (f : ZoneState → ZoneState) :
    (modZone z f s).zone z = f (s.zone z) := by
  simp only [State.zone, modZone_cold, getD_updAt, h, and_self, if_true]

theorem zone_modZone_other {z k : Nat} (hk : k ≠ z) (f : ZoneState → ZoneState) (s : State) :
    (modZone z f s).zone k = s.zone k := by
  simp only [State.zone, modZone_cold, getD_updAt]
  rw [if_neg]
  exact fun hc => hk hc.1

/-- A zone whose hold is latched has a record. -/
theorem zone_lt_of_latched {z : Nat} {s : State} (h : (s.zone z).latched = true) : z < s.cold.zones.length := by
  by_contra hz
  have hdefault : s.zone z = ZoneState.initial := List.getD_eq_default _ _ (Nat.not_lt.1 hz)
  rw [hdefault] at h
  exact absurd h (by decide)

/-- The record of a released zone (R111). -/
def ZoneState.released (r : ZoneState) : ZoneState := { r with latched := false, holdTimer := 0 }

theorem releaseHold_zone {z : Nat} {s : State} (h : z < s.cold.zones.length) :
    (releaseHold z s).zone z = (s.zone z).released := zone_modZone h ZoneState.released

theorem releaseHold_zone_other {z k : Nat} (hk : k ≠ z) (s : State) : (releaseHold z s).zone k = s.zone k :=
  zone_modZone_other hk ZoneState.released s

theorem releaseHold_events {z : Nat} {s : State} {f : Int} (h : (s.sensor z).temp = some f) :
    (releaseHold z s).events = s.events.place (eventAt s.seconds .holdReleased (some z) (ival f)) := by
  unfold releaseHold
  rw [h]
  rfl

theorem zone_congr {s t : State} (h : t.cold.zones = s.cold.zones) (z : Nat) : t.zone z = s.zone z := by
  simp only [State.zone, h]

theorem selHeld_of_not_latched {s : State} {i : Nat} (h : (s.zone (s.tables.sel i).zone).latched = false) :
    selHeld s i = false := by simp [selHeld, h]

theorem serveRelease_eq {z : Nat} {s : State} (hz : z ≤ 1) (hlatched : (s.zone z).latched = true)
    (hgood : (s.sensor z).faulted = false) {f : Int} (hf : (s.sensor z).temp = some f) : serveRelease z s =
      if (s.tables.zone z).holdLimit < f then (s, .badArgument, char 3) else doneWith (releaseHold z s) := by
  unfold serveRelease zoneCold
  rw [if_neg (Nat.not_lt.2 hz), if_neg (by simp [hlatched]), if_neg (by simp [hgood, hf]), hf]
  by_cases hcold : f ≤ (s.tables.zone z).holdLimit
  · rw [if_neg (by simp [hcold]), if_neg (Int.not_lt.2 hcold)]
  · rw [if_pos (by simp [hcold]), if_pos (Int.not_le.1 hcold)]

/-- Settles O40. -/
theorem releaseHoldNeedsAColdZone : Obligations.ReleaseHoldNeedsAColdZone := by
  intro z s hs
  have hzone : (received (.releaseHold z) s).zone z = s.zone z := zone_congr (by rw [received_cold]) z
  have hsensor : (received (.releaseHold z) s).sensor z = s.sensor z := (received_alters _ s).sensor_eq z
  refine ⟨fun hl => ?_, fun hl => ⟨fun hz => ?_, fun hz => ⟨fun h => ?_, fun h => ⟨fun hbad => ?_, fun hgood f hf =>
    ⟨fun hwarm => ?_, fun hcold => ?_⟩⟩⟩⟩⟩
  · exact refuses_gate (r := .releaseHold z) rfl hs rfl hl
  · exact refuses_served (r := .releaseHold z) rfl hs (fun _ => hl) (if_pos hz)
  · refine refuses_served (r := .releaseHold z) rfl hs (fun _ => hl) ?_
    show serveRelease z _ = _
    simp [serveRelease, Nat.not_lt.2 hz, hzone, h]
  · refine refuses_served (r := .releaseHold z) rfl hs (fun _ => hl) ?_
    show serveRelease z _ = _
    simp [serveRelease, Nat.not_lt.2 hz, hzone, hsensor, h, hbad]
  · refine refuses_served (r := .releaseHold z) rfl hs (fun _ => hl) ?_
    refine (serveRelease_eq hz (by rwa [hzone]) (by rwa [hsensor]) (by rwa [hsensor])).trans (if_pos ?_)
    rwa [received_tables]
  · have hx : serveOwner (.releaseHold z) (received (.releaseHold z) s) =
        doneWith (releaseHold z (received (.releaseHold z) s)) :=
      (serveRelease_eq hz (by rwa [hzone]) (by rwa [hsensor]) (by rwa [hsensor])).trans
        (if_neg (by rw [received_tables]; exact Int.not_lt.2 hcold))
    refine replies_served (c := .releaseHold z) (r := .releaseHold z) rfl hs (fun _ => hl) hx
      ((releaseHold_alters _ _).mono) (.inr (by decide)) (by decide) fun t ht => ?_
    have hzones (k : Nat) : t.zone k = (releaseHold z (received (.releaseHold z) s)).zone k :=
      zone_congr (ht.frame .zones (by decide)) k
    have hreleased : t.zone z = (s.zone z).released := by
      rw [hzones, releaseHold_zone (by rw [received_cold]; exact zone_lt_of_latched h), hzone]
    refine ⟨by rw [hreleased]; rfl, by rw [hreleased]; rfl, ?_, fun i hi => ?_, ?_⟩
    · rw [hzones, releaseHold_zone_other (by omega)]
      exact zone_congr (by rw [received_cold]) _
    · exact selHeld_of_not_latched (by rw [hi, hreleased]; rfl)
    · have hevents : t.events = _ := (ht.frame .events (by decide)).trans (releaseHold_events (f := f) (by rwa [hsensor]))
      obtain ⟨x, g, hu, -⟩ := received_shape (.releaseHold z) s
      rw [hu] at hevents
      exact hevents

end Sys2Proof.Machine
end

