-- ==== Sys2Proof/Proofs/TaggedEdits.lean ====
section
/-! Apply (R181): what each action leaves of every selection and spiral, and its counts. -/

/- One lemma after another, to keep the memory of a compile small. -/
set_option Elab.async false

namespace Sys2Proof.Machine

/-! ### Entries changed one after another -/

/-- The entries at the positions of a list changed by `f`. -/
def updAll {α : Type} (k : List Nat) (f : α → α) (xs : List α) : List α := k.foldl (fun ys i => updAt ys i f) xs

/-- A change that made twice is the change made once: an entry is changed when its position is in the list. -/
theorem getD_updAll {α : Type} {f : α → α} (hf : ∀ x, f (f x) = f x) (k : List Nat) (xs : List α) (m : Nat) (d : α) :
    (updAll k f xs).getD m d = if m ∈ k ∧ m < xs.length then f (xs.getD m d) else xs.getD m d := by
  induction k generalizing xs with
  | nil => simp [updAll]
  | cons i k ih =>
    have hstep : updAll (i :: k) f xs = updAll k f (updAt xs i f) := rfl
    rw [hstep, ih, length_updAt, getD_updAt]
    by_cases hm : m = i
    · subst hm
      by_cases hlen : m < xs.length <;> simp [hlen, hf]
    · simp [hm]

theorem updAll_append {α : Type} (k l : List Nat) (f : α → α) (xs : List α) :
    updAll (k ++ l) f xs = updAll l f (updAll k f xs) := List.foldl_append

/-! ### One action on a list of selections (R181) -/

/-- The changes of the four actions. -/
def priced (p : Nat) (r : SelLoaded) : SelLoaded := { r with price := p }
def inhibited (k : SelKept) : SelKept := { k with state := .inhibited }
def enabled (k : SelKept) : SelKept := { k with state := .enabled }
def restocked (k : SelKept) : SelKept := if k.state = .soldOut then { k with state := .enabled } else k
def refilled (r : SpiralRec) : SpiralRec := if r.state = .empty then { r with state := .ready } else r

theorem restocked_twice (k : SelKept) : restocked (restocked k) = restocked k := by
  unfold restocked
  split
  · rfl
  · rfl

theorem refilled_twice (r : SpiralRec) : refilled (refilled r) = refilled r := by
  unfold refilled
  split
  · rfl
  · rfl

/-- An action is taken on a selection, which is not skipped (R181). -/
def acted (a : Action) (s : State) (i : Nat) : Bool :=
  match a with
  | .setPrice _ | .inhibit => true
  | .enable | .restock => !skipped s i

/-- What an action leaves when it is taken on the selections of a list. -/
def applied (a : Action) (k : List Nat) (s : State) : State :=
  match a with
  | .setPrice p => { s with tables.sels := updAll k (priced p) s.tables.sels }
  | .inhibit => { s with sels := updAll k inhibited s.sels }
  | .enable => { s with sels := updAll k enabled s.sels }
  | .restock => { s with sels := updAll k restocked s.sels,
                         spirals := updAll (k.flatMap fun i => (s.tables.sel i).spirals) refilled s.spirals }

theorem foldl_refill (l : List Nat) (s : State) :
    l.foldl (fun s p => refill p s) s = { s with spirals := updAll l refilled s.spirals } := by
  induction l generalizing s with
  | nil => rfl
  | cons p l ih => exact ih (refill p s)

theorem applyTo_eq (a : Action) (s : State) (m n i : Nat) : applyTo a (s, m, n) i =
    if acted a s i then (applied a [i] s, m + 1, n) else (s, m, n + 1) := by
  cases a with
  | setPrice p => rfl
  | inhibit => rfl
  | enable =>
    unfold applyTo acted
    dsimp only
    by_cases h : skipped s i = true
    · rw [if_pos h, if_neg (by simp [h])]
    · rw [if_neg h, if_pos (by simp [h])]
      rfl
  | restock =>
    unfold applyTo acted
    dsimp only
    by_cases h : skipped s i = true
    · rw [if_pos h, if_neg (by simp [h])]
    · rw [if_neg h, if_pos (by simp [h]), foldl_refill]
      simp only [applied, List.flatMap_singleton]
      rfl

theorem acted_applied (a : Action) (k : List Nat) (s : State) : acted a (applied a k s) = acted a s := by
  cases a <;> rfl

theorem applied_cons (a : Action) (i : Nat) (k : List Nat) (s : State) :
    applied a (i :: k) s = applied a k (applied a [i] s) := by
  cases a with
  | setPrice p => rfl
  | inhibit => rfl
  | enable => rfl
  | restock =>
    unfold applied
    simp only [List.flatMap_cons, List.flatMap_nil, List.append_nil, updAll_append]
    rfl

theorem foldl_applyTo (a : Action) (l : List Nat) (s : State) (m n : Nat) : l.foldl (applyTo a) (s, m, n) =
    (applied a (l.filter (acted a s)) s, m + l.countP (acted a s), n + l.countP fun i => !acted a s i) := by
  induction l generalizing s m n with
  | nil => cases a <;> rfl
  | cons i l ih =>
    rw [List.foldl_cons, applyTo_eq]
    by_cases hacted : acted a s i = true
    · rw [if_pos hacted, ih, acted_applied, List.filter_cons_of_pos hacted, List.countP_cons_of_pos hacted,
        List.countP_cons_of_neg (by simp [hacted]), applied_cons a i (l.filter _), Nat.add_assoc, Nat.add_comm 1]
    · rw [if_neg hacted, ih, List.filter_cons_of_neg hacted, List.countP_cons_of_neg hacted,
        List.countP_cons_of_pos (by simp [hacted]), Nat.add_assoc, Nat.add_comm 1]

/-! ### Apply on a tagged set -/

section
variable {u : TagUnit} {first last : Nat} {off : List Nat} {s : State}

/-- The selections of the tagged set that an action is taken on. -/
def actedSet (a : Action) (u : TagUnit) (first last : Nat) (off : List Nat) (s : State) : List Nat :=
  (taggedSet u first last off).filter (acted a s)

theorem mem_actedSet {a : Action} {i : Nat} :
    i ∈ actedSet a u first last off s ↔ i < 64 ∧ tagged u first last off i = true ∧ acted a s i = true := by
  simp [actedSet, taggedSet, tagged, and_assoc]
  tauto

theorem countP_taggedSet (p : Nat → Bool) :
    (taggedSet u first last off).countP p = (List.range 64).countP fun i => tagged u first last off i && p i := by
  rw [taggedSet, List.countP_filter]
  exact List.countP_congr fun i _ => by simp [tagged, and_comm]

variable (htag : s.lock.tag = .rangeSet u first last off)
include htag

theorem applyAction_done (a : Action) (hv : vendTagged s (taggedSet u first last off) = false) :
    applyAction a s = (afterApply a { applied a (actedSet a u first last off s) s with lock.tag := .empty }, .done,
      char ((List.range 64).countP fun i => tagged u first last off i && acted a s i) ++
      char ((List.range 64).countP fun i => tagged u first last off i && !acted a s i)) := by
  unfold applyAction
  rw [htag]
  dsimp only
  rw [if_neg (by simp [hv]), foldl_applyTo]
  simp only [Nat.zero_add, countP_taggedSet]
  rfl

theorem applyAction_busy (a : Action) (hv : vendTagged s (taggedSet u first last off) = true) :
    applyAction a s = (s, .busy, []) := by
  unfold applyAction
  rw [htag]
  dsimp only
  rw [if_pos hv]
  rfl

end

theorem vendTagged_iff (s : State) (u : TagUnit) (first last : Nat) (off : List Nat) :
    vendTagged s (taggedSet u first last off) = true ↔
      ∃ v, s.drive.vend = some v ∧ v.sel < 64 ∧ tagged u first last off v.sel = true := by
  unfold vendTagged
  cases s.drive.vend with
  | none => simp
  | some v => simp [taggedSet, tagged]

/-- An entry of a list changed at the positions of the tagged set acted on. -/
theorem getD_acted {α : Type} {f : α → α} (hf : ∀ x, f (f x) = f x) {u : TagUnit} {first last : Nat} {off : List Nat}
    {a : Action} {s : State} {xs : List α} (hlen : xs.length = 64) {i : Nat} (hi : i < 64) (d : α) :
    (updAll (actedSet a u first last off s) f xs).getD i d =
      if tagged u first last off i = true ∧ acted a s i = true then f (xs.getD i d) else xs.getD i d := by
  rw [getD_updAll hf]
  simp only [mem_actedSet, hi, hlen, true_and, and_true]

/-- Apply's command and its action (R181). -/
def applyCommand : Action → Instr
  | .setPrice p => .applySetPrice p
  | .inhibit => .applyInhibit
  | .enable => .applyEnable
  | .restock => .applyRestock

def applyRequest : Action → Request
  | .setPrice p => .apply 0 p
  | .inhibit => .apply 1 0
  | .enable => .apply 2 0
  | .restock => .apply 3 0

section
variable {u : TagUnit} {first last : Nat} {off : List Nat} {s : State} (hs : Ready s) (hl : unlocked s)
  (htag : s.lock.tag = .rangeSet u first last off)
include hs hl htag

theorem apply_busy (a : Action) (hv : vendTagged s (taggedSet u first last off) = true) :
    Replies (applyCommand a) s 0xA1 .busy [] [] fun t => t.lock.tag = .rangeSet u first last off := by
  have hkeeps : (applyRequest a).keepsTag = true := by cases a <;> rfl
  have hx : serveOwner (applyRequest a) (received (applyRequest a) s) = (received (applyRequest a) s, .busy, []) := by
    have hserve : serveOwner (applyRequest a) = applyAction a := by cases a <;> rfl
    rw [hserve, received_keeps hkeeps]
    exact applyAction_busy (by exact htag) a (by exact hv)
  refine replies_served (r := applyRequest a) (by cases a <;> rfl) hs (fun _ => hl) hx (.refl [] _) (.inl hkeeps) (by decide)
    (fun t ht => ?_) (by cases a <;> simp [applyRequest, Request.kind])
  have hsame : (received (applyRequest a) s).lock.tag = s.lock.tag := by rw [received_lock hkeeps]
  exact (ht.frame .tag (by decide)).trans (hsame.trans htag)

/-- The state as the owner of an Apply finds it: only the Link Port differs. -/
theorem apply_done (a : Action) (hv : vendTagged s (taggedSet u first last off) = false) {parts : List Part}
    (hframe : ∀ x : State, Alters parts x (afterApply a { applied a (actedSet a u first last off x) x with lock.tag := .empty }))
    (hp : .phase ∉ parts) {good : State → Prop}
    (hgood : ∀ l t, Ends (afterApply a { applied a (actedSet a u first last off s) { s with link := l } with
      lock.tag := .empty }) t → good t) :
    Replies (applyCommand a) s 0xA1 .done
      (char ((List.range 64).countP fun i => tagged u first last off i && acted a s i) ++
        char ((List.range 64).countP fun i => tagged u first last off i && !acted a s i)) parts good := by
  have hkeeps : (applyRequest a).keepsTag = true := by cases a <;> rfl
  have hserve : serveOwner (applyRequest a) = applyAction a := by cases a <;> rfl
  obtain ⟨l, hreceived⟩ : ∃ l, received (applyRequest a) s = { s with link := l } := ⟨_, received_keeps hkeeps s⟩
  have hacted : acted a { s with link := l } = acted a s := by cases a <;> rfl
  have hset : actedSet a u first last off { s with link := l } = actedSet a u first last off s := by
    unfold actedSet
    rw [hacted]
  have hx := applyAction_done (s := { s with link := l }) htag a hv
  rw [hacted, hset] at hx
  have hserved := (congrFun hserve (received (applyRequest a) s)).trans ((congrArg (applyAction a) hreceived).trans hx)
  refine replies_served (r := applyRequest a) (by cases a <;> rfl) hs (fun _ => hl) hserved ?_ (.inl hkeeps) hp
    (hgood l) (by cases a <;> simp [applyRequest, Request.kind])
  have hchanged := hframe { s with link := l }
  rw [hset] at hchanged
  rw [hreceived]
  exact hchanged

end

/-- What an action's step leaves of the records, from the state its owner leaves. -/
theorem applied_tag (a : Action) (k : List Nat) (s : State) :
    Alters [.storeDefaults, .store] { applied a k s with lock.tag := .empty }
      (afterApply a { applied a k s with lock.tag := .empty }) := by
  cases a with
  | setPrice p => exact tablesChanged_alters _
  | inhibit => exact .refl _ _
  | enable => exact .refl _ _
  | restock => exact .refl _ _

theorem tablesChanged_storeDefaults (s : State) : (tablesChanged s).storeDefaults = false :=
  askTableWrite_alters _ .storeDefaults (by decide)

theorem applied_frame (a : Action) (k : List Nat) (s : State) :
    Alters applyParts s (afterApply a { applied a k s with lock.tag := .empty }) := by
  have hset : Alters [.tag, .tables, .sels, .spirals] s { applied a k s with lock.tag := .empty } := by
    cases a <;> (intro p hp; cases p <;> simp_all [Part.same, applied])
  exact hset.seq (applied_tag a k s)

theorem applied_frame_sels {a : Action} (ha : a = .inhibit ∨ a = .enable) (k : List Nat) (s : State) :
    Alters [.tag, .sels] s (afterApply a { applied a k s with lock.tag := .empty }) := by
  rcases ha with rfl | rfl <;> (intro p hp; cases p <;> simp_all [Part.same, applied, afterApply])

theorem applied_frame_restock (k : List Nat) (s : State) :
    Alters [.tag, .sels, .spirals] s (afterApply .restock { applied .restock k s with lock.tag := .empty }) := by
  intro p hp; cases p <;> simp_all [Part.same, applied, afterApply]

theorem sel_congr {s : State} {l : List SelKept} (h : s.sels = l) (i : Nat) : s.sel i = l.getD i SelKept.default := by
  rw [State.sel, h]

theorem mem_actedLists {u : TagUnit} {first last : Nat} {off : List Nat} {a : Action} {s : State} {p : Nat} :
    (p ∈ (actedSet a u first last off s).flatMap fun i => (s.tables.sel i).spirals) ↔
      ((List.range 64).any fun i => (tagged u first last off i && acted a s i) &&
        (s.tables.sel i).spirals.contains p) = true := by
  simp [List.mem_flatMap, mem_actedSet, and_assoc]

/-- A refilled spiral, at every position: past the end of the records none is EMPTY. -/
theorem getD_refilled (k : List Nat) (xs : List SpiralRec) (p : Nat) :
    (updAll k refilled xs).getD p SpiralRec.initial =
      if (xs.getD p SpiralRec.initial).state = .empty ∧ p ∈ k then
        { xs.getD p SpiralRec.initial with state := .ready } else xs.getD p SpiralRec.initial := by
  rw [getD_updAll refilled_twice]
  by_cases hlen : p < xs.length
  · unfold refilled
    split_ifs <;> simp_all
  · have hdefault : xs.getD p SpiralRec.initial = SpiralRec.initial := List.getD_eq_default _ _ (Nat.not_lt.1 hlen)
    rw [if_neg fun h => hlen h.2, hdefault, if_neg fun h => absurd h.1 (by decide)]

/-- Settles O34: the fold over the tagged set changes the entries at its positions, each as if it were alone. -/
theorem applyActsOnTheTaggedSet : Obligations.ApplyActsOnTheTaggedSet := by
  intro price u first last off s hs hl htag hsels htables
  refine ⟨fun hfree => ?_, fun v hv hlt hset c hc => ?_⟩
  · have hv : vendTagged s (taggedSet u first last off) = false := by
      refine Bool.eq_false_iff.2 fun hv => ?_
      obtain ⟨v, hvend, hlt, hset⟩ := (vendTagged_iff s u first last off).1 hv
      rcases hfree v hvend with h | h
      · omega
      · rw [h] at hset; exact absurd hset (by decide)
    have hnone (a : Action) (ha : acted a s = fun _ => true) :
        (char ((List.range 64).countP fun i => tagged u first last off i && acted a s i) ++
          char ((List.range 64).countP fun i => tagged u first last off i && !acted a s i)) =
        char ((List.range 64).countP (tagged u first last off)) ++ char 0 := by simp [ha]
    have hskips (a : Action) (ha : acted a s = fun i => !skipped s i) :
        ((List.range 64).countP fun i => tagged u first last off i && !acted a s i) =
          (List.range 64).countP fun i => tagged u first last off i && skipped s i := by simp [ha]
    refine ⟨?_, ?_, ?_, ?_⟩
    · rw [← hnone (.setPrice price) rfl]
      refine apply_done hs hl htag (.setPrice price) hv (fun x => applied_frame _ _ x) (by decide) fun l t ht => ⟨?_, ?_, ?_⟩
      · exact (ht.frame .tag (by decide)).trans (applied_tag _ _ _ .tag (by decide))
      · exact (ht.frame .storeDefaults (by decide)).trans (tablesChanged_storeDefaults _)
      · intro i hi
        have ht' : t.tables = _ := (ht.frame .tables (by decide)).trans (applied_tag _ _ _ .tables (by decide))
        unfold Tables.sel
        rw [ht']
        refine (getD_acted (f := priced price) (fun _ => rfl) htables hi _).trans ?_
        simp only [acted, and_true]
        rfl
    · rw [← hnone .inhibit rfl]
      refine apply_done hs hl htag .inhibit hv (fun x => applied_frame_sels (.inl rfl) _ x) (by decide) fun l t ht =>
        ⟨ht.frame .tag (by decide), fun i hi => ?_⟩
      rw [sel_congr (ht.frame .sels (by decide))]
      refine (getD_acted (f := inhibited) (fun _ => rfl) hsels hi SelKept.default).trans ?_
      simp only [acted, and_true]
      rfl
    · show Replies _ s 0xA1 .done (char _ ++ char ((List.range 64).countP fun i => tagged u first last off i && skipped s i))
        _ _
      rw [← hskips .enable rfl]
      refine apply_done hs hl htag .enable hv (fun x => applied_frame_sels (.inr rfl) _ x) (by decide) fun l t ht =>
        ⟨ht.frame .tag (by decide), fun i hi => ?_⟩
      rw [sel_congr (ht.frame .sels (by decide))]
      refine (getD_acted (f := enabled) (fun _ => rfl) hsels hi SelKept.default).trans ?_
      simp only [acted, Bool.and_eq_true]
      rfl
    · show Replies _ s 0xA1 .done (char _ ++ char ((List.range 64).countP fun i => tagged u first last off i && skipped s i))
        _ _
      rw [← hskips .restock rfl]
      refine apply_done hs hl htag .restock hv (fun x => applied_frame_restock _ x) (by decide) fun l t ht =>
        ⟨ht.frame .tag (by decide), fun i hi => ?_, fun p => ?_⟩
      · rw [sel_congr (ht.frame .sels (by decide))]
        refine (getD_acted (f := restocked) restocked_twice hsels hi SelKept.default).trans ?_
        simp only [acted, Bool.and_eq_true]
        exact (ite_and ..).symm
      · have hspirals : t.spirals = _ := ht.frame .spirals (by decide)
        unfold State.spiral
        rw [hspirals]
        refine (getD_refilled _ s.spirals p).trans ?_
        exact if_congr (and_congr Iff.rfl (mem_actedLists (a := .restock) (s := s))) rfl rfl
  · have hbusy := fun a => apply_busy hs hl htag a ((vendTagged_iff s u first last off).2 ⟨v, hv, hlt, hset⟩)
    simp only [List.mem_cons, List.not_mem_nil, or_false] at hc
    rcases hc with rfl | rfl | rfl | rfl
    · exact hbusy (.setPrice price)
    · exact hbusy .inhibit
    · exact hbusy .enable
    · exact hbusy .restock

end Sys2Proof.Machine
end

