-- ==== Sys2Proof/Proofs/Compressor.lean ====
section
/-! The compressor, the heater and the duty cycle at their grants and timers (R99 to R107), and the end of the surge
window (R119). -/

/- One lemma after another, to keep the memory of a compile small. -/
set_option Elab.async false

namespace Sys2Proof.Machine

/-! ### The end of a step of normal operation -/

theorem finish_ends {u : State} (hrun : u.phase = .run) : Ends u (finish u) where
  frame := (finish_alters u hrun).mono
  sale := finish_sale hrun
  payout := finish_payout_of_payout hrun
  unpaid := finish_payout_of_nothing_owed hrun
  asked _ := asked_finish hrun

/-- A command of normal operation completes as its effect before the end of the step says. -/
theorem completes_ends {c : Instr} {s u : State} {ps : List Part} {good : State → Prop}
    (hexec : exec c s = .next (finish u)) (hrun : s.phase = .run) (hu : Alters ps s u) (hp : .phase ∉ ps)
    (hgood : Ends u (finish u) → good (finish u)) : Completes c s ps good := by
  have hphase := (hu .phase hp).trans hrun
  exact ⟨_, hexec, hu.seq (finish_alters u hphase) (by simp +contextual) (by simp +contextual), hgood (finish_ends hphase)⟩

theorem whenActive_of_run {f : State → State} {s : State} (hrun : s.phase = .run) : whenActive f s = f s :=
  whenActive_of_active f (active_of_run hrun)

/-- A load, other than PAYOUT, that was neither granted nor waiting is not asked for at the end of a step. -/
theorem not_asked_payoutTest {x : Load} (hx : x ≠ .payout) {s : State} (h : ¬s.supply.asked x) :
    ¬(payoutTest s).supply.asked x := by
  unfold payoutTest startPayout request
  split
  · split
    · exact h
    · refine not_asked_grantRule fun hasked => h (hasked.imp_right fun hwait => ?_)
      have hput : (s.supply.waiting.put .payout true).has x = true := hwait
      rwa [has_put, if_neg hx] at hput
  · exact h

theorem not_asked_finish {x : Load} (hx : x ≠ .payout) {s : State} (hrun : s.phase = .run) (h : ¬s.supply.asked x) :
    ¬(finish s).supply.asked x := by
  obtain ⟨hgranted, hwaiting⟩ := finish_rest_alters hrun .grants (by decide)
  have htest := not_asked_payoutTest hx (s := setSale s) h
  unfold Supply.asked at htest ⊢
  rwa [hgranted, hwaiting]

/-- COMP_RUN is granted by the exchange alone (R119): no end of a step gives or takes it. -/
theorem compRun_payoutTest (s : State) : (payoutTest s).supply.granted.compRun = s.supply.granted.compRun := by
  unfold payoutTest startPayout request
  split
  · split
    · rfl
    · exact (grantRule_run _).1
  · rfl

theorem compRun_finish {s : State} (hrun : s.phase = .run) :
    (finish s).supply.granted.compRun = s.supply.granted.compRun := by
  obtain ⟨hgranted, -⟩ := finish_rest_alters hrun .grants (by decide)
  rw [hgranted]
  exact compRun_payoutTest (setSale s)

/-! ### Wanted or not (R100) -/

theorem wanted_iff (s : State) : wanted s = true ↔ ∃ x ∈ s.cold.zones, x.demand = true := by
  simp [wanted]

theorem not_wanted_iff (s : State) : wanted s = false ↔ ¬∃ x ∈ s.cold.zones, x.demand = true := by
  rw [← wanted_iff, Bool.not_eq_true]

theorem wanted_eq {s : State} (h : s.cold.zones.length = 2) :
    wanted s = ((s.zone 0).demand || (s.zone 1).demand) := by
  obtain ⟨a, b, hzones⟩ := List.length_eq_two.1 h
  simp [wanted, State.zone, hzones]

theorem askCompressor_of_wanted {s : State} (hidle : s.cold.state = .idle) (hw : wanted s = true) :
    askCompressor s = request .compStart { s with cold.state := .awaitGrant } := if_pos ⟨hidle, hw⟩

theorem askCompressor_of_not_wanted {s : State} (hw : wanted s = false) : askCompressor s = s :=
  if_neg fun h => absurd h.2 (by simp [hw])

theorem askCompressor_asks {s : State} (hidle : s.cold.state = .idle) (hw : wanted s = true) :
    (askCompressor s).cold.state = .awaitGrant ∧ (askCompressor s).supply.asked .compStart := by
  rw [askCompressor_of_wanted hidle hw]
  exact ⟨by simp, asked_requested .compStart _⟩

/-- A stopped compressor (R104). -/
def Stopped (s t : State) : Prop :=
  t.cold.state = .lockedOff ∧ t.cold.relay = false ∧ t.cold.runTimer = .off ∧
    t.cold.offTimer = some s.tables.refrig.minOffMs ∧ t.supply.granted.compRun = false

theorem stopIfDone_stops {s : State} (hstate : s.cold.state = .running) (hpassed : s.cold.runTimer = .passed)
    (hw : wanted s = false) : Stopped s (stopIfDone s) := by
  have hstop : stopIfDone s = release .compRun (lockOff s) := if_pos ⟨hstate, hpassed, by simp [hw]⟩
  rw [hstop, release_eq]
  exact ⟨rfl, rfl, rfl, rfl, (grantRule_run _).1⟩

theorem stopIfDone_goes_on {s : State} (h : s.cold.state ≠ .running ∨ s.cold.runTimer ≠ .passed ∨ wanted s = true) :
    stopIfDone s = s := by
  refine if_neg ?_
  rcases h with h | h | h <;> simp [h]

/-- What the end of a step shows of the compressor. -/
theorem Ends.stopped {s u : State} (h : Ends u (finish u)) (hrun : u.phase = .run) (hstop : Stopped s u) :
    Stopped s (finish u) := by
  obtain ⟨hstate, hrelay, hrunTimer, hoff, hgrant⟩ := hstop
  obtain ⟨hstate', hoff', hrun', -, hrelay'⟩ := h.frame .compressor (by decide)
  exact ⟨hstate'.trans hstate, hrelay'.trans hrelay, hrun'.trans hrunTimer, hoff'.trans hoff, (compRun_finish hrun).trans hgrant⟩

/-! ### The surge window (R103, R119) -/

/-- The state at the exchange of COMP_START for COMP_RUN (R119). -/
def exchanged (s : State) : State :=
  { s with cold.surgeTimer := none, cold.state := .running,
           supply.granted := { s.supply.granted with compStart := false, compRun := true } }

theorem surgeEnds_fits {s : State} (hstate : s.cold.state = .starting) (hsurge : s.cold.surgeTimer.isSome = true)
    (hfits : exchangeFits s = true) : surgeEnds s = stopIfDone (grantRule (exchanged s)) := by
  unfold surgeEnds
  rw [if_pos ⟨hstate, hsurge⟩, if_pos hfits]
  rfl

theorem surgeEnds_stops {s : State} (hstate : s.cold.state = .starting) (hsurge : s.cold.surgeTimer.isSome = true)
    (hfits : exchangeFits s = false) : surgeEnds s = release .compStart (lockOff s) := by
  unfold surgeEnds
  rw [if_pos ⟨hstate, hsurge⟩, if_neg (by simp [hfits])]

/-- A rating of COMP_RUN at or below that of COMP_START always fits in its place (R119). -/
theorem exchange_fits {s : State} (hlaw : BudgetLaw s) (hactive : s.active = true) (hstate : s.cold.state = .starting)
    (hle : s.tables.loads.compRun ≤ s.tables.loads.compStart) :
    s.grantedSum - s.tables.loads.compStart + s.tables.loads.compRun ≤ s.effectiveBudget := by
  have hheld := hlaw.starting hactive hstate
  have hincluded : s.tables.loads.compStart ≤ s.grantedSum := by
    rw [grantedSum_eq, hheld]
    simp only [if_true]
    omega
  rcases hlaw.budget with h | ⟨-, -, -, -, hnone⟩
  · omega
  · rw [hheld] at hnone
    exact absurd hnone (by decide)

/-- Settles O46. -/
theorem surgeWindowEndExchangesTheGrant : Obligations.SurgeWindowEndExchangesTheGrant := by
  intro s hrun hstate hsurge
  have hexec : exec .surgeWindowEnd s = .next (finish (surgeEnds s)) := next_finish (whenActive_of_run hrun)
  refine ⟨fun hfits hgoes => ?_, fun hfits hpassed hw => ?_, fun hfits => ?_,
    fun hlaw hle => exchange_fits hlaw (active_of_run hrun) hstate hle, rfl, rfl⟩
  · have heq := surgeEnds_fits hstate hsurge (decide_eq_true hfits)
    rw [hexec, heq, stopIfDone_goes_on]
    · rfl
    · exact .inr (hgoes.imp_right (wanted_iff s).2)
  · have heq := surgeEnds_fits hstate hsurge (decide_eq_true hfits)
    have hw' : wanted (grantRule (exchanged s)) = false := (not_wanted_iff s).2 fun ⟨x, hx, hdemand⟩ => by
      rw [hw x hx] at hdemand
      exact absurd hdemand (by decide)
    have hstop := stopIfDone_stops (s := grantRule (exchanged s)) rfl hpassed hw'
    refine completes_ends hexec hrun (surgeEnds_alters s) (by decide) fun h => ?_
    rw [heq] at h ⊢
    obtain ⟨hoff, hrelay, -, -, hgrant⟩ := h.stopped
      ((stopIfDone_alters (grantRule (exchanged s)) .phase (by decide)).trans hrun) hstop
    exact ⟨hoff, hrelay, hgrant⟩
  · rw [hexec, surgeEnds_stops hstate hsurge (decide_eq_false hfits)]
    rfl

/-! ### The damper, the demand and the duty cycle (R99, R100) -/

/-- A zone's demand as it is set, with the damper (R100). -/
def demandSet (z : Nat) (b : Bool) (s : State) : State :=
  let s := modZone z (fun r => { r with demand := b }) s
  if z = 1 then { s with cold.damper := b } else s

theorem setDemand_of_change {z : Nat} {b : Bool} {s : State} (h : (s.zone z).demand ≠ b) :
    setDemand z b s = demandChanged (demandSet z b s) := by
  unfold setDemand demandSet
  rw [if_neg h]

theorem setDemand_of_same {z : Nat} {b : Bool} {s : State} (h : (s.zone z).demand = b) : setDemand z b s = s := if_pos h

theorem demandSet_alters (z : Nat) (b : Bool) (s : State) : Alters [.zones, .damper] s (demandSet z b s) := by
  unfold demandSet
  dsimp only
  split <;> (intro p hp; cases p <;> simp_all [Part.same])

theorem demandSet_zones (z : Nat) (b : Bool) (s : State) : (demandSet z b s).cold.zones =
    (modZone z (fun r => { r with demand := b }) s).cold.zones := by
  unfold demandSet
  dsimp only
  split <;> rfl

theorem demandSet_damper (z : Nat) (b : Bool) (s : State) :
    (demandSet z b s).cold.damper = if z = 1 then b else s.cold.damper := by
  unfold demandSet
  dsimp only
  split
  · rfl
  · simp

section
variable {z : Nat} {s : State}

theorem demandSet_zone (hz : z < s.cold.zones.length) (b : Bool) :
    (demandSet z b s).zone z = { s.zone z with demand := b } :=
  (zone_congr (demandSet_zones z b s) z).trans (zone_modZone hz _)

theorem demandSet_zone_other {k : Nat} (hk : k ≠ z) (b : Bool) : (demandSet z b s).zone k = s.zone k :=
  (zone_congr (demandSet_zones z b s) k).trans (zone_modZone_other hk _ s)

theorem setDemand_zone (hz : z < s.cold.zones.length) (b : Bool) :
    (setDemand z b s).zone z = { s.zone z with demand := b } := by
  by_cases h : (s.zone z).demand = b
  · rw [setDemand_of_same h, ← h]
  · rw [setDemand_of_change h, zone_congr (demandChanged_alters _ .zones (by decide)), demandSet_zone hz]

theorem setDemand_zone_other {k : Nat} (hk : k ≠ z) (b : Bool) : (setDemand z b s).zone k = s.zone k := by
  by_cases h : (s.zone z).demand = b
  · rw [setDemand_of_same h]
  · rw [setDemand_of_change h, zone_congr (demandChanged_alters _ .zones (by decide)), demandSet_zone_other hk]

theorem setDemand_damper (b : Bool) : (setDemand z b s).cold.damper =
    if (s.zone z).demand ≠ b ∧ z = 1 then b else s.cold.damper := by
  by_cases h : (s.zone z).demand = b
  · rw [setDemand_of_same h, if_neg fun hc => hc.1 h]
  · rw [setDemand_of_change h, demandChanged_alters _ .damper (by decide), demandSet_damper]
    simp [h]

end

theorem demandChanged_idle {s : State} (h : s.cold.state = .idle) : demandChanged s = askCompressor s := by
  simp only [demandChanged, h]

theorem demandChanged_running {s : State} (h : s.cold.state = .running) : demandChanged s = stopIfDone s := by
  simp only [demandChanged, h]

theorem demandChanged_unwanted {s : State} (h : s.cold.state = .awaitGrant) (hw : wanted s = false) :
    demandChanged s = release .compStart { s with cold.state := .idle } := by
  simp [demandChanged, h, hw]

/-- A duty phase as it turns over, before the demand follows it (R99). -/
def dutyTurned (z : Nat) (on : Bool) (s : State) : State := modZone z (fun r => { r with duty := some (!on) }) s

theorem dutyPhase_of_none {z : Nat} {s : State} (h : (s.zone z).duty = none) : dutyPhase z s = s := by
  simp only [dutyPhase, h]

theorem dutyPhase_of_some {z : Nat} {on : Bool} {s : State} (h : (s.zone z).duty = some on) :
    dutyPhase z s = setDemand z (!on) (dutyTurned z on s) := by
  simp only [dutyPhase, h]
  rfl

theorem dutyTurned_alters (z : Nat) (on : Bool) (s : State) : Alters [.zones] s (dutyTurned z on s) :=
  modZone_alters _ _ _

section
variable {z : Fin 2} {s : State} (hlen : s.cold.zones.length = 2)
include hlen

theorem zone_lt : z.val < s.cold.zones.length := by omega

theorem dutyTurned_zone (on : Bool) : (dutyTurned z on s).zone z = { s.zone z with duty := some (!on) } :=
  zone_modZone (zone_lt hlen) _

theorem dutyTurned_length (on : Bool) : (dutyTurned z on s).cold.zones.length = 2 := by
  simp [dutyTurned, hlen]

/-- What the change of phase leaves of the zones and the damper (R99, R100). -/
theorem dutyPhase_zones {on : Bool} (h : (s.zone z).duty = some on) :
    (dutyPhase z s).zone z = { s.zone z with duty := some (!on), demand := !on } ∧
    (dutyPhase z s).zone (1 - z.val) = s.zone (1 - z.val) ∧
    (dutyPhase z s).cold.damper = if (s.zone z).demand ≠ (!on) ∧ z.val = 1 then !on else s.cold.damper := by
  have hother : 1 - z.val ≠ z.val := by omega
  have hcold : (dutyTurned z on s).cold.damper = s.cold.damper := dutyTurned_alters _ _ _ .damper (by decide)
  rw [dutyPhase_of_some h, setDemand_damper, dutyTurned_zone hlen, hcold]
  refine ⟨?_, ?_, rfl⟩
  · rw [setDemand_zone (by rw [dutyTurned_length hlen]; exact z.isLt), dutyTurned_zone hlen]
  · rw [setDemand_zone_other hother]
    exact zone_modZone_other hother _ s

/-- The state whose demand has just turned over, and how the compressor finds it. -/
theorem dutyPhase_turned {on : Bool} (h : (s.zone z).duty = some on) (hchange : (s.zone z).demand = on) :
    dutyPhase z s = demandChanged (demandSet z (!on) (dutyTurned z on s)) := by
  rw [dutyPhase_of_some h, setDemand_of_change]
  rw [dutyTurned_zone hlen, hchange]
  cases on <;> decide

theorem wanted_turned (on : Bool) : wanted (demandSet z (!on) (dutyTurned z on s)) =
    (!on || (s.zone (1 - z.val)).demand) := by
  have hzone : (demandSet z (!on) (dutyTurned z on s)).zone z = { s.zone z with duty := some (!on), demand := !on } := by
    rw [demandSet_zone (by rw [dutyTurned_length hlen]; exact z.isLt), dutyTurned_zone hlen]
  have hother : (demandSet z (!on) (dutyTurned z on s)).zone (1 - z.val) = s.zone (1 - z.val) := by
    rw [demandSet_zone_other (by omega)]
    exact zone_modZone_other (by omega) _ s
  rw [wanted_eq (by rw [demandSet_zones]; simp [dutyTurned_length hlen])]
  match z with
  | 0 => exact congrArg₂ (fun x y : ZoneState => x.demand || y.demand) hzone hother
  | 1 => exact (Bool.or_comm _ _).trans (congrArg₂ (fun x y : ZoneState => x.demand || y.demand) hzone hother)

theorem dutyCyclePhase_completes (hrun : s.phase = .run) {on : Bool} (h : (s.zone z).duty = some on) :
    Completes (.dutyCyclePhase z) s [.zones, .damper, .compressor, .grants] fun t =>
      t.zone z = { s.zone z with duty := some (!on), demand := !on } ∧
      t.zone (1 - z.val) = s.zone (1 - z.val) ∧
      (z = 0 → t.cold.damper = s.cold.damper) ∧
      (z = 1 → (s.zone 1).demand = on → t.cold.damper = !on) ∧
      ((s.zone z).demand = false → on = false → s.cold.state = .idle →
        t.cold.state = .awaitGrant ∧ t.supply.asked .compStart) ∧
      ((s.zone z).demand = true → on = true → (s.zone (1 - z.val)).demand = false →
        (s.cold.state = .awaitGrant → t.cold.state = .idle) ∧
        (s.cold.state = .running → s.cold.runTimer = .passed → t.cold.state = .lockedOff ∧
          t.cold.relay = false)) := by
  refine completes_ends (next_finish (whenActive_of_run hrun)) hrun (dutyPhase_alters z s) (by decide) fun hends => ?_
  have hphase : (dutyPhase z s).phase = .run := (dutyPhase_alters z s .phase (by decide)).trans hrun
  obtain ⟨hzone, hother, hdamper⟩ := dutyPhase_zones hlen h
  have hzones (k : Nat) : (finish (dutyPhase z s)).zone k = (dutyPhase z s).zone k :=
    zone_congr (hends.frame .zones (by decide)) k
  have hdamper' := (hends.frame .damper (by decide)).trans hdamper
  have hstate : (finish (dutyPhase z s)).cold.state = (dutyPhase z s).cold.state := by
    obtain ⟨hstate, -⟩ := hends.frame .compressor (by decide)
    exact hstate
  have hcold : Alters [.zones, .damper] s (demandSet z (!on) (dutyTurned z on s)) :=
    ((dutyTurned_alters z on s).seq (rs := [.zones, .damper]) (demandSet_alters z (!on) _))
  obtain ⟨hstate', -, htimer', -⟩ := hcold .compressor (by decide)
  refine ⟨(hzones z).trans hzone, (hzones _).trans hother, fun hz => ?_, fun hz hdemand => ?_, fun hdemand hoff hidle => ?_,
    fun hdemand hon hcalm => ⟨fun hawait => ?_, fun hrunning hpassed => ?_⟩⟩
  · rw [hdamper', if_neg]
    rintro ⟨-, h1⟩
    rw [hz] at h1
    exact absurd h1 (by decide)
  · subst hz
    rw [hdamper', if_pos]
    refine ⟨?_, rfl⟩
    rw [show (s.zone (1 : Fin 2)).demand = on from hdemand]
    cases on <;> decide
  · rw [dutyPhase_turned hlen h (hdemand.trans hoff.symm), demandChanged_idle (hstate'.trans hidle)] at hends hstate
    obtain ⟨hawait, hasked⟩ := askCompressor_asks (hstate'.trans hidle) ((wanted_turned hlen on).trans (by simp [hoff]))
    rw [dutyPhase_turned hlen h (hdemand.trans hoff.symm), demandChanged_idle (hstate'.trans hidle)]
    exact ⟨hstate.trans hawait, hends.asked _ hasked⟩
  · have hw := (wanted_turned hlen on).trans (by rw [hcalm, hon])
    rw [hstate, dutyPhase_turned hlen h (hdemand.trans hon.symm), demandChanged_unwanted (hstate'.trans hawait) hw]
    simp
  · have hw := (wanted_turned hlen on).trans (by rw [hcalm, hon])
    have hphase' := hphase
    rw [dutyPhase_turned hlen h (hdemand.trans hon.symm), demandChanged_running (hstate'.trans hrunning)] at hends hphase' ⊢
    obtain ⟨hoff, hrelay, -⟩ := hends.stopped hphase' (stopIfDone_stops (hstate'.trans hrunning) (htimer'.trans hpassed) hw)
    exact ⟨hoff, hrelay⟩

end

/-! ### The timers (R103, R104, R107) -/

theorem minRunPasses_eq {s : State} (h : ∃ n, s.cold.runTimer = .running n) :
    minRunPasses s = stopIfDone { s with cold.runTimer := .passed } := by
  obtain ⟨n, hn⟩ := h
  simp only [minRunPasses, hn]

/-- From IDLE, or having come to it, the compressor asks for its start when it is wanted (R102). -/
theorem askCompressor_state {s : State} (hidle : s.cold.state = .idle) :
    (wanted s = false → (askCompressor s).cold.state = .idle) ∧
    (wanted s = true → (askCompressor s).cold.state = .awaitGrant ∧ (askCompressor s).supply.asked .compStart) := by
  refine ⟨fun hw => ?_, askCompressor_asks hidle⟩
  rw [askCompressor_of_not_wanted hw]
  exact hidle

theorem offTimerExpires_eq {s : State} (h : s.cold.offTimer.isSome = true) : offTimerExpires s =
    if s.cold.state = .lockedOff then askCompressor { s with cold.offTimer := none, cold.state := .idle }
    else { s with cold.offTimer := none } := by
  obtain ⟨n, hn⟩ := Option.isSome_iff_exists.1 h
  simp only [offTimerExpires, hn]

theorem dripEnds_eq {s : State} (h : s.cold.state = .drip) (htimer : s.cold.dripTimer.isSome = true) : dripEnds s =
    if s.cold.offTimer.isSome then { s with cold.dripTimer := none, cold.state := .lockedOff }
    else askCompressor { s with cold.dripTimer := none, cold.state := .idle } := by
  unfold dripEnds
  rw [if_pos ⟨h, htimer⟩]

theorem askCompressor_offTimer (s : State) : (askCompressor s).cold.offTimer = s.cold.offTimer := by
  unfold askCompressor
  split
  · simp
  · rfl

theorem askCompressor_dripTimer (s : State) : (askCompressor s).cold.dripTimer = s.cold.dripTimer := by
  obtain ⟨h, -⟩ := askCompressor_alters s .defrost (by decide)
  exact h

section
variable {s : State} (hrun : s.phase = .run)
include hrun

theorem minimumRunTime_completes (htimer : ∃ n, s.cold.runTimer = .running n) :
    (s.cold.state ≠ .running ∨ wanted s = true →
      exec .minimumRunTime s = .next (finish { s with cold.runTimer := .passed })) ∧
    (s.cold.state = .running → wanted s = false → Completes .minimumRunTime s [.compressor, .grants] fun t =>
      t.cold.state = .lockedOff ∧ t.cold.relay = false ∧ t.cold.runTimer = .off ∧
      t.cold.offTimer = some s.tables.refrig.minOffMs ∧ t.supply.granted.compRun = false) := by
  have hexec : exec .minimumRunTime s = .next (finish (minRunPasses s)) := next_finish (whenActive_of_run hrun)
  refine ⟨fun h => ?_, fun hstate hw => ?_⟩
  · rw [hexec, minRunPasses_eq htimer, stopIfDone_goes_on]
    exact h.imp_right .inr
  · refine completes_ends hexec hrun (minRunPasses_alters s) (by decide) fun hends => ?_
    have hphase := (minRunPasses_alters s .phase (by decide)).trans hrun
    rw [minRunPasses_eq htimer] at hends hphase ⊢
    exact hends.stopped hphase (stopIfDone_stops (s := { s with cold.runTimer := .passed }) hstate rfl hw)

theorem offTimerExpiry_completes (htimer : s.cold.offTimer.isSome = true) :
    (s.cold.state ≠ .lockedOff → exec .offTimerExpiry s = .next (finish { s with cold.offTimer := none })) ∧
    (s.cold.state = .lockedOff → Completes .offTimerExpiry s [.compressor, .grants] fun t =>
      t.cold.offTimer = none ∧ (wanted s = false → t.cold.state = .idle) ∧
      (wanted s = true → t.cold.state = .awaitGrant ∧ t.supply.asked .compStart)) := by
  have hexec : exec .offTimerExpiry s = .next (finish (offTimerExpires s)) := next_finish (whenActive_of_run hrun)
  refine ⟨fun h => ?_, fun hstate => ?_⟩
  · rw [hexec, offTimerExpires_eq htimer, if_neg h]
  · refine completes_ends hexec hrun (offTimerExpires_alters s) (by decide) fun hends => ?_
    obtain ⟨hstate', hoff', -⟩ := hends.frame .compressor (by decide)
    rw [offTimerExpires_eq htimer, if_pos hstate] at hends hstate' hoff' ⊢
    obtain ⟨hidle, hasks⟩ := askCompressor_state (s := { s with cold.offTimer := none, cold.state := .idle }) rfl
    refine ⟨hoff'.trans (askCompressor_offTimer _), fun hw => hstate'.trans (hidle hw), fun hw => ?_⟩
    obtain ⟨hawait, hasked⟩ := hasks hw
    exact ⟨hstate'.trans hawait, hends.asked _ hasked⟩

theorem dripTimeEnd_completes (hstate : s.cold.state = .drip) (htimer : s.cold.dripTimer.isSome = true) :
    Completes .dripTimeEnd s [.compressor, .defrost, .grants] fun t => t.cold.dripTimer = none ∧
      (s.cold.offTimer.isSome = true → t.cold.state = .lockedOff) ∧
      (s.cold.offTimer = none → wanted s = false → t.cold.state = .idle) ∧
      (s.cold.offTimer = none → wanted s = true → t.cold.state = .awaitGrant ∧ t.supply.asked .compStart) := by
  have hexec : exec .dripTimeEnd s = .next (finish (dripEnds s)) := next_finish (whenActive_of_run hrun)
  refine completes_ends hexec hrun (dripEnds_alters s) (by decide) fun hends => ?_
  obtain ⟨hstate', -⟩ := hends.frame .compressor (by decide)
  obtain ⟨hdrip', -⟩ := hends.frame .defrost (by decide)
  rw [dripEnds_eq hstate htimer] at hends hstate' hdrip' ⊢
  by_cases hoff : s.cold.offTimer.isSome = true
  · rw [if_pos hoff] at hstate' hdrip' ⊢
    exact ⟨hdrip', fun _ => hstate', fun hnone => absurd hoff (by simp [hnone]), fun hnone => absurd hoff (by simp [hnone])⟩
  · rw [if_neg hoff] at hends hstate' hdrip' ⊢
    obtain ⟨hidle, hasks⟩ := askCompressor_state (s := { s with cold.dripTimer := none, cold.state := .idle }) rfl
    refine ⟨hdrip'.trans (askCompressor_dripTimer _), fun h => absurd h hoff, fun _ hw => hstate'.trans (hidle hw),
      fun _ hw => ?_⟩
    obtain ⟨hawait, hasked⟩ := hasks hw
    exact ⟨hstate'.trans hawait, hends.asked _ hasked⟩

end

/-- Settles O45. -/
theorem compressorFollowsItsGrantsAndTimers : Obligations.CompressorFollowsItsGrantsAndTimers := by
  intro s hrun
  have hactive {f : State → State} : (.next (finish (whenActive f s)) : Result) = .next (finish (f s)) :=
    next_finish (whenActive_of_run hrun)
  dsimp only
  simp only [← wanted_iff, Bool.not_eq_true]
  refine ⟨fun hstate hgrant => ?_, fun h => ?_, minimumRunTime_completes hrun, offTimerExpiry_completes hrun,
    fun hstate hgrant => ?_, fun h => ?_, dripTimeEnd_completes hrun, fun z hlen => ⟨fun h => ?_, fun on h => ?_⟩⟩
  · exact hactive.trans (next_finish (if_pos ⟨hstate, hgrant⟩))
  · refine hactive.trans (next_finish (if_neg ?_))
    rcases h with h | h <;> simp [h]
  · exact hactive.trans (next_finish (if_pos ⟨hstate, hgrant⟩))
  · refine hactive.trans (next_finish (if_neg ?_))
    rcases h with h | h <;> simp [h]
  · exact hactive.trans (next_finish (dutyPhase_of_none h))
  · exact dutyCyclePhase_completes hlen hrun h

end Sys2Proof.Machine
end

