-- ==== Sys2Proof/Proofs/EventOrder.lean ====
section
/-! The Event Queue in a step's order: a record once placed keeps its place, and one that finds room is there at the step's
end (R170). -/

/- One lemma after another, to keep the memory of a compile small. -/
set_option Elab.async false

namespace Sys2Proof.Machine

/-- The queue after goes on from the queue before, at one time stamp. -/
def Extends (s t : State) : Prop := s.events.queue <+: t.events.queue ∧ t.seconds = s.seconds

theorem Events.place_of_room {q : Events} (h : q.queue.length < 32) (e : Event) :
    q.place e = { q with queue := q.queue ++ [e] } := if_neg (Nat.not_le.2 h)

theorem Events.starts_place (q : Events) (e : Event) : q.queue <+: (q.place e).queue := by
  unfold Events.place
  split
  · exact ⟨[], List.append_nil _⟩
  · exact ⟨[e], rfl⟩

theorem Events.length_place_le (q : Events) (e : Event) : (q.place e).queue.length ≤ q.queue.length + 1 := by
  unfold Events.place
  split
  · exact Nat.le_succ _
  · simp

theorem Extends.rfl {s : State} : Extends s s := ⟨⟨[], List.append_nil _⟩, Eq.refl _⟩

theorem Extends.trans {s t u : State} (h1 : Extends s t) (h2 : Extends t u) : Extends s u :=
  ⟨h1.1.trans h2.1, h2.2.trans h1.2⟩

theorem extends_of_same {s t : State} (hevents : t.events = s.events) (hseconds : t.seconds = s.seconds) : Extends s t :=
  ⟨by rw [hevents], hseconds⟩

theorem extends_growth : Growth Extends where
  refl _ := .rfl
  trans := .trans
  frame h ha := extends_of_same (h .events fun hp => ha _ (by decide) hp) (h .seconds fun hp => ha _ (by decide) hp)
  raise _ _ _ s := ⟨Events.starts_place s.events _, rfl⟩
  passReply _ _ _ _ s := ⟨Events.starts_place s.events _, rfl⟩
  queue _ _ _ := extends_of_same rfl rfl
  masks a p m s := by
    have h := enqueueMasks_alters a p m s
    exact extends_of_same (h .events (by decide)) (h .seconds (by decide))
  escrow _ _ _ _ := extends_of_same rfl rfl
  displaced _ _ _ _ _ _ := extends_of_same rfl rfl
  back _ _ := extends_of_same rfl rfl
  pass _ _ _ := extends_of_same rfl rfl

theorem Extends.of_alters {ps : List Part} {s t : State} (h : Alters ps s t)
    (ha : Apart queueParts ps := by exact (apart_iff _ _).1 rfl) : Extends s t := extends_growth.still h ha

theorem raise_length_le (k : EventKind) (x : Option Nat) (v : Option Word32) (s : State) :
    (raise k x v s).events.queue.length ≤ s.events.queue.length + 1 := Events.length_place_le _ _

theorem raise_queue {s : State} (h : s.events.queue.length < 32) (k : EventKind) (x : Option Nat) (v : Option Word32) :
    (raise k x v s).events.queue = s.events.queue ++ [eventAt s.seconds k x v] :=
  congrArg Events.queue (Events.place_of_room h _)

/-- An event that found room is in the queue at the step's end. -/
theorem raises_of {s u t : State} {k : EventKind} {x : Option Nat} {v : Option Word32}
    (hroom : s.events.queue.length ≤ 28 → u.events.queue.length < 32) (hseconds : u.seconds = s.seconds)
    (h : Extends (raise k x v u) t) : Raises s t k x v := fun hlen => by
  refine h.1.subset ?_
  rw [raise_queue (hroom hlen), hseconds]
  exact List.mem_append_right _ (List.mem_singleton.2 rfl)

/-- The first event of a step stands next behind those the queue held. -/
theorem raisesFirst_of {s u t : State} {k : EventKind} {x : Option Nat} {v : Option Word32} (hevents : u.events = s.events)
    (hseconds : u.seconds = s.seconds) (h : Extends (raise k x v u) t) : RaisesFirst s t k x v := fun hlen => by
  rw [← hevents, ← hseconds, ← raise_queue (by rwa [hevents])]
  exact h.1

theorem Raises.after {s u t : State} {k : EventKind} {x : Option Nat} {v : Option Word32} (h : Raises s u k x v)
    (hext : Extends u t) : Raises s t k x v := fun hlen => hext.1.subset (h hlen)

end Sys2Proof.Machine
end

