-- ==== Sys2Proof/Proofs/Samples.lean ====
section
/-! A temperature sample: its sensor's record, the fault events, and the zone's demand (R91, R94 to R96, R98, R99). -/

/- One lemma after another, to keep the memory of a compile small. -/
set_option Elab.async false

namespace Sys2Proof.Machine

/-! ### A record set whole -/

theorem updAt_updAt {α : Type} (l : List α) (n : Nat) (f g : α → α) :
    updAt (updAt l n f) n g = updAt l n fun x => g (f x) := by
  induction l generalizing n with
  | nil => rfl
  | cons x l ih => cases n <;> simp [updAt, ih]

theorem updAt_eq_const {α : Type} (l : List α) (n : Nat) (f : α → α) (d : α) :
    updAt l n f = updAt l n fun _ => f (l.getD n d) := by
  induction l generalizing n with
  | nil => rfl
  | cons x l ih =>
    cases n with
    | zero => rfl
    | succ n => exact congrArg (x :: ·) (ih n)

/-- A sensor's record set to `y`. -/
def setSensor (k : Nat) (y : TempSensor) (s : State) : State := modSensor k (fun _ => y) s

theorem modSensor_eq_set (k : Nat) (f : TempSensor → TempSensor) (s : State) :
    modSensor k f s = setSensor k (f (s.sensor k)) s :=
  congrArg (fun l => { s with cold.sensors := l }) (updAt_eq_const _ _ _ TempSensor.initial)

theorem modSensor_setSensor (k : Nat) (f : TempSensor → TempSensor) (y : TempSensor) (s : State) :
    modSensor k f (setSensor k y s) = setSensor k (f y) s :=
  congrArg (fun l => { s with cold.sensors := l }) (updAt_updAt _ _ _ _)

theorem setSensor_sensor {k : Nat} {s : State} (hk : k < s.cold.sensors.length) (y : TempSensor) :
    (setSensor k y s).sensor k = y := modSensor_sensor hk _

theorem modSensor_sensor_other {k j : Nat} (hj : j ≠ k) (f : TempSensor → TempSensor) (s : State) :
    (modSensor k f s).sensor j = s.sensor j := by
  simp only [State.sensor, modSensor_cold, getD_updAt]
  exact if_neg fun h => hj h.1

theorem setSensor_alters (k : Nat) (y : TempSensor) (s : State) : Alters [.sensors] s (setSensor k y s) :=
  modSensor_alters _ _ _

/-! ### The judgement of a sample (R91 steps 1 and 2) -/

/-- The state as a sample is judged: at the evaporator the tick has been taken (log 9). -/
def ticked (k : Nat) (s : State) : State := if k = 2 then heaterTick s else s

theorem ticked_alters (k : Nat) (s : State) : Alters [.defrost] s (ticked k s) := .ite (heaterTick_alters s) (.refl _ _)

theorem ticked_of_zone {k : Nat} (hk : k ≠ 2) (s : State) : ticked k s = s := if_neg hk

/-- The state once a sample of count `c` has been judged. -/
def judged (k c : Nat) (s : State) : State :=
  let u := modSensor k (fun r => { r with raw := c, sampled := true }) (ticked k s)
  if goodSample c then goodTaken k c u else badTaken k c u

theorem takeSample_eq (k c : Nat) (s : State) : takeSample k c s =
    if k = 2 then intervalTick (defrostTests (judged k c s)) else zoneSteps k c (!(s.sensor k).sampled) (judged k c s) := rfl

/-- The sensor's record after a sample of count `c` (R91, R94 to R96). -/
def State.after (s : State) (k c : Nat) : TempSensor := (s.sensor k).after c (convert s.tables c)

theorem goodSample_iff (c : Nat) : goodSample c = true ↔ 16 ≤ c ∧ c ≤ 4079 := by
  show (decide (16 ≤ c) && decide (c ≤ 4079)) = true ↔ _
  rw [Bool.and_eq_true, decide_eq_true_iff, decide_eq_true_iff]

section
variable {k c : Nat} {s : State}

theorem goodTaken_set (k c : Nat) (x : TempSensor) (s : State) (hk : k < s.cold.sensors.length) :
    goodTaken k c (setSensor k x s) =
      if x.faulted then
        if x.goodRun + 1 < 10 then setSensor k { x with badRun := 0, goodRun := x.goodRun + 1 } s
        else endDuty k (raise .sensorOk (some k) (ival (convert s.tables c)) (setSensor k
          { x with badRun := 0, faulted := false, goodRun := 0, temp := some (convert s.tables c) } s))
      else setSensor k { x with badRun := 0, temp := some (filtered x.temp (convert s.tables c)) } s := by
  have htables : (setSensor k x s).tables = s.tables := rfl
  unfold goodTaken
  rw [setSensor_sensor hk]
  simp only [modSensor_setSensor, htables]

theorem badTaken_set (k c : Nat) (x : TempSensor) (s : State) (hk : k < s.cold.sensors.length) :
    badTaken k c (setSensor k x s) =
      if x.faulted then setSensor k { x with goodRun := 0 } s
      else if x.badRun + 1 < 3 then setSensor k { x with badRun := x.badRun + 1 } s
      else beginDuty k (raise .sensorFault (some k) (val c) (setSensor k
        { x with badRun := x.badRun + 1, faulted := true, goodRun := 0 } s)) := by
  unfold badTaken
  rw [setSensor_sensor hk]
  simp only [modSensor_setSensor]

/-- What a sample does before its zone's or the evaporator's steps: its record is set, and when its fault begins or ends
the event is raised and the duty cycle begins or ends. -/
theorem judged_eq (hk : k < s.cold.sensors.length) : judged k c s =
    let recorded := setSensor k (s.after k c) (ticked k s)
    if (s.sensor k).faulted = false ∧ (s.after k c).faulted = true then
      beginDuty k (raise .sensorFault (some k) (val c) recorded)
    else if (s.sensor k).faulted = true ∧ (s.after k c).faulted = false then
      endDuty k (raise .sensorOk (some k) (ival (convert s.tables c)) recorded)
    else recorded := by
  have hsensors : (ticked k s).cold.sensors = s.cold.sensors := ticked_alters k s .sensors (by decide)
  have htables : (ticked k s).tables = s.tables := ticked_alters k s .tables (by decide)
  have hlen : k < (ticked k s).cold.sensors.length := hsensors ▸ hk
  unfold judged
  rw [modSensor_eq_set, (ticked_alters k s).sensor_eq k]
  by_cases hgood : goodSample c = true
  · obtain ⟨hlow, hhigh⟩ := (goodSample_iff c).1 hgood
    rw [if_pos hgood, goodTaken_set k c _ _ hlen, htables]
    by_cases hx : (s.sensor k).faulted = true
    · by_cases hrun : (s.sensor k).goodRun < 9
      · simp [State.after, TempSensor.after, hlow, hhigh, hx, hrun]
      · simp [State.after, TempSensor.after, hlow, hhigh, hx, hrun, show ¬(s.sensor k).goodRun + 1 < 10 by omega]
    · have hx' : (s.sensor k).faulted = false := Bool.eq_false_iff.2 hx
      rw [State.after, after_of_good hx' hlow hhigh]
      simp [hx']
  · have hbad : ¬(16 ≤ c ∧ c ≤ 4079) := fun h => hgood ((goodSample_iff c).2 h)
    rw [if_neg hgood, badTaken_set k c _ _ hlen]
    by_cases hx : (s.sensor k).faulted = true
    · simp [State.after, TempSensor.after, hbad, hx]
    · by_cases hrun : (s.sensor k).badRun < 2
      · simp [State.after, TempSensor.after, hbad, hx, hrun]
      · simp [State.after, TempSensor.after, hbad, hx, hrun, show ¬(s.sensor k).badRun + 1 < 3 by omega]

/-- The state with the sample's record and nothing else of it. -/
def recorded (k c : Nat) (s : State) : State := setSensor k (s.after k c) (ticked k s)

theorem recorded_alters (k c : Nat) (s : State) : Alters [.sensors, .defrost] s (recorded k c s) :=
  (ticked_alters k s).seq (rs := [.sensors, .defrost]) (setSensor_alters _ _ _)

/-- The three outcomes of a sample for its sensor's fault. -/
theorem judged_begins (hk : k < s.cold.sensors.length) (hx : (s.sensor k).faulted = false)
    (hy : (s.after k c).faulted = true) :
    judged k c s = beginDuty k (raise .sensorFault (some k) (val c) (recorded k c s)) :=
  (judged_eq hk).trans (if_pos ⟨hx, hy⟩)

theorem judged_ends (hk : k < s.cold.sensors.length) (hx : (s.sensor k).faulted = true)
    (hy : (s.after k c).faulted = false) :
    judged k c s = endDuty k (raise .sensorOk (some k) (ival (convert s.tables c)) (recorded k c s)) :=
  (judged_eq hk).trans ((if_neg fun h => absurd (hx.symm.trans h.1) (by decide)).trans (if_pos ⟨hx, hy⟩))

theorem judged_calm (hk : k < s.cold.sensors.length) (h : (s.after k c).faulted = (s.sensor k).faulted) :
    judged k c s = recorded k c s := by
  rw [judged_eq hk, h]
  cases (s.sensor k).faulted <;> rfl

/-- A sample's judgement, whatever its outcome. -/
theorem judged_induction {P : State → Prop} (hk : k < s.cold.sensors.length) (hcalm : P (recorded k c s))
    (hbegins : ∀ v, P (beginDuty k (raise .sensorFault (some k) v (recorded k c s))))
    (hends : ∀ v, P (endDuty k (raise .sensorOk (some k) v (recorded k c s)))) : P (judged k c s) := by
  rw [judged_eq hk]
  dsimp only
  split
  · exact hbegins _
  · split
    · exact hends _
    · exact hcalm

theorem judged_from_recorded (hk : k < s.cold.sensors.length) :
    Alters [.events, .zones, .damper, .compressor, .grants] (recorded k c s) (judged k c s) := by
  refine judged_induction (P := Alters _ (recorded k c s)) hk (.refl _ _) (fun v => ?_) fun v => ?_
  · exact (raise_alters _ _ _ _).seq (beginDuty_alters _ _)
  · exact (raise_alters _ _ _ _).seq (endDuty_alters _ _)

theorem judged_alters (hk : k < s.cold.sensors.length) :
    Alters [.sensors, .defrost, .events, .zones, .damper, .compressor, .grants] s (judged k c s) :=
  (recorded_alters k c s).seq (judged_from_recorded hk)

theorem recorded_sensor (hk : k < s.cold.sensors.length) (j : Nat) :
    (recorded k c s).sensor j = if j = k then s.after k c else s.sensor j := by
  have hsensors : (ticked k s).cold.sensors = s.cold.sensors := ticked_alters k s .sensors (by decide)
  unfold recorded
  split
  next h => rw [h, setSensor_sensor (hsensors ▸ hk)]
  next h => exact (modSensor_sensor_other h _ _).trans ((ticked_alters k s).sensor_eq j)

theorem judged_sensor (hk : k < s.cold.sensors.length) (j : Nat) :
    (judged k c s).sensor j = if j = k then s.after k c else s.sensor j :=
  ((judged_from_recorded hk).sensor_eq j).trans (recorded_sensor hk j)

theorem judged_length (hk : k < s.cold.sensors.length) : (judged k c s).cold.sensors.length = s.cold.sensors.length := by
  have hsensors : (judged k c s).cold.sensors = (recorded k c s).cold.sensors := judged_from_recorded hk .sensors (by decide)
  have hticked : (ticked k s).cold.sensors = s.cold.sensors := ticked_alters k s .sensors (by decide)
  simp [hsensors, recorded, setSensor, hticked]

end

/-! ### The zone of a judged sample (R99) -/

theorem recorded_zones (k c : Nat) (s : State) : (recorded k c s).cold.zones = s.cold.zones :=
  recorded_alters k c s .zones (by decide)

theorem beginDuty_zone {k : Nat} {s : State} (hk : k < 2) (hz : k < s.cold.zones.length) :
    (beginDuty k s).zone k = { s.zone k with duty := some true, demand := true } := by
  unfold beginDuty
  rw [if_pos hk, setDemand_zone (by simpa using hz), zone_modZone hz]

theorem beginDuty_zone_other {k z : Nat} (hz : z ≠ k) (s : State) : (beginDuty k s).zone z = s.zone z := by
  unfold beginDuty
  split
  · rw [setDemand_zone_other hz, zone_modZone_other hz]
  · rfl

theorem endDuty_zone {k : Nat} {s : State} (hk : k < 2) (hz : k < s.cold.zones.length) :
    (endDuty k s).zone k = { s.zone k with duty := none } := by
  unfold endDuty
  rw [if_pos hk, zone_modZone hz]

theorem endDuty_zone_other {k z : Nat} (hz : z ≠ k) (s : State) : (endDuty k s).zone z = s.zone z := by
  unfold endDuty
  split
  · rw [zone_modZone_other hz]
  · rfl

section
variable {k c : Nat} {s : State} (hk : k < s.cold.sensors.length)
include hk

theorem judged_zone_other {z : Nat} (hz : z ≠ k) : (judged k c s).zone z = s.zone z := by
  have hrecorded : (recorded k c s).zone z = s.zone z := zone_congr (recorded_zones k c s) z
  refine judged_induction (P := fun t => t.zone z = s.zone z) hk hrecorded (fun v => ?_) fun v => ?_
  · exact (beginDuty_zone_other hz _).trans hrecorded
  · exact (endDuty_zone_other hz _).trans hrecorded

/-- A zone's record at its sensor's judgement: the duty cycle begins and ends with the fault. -/
theorem judged_zone (hz : k < 2) (hlen : k < s.cold.zones.length) : (judged k c s).zone k =
    if (s.sensor k).faulted = false ∧ (s.after k c).faulted = true then
      { s.zone k with duty := some true, demand := true }
    else if (s.sensor k).faulted = true ∧ (s.after k c).faulted = false then { s.zone k with duty := none }
    else s.zone k := by
  have hrecorded : (recorded k c s).zone k = s.zone k := zone_congr (recorded_zones k c s) k
  have hlen' : k < (recorded k c s).cold.zones.length := by rwa [recorded_zones]
  rw [judged_eq hk]
  dsimp only
  split
  · rw [beginDuty_zone hz (by exact hlen')]
    exact congrArg (fun r : ZoneState => { r with duty := some true, demand := true }) hrecorded
  · split
    · rw [endDuty_zone hz (by exact hlen')]
      exact congrArg (fun r : ZoneState => { r with duty := none }) hrecorded
    · exact hrecorded

end

/-! ### The thermostat and the hold timer of a zone (R98, R109, R110) -/

theorem thermostat_zone_other {z k : Nat} (hk : k ≠ z) (s : State) : (thermostat z s).zone k = s.zone k := by
  unfold thermostat
  split
  · rfl
  · split_ifs
    · exact setDemand_zone_other hk _
    · exact setDemand_zone_other hk _
    · rfl

/-- The demand the thermostat makes of a temperature (R98). -/
def demandAt (s : State) (z : Nat) (old : Bool) : Option Int → Bool
  | none => old
  | some f => if upperPoint s z ≤ f then true else if f ≤ lowerPoint s z then false else old

/-- The demand the thermostat leaves. -/
def thermoDemand (s : State) (z : Nat) : Bool := demandAt s z (s.zone z).demand (s.sensor z).temp

theorem thermostat_zone {z : Nat} {s : State} (hz : z < s.cold.zones.length) :
    (thermostat z s).zone z = { s.zone z with demand := thermoDemand s z } := by
  unfold thermostat thermoDemand demandAt
  cases (s.sensor z).temp with
  | none => rfl
  | some f =>
    dsimp only
    split_ifs
    · exact setDemand_zone hz _
    · exact setDemand_zone hz _
    · rfl

/-- A zone's record after its hold timer's tick (R109). -/
def ZoneState.held (r : ZoneState) (warm : Bool) (limit : Nat) : ZoneState :=
  if r.latched then r
  else if warm then
    if limit ≤ r.holdTimer + 1 then { r with latched := true, holdTimer := 0 } else { r with holdTimer := r.holdTimer + 1 }
  else { r with holdTimer := 0 }

theorem holdReachesVend_zone (z : Nat) (s : State) (k : Nat) : (holdReachesVend z s).zone k = s.zone k :=
  zone_congr (holdReachesVend_alters z s .zones (by decide)) k

theorem setLatch_zone {z : Nat} {s : State} (hz : z < s.cold.zones.length) :
    (setLatch z s).zone z = { s.zone z with latched := true, holdTimer := 0 } := zone_modZone hz _

theorem holdTick_zone {z : Nat} {s : State} (hz : z < s.cold.zones.length) :
    (holdTick z s).zone z = (s.zone z).held (warmAt s z) (s.tables.zone z).holdTime := by
  unfold holdTick ZoneState.held
  dsimp only
  split_ifs
  · rfl
  · rw [holdReachesVend_zone]
    exact setLatch_zone hz
  · exact zone_modZone hz _
  · exact zone_modZone hz _

theorem holdTick_zone_other {z k : Nat} (hk : k ≠ z) (s : State) : (holdTick z s).zone k = s.zone k := by
  unfold holdTick
  dsimp only
  split_ifs
  · rfl
  · rw [holdReachesVend_zone]
    exact zone_modZone_other hk _ _
  · exact zone_modZone_other hk _ _
  · exact zone_modZone_other hk _ _

theorem ZoneState.held_duty (r : ZoneState) (warm : Bool) (limit : Nat) :
    (r.held warm limit).duty = r.duty ∧ (r.held warm limit).demand = r.demand := by
  unfold ZoneState.held
  split_ifs <;> exact ⟨rfl, rfl⟩

theorem startCheck_zone_other {z k : Nat} (hk : k ≠ z) (c : Nat) (s : State) : (startCheck z c s).zone k = s.zone k := by
  unfold startCheck
  split_ifs
  · exact zone_modZone_other hk _ _
  · rfl
  · exact zone_modZone_other hk _ _

theorem startCheck_zone {z : Nat} {s : State} (hz : z < s.cold.zones.length) (c : Nat) : (startCheck z c s).zone z =
    if goodSample c = true → warmAt s z = true then { s.zone z with latched := true, holdTimer := 0 } else s.zone z := by
  unfold startCheck
  by_cases hgood : goodSample c = true
  · rw [if_pos hgood]
    by_cases hwarm : warmAt s z = true
    · rw [if_pos hwarm, if_pos fun _ => hwarm, setLatch_zone hz]
    · rw [if_neg hwarm, if_neg fun h => hwarm (h hgood)]
  · rw [if_neg hgood, if_pos fun h => absurd h hgood, setLatch_zone hz]

end Sys2Proof.Machine
end

