-- ==== Sys2Proof/Proofs/SampleEffects.lean ====
section
/-! What a sample's step leaves of the sensors, their fault events and the zones' demand (R94 to R96, R98, R99). -/

/- One lemma after another, to keep the memory of a compile small. -/
set_option Elab.async false

namespace Sys2Proof.Machine

/-! ### The steps after the judgement -/

/-- A zone as the thermostat leaves it when the sensor is good. -/
def followed (z : Nat) (s : State) : State := if (s.sensor z).faulted then s else thermostat z s

theorem followed_alters (z : Nat) (s : State) : Alters [.zones, .damper, .compressor, .grants] s (followed z s) :=
  .ite (.refl _ _) (thermostat_alters z s)

/-- A zone at its sensor's first sample of a start, or a later one. -/
def startChecked (z c : Nat) (first : Bool) (s : State) : State := if first then startCheck z c s else s

theorem startChecked_alters (z c : Nat) (first : Bool) (s : State) : Alters [.zones] s (startChecked z c first s) :=
  .ite (startCheck_alters z c s) (.refl _ _)

theorem zoneSteps_eq (z c : Nat) (first : Bool) (s : State) :
    zoneSteps z c first s = holdTick z (startChecked z c first (followed z s)) := rfl

theorem followed_zone {z : Nat} {s : State} (hz : z < s.cold.zones.length) : (followed z s).zone z =
    { s.zone z with demand := if (s.sensor z).faulted then (s.zone z).demand else thermoDemand s z } := by
  unfold followed
  split
  · rfl
  · exact thermostat_zone hz

theorem followed_zone_other {z k : Nat} (hk : k ≠ z) (s : State) : (followed z s).zone k = s.zone k := by
  unfold followed
  split
  · rfl
  · exact thermostat_zone_other hk s

theorem setDemand_length (z : Nat) (b : Bool) (s : State) :
    (setDemand z b s).cold.zones.length = s.cold.zones.length := by
  by_cases h : (s.zone z).demand = b
  · rw [setDemand_of_same h]
  · rw [setDemand_of_change h, demandChanged_alters _ .zones (by decide), demandSet_zones]
    simp

theorem followed_length (z : Nat) (s : State) : (followed z s).cold.zones.length = s.cold.zones.length := by
  unfold followed thermostat
  split
  · rfl
  · split
    · rfl
    · split_ifs
      · exact setDemand_length _ _ _
      · exact setDemand_length _ _ _
      · rfl

theorem judged_zones_length {k c : Nat} {s : State} (hk : k < s.cold.sensors.length) :
    (judged k c s).cold.zones.length = s.cold.zones.length := by
  have hrecorded := congrArg List.length (recorded_zones k c s)
  refine judged_induction (P := fun t => t.cold.zones.length = s.cold.zones.length) hk hrecorded (fun v => ?_) fun v => ?_
  · unfold beginDuty
    split
    · simpa [setDemand_length] using hrecorded
    · exact hrecorded
  · unfold endDuty
    split
    · simpa using hrecorded
    · exact hrecorded

theorem startChecked_length (z c : Nat) (first : Bool) (s : State) :
    (startChecked z c first s).cold.zones.length = s.cold.zones.length := by
  unfold startChecked startCheck setLatch
  split_ifs <;> simp

theorem startChecked_zone_other {z k : Nat} (hk : k ≠ z) (c : Nat) (first : Bool) (s : State) :
    (startChecked z c first s).zone k = s.zone k := by
  unfold startChecked
  split
  · exact startCheck_zone_other hk c s
  · rfl

theorem startChecked_duty {z : Nat} {s : State} (hz : z < s.cold.zones.length) (c : Nat) (first : Bool) :
    ((startChecked z c first s).zone z).duty = (s.zone z).duty ∧ ((startChecked z c first s).zone z).demand = (s.zone z).demand := by
  unfold startChecked
  split
  · rw [startCheck_zone hz]
    split_ifs <;> exact ⟨rfl, rfl⟩
  · exact ⟨rfl, rfl⟩

theorem zoneSteps_zone_other {z k : Nat} (hk : k ≠ z) (c : Nat) (first : Bool) (s : State) :
    (zoneSteps z c first s).zone k = s.zone k := by
  rw [zoneSteps_eq, holdTick_zone_other hk, startChecked_zone_other hk, followed_zone_other hk]

theorem zoneSteps_duty {z : Nat} {s : State} (hz : z < s.cold.zones.length) (c : Nat) (first : Bool) :
    ((zoneSteps z c first s).zone z).duty = (s.zone z).duty ∧
    ((zoneSteps z c first s).zone z).demand =
      if (s.sensor z).faulted then (s.zone z).demand else thermoDemand s z := by
  have hfollowed : z < (followed z s).cold.zones.length := by rwa [followed_length]
  obtain ⟨hduty, hdemand⟩ := ZoneState.held_duty ((startChecked z c first (followed z s)).zone z)
    (warmAt (startChecked z c first (followed z s)) z) ((startChecked z c first (followed z s)).tables.zone z).holdTime
  obtain ⟨hduty', hdemand'⟩ := startChecked_duty hfollowed c first
  rw [zoneSteps_eq, holdTick_zone (by rwa [startChecked_length]), hduty, hdemand, hduty', hdemand', followed_zone hz]
  exact ⟨rfl, rfl⟩

/-! ### A sample in normal operation -/

theorem extends_finish {u : State} (h : u.phase = .run) : Extends u (finish u) :=
  extends_of_same (finish_alters u h .events (by decide)) (finish_alters u h .seconds (by decide))

/-- The steps after the judgement place their events behind its own. -/
theorem extends_judged (k c : Nat) (s : State) : Extends (judged k c s) (takeSample k c s) := by
  rw [takeSample_eq]
  split
  · exact (extends_growth.defrostTests _).trans (extends_growth.intervalTick _)
  · exact extends_growth.zoneSteps _ _ _ _

section
variable {k c : Nat} {s : State} (hk : k < s.cold.sensors.length)
include hk

theorem takeSample_sensor (j : Nat) : (takeSample k c s).sensor j = if j = k then s.after k c else s.sensor j := by
  have hjudged := judged_sensor (c := c) hk j
  rw [takeSample_eq]
  split
  · exact (((defrostTests_alters _).trans (intervalTick_alters _)).sensor_eq j).trans hjudged
  · exact (zoneSteps_sensor _ _ _ _ j).trans hjudged

theorem takeSample_zone_other {z : Nat} (hz : z ≠ k) : (takeSample k c s).zone z = s.zone z := by
  have hjudged := judged_zone_other (c := c) hk hz
  rw [takeSample_eq]
  split
  · exact (zone_congr (((defrostTests_alters _).trans (intervalTick_alters _)) .zones (by decide)) z).trans hjudged
  · exact (zoneSteps_zone_other hz _ _ _).trans hjudged

end

section
variable {k : Fin 3} {c : BitVec 12} {s : State} (hrun : s.phase = .run)
include hrun

theorem exec_sample : exec (.temperatureSample k c) s = .next (finish (takeSample k c.toNat s)) :=
  next_finish (sample_of_run hrun k c)

/-- A sample named by an effect completes as the sample when it has the effect, and has none otherwise (log 3). -/
theorem sampleWhen_of_run (named : State → State → Bool) : sampleWhen k c named s =
    if named s (takeSample k c.toNat s) then takeSample k c.toNat s else s := by
  unfold sampleWhen
  rw [sample_of_run hrun]

theorem takeSample_run (k c : Nat) : (takeSample k c s).phase = .run :=
  (takeSample_alters _ _ s .phase (by decide)).trans hrun

/-- The event of a fault that a sample begins or ends is the first of its step. -/
theorem sample_raisesFirst {kind : EventKind} {v : Option Word32} {f : State → State}
    (hf : ∀ u, Alters [.zones, .damper, .compressor, .grants] u (f u))
    (hjudged : judged k c.toNat s = f (raise kind (some k.val) v (recorded k c.toNat s))) :
    RaisesFirst s (finish (takeSample k c.toNat s)) kind (some k.val) v := by
  have hframe := recorded_alters k c.toNat s
  refine raisesFirst_of (hframe .events (by decide)) (hframe .seconds (by decide)) ?_
  refine (Extends.trans ?_ (extends_judged k c.toNat s)).trans (extends_finish (takeSample_run hrun _ _))
  rw [hjudged]
  exact .of_alters (hf _)

end

/-! ### The zone of a sample -/

/-- The thermostat's demand at the state a sample has been judged in. -/
theorem thermoDemand_judged {k n : Nat} {s : State} (hk : k < s.cold.sensors.length) :
    thermoDemand (judged k n s) k = demandAt s k ((judged k n s).zone k).demand (s.after k n).temp := by
  have hframe := judged_alters (c := n) hk
  have htables : (judged k n s).tables = s.tables := hframe .tables (by decide)
  have heconomy : (judged k n s).lock.economy = s.lock.economy := hframe .economy (by decide)
  have hupper : upperPoint (judged k n s) k = upperPoint s k := by unfold upperPoint; rw [htables, heconomy]
  have hlower : lowerPoint (judged k n s) k = lowerPoint s k := by unfold lowerPoint; rw [htables, heconomy]
  unfold thermoDemand
  rw [judged_sensor hk, if_pos rfl]
  cases (s.after k n).temp with
  | none => rfl
  | some f => simp only [demandAt, hupper, hlower]

/-- A zone's duty cycle and demand after a sample of its sensor. -/
theorem takeSample_duty {z n : Nat} {s : State} (hk : z < s.cold.sensors.length) (hz : z < 2)
    (hlen : z < s.cold.zones.length) :
    ((takeSample z n s).zone z).duty = ((judged z n s).zone z).duty ∧ ((takeSample z n s).zone z).demand =
      if (s.after z n).faulted then ((judged z n s).zone z).demand else thermoDemand (judged z n s) z := by
  have hsensor := judged_sensor (c := n) hk z
  rw [if_pos rfl] at hsensor
  rw [takeSample_eq, if_neg (by omega), ← hsensor]
  exact zoneSteps_duty (by rwa [judged_zones_length hk]) n _

/-- What a sample makes of its zone: a fault runs the duty cycle, a good sensor the thermostat (R98, R99). -/
theorem sample_zone {z n : Nat} {s : State} (hk : z < s.cold.sensors.length) (hz : z < 2)
    (hlen : z < s.cold.zones.length) :
    ((s.after z n).faulted = true →
      ((takeSample z n s).zone z).duty = (if (s.sensor z).faulted then (s.zone z).duty else some true) ∧
      ((takeSample z n s).zone z).demand = if (s.sensor z).faulted then (s.zone z).demand else true) ∧
    ((s.after z n).faulted = false →
      ((takeSample z n s).zone z).duty = (if (s.sensor z).faulted then none else (s.zone z).duty) ∧
      ((takeSample z n s).zone z).demand = demandAt s z (s.zone z).demand (s.after z n).temp) := by
  obtain ⟨hduty, hdemand⟩ := takeSample_duty (n := n) hk hz hlen
  rw [thermoDemand_judged hk] at hdemand
  rw [judged_zone hk hz hlen] at hduty hdemand
  refine ⟨fun hy => ?_, fun hy => ?_⟩
  · rw [hduty, hdemand, hy]
    cases (s.sensor z).faulted <;> exact ⟨rfl, rfl⟩
  · rw [hduty, hdemand, hy]
    cases (s.sensor z).faulted <;> exact ⟨rfl, rfl⟩

/-- Settles O42: a sample's judgement sets one record, and only the zone of that sensor follows it. -/
theorem samplesFilterAndSwitchTheDemand : Obligations.SamplesFilterAndSwitchTheDemand := by
  refine ⟨fun k c s hrun hlen hzones => ?_, fun z c s hrun hlen hzones => ?_⟩
  · have hk : k.val < s.cold.sensors.length := by omega
    have hframe := takeSample_alters k c.toNat s
    have hfinish := finish_alters _ (takeSample_run hrun k c.toNat)
    have hsensor (j : Nat) : (finish (takeSample k c.toNat s)).sensor j = _ :=
      (hfinish.sensor_eq j).trans (takeSample_sensor (c := c.toNat) hk j)
    have hnamed {named : State → State → Bool} : (.next (finish (sampleWhen k c named s)) : Result) =
        .next (finish (if named s (takeSample k c.toNat s) then takeSample k c.toNat s else s)) :=
      next_finish (sampleWhen_of_run hrun named)
    have hy : ((takeSample k c.toNat s).sensor k).faulted = (s.after k c.toNat).faulted := by
      rw [takeSample_sensor hk, if_pos rfl]
    dsimp only
    refine ⟨_, exec_sample hrun, hframe.seq hfinish, ?_, fun j hj => ?_, fun z hz => ?_, fun hx hy' => ⟨?_, ?_⟩,
      fun h => ?_, fun hx hy' => ⟨?_, ?_⟩, fun h => ?_⟩
    · rw [hsensor, if_pos rfl]
      rfl
    · rw [hsensor, if_neg hj]
    · exact (zone_congr (hfinish .zones (by decide)) z).trans (takeSample_zone_other hk hz)
    · exact sample_raisesFirst hrun (beginDuty_alters k) (judged_begins hk hx hy')
    · exact hnamed.trans (next_finish (if_pos (by simp [faultBegins, hx, hy]; exact hy')))
    · refine hnamed.trans (next_finish (if_neg fun hb => h ?_))
      simp only [faultBegins, Bool.and_eq_true, Bool.not_eq_true', hy] at hb
      exact hb
    · exact sample_raisesFirst hrun (fun u => (endDuty_alters k u).mono) (judged_ends hk hx hy')
    · exact hnamed.trans (next_finish (if_pos (by simp [faultEnds, hx, hy]; exact hy')))
    · refine hnamed.trans (next_finish (if_neg fun hb => h ?_))
      simp only [faultEnds, Bool.and_eq_true, Bool.not_eq_true', hy] at hb
      exact hb
  · have hk : z.val < s.cold.sensors.length := by omega
    have hz : z.val < s.cold.zones.length := by omega
    have hfinish := finish_alters _ (takeSample_run hrun z c.toNat)
    have hzone : (finish (takeSample z c.toNat s)).zone z = (takeSample z c.toNat s).zone z :=
      zone_congr (hfinish .zones (by decide)) z
    obtain ⟨hbad, hgood⟩ := sample_zone (n := c.toNat) hk z.isLt hz
    have hthermo (hy : (s.after z c.toNat).faulted = false) {f : Int} (hf : (s.after z c.toNat).temp = some f) :
        ((finish (takeSample z c.toNat s)).zone z).demand =
          if upperPoint s z ≤ f then true else if f ≤ lowerPoint s z then false else (s.zone z).demand := by
      obtain ⟨-, hdemand⟩ := hgood hy
      rw [hzone, hdemand, hf]
      rfl
    dsimp only
    refine ⟨_, exec_sample (k := z.castLE (by decide)) hrun, fun hy => ?_, fun hy => ?_, fun hy => ?_, fun hy hnone => ?_,
      fun f hy hf => ⟨fun hhigh => ?_, fun hbelow => ⟨fun hlow => ?_, fun habove => ?_⟩⟩⟩
    · obtain ⟨hduty, -⟩ := hbad hy
      exact (congrArg ZoneState.duty hzone).trans hduty
    · obtain ⟨hduty, -⟩ := hgood hy
      exact (congrArg ZoneState.duty hzone).trans hduty
    · obtain ⟨-, hdemand⟩ := hbad hy
      exact (congrArg ZoneState.demand hzone).trans hdemand
    · obtain ⟨-, hdemand⟩ := hgood hy
      refine (congrArg ZoneState.demand hzone).trans (hdemand.trans ?_)
      rw [show (s.after z c.toNat).temp = none from hnone]
      rfl
    · exact (hthermo hy hf).trans (if_pos hhigh)
    · exact (hthermo hy hf).trans ((if_neg (Int.not_le.2 hbelow)).trans (if_pos hlow))
    · exact (hthermo hy hf).trans ((if_neg (Int.not_le.2 hbelow)).trans (if_neg (Int.not_le.2 habove)))

end Sys2Proof.Machine
end

