-- ==== Sys2Proof/Proofs/VendEndings.lean ====
section
/-! How a vend ends: sold, its price a sale; or not, the customer not charged (R8 to R11, R84). -/

/- One lemma after another, to keep the memory of a compile small. -/
set_option Elab.async false

namespace Sys2Proof.Machine

/-! ### The follow-on steps of a vend's end (R11) -/

/-- The money once a pended return has been taken (R11, R13). -/
def returned (w : State) : State :=
  if w.credit.pendingReturn then owed { w with credit.pendingReturn := false } else w

theorem afterVend_eq (o w : State) : afterVend o w = masksIfHeld o (payoutTest (setSale (returned w))) := rfl

/-- What a vend's end changes after its money, with the end of the step. -/
def endingParts : List Part := .coinMasks :: .noteMask :: dueParts

theorem afterVend_from_returned (o w : State) : Alters endingParts (returned w) (afterVend o w) :=
  ((setSale_alters _).seq (rs := endingParts) (payoutTest_alters _)).seq (masksIfHeld_alters _ _)

theorem afterVend_ends {o w t : State} (ht : Alters dueParts (afterVend o w) t) : Alters endingParts (returned w) t :=
  (afterVend_from_returned o w).seq ht

theorem owed_alters (s : State) : Alters [.amounts, .shortWait, .payout, .audit, .events] s (owed s) :=
  (creditToReturn_alters s).seq (shortWait_alters false _)

theorem owed_sales (s : State) : (owed s).audit.cashSales = s.audit.cashSales ∧
    (owed s).audit.externalSales = s.audit.externalSales := by
  have haudit : (owed s).audit = _ := addReturnDue_audit _ { s with credit.credit := 0 }
  rw [haudit]
  split <;> exact ⟨rfl, rfl⟩

theorem extends_owed (s : State) : Extends s (owed s) :=
  (extends_growth.creditToReturn s).trans (.of_alters (shortWait_alters false _))

theorem returned_of_pending {w : State} (h : w.credit.pendingReturn = true) :
    returned w = owed { w with credit.pendingReturn := false } := if_pos h

theorem returned_of_none {w : State} (h : w.credit.pendingReturn = false) : returned w = w := if_neg (by simp [h])

theorem returned_alters (w : State) :
    Alters [.pendingReturn, .amounts, .shortWait, .payout, .audit, .events] w (returned w) := by
  unfold returned
  split
  · refine Alters.seq (ps := [.pendingReturn]) ?_ (owed_alters _)
    intro p hp; cases p <;> simp_all [Part.same]
  · exact .refl _ _

theorem returned_sales (w : State) : (returned w).audit.cashSales = w.audit.cashSales ∧
    (returned w).audit.externalSales = w.audit.externalSales := by
  unfold returned
  split
  · exact owed_sales _
  · exact ⟨rfl, rfl⟩

theorem extends_returned (w : State) : Extends w (returned w) := by
  unfold returned
  split
  · exact extends_owed { w with credit.pendingReturn := false }
  · exact .rfl

theorem returned_hold (w : State) : (returned w).credit.vendHold = w.credit.vendHold := by
  unfold returned
  split
  · rw [owed_credit]
  · rfl

/-- A state that keeps what a vend's end reads of the money, and room for the events of the end. -/
structure Unsettled (s u : State) : Prop where
  amounts : u.credit.credit = s.credit.credit ∧ u.credit.vendHold = s.credit.vendHold ∧
    u.credit.returnDue = s.credit.returnDue
  fly : u.credit.inFlight = s.credit.inFlight
  pend : u.credit.pendingReturn = s.credit.pendingReturn
  audit : u.audit = s.audit
  tables : u.tables = s.tables
  sales : ∀ i, (u.sel i).sales = (s.sel i).sales
  seconds : u.seconds = s.seconds
  room : s.events.queue.length ≤ 28 → u.events.queue.length ≤ 30

theorem Unsettled.after {s u w : State} (h : Unsettled s u) {ps : List Part} (hw : Alters ps u w)
    (hroom : s.events.queue.length ≤ 28 → w.events.queue.length ≤ 30)
    (hp : Apart [.amounts, .inFlight, .pendingReturn, .audit, .tables, .sels, .seconds] ps := by
      exact (apart_iff _ _).1 rfl) : Unsettled s w := by
  obtain ⟨hcredit, hhold, -, hdue⟩ := hw .amounts (hp _ (by decide))
  obtain ⟨hcredit', hhold', hdue'⟩ := h.amounts
  have hsels : w.sels = u.sels := hw .sels (hp _ (by decide))
  exact ⟨⟨hcredit.trans hcredit', hhold.trans hhold', hdue.trans hdue'⟩,
    Eq.trans (hw .inFlight (hp _ (by decide))) h.fly,
    Eq.trans (hw .pendingReturn (hp _ (by decide))) h.pend, Eq.trans (hw .audit (hp _ (by decide))) h.audit,
    Eq.trans (hw .tables (hp _ (by decide))) h.tables, fun i => by rw [sel_congr hsels i]; exact h.sales i,
    Eq.trans (hw .seconds (hp _ (by decide))) h.seconds, hroom⟩

theorem Unsettled.refl (s : State) : Unsettled s s :=
  ⟨⟨rfl, rfl, rfl⟩, rfl, rfl, rfl, rfl, fun _ => rfl, rfl, fun h => by omega⟩

theorem Unsettled.of_alters {s u : State} {ps : List Part} (h : Alters ps s u)
    (hroom : s.events.queue.length ≤ 28 → u.events.queue.length ≤ 30)
    (hp : Apart [.amounts, .inFlight, .pendingReturn, .audit, .tables, .sels, .seconds] ps := by
      exact (apart_iff _ _).1 rfl) : Unsettled s u := (Unsettled.refl s).after h hroom hp

theorem Unsettled.leaveVend {s u : State} (h : Unsettled s u) : Unsettled s (leaveVend u) :=
  h.after (leaveVend_alters u) fun hlen => by
    rw [leaveVend_alters u .events (by decide)]
    exact h.room hlen

theorem withoutVend_gone {d : Drive} (h : d.service = none) :
    d.withoutVend.vend = none ∧ d.withoutVend.rev = none ∧ d.withoutVend.row = none := by
  simp [Drive.withoutVend, h]

/-- The record and the motor are gone when the vend has ended. -/
theorem gone_of {d : Drive} {w t : State} (h : d.service = none) (hw : w.drive = d.withoutVend)
    (ht : Alters dueParts w t) : t.drive.vend = none ∧ t.drive.rev = none ∧ t.drive.row = none := by
  obtain ⟨hvend, hrev, hrow⟩ := withoutVend_gone h
  rw [← hw] at hvend hrev hrow
  exact ⟨Eq.trans (ht .vendOp (by decide)) hvend, Eq.trans (ht .rev (by decide)) hrev,
    Eq.trans (ht .row (by decide)) hrow⟩

/-! ### A vend that fails (R9) -/

/-- The credit record as a failed vend leaves it. -/
def restored (s : State) : State :=
  { s with credit.credit := s.credit.credit + s.credit.vendHold, credit.vendHold := 0, credit.inFlight := none }

theorem failVend_of_inFlight (i : Nat) (w : VendFailure) {s : State} (h : s.credit.inFlight.isSome = true) :
    failVend i w s = raise .vendFailed (some i) (some (pack 0 0 0 w.code)) (restored s) := by
  obtain ⟨f, hf⟩ := Option.isSome_iff_exists.1 h
  simp only [failVend, hf]
  rfl

section
variable {v : VendOp} {why : VendFailure} {s u t : State} (hu : Unsettled s u)
  (hfly : s.credit.inFlight.isSome = true) (ht : Alters dueParts (vendFails v why u) t)
include hu hfly ht

theorem failed_ends : Alters endingParts
    (returned (raise .vendFailed (some v.sel) (some (pack 0 0 0 why.code)) (restored (leaveVend u)))) t := by
  rw [← failVend_of_inFlight v.sel why (by rw [hu.leaveVend.fly]; exact hfly)]
  exact afterVend_ends ht

theorem failed_raises : Raises s t .vendFailed (some v.sel) (some (pack 0 0 0 why.code)) := by
  have hends := failed_ends hu hfly ht
  refine raises_of (u := restored (leaveVend u)) (fun hlen => Nat.lt_of_le_of_lt (hu.leaveVend.room hlen) (by decide))
    hu.leaveVend.seconds ((extends_returned _).trans (extends_of_same ?_ ?_))
  · exact hends .events (by decide)
  · exact hends .seconds (by decide)

theorem failed_inFlight : t.credit.inFlight = none := by
  have hends := failed_ends hu hfly ht
  exact Eq.trans (hends .inFlight (by decide)) (returned_alters _ .inFlight (by decide))

/-- A vend that fails is not charged. -/
theorem failed_restored (hpend : s.credit.pendingReturn = false) : t.credit.vendHold = 0 ∧
    t.credit.credit = s.credit.credit + s.credit.vendHold ∧ t.credit.returnDue = s.credit.returnDue := by
  have hends := failed_ends hu hfly ht
  have hpend' : (raise .vendFailed (some v.sel) (some (pack 0 0 0 why.code)) (restored (leaveVend u))).credit.pendingReturn
    = false := hu.leaveVend.pend.trans hpend
  rw [returned_of_none hpend'] at hends
  obtain ⟨hcredit, hhold, -, hdue⟩ := hends .amounts (by decide)
  obtain ⟨hcredit', hhold', hdue'⟩ := hu.leaveVend.amounts
  refine ⟨hhold, hcredit.trans ?_, hdue.trans hdue'⟩
  show (leaveVend u).credit.credit + (leaveVend u).credit.vendHold = _
  rw [hcredit', hhold']

theorem notSold_of (hservice : u.drive.service = none) : NotSold v why s t where
  gone := by
    obtain ⟨hvend, hrev, hrow⟩ := gone_of hservice (vendFails_drive v why u) ht
    exact ⟨hvend, hrev, hrow, failed_inFlight hu hfly ht⟩
  sales i := by
    have hends := failed_ends hu hfly ht
    have hsels : t.sels = (leaveVend u).sels := Eq.trans (hends .sels (by decide)) (returned_alters _ .sels (by decide))
    rw [sel_congr hsels]
    exact hu.leaveVend.sales i
  raised := failed_raises hu hfly ht
  totals := by
    have haudit : t.audit = _ := failed_ends hu hfly ht .audit (by decide)
    obtain ⟨hcash, hexternal⟩ := returned_sales
      (raise .vendFailed (some v.sel) (some (pack 0 0 0 why.code)) (restored (leaveVend u)))
    rw [haudit, hcash, hexternal]
    show (leaveVend u).audit.cashSales = _ ∧ (leaveVend u).audit.externalSales = _
    rw [hu.leaveVend.audit]
    exact ⟨rfl, rfl⟩
  restored := failed_restored hu hfly ht

end

/-! ### A vend that is sold (R8, R10) -/

theorem sel_modSel {i : Nat} {s : State} (hi : i < s.sels.length) (f : SelKept → SelKept) :
    (modSel i f s).sel i = f (s.sel i) := by
  simp only [State.sel, modSel_sels, getD_updAt, hi, and_self, if_true]

theorem sel_modSel_other {i k : Nat} (hk : k ≠ i) (f : SelKept → SelKept) (s : State) : (modSel i f s).sel k = s.sel k := by
  simp only [State.sel, modSel_sels, getD_updAt]
  exact if_neg fun h => hk h.1

/-- A CASH sale before a SINGLE return, and an EXTERNAL one. -/
def cashSold (i : Nat) (s : State) : State :=
  { countSale i { s with audit.cashSales := addTotal s.audit.cashSales s.credit.vendHold } with
    credit.vendHold := 0, credit.inFlight := none }

def externalSold (i amount : Nat) (s : State) : State :=
  { countSale i { s with audit.externalSales := addTotal s.audit.externalSales amount } with credit.inFlight := none }

/-- SINGLE returns what is left of the credit (R8). -/
def singleReturned (s : State) : State := if s.tables.money.policy = .single then creditToReturn s else s

theorem commitVend_cash (i : Nat) {s : State} (h : s.credit.inFlight = some .cash) : commitVend i s =
    raise .vendDone (some i) (val s.credit.vendHold) (singleReturned (cashSold i s)) := by
  have htables : (cashSold i s).tables = s.tables := rfl
  simp only [commitVend, h, singleReturned, htables]
  cases hp : s.tables.money.policy with
  | single =>
    have hcount : (countSale i { s with audit.cashSales := addTotal s.audit.cashSales s.credit.vendHold }).tables.money.policy
      = .single := hp
    simp only [hcount]
    rfl
  | multi =>
    have hcount : (countSale i { s with audit.cashSales := addTotal s.audit.cashSales s.credit.vendHold }).tables.money.policy
      = .multi := hp
    simp only [hcount]
    rfl

theorem commitVend_external (i : Nat) {amount : Nat} {s : State} (h : s.credit.inFlight = some (.external amount)) :
    commitVend i s = raise .vendDone (some i) (val amount) (externalSold i amount s) := by
  simp only [commitVend, h]
  rfl

theorem extends_singleReturned (s : State) : Extends s (singleReturned s) := by
  unfold singleReturned
  split
  · exact extends_growth.creditToReturn s
  · exact .rfl

theorem singleReturned_alters (s : State) :
    Alters [.amounts, .shortWait, .payout, .audit, .events] s (singleReturned s) :=
  .ite (creditToReturn_alters s) (.refl _ _)

theorem creditToReturn_credit (s : State) : (creditToReturn s).credit =
    { s.credit with credit := 0, returnDue := s.credit.returnDue + returnFits s.credit.returnDue s.credit.credit } :=
  addReturnDue_credit _ { s with credit.credit := 0 }

theorem creditToReturn_room {s : State} (h : s.events.queue.length ≤ 30) : (creditToReturn s).events.queue.length < 32 := by
  have hevents : (creditToReturn s).events = _ := addReturnDue_events _ { s with credit.credit := 0 }
  rw [hevents]
  split
  · exact Nat.lt_of_le_of_lt h (by decide)
  · exact Nat.lt_of_le_of_lt ((Events.length_place_le _ _).trans (Nat.succ_le_succ h)) (by decide)

theorem singleReturned_room {s : State} (h : s.events.queue.length ≤ 30) :
    (singleReturned s).events.queue.length < 32 := by
  unfold singleReturned
  split
  · exact creditToReturn_room h
  · exact Nat.lt_of_le_of_lt h (by decide)

theorem creditToReturn_sales (s : State) : (creditToReturn s).audit.cashSales = s.audit.cashSales ∧
    (creditToReturn s).audit.externalSales = s.audit.externalSales := owed_sales s

/-- What a cash sale leaves of the two amounts, after SINGLE's return and a pended one. -/
theorem sold_amounts (s : State) (i : Nat) (n : Option Word32) :
    let t := returned (raise .vendDone (some i) n (singleReturned s))
    (s.credit.pendingReturn = false → s.tables.money.policy = .multi →
      t.credit.credit = s.credit.credit ∧ t.credit.returnDue = s.credit.returnDue) ∧
    (s.credit.pendingReturn = true ∨ s.tables.money.policy = .single → t.credit.credit = 0 ∧
      (s.credit.returnDue ≤ 65535 → t.credit.returnDue = min 65535 (s.credit.returnDue + s.credit.credit))) := by
  have hfits (h : s.credit.returnDue ≤ 65535) := (returnFits_eq (a := s.credit.credit) h).1
  by_cases hsingle : s.tables.money.policy = .single
  · have hreturned : singleReturned s = creditToReturn s := if_pos hsingle
    refine ⟨fun _ hmulti => absurd (hsingle.symm.trans hmulti) (by decide), fun _ => ?_⟩
    cases hpend : s.credit.pendingReturn with
    | false =>
      rw [returned_of_none (by rw [raise_credit, hreturned, creditToReturn_credit]; exact hpend), raise_credit, hreturned,
        creditToReturn_credit]
      exact ⟨rfl, hfits⟩
    | true =>
      rw [returned_of_pending (by rw [raise_credit, hreturned, creditToReturn_credit]; exact hpend), owed_credit]
      refine ⟨rfl, fun h => ?_⟩
      have hdue : (creditToReturn s).credit.returnDue = min 65535 (s.credit.returnDue + s.credit.credit) := by
        rw [creditToReturn_credit]
        exact hfits h
      have hzero : (creditToReturn s).credit.credit = 0 := by rw [creditToReturn_credit]
      simp only [raise_credit, hreturned, hdue, hzero]
      have := (returnFits_eq (a := 0) (Nat.min_le_left 65535 (s.credit.returnDue + s.credit.credit))).1
      omega
  · have hmulti : singleReturned s = s := if_neg hsingle
    cases hpend : s.credit.pendingReturn with
    | false =>
      refine ⟨fun _ _ => ?_, fun h => absurd h (by simp [hsingle])⟩
      rw [hmulti, returned_of_none (by exact hpend)]
      exact ⟨rfl, rfl⟩
    | true =>
      refine ⟨fun h => absurd h (by decide), fun _ => ?_⟩
      rw [hmulti, returned_of_pending (by exact hpend), owed_credit]
      exact ⟨rfl, hfits⟩

/-- What a success stands on: the record is gone and the pointer has moved on. -/
def advanced (v : VendOp) (u : State) : State := advancePointer v.sel v.position (leaveVend u)

theorem advanced_sel {v : VendOp} {u : State} (h : v.sel < u.sels.length) : (advanced v u).sel v.sel =
    { u.sel v.sel with next := if (u.tables.sel v.sel).firstMode then (u.sel v.sel).next
      else if v.position + 1 < (u.tables.sel v.sel).spirals.length then v.position + 1 else 0 } := by
  have hleft := leaveVend_alters u
  have hsels : (leaveVend u).sels = u.sels := hleft .sels (by decide)
  have htables : (leaveVend u).tables = u.tables := hleft .tables (by decide)
  unfold advanced advancePointer
  rw [htables]
  dsimp only
  split
  · exact sel_congr hsels _
  · rw [sel_modSel (by rw [hsels]; exact h), sel_congr hsels]
    rfl

theorem advanced_sel_other {v : VendOp} {i : Nat} (hi : i ≠ v.sel) (u : State) : (advanced v u).sel i = u.sel i := by
  have hsels : (leaveVend u).sels = u.sels := leaveVend_alters u .sels (by decide)
  unfold advanced advancePointer
  dsimp only
  split
  · exact sel_congr hsels _
  · exact (sel_modSel_other hi _ _).trans (sel_congr hsels _)

theorem advanced_length (v : VendOp) (u : State) : (advanced v u).sels.length = u.sels.length := by
  have hsels : (leaveVend u).sels = u.sels := leaveVend_alters u .sels (by decide)
  unfold advanced advancePointer
  dsimp only
  split
  · rw [hsels]
  · simp [hsels]

theorem advanced_alters (v : VendOp) (u : State) : Alters [.vendOp, .rev, .row, .grants, .sels] u (advanced v u) :=
  (leaveVend_alters u).seq (advancePointer_alters _ _ _)

/-- The sale counter grows at the selection sold alone (R8, R58). -/
theorem countSale_sel {i : Nat} {s : State} (h : i < s.sels.length) :
    (countSale i s).sel i = { s.sel i with sales := min 65535 ((s.sel i).sales + 1) } := sel_modSel h _

theorem singleReturned_kept (s : State) : (singleReturned s).credit.vendHold = s.credit.vendHold ∧
    (singleReturned s).audit.cashSales = s.audit.cashSales ∧
    (singleReturned s).audit.externalSales = s.audit.externalSales := by
  unfold singleReturned
  split
  · rw [creditToReturn_credit]
    exact ⟨rfl, creditToReturn_sales s⟩
  · exact ⟨rfl, rfl, rfl⟩

theorem commitVend_left {i : Nat} {s : State} (h : s.credit.inFlight.isSome = true) :
    (commitVend i s).credit.inFlight = none ∧ (commitVend i s).sels = (countSale i s).sels := by
  obtain ⟨f, hf⟩ := Option.isSome_iff_exists.1 h
  cases f with
  | cash =>
    have hreturned := singleReturned_alters (cashSold i s)
    rw [commitVend_cash i hf]
    exact ⟨hreturned .inFlight (by decide), hreturned .sels (by decide)⟩
  | external amount =>
    rw [commitVend_external i hf]
    exact ⟨rfl, rfl⟩

section
variable {v : VendOp} {s u t : State} (hu : Unsettled s u)
include hu

theorem Unsettled.advanced (v : VendOp) : Unsettled s (advanced v u) := by
  have hleft := hu.leaveVend
  have hframe : Alters [.sels] (Machine.leaveVend u) (Machine.advanced v u) := advancePointer_alters _ _ _
  obtain ⟨hcredit, hhold, -, hdue⟩ := hframe .amounts (by decide)
  obtain ⟨hcredit', hhold', hdue'⟩ := hleft.amounts
  refine ⟨⟨hcredit.trans hcredit', hhold.trans hhold', hdue.trans hdue'⟩, Eq.trans (hframe .inFlight (by decide)) hleft.fly,
    Eq.trans (hframe .pendingReturn (by decide)) hleft.pend, Eq.trans (hframe .audit (by decide)) hleft.audit,
    Eq.trans (hframe .tables (by decide)) hleft.tables, fun i => ?_, Eq.trans (hframe .seconds (by decide)) hleft.seconds,
    fun hlen => ?_⟩
  · by_cases hi : i = v.sel
    · subst hi
      by_cases hlt : v.sel < u.sels.length
      · rw [advanced_sel hlt]
        exact hu.sales v.sel
      · have hdefault (w : State) (hw : w.sels.length = u.sels.length) : w.sel v.sel = SelKept.default :=
          List.getD_eq_default _ _ (by omega)
        rw [hdefault _ (advanced_length v u), ← hdefault u rfl]
        exact hu.sales v.sel
    · rw [advanced_sel_other hi]
      exact hu.sales i
  · rw [hframe .events (by decide)]
    exact hleft.room hlen

theorem sold_sel (hsels : u.sels = s.sels) (hlt : v.sel < s.sels.length) : (countSale v.sel (advanced v u)).sel v.sel =
    { s.sel v.sel with
      sales := min 65535 ((s.sel v.sel).sales + 1)
      next := if (s.tables.sel v.sel).firstMode then (s.sel v.sel).next
              else if v.position + 1 < (s.tables.sel v.sel).spirals.length then v.position + 1 else 0 } := by
  have hlt' : v.sel < u.sels.length := by rwa [hsels]
  rw [countSale_sel (by rwa [advanced_length]), advanced_sel hlt', sel_congr hsels, hu.tables]
  rfl

/-- A vend that ends in success is a sale. -/
theorem sold_of (hsels : u.sels = s.sels) (hservice : u.drive.service = none) (hfly : s.credit.inFlight.isSome = true)
    (ht : Alters dueParts (vendSucceeds v u) t) : Sold v s t := by
  have hadv := hu.advanced v
  have hends : Alters endingParts (returned (commitVend v.sel (advanced v u))) t := afterVend_ends ht
  obtain ⟨hgone, hcounted⟩ := commitVend_left (i := v.sel) (s := advanced v u) (by rw [hadv.fly]; exact hfly)
  have hreturned := returned_alters (commitVend v.sel (advanced v u))
  have htsels : t.sels = (countSale v.sel (advanced v u)).sels :=
    Eq.trans (hends .sels (by decide)) (Eq.trans (hreturned .sels (by decide)) hcounted)
  have hraises {k : EventKind} {x : Option Nat} {n : Option Word32} {w : State}
      (hcommit : commitVend v.sel (advanced v u) = raise k x n w) (hw : Extends (advanced v u) w)
      (hroom : (advanced v u).events.queue.length ≤ 30 → w.events.queue.length < 32) : Raises s t k x n := by
    refine raises_of (fun hlen => hroom (hadv.room hlen)) (hw.2.trans hadv.seconds) ?_
    rw [← hcommit]
    exact (extends_returned _).trans (extends_of_same (hends .events (by decide)) (hends .seconds (by decide)))
  have htotals : t.audit.cashSales = (commitVend v.sel (advanced v u)).audit.cashSales ∧
      t.audit.externalSales = (commitVend v.sel (advanced v u)).audit.externalSales := by
    obtain ⟨hcash, hexternal⟩ := returned_sales (commitVend v.sel (advanced v u))
    have haudit : t.audit = _ := hends .audit (by decide)
    rw [haudit]
    exact ⟨hcash, hexternal⟩
  obtain ⟨hcredit, hhold, -, hdue⟩ := hends .amounts (by decide)
  obtain ⟨hvend, hrev, hrow⟩ := gone_of hservice (vendSucceeds_drive v u) ht
  refine ⟨⟨hvend, hrev, hrow, ?_⟩, fun hlt => ?_, fun i hi => ?_, fun hcash => ?_, fun amount hext => ?_⟩
  · exact Eq.trans (hends .inFlight (by decide)) (Eq.trans (hreturned .inFlight (by decide)) hgone)
  · exact (sel_congr htsels _).trans (sold_sel hu hsels hlt)
  · exact (sel_congr htsels _).trans ((sel_modSel_other hi _ _).trans ((advanced_sel_other hi u).trans (sel_congr hsels i)))
  · have hcommit := commitVend_cash v.sel (s := advanced v u) (hadv.fly.trans hcash)
    obtain ⟨hcredit0, hhold0, hdue0⟩ := hadv.amounts
    obtain ⟨hholdq, hcashq, hexternalq⟩ := singleReturned_kept (cashSold v.sel (advanced v u))
    have hamounts := sold_amounts (cashSold v.sel (advanced v u)) v.sel (val (advanced v u).credit.vendHold)
    have hroom (h : (advanced v u).events.queue.length ≤ 30) :=
      singleReturned_room (s := cashSold v.sel (advanced v u)) h
    have hraised := hraises hcommit (extends_singleReturned (cashSold v.sel (advanced v u))) hroom
    rw [← hcommit] at hamounts
    refine ⟨?_, ?_, ?_, by rwa [hhold0] at hraised, fun hpend hmulti => ?_, fun h => ?_⟩
    · rw [hhold, returned_hold, hcommit]
      exact hholdq
    · rw [htotals.1, hcommit]
      refine hcashq.trans ?_
      show addTotal (advanced v u).audit.cashSales (advanced v u).credit.vendHold = _
      rw [hadv.audit, hhold0]
    · rw [htotals.2, hcommit]
      refine hexternalq.trans ?_
      show (advanced v u).audit.externalSales = _
      rw [hadv.audit]
    · obtain ⟨hc, hd⟩ := hamounts.1 (hadv.pend.trans hpend)
        ((congrArg (fun x : Tables => x.money.policy) hadv.tables).trans hmulti)
      exact ⟨hcredit.trans (hc.trans hcredit0), hdue.trans (hd.trans hdue0)⟩
    · obtain ⟨hc, hd⟩ := hamounts.2 (h.imp (fun hpend => hadv.pend.trans hpend)
        fun hsingle => (congrArg (fun x : Tables => x.money.policy) hadv.tables).trans hsingle)
      refine ⟨hcredit.trans hc, fun hle => hdue.trans ((hd (hdue0 ▸ hle)).trans ?_)⟩
      show min 65535 ((advanced v u).credit.returnDue + (advanced v u).credit.credit) = _
      rw [hcredit0, hdue0]
  · have hcommit := commitVend_external v.sel (s := advanced v u) (hadv.fly.trans hext)
    obtain ⟨hcredit0, hhold0, hdue0⟩ := hadv.amounts
    refine ⟨?_, ?_, ?_, ?_, fun hpend => ?_⟩
    · rw [hhold, returned_hold, hcommit]
      exact hhold0
    · rw [htotals.1, hcommit]
      show (advanced v u).audit.cashSales = _
      rw [hadv.audit]
    · rw [htotals.2, hcommit]
      show addTotal (advanced v u).audit.externalSales amount = _
      rw [hadv.audit]
    · exact hraises hcommit (extends_of_same rfl rfl) fun h => Nat.lt_of_le_of_lt h (by decide)
    · rw [hcredit, returned_of_none (by rw [hcommit]; exact hadv.pend.trans hpend), hcommit]
      exact hcredit0

end

end Sys2Proof.Machine
end

