-- ==== Sys2Proof/Proofs/HoldLatch.lean ====
section
/-! The temperature hold: its timer, its latch at the hold time and at a start, and the vend that it ends (R66, R109,
R110). -/

/- One lemma after another, to keep the memory of a compile small. -/
set_option Elab.async false

namespace Sys2Proof.Machine

/-- What a zone sensor's sample changes besides a vend that its hold ends. -/
def calmParts : List Part := [.sensors, .zones, .compressor, .damper, .grants, .events]

/-- A zone's sample before its hold timer's tick. -/
def beforeHold (z c : Nat) (s : State) : State := startChecked z c (!(s.sensor z).sampled) (followed z (judged z c s))

theorem takeSample_zone {z : Nat} (hz : z ≠ 2) (c : Nat) (s : State) : takeSample z c s = holdTick z (beforeHold z c s) := by
  rw [takeSample_eq, if_neg hz, zoneSteps_eq]
  rfl

/-- A zone is warm at a sample: its sensor faulted, or its temperature above the hold limit (R109). -/
def Warm (s : State) (z c : Nat) : Prop :=
  (s.after z c).faulted = true ∨ ∀ f, (s.after z c).temp = some f → (s.tables.zone z).holdLimit < f

theorem warmAt_eq {z c : Nat} {s u : State} (hsensor : u.sensor z = s.after z c) (htables : u.tables = s.tables) :
    warmAt u z = true ↔ Warm s z c := by
  unfold warmAt Warm
  rw [hsensor, htables]
  cases h : (s.after z c).temp with
  | none => simp
  | some f => simp

section
variable {z c : Nat} {s : State} (hk : z < s.cold.sensors.length)
include hk

theorem beforeHold_sensor : (beforeHold z c s).sensor z = s.after z c := by
  have hjudged := judged_sensor (c := c) hk z
  rw [if_pos rfl] at hjudged
  exact ((startChecked_alters z c _ _).sensor_eq z).trans (((followed_alters z _).sensor_eq z).trans hjudged)

/-- The one event before the hold's own is that of the sensor's fault. -/
theorem beforeHold_room (h : s.events.queue.length ≤ 28) : (beforeHold z c s).events.queue.length ≤ 29 := by
  have hevents : (beforeHold z c s).events = (judged z c s).events :=
    Eq.trans (startChecked_alters z c _ _ .events (by decide)) (followed_alters z _ .events (by decide))
  have hrecorded : (recorded z c s).events = s.events := recorded_alters z c s .events (by decide)
  have hraised (k : EventKind) (v : Option Word32) {t : State} (ht : t.events = (raise k (some z) v (recorded z c s)).events) :
      t.events.queue.length ≤ 29 := by
    rw [ht]
    refine (raise_length_le _ _ _ _).trans ?_
    rw [hrecorded]
    omega
  rw [hevents]
  refine judged_induction (P := fun t => t.events.queue.length ≤ 29) hk (by rw [hrecorded]; omega) (fun v => ?_) fun v => ?_
  · exact hraised .sensorFault v (beginDuty_alters z _ .events (by decide))
  · exact hraised .sensorOk v (endDuty_alters z _ .events (by decide))

theorem beforeHold_length (hlen : z < s.cold.zones.length) : z < (beforeHold z c s).cold.zones.length := by
  unfold beforeHold
  rwa [startChecked_length, followed_length, judged_zones_length hk]

variable (hz : z < 2)
include hz

theorem judged_alters_zone : Alters calmParts s (judged z c s) := by
  have hrecorded : Alters [.sensors] s (recorded z c s) := by
    unfold recorded
    rw [ticked_of_zone (by omega)]
    exact setSensor_alters _ _ _
  exact hrecorded.seq (judged_from_recorded hk)

theorem beforeHold_alters : Alters calmParts s (beforeHold z c s) :=
  ((judged_alters_zone hk hz).seq (rs := calmParts) (followed_alters z _)).seq (startChecked_alters z c _ _)

theorem warmAt_beforeHold : warmAt (beforeHold z c s) z = true ↔ Warm s z c :=
  warmAt_eq (beforeHold_sensor hk) (beforeHold_alters hk hz .tables (by decide))

theorem followed_latch (hlen : z < s.cold.zones.length) :
    ((followed z (judged z c s)).zone z).latched = (s.zone z).latched ∧
    ((followed z (judged z c s)).zone z).holdTimer = (s.zone z).holdTimer := by
  rw [followed_zone (by rwa [judged_zones_length hk]), judged_zone hk hz hlen]
  split_ifs <;> exact ⟨rfl, rfl⟩

theorem beforeHold_latch (hlen : z < s.cold.zones.length) (hsampled : (s.sensor z).sampled = true) :
    ((beforeHold z c s).zone z).latched = (s.zone z).latched ∧
    ((beforeHold z c s).zone z).holdTimer = (s.zone z).holdTimer := by
  have hlater : beforeHold z c s = followed z (judged z c s) := by
    unfold beforeHold startChecked
    rw [hsampled]
    rfl
  rw [hlater]
  exact followed_latch hk hz hlen

end

/-! ### The tick of the hold timer (R109) -/

theorem holdTick_latched {z : Nat} {s : State} (h : (s.zone z).latched = true) : holdTick z s = s := if_pos h

theorem holdTick_cold {z : Nat} {s : State} (h : (s.zone z).latched = false) (hcold : warmAt s z = false) :
    holdTick z s = modZone z (fun r => { r with holdTimer := 0 }) s := by
  unfold holdTick
  rw [if_neg (by simp [h]), if_neg (by simp [hcold])]

theorem holdTick_warm {z : Nat} {s : State} (h : (s.zone z).latched = false) (hwarm : warmAt s z = true)
    (hbelow : (s.zone z).holdTimer + 1 < (s.tables.zone z).holdTime) :
    holdTick z s = modZone z (fun r => { r with holdTimer := (s.zone z).holdTimer + 1 }) s := by
  unfold holdTick
  rw [if_neg (by simp [h]), if_pos hwarm]
  exact if_neg (Nat.not_le.2 hbelow)

/-- The state at the latch of a hold, its event raised. -/
def latched (z : Nat) (s : State) : State :=
  raise .zoneHold (some z) (some (holdValue (s.sensor z))) (setLatch z s)

theorem holdTick_latches {z : Nat} {s : State} (h : (s.zone z).latched = false) (hwarm : warmAt s z = true)
    (hreached : (s.tables.zone z).holdTime ≤ (s.zone z).holdTimer + 1) : holdTick z s = holdReachesVend z (latched z s) := by
  unfold holdTick
  rw [if_neg (by simp [h]), if_pos hwarm]
  exact if_pos hreached

theorem latched_alters (z : Nat) (s : State) : Alters [.zones, .events] s (latched z s) :=
  (setLatch_alters z s).seq (raise_alters _ _ _ _)

/-! ### The vend that a hold ends (R66) -/

/-- A perishable selection of the zone has the vend in flight. -/
def Reaches (z : Nat) (s : State) (v : VendOp) : Prop :=
  (s.tables.sel v.sel).perishable = true ∧ (s.tables.sel v.sel).zone = z

theorem holdReachesVend_free {z : Nat} {s : State} (h : ∀ v, s.drive.vend = some v → ¬Reaches z s v) :
    holdReachesVend z s = s := by
  unfold holdReachesVend
  cases hv : s.drive.vend with
  | none => rfl
  | some v => exact if_neg (h v hv)

/-- The state that the vend's end starts from: a spiral whose motor it stops has a home probe. -/
def heldSpiral (v : VendOp) (s : State) : State :=
  match turningRev s with
  | some r => if v.told then addProbe v.spiral (keepSwitch r s) else s
  | none => s

theorem heldSpiral_alters (v : VendOp) (s : State) : Alters [.spirals] s (heldSpiral v s) := by
  unfold heldSpiral
  split
  · exact .ite ((modSpiral_alters _ _ _).trans (modSpiral_alters _ _ _)) (.refl _ _)
  · exact .refl _ _

theorem holdReachesVend_ends {z : Nat} {s : State} {v : VendOp} (hv : s.drive.vend = some v) (h : Reaches z s v) :
    holdReachesVend z s = vendSucceeds v (heldSpiral v s) ∨ holdReachesVend z s = vendFails v .held (heldSpiral v s) := by
  have hreach : holdReachesVend z s = match turningRev s with
      | some r => if v.told then
          if v.drop then vendSucceeds v (addProbe v.spiral (keepSwitch r s))
          else vendFails v .held (addProbe v.spiral (keepSwitch r s))
        else vendFails v .held s
      | none => vendFails v .held s := by
    unfold holdReachesVend
    rw [hv]
    exact if_pos h
  rw [hreach]
  unfold heldSpiral
  cases turningRev s with
  | none => exact .inr rfl
  | some r =>
    dsimp only
    split_ifs
    · exact .inl rfl
    · exact .inr rfl
    · exact .inr rfl

theorem holdReachesVend_fails {z : Nat} {s : State} {v : VendOp} (hv : s.drive.vend = some v) (h : Reaches z s v)
    (hdrop : v.drop = false) : holdReachesVend z s = vendFails v .held (heldSpiral v s) := by
  unfold holdReachesVend heldSpiral
  rw [hv]
  refine (if_pos h).trans ?_
  cases turningRev s with
  | none => rfl
  | some r =>
    dsimp only
    simp only [hdrop, Bool.false_eq_true, if_false]
    split <;> rfl

theorem holdReachesVend_vend {z : Nat} {s : State} {v : VendOp} (hv : s.drive.vend = some v) (h : Reaches z s v) :
    (holdReachesVend z s).drive.vend = none := by
  rcases holdReachesVend_ends hv h with h | h
  · rw [h, vendSucceeds_drive, Drive.withoutVend_vend]
  · rw [h, vendFails_drive, Drive.withoutVend_vend]

/-! ### A zone's sample in normal operation -/

section
variable {z : Fin 2} {c : BitVec 12} {s : State} (hrun : s.phase = .run)
include hrun

theorem exec_zoneSample : exec (.temperatureSample (z.castLE (by decide)) c) s =
    .next (finish (takeSample z c.toNat s)) := exec_sample hrun

theorem exec_zoneHold_begins (h : holdBegins z s (takeSample z c.toNat s) = true) :
    exec (.zoneHold z c) s = .next (finish (takeSample z c.toNat s)) :=
  next_finish ((sampleWhen_of_run (k := z.castLE (by decide)) hrun _).trans (if_pos h))

theorem exec_zoneHold_stays (h : holdBegins z s (takeSample z c.toNat s) = false) :
    exec (.zoneHold z c) s = .next (finish s) :=
  next_finish ((sampleWhen_of_run (k := z.castLE (by decide)) hrun _).trans (if_neg (by
    rw [Bool.not_eq_true]
    exact h)))

/-- A sample that leaves the latch as it was is no ZONE_HOLD, and disturbs no vend. -/
theorem zoneSample_completes {latch : Bool} {timer : Nat} (hparts : Alters calmParts s (takeSample z c.toNat s))
    (hlatch : ((takeSample z c.toNat s).zone z).latched = latch)
    (htimer : ((takeSample z c.toNat s).zone z).holdTimer = timer)
    (hstays : (s.zone z).latched = true ∨ latch = false) :
    Completes (.temperatureSample (z.castLE (by decide)) c) s calmParts (fun t => (t.zone z).latched = latch ∧
      (t.zone z).holdTimer = timer) ∧ exec (.zoneHold z c) s = .next (finish s) := by
  refine ⟨completes_ends (exec_zoneSample hrun) hrun hparts (by decide) fun hends => ?_, exec_zoneHold_stays hrun ?_⟩
  · rw [zone_congr (hends.frame .zones (by decide))]
    exact ⟨hlatch, htimer⟩
  · unfold holdBegins
    rw [hlatch]
    rcases hstays with h | h <;> simp [h]

end

/-- What a hold that latches leaves (R66, R109). -/
theorem zoneHold_latches {z : Fin 2} {c : BitVec 12} {s : State} (hrun : s.phase = .run)
    (hk : z.val < s.cold.sensors.length) (hlen : z.val < s.cold.zones.length) (hsampled : (s.sensor z).sampled = true)
    (hfree : (s.zone z).latched = false) (hwarm : Warm s z c.toNat)
    (hreached : (s.tables.zone z).holdTime ≤ (s.zone z).holdTimer + 1) :
    Completes (.zoneHold z c) s sampleParts fun t =>
      exec (.temperatureSample (z.castLE (by decide)) c) s = .next t ∧
      (t.zone z).latched = true ∧ (t.zone z).holdTimer = 0 ∧
      Raises s t .zoneHold (some z.val) (some (holdValue (s.after z c.toNat))) ∧
      ((∀ v, s.drive.vend = some v → (s.tables.sel v.sel).perishable = false ∨
          (s.tables.sel v.sel).zone ≠ z) → Alters (calmParts ++ dueParts) s t) ∧
      ∀ v, s.drive.vend = some v → (s.tables.sel v.sel).perishable = true →
        (s.tables.sel v.sel).zone = z → t.drive.vend = none ∧
        (v.drop = false → s.credit.inFlight.isSome = true → s.credit.pendingReturn = false →
          t.credit.inFlight = none ∧ t.credit.vendHold = 0 ∧
          t.credit.credit = s.credit.credit + s.credit.vendHold ∧
          Raises s t .vendFailed (some v.sel) (some (pack 0 0 0 3))) := by
  have hbefore := beforeHold_alters (c := c.toNat) hk z.isLt
  have hblen := beforeHold_length (c := c.toNat) hk hlen
  have hroom := beforeHold_room (c := c.toNat) hk
  obtain ⟨hlatch, htimer⟩ := beforeHold_latch (c := c.toNat) hk z.isLt hlen hsampled
  have htake : takeSample z c.toNat s = holdReachesVend z (latched z (beforeHold z c.toNat s)) :=
    (takeSample_zone (by omega) c.toNat s).trans (holdTick_latches (hlatch.trans hfree)
      ((warmAt_beforeHold hk z.isLt).2 hwarm) (by rw [htimer, hbefore .tables (by decide)]; exact hreached))
  have hlatched : Alters calmParts s (latched z (beforeHold z c.toNat s)) :=
    hbefore.seq (rs := calmParts) (latched_alters z _)
  have hvend : (latched z (beforeHold z c.toNat s)).drive.vend = s.drive.vend := hlatched .vendOp (by decide)
  have htables : (latched z (beforeHold z c.toNat s)).tables = s.tables := hlatched .tables (by decide)
  have hzone : (takeSample z c.toNat s).zone z =
      { (beforeHold z c.toNat s).zone z with latched := true, holdTimer := 0 } := by
    rw [htake, holdReachesVend_zone]
    exact setLatch_zone hblen
  have hfinish := finish_alters _ (takeSample_run hrun z c.toNat)
  have hzone' := (zone_congr (hfinish .zones (by decide)) z).trans hzone
  refine completes_ends (exec_zoneHold_begins hrun (by simp [holdBegins, hsampled, hfree, hzone])) hrun
    (takeSample_alters z c.toNat s) (by decide) fun _ => ⟨exec_zoneSample hrun, ?_, ?_, ?_, fun hcalm => ?_,
      fun v hv hperishable hin => ?_⟩
  · rw [hzone']
  · rw [hzone']
  · have hraises : Raises s (finish (takeSample z c.toNat s)) .zoneHold (some z.val)
        (some (holdValue ((beforeHold z c.toNat s).sensor z))) := by
      refine raises_of (u := setLatch z (beforeHold z c.toNat s)) (fun h => Nat.lt_of_le_of_lt (hroom h) (by decide))
        (hbefore .seconds (by decide)) (Extends.trans ?_ (extends_finish (takeSample_run hrun z c.toNat)))
      rw [htake]
      exact extends_growth.holdReachesVend _ _
    rwa [beforeHold_sensor hk] at hraises
  · have hstays : takeSample z c.toNat s = latched z (beforeHold z c.toNat s) := by
      rw [htake]
      refine holdReachesVend_free fun v hv hreaches => ?_
      obtain ⟨hperishable, hin⟩ := hreaches
      rw [htables] at hperishable hin
      rcases hcalm v (hvend.symm.trans hv) with h | h
      · rw [h] at hperishable
        exact absurd hperishable (by decide)
      · exact h hin
    rw [hstays] at hfinish ⊢
    exact hlatched.seq hfinish
  · have hreaches : Reaches z (latched z (beforeHold z c.toNat s)) v := by
      unfold Reaches
      rw [htables]
      exact ⟨hperishable, hin⟩
    refine ⟨Eq.trans (hfinish .vendOp (by decide)) ?_, fun hdrop hfly hpend => ?_⟩
    · rw [htake]
      exact holdReachesVend_vend (hvend.trans hv) hreaches
    · rw [htake, holdReachesVend_fails (hvend.trans hv) hreaches hdrop] at hfinish ⊢
      have hunsettled : Unsettled s (heldSpiral v (latched z (beforeHold z c.toNat s))) := by
        refine .of_alters (hlatched.seq (rs := .spirals :: calmParts) (heldSpiral_alters v _)) fun h => ?_
        rw [heldSpiral_alters v _ .events (by decide)]
        exact (raise_length_le _ _ _ _).trans (Nat.succ_le_succ (hroom h))
      obtain ⟨hhold, hcredit, -⟩ := failed_restored hunsettled hfly hfinish hpend
      exact ⟨failed_inFlight hunsettled hfly hfinish, hhold, hcredit, failed_raises hunsettled hfly hfinish⟩

/-! ### The first sample of a start (R110) -/

theorem sample_of_sampling {s : State} {cause : Cause} (h : s.phase = .sampling cause) (k : Fin 3) (c : BitVec 12) :
    sample k c s = takeSample k c.toNat s := by
  simp [sample, State.samplingOn, h]

theorem advanceSampling_alters (cause : Cause) (s : State) : Alters [.phase, .receiver] s (advanceSampling cause s) := by
  unfold advanceSampling
  split
  · intro p hp; cases p <;> simp_all [Part.same]
  · exact .refl _ _

/-- The record of a sensor at its first sample of a start. -/
theorem after_of_initial {s : State} {z c raw : Nat} (h : s.sensor z = { TempSensor.initial with raw := raw }) :
    (s.after z c).faulted = false ∧ (goodSample c = true → (s.after z c).temp = some (convert s.tables c)) := by
  by_cases hgood : goodSample c = true
  · obtain ⟨hlow, hhigh⟩ := (goodSample_iff c).1 hgood
    simp [State.after, h, TempSensor.after, TempSensor.initial, hlow, hhigh]
  · have hbad : ¬(16 ≤ c ∧ c ≤ 4079) := fun h => hgood ((goodSample_iff c).2 h)
    simp [State.after, h, TempSensor.after, TempSensor.initial, hbad, hgood]

/-- At a cold zone the tick leaves the latch as it is. -/
theorem holdTick_of_cold {z : Nat} {s : State} (hz : z < s.cold.zones.length) (hcold : warmAt s z = false) :
    Alters [.zones] s (holdTick z s) ∧ ((holdTick z s).zone z).latched = (s.zone z).latched := by
  cases h : (s.zone z).latched with
  | true =>
    rw [holdTick_latched h]
    exact ⟨.refl _ _, h⟩
  | false =>
    rw [holdTick_cold h hcold, zone_modZone hz]
    exact ⟨modZone_alters _ _ _, h⟩

/-- A zone at its first sample: its hold latches when it is bad or warm. -/
theorem startCheck_holdTick {z : Nat} {s : State} (hz : z < s.cold.zones.length) (c : Nat) :
    Alters [.zones] s (holdTick z (startCheck z c s)) ∧ (((holdTick z (startCheck z c s)).zone z).latched = true ↔
      (s.zone z).latched = true ∨ goodSample c = false ∨ warmAt s z = true) := by
  by_cases hlatches : goodSample c = false ∨ warmAt s z = true
  · have hcheck : startCheck z c s = setLatch z s := by
      unfold startCheck
      by_cases hgood : goodSample c = true
      · rw [if_pos hgood, if_pos (hlatches.resolve_left (by simp [hgood]))]
      · rw [if_neg hgood]
    have hlatched : ((setLatch z s).zone z).latched = true := by rw [setLatch_zone hz]
    rw [hcheck, holdTick_latched hlatched]
    exact ⟨setLatch_alters z s, fun _ => .inr hlatches, fun _ => hlatched⟩
  · obtain ⟨hgood, hcold⟩ := not_or.1 hlatches
    have hcheck : startCheck z c s = s := by
      unfold startCheck
      rw [if_pos (Bool.not_eq_false _ ▸ hgood), if_neg hcold]
    obtain ⟨hframe, hlatch⟩ := holdTick_of_cold hz (Bool.eq_false_iff.2 hcold)
    rw [hcheck, hlatch]
    exact ⟨hframe, .inl, fun h => h.resolve_right hlatches⟩

/-- A zone sensor's first sample of a start (R110). -/
theorem firstSample_latches {z c raw : Nat} {s : State} (hz : z < 2) (hk : z < s.cold.sensors.length)
    (hlen : z < s.cold.zones.length) (h : s.sensor z = { TempSensor.initial with raw := raw }) :
    Alters calmParts s (takeSample z c s) ∧ (((takeSample z c s).zone z).latched = true ↔
      (s.zone z).latched = true ∨ c < 16 ∨ 4079 < c ∨ (s.tables.zone z).holdLimit < convert s.tables c) := by
  have hfollowed : Alters calmParts s (followed z (judged z c s)) :=
    (judged_alters_zone hk hz).seq (rs := calmParts) (followed_alters z _)
  have hjudged := judged_sensor (c := c) hk z
  rw [if_pos rfl] at hjudged
  have hwarm := warmAt_eq (((followed_alters z _).sensor_eq z).trans hjudged) (hfollowed .tables (by decide))
  have hflen : z < (followed z (judged z c s)).cold.zones.length := by rwa [followed_length, judged_zones_length hk]
  have htake : takeSample z c s = holdTick z (startCheck z c (followed z (judged z c s))) := by
    rw [takeSample_zone (by omega), beforeHold, startChecked, h]
    rfl
  obtain ⟨hframe, hlatch⟩ := startCheck_holdTick hflen c
  obtain ⟨hlatched, -⟩ := followed_latch hk hz hlen (c := c)
  obtain ⟨hgoodSensor, htemp⟩ := after_of_initial (c := c) h
  rw [htake, hlatch, hlatched, hwarm]
  refine ⟨hfollowed.seq hframe, or_congr_right ?_⟩
  by_cases hgood : goodSample c = true
  · obtain ⟨hlow, hhigh⟩ := (goodSample_iff c).1 hgood
    simp [Warm, hgoodSensor, htemp hgood, hgood, Nat.not_lt.2 hlow, Nat.not_lt.2 hhigh]
  · have hbad : c < 16 ∨ 4079 < c := by
      have hnot : ¬(16 ≤ c ∧ c ≤ 4079) := fun h => hgood ((goodSample_iff c).2 h)
      omega
    exact ⟨fun _ => hbad.imp_right .inl, fun _ => .inl (Bool.eq_false_iff.2 hgood)⟩

/-- Settles O43. -/
theorem holdLatchesAtItsTimeAndEndsAVend : Obligations.HoldLatchesAtItsTimeAndEndsAVend := by
  intro z c s hsensors hzones
  have hk : z.val < s.cold.sensors.length := by omega
  have hlen : z.val < s.cold.zones.length := by omega
  have hz : z.val ≠ 2 := by omega
  have hbefore := beforeHold_alters (c := c.toNat) hk z.isLt
  have htables : (beforeHold z c.toNat s).tables = s.tables := hbefore .tables (by decide)
  have hwarmth := warmAt_beforeHold (c := c.toNat) hk z.isLt
  have hblen := beforeHold_length (c := c.toNat) hk hlen
  refine ⟨fun hrun hsampled => ?_, fun cause hphase hinitial => ?_⟩
  · obtain ⟨hlatch, htimer⟩ := beforeHold_latch (c := c.toNat) hk z.isLt hlen hsampled
    refine ⟨fun hheld => ?_, fun hfree => ⟨fun hcold => ?_, fun hwarm hbelow => ?_, fun hwarm hreached => ?_⟩⟩
    · have htake := (takeSample_zone hz c.toNat s).trans (holdTick_latched (hlatch.trans hheld))
      refine zoneSample_completes hrun ?_ ?_ ?_ (.inl hheld) <;> rw [htake]
      · exact hbefore
      · exact hlatch.trans hheld
      · exact htimer
    · have htake := (takeSample_zone hz c.toNat s).trans (holdTick_cold (hlatch.trans hfree)
        (Bool.eq_false_iff.2 fun h => hcold (hwarmth.1 h)))
      refine zoneSample_completes hrun ?_ ?_ ?_ (.inr rfl) <;> rw [htake]
      · exact hbefore.seq (rs := calmParts) (modZone_alters _ _ _)
      · rw [zone_modZone hblen]
        exact hlatch.trans hfree
      · rw [zone_modZone hblen]
    · have htake := (takeSample_zone hz c.toNat s).trans (holdTick_warm (hlatch.trans hfree) (hwarmth.2 hwarm)
        (by rw [htimer, htables]; exact hbelow))
      refine zoneSample_completes hrun ?_ ?_ ?_ (.inr rfl) <;> rw [htake]
      · exact hbefore.seq (rs := calmParts) (modZone_alters _ _ _)
      · rw [zone_modZone hblen]
        exact hlatch.trans hfree
      · rw [zone_modZone hblen, htimer]
    · exact zoneHold_latches hrun hk hlen hsampled hfree hwarm hreached
  · obtain ⟨hparts, hlatch⟩ := firstSample_latches (c := c.toNat) z.isLt hk hlen hinitial
    have hphase' : (takeSample z c.toNat s).phase = .sampling cause := Eq.trans (hparts .phase (by decide)) hphase
    have hfinish : finish (takeSample z c.toNat s) = advanceSampling cause (takeSample z c.toNat s) := by
      unfold finish
      rw [hphase']
    have hframe := advanceSampling_alters cause (takeSample z c.toNat s)
    rw [← hfinish] at hframe
    refine ⟨_, next_finish (sample_of_sampling hphase (z.castLE (by decide)) c), hparts.seq hframe, ?_⟩
    exact (iff_of_eq (congrArg (fun r : ZoneState => r.latched = true) (zone_congr (hframe .zones (by decide)) z))).trans hlatch

end Sys2Proof.Machine
end

