-- ==== Sys2Proof/Proofs/Evaporator.lean ====
section
/-! The evaporator's samples: the heater-on time, the run time, and the defrosts they begin and end (R105, R106, R108). -/

/- One lemma after another, to keep the memory of a compile small. -/
set_option Elab.async false

namespace Sys2Proof.Machine

/-- What an evaporator sample changes. -/
def evaporatorParts : List Part := [.sensors, .compressor, .defrost, .grants, .events]

theorem recorded_heater (c : Nat) (s : State) : (recorded 2 c s).cold.heaterOn = s.cold.heaterOn + (if s.cold.heater then 1 else 0) ∧
    (recorded 2 c s).cold.heater = s.cold.heater ∧ (recorded 2 c s).cold.pendingDefrost = s.cold.pendingDefrost ∧
    (recorded 2 c s).cold.runSince = s.cold.runSince := by
  have hticked : (ticked 2 s).cold.heaterOn = s.cold.heaterOn + (if s.cold.heater then 1 else 0) ∧
      (ticked 2 s).cold.heater = s.cold.heater ∧ (ticked 2 s).cold.pendingDefrost = s.cold.pendingDefrost ∧
      (ticked 2 s).cold.runSince = s.cold.runSince := by
    unfold ticked heaterTick
    rw [if_pos rfl]
    cases h : s.cold.heater <;> exact ⟨rfl, h, rfl, rfl⟩
  exact hticked

section
variable {c : Nat} {s : State} (hk : 2 < s.cold.sensors.length)
include hk

theorem judged_alters_evaporator : Alters [.sensors, .defrost, .events] s (judged 2 c s) := by
  refine judged_induction hk (recorded_alters 2 c s).mono (fun v => ?_) fun v => ?_
  · exact (recorded_alters 2 c s).seq (rs := [.sensors, .defrost, .events]) (raise_alters _ _ _ _)
  · exact (recorded_alters 2 c s).seq (rs := [.sensors, .defrost, .events]) (raise_alters _ _ _ _)

theorem judged_heater : (judged 2 c s).cold.heaterOn = s.cold.heaterOn + (if s.cold.heater then 1 else 0) ∧
    (judged 2 c s).cold.heater = s.cold.heater ∧ (judged 2 c s).cold.pendingDefrost = s.cold.pendingDefrost ∧
    (judged 2 c s).cold.runSince = s.cold.runSince := by
  obtain ⟨-, hpending, hrun, hon, hheater⟩ := judged_from_recorded (c := c) hk .defrost (by decide)
  obtain ⟨hon', hheater', hpending', hrun'⟩ := recorded_heater c s
  exact ⟨hon.trans hon', hheater.trans hheater', hpending.trans hpending', hrun.trans hrun'⟩

theorem judged_state : (judged 2 c s).cold.state = s.cold.state := by
  obtain ⟨hstate, -⟩ := judged_alters_evaporator (c := c) hk .compressor (by decide)
  exact hstate

theorem judged_room (h : s.events.queue.length ≤ 28) : (judged 2 c s).events.queue.length ≤ 29 := by
  have hrecorded : (recorded 2 c s).events = s.events := recorded_alters 2 c s .events (by decide)
  have hraised (k : EventKind) (v : Option Word32) : (raise k (some 2) v (recorded 2 c s)).events.queue.length ≤ 29 := by
    refine (raise_length_le _ _ _ _).trans ?_
    rw [hrecorded]
    omega
  refine judged_induction (P := fun t => t.events.queue.length ≤ 29) hk (by rw [hrecorded]; omega) (fun v => ?_) fun v => ?_
  · exact hraised .sensorFault v
  · exact hraised .sensorOk v

/-- The evaporator is good and warm enough to end a defrost (R106). -/
theorem evaporatorWarm_judged : evaporatorWarm (judged 2 c s) = true ↔ (s.after 2 c).faulted = false ∧
    ∃ f, (s.after 2 c).temp = some f ∧ s.tables.refrig.defrostEndTemp ≤ f := by
  have hsensor := judged_sensor (c := c) hk 2
  rw [if_pos rfl] at hsensor
  have htables : (judged 2 c s).tables = s.tables := judged_alters_evaporator hk .tables (by decide)
  unfold evaporatorWarm
  rw [hsensor, htables]
  cases h : (s.after 2 c).temp with
  | none => simp
  | some f => simp

end

/-! ### The tests of the tick (R105, R106) -/

theorem intervalTick_off {s : State} (h : s.cold.state = .defrost ∨ s.cold.state = .drip) : intervalTick s = s := by
  unfold intervalTick
  rcases h with h | h <;> simp [h, CompState.mayDefrost]

theorem defrostTests_off {s : State} (h : s.cold.state ≠ .defrost) : defrostTests s = s := if_neg h

/-- The run time as it grows at a tick (R105). -/
def grown (s : State) : State :=
  if s.cold.state = .starting ∨ s.cold.state = .running then
    { s with cold.runSince := min 4294967295 (s.cold.runSince + 1) } else s

theorem grown_alters (s : State) : Alters [.defrost] s (grown s) := by
  unfold grown
  split
  · intro p hp; cases p <;> simp_all [Part.same]
  · exact .refl _ _

theorem intervalTick_eq (s : State) : intervalTick s =
    if s.cold.state.mayDefrost then
      if s.cold.pendingDefrost then beginDefrost .request (grown s)
      else if s.tables.refrig.defrostInterval ≤ (grown s).cold.runSince then beginDefrost .interval (grown s)
      else grown s
    else grown s := by
  obtain ⟨hstate, -⟩ := grown_alters s .compressor (by decide)
  have htables : (grown s).tables = s.tables := grown_alters s .tables (by decide)
  have hpending : (grown s).cold.pendingDefrost = s.cold.pendingDefrost := by
    unfold grown
    split <;> rfl
  rw [← hstate, ← htables, ← hpending]
  rfl

/-- The defrost's end, and the load that leaves the sets with it (R106). -/
theorem endDefrost_cold (cause : Nat) (s : State) :
    (endDefrost cause s).cold.state = .drip ∧ (endDefrost cause s).cold.heater = false ∧
    (endDefrost cause s).cold.heaterOn = s.cold.heaterOn ∧
    (endDefrost cause s).cold.dripTimer = some s.tables.refrig.dripMs := by
  simp [endDefrost]

theorem endDefrost_not_asked (cause : Nat) (s : State) : ¬(endDefrost cause s).supply.asked .heater := by
  have hdrop : ¬(drop .heater { s with cold.heater := false, cold.state := .drip }).supply.asked .heater := by
    simp [Supply.asked, drop, has_put]
  exact not_asked_grantRule hdrop

/-- The event of a defrost's end. -/
theorem endDefrost_eq (cause : Nat) (s : State) : ∃ u, u.events = s.events ∧ u.seconds = s.seconds ∧
    endDefrost cause s = raise .defrostEnd none
      (some (pack cause (s.cold.heaterOn / 65536) (s.cold.heaterOn / 256) s.cold.heaterOn)) u :=
  ⟨{ release .heater { s with cold.heater := false, cold.state := .drip } with
    cold.dripTimer := some s.tables.refrig.dripMs }, rfl, rfl, rfl⟩

/-- A defrost that stops a running compressor leaves COMP_RUN (R105). -/
theorem beginDefrost_compRun {cause : DefrostCause} {s : State} (h : s.cold.state = .running) :
    (beginDefrost cause s).supply.granted.compRun = false := by
  have hleft : leaveForDefrost s = release .compRun (lockOff s) := by simp only [leaveForDefrost, h]
  have hreleased : (release .compRun (lockOff s)).supply.granted.compRun = false := (grantRule_run _).1
  unfold beginDefrost
  rw [hleft]
  unfold request
  rw [raise_supply]
  split
  · exact hreleased
  · exact (grantRule_run _).1.trans hreleased

/-! ### A sample in normal operation -/

theorem takeSample_evaporator (c : Nat) (s : State) : takeSample 2 c s = intervalTick (defrostTests (judged 2 c s)) := rfl

section
variable {c : Nat} {s : State} (hk : 2 < s.cold.sensors.length)
include hk

theorem judged_grown : (grown (judged 2 c s)).cold.runSince =
    if s.cold.state = .starting ∨ s.cold.state = .running then min 4294967295 (s.cold.runSince + 1)
    else s.cold.runSince := by
  obtain ⟨-, -, -, hsince⟩ := judged_heater (c := c) hk
  unfold grown
  rw [judged_state hk]
  split
  · rw [← hsince]
  · exact hsince

theorem takeSample_before_defrost (hstate : s.cold.state ≠ .defrost) :
    takeSample 2 c s = intervalTick (judged 2 c s) := by
  rw [takeSample_evaporator, defrostTests_off (by rwa [judged_state hk])]

theorem grown_judged_alters : Alters [.sensors, .defrost, .events] s (grown (judged 2 c s)) :=
  (judged_alters_evaporator (c := c) hk).seq (rs := [.sensors, .defrost, .events]) (grown_alters _)

end

theorem takeSample_alters_evaporator {c : Nat} {s : State} (hk : 2 < s.cold.sensors.length) :
    Alters evaporatorParts s (takeSample 2 c s) :=
  ((judged_alters_evaporator (c := c) hk).seq (rs := evaporatorParts) (defrostTests_alters _)).seq
    (intervalTick_alters _)

section
variable {c : BitVec 12} {s : State} (hrun : s.phase = .run) (hk : 2 < s.cold.sensors.length)
include hrun

theorem exec_evaporator : exec (.temperatureSample 2 c) s = .next (finish (takeSample 2 c.toNat s)) := exec_sample hrun

theorem exec_defrostEnd : exec (.defrostEnd c) s =
    .next (finish (if defrostEnds s (takeSample 2 c.toNat s) then takeSample 2 c.toNat s else s)) :=
  next_finish (sampleWhen_of_run (k := 2) hrun _)

theorem exec_defrostInterval : exec (.defrostInterval c) s =
    .next (finish (if intervalReached s (takeSample 2 c.toNat s) then takeSample 2 c.toNat s else s)) :=
  next_finish (sampleWhen_of_run (k := 2) hrun _)

include hk

/-- The sample that ends a defrost, with its cause (R106). -/
theorem defrost_ends {cause : Nat} (hstate : s.cold.state = .defrost)
    (hends : defrostTests (judged 2 c.toNat s) = endDefrost cause (judged 2 c.toNat s)) :
    let on := s.cold.heaterOn + if s.cold.heater then 1 else 0
    Completes (.defrostEnd c) s evaporatorParts fun t =>
      exec (.temperatureSample 2 c) s = .next t ∧ t.cold.state = .drip ∧ t.cold.heater = false ∧
      t.cold.heaterOn = on ∧ t.cold.dripTimer = some s.tables.refrig.dripMs ∧
      t.supply.granted.heater = false ∧ t.supply.waiting.heater = false ∧
      Raises s t .defrostEnd none (some (pack cause (on / 65536) (on / 256) on)) := by
  obtain ⟨hdrip, hheater, hon, htimer⟩ := endDefrost_cold cause (judged 2 c.toNat s)
  obtain ⟨hjon, -, -, -⟩ := judged_heater (c := c.toNat) hk
  have hjudged := judged_alters_evaporator (c := c.toNat) hk
  have htake : takeSample 2 c.toNat s = endDefrost cause (judged 2 c.toNat s) := by
    rw [takeSample_evaporator, hends, intervalTick_off (.inr hdrip)]
  have hphase := takeSample_run hrun 2 c.toNat
  have hexec : exec (.defrostEnd c) s = .next (finish (takeSample 2 c.toNat s)) :=
    (exec_defrostEnd hrun).trans (next_finish (if_pos (by simp [defrostEnds, hstate, htake, hdrip])))
  refine completes_ends hexec hrun (takeSample_alters_evaporator hk) (by decide) fun h => ?_
  obtain ⟨hstate', -⟩ := h.frame .compressor (by decide)
  obtain ⟨htimer', -, -, hon', hheater'⟩ := h.frame .defrost (by decide)
  have hasked := not_asked_finish (x := .heater) (by decide) hphase
    (by rw [htake]; exact endDefrost_not_asked cause (judged 2 c.toNat s))
  obtain ⟨hgranted, hwaiting⟩ := not_or.1 hasked
  refine ⟨exec_evaporator hrun, ?_, ?_, ?_, ?_, Bool.eq_false_iff.2 hgranted, Bool.eq_false_iff.2 hwaiting, ?_⟩
  · rw [hstate', htake, hdrip]
  · rw [hheater', htake, hheater]
  · rw [hon', htake, hon, hjon]
  · rw [htimer', htake, htimer, hjudged .tables (by decide)]
  · obtain ⟨u, hevents, hseconds, heq⟩ := endDefrost_eq cause (judged 2 c.toNat s)
    rw [hjon] at heq
    refine raises_of (u := u) (fun hlen => ?_) (hseconds.trans (hjudged .seconds (by decide))) ?_
    · rw [hevents]
      exact Nat.lt_of_le_of_lt (judged_room hk hlen) (by decide)
    · rw [← heq, ← htake]
      exact extends_finish hphase

/-- The sample that goes on with a defrost. -/
theorem defrost_goes_on (hstate : s.cold.state = .defrost)
    (hstays : defrostTests (judged 2 c.toNat s) = judged 2 c.toNat s) :
    exec (.defrostEnd c) s = .next (finish s) ∧
    Completes (.temperatureSample 2 c) s evaporatorParts fun t => t.cold.state = .defrost ∧
      t.cold.heaterOn = (s.cold.heaterOn + if s.cold.heater then 1 else 0) ∧ t.cold.heater = s.cold.heater := by
  obtain ⟨hon, hheater, -, -⟩ := judged_heater (c := c.toNat) hk
  have hjstate := (judged_state (c := c.toNat) hk).trans hstate
  have htake : takeSample 2 c.toNat s = judged 2 c.toNat s := by
    rw [takeSample_evaporator, hstays, intervalTick_off (.inl hjstate)]
  refine ⟨(exec_defrostEnd hrun).trans (next_finish (if_neg ?_)),
    completes_ends (exec_evaporator hrun) hrun (takeSample_alters_evaporator hk) (by decide) fun h => ?_⟩
  · simp [defrostEnds, htake, hjstate]
  · obtain ⟨hstate', -⟩ := h.frame .compressor (by decide)
    obtain ⟨-, -, -, hon', hheater'⟩ := h.frame .defrost (by decide)
    rw [hstate', hon', hheater', htake]
    exact ⟨hjstate, hon, hheater⟩

/-! ### The interval (R105) -/

/-- The sample that begins a defrost, with its cause. -/
theorem defrost_begins {cause : DefrostCause} (hstate : s.cold.state ≠ .defrost)
    (hbegins : intervalTick (judged 2 c.toNat s) = beginDefrost cause (grown (judged 2 c.toNat s))) :
    Completes (.defrostInterval c) s evaporatorParts fun t => exec (.temperatureSample 2 c) s = .next t ∧
      t.cold.state = .defrost ∧ t.cold.runSince = 0 ∧ t.cold.heaterOn = 0 ∧
      t.cold.pendingDefrost = false ∧ t.supply.asked .heater ∧
      (s.cold.state = .running → t.cold.relay = false ∧ t.cold.offTimer = some s.tables.refrig.minOffMs ∧
        t.supply.granted.compRun = false) ∧
      Raises s t .defrostBegin none (val cause.code) := by
  have htake := (takeSample_before_defrost hk (c := c.toNat) hstate).trans hbegins
  have hgrown := grown_judged_alters hk (c := c.toNat)
  obtain ⟨hgstate, -⟩ := hgrown .compressor (by decide)
  obtain ⟨hdefrost, hsince, hon, hpending, hstops⟩ := beginDefrost_cold cause (grown (judged 2 c.toNat s))
  have hphase := takeSample_run hrun 2 c.toNat
  have hexec : exec (.defrostInterval c) s = .next (finish (takeSample 2 c.toNat s)) :=
    (exec_defrostInterval hrun).trans (next_finish (if_pos (by
      simp [intervalReached, defrostBegins, hstate, htake, hdefrost])))
  refine completes_ends hexec hrun (takeSample_alters_evaporator hk) (by decide) fun h => ?_
  obtain ⟨hstate', hoff', -, -, hrelay'⟩ := h.frame .compressor (by decide)
  obtain ⟨-, hpending', hsince', hon', -⟩ := h.frame .defrost (by decide)
  refine ⟨exec_evaporator hrun, ?_, ?_, ?_, ?_, ?_, fun hrunning => ?_, ?_⟩
  · rw [hstate', htake, hdefrost]
  · rw [hsince', htake, hsince]
  · rw [hon', htake, hon]
  · rw [hpending', htake, hpending]
  · exact h.asked _ (by rw [htake]; exact beginDefrost_asked cause _)
  · obtain ⟨hrelay, hoff⟩ := hstops (hgstate.trans hrunning)
    refine ⟨by rw [hrelay', htake, hrelay], by rw [hoff', htake, hoff, hgrown .tables (by decide)], ?_⟩
    rw [compRun_finish hphase, htake]
    exact beginDefrost_compRun (hgstate.trans hrunning)
  · have hevents := beginDefrost_events cause (grown (judged 2 c.toNat s))
    refine Raises.after (u := takeSample 2 c.toNat s) (fun hlen => ?_) (extends_finish hphase)
    rw [htake, hevents, Events.place_of_room]
    · refine List.mem_append_right _ (List.mem_singleton.2 ?_)
      rw [hgrown .seconds (by decide)]
    · rw [grown_alters _ .events (by decide)]
      exact Nat.lt_of_le_of_lt (judged_room hk hlen) (by decide)

/-- The sample of a run that goes on. -/
theorem interval_goes_on (hstate : s.cold.state ≠ .defrost)
    (hgoes : intervalTick (judged 2 c.toNat s) = grown (judged 2 c.toNat s)) :
    Completes (.temperatureSample 2 c) s evaporatorParts fun t => t.cold.state = s.cold.state ∧
      t.cold.runSince = if s.cold.state = .starting ∨ s.cold.state = .running then min 4294967295 (s.cold.runSince + 1)
        else s.cold.runSince := by
  have htake := (takeSample_before_defrost hk (c := c.toNat) hstate).trans hgoes
  obtain ⟨hgstate, -⟩ := grown_judged_alters hk (c := c.toNat) .compressor (by decide)
  refine completes_ends (exec_evaporator hrun) hrun (takeSample_alters_evaporator hk) (by decide) fun h => ?_
  obtain ⟨hstate', -⟩ := h.frame .compressor (by decide)
  obtain ⟨-, -, hsince', -⟩ := h.frame .defrost (by decide)
  rw [hstate', hsince', htake]
  exact ⟨hgstate, judged_grown hk⟩

end

theorem mayDefrost_of {x : CompState} (h : x = .lockedOff ∨ x = .idle ∨ x = .awaitGrant ∨ x = .running) :
    x.mayDefrost = true ∧ x ≠ .defrost ∧ x ≠ .starting := by
  rcases h with rfl | rfl | rfl | rfl <;> decide

/-- The sample's tick in the states that a defrost may begin from (R105). -/
theorem interval_completes {c : BitVec 12} {s : State} (hrun : s.phase = .run) (hk : 2 < s.cold.sensors.length)
    (hfrom : s.cold.state = .lockedOff ∨ s.cold.state = .idle ∨ s.cold.state = .awaitGrant ∨ s.cold.state = .running) :
    let grown := min 4294967295 (s.cold.runSince + 1)
    let run := if s.cold.state = .running then grown else s.cold.runSince
    (s.cold.pendingDefrost = true ∨ s.tables.refrig.defrostInterval ≤ run →
      Completes (.defrostInterval c) s evaporatorParts fun t => exec (.temperatureSample 2 c) s = .next t ∧
        t.cold.state = .defrost ∧ t.cold.runSince = 0 ∧ t.cold.heaterOn = 0 ∧
        t.cold.pendingDefrost = false ∧ t.supply.asked .heater ∧
        (s.cold.state = .running → t.cold.relay = false ∧ t.cold.offTimer = some s.tables.refrig.minOffMs ∧
          t.supply.granted.compRun = false) ∧
        Raises s t .defrostBegin none (val (if s.cold.pendingDefrost then 1 else 0))) ∧
    (s.cold.pendingDefrost = false → run < s.tables.refrig.defrostInterval →
      exec (.defrostInterval c) s = .next (finish s) ∧
      Completes (.temperatureSample 2 c) s evaporatorParts fun t => t.cold.state = s.cold.state ∧
        t.cold.runSince = run) := by
  obtain ⟨hmay, hdefrost, hstarting⟩ := mayDefrost_of hfrom
  obtain ⟨-, -, hpending, -⟩ := judged_heater (c := c.toNat) hk
  have htables : (judged 2 c.toNat s).tables = s.tables := judged_alters_evaporator hk .tables (by decide)
  have hsince := judged_grown (c := c.toNat) hk
  simp only [hstarting, false_or] at hsince
  have htick := intervalTick_eq (judged 2 c.toNat s)
  rw [judged_state hk, if_pos hmay, hpending, htables, hsince] at htick
  refine ⟨fun h => ?_, fun hnone hbelow => ?_⟩
  · cases hp : s.cold.pendingDefrost with
    | true =>
      rw [hp, if_pos rfl] at htick
      exact defrost_begins hrun hk hdefrost htick
    | false =>
      rw [hp, if_neg (by decide), if_pos (h.resolve_left (by simp [hp]))] at htick
      exact defrost_begins hrun hk hdefrost htick
  · rw [hnone, if_neg (by decide), if_neg (Nat.not_le.2 hbelow)] at htick
    have hgoes := interval_goes_on hrun hk hdefrost htick
    simp only [hstarting, false_or] at hgoes
    refine ⟨(exec_defrostInterval hrun).trans (next_finish (if_neg ?_)), hgoes⟩
    have hstate : (takeSample 2 c.toNat s).cold.state = s.cold.state := by
      obtain ⟨hgstate, -⟩ := grown_judged_alters hk (c := c.toNat) .compressor (by decide)
      rw [takeSample_before_defrost hk hdefrost, htick, hgstate]
    simp [intervalReached, defrostBegins, hstate, hdefrost, hstarting]

/-- Settles O44: the tick by the compressor's state. -/
theorem evaporatorSamplesBeginAndEndDefrost : Obligations.EvaporatorSamplesBeginAndEndDefrost := by
  intro c s hrun hlen
  have hk : 2 < s.cold.sensors.length := by omega
  have hwarm := evaporatorWarm_judged (c := c.toNat) hk
  have htables : (judged 2 c.toNat s).tables = s.tables := judged_alters_evaporator hk .tables (by decide)
  obtain ⟨hon, -, -, -⟩ := judged_heater (c := c.toNat) hk
  refine ⟨fun hstate => ⟨fun h => ?_, fun hcold hbelow => ?_⟩, interval_completes hrun hk, fun hstate => ?_, fun hstate => ?_⟩
  · have htests : defrostTests (judged 2 c.toNat s) = if evaporatorWarm (judged 2 c.toNat s) then
          endDefrost 0 (judged 2 c.toNat s)
        else if (judged 2 c.toNat s).tables.refrig.maxDefrost ≤ (judged 2 c.toNat s).cold.heaterOn then
          endDefrost 1 (judged 2 c.toNat s) else judged 2 c.toNat s := if_pos ((judged_state hk).trans hstate)
    by_cases hw : evaporatorWarm (judged 2 c.toNat s) = true
    · rw [if_pos hw] at htests
      obtain ⟨t, hexec, hframe, hsample, hdrip, hheater, hont, htimer, hgranted, hwaiting, hraises⟩ :=
        defrost_ends hrun hk hstate htests
      exact ⟨t, hexec, hframe, hsample, hdrip, hheater, hont, htimer, hgranted, hwaiting, fun _ => hraises,
        fun hnot => absurd (hwarm.1 hw) hnot⟩
    · rw [if_neg hw, if_pos (by rw [htables, hon]; exact h.resolve_left fun hc => hw (hwarm.2 hc))] at htests
      obtain ⟨t, hexec, hframe, hsample, hdrip, hheater, hont, htimer, hgranted, hwaiting, hraises⟩ :=
        defrost_ends hrun hk hstate htests
      exact ⟨t, hexec, hframe, hsample, hdrip, hheater, hont, htimer, hgranted, hwaiting,
        fun hc => absurd (hwarm.2 hc) hw, fun _ => hraises⟩
  · refine defrost_goes_on hrun hk hstate ?_
    unfold defrostTests
    rw [if_pos ((judged_state hk).trans hstate), if_neg fun hw => hcold (hwarm.1 hw),
      if_neg (by rw [htables, hon]; exact Nat.not_le.2 hbelow)]
  · have hdefrost : s.cold.state ≠ .defrost := by rw [hstate]; decide
    have htick := intervalTick_eq (judged 2 c.toNat s)
    rw [judged_state hk, hstate, if_neg (by decide)] at htick
    have hgoes := interval_goes_on hrun hk hdefrost htick
    simp only [hstate, true_or, if_true] at hgoes
    have hsince := judged_grown (c := c.toNat) hk
    rw [if_pos (.inl hstate)] at hsince
    have htake := (takeSample_before_defrost (c := c.toNat) hk hdefrost).trans htick
    have hgstate : (grown (judged 2 c.toNat s)).cold.state = .starting := by
      obtain ⟨hgstate, -⟩ := grown_judged_alters hk (c := c.toNat) .compressor (by decide)
      exact hgstate.trans hstate
    have hgtables : (grown (judged 2 c.toNat s)).tables = s.tables :=
      grown_judged_alters hk (c := c.toNat) .tables (by decide)
    have hreached : intervalReached s (takeSample 2 c.toNat s) =
        decide (s.tables.refrig.defrostInterval ≤ min 4294967295 (s.cold.runSince + 1)) := by
      simp [intervalReached, defrostBegins, htake, hgstate, hgtables, hsince]
    refine ⟨hgoes, fun h => ?_, fun h => ?_⟩
    · exact ((exec_defrostInterval hrun).trans (next_finish (if_pos (by rw [hreached]; exact decide_eq_true h)))).trans
        (exec_evaporator hrun).symm
    · refine (exec_defrostInterval hrun).trans (next_finish (if_neg ?_))
      rw [hreached, decide_eq_true_iff]
      exact Nat.not_le.2 h
  · have hdefrost : s.cold.state ≠ .defrost := by rw [hstate]; decide
    have htick := intervalTick_eq (judged 2 c.toNat s)
    rw [judged_state hk, hstate, if_neg (by decide)] at htick
    have hgoes := interval_goes_on hrun hk hdefrost htick
    simp only [hstate, reduceCtorEq, or_self, if_false] at hgoes
    exact hgoes

end Sys2Proof.Machine
end

