-- ==== Sys2Proof/Proofs/ChangePlans.lean ====
section
/-! The change plan: the six tubes in order, greedy takes, and the backoff's first exact trial (R39 to R42). -/

/- One lemma after another, to keep the memory of a compile small. -/
set_option Elab.async false

namespace Sys2Proof.Machine

/-! ### Plan order (R39) -/

/-- A tube stands before another in plan order. -/
def Before (a b : PlanTube) : Prop := b.value < a.value ∨ (a.value = b.value ∧
  (b.usable < a.usable ∨ (a.usable = b.usable ∧ a.tube < b.tube)))

theorem before_iff (a b : PlanTube) : a.before b = true ↔ Before a b := by
  simp [PlanTube.before, Before]

theorem Before.trans {a b c : PlanTube} (h1 : Before a b) (h2 : Before b c) : Before a c := by
  unfold Before at *
  omega

theorem Before.of_not {a b : PlanTube} (h : ¬Before a b) (hne : a.tube ≠ b.tube) : Before b a := by
  unfold Before at *
  omega

theorem insertTube_perm (a : PlanTube) (l : List PlanTube) : (insertTube a l).Perm (a :: l) := by
  induction l with
  | nil => exact .refl _
  | cons b l ih =>
    unfold insertTube
    split
    · exact .refl _
    · exact (ih.cons b).trans (.swap a b l)

theorem insertTube_sorted {a : PlanTube} {l : List PlanTube} (hl : l.Pairwise Before) (ha : ∀ b ∈ l, a.tube ≠ b.tube) :
    (insertTube a l).Pairwise Before := by
  induction l with
  | nil => exact List.pairwise_singleton _ _
  | cons b l ih =>
    obtain ⟨hb, hl⟩ := List.pairwise_cons.1 hl
    unfold insertTube
    split
    next h =>
      have hab := (before_iff a b).1 h
      exact List.pairwise_cons.2 ⟨fun x hx => (List.mem_cons.1 hx).elim (fun hxb => hxb ▸ hab) fun hxl => hab.trans (hb x hxl),
        List.pairwise_cons.2 ⟨hb, hl⟩⟩
    next h =>
      have hba := Before.of_not (fun hab => h ((before_iff a b).2 hab)) (ha b List.mem_cons_self)
      refine List.pairwise_cons.2 ⟨fun x hx => ?_, ih hl fun x hx => ha x (List.mem_cons_of_mem b hx)⟩
      rcases List.mem_cons.1 ((insertTube_perm a l).subset hx) with hxa | hxl
      · exact hxa ▸ hba
      · exact hb x hxl

/-- A tube as the plan sees it. -/
def planTube (s : State) (n : Nat) : PlanTube := { tube := n, value := s.tables.tubeValue n, usable := usableCount s n }

/-- Some tubes in plan order. -/
def orderedTubes (s : State) (l : List Nat) : List PlanTube := l.foldr (fun n ts => insertTube (planTube s n) ts) []

theorem orderedTubes_perm (s : State) (l : List Nat) : (orderedTubes s l).Perm (l.map (planTube s)) := by
  induction l with
  | nil => exact .refl _
  | cons n l ih => exact (insertTube_perm _ _).trans (ih.cons _)

theorem orderedTubes_sorted (s : State) {l : List Nat} (hl : l.Nodup) : (orderedTubes s l).Pairwise Before := by
  induction l with
  | nil => exact .nil
  | cons n l ih =>
    obtain ⟨hn, hl⟩ := List.nodup_cons.1 hl
    refine insertTube_sorted (ih hl) fun b hb => ?_
    obtain ⟨m, hm, rfl⟩ := List.mem_map.1 ((orderedTubes_perm s l).subset hb)
    exact fun h => hn ((show n = m from h) ▸ hm)

theorem planTubes_eq (s : State) : planTubes s = orderedTubes s (List.range 6) := rfl

theorem planTubes_perm (s : State) : (planTubes s).Perm ((List.range 6).map (planTube s)) := orderedTubes_perm s _

theorem planTubes_sorted (s : State) : (planTubes s).Pairwise Before := orderedTubes_sorted s List.nodup_range

theorem planTubes_tubes (s : State) : ((planTubes s).map (·.tube)).Perm (List.range 6) := by
  have h := (planTubes_perm s).map (·.tube)
  rwa [List.map_map, show (·.tube) ∘ planTube s = id from rfl, List.map_id] at h

theorem planTubes_length (s : State) : (planTubes s).length = 6 := by
  simpa using (planTubes_perm s).length_eq

theorem eq_planTube {s : State} {p : PlanTube} (h : p ∈ planTubes s) : p = planTube s p.tube := by
  obtain ⟨n, -, rfl⟩ := List.mem_map.1 ((planTubes_perm s).subset h)
  rfl

/-! ### Takes and what they pay (R40) -/

/-- What takes pay from the tubes in order. -/
def pays : List PlanTube → List Nat → Nat
  | p :: ps, t :: ts => t * p.value + pays ps ts
  | _, _ => 0

/-- No take exceeds its tube's usable count. -/
def Within (ps : List PlanTube) (ts : List Nat) : Prop := List.Forall₂ (fun p t => t ≤ p.usable) ps ts

theorem greedy_within (ps : List PlanTube) (r : Nat) : Within ps (greedy ps r).1 := by
  induction ps generalizing r with
  | nil => exact .nil
  | cons p ps ih => exact .cons (Nat.min_le_right _ _) (ih _)

theorem take_le (p : PlanTube) (r : Nat) : min (r / p.value) p.usable * p.value ≤ r :=
  (Nat.mul_le_mul_right _ (Nat.min_le_left _ _)).trans (Nat.div_mul_le_self r p.value)

theorem greedy_pays (ps : List PlanTube) (r : Nat) : pays ps (greedy ps r).1 + (greedy ps r).2 = r := by
  induction ps generalizing r with
  | nil => exact Nat.zero_add r
  | cons p ps ih =>
    have hrest := ih (r - min (r / p.value) p.usable * p.value)
    have hle := take_le p r
    show min (r / p.value) p.usable * p.value + pays ps _ + (greedy ps _).2 = r
    omega

/-- A tube left with a usable coin has a value above the residual. -/
theorem greedy_residual (ps : List PlanTube) (r : Nat) :
    List.Forall₂ (fun p t => t < p.usable → 0 < p.value → (greedy ps r).2 < p.value) ps (greedy ps r).1 := by
  induction ps generalizing r with
  | nil => exact .nil
  | cons p ps ih =>
    refine .cons (fun htake hvalue => ?_) (ih _)
    have hle : (greedy ps (r - min (r / p.value) p.usable * p.value)).2 ≤ r - min (r / p.value) p.usable * p.value := by
      have := greedy_pays ps (r - min (r / p.value) p.usable * p.value)
      omega
    have hall : min (r / p.value) p.usable = r / p.value := by omega
    have hmod := Nat.mod_lt r hvalue
    have hdiv := Nat.div_add_mod' r p.value
    refine Nat.lt_of_le_of_lt hle ?_
    rw [hall]
    omega

/-! ### The backoff (R41) -/

section
variable (ps : List PlanTube) (ts : List Nat) (r : Nat)

/-- A trial is formed for tube `i` and `d` coins fewer. -/
def Formed (i d : Nat) : Prop := i < ts.length ∧ 1 ≤ d ∧ d ≤ min (ts.getD i 0) 4

/-- The trial: the tubes after `i` are greedy on what is left of the amount. -/
def trialOf (i d : Nat) : List Nat × Nat :=
  greedy (ps.drop (i + 1))
    (r - (((List.range i).map fun j => ts.getD j 0 * (ps.map (·.value)).getD j 0).sum +
      (ts.getD i 0 - d) * (ps.map (·.value)).getD i 0))

/-- The takes of a plan that follows the trial. -/
def trialTakes (i d : Nat) : List Nat := ts.take i ++ (ts.getD i 0 - d) :: (trialOf ps ts r i d).1

/-- An exact trial before which none is exact. -/
def FirstExact (i d : Nat) : Prop := Formed ts i d ∧ (trialOf ps ts r i d).2 = 0 ∧
  ∀ j e, Formed ts j e → j < i ∨ (j = i ∧ e < d) → (trialOf ps ts r j e).2 ≠ 0

end

theorem trialOf_zero (p : PlanTube) (ps : List PlanTube) (t : Nat) (ts : List Nat) (r d : Nat) :
    trialOf (p :: ps) (t :: ts) r 0 d = greedy ps (r - (t - d) * p.value) := by
  simp [trialOf]

theorem trialOf_succ (p : PlanTube) (ps : List PlanTube) (t : Nat) (ts : List Nat) (r i d : Nat) :
    trialOf (p :: ps) (t :: ts) r (i + 1) d = trialOf ps ts (r - t * p.value) i d := by
  have hsum : ((List.range (i + 1)).map fun j => (t :: ts).getD j 0 * ((p :: ps).map (·.value)).getD j 0).sum =
      t * p.value + ((List.range i).map fun j => ts.getD j 0 * (ps.map (·.value)).getD j 0).sum := by
    rw [List.range_succ_eq_map, List.map_cons, List.map_map, List.sum_cons]
    rfl
  unfold trialOf
  rw [hsum]
  have hassoc (a b c : Nat) : r - (a + b + c) = r - a - (b + c) := by omega
  exact congrArg (greedy _) (hassoc _ _ _)

theorem trialTakes_zero (p : PlanTube) (ps : List PlanTube) (t : Nat) (ts : List Nat) (r d : Nat) :
    trialTakes (p :: ps) (t :: ts) r 0 d = (t - d) :: (greedy ps (r - (t - d) * p.value)).1 := by
  unfold trialTakes
  rw [trialOf_zero]
  rfl

theorem trialTakes_succ (p : PlanTube) (ps : List PlanTube) (t : Nat) (ts : List Nat) (r i d : Nat) :
    trialTakes (p :: ps) (t :: ts) r (i + 1) d = t :: trialTakes ps ts (r - t * p.value) i d := by
  unfold trialTakes
  rw [trialOf_succ]
  rfl

theorem formed_zero (t : Nat) (ts : List Nat) (d : Nat) : Formed (t :: ts) 0 d ↔ 1 ≤ d ∧ d ≤ min t 4 := by
  simp [Formed]

theorem formed_succ (t : Nat) (ts : List Nat) (i d : Nat) : Formed (t :: ts) (i + 1) d ↔ Formed ts i d := by
  simp [Formed]

/-- The trials of one tube: none is exact, or the first exact one decides. -/
theorem trials_cases (p : PlanTube) (after : List PlanTube) (t r fuel d : Nat) :
    (trials p after t r fuel d = none ∧ ∀ e, d ≤ e → e < d + fuel → (greedy after (r - (t - e) * p.value)).2 ≠ 0) ∨
    ∃ e, d ≤ e ∧ e < d + fuel ∧ (greedy after (r - (t - e) * p.value)).2 = 0 ∧
      (∀ x, d ≤ x → x < e → (greedy after (r - (t - x) * p.value)).2 ≠ 0) ∧
      trials p after t r fuel d = some ((t - e) :: (greedy after (r - (t - e) * p.value)).1) := by
  induction fuel generalizing d with
  | zero => exact .inl ⟨rfl, fun e hd he => absurd he (by omega)⟩
  | succ fuel ih =>
    by_cases hexact : (greedy after (r - (t - d) * p.value)).2 = 0
    · exact .inr ⟨d, le_rfl, by omega, hexact, fun x hx hlt => absurd hlt (by omega), if_pos hexact⟩
    · have hnext : trials p after t r (fuel + 1) d = trials p after t r fuel (d + 1) := if_neg hexact
      rw [hnext]
      rcases ih (d + 1) with ⟨hnone, hall⟩ | ⟨e, hd, he, hzero, hbefore, hsome⟩
      · refine .inl ⟨hnone, fun e hd he => ?_⟩
        by_cases heq : e = d
        · rwa [heq]
        · exact hall e (by omega) (by omega)
      · refine .inr ⟨e, by omega, by omega, hzero, fun x hx hlt => ?_, hsome⟩
        by_cases heq : x = d
        · rwa [heq]
        · exact hbefore x (by omega) hlt

/-- The backoff: no trial is exact, or it is the first exact trial in order of tube and then of `d`. -/
theorem backoff_cases (ps : List PlanTube) (ts : List Nat) (r : Nat) (hlen : ps.length = ts.length) :
    (backoff ps ts r = none ∧ ∀ i d, Formed ts i d → (trialOf ps ts r i d).2 ≠ 0) ∨
    ∃ i d, FirstExact ps ts r i d ∧ backoff ps ts r = some (trialTakes ps ts r i d) := by
  induction ps generalizing ts r with
  | nil =>
    obtain rfl := List.length_eq_zero_iff.1 hlen.symm
    exact .inl ⟨rfl, fun i d h => absurd h.1 (Nat.not_lt_zero i)⟩
  | cons p ps ih =>
    obtain ⟨t, ts, rfl⟩ := List.exists_cons_of_length_eq_add_one hlen.symm
    have hlater := ih ts (r - t * p.value) (Nat.succ.inj hlen)
    rcases trials_cases p ps t r (min t 4) 1 with ⟨hnone, hall⟩ | ⟨e, hlow, hhigh, hzero, hbefore, hsome⟩
    · have hback : backoff (p :: ps) (t :: ts) r = (backoff ps ts (r - t * p.value)).map (t :: ·) := by
        simp only [backoff, Config.maxBackoff, hnone]
      have hfirst (d : Nat) (h : Formed (t :: ts) 0 d) : (trialOf (p :: ps) (t :: ts) r 0 d).2 ≠ 0 := by
        obtain ⟨h1, h2⟩ := (formed_zero t ts d).1 h
        rw [trialOf_zero]
        exact hall d h1 (by omega)
      rcases hlater with ⟨hnone', hall'⟩ | ⟨i, d, ⟨hformed, hexact, hearlier⟩, hsome'⟩
      · refine .inl ⟨by rw [hback, hnone']; rfl, fun i d h => ?_⟩
        cases i with
        | zero => exact hfirst d h
        | succ i =>
          rw [trialOf_succ]
          exact hall' i d ((formed_succ t ts i d).1 h)
      · refine .inr ⟨i + 1, d, ⟨(formed_succ t ts i d).2 hformed, by rwa [trialOf_succ], fun j x hx horder => ?_⟩, ?_⟩
        · cases j with
          | zero => exact hfirst x hx
          | succ j =>
            rw [trialOf_succ]
            exact hearlier j x ((formed_succ t ts j x).1 hx) (by omega)
        · rw [hback, hsome', trialTakes_succ]
          rfl
    · refine .inr ⟨0, e, ⟨(formed_zero t ts e).2 ⟨hlow, by omega⟩, by rwa [trialOf_zero], fun j x hx horder => ?_⟩, ?_⟩
      · obtain ⟨rfl, hlt⟩ : j = 0 ∧ x < e := by omega
        rw [trialOf_zero]
        exact hbefore x ((formed_zero t ts x).1 hx).1 hlt
      · simp only [backoff, Config.maxBackoff, hsome, trialTakes_zero]

/-- The first exact trial is one. -/
theorem FirstExact.unique {ps : List PlanTube} {ts : List Nat} {r i d j e : Nat} (h1 : FirstExact ps ts r i d)
    (h2 : FirstExact ps ts r j e) : i = j ∧ d = e := by
  obtain ⟨hf1, hz1, hb1⟩ := h1
  obtain ⟨hf2, hz2, hb2⟩ := h2
  have hnot1 : ¬(j < i ∨ (j = i ∧ e < d)) := fun h => hb1 j e hf2 h hz2
  have hnot2 : ¬(i < j ∨ (i = j ∧ d < e)) := fun h => hb2 i d hf1 h hz1
  omega

/-! ### The whole plan (R42) -/

theorem trials_within {p : PlanTube} {after : List PlanTube} {t r : Nat} (ht : t ≤ p.usable) (fuel d : Nat)
    {x : List Nat} (h : trials p after t r fuel d = some x) : Within (p :: after) x := by
  rcases trials_cases p after t r fuel d with ⟨hnone, -⟩ | ⟨e, -, -, -, -, hsome⟩
  · rw [hnone] at h
    exact absurd h (by simp)
  · obtain rfl := Option.some.inj (hsome.symm.trans h)
    exact .cons ((Nat.sub_le t e).trans ht) (greedy_within _ _)

theorem trials_pays {p : PlanTube} {after : List PlanTube} {t r : Nat} (hle : t * p.value ≤ r) (fuel d : Nat)
    {x : List Nat} (h : trials p after t r fuel d = some x) : pays (p :: after) x = r := by
  rcases trials_cases p after t r fuel d with ⟨hnone, -⟩ | ⟨e, -, -, hzero, -, hsome⟩
  · rw [hnone] at h
    exact absurd h (by simp)
  · obtain rfl := Option.some.inj (hsome.symm.trans h)
    have hrest := greedy_pays after (r - (t - e) * p.value)
    have hless : (t - e) * p.value ≤ r := (Nat.mul_le_mul_right _ (Nat.sub_le t e)).trans hle
    show (t - e) * p.value + pays after _ = r
    omega

/-- The backoff's takes stay within the usable counts and pay the amount in full. -/
theorem backoff_takes {ps : List PlanTube} {ts : List Nat} {r : Nat} (hw : Within ps ts) (hle : pays ps ts ≤ r)
    {x : List Nat} (h : backoff ps ts r = some x) : Within ps x ∧ pays ps x = r := by
  induction hw generalizing r x with
  | nil => exact absurd h (by simp [backoff])
  | @cons p t ps ts htake hw ih =>
    have hle' : t * p.value + pays ps ts ≤ r := hle
    simp only [backoff] at h
    split at h
    next y hy =>
      obtain rfl := Option.some.inj h
      exact ⟨trials_within htake _ _ hy, trials_pays (by omega) _ _ hy⟩
    next =>
      obtain ⟨y, hy, rfl⟩ := Option.map_eq_some_iff.1 h
      obtain ⟨hwy, hpy⟩ := ih (by omega) hy
      refine ⟨.cons htake hwy, ?_⟩
      show t * p.value + pays ps y = r
      omega

/-- A plan with its takes in plan order. -/
def planned (ps : List PlanTube) (takes : List Nat) (residual : Nat) : Plan :=
  { takes := (ps.map (·.tube)).zip takes, residual := residual }

section
variable (ps : List PlanTube) (r : Nat)

theorem planOver_exact (h : (greedy ps r).2 = 0) : planOver ps r = planned ps (greedy ps r).1 0 := if_pos h

theorem planOver_backoff (h : (greedy ps r).2 ≠ 0) {x : List Nat} (hx : backoff ps (greedy ps r).1 r = some x) :
    planOver ps r = planned ps x 0 := by
  unfold planOver
  rw [if_neg h, hx]
  rfl

theorem planOver_short (h : (greedy ps r).2 ≠ 0) (hx : backoff ps (greedy ps r).1 r = none) :
    planOver ps r = planned ps (greedy ps r).1 (greedy ps r).2 := by
  unfold planOver
  rw [if_neg h, hx]
  rfl

/-- Every plan's takes are within the usable counts and account for the amount. -/
theorem planOver_accounts : ∃ x n, planOver ps r = planned ps x n ∧ Within ps x ∧ pays ps x + n = r := by
  have hpays := greedy_pays ps r
  by_cases h : (greedy ps r).2 = 0
  · exact ⟨_, _, planOver_exact ps r h, greedy_within ps r, by omega⟩
  · cases hx : backoff ps (greedy ps r).1 r with
    | none => exact ⟨_, _, planOver_short ps r h hx, greedy_within ps r, hpays⟩
    | some x =>
      obtain ⟨hw, hp⟩ := backoff_takes (greedy_within ps r) (by omega) hx
      exact ⟨_, _, planOver_backoff ps r h hx, hw, by omega⟩

end

section
variable {ps : List PlanTube} {x : List Nat} (hw : ps.length = x.length)
include hw

theorem planned_tubes (n : Nat) : (planned ps x n).takes.map (·.1) = ps.map (·.tube) :=
  List.map_fst_zip (by simp [hw])

theorem planned_takes (n : Nat) : (planned ps x n).takes.map (·.2) = x :=
  List.map_snd_zip (by simp [hw])

end

/-- What holds of each tube and its take holds of the plan's entries. -/
theorem forall_planned {s : State} {ps : List PlanTube} {x : List Nat} {R : PlanTube → Nat → Prop} (h : List.Forall₂ R ps x)
    (hps : ∀ p ∈ ps, p = planTube s p.tube) (n : Nat) : ∀ e ∈ (planned ps x n).takes, R (planTube s e.1) e.2 := by
  induction h with
  | nil => exact fun e he => absurd he (by simp [planned])
  | @cons p t ps x hp _ ih =>
    intro e he
    rcases List.mem_cons.1 (show e ∈ (p.tube, t) :: (planned ps x n).takes from he) with rfl | he
    · rw [← hps p List.mem_cons_self]
      exact hp
    · exact ih (fun q hq => hps q (List.mem_cons_of_mem p hq)) e he

theorem sum_planned {s : State} {ps : List PlanTube} {x : List Nat} (hps : ∀ p ∈ ps, p = planTube s p.tube)
    (h : ps.length = x.length) (n : Nat) :
    ((planned ps x n).takes.map fun e => e.2 * s.tables.tubeValue e.1).sum = pays ps x := by
  induction ps generalizing x with
  | nil => rfl
  | cons p ps ih =>
    obtain ⟨t, x, rfl⟩ := List.exists_cons_of_length_eq_add_one h.symm
    have hp := hps p List.mem_cons_self
    have hrest := ih (fun q hq => hps q (List.mem_cons_of_mem p hq)) (Nat.succ.inj h)
    have hvalue : s.tables.tubeValue p.tube = p.value := (congrArg PlanTube.value hp).symm
    show t * s.tables.tubeValue p.tube + _ = t * p.value + pays ps x
    rw [hvalue]
    exact congrArg (t * p.value + ·) hrest

/-- The values of the tubes in plan order. -/
theorem value_getD {s : State} {i : Nat} (hi : i < 6) :
    ((planTubes s).map (·.value)).getD i 0 = s.tables.tubeValue (((planTubes s).map (·.tube)).getD i 0) := by
  have hlen : i < (planTubes s).length := by rwa [planTubes_length]
  have hp := eq_planTube (List.getElem_mem hlen)
  simp only [List.getD_eq_getElem?_getD, List.getElem?_map, List.getElem?_eq_getElem hlen, Option.map_some, Option.getD_some]
  exact congrArg PlanTube.value hp

/-- Settles O48. -/
theorem changePlanAccountsForTheWholeAmount : Obligations.ChangePlanAccountsForTheWholeAmount := by
  intro s amount
  have hps : ∀ p ∈ planTubes s, p = planTube s p.tube := fun p => eq_planTube
  obtain ⟨x, n, hplan, hwithin, hpays⟩ := planOver_accounts (planTubes s) amount
  have hplan' : changePlan s amount = planned (planTubes s) x n := hplan
  have hlength : (greedy (planTubes s) amount).1.length = 6 := by
    rw [← (greedy_within (planTubes s) amount).length_eq, planTubes_length]
  have htakes : (planTubes s).length = (greedy (planTubes s) amount).1.length := by rw [hlength, planTubes_length]
  have htrial {i : Nat} (hi : i < 6) (d : Nat) : greedy ((planTubes s).drop (i + 1))
      (amount - (((List.range i).map fun j => (greedy (planTubes s) amount).1.getD j 0 *
        s.tables.tubeValue (((planTubes s).map (·.tube)).getD j 0)).sum +
        ((greedy (planTubes s) amount).1.getD i 0 - d) * s.tables.tubeValue (((planTubes s).map (·.tube)).getD i 0))) =
      trialOf (planTubes s) (greedy (planTubes s) amount).1 amount i d := by
    unfold trialOf
    rw [value_getD hi]
    have hsum : ((List.range i).map fun j => (greedy (planTubes s) amount).1.getD j 0 *
        s.tables.tubeValue (((planTubes s).map (·.tube)).getD j 0)) = (List.range i).map fun j =>
        (greedy (planTubes s) amount).1.getD j 0 * ((planTubes s).map (·.value)).getD j 0 :=
      List.map_congr_left fun j hj => by rw [value_getD ((List.mem_range.1 hj).trans hi)]
    rw [hsum]
  have hformed (i d : Nat) : (i < 6 ∧ 1 ≤ d ∧ d ≤ min ((greedy (planTubes s) amount).1.getD i 0) 4) ↔
      Formed (greedy (planTubes s) amount).1 i d := by rw [Formed, hlength]
  have hcases := backoff_cases (planTubes s) (greedy (planTubes s) amount).1 amount htakes
  dsimp only
  refine ⟨?_, planTubes_tubes s, planTubes_sorted s, ?_, ?_, fun hexact => ?_, fun hshort => ⟨fun i d hf hzero hbefore => ?_,
    fun hall => ?_⟩, fun hnot => ?_⟩
  · rw [hplan', planned_tubes hwithin.length_eq]
  · rw [hplan']
    exact forall_planned hwithin hps n
  · rw [hplan', sum_planned hps hwithin.length_eq]
    exact hpays
  · have hgreedy : changePlan s amount = _ := planOver_exact (planTubes s) amount hexact
    rw [hgreedy, planned_takes htakes]
    exact ⟨rfl, rfl⟩
  · have hfirst : FirstExact (planTubes s) (greedy (planTubes s) amount).1 amount i d :=
      ⟨(hformed i d).1 hf, (htrial hf.1 d) ▸ hzero, fun j e hj horder => by
        have hj' := (hformed j e).2 hj
        rw [← htrial hj'.1 e]
        exact hbefore j e hj' horder⟩
    rcases hcases with ⟨-, hall⟩ | ⟨j, e, hfirst', hsome⟩
    · exact absurd hfirst.2.1 (hall i d hfirst.1)
    · obtain ⟨rfl, rfl⟩ := hfirst.unique hfirst'
      have hback : changePlan s amount = _ := planOver_backoff (planTubes s) amount hshort hsome
      have hw := (backoff_takes (greedy_within _ _) (Nat.le.intro (greedy_pays _ _)) hsome).1.length_eq
      rw [hback, planned_takes hw, htrial hf.1]
      exact ⟨rfl, rfl⟩
  · rcases hcases with ⟨hnone, -⟩ | ⟨i, d, ⟨hf, hzero, -⟩, -⟩
    · have hgreedy : changePlan s amount = _ := planOver_short (planTubes s) amount hshort hnone
      rw [hgreedy]
      rfl
    · have hf' := (hformed i d).2 hf
      exact absurd (htrial hf'.1 d ▸ hzero) (hall i d hf')
  · have hinexact {ts : List Nat} (h : changePlan s amount = planned (planTubes s) ts 0) : False := by
      rw [h] at hnot
      exact Bool.noConfusion (hnot : true = false)
    by_cases hexact : (greedy (planTubes s) amount).2 = 0
    · exact (hinexact (planOver_exact _ _ hexact)).elim
    · cases hx : backoff (planTubes s) (greedy (planTubes s) amount).1 amount with
      | some y => exact (hinexact (planOver_backoff _ _ hexact hx)).elim
      | none =>
        have hgreedy : changePlan s amount = _ := planOver_short (planTubes s) amount hexact hx
        rw [hgreedy, planned_takes htakes]
        exact ⟨rfl, forall_planned (greedy_residual _ _) hps _⟩

end Sys2Proof.Machine
end

