-- ==== Sys2Proof/Proofs/LevelSensors.lean ====
section
/-! Level sensors and the tests that reconcile a tube with them, and Clear Tube Fault (R37, R38, R53). -/

/- One lemma after another, to keep the memory of a compile small. -/
set_option Elab.async false

namespace Sys2Proof.Machine

/-! ### One tube's count and condition -/

theorem tube_rawCond (n m : Nat) (c : TubeCond) (s : State) : (rawCond n c s).tube m =
    if m = n ∧ n < s.change.tubes.length then { s.tube n with cond := c } else s.tube m := by
  by_cases hc : (s.tube n).cond = c
  · have hsame : rawCond n c s = s := if_pos hc
    rw [hsame]
    split
    next h => rw [h.1, ← hc]
    next => rfl
  · rw [← tube_modTube n m (fun t => { t with cond := c })]
    refine tube_congr ?_ m
    unfold rawCond
    rw [if_neg hc]
    dsimp only
    split <;> simp

theorem rawCond_length (n : Nat) (c : TubeCond) (s : State) :
    (rawCond n c s).change.tubes.length = s.change.tubes.length := by
  rcases rawCond_tubes n c s with h | h
  · rw [h]
  · rw [h]
    simp [modTube]

section
variable {n : Nat} {s : State} (hn : n < s.change.tubes.length)
include hn

theorem correctCount_tube (w : Correction) (k m : Nat) : (correctCount n w k s).tube m =
    if m = n then { s.tube n with count := k } else s.tube m := by
  have htubes : (correctCount n w k s).change.tubes = (rawCount n k s).change.tubes := rfl
  rw [tube_congr htubes m, tube_rawCount]
  simp only [hn, and_true]

theorem faulted_tube (k m : Nat) : (raiseTubeFault n k (rawCond n .faulted s)).tube m =
    if m = n then { s.tube n with cond := .faulted } else s.tube m := by
  have htubes : (raiseTubeFault n k (rawCond n .faulted s)).change.tubes = (rawCond n .faulted s).change.tubes := rfl
  rw [tube_congr htubes m, tube_rawCond]
  simp only [hn, and_true]

end

theorem correctCount_raises (n : Nat) (w : Correction) (k : Nat) (s : State) : RaisesFirst s (correctCount n w k s)
    .tubeCorrected (some n) (some (pack 0 w.code (s.tube n).count k)) := by
  have hframe := rawCount_alters n k s
  exact raisesFirst_of (u := rawCount n k s) (hframe .events (by decide)) (hframe .seconds (by decide)) (extends_of_same rfl rfl)

theorem raiseTubeFault_raises (n k : Nat) (s : State) :
    RaisesFirst s (raiseTubeFault n k (rawCond n .faulted s)) .tubeFault (some n) (some (pack 0 0 0 k)) := by
  have hframe := rawCond_alters n .faulted s
  exact raisesFirst_of (u := rawCond n .faulted s) (hframe .events (by decide)) (hframe .seconds (by decide))
    (extends_of_same rfl rfl)

theorem RaisesFirst.after {s u t : State} {k : EventKind} {x : Option Nat} {v : Option Word32} (h : RaisesFirst s u k x v)
    (hext : Extends u t) : RaisesFirst s t k x v := fun hlen => (h hlen).trans hext.1

theorem RaisesFirst.before {s u t : State} {k : EventKind} {x : Option Nat} {v : Option Word32} (h : RaisesFirst u t k x v)
    (hevents : u.events = s.events) (hseconds : u.seconds = s.seconds) : RaisesFirst s t k x v := by
  unfold RaisesFirst at *
  rwa [hevents, hseconds] at h

/-! ### The tests of R38 -/

/-- What the tests leave of the tubes: the first that matches decides. -/
structure Reconciled (n : Nat) (r : TubeRec) (x : TubeState) (s t : State) : Prop where
  others : ∀ m, m ≠ n → t.tube m = s.tube m
  disagree : x.full.accepted = some true ∧ 0 < r.lowMark ∧ x.low.accepted = some false →
    (t.tube n).count = x.count ∧ (t.tube n).cond = (if x.cond = .ok then .faulted else x.cond) ∧
    (x.cond = .ok → RaisesFirst s t .tubeFault (some n) (some (pack 0 0 0 0)))
  agree : ¬(x.full.accepted = some true ∧ 0 < r.lowMark ∧ x.low.accepted = some false) → (t.tube n).cond = x.cond ∧
    (x.full.accepted = some true → x.count < r.capacity → (t.tube n).count = r.capacity ∧
      RaisesFirst s t .tubeCorrected (some n) (some (pack 0 2 x.count r.capacity))) ∧
    (¬(x.full.accepted = some true ∧ x.count < r.capacity) →
      (x.low.accepted = some false → 0 < r.lowMark → r.lowMark ≤ x.count → (t.tube n).count = r.lowMark - 1 ∧
        RaisesFirst s t .tubeCorrected (some n) (some (pack 0 3 x.count (r.lowMark - 1)))) ∧
      (x.low.accepted = some true → x.count < r.lowMark → (t.tube n).count = r.lowMark ∧
        RaisesFirst s t .tubeCorrected (some n) (some (pack 0 3 x.count r.lowMark))) ∧
      ((x.low.accepted = none ∨ r.lowMark = 0 ∨ (x.low.accepted = some false ∧ x.count < r.lowMark) ∨
        (x.low.accepted = some true ∧ r.lowMark ≤ x.count)) → (t.tube n).count = x.count))

/-- The tests as one choice. -/
theorem reconcile_eq (n : Nat) (s : State) : reconcile n s =
    if (s.tube n).full.accepted = some true ∧ 0 < (s.tables.tube n).lowMark ∧ (s.tube n).low.accepted = some false then
      if (s.tube n).cond = .ok then raiseTubeFault n 0 (rawCond n .faulted s) else s
    else if (s.tube n).full.accepted = some true ∧ (s.tube n).count < (s.tables.tube n).capacity then
      correctCount n .fullSensor (s.tables.tube n).capacity s
    else if 0 < (s.tables.tube n).lowMark ∧ (s.tube n).low.accepted = some false ∧
        (s.tables.tube n).lowMark ≤ (s.tube n).count then correctCount n .lowSensor ((s.tables.tube n).lowMark - 1) s
    else if 0 < (s.tables.tube n).lowMark ∧ (s.tube n).low.accepted = some true ∧
        (s.tube n).count < (s.tables.tube n).lowMark then correctCount n .lowSensor (s.tables.tube n).lowMark s
    else s := by
  unfold reconcile
  simp only [Bool.and_eq_true, beq_iff_eq, decide_eq_true_eq, and_assoc]

theorem reconcile_length (n : Nat) (s : State) : (reconcile n s).change.tubes.length = s.change.tubes.length := by
  have hcorrect (w : Correction) (k : Nat) : (correctCount n w k s).change.tubes.length = s.change.tubes.length := by
    have htubes : (correctCount n w k s).change.tubes = (rawCount n k s).change.tubes := rfl
    rw [htubes, rawCount_tubes]
    simp [modTube]
  rw [reconcile_eq]
  split_ifs
  · exact rawCond_length n .faulted s
  · rfl
  · exact hcorrect _ _
  · exact hcorrect _ _
  · exact hcorrect _ _
  · rfl

/-- The tests leave the sensors. -/
theorem reconcile_sensors {n : Nat} {s : State} (hn : n < s.change.tubes.length) :
    ((reconcile n s).tube n).full = (s.tube n).full ∧ ((reconcile n s).tube n).low = (s.tube n).low := by
  have hcorrect (w : Correction) (k : Nat) : ((correctCount n w k s).tube n).full = (s.tube n).full ∧
      ((correctCount n w k s).tube n).low = (s.tube n).low := by
    rw [correctCount_tube hn, if_pos rfl]
    exact ⟨rfl, rfl⟩
  rw [reconcile_eq]
  split_ifs
  · rw [faulted_tube hn, if_pos rfl]
    exact ⟨rfl, rfl⟩
  · exact ⟨rfl, rfl⟩
  · exact hcorrect _ _
  · exact hcorrect _ _
  · exact hcorrect _ _
  · exact ⟨rfl, rfl⟩

/-- Tests that correct the count. -/
theorem reconciled_correct {n : Nat} {s : State} (hn : n < s.change.tubes.length) {r : TubeRec} {w : Correction} {k : Nat}
    (hdis : ¬((s.tube n).full.accepted = some true ∧ 0 < r.lowMark ∧ (s.tube n).low.accepted = some false))
    (hfull : (s.tube n).full.accepted = some true → (s.tube n).count < r.capacity → w.code = 2 ∧ k = r.capacity)
    (hlow : ¬((s.tube n).full.accepted = some true ∧ (s.tube n).count < r.capacity) →
      ((s.tube n).low.accepted = some false → 0 < r.lowMark → r.lowMark ≤ (s.tube n).count → w.code = 3 ∧ k = r.lowMark - 1) ∧
      ((s.tube n).low.accepted = some true → (s.tube n).count < r.lowMark → w.code = 3 ∧ k = r.lowMark) ∧
      ¬((s.tube n).low.accepted = none ∨ r.lowMark = 0 ∨ ((s.tube n).low.accepted = some false ∧ (s.tube n).count < r.lowMark) ∨
        ((s.tube n).low.accepted = some true ∧ r.lowMark ≤ (s.tube n).count))) :
    Reconciled n r (s.tube n) s (correctCount n w k s) := by
  have hraises := correctCount_raises n w k s
  have htube : (correctCount n w k s).tube n = { s.tube n with count := k } := (correctCount_tube hn w k n).trans (if_pos rfl)
  refine ⟨fun m hm => (correctCount_tube hn w k m).trans (if_neg hm), fun h => absurd h hdis, fun _ => ⟨?_, ?_, fun hnot =>
    ⟨fun h1 h2 h3 => ?_, fun h1 h2 => ?_, fun h => ?_⟩⟩⟩
  · rw [htube]
  · intro h1 h2
    obtain ⟨hcode, rfl⟩ := hfull h1 h2
    rw [htube, ← hcode]
    exact ⟨rfl, hraises⟩
  · obtain ⟨hcode, rfl⟩ := (hlow hnot).1 h1 h2 h3
    rw [htube, ← hcode]
    exact ⟨rfl, hraises⟩
  · obtain ⟨hcode, rfl⟩ := (hlow hnot).2.1 h1 h2
    rw [htube, ← hcode]
    exact ⟨rfl, hraises⟩
  · exact absurd h (hlow hnot).2.2

theorem reconciled {n : Nat} {s : State} (hn : n < s.change.tubes.length) :
    Reconciled n (s.tables.tube n) (s.tube n) s (reconcile n s) := by
  rw [reconcile_eq]
  split
  next hdis =>
    split
    next hok =>
      have htube (m : Nat) := faulted_tube hn 0 m
      refine ⟨fun m hm => (htube m).trans (if_neg hm), fun _ => ?_, fun h => absurd hdis h⟩
      · rw [htube, if_pos rfl, if_pos hok]
        exact ⟨rfl, rfl, fun _ => raiseTubeFault_raises n 0 s⟩
    next hok =>
      exact ⟨fun _ _ => rfl, fun _ => ⟨rfl, (if_neg hok).symm, fun h => absurd h hok⟩, fun h => absurd hdis h⟩
  next hdis =>
    split
    next hfull =>
      exact reconciled_correct hn hdis (fun _ _ => ⟨rfl, rfl⟩) fun h => absurd hfull h
    next hfull =>
      split
      next hhigh =>
        obtain ⟨hmark, hlow, hle⟩ := hhigh
        refine reconciled_correct hn hdis (fun h1 h2 => absurd ⟨h1, h2⟩ hfull) fun _ =>
          ⟨fun _ _ _ => ⟨rfl, rfl⟩, fun h => absurd (hlow.symm.trans h) (by decide), ?_⟩
        rw [hlow]
        simp only [reduceCtorEq, Option.some.injEq, Bool.false_eq_true, false_and, true_and, or_false, false_or]
        omega
      next hhigh =>
        split
        next hcovered =>
          obtain ⟨hmark, hlow, hlt⟩ := hcovered
          refine reconciled_correct hn hdis (fun h1 h2 => absurd ⟨h1, h2⟩ hfull) fun _ =>
            ⟨fun h => absurd (hlow.symm.trans h) (by decide), fun _ _ => ⟨rfl, rfl⟩, ?_⟩
          rw [hlow]
          simp only [reduceCtorEq, Option.some.injEq, Bool.true_eq_false, false_and, true_and, false_or]
          omega
        next hcovered =>
          refine ⟨fun _ _ => rfl, fun h => absurd h hdis, fun _ => ⟨rfl, fun h1 h2 => absurd ⟨h1, h2⟩ hfull,
            fun _ => ⟨fun h1 h2 h3 => absurd ⟨h2, h1, h3⟩ hhigh, fun h1 h2 => absurd ⟨by omega, h1, h2⟩ hcovered,
              fun _ => rfl⟩⟩⟩

/-- What follows leaves the tubes and places its events behind the tests' own. -/
theorem Reconciled.later {n : Nat} {r : TubeRec} {x : TubeState} {s t u : State} (h : Reconciled n r x s t)
    (hothers : ∀ m, m ≠ n → u.tube m = t.tube m) (hcount : (u.tube n).count = (t.tube n).count)
    (hcond : (u.tube n).cond = (t.tube n).cond) (hext : Extends t u) :
    Reconciled n r x s u where
  others m hm := (hothers m hm).trans (h.others m hm)
  disagree hd := by
    obtain ⟨h1, h2, h3⟩ := h.disagree hd
    exact ⟨hcount.trans h1, hcond.trans h2, fun hok => (h3 hok).after hext⟩
  agree ha := by
    obtain ⟨h1, h2, h3⟩ := h.agree ha
    refine ⟨hcond.trans h1, fun a b => ?_, fun hnot => ?_⟩
    · obtain ⟨hc, he⟩ := h2 a b
      exact ⟨hcount.trans hc, he.after hext⟩
    · obtain ⟨h4, h5, h6⟩ := h3 hnot
      refine ⟨fun a b c => ?_, fun a b => ?_, fun a => hcount.trans (h6 a)⟩
      · obtain ⟨hc, he⟩ := h4 a b c
        exact ⟨hcount.trans hc, he.after hext⟩
      · obtain ⟨hc, he⟩ := h5 a b
        exact ⟨hcount.trans hc, he.after hext⟩

/-! ### Reads of a level sensor (R37) -/

theorem read_steady {n : Nat} {b : Bool} {d : Debounce} (h : d.accepted = some b) :
    d.read n b = (⟨d.accepted, b, d.runAfter n b⟩, none) := if_neg fun hc => hc.1 h

/-- A sensor's record set. -/
def sensed (n : Nat) (full : Bool) (d : Debounce) (s : State) : State := modTube n (fun t => t.setSensor full d) s

theorem levelRead_quiet {n : Nat} {full b : Bool} {s : State} {d : Debounce}
    (h : ((s.tube n).sensor full).read 3 b = (d, none)) : levelRead n full s b = sensed n full d s := by
  unfold levelRead
  rw [h]
  rfl

theorem levelRead_changes {n : Nat} {full b : Bool} {s : State} {d : Debounce} {c : Bool} (hon : s.samplingOn = true)
    (h : ((s.tube n).sensor full).read 3 b = (d, some c)) : levelRead n full s b =
      afterTubesIf (sensed n full d s) (reconcile n (sensed n full d s)) := by
  have hon' : (sensed n full d s).samplingOn = true := hon
  unfold levelRead
  rw [h]
  exact if_pos hon'

/-- Reads that touch one sensor's record of one tube. -/
structure Reread (n : Nat) (full : Bool) (s t : State) : Prop where
  frame : Alters [.tubes] s t
  length : t.change.tubes.length = s.change.tubes.length
  others : ∀ m, m ≠ n → t.tube m = s.tube m
  count : (t.tube n).count = (s.tube n).count
  cond : (t.tube n).cond = (s.tube n).cond
  other : (t.tube n).sensor (!full) = (s.tube n).sensor (!full)

theorem Reread.refl (n : Nat) (full : Bool) (s : State) : Reread n full s s :=
  ⟨.refl _ _, rfl, fun _ _ => rfl, rfl, rfl, rfl⟩

theorem Reread.trans {n : Nat} {full : Bool} {s t u : State} (h1 : Reread n full s t) (h2 : Reread n full t u) :
    Reread n full s u :=
  ⟨h1.frame.trans h2.frame, h2.length.trans h1.length, fun m hm => (h2.others m hm).trans (h1.others m hm),
    h2.count.trans h1.count, h2.cond.trans h1.cond, h2.other.trans h1.other⟩

section
variable {n : Nat} {full b : Bool} {s : State}

theorem reread_sensed (d : Debounce) (hn : n < s.change.tubes.length) : Reread n full s (sensed n full d s) ∧
    ((sensed n full d s).tube n).sensor full = d := by
  have htube (m : Nat) : (sensed n full d s).tube m = if m = n then (s.tube n).setSensor full d else s.tube m := by
    rw [sensed, tube_modTube]
    simp only [hn, and_true]
  have hself := (htube n).trans (if_pos rfl)
  refine ⟨⟨modTube_alters _ _ s, by simp [sensed, modTube], fun m hm => (htube m).trans (if_neg hm), ?_, ?_, ?_⟩, ?_⟩
  all_goals rw [hself]; cases full <;> rfl

/-- Reads that agree with the accepted state. -/
theorem levelReads_steady (m : Nat) (hn : n < s.change.tubes.length) (h : ((s.tube n).sensor full).accepted = some b) :
    Reread n full s ((List.replicate m b).foldl (levelRead n full) s) ∧
    ((((List.replicate m b).foldl (levelRead n full) s).tube n).sensor full).accepted = some b := by
  induction m generalizing s with
  | zero => exact ⟨.refl _ _ s, h⟩
  | succ m ih =>
    have hread := levelRead_quiet (read_steady (n := 3) h)
    obtain ⟨hreread, hsensor⟩ := reread_sensed (full := full)
      ⟨((s.tube n).sensor full).accepted, b, ((s.tube n).sensor full).runAfter 3 b⟩ hn
    rw [← hread] at hreread hsensor
    obtain ⟨hrest, haccepted⟩ := ih (s := levelRead n full s b) (by rw [hreread.length]; exact hn) (by rw [hsensor]; exact h)
    exact ⟨hreread.trans hrest, haccepted⟩

/-- Reads that differ from the accepted state: one of them changes it and reconciles the tube. -/
theorem levelReads_change (m : Nat) (hon : s.samplingOn = true) (hn : n < s.change.tubes.length)
    (h : ((s.tube n).sensor full).accepted ≠ some b) (hm : 1 ≤ m) (hlen : 4 ≤ m + ((s.tube n).sensor full).runAfter 3 b) :
    ∃ s1, Reread n full s s1 ∧ ((s1.tube n).sensor full).accepted = some b ∧
      Reread n full (afterTubesIf s1 (reconcile n s1)) ((List.replicate m b).foldl (levelRead n full) s) ∧
      ((((List.replicate m b).foldl (levelRead n full) s).tube n).sensor full).accepted = some b := by
  induction m generalizing s with
  | zero => omega
  | succ m ih =>
    have hpos := runAfter_pos (n := 3) (by decide) b ((s.tube n).sensor full)
    have hle := runAfter_le (n := 3) (by decide) b ((s.tube n).sensor full)
    by_cases hnow : 3 ≤ ((s.tube n).sensor full).runAfter 3 b
    · have hread := levelRead_changes hon (read_changes h hnow)
      obtain ⟨hreread, hsensor⟩ := reread_sensed (full := full) ⟨some b, b, ((s.tube n).sensor full).runAfter 3 b⟩ hn
      generalize sensed n full ⟨some b, b, ((s.tube n).sensor full).runAfter 3 b⟩ s = s1 at hread hreread hsensor
      have hn1 : n < s1.change.tubes.length := by rw [hreread.length]; exact hn
      have hafter : (levelRead n full s b).change.tubes = (reconcile n s1).change.tubes := by
        rw [hread]
        exact afterTubesIf_alters _ _ .tubes (by decide)
      have haccepted : (((levelRead n full s b).tube n).sensor full).accepted = some b := by
        obtain ⟨hfull, hlow⟩ := reconcile_sensors hn1
        have hsame : ((levelRead n full s b).tube n).sensor full = (s1.tube n).sensor full := by
          rw [tube_congr hafter n]
          unfold TubeState.sensor
          rw [hfull, hlow]
        rw [hsame, hsensor]
      have hlen1 : (levelRead n full s b).change.tubes.length = s.change.tubes.length := by
        rw [hafter, reconcile_length, hreread.length]
      obtain ⟨hrest, hlast⟩ := levelReads_steady m (s := levelRead n full s b) (by rw [hlen1]; exact hn) haccepted
      refine ⟨s1, hreread, by rw [hsensor], ?_, hlast⟩
      rw [← hread]
      exact hrest
    · have hread := levelRead_quiet (read_waits (Nat.not_le.1 hnow))
      obtain ⟨hreread, hsensor⟩ := reread_sensed (full := full)
        ⟨((s.tube n).sensor full).accepted, b, ((s.tube n).sensor full).runAfter 3 b⟩ hn
      rw [← hread] at hreread hsensor
      have hnext : Debounce.runAfter 3 b ⟨((s.tube n).sensor full).accepted, b, ((s.tube n).sensor full).runAfter 3 b⟩ =
          min 3 (((s.tube n).sensor full).runAfter 3 b + 1) := if_pos ⟨by dsimp only; omega, rfl⟩
      have hphase : (levelRead n full s b).phase = s.phase := hreread.frame .phase (by decide)
      obtain ⟨s1, hs1, haccepted, hrest⟩ := ih (s := levelRead n full s b) (by unfold State.samplingOn at hon ⊢; rwa [hphase])
        (by rw [hreread.length]; exact hn) (by rw [hsensor]; exact h) (by omega) (by rw [hsensor, hnext]; omega)
      exact ⟨s1, hreread.trans hs1, haccepted, hrest⟩

end

/-! ### The step of the reads -/

/-- The tests of R38 by what a tube's count, condition and sensors were when they were applied. -/
def Tested (n : Nat) (r : TubeRec) (count : Nat) (s : State) (cond : TubeCond) (full low : Option Bool) (t : State) : Prop :=
  (∀ m, m ≠ n → t.tube m = s.tube m) ∧
  (full = some true ∧ 0 < r.lowMark ∧ low = some false → (t.tube n).count = count ∧
    (t.tube n).cond = (if cond = .ok then .faulted else cond) ∧
    (cond = .ok → RaisesFirst s t .tubeFault (some n) (some (pack 0 0 0 0)))) ∧
  (¬(full = some true ∧ 0 < r.lowMark ∧ low = some false) → (t.tube n).cond = cond ∧
    (full = some true → count < r.capacity → (t.tube n).count = r.capacity ∧
      RaisesFirst s t .tubeCorrected (some n) (some (pack 0 2 count r.capacity))) ∧
    (¬(full = some true ∧ count < r.capacity) →
      (low = some false → 0 < r.lowMark → r.lowMark ≤ count → (t.tube n).count = r.lowMark - 1 ∧
        RaisesFirst s t .tubeCorrected (some n) (some (pack 0 3 count (r.lowMark - 1)))) ∧
      (low = some true → count < r.lowMark → (t.tube n).count = r.lowMark ∧
        RaisesFirst s t .tubeCorrected (some n) (some (pack 0 3 count r.lowMark))) ∧
      ((low = none ∨ r.lowMark = 0 ∨ (low = some false ∧ count < r.lowMark) ∨
        (low = some true ∧ r.lowMark ≤ count)) → (t.tube n).count = count)))

theorem Reconciled.tested {n : Nat} {r : TubeRec} {x : TubeState} {s s1 t : State} (h : Reconciled n r x s1 t)
    {count : Nat} {cond : TubeCond} {full low : Option Bool} (hothers : ∀ m, m ≠ n → s1.tube m = s.tube m)
    (hevents : s1.events = s.events) (hseconds : s1.seconds = s.seconds) (hcount : x.count = count) (hcond : x.cond = cond)
    (hfull : x.full.accepted = full) (hlow : x.low.accepted = low) : Tested n r count s cond full low t := by
  obtain ⟨ho, hdis, hag⟩ := h
  have hraises (k : EventKind) (y : Option Nat) (v : Option Word32) : RaisesFirst s1 t k y v ↔ RaisesFirst s t k y v := by
    unfold RaisesFirst
    rw [hevents, hseconds]
  rw [hcount, hcond, hfull, hlow] at hdis hag
  simp only [hraises] at hdis hag
  exact ⟨fun m hm => (ho m hm).trans (hothers m hm), hdis, hag⟩

/-- While sampling runs and some sensor has no sample, a step ends as in normal operation at most. -/
theorem finish_sampling_alters {s : State} (hon : s.samplingOn = true)
    (hsome : ∀ c, s.phase = .sampling c → ∃ k ∈ s.cold.sensors, k.sampled = false) : Alters dueParts s (finish s) := by
  cases hphase : s.phase with
  | run => exact finish_alters s hphase
  | sampling c =>
    obtain ⟨k, hk, hfresh⟩ := hsome c hphase
    have hstays : finish s = s := by
      simp only [finish, hphase]
      exact if_neg fun h => absurd (List.all_eq_true.1 h k hk) (by simp [hfresh])
    rw [hstays]
    exact .refl _ _
  | lineReset c =>
    have hstays : finish s = s := by simp only [finish, hphase]
    rw [hstays]
    exact .refl _ _
  | _ => exact absurd hon (by simp [State.samplingOn, hphase])

section
variable {n : Fin 6} {full b : Bool} {s : State} (hon : s.samplingOn = true)
  (hsome : ∀ c, s.phase = .sampling c → ∃ k ∈ s.cold.sensors, k.sampled = false) (hlen : s.change.tubes.length = 6)
include hon

theorem exec_levelReads : exec (.levelSensorChange n full [b, b, b]) s =
    .next (finish ((List.replicate 3 b).foldl (levelRead n full) s)) :=
  next_finish (whenActive_of_active _ (active_of_samplingOn hon))

include hsome

theorem levelReads_finish {u : State} {ps : List Part} (hu : Alters ps s u) (hphase : .phase ∉ ps) (hsensors : .sensors ∉ ps) :
    Alters dueParts u (finish u) := by
  have hp : u.phase = s.phase := hu .phase hphase
  have hc : u.cold.sensors = s.cold.sensors := hu .sensors hsensors
  refine finish_sampling_alters ?_ fun c hsampling => ?_
  · unfold State.samplingOn at hon ⊢
    rwa [hp]
  · rw [hc]
    exact hsome c (hp.symm.trans hsampling)

include hlen

theorem levelReads_agree (h : ((s.tube n).sensor full).accepted = some b) :
    Completes (.levelSensorChange n full [b, b, b]) s [.tubes] fun t =>
      (t.tube n).count = (s.tube n).count ∧ (t.tube n).cond = (s.tube n).cond ∧
      ((t.tube n).sensor full).accepted = some b ∧ ∀ m, m ≠ n.val → t.tube m = s.tube m := by
  obtain ⟨hreread, haccepted⟩ := levelReads_steady 3 (by omega : n.val < s.change.tubes.length) h
  have hfinish := levelReads_finish hon hsome hreread.frame (by decide) (by decide)
  have htube (m : Nat) := tube_congr (hfinish .tubes (by decide)) m
  refine ⟨_, exec_levelReads hon, hreread.frame.seq hfinish, ?_, ?_, ?_, fun m hm => ?_⟩
  · rw [htube, hreread.count]
  · rw [htube, hreread.cond]
  · rw [htube, haccepted]
  · rw [htube, hreread.others m hm]

theorem levelReads_differ (h : ((s.tube n).sensor full).accepted ≠ some b) :
    Completes (.levelSensorChange n full [b, b, b]) s coinParts fun t =>
      ((t.tube n).sensor full).accepted = some b ∧ (t.tube n).sensor (!full) = (s.tube n).sensor (!full) ∧
      Tested n (s.tables.tube n) (s.tube n).count s (s.tube n).cond
        (if full then some b else (s.tube n).full.accepted) (if full then (s.tube n).low.accepted else some b) t := by
  have hn : n.val < s.change.tubes.length := by omega
  have hpos := runAfter_pos (n := 3) (by decide) b ((s.tube n).sensor full)
  obtain ⟨s1, hbefore, haccepted, hafter, hlast⟩ := levelReads_change 3 hon hn h (by decide) (by omega)
  have hn1 : n.val < s1.change.tubes.length := by rw [hbefore.length]; exact hn
  have hframe : Alters coinParts s ((List.replicate 3 b).foldl (levelRead n full) s) :=
    ((hbefore.frame.seq (rs := coinParts) (reconcile_alters n s1)).seq (rs := coinParts) (afterTubesIf_alters s1 _)).seq
      hafter.frame
  have hfinish := levelReads_finish hon hsome hframe (by decide) (by decide)
  have htube (m : Nat) := tube_congr (hfinish .tubes (by decide)) m
  have hreconciled (m : Nat) : (afterTubesIf s1 (reconcile n s1)).tube m = (reconcile n s1).tube m :=
    tube_congr (afterTubesIf_alters _ _ .tubes (by decide)) m
  obtain ⟨hfull, hlow⟩ := reconcile_sensors hn1
  have hother : (s1.tube n).sensor (!full) = (s.tube n).sensor (!full) := hbefore.other
  refine ⟨_, exec_levelReads hon, hframe.seq hfinish, ?_, ?_, ?_⟩
  · rw [htube, hlast]
  · have hsame : ((reconcile n s1).tube n).sensor (!full) = (s1.tube n).sensor (!full) := by
      unfold TubeState.sensor
      rw [hfull, hlow]
    rw [htube, hafter.other, hreconciled, hsame, hother]
  · have hrec := (reconciled hn1).later (u := finish ((List.replicate 3 b).foldl (levelRead n full) s))
      (fun m hm => by rw [htube, hafter.others m hm, hreconciled])
      (by rw [htube, hafter.count, hreconciled]) (by rw [htube, hafter.cond, hreconciled])
      ((extends_growth.afterTubesIf s1 _).trans ((Extends.of_alters hafter.frame).trans
        (extends_of_same (hfinish .events (by decide)) (hfinish .seconds (by decide)))))
    have htables : s1.tables = s.tables := hbefore.frame .tables (by decide)
    rw [htables] at hrec
    refine hrec.tested hbefore.others (hbefore.frame .events (by decide)) (hbefore.frame .seconds (by decide))
      hbefore.count hbefore.cond ?_ ?_
    · cases full with
      | true => exact haccepted
      | false => exact congrArg Debounce.accepted hother
    · cases full with
      | true => exact congrArg Debounce.accepted hother
      | false => exact haccepted

end

/-! ### Clear Tube Fault (R53) -/

/-- What the tests do to the payout in flight: nothing, or its replan mark; and the short-end wait can only end. -/
theorem reconcile_marks {n : Nat} {s : State} :
    (s.change.shortWait = false → (reconcile n s).change.shortWait = false) ∧
    ∀ q, s.change.payout = some q → q.kind = .refund → q.replan = true →
      ∃ q', (reconcile n s).change.payout = some q' ∧ q'.replan = true := by
  have hwait (k : Nat) (h : s.change.shortWait = false) : (rawCount n k s).change.shortWait = false := by
    unfold rawCount
    dsimp only
    split
    · exact h
    · rfl
  have hcount (k : Nat) : (rawCount n k s).change.payout = s.change.payout := rawCount_alters n k s .payout (by decide)
  have hmark (q : Payout) (hkind : q.kind = .refund) : q.markReplan = { q with replan := true } := by
    simp only [Payout.markReplan, hkind]
  have hcorrect (w : Correction) (k : Nat) (q : Payout) (hq : s.change.payout = some q) (hkind : q.kind = .refund)
      (hreplan : q.replan = true) : ∃ q', (correctCount n w k s).change.payout = some q' ∧ q'.replan = true := by
    refine ⟨if q.hasTake n then q.markReplan else q, ?_, ?_⟩
    · show (rawCount n k s).change.payout.map _ = _
      rw [hcount, hq]
      rfl
    · rw [hmark q hkind]
      split
      · rfl
      · exact hreplan
  rw [reconcile_eq]
  split_ifs with _ hok
  · have hcond : (s.tube n).cond ≠ .faulted := by rw [hok]; decide
    have hraw : rawCond n .faulted s = { markReplan { modTube n (fun t => { t with cond := .faulted }) s with
        change.shortWait := false } with change.payout := (markReplan { modTube n (fun t => { t with cond := .faulted }) s with
        change.shortWait := false }).change.payout.map fun p => if p.retry = some n then { p with retry := none } else p } := by
      unfold rawCond
      rw [if_neg hcond]
      rfl
    refine ⟨fun _ => ?_, fun q hq hkind hreplan => ?_⟩
    · show (rawCond n .faulted s).change.shortWait = false
      rw [hraw]
      rfl
    · refine ⟨if q.markReplan.retry = some n then { q.markReplan with retry := none } else q.markReplan, ?_, ?_⟩
      · show (rawCond n .faulted s).change.payout = _
        rw [hraw]
        simp [modTube, hq]
      · rw [hmark q hkind]
        split <;> rfl
  · exact ⟨id, fun q hq _ hreplan => ⟨q, hq, hreplan⟩⟩
  · exact ⟨hwait _, hcorrect _ _⟩
  · exact ⟨hwait _, hcorrect _ _⟩
  · exact ⟨hwait _, hcorrect _ _⟩
  · exact ⟨id, fun q hq _ hreplan => ⟨q, hq, hreplan⟩⟩

/-- A tube that is made OK again (R5, R49). -/
theorem rawCond_ok {n : Nat} {s : State} (h : (s.tube n).cond ≠ .ok) :
    (rawCond n .ok s).change.shortWait = false ∧
    (rawCond n .ok s).change.payout = s.change.payout.map Payout.markReplan := by
  unfold rawCond
  rw [if_neg h]
  simp [modTube]

theorem clearFault_tested {n : Nat} {s t : State} (hn : n < s.change.tubes.length) (ht : Alters (.staging :: .marks :: dueParts) (clearFault n s) t) :
    Tested n (s.tables.tube n) (s.tube n).count s .ok (s.tube n).full.accepted (s.tube n).low.accepted t := by
  have hraw := rawCond_alters n .ok s
  have htubes (m : Nat) := tube_rawCond n m .ok s
  have hself : (rawCond n .ok s).tube n = { s.tube n with cond := .ok } := (htubes n).trans (if_pos ⟨rfl, hn⟩)
  have hn1 : n < (rawCond n .ok s).change.tubes.length := by rwa [rawCond_length]
  have htube (m : Nat) : t.tube m = (reconcile n (rawCond n .ok s)).tube m :=
    (tube_congr (ht .tubes (by decide)) m).trans (tube_congr (afterTubes_alters _ .tubes (by decide)) m)
  have hrec := (reconciled hn1).later (u := t) (fun m _ => htube m) (by rw [htube]) (by rw [htube])
    ((extends_growth.afterTubes _).trans (extends_of_same (ht .events (by decide)) (ht .seconds (by decide))))
  rw [hraw .tables (by decide)] at hrec
  refine hrec.tested (fun m hm => (htubes m).trans (if_neg fun h => hm h.1)) (hraw .events (by decide))
    (hraw .seconds (by decide)) ?_ ?_ ?_ ?_ <;> rw [hself]

/-- What Clear Tube Fault leaves of the short-end wait and of a RETURN payout (R49). -/
theorem clearFault_marks {n : Nat} {s : State} (h : (s.tube n).cond ≠ .ok) : (clearFault n s).change.shortWait = false ∧
    ∀ p, s.change.payout = some p → p.kind = .refund → ∃ q, (clearFault n s).change.payout = some q ∧ q.replan = true := by
  have hafter := afterTubes_alters (reconcile n (rawCond n .ok s))
  obtain ⟨hwait, hmarks⟩ := reconcile_marks (n := n) (s := rawCond n .ok s)
  obtain ⟨hwait0, hpayout0⟩ := rawCond_ok h
  refine ⟨Eq.trans (hafter .shortWait (by decide)) (hwait hwait0), fun p hp hkind => ?_⟩
  have hmark : p.markReplan = { p with replan := true } := by simp only [Payout.markReplan, hkind]
  obtain ⟨q, hq, hreplan⟩ := hmarks { p with replan := true } (by rw [hpayout0, hp, ← hmark]; rfl) hkind rfl
  exact ⟨q, Eq.trans (hafter .payout (by decide)) hq, hreplan⟩

/-- Settles O50. -/
theorem levelSensorsReconcileTheirTube : Obligations.LevelSensorsReconcileTheirTube := by
  intro n s hon hsome hlen
  refine ⟨fun full b => ⟨levelReads_agree hon hsome hlen, levelReads_differ hon hsome hlen⟩, fun hs hl =>
    ⟨fun hcond => ?_, fun m hm => ?_, fun hcond => ?_⟩⟩
  · refine refuses_served (r := .clearTubeFault n) rfl hs (fun _ => hl) (if_pos (.inr ?_))
    rwa [tube_congr (s := s) (by rw [received_change])]
  · exact refuses_served (r := .clearTubeFault m) rfl hs (fun _ => hl) (if_pos (.inl hm))
  · have hx : serveOwner (.clearTubeFault n) (received (.clearTubeFault n) s) =
        doneWith (clearFault n (received (.clearTubeFault n) s)) := by
      refine if_neg ?_
      rw [tube_congr (s := s) (by rw [received_change])]
      simp only [hcond, ne_eq, not_true, or_false]
      omega
    refine replies_served (c := .clearTubeFault n) (r := .clearTubeFault n) rfl hs (fun _ => hl) hx
      ((clearFault_alters _ _).mono) (.inr (by decide)) (by decide) fun t ht => ⟨?_, ?_, fun p hp hkind => ?_⟩
    · have htested := clearFault_tested (n := n) (by rw [received_change]; omega) ht.frame
      obtain ⟨x, g, hu, -⟩ := received_shape (.clearTubeFault n) s
      rw [hu] at htested
      exact htested
    · have hnot : ((received (.clearTubeFault n) s).tube n).cond ≠ .ok := by
        rw [tube_congr (s := s) (by rw [received_change]), hcond]
        decide
      exact Eq.trans (ht.frame .shortWait (by decide)) (clearFault_marks hnot).1
    · have hnot : ((received (.clearTubeFault n) s).tube n).cond ≠ .ok := by
        rw [tube_congr (s := s) (by rw [received_change]), hcond]
        decide
      obtain ⟨q, hq, hreplan⟩ := (clearFault_marks hnot).2 p (by rw [received_change]; exact hp) hkind
      exact ⟨q, (ht.payout (by simp [doneWith, hq])).trans hq, hreplan⟩

end Sys2Proof.Machine
end

