-- ==== Sys2Proof/Proofs/Payouts.lean ====
section
/-! Payouts coin by coin: the grant, the pulses, the coins at the exit and the closes of the windows (R44 to R51). -/

/- One lemma after another, to keep the memory of a compile small. -/
set_option Elab.async false

namespace Sys2Proof.Machine

theorem RaisesFirst.raises {s t : State} {k : EventKind} {x : Option Nat} {v : Option Word32} (h : RaisesFirst s t k x v) :
    Raises s t k x v := fun hlen => (h (by omega)).subset (List.mem_append_right _ (List.mem_singleton.2 rfl))

/-! ### The end of a step with nothing left to pay, or with the short-end wait -/

theorem payoutTest_of_not_due {s : State} (h : s.credit.returnDue = 0 ∨ s.change.shortWait = true) : payoutTest s = s := by
  rcases h with h | h
  · exact payoutTest_of_nothing_owed h
  · simp [payoutTest, h]

/-- With no payout due, the end of a step starts none and gives no grant. -/
theorem finish_quiet {u : State} (hrun : u.phase = .run) (h : u.credit.returnDue = 0 ∨ u.change.shortWait = true) :
    Alters (.sale :: .column :: .probing :: choiceParts) u (finish u) := by
  have hrest := finish_rest_alters hrun
  rw [payoutTest_of_not_due (s := setSale u) h] at hrest
  exact ((setSale_alters u).seq (rs := [.sale]) (setSale_alters _)).seq hrest

/-! ### A payout that ends (R44, R50, R51) -/

theorem endPayout_payout (s : State) : (endPayout s).change.payout = none :=
  (release_alters .payout { s with change.payout := none }) .payout (by decide)

theorem endPayout_granted (s : State) : (endPayout s).supply.granted.payout = false := by
  have hnot : ¬(drop .payout { s with change.payout := none }).supply.asked .payout := fun h => by
    rcases h with h | h <;> exact absurd h Bool.false_ne_true
  exact Bool.eq_false_iff.2 fun h => not_asked_grantRule hnot (.inl h)

/-- The record that carries the payout through a step: what a coin or a window does not settle stays. -/
structure Carried (p q : Payout) : Prop where
  kind : q.kind = p.kind
  paid : q.paid = p.paid
  coins : q.coins = p.coins
  pulsed : q.pulsed = p.pulsed
  windowCoins : q.windowCoins = p.windowCoins

theorem Carried.rfl {p : Payout} : Carried p p := ⟨.refl _, .refl _, .refl _, .refl _, .refl _⟩

/-- A payout in flight whose record differs from `p` in its plan and its marks at most. -/
def Carries (p : Payout) (s : State) : Prop := ∃ q, s.change.payout = some q ∧ Carried p q

theorem Carries.map {p : Payout} {s t : State} (h : Carries p s) (f : Payout → Payout)
    (ht : t.change.payout = s.change.payout.map f) (hf : ∀ q, Carried q (f q)) : Carries p t := by
  obtain ⟨q, hq, hkind, hpaid, hcoins, hpulsed, hwindow⟩ := h
  obtain ⟨hkind', hpaid', hcoins', hpulsed', hwindow'⟩ := hf q
  exact ⟨f q, by rw [ht, hq]; rfl, hkind'.trans hkind, hpaid'.trans hpaid, hcoins'.trans hcoins, hpulsed'.trans hpulsed,
    hwindow'.trans hwindow⟩

theorem Carries.of_same {p : Payout} {s t : State} (h : Carries p s) (ht : t.change.payout = s.change.payout) : Carries p t :=
  h.map id (by rw [ht]; simp) fun _ => .rfl

theorem carried_markReplan (q : Payout) : Carried q q.markReplan := by
  unfold Payout.markReplan
  split <;> exact ⟨.refl _, .refl _, .refl _, .refl _, .refl _⟩

theorem Carries.rawCond {p : Payout} {s : State} (h : Carries p s) (n : Nat) (c : TubeCond) : Carries p (rawCond n c s) := by
  unfold Machine.rawCond
  split
  · exact h
  · have hmarked : Carries p (markReplan { modTube n (fun t => { t with cond := c }) s with change.shortWait := false }) :=
      h.map _ (.refl _) carried_markReplan
    dsimp only
    split
    · exact hmarked
    · exact hmarked.map _ (.refl _) fun q => by split <;> exact ⟨.refl _, .refl _, .refl _, .refl _, .refl _⟩

theorem Carries.rawCount {p : Payout} {s : State} (h : Carries p s) (n k : Nat) : Carries p (rawCount n k s) :=
  h.of_same (rawCount_alters n k s .payout (by decide))

theorem Carries.reconcile {p : Payout} {s : State} (h : Carries p s) (n : Nat) : Carries p (reconcile n s) := by
  have hcorrect (w : Correction) (k : Nat) : Carries p (correctCount n w k s) :=
    (h.rawCount n k).map _ (.refl _) fun q => by
      split
      · exact carried_markReplan q
      · exact .rfl
  rw [reconcile_eq]
  split_ifs
  · exact (h.rawCond n .faulted).of_same (.refl _)
  · exact h
  · exact hcorrect _ _
  · exact hcorrect _ _
  · exact hcorrect _ _
  · exact h

theorem Carries.decideTube {p : Payout} {s : State} (h : Carries p s) (n : Nat) : Carries p (decideTube n s).1 := by
  have hmark (u : State) (hu : Carries p u) : Carries p (markReplan u) := hu.map _ (.refl _) carried_markReplan
  unfold Machine.decideTube
  split_ifs
  · exact hmark _ (Carries.reconcile (s := raiseCorrected n .empty (s.tube n).count 0 (Machine.rawCount n 0 s)) (h.rawCount n 0) n)
  · exact hmark _ ((h.rawCond n .faulted).of_same (.refl _))
  · exact hmark _ h

theorem Carries.replanIfMarked {p : Payout} {s : State} (h : Carries p s) : Carries p (replanIfMarked s) := by
  have hplanned : Carries p (replan s) := h.map _ (.refl _) fun q => ⟨.refl _, .refl _, .refl _, .refl _, .refl _⟩
  unfold Machine.replanIfMarked
  split
  · split
    · exact hplanned
    · exact h
  · exact h

theorem Carries.paid {p : Payout} {s : State} (h : Carries p s) : s.paid = p.paid := by
  obtain ⟨q, hq, hcarried⟩ := h
  simp only [State.paid, hq, hcarried.paid]

/-- A replan writes the plan and its mark. -/
theorem replanIfMarked_eq {s : State} {q : Payout} (h : s.change.payout = some q) : replanIfMarked s =
    { s with change.payout := some (if q.replan then
        { q with plan := (changePlan s s.credit.returnDue).takes, replan := false } else q) } := by
  have hsame : { s with change.payout := some q } = s := by rw [← h]
  unfold replanIfMarked
  simp only [h]
  cases q.replan with
  | true => simp [replan, h]
  | false => exact hsame.symm

theorem replanIfMarked_unmarked {s : State} {q : Payout} (h : s.change.payout = some q) (hq : q.replan = false) :
    replanIfMarked s = s := by
  unfold replanIfMarked
  simp only [h, hq, Bool.false_eq_true, if_false]

theorem changePlan_setPayout (s : State) (x : Option Payout) (a : Nat) : changePlan { s with change.payout := x } a = changePlan s a :=
  congrArg (planOver · a) (planTubes_congr (.frame (setPayout_alters x s)))

theorem pulse_pulses {n : Nat} {s : State} {p : Payout} (h : s.change.payout = some p) : ∃ q, (pulse n s).change.payout = some q ∧
    q.held = p.held ∧ q.plan = p.plan ∧ Pulses n (p.retry == some n) q :=
  ⟨{ p with pulsed := some n, energised := some n, windowCoins := 0, isRetry := p.retry == some n, retry := none },
    by rw [pulse]; simp only [h, Option.map_some], rfl, rfl, rfl, rfl, rfl, rfl, rfl⟩

/-- A RETURN payout with nothing left to pay (R50 test 1). -/
theorem payoutDone_done {u : State} (hrun : u.phase = .run) (hdue : u.credit.returnDue = 0) :
    (finish (payoutDone u)).change.payout = none ∧ (finish (payoutDone u)).supply.granted.payout = false ∧
      RaisesFirst u (finish (payoutDone u)) .payoutDone none (val u.paid) := by
  have hframe := payoutDone_alters u
  have hrun' : (payoutDone u).phase = .run := (hframe .phase (by decide)).trans hrun
  obtain ⟨-, -, -, hdue'⟩ := hframe .amounts (by decide)
  have hquiet := finish_quiet hrun' (.inl (hdue'.trans hdue))
  obtain ⟨hgranted, -⟩ := hquiet .grants (by decide)
  refine ⟨Eq.trans (hquiet .payout (by decide)) (endPayout_payout _), ?_, ?_⟩
  · rw [hgranted]
    exact endPayout_granted _
  · exact raisesFirst_of (u := u) rfl rfl ((extends_growth.endPayout _).trans (extends_finish hrun'))

/-- What the short end moves back to credit (R50). -/
def creditedBack (u : State) : State :=
  { u with credit.returnDue := u.credit.returnDue - min u.credit.returnDue u.headroom,
           credit.credit := u.credit.credit + min u.credit.returnDue u.headroom }

theorem payoutShort_eq (u : State) : payoutShort u = masksIfHeld u (endPayout
    { raise .payoutShort none (val u.credit.returnDue) (creditedBack u) with change.shortWait := true }) := rfl

/-- The short end leaves the wait, and what fits the headroom is credit again (R50). -/
theorem payoutShort_ends {u : State} (hrun : u.phase = .run) : EndsShort u.credit.returnDue u (finish (payoutShort u)) := by
  have hmasks := masksIfHeld_alters u (endPayout
    { raise .payoutShort none (val u.credit.returnDue) (creditedBack u) with change.shortWait := true })
  have hend := endPayout_alters
    { raise .payoutShort none (val u.credit.returnDue) (creditedBack u) with change.shortWait := true }
  rw [← payoutShort_eq] at hmasks
  have hboth := hend.seq (rs := [.sale, .payout, .grants, .coinMasks, .noteMask, .cmdQueue, .lineCounts, .maskRecs]) hmasks
  have hrun' : (payoutShort u).phase = .run := (hboth .phase (by decide)).trans hrun
  have hwait : (payoutShort u).change.shortWait = true := hboth .shortWait (by decide)
  have hquiet := finish_quiet hrun' (.inr hwait)
  have hlater := hboth.seq (rs := .column :: .probing :: .receiver :: .trans :: .passQueue :: .ring ::
    [.sale, .payout, .grants, .coinMasks, .noteMask, .cmdQueue, .lineCounts, .maskRecs]) hquiet
  have hafter := hmasks.seq (rs := .sale :: .column :: .probing :: .coinMasks :: .noteMask :: choiceParts) hquiet
  obtain ⟨hcredit, -, -, hdue⟩ := hlater .amounts (by decide)
  obtain ⟨hgranted, -⟩ := hafter .grants (by decide)
  refine ⟨Eq.trans (hafter .payout (by decide)) (endPayout_payout _), Eq.trans (hquiet .shortWait (by decide)) hwait, ?_,
    hdue, hcredit, ?_⟩
  · rw [hgranted]
    exact endPayout_granted _
  · refine (raisesFirst_of (u := creditedBack u) rfl rfl ?_).raises
    rw [payoutShort_eq] at hrun' ⊢
    have hset : Extends (raise .payoutShort none (val u.credit.returnDue) (creditedBack u))
        { raise .payoutShort none (val u.credit.returnDue) (creditedBack u) with change.shortWait := true } :=
      extends_of_same rfl rfl
    exact ((hset.trans (extends_growth.endPayout _)).trans (extends_growth.masksIfHeld _ _)).trans (extends_finish hrun')

/-- A drain ends with its ending and its coins (R51). -/
theorem drainDone_done {u : State} (hrun : u.phase = .run) (n c : Nat) (e : DrainEnding) :
    (u.credit.returnDue = 0 → (finish (drainDone n c e u)).change.payout = none) ∧
    Extends (raise .drainDone (some n) (some (pack 0 0 e.code (coinsSeen c))) u) (finish (drainDone n c e u)) := by
  have hframe := drainDone_alters n c e u
  have hrun' : (drainDone n c e u).phase = .run := (hframe .phase (by decide)).trans hrun
  obtain ⟨-, -, -, hdue'⟩ := hframe .amounts (by decide)
  refine ⟨fun hdue => ?_, (extends_growth.endPayout _).trans (extends_finish hrun')⟩
  exact (finish_payout_of_nothing_owed hrun' (hdue'.trans hdue)).trans (endPayout_payout _)

/-! ### The grant and the coins -/

section
variable {p : Payout} {s : State} (hpayout : s.change.payout = some p)
include hpayout

theorem payoutGiven_nothing (h : p.held = true ∨ s.supply.granted.payout = false) : payoutGiven s = s := by
  unfold payoutGiven
  simp only [hpayout]
  refine if_pos ?_
  simpa using h

theorem payoutGiven_refund (hheld : p.held = false) (hgranted : s.supply.granted.payout = true) (hkind : p.kind = .refund) :
    payoutGiven s = pulseOrShort { s with change.payout := some { p with
      held := true, replan := false, plan := (changePlan s s.credit.returnDue).takes } } := by
  have hplan := changePlan_setPayout s (some { p with held := true, replan := false }) s.credit.returnDue
  rw [← hplan]
  unfold payoutGiven replan
  simp only [hpayout, hheld, hgranted, hkind, Bool.not_true, Bool.or_self, Bool.false_eq_true, if_false, Option.map_some]

theorem payoutGiven_drain {n k : Nat} (hheld : p.held = false) (hgranted : s.supply.granted.payout = true)
    (hkind : p.kind = .drain n k) :
    payoutGiven s = pulse n { s with change.payout := some { p with held := true, replan := false } } := by
  unfold payoutGiven
  simp only [hpayout, hheld, hgranted, hkind, Bool.not_true, Bool.or_self, Bool.false_eq_true, if_false]

end

/-- A pulse that ends its step leaves its record. -/
theorem pulse_finish {n : Nat} {u : State} {p : Payout} (hrun : u.phase = .run) (h : u.change.payout = some p) :
    ∃ q, (finish (pulse n u)).change.payout = some q ∧ q.held = p.held ∧ q.plan = p.plan ∧ Pulses n (p.retry == some n) q := by
  obtain ⟨q, hq, hrest⟩ := pulse_pulses (n := n) h
  have hrun' : (pulse n u).phase = .run := (pulse_alters n u .phase (by decide)).trans hrun
  exact ⟨q, (finish_payout_of_payout hrun' (by rw [hq]; rfl)).trans hq, hrest⟩

/-- A plan with a take is paid from its first tube; one without ends short. -/
theorem pulseOrShort_pulse {n : Nat} {u : State} {p : Payout} (h : u.change.payout = some p) (hn : firstTake p.plan = some n) :
    pulseOrShort u = pulse n u := by
  unfold pulseOrShort State.nextTake
  simp only [h, hn]

theorem pulseOrShort_short {u : State} {p : Payout} (h : u.change.payout = some p) (hn : firstTake p.plan = none) :
    pulseOrShort u = payoutShort u := by
  unfold pulseOrShort State.nextTake
  simp only [h, hn]

/-- A short end of a state that differs in its payout's record only. -/
theorem payoutShort_setPayout {s : State} (hrun : s.phase = .run) (x : Option Payout) :
    EndsShort s.credit.returnDue s (finish (payoutShort { s with change.payout := x })) :=
  payoutShort_ends (u := { s with change.payout := x }) hrun

theorem seeCoin_seen {p q : Payout} (h : Carried p q) (n v : Nat) :
    (q.seeCoin n v).paid = p.paid + v ∧ (q.seeCoin n v).windowCoins = p.windowCoins + 1 ∧ (q.seeCoin n v).retry = none ∧
    (q.seeCoin n v).pulsed = p.pulsed ∧ ∀ m k, p.kind = .drain m k → (q.seeCoin n v).kind = .drain m (k - 1) := by
  obtain ⟨hkind, hpaid, -, hpulsed, hwindow⟩ := h
  rw [← hkind, ← hpaid, ← hpulsed, ← hwindow]
  unfold Payout.seeCoin
  cases q.kind with
  | refund =>
    dsimp only
    refine ⟨?_, ?_, ?_, ?_, fun m k h => by cases h⟩ <;> split <;> rfl
  | drain m k => exact ⟨rfl, rfl, rfl, rfl, fun _ _ h => by cases h; rfl⟩

/-- The state of a coin in the window before EXACT and the masks follow. -/
def coinSettled (p : Payout) (n : Nat) (s : State) : State :=
  setSale (countPaid p.kind (s.tables.tubeValue n)
    { reconcile n (rawCount n ((s.tube n).count - 1) s) with
      change.payout := (reconcile n (rawCount n ((s.tube n).count - 1) s)).change.payout.map
        (Payout.seeCoin n (s.tables.tubeValue n)) })

section
variable {p : Payout} {s : State} {n : Nat} (hpayout : s.change.payout = some p) (hpulsed : p.pulsed = some n)
include hpayout hpulsed

theorem coinAtExit_eq : coinAtExit s = if (s.tube n).count = 0 then afterTubesIf s (coinSettled p n s)
    else afterTubes (coinSettled p n s) := by
  unfold coinAtExit
  simp only [hpayout, hpulsed]
  rfl

/-- EXACT and the masks change neither the tubes nor the money nor the payout. -/
theorem coinAtExit_settled : Alters [.exact, .events, .coinMasks, .noteMask, .cmdQueue, .lineCounts, .maskRecs]
    (coinSettled p n s) (coinAtExit s) := by
  rw [coinAtExit_eq hpayout hpulsed]
  exact .ite (afterTubesIf_alters _ _) (afterTubes_alters _)

end

section
variable (p : Payout) (n : Nat) (s : State)

/-- The coin counted, and the tests of R38 on its tube. -/
theorem coinSettled_counted : Alters [.payout, .amounts, .audit, .sale] (reconcile n (rawCount n ((s.tube n).count - 1) s))
    (coinSettled p n s) :=
  ((mapPayout_alters _ _).seq (rs := [.payout, .amounts, .audit]) (countPaid_alters p.kind _ _)).seq (setSale_alters _)

theorem coinSettled_alters : Alters coinParts s (coinSettled p n s) :=
  ((rawCount_alters n _ s).seq (rs := coinParts) (reconcile_alters n _)).seq (coinSettled_counted p n s)

theorem coinSettled_payout : (coinSettled p n s).change.payout =
    (reconcile n (rawCount n ((s.tube n).count - 1) s)).change.payout.map (Payout.seeCoin n (s.tables.tubeValue n)) := by
  unfold coinSettled countPaid
  split <;> rfl

theorem coinSettled_refund (h : p.kind = .refund) :
    (coinSettled p n s).credit.returnDue = s.credit.returnDue - min (s.tables.tubeValue n) s.credit.returnDue ∧
    (coinSettled p n s).credit.credit = s.credit.credit ∧
    (coinSettled p n s).audit = { s.audit with
      changePaid := addTotal s.audit.changePaid (s.tables.tubeValue n),
      excessPaid := addTotal s.audit.excessPaid (s.tables.tubeValue n - min (s.tables.tubeValue n) s.credit.returnDue) } := by
  have hframe := (rawCount_alters n ((s.tube n).count - 1) s).seq (rs := [.tubes, .shortWait, .payout, .events])
    (reconcile_alters n _)
  obtain ⟨hcredit, -, -, hdue⟩ := hframe .amounts (by decide)
  have haudit : (reconcile n (rawCount n ((s.tube n).count - 1) s)).audit = s.audit := hframe .audit (by decide)
  unfold coinSettled countPaid
  rw [h]
  refine ⟨?_, hcredit, ?_⟩
  · simp only [setSale, hdue]
  · simp only [setSale, hdue, haudit]

theorem coinSettled_drain {m k : Nat} (h : p.kind = .drain m k) :
    (coinSettled p n s).credit.returnDue = s.credit.returnDue ∧
    (coinSettled p n s).audit = { s.audit with drained := addTotal s.audit.drained (s.tables.tubeValue n) } := by
  have hframe := (rawCount_alters n ((s.tube n).count - 1) s).seq (rs := [.tubes, .shortWait, .payout, .events])
    (reconcile_alters n _)
  obtain ⟨-, -, -, hdue⟩ := hframe .amounts (by decide)
  have haudit : (reconcile n (rawCount n ((s.tube n).count - 1) s)).audit = s.audit := hframe .audit (by decide)
  unfold coinSettled countPaid
  rw [h]
  refine ⟨hdue, ?_⟩
  simp only [setSale, haudit]

end

/-- With neither a covered full sensor nor a low sensor the tests leave the count. -/
theorem reconcile_count {n : Nat} {s : State} (hn : n < s.change.tubes.length) (hfull : (s.tube n).full.accepted ≠ some true)
    (hlow : (s.tables.tube n).lowMark = 0 ∨ (s.tube n).low.accepted = some false ∧ (s.tube n).count < (s.tables.tube n).lowMark) :
    ((reconcile n s).tube n).count = (s.tube n).count ∧ ((reconcile n s).tube n).cond = (s.tube n).cond := by
  obtain ⟨hcond, -, hrest⟩ := (reconciled hn).agree fun h => hfull h.1
  obtain ⟨-, -, hsame⟩ := hrest fun h => hfull h.1
  exact ⟨hsame (hlow.elim (fun h => .inr (.inl h)) fun h => .inr (.inr (.inl h))), hcond⟩

/-- A coin in the window of a pulse (R46). -/
theorem coinInWindow {p : Payout} {s : State} {n : Nat} (hrun : s.phase = .run) (hpayout : s.change.payout = some p)
    (hpulsed : p.pulsed = some n) (hn : n < s.change.tubes.length) :
    Completes .coinAtExitSensor s coinParts (fun t =>
        ((s.tube n).full.accepted ≠ some true → (s.tables.tube n).lowMark = 0 →
          (t.tube n).count = (s.tube n).count - 1) ∧
        ∃ q, t.change.payout = some q ∧ q.paid = p.paid + s.tables.tubeValue n ∧ q.windowCoins = p.windowCoins + 1 ∧
          q.retry = none ∧ q.pulsed = some n ∧
          (p.kind = .refund → t.credit.returnDue = s.credit.returnDue - min (s.tables.tubeValue n) s.credit.returnDue ∧
            t.credit.credit = s.credit.credit ∧
            t.audit = { s.audit with
              changePaid := addTotal s.audit.changePaid (s.tables.tubeValue n),
              excessPaid := addTotal s.audit.excessPaid
                (s.tables.tubeValue n - min (s.tables.tubeValue n) s.credit.returnDue) }) ∧
          ∀ m k, p.kind = .drain m k → q.kind = .drain m (k - 1) ∧ t.credit.returnDue = s.credit.returnDue ∧
            t.audit = { s.audit with drained := addTotal s.audit.drained (s.tables.tubeValue n) }) := by
  have hlater := coinAtExit_settled hpayout hpulsed
  have hframe : Alters coinParts s (coinAtExit s) := (coinSettled_alters p n s).seq hlater
  refine completes_ends (next_finish (whenActive_of_run hrun)) hrun hframe (by decide) fun hends => ?_
  have hrun' : (coinAtExit s).phase = .run := (hframe .phase (by decide)).trans hrun
  have hall := hlater.seq (rs := [.exact, .events, .coinMasks, .noteMask] ++ dueParts) (finish_alters _ hrun')
  obtain ⟨hcredit, -, -, hdue⟩ := hall .amounts (by decide)
  have haudit : (finish (coinAtExit s)).audit = (coinSettled p n s).audit := hall .audit (by decide)
  obtain ⟨q, hq, hcarried⟩ := (Carries.rawCount (p := p) ⟨p, hpayout, .rfl⟩ n ((s.tube n).count - 1)).reconcile n
  have hsettled : (coinAtExit s).change.payout = some (q.seeCoin n (s.tables.tubeValue n)) := by
    have hsame : (coinAtExit s).change.payout = (coinSettled p n s).change.payout := hlater .payout (by decide)
    rw [hsame, coinSettled_payout, hq]
    rfl
  obtain ⟨hpaid, hwindow, hretry, hpulsed', hkind⟩ := seeCoin_seen hcarried n (s.tables.tubeValue n)
  refine ⟨fun hfull hlow => ?_, q.seeCoin n (s.tables.tubeValue n), ?_, hpaid, hwindow, hretry, hpulsed'.trans hpulsed, fun h => ?_,
    fun m k h => ?_⟩
  · have htubes := (coinSettled_counted p n s).seq (rs := [.payout, .amounts, .audit, .exact, .events, .coinMasks, .noteMask] ++ dueParts) hall
    have hself : (rawCount n ((s.tube n).count - 1) s).tube n = { s.tube n with count := (s.tube n).count - 1 } :=
      (tube_rawCount n n _ s).trans (if_pos ⟨rfl, hn⟩)
    have htables : (rawCount n ((s.tube n).count - 1) s).tables = s.tables := rawCount_alters n _ s .tables (by decide)
    obtain ⟨hcount, -⟩ := reconcile_count (n := n) (s := rawCount n ((s.tube n).count - 1) s)
      (by rw [rawCount_tubes]; simpa [modTube] using hn) (by rw [hself]; exact hfull) (.inl (by rw [htables]; exact hlow))
    rw [tube_congr (htubes .tubes (by decide)), hcount, hself]
  · exact (hends.payout (by rw [hsettled]; rfl)).trans hsettled
  · obtain ⟨h1, h2, h3⟩ := coinSettled_refund p n s h
    exact ⟨hdue.trans h1, hcredit.trans h2, haudit.trans h3⟩
  · obtain ⟨h1, h2⟩ := coinSettled_drain p n s h
    exact ⟨hkind m k h, hdue.trans h1, haudit.trans h2⟩

/-! ### The close of a window (R45, R48 to R51) -/

/-- The window's record closed, with a retry mark or without. -/
def windowShut (p : Payout) (retry : Option Nat) (s : State) : State :=
  { s with change.payout := some { p with pulsed := none, energised := none, retry := retry } }

theorem windowShut_alters (p : Payout) (r : Option Nat) (s : State) : Alters [.payout] s (windowShut p r s) :=
  setPayout_alters _ s

section
variable {p : Payout} {s : State} {n : Nat} (hpayout : s.change.payout = some p)
include hpayout

theorem windowCloses_nothing (h : p.pulsed = none) : windowCloses s = s := by
  unfold windowCloses
  simp only [hpayout, h]

variable (hpulsed : p.pulsed = some n)
include hpulsed

theorem windowCloses_seen (h : p.windowCoins ≠ 0) :
    windowCloses s = afterWindow .none (replanIfMarked (windowShut p p.retry s)) := by
  unfold windowCloses
  simp only [hpayout, hpulsed, if_neg h]
  rfl

theorem windowCloses_missed (h : p.windowCoins = 0) (hretry : p.isRetry = false) :
    windowCloses s = afterWindow .none (replanIfMarked (windowShut p (some n) s)) := by
  have hnot : ¬p.isRetry = true := by rw [hretry]; exact Bool.false_ne_true
  unfold windowCloses miss
  simp only [hpayout, hpulsed, if_pos h, if_neg hnot]
  rfl

theorem windowCloses_decided (h : p.windowCoins = 0) (hretry : p.isRetry = true) :
    windowCloses s = afterWindow (decideTube n (windowShut p p.retry s)).2
      (replanIfMarked (afterTubesIf (windowShut p p.retry s) (decideTube n (windowShut p p.retry s)).1)) := by
  unfold windowCloses miss
  simp only [hpayout, hpulsed, if_pos h, if_pos hretry]
  rfl

end

/-- The tests of R51 on a drain in flight, and those of R50 on a RETURN payout. -/
theorem afterWindow_drain {u : State} {p : Payout} {n k : Nat} (h : Carries p u) (hkind : p.kind = .drain n k) (v : Verdict) :
    afterWindow v u = nextDrain n k p.coins v u := by
  obtain ⟨q, hq, hcarried⟩ := h
  have hk : q.kind = .drain n k := hcarried.kind.trans hkind
  unfold afterWindow
  simp only [hq, hk, hcarried.coins]

theorem afterWindow_refund {u : State} {p : Payout} (h : Carries p u) (hkind : p.kind = .refund) (v : Verdict) :
    afterWindow v u = nextReturn u := by
  obtain ⟨q, hq, hcarried⟩ := h
  have hk : q.kind = .refund := hcarried.kind.trans hkind
  unfold afterWindow
  simp only [hq, hk]

theorem nextReturn_done {u : State} {p : Payout} (h : Carries p u) (hdue : u.credit.returnDue = 0) :
    nextReturn u = payoutDone u := by
  obtain ⟨q, hq, -⟩ := h
  unfold nextReturn
  simp only [hq, if_pos hdue]

theorem nextReturn_retry {u : State} {q : Payout} {n : Nat} (h : u.change.payout = some q) (hdue : u.credit.returnDue ≠ 0)
    (hretry : q.retry = some n) : nextReturn u = pulse n u := by
  unfold nextReturn
  simp only [h, if_neg hdue, hretry]

theorem nextReturn_take {u : State} {q : Payout} {n : Nat} (h : u.change.payout = some q) (hdue : u.credit.returnDue ≠ 0)
    (hretry : q.retry = none) (htake : firstTake q.plan = some n) : nextReturn u = pulse n u := by
  unfold nextReturn
  simp only [h, if_neg hdue, hretry, htake]

theorem nextReturn_planned {u : State} {q : Payout} (h : u.change.payout = some q) (hdue : u.credit.returnDue ≠ 0)
    (hretry : q.retry = none) (htake : firstTake q.plan = none) : nextReturn u = pulseOrShort (replan u) := by
  unfold nextReturn
  simp only [h, if_neg hdue, hretry, htake]

theorem windowShut_carries (p : Payout) (r : Option Nat) (s : State) : Carries { p with pulsed := none } (windowShut p r s) :=
  ⟨_, rfl, rfl, rfl, rfl, rfl, rfl⟩

/-- A first miss: the tube is tried again, unless nothing is left to pay (R48, R50). -/
theorem windowMissed {p : Payout} {s : State} {n : Nat} (hrun : s.phase = .run) (hpayout : s.change.payout = some p)
    (hpulsed : p.pulsed = some n) (hwindow : p.windowCoins = 0) (hretry : p.isRetry = false) :
    (p.kind = .refund → s.credit.returnDue = 0 → Completes .exitWindowClose s moneyParts fun t =>
      t.change.payout = none ∧ RaisesFirst s t .payoutDone none (val p.paid)) ∧
    (p.kind = .refund → s.credit.returnDue ≠ 0 → Completes .exitWindowClose s [.payout] fun t =>
      ∃ q, t.change.payout = some q ∧ Pulses n true q) ∧
    ∀ k, p.kind = .drain n (k + 1) → (s.tube n).cond ≠ .faulted →
      Completes .exitWindowClose s [.payout] fun t => ∃ q, t.change.payout = some q ∧ Pulses n true q := by
  have hcloses := windowCloses_missed hpayout hpulsed hwindow hretry
  have hcarries := (windowShut_carries p (some n) s).replanIfMarked
  have hframe := (windowShut_alters p (some n) s).trans (replanIfMarked_alters _)
  have hplanned := replanIfMarked_eq (s := windowShut p (some n) s) rfl
  generalize replanIfMarked (windowShut p (some n) s) = u at hcloses hcarries hframe hplanned
  have hrun' : u.phase = .run := (hframe .phase (by decide)).trans hrun
  obtain ⟨-, -, -, hdue'⟩ := hframe .amounts (by decide)
  have hexec : exec .exitWindowClose s = .next (finish (windowCloses s)) := next_finish (whenActive_of_run hrun)
  obtain ⟨q, hq, hretry'⟩ : ∃ q, u.change.payout = some q ∧ q.retry = some n := by
    rw [hplanned]
    refine ⟨_, rfl, ?_⟩
    split <;> rfl
  have hpulse (h : windowCloses s = pulse n u) : Completes .exitWindowClose s [.payout] fun t =>
      ∃ q, t.change.payout = some q ∧ Pulses n true q := by
    rw [h] at hexec
    refine completes_ends hexec hrun (hframe.trans (pulse_alters n u)) (by decide) fun _ => ?_
    obtain ⟨x, hx, -, -, hpulses⟩ := pulse_finish (n := n) hrun' hq
    rw [hretry', beq_self_eq_true] at hpulses
    exact ⟨x, hx, hpulses⟩
  refine ⟨fun hkind hdue => ?_, fun hkind hdue => ?_, fun k hkind hcond => ?_⟩
  · rw [afterWindow_refund hcarries hkind, nextReturn_done hcarries (hdue'.trans hdue)] at hcloses
    rw [hcloses] at hexec
    refine completes_ends hexec hrun (hframe.seq (payoutDone_alters u)) (by decide) fun hends => ?_
    obtain ⟨hnone, -, hfirst⟩ := payoutDone_done hrun' (hdue'.trans hdue)
    rw [hcarries.paid] at hfirst
    exact ⟨hnone, hfirst.before (hframe .events (by decide)) (hframe .seconds (by decide))⟩
  · refine hpulse ?_
    rw [hcloses, afterWindow_refund hcarries hkind, nextReturn_retry hq (by rw [hdue']; exact hdue) hretry']
  · refine hpulse ?_
    have hsame : (u.tube n).cond = (s.tube n).cond := by rw [tube_congr (hframe .tubes (by decide))]
    rw [hcloses, afterWindow_drain hcarries hkind]
    unfold nextDrain
    rw [if_neg (Nat.succ_ne_zero k), if_neg (by decide), if_neg]
    rintro (h | h)
    · exact hcond (hsame.symm.trans h)
    · exact absurd h (by decide)

/-! ### The decision after a second miss (R48) -/

theorem decideTube_fault {n : Nat} {s : State} (hlow : (s.tables.tube n).lowMark = 0) (hok : (s.tube n).cond = .ok) :
    decideTube n s = (markReplan (raiseTubeFault n 1 (rawCond n .faulted s)), .notEmpty) := by
  have huncovered : lowUncovered n s = false := by simp [lowUncovered, hlow]
  unfold decideTube
  rw [if_neg (by rw [huncovered]; exact Bool.false_ne_true), if_pos hok]

theorem decideTube_empty {n : Nat} {s : State} (hlow : 0 < (s.tables.tube n).lowMark) (hread : (s.tube n).low.accepted = some false) :
    decideTube n s =
      (markReplan (reconcile n (raiseCorrected n .empty (s.tube n).count 0 (rawCount n 0 s))), .empty) := by
  have huncovered : lowUncovered n s = true := by simp [lowUncovered, hlow, hread]
  unfold decideTube
  rw [if_pos huncovered]

/-- EXACT places one event at most, and the masks none. -/
theorem afterTubesIf_length_le (o s : State) : (afterTubesIf o s).events.queue.length ≤ s.events.queue.length + 1 := by
  have hexact : (evalExact s).events.queue.length ≤ s.events.queue.length + 1 := by
    unfold evalExact
    dsimp only
    split
    · exact Nat.le_succ _
    · have hnote (u : State) : (recomputeNote u).events = u.events := recomputeNote_alters u .events (by decide)
      rw [hnote]
      split
      · exact raise_length_le _ _ _ _
      · exact raise_length_le _ _ _ _
  unfold afterTubesIf
  split
  · exact Nat.le_succ _
  · have hmasks : (afterTubes s).events = (evalExact s).events := recomputeMasks_alters _ .events (by decide)
    rw [hmasks]
    exact hexact

/-- The state before the ending tests that follow a second miss. -/
def decided (p : Payout) (n : Nat) (s : State) : State :=
  replanIfMarked (afterTubesIf (windowShut p p.retry s) (decideTube n (windowShut p p.retry s)).1)

section
variable (p : Payout) (n : Nat) (s : State)

theorem decided_after : Alters [.exact, .events, .coinMasks, .noteMask, .cmdQueue, .lineCounts, .maskRecs, .payout]
    (decideTube n (windowShut p p.retry s)).1 (decided p n s) :=
  (afterTubesIf_alters _ _).seq (replanIfMarked_alters _)

theorem decided_alters : Alters [.tubes, .exact, .events, .shortWait, .payout, .coinMasks, .noteMask, .cmdQueue, .lineCounts,
    .maskRecs] s (decided p n s) :=
  ((windowShut_alters p p.retry s).seq (rs := [.tubes, .shortWait, .payout, .events]) (decideTube_alters n _)).seq
    (decided_after p n s)

theorem decided_carries : Carries { p with pulsed := none } (decided p n s) :=
  (((windowShut_carries p p.retry s).decideTube n).of_same (afterTubesIf_alters _ _ .payout (by decide))).replanIfMarked

theorem decided_extends : Extends (decideTube n (windowShut p p.retry s)).1 (decided p n s) :=
  (extends_growth.afterTubesIf _ _).trans (.of_alters (replanIfMarked_alters _))

theorem decided_length_le : (decided p n s).events.queue.length ≤ (decideTube n (windowShut p p.retry s)).1.events.queue.length + 1 := by
  have hsame : (decided p n s).events = (afterTubesIf (windowShut p p.retry s) (decideTube n (windowShut p p.retry s)).1).events :=
    replanIfMarked_alters _ .events (by decide)
  rw [hsame]
  exact afterTubesIf_length_le _ _

end

section
variable {p : Payout} {s : State} {n : Nat} (hrun : s.phase = .run) (hpayout : s.change.payout = some p)
  (hpulsed : p.pulsed = some n) (hwindow : p.windowCoins = 0) (hretry : p.isRetry = true)
include hrun hpayout hpulsed hwindow hretry

/-- The step of a second miss, by what its decision leaves before the ending tests. -/
theorem windowDecided {good : State → Prop}
    (hgood : ∀ t, t = finish (afterWindow (decideTube n (windowShut p p.retry s)).2 (decided p n s)) →
      Alters (moneyParts ++ dueParts) (decided p n s) t → Extends (decided p n s) t → good t) :
    Completes .exitWindowClose s coinParts good := by
  have hafter := afterWindow_alters (decideTube n (windowShut p p.retry s)).2 (decided p n s)
  have hframe := (decided_alters p n s).seq (rs := coinParts) hafter
  have hrun' := Eq.trans (hframe .phase (by decide)) hrun
  refine completes_ends ?_ hrun hframe (by decide) fun _ => ?_
  · refine next_finish ((whenActive_of_run hrun).trans ?_)
    exact windowCloses_decided hpayout hpulsed hwindow hretry
  · exact hgood _ rfl (hafter.seq (finish_alters _ hrun')) ((extends_growth.afterWindow _ _).trans (extends_finish hrun'))

variable (hn : n < s.change.tubes.length)
include hn

/-- A tube without a low sensor that missed twice is FAULTED; a drain of it ends (R48, R51). -/
theorem windowFaults (hlow : (s.tables.tube n).lowMark = 0) (hok : (s.tube n).cond = .ok) :
    Completes .exitWindowClose s coinParts fun t => (t.tube n).cond = .faulted ∧
      (t.tube n).count = (s.tube n).count ∧ RaisesFirst s t .tubeFault (some n) (some (pack 0 0 0 1)) ∧
      ∀ k, p.kind = .drain n (k + 1) → p.coins ≤ 255 → (s.credit.returnDue = 0 → t.change.payout = none) ∧
        Raises s t .drainDone (some n) (some (pack 0 0 2 p.coins)) := by
  have hdecide : decideTube n (windowShut p p.retry s) =
      (markReplan (raiseTubeFault n 1 (rawCond n .faulted (windowShut p p.retry s))), .notEmpty) := decideTube_fault hlow hok
  have hshut := windowShut_alters p p.retry s
  have hraw := hshut.seq (rs := [.tubes, .shortWait, .payout]) (rawCond_alters n .faulted _)
  have hmarked : Alters [.payout] (raiseTubeFault n 1 (rawCond n .faulted (windowShut p p.retry s)))
      (decideTube n (windowShut p p.retry s)).1 := by rw [hdecide]; exact markReplan_alters _
  have hlength := decided_length_le p n s
  have hdecided := (hmarked.seq (rs := [.exact, .events, .coinMasks, .noteMask, .cmdQueue, .lineCounts, .maskRecs, .payout])
    (decided_after p n s))
  have hext := (Extends.of_alters hmarked).trans (decided_extends p n s)
  have hfaulted := faulted_tube (n := n) (s := windowShut p p.retry s) hn 1 n
  rw [if_pos rfl] at hfaulted
  have hevents : (rawCond n .faulted (windowShut p p.retry s)).events = s.events := hraw .events (by decide)
  have hseconds : (rawCond n .faulted (windowShut p p.retry s)).seconds = s.seconds := hraw .seconds (by decide)
  have htube : (decided p n s).tube n = { s.tube n with cond := .faulted } :=
    (tube_congr (hdecided .tubes (by decide)) n).trans hfaulted
  have hraised (t : State) (h : Extends (decided p n s) t) : RaisesFirst s t .tubeFault (some n) (some (pack 0 0 0 1)) :=
    raisesFirst_of hevents hseconds (hext.trans h)
  refine windowDecided hrun hpayout hpulsed hwindow hretry fun t ht hframe hmore => ?_
  have hlast : t.tube n = { s.tube n with cond := .faulted } := (tube_congr (hframe .tubes (by decide)) n).trans htube
  refine ⟨by rw [hlast], by rw [hlast], hraised t hmore, fun k hkind hcoins => ?_⟩
  have hends : afterWindow (decideTube n (windowShut p p.retry s)).2 (decided p n s) =
      drainDone n p.coins .faulted (decided p n s) := by
    rw [afterWindow_drain (decided_carries p n s) hkind, hdecide]
    unfold nextDrain
    rw [if_neg (Nat.succ_ne_zero k), if_neg Verdict.noConfusion, if_pos (.inr rfl)]
  rw [hends] at ht
  have hboth := decided_alters p n s
  obtain ⟨-, -, -, hdue'⟩ := hboth .amounts (by decide)
  obtain ⟨hnone, hdone⟩ := drainDone_done (hboth .phase (by decide) |>.trans hrun) n p.coins .faulted
  rw [← ht] at hnone hdone
  have hcode : coinsSeen p.coins = p.coins := if_pos hcoins
  rw [hcode] at hdone
  refine ⟨fun hdue => hnone (hdue'.trans hdue), raises_of (fun hlen => ?_) (hboth .seconds (by decide)) hdone⟩
  · have hplaced : (decideTube n (windowShut p p.retry s)).1.events.queue.length ≤ s.events.queue.length + 1 := by
      have hsame : (decideTube n (windowShut p p.retry s)).1.events =
          (raiseTubeFault n 1 (rawCond n .faulted (windowShut p p.retry s))).events := hmarked .events (by decide)
      rw [hsame, ← hevents]
      exact raise_length_le _ _ _ _
    omega

/-- A tube whose uncovered low sensor shows it empty after two misses has no coin (R48). -/
theorem windowEmpties (hlow : 0 < (s.tables.tube n).lowMark) (hread : (s.tube n).low.accepted = some false)
    (hfull : (s.tube n).full.accepted ≠ some true) :
    Completes .exitWindowClose s coinParts fun t => (t.tube n).count = 0 ∧ (t.tube n).cond = (s.tube n).cond ∧
      RaisesFirst s t .tubeCorrected (some n) (some (pack 0 4 (s.tube n).count 0)) := by
  have hdecide : decideTube n (windowShut p p.retry s) = (markReplan (reconcile n (raiseCorrected n .empty (s.tube n).count 0
      (rawCount n 0 (windowShut p p.retry s)))), .empty) := decideTube_empty hlow hread
  have hraw := (windowShut_alters p p.retry s).seq (rs := [.tubes, .shortWait, .payout]) (rawCount_alters n 0 _)
  have hself : (raiseCorrected n .empty (s.tube n).count 0 (rawCount n 0 (windowShut p p.retry s))).tube n =
      { s.tube n with count := 0 } := (tube_rawCount n n 0 (windowShut p p.retry s)).trans (if_pos ⟨rfl, hn⟩)
  have htables : (rawCount n 0 (windowShut p p.retry s)).tables = s.tables := hraw .tables (by decide)
  have hlength : n < (rawCount n 0 (windowShut p p.retry s)).change.tubes.length := by
    rw [rawCount_tubes]
    simpa [modTube, windowShut] using hn
  obtain ⟨hcount, hcond⟩ := reconcile_count (n := n)
    (s := raiseCorrected n .empty (s.tube n).count 0 (rawCount n 0 (windowShut p p.retry s))) hlength
    (by rw [hself]; exact hfull) (.inr ⟨by rw [hself]; exact hread, by
      rw [hself]
      show 0 < ((rawCount n 0 (windowShut p p.retry s)).tables.tube n).lowMark
      rwa [htables]⟩)
  rw [hself] at hcount hcond
  have hmarked : Alters [.payout] (reconcile n (raiseCorrected n .empty (s.tube n).count 0
      (rawCount n 0 (windowShut p p.retry s)))) (decideTube n (windowShut p p.retry s)).1 := by
    rw [hdecide]
    exact markReplan_alters _
  have hdecided := hmarked.seq (rs := [.exact, .events, .coinMasks, .noteMask, .cmdQueue, .lineCounts, .maskRecs, .payout])
    (decided_after p n s)
  have hext := ((extends_growth.reconcile n _).trans (Extends.of_alters hmarked)).trans (decided_extends p n s)
  refine windowDecided hrun hpayout hpulsed hwindow hretry fun t _ hframe hmore => ?_
  have htubes := hdecided.seq (rs := .exact :: moneyParts ++ dueParts) hframe
  have hlast : t.tube n = _ := tube_congr (htubes .tubes (by decide)) n
  exact ⟨by rw [hlast, hcount], by rw [hlast, hcond],
    raisesFirst_of (hraw .events (by decide)) (hraw .seconds (by decide)) (hext.trans hmore)⟩

end

/-! ### Windows in which a coin was seen -/

section
variable {p : Payout} {s : State} {n : Nat} (hrun : s.phase = .run) (hpayout : s.change.payout = some p)
  (hpulsed : p.pulsed = some n) (hwindow : p.windowCoins ≠ 0)
include hrun hpayout hpulsed hwindow

/-- A RETURN payout goes on with its next take, is done, or ends short (R50). -/
theorem windowPays (hkind : p.kind = .refund) (hplan : p.replan = false) (hretry : p.retry = none) :
    (s.credit.returnDue = 0 → Completes .exitWindowClose s moneyParts fun t => t.change.payout = none ∧
      t.supply.granted.payout = false ∧ RaisesFirst s t .payoutDone none (val p.paid)) ∧
    (s.credit.returnDue ≠ 0 →
      (∀ m, firstTake p.plan = some m → Completes .exitWindowClose s [.payout] fun t =>
        ∃ q, t.change.payout = some q ∧ q.plan = p.plan ∧ Pulses m false q) ∧
      (firstTake p.plan = none → firstTake (changePlan s s.credit.returnDue).takes = none →
        Completes .exitWindowClose s moneyParts (EndsShort s.credit.returnDue s))) := by
  have hunmarked : replanIfMarked (windowShut p p.retry s) = windowShut p p.retry s :=
    replanIfMarked_unmarked rfl hplan
  have hcloses : windowCloses s = nextReturn (windowShut p p.retry s) := by
    rw [windowCloses_seen hpayout hpulsed hwindow, hunmarked, afterWindow_refund (windowShut_carries p p.retry s) hkind]
  have hshut := windowShut_alters p p.retry s
  have hexec : exec .exitWindowClose s = .next (finish (nextReturn (windowShut p p.retry s))) :=
    next_finish ((whenActive_of_run hrun).trans hcloses)
  refine ⟨fun hdue => ?_, fun hdue => ⟨fun m hm => ?_, fun hnone hnoplan => ?_⟩⟩
  · rw [nextReturn_done (windowShut_carries p p.retry s) hdue] at hexec
    exact completes_ends hexec hrun (hshut.seq (payoutDone_alters _)) (by decide) fun _ =>
      payoutDone_done (u := windowShut p p.retry s) hrun hdue
  · rw [nextReturn_take (u := windowShut p p.retry s) rfl hdue hretry hm] at hexec
    refine completes_ends hexec hrun (hshut.trans (pulse_alters m _)) (by decide) fun _ => ?_
    obtain ⟨q, hq, -, hsame, hpulses⟩ := pulse_finish (n := m) (u := windowShut p p.retry s) hrun rfl
    simp only [hretry] at hpulses
    exact ⟨q, hq, hsame, hpulses⟩
  · have htakes := congrArg Plan.takes (changePlan_setPayout s (windowShut p p.retry s).change.payout s.credit.returnDue)
    rw [nextReturn_planned (u := windowShut p p.retry s) rfl hdue hretry hnone,
      pulseOrShort_short (u := replan (windowShut p p.retry s)) rfl ((congrArg firstTake htakes).trans hnoplan)] at hexec
    exact completes_ends hexec hrun ((hshut.trans (replan_alters _)).seq (payoutShort_alters _)) (by decide) fun _ =>
      payoutShort_setPayout hrun _

/-- A drain whose last coin was seen is complete (R51). -/
theorem windowCompletes (hkind : p.kind = .drain n 0) (hcoins : p.coins ≤ 255) :
    Completes .exitWindowClose s moneyParts fun t => (s.credit.returnDue = 0 → t.change.payout = none) ∧
      RaisesFirst s t .drainDone (some n) (some (pack 0 0 0 p.coins)) := by
  have hcode : coinsSeen p.coins = p.coins := if_pos hcoins
  have hcarries := (windowShut_carries p p.retry s).replanIfMarked
  have hframe := (windowShut_alters p p.retry s).trans (replanIfMarked_alters _)
  have hcloses : windowCloses s = drainDone n p.coins .complete (replanIfMarked (windowShut p p.retry s)) := by
    rw [windowCloses_seen hpayout hpulsed hwindow, afterWindow_drain hcarries hkind]
    exact if_pos rfl
  refine completes_ends (next_finish ((whenActive_of_run hrun).trans hcloses)) hrun (hframe.seq (drainDone_alters n _ _ _))
    (by decide) fun _ => ?_
  obtain ⟨-, -, -, hdue⟩ := hframe .amounts (by decide)
  obtain ⟨hnone, hdone⟩ := drainDone_done (Eq.trans (hframe .phase (by decide)) hrun) n p.coins .complete
  rw [hcode] at hdone
  exact ⟨fun h => hnone (hdue.trans h), raisesFirst_of (hframe .events (by decide)) (hframe .seconds (by decide)) hdone⟩

end

/-- Settles O51. -/
theorem payoutsArePaidCoinByCoin : Obligations.PayoutsArePaidCoinByCoin := by
  intro p s hrun hpayout hlen
  refine ⟨?_, fun h => ?_, fun hheld hgranted hretry => ⟨fun hkind => ⟨fun n hn => ?_, fun hn => ?_⟩, fun n k hkind => ?_⟩,
    fun h => ?_, fun n hn hpulsed => ⟨?_, fun hwindow hfirst => ?_, fun hwindow hagain hlow hok => ?_,
    fun hwindow hagain hlow hread hfull => ?_, fun hwindow hkind hplan hretry => ?_, fun hwindow hkind hcoins => ?_⟩⟩
  · refine next_finish ((whenActive_of_run hrun).trans ?_)
    unfold pulseEnds
    rw [hpayout]
    rfl
  · exact next_finish ((whenActive_of_run hrun).trans (payoutGiven_nothing hpayout h))
  · have hgiven := payoutGiven_refund hpayout hheld hgranted hkind
    rw [pulseOrShort_pulse (p := { p with held := true, replan := false, plan := (changePlan s s.credit.returnDue).takes })
      rfl hn] at hgiven
    refine completes_ends (next_finish ((whenActive_of_run hrun).trans hgiven)) hrun
      ((setPayout_alters _ s).trans (pulse_alters n _)) (by decide) fun _ => ?_
    obtain ⟨q, hq, hheld', hplan, hpulses⟩ := pulse_finish (n := n) (u := { s with change.payout := some { p with
      held := true, replan := false, plan := (changePlan s s.credit.returnDue).takes } }) hrun rfl
    simp only [hretry] at hpulses
    exact ⟨q, hq, hheld', hplan, hpulses⟩
  · have hgiven := payoutGiven_refund hpayout hheld hgranted hkind
    rw [pulseOrShort_short (p := { p with held := true, replan := false, plan := (changePlan s s.credit.returnDue).takes })
      rfl hn] at hgiven
    exact completes_ends (next_finish ((whenActive_of_run hrun).trans hgiven)) hrun
      ((setPayout_alters _ s).seq (payoutShort_alters _)) (by decide) fun _ => payoutShort_setPayout hrun _
  · refine completes_ends (next_finish ((whenActive_of_run hrun).trans (payoutGiven_drain hpayout hheld hgranted hkind))) hrun
      ((setPayout_alters _ s).trans (pulse_alters n _)) (by decide) fun _ => ?_
    obtain ⟨q, hq, hheld', -, hpulses⟩ := pulse_finish (n := n)
      (u := { s with change.payout := some { p with held := true, replan := false } }) hrun rfl
    simp only [hretry] at hpulses
    exact ⟨q, hq, hheld', hpulses⟩
  · exact next_finish ((whenActive_of_run hrun).trans (windowCloses_nothing hpayout h))
  · exact coinInWindow hrun hpayout hpulsed (by omega)
  · exact windowMissed hrun hpayout hpulsed hwindow hfirst
  · exact windowFaults hrun hpayout hpulsed hwindow hagain (by omega) hlow hok
  · exact windowEmpties hrun hpayout hpulsed hwindow hagain (by omega) hlow hread hfull
  · exact windowPays hrun hpayout hpulsed hwindow hkind hplan hretry
  · exact windowCompletes hrun hpayout hpulsed hwindow hkind hcoins

end Sys2Proof.Machine
end

