-- ==== Sys2Proof/Proofs/Matrix.lean ====
section
/-! The matrix: home probes, the MOTOR grant, motor starts and the column switch (R61, R71, R72, R86, R88). -/

/- One lemma after another, to keep the memory of a compile small. -/
set_option Elab.async false

namespace Sys2Proof.Machine

/-! ### Spirals -/

theorem spiral_modSpiral (n m : Nat) (f : SpiralRec → SpiralRec) (s : State) : (modSpiral n f s).spiral m =
    if m = n ∧ n < s.spirals.length then f (s.spiral m) else s.spiral m := getD_updAt _ _ _ _ _

theorem spiral_congr {s t : State} (h : t.spirals = s.spirals) (m : Nat) : t.spiral m = s.spiral m := by
  unfold State.spiral
  rw [h]

theorem spiral_modSpiral_self {n : Nat} {s : State} (hn : n < s.spirals.length) (f : SpiralRec → SpiralRec) :
    (modSpiral n f s).spiral n = f (s.spiral n) := (spiral_modSpiral n n f s).trans (if_pos ⟨rfl, hn⟩)

theorem spiral_modSpiral_other {n m : Nat} (hm : m ≠ n) (f : SpiralRec → SpiralRec) (s : State) :
    (modSpiral n f s).spiral m = s.spiral m := (spiral_modSpiral n m f s).trans (if_neg fun h => hm h.1)

theorem modSpiral_length (n : Nat) (f : SpiralRec → SpiralRec) (s : State) :
    (modSpiral n f s).spirals.length = s.spirals.length := by simp

/-! ### The free matrix at the end of a step -/

/-- What the free matrix did at the end of a step stands. -/
theorem finish_kick {u : State} (hrun : u.phase = .run) :
    ∃ w, Alters [.sale, .payout, .grants] u w ∧ Alters choiceParts (kickMatrix w) (finish u) := by
  refine ⟨setSale (payoutTest (setSale u)), ?_, ?_⟩
  · exact ((setSale_alters u).seq (rs := [.sale, .payout, .grants]) (payoutTest_alters _)).seq (setSale_alters _)
  · unfold finish
    rw [hrun]
    exact lineChoose_alters _

/-- The matrix is free. -/
def Drive.free (d : Drive) : Prop := d.column = none ∧ d.row = none ∧ d.probing = none

theorem matrixFree_of {s : State} (h : s.drive.free) : matrixFree s = true := by
  obtain ⟨hcolumn, hrow, hprobing⟩ := h
  simp [matrixFree, hcolumn, hrow, hprobing]

section
variable {u : State} (hrun : u.phase = .run)
include hrun

/-- A free matrix closes the column switch of a revolution being started (R72). -/
theorem finish_column {r : Rev} (hfree : u.drive.free) (hrev : u.drive.rev = some r) (hstage : r.stage = .starting) :
    (finish u).drive.column = some r.spiral := by
  obtain ⟨w, hw, hrest⟩ := finish_kick hrun
  have hdrive : w.drive = u.drive := hw.drive_eq
  have hkick : kickMatrix w = { w with drive.column := some r.spiral } := by
    unfold kickMatrix
    rw [if_pos (matrixFree_of (by rw [hdrive]; exact hfree)), hdrive, hrev]
    exact if_pos hstage
  exact Eq.trans (hrest .column (by decide)) (congrArg (fun x : State => x.drive.column) hkick)

/-- A free matrix probes the spiral of a Home Spiral operation (R88). -/
theorem finish_probing {p : Nat} (hfree : u.drive.free) (hrev : u.drive.rev = none) (hdue : homeProbeDue u = some p) :
    (finish u).drive.probing = some p := by
  obtain ⟨w, hw, hrest⟩ := finish_kick hrun
  have hdrive : w.drive = u.drive := hw.drive_eq
  have hdue' : homeProbeDue w = some p := by
    unfold homeProbeDue at hdue ⊢
    rwa [hdrive]
  have hkick : kickMatrix w = { w with drive.probing := some p } := by
    unfold kickMatrix
    rw [if_pos (matrixFree_of (by rw [hdrive]; exact hfree)), hdrive, hrev]
    simp only [hdue']
  exact Eq.trans (hrest .probing (by decide)) (congrArg (fun x : State => x.drive.probing) hkick)

/-- Without a revolution being started no column switch closes. -/
theorem finish_column_open (hcolumn : u.drive.column = none) (hrev : ∀ r, u.drive.rev = some r → r.stage ≠ .starting) :
    (finish u).drive.column = none := by
  obtain ⟨w, hw, hrest⟩ := finish_kick hrun
  have hdrive : w.drive = u.drive := hw.drive_eq
  have hkick : (kickMatrix w).drive.column = none := by
    have hopen : w.drive.column = none := by rw [hdrive]; exact hcolumn
    unfold kickMatrix
    split
    · split
      next r hr =>
        rw [if_neg (hrev r (by rw [← hdrive]; exact hr))]
        exact hopen
      next =>
        split
        · exact hopen
        · split
          · exact hopen
          · exact hopen
    · exact hopen
  exact Eq.trans (hrest .column (by decide)) hkick

end

/-! ### Home probes (R61, R88) -/

theorem probeFinds_agree (b : Bool) (rest : List Bool) : probeFinds (b :: b :: b :: rest) = b := if_pos ⟨rfl, rfl⟩

theorem probeDone_nothing {s : State} (h : s.drive.probing = none) (b : Bool) : probeDone b s = s := by
  unfold probeDone
  rw [h]

/-- The spiral's record after its probe. -/
def probed (b : Bool) (p : Nat) (s : State) : State :=
  if (s.spiral p).probePending then
    modSpiral p (fun r => { r with probePending := false, state := if b then .ready else .notHome })
      (modSpiral p (fun r => { r with homeClosed := b }) { s with drive.probing := none })
  else modSpiral p (fun r => { r with homeClosed := b }) { s with drive.probing := none }

theorem probed_alters (b : Bool) (p : Nat) (s : State) : Alters [.probing, .spirals] s (probed b p s) := by
  have hread : Alters [.probing, .spirals] s (modSpiral p (fun r => { r with homeClosed := b }) { s with drive.probing := none }) :=
    (setProbing_alters none s).seq (modSpiral_alters _ _ _)
  exact .ite (hread.seq (modSpiral_alters _ _ _)) hread

theorem probed_spiral {b : Bool} {p : Nat} {s : State} (hp : p < s.spirals.length) : (probed b p s).spiral p =
    { s.spiral p with
      homeClosed := b
      probePending := false
      state := if (s.spiral p).probePending then (if b then .ready else .notHome) else (s.spiral p).state } := by
  have hread := spiral_modSpiral_self (s := { s with drive.probing := none }) hp (fun r => { r with homeClosed := b })
  unfold probed
  split
  next h =>
    rw [spiral_modSpiral_self (by rw [modSpiral_length]; exact hp), hread]
    rfl
  next h =>
    have hpending : (s.spiral p).probePending = false := Bool.eq_false_iff.2 h
    rw [hread, ← hpending]
    rfl

theorem probed_spiral_other {b : Bool} {p q : Nat} (hq : q ≠ p) (s : State) : (probed b p s).spiral q = s.spiral q := by
  unfold probed
  split
  · exact (spiral_modSpiral_other hq _ _).trans (spiral_modSpiral_other hq _ _)
  · exact spiral_modSpiral_other hq _ _

theorem probeDone_eq {b : Bool} {p : Nat} {s : State} (h : s.drive.probing = some p) : probeDone b s =
    if homeProbeDue (probed b p s) = some p ∧ (probed b p s).drive.rev = none then
      if b then homeReady p .probe (probed b p s) else startRev p (probed b p s)
    else probed b p s := by
  unfold probeDone
  rw [h]
  rfl

theorem probed_due (b : Bool) (p : Nat) (s : State) : homeProbeDue (probed b p s) = homeProbeDue s := by
  have hservice : (probed b p s).drive.service = s.drive.service := probed_alters b p s .serviceOp (by decide)
  unfold homeProbeDue
  rw [hservice]

/-- A Home Spiral operation whose spiral is found at home (R88). -/
theorem homeReady_ready {p : Nat} {w : HomeCause} {u : State} (hp : p < u.spirals.length) :
    ((homeReady p w u).spiral p).state = .ready := by
  have hleft : Alters [.serviceOp, .rev, .row, .grants] (setSpiral p .ready u) (leaveService (setSpiral p .ready u)) :=
    leaveService_alters _
  have hsame : (homeReady p w u).spirals = (setSpiral p .ready u).spirals := hleft .spirals (by decide)
  rw [spiral_congr hsame, setSpiral, spiral_modSpiral_self hp]

theorem homeReady_raises (p : Nat) (w : HomeCause) (u : State) :
    RaisesFirst u (homeReady p w u) .spiralHomeDone (some p) (some (pack 0 0 0 w.code)) := by
  have hleft := (setSpiral_alters p .ready u).seq (rs := [.spirals, .serviceOp, .rev, .row, .grants]) (leaveService_alters _)
  exact raisesFirst_of (hleft .events (by decide)) (hleft .seconds (by decide)) .rfl

section
variable {p : Nat} {s : State} (hrun : s.phase = .run) (hlen : s.spirals.length = 64) (hp : p < 64)
  (hprobing : s.drive.probing = some p) (b : Bool) (rest : List Bool)
include hrun hlen hp hprobing

/-- A probe that no Home Spiral waits for (R61). -/
theorem probe_keeps (hhome : ∀ o, s.drive.service = some o → o.home = false) :
    Completes (.homeProbe (b :: b :: b :: rest)) s [.spirals] fun t =>
      t.spiral p = { s.spiral p with
        homeClosed := b
        probePending := false
        state := if (s.spiral p).probePending then (if b then .ready else .notHome) else (s.spiral p).state } ∧
      ∀ q, q ≠ p → t.spiral q = s.spiral q := by
  have hdue : homeProbeDue s ≠ some p := by
    unfold homeProbeDue
    split
    next o ho => simp [hhome o ho]
    next => exact (Option.some_ne_none p).symm
  have hdone : probeDone (probeFinds (b :: b :: b :: rest)) s = probed b p s := by
    rw [probeFinds_agree, probeDone_eq hprobing, if_neg]
    rw [probed_due]
    exact fun h => hdue h.1
  have hframe := probed_alters b p s
  have hrun' := Eq.trans (hframe .phase (by decide)) hrun
  have hends := finish_alters _ hrun'
  have hspiral (q : Nat) := spiral_congr (hends .spirals (by decide)) q
  refine ⟨_, next_finish ((whenActive_of_run hrun).trans hdone), hframe.seq hends, ?_, fun q hq => ?_⟩
  · rw [hspiral, probed_spiral (by omega)]
  · rw [hspiral, probed_spiral_other hq]

/-- A probe that a Home Spiral with the grant waits for (R88). -/
theorem probe_serves {o : ServiceOp} (hservice : s.drive.service = some o) (hhome : o.home = true) (htold : o.told = true)
    (hspiral : o.spiral = p) (hrev : s.drive.rev = none) :
    Completes (.homeProbe (b :: b :: b :: rest)) s serviceParts fun t =>
      (b = true → (t.spiral p).state = .ready ∧ t.drive.service = none ∧
        RaisesFirst s t .spiralHomeDone (some p) (some (pack 0 0 0 0))) ∧
      (b = false → t.drive.rev = some (newRev p) ∧ t.drive.service = some o) := by
  have hframe := probed_alters b p s
  have hdue : homeProbeDue (probed b p s) = some p := by
    rw [probed_due]
    unfold homeProbeDue
    simp only [hservice, hhome, htold, Bool.and_self, if_true, hspiral]
  have hrev' : (probed b p s).drive.rev = none := Eq.trans (hframe .rev (by decide)) hrev
  have hlength : p < (probed b p s).spirals.length := by
    unfold probed
    split <;> simp only [modSpiral_length, hlen, hp]
  have hdone : probeDone (probeFinds (b :: b :: b :: rest)) s =
      if b then homeReady p .probe (probed b p s) else startRev p (probed b p s) := by
    rw [probeFinds_agree, probeDone_eq hprobing, if_pos ⟨hdue, hrev'⟩]
  have hexec : exec (.homeProbe (b :: b :: b :: rest)) s = _ := next_finish ((whenActive_of_run hrun).trans hdone)
  cases b with
  | true =>
    have hall := hframe.seq (rs := serviceParts) (homeReady_alters p .probe (probed true p s))
    have hrun' := Eq.trans (hall .phase (by decide)) hrun
    have hends := finish_alters _ hrun'
    refine completes_ends hexec hrun hall (by decide) fun _ => ⟨fun _ => ⟨?_, ?_, ?_⟩, fun h => absurd h (by decide)⟩
    · exact (congrArg SpiralRec.state (spiral_congr (hends .spirals (by decide)) p)).trans (homeReady_ready hlength)
    · exact Eq.trans (hends .serviceOp (by decide)) (congrArg Drive.service (homeReady_drive p .probe _))
    · exact ((homeReady_raises p .probe _).after (extends_finish hrun')).before (hframe .events (by decide))
        (hframe .seconds (by decide))
  | false =>
    have hall := hframe.seq (rs := serviceParts) (startRev_alters p (probed false p s))
    have hrun' := Eq.trans (hall .phase (by decide)) hrun
    have hends := finish_alters _ hrun'
    refine completes_ends hexec hrun hall (by decide) fun _ => ⟨fun h => absurd h (by decide), fun _ => ⟨?_, ?_⟩⟩
    · exact hends .rev (by decide)
    · exact Eq.trans (hends .serviceOp (by decide)) (Eq.trans (hframe .serviceOp (by decide)) hservice)

end

/-! ### The MOTOR grant (R71, R72, R86) -/

section
variable {s : State} (hrun : s.phase = .run) (hgranted : s.supply.granted.motor = true)
include hgranted

theorem motorGiven_vend {v : VendOp} (hservice : s.drive.service = none) (hvend : s.drive.vend = some v) :
    motorGiven s = if v.told then s else vendGiven v s := by
  unfold motorGiven
  simp only [hgranted, hservice, hvend, Bool.not_true, Bool.false_eq_true, if_false]

theorem motorGiven_service {o : ServiceOp} (hservice : s.drive.service = some o) :
    motorGiven s = if o.told then s else serviceGiven o s := by
  unfold motorGiven
  simp only [hgranted, hservice, Bool.not_true, Bool.false_eq_true, if_false]

include hrun

theorem vend_turns {v : VendOp} (hservice : s.drive.service = none) (hvend : s.drive.vend = some v) (htold : v.told = false)
    {p j : Nat} (hgiven : vendGiven v s = turnSpiral v p j s) : Completes .motorGrant s [.vendOp, .rev] fun t =>
      t.drive.rev = some (newRev p) ∧
      t.drive.vend = some { v with spiral := p, position := j, revolutions := 0, told := true } ∧
      (s.drive.free → t.drive.column = some p) := by
  have hgrant := motorGiven_vend hgranted hservice hvend
  rw [if_neg (by rw [htold]; exact Bool.false_ne_true), hgiven] at hgrant
  have hframe := turnSpiral_alters v p j s
  have hrun' : (turnSpiral v p j s).phase = .run := hrun
  refine completes_ends (next_finish ((whenActive_of_run hrun).trans hgrant)) hrun hframe (by decide) fun hends =>
    ⟨hends.frame .rev (by decide), hends.frame .vendOp (by decide), fun hfree => ?_⟩
  exact finish_column (u := turnSpiral v p j s) (r := newRev p) hrun' hfree rfl rfl

theorem service_turns {o : ServiceOp} (hservice : s.drive.service = some o) (htold : o.told = false) (hhome : o.home = false) :
    Completes .motorGrant s [.serviceOp, .rev] fun t =>
      t.drive.service = some { o with told := true } ∧ t.drive.rev = some (newRev o.spiral) ∧
      (s.drive.free → t.drive.column = some o.spiral) := by
  have hgrant := motorGiven_service hgranted hservice
  have hgiven : serviceGiven o s = startRev o.spiral { s with drive.service := some { o with told := true } } := by
    unfold serviceGiven
    exact if_neg (by rw [hhome]; exact Bool.false_ne_true)
  rw [if_neg (by rw [htold]; exact Bool.false_ne_true), hgiven] at hgrant
  have hframe := (setService_alters (some { o with told := true }) s).seq (rs := [.serviceOp, .rev]) (startRev_alters o.spiral _)
  refine completes_ends (next_finish ((whenActive_of_run hrun).trans hgrant)) hrun hframe (by decide) fun hends =>
    ⟨hends.frame .serviceOp (by decide), hends.frame .rev (by decide), fun hfree => ?_⟩
  exact finish_column (u := startRev o.spiral { s with drive.service := some { o with told := true } }) (r := newRev o.spiral)
    hrun hfree rfl rfl

theorem service_probes {o : ServiceOp} (hservice : s.drive.service = some o) (htold : o.told = false) (hhome : o.home = true)
    (hready : (s.spiral o.spiral).state ≠ .ready) : Completes .motorGrant s [.serviceOp, .spirals] fun t =>
      t.drive.service = some { o with told := true } ∧ (t.spiral o.spiral).probePending = false ∧
      (s.drive.free → s.drive.rev = none → t.drive.probing = some o.spiral) := by
  have hgrant := motorGiven_service hgranted hservice
  have hnot : ¬spiralReady s o.spiral = true := fun h => hready (eq_of_beq h)
  have hgiven : serviceGiven o s = modSpiral o.spiral (fun r => { r with probePending := false })
      { s with drive.service := some { o with told := true } } := by
    unfold serviceGiven
    exact (if_pos hhome).trans (if_neg hnot)
  rw [if_neg (by rw [htold]; exact Bool.false_ne_true), hgiven] at hgrant
  have hframe := (setService_alters (some { o with told := true }) s).seq (rs := [.serviceOp, .spirals])
    (modSpiral_alters o.spiral (fun r => { r with probePending := false }) _)
  refine completes_ends (next_finish ((whenActive_of_run hrun).trans hgrant)) hrun hframe (by decide) fun hends =>
    ⟨hends.frame .serviceOp (by decide), ?_, fun hfree hrev => ?_⟩
  · rw [spiral_congr (hends.frame .spirals (by decide)), spiral_modSpiral]
    split
    · rfl
    next hout =>
      have hdefault : s.spiral o.spiral = SpiralRec.initial := List.getD_eq_default _ _ (by
        have hlen : ¬o.spiral < s.spirals.length := fun h => hout ⟨rfl, h⟩
        omega)
      exact congrArg SpiralRec.probePending hdefault
  · refine finish_probing (u := modSpiral o.spiral (fun r => { r with probePending := false })
      { s with drive.service := some { o with told := true } }) hrun hfree hrev ?_
    simp only [homeProbeDue, modSpiral_drive, hhome, Bool.and_self, if_true]

end

/-! ### Motor starts (R72, R73, R79) -/

theorem motorStarts_turns {s : State} {r : Rev} {v : VendOp} (hrev : s.drive.rev = some r) (hstage : r.stage = .starting)
    (hcolumn : s.drive.column = some r.spiral) (hservice : s.drive.service = none) (hvend : s.drive.vend = some v) (b : Bool) :
    motorStarts b s = { s with
      drive.row := some r.spiral
      drive.rev := some { r with
        stage := .turning
        leaveDone := !(s.spiral r.spiral).homeClosed
        switch := { accepted := some (s.spiral r.spiral).homeClosed, runValue := (s.spiral r.spiral).homeClosed, runLen := 0 }
        window := v.params.dropConfirm
        armed := !b }
      drive.vend := some { v with revolutions := v.revolutions + 1 } } := by
  unfold motorStarts
  simp only [hrev, hstage, hcolumn, and_self, if_true, runningService, hasWindow, driveParams, hservice, hvend, Option.map_some]

theorem motorStarts_nothing {s : State} (h : ∀ r, s.drive.rev = some r → r.stage ≠ .starting ∨ s.drive.column ≠ some r.spiral)
    (b : Bool) : motorStarts b s = s := by
  unfold motorStarts
  split
  · rfl
  next r hr => exact if_neg fun hboth => (h r hr).elim (fun hs => hs hboth.1) fun hc => hc hboth.2

theorem columnOpens_of_row {s : State} {p : Nat} (h : s.drive.row = some p) : columnOpens s = s := by
  unfold columnOpens
  rw [h]
  cases s.drive.column <;> rfl

theorem columnOpens_opens {s : State} {p : Nat} (hcolumn : s.drive.column = some p) (hrow : s.drive.row = none)
    (hrev : ∀ r, s.drive.rev = some r → r.stage ≠ .starting) : columnOpens s = { s with drive.column := none } := by
  unfold columnOpens
  simp only [hcolumn, hrow]
  split
  next r hr => exact if_neg fun h => hrev r hr h.1
  next => rfl

/-- Settles O53. -/
theorem matrixServesOneCrossingAtATime : Obligations.MatrixServesOneCrossingAtATime := by
  intro s hrun hlen
  refine ⟨fun hprobing reads => ?_, fun p hp hprobing b rest => ⟨?_, fun o hservice hhome htold hspiral hrev => ?_⟩,
    fun hgranted => ?_, fun hgranted => ⟨fun v hservice hvend => ⟨fun htold => ?_, fun htold => ⟨fun p j hchosen => ?_,
    fun hready hchoose hfly => ?_⟩⟩, fun o hservice htold => ⟨?_, ?_⟩⟩, fun b => ⟨fun r v hrev hstage hcolumn hservice hvend => ?_,
    fun h => ?_⟩, fun p hrow => ?_, fun p hcolumn hrow hrev => ?_⟩
  · exact next_finish ((whenActive_of_run hrun).trans (probeDone_nothing hprobing _))
  · exact probe_keeps hrun hlen hp hprobing b rest
  · exact probe_serves hrun hlen hp hprobing b rest hservice hhome htold hspiral hrev
  · refine next_finish ((whenActive_of_run hrun).trans ?_)
    unfold motorGiven
    simp only [hgranted, Bool.not_false, if_true]
  · exact next_finish ((whenActive_of_run hrun).trans ((motorGiven_vend hgranted hservice hvend).trans (if_pos htold)))
  · refine vend_turns hrun hgranted hservice hvend htold ?_
    unfold vendGiven
    rcases hchosen with ⟨hready, rfl, rfl⟩ | ⟨hready, hchoose⟩
    · exact if_pos hready
    · rw [if_neg (by rw [hready]; exact Bool.false_ne_true), hchoose]
  · have hgrant := motorGiven_vend hgranted hservice hvend
    have hgiven : vendGiven v s = vendFails v .noReadySpiral s := by
      unfold vendGiven
      rw [if_neg (by rw [hready]; exact Bool.false_ne_true), hchoose]
    rw [if_neg (by rw [htold]; exact Bool.false_ne_true), hgiven] at hgrant
    have hframe := vendFails_alters v .noReadySpiral s
    have hrun' := Eq.trans (hframe .phase (by decide)) hrun
    exact completes_ends (next_finish ((whenActive_of_run hrun).trans hgrant)) hrun hframe (by decide) fun _ =>
      notSold_of (.refl s) hfly (finish_alters _ hrun') hservice
  · exact service_turns hrun hgranted hservice htold
  · exact service_probes hrun hgranted hservice htold
  · have hstarts := motorStarts_turns hrev hstage hcolumn hservice hvend b
    refine completes_ends (next_finish ((whenActive_of_run hrun).trans hstarts)) hrun ?_ (by decide) fun hends =>
      ⟨hends.frame .row (by decide), hends.frame .vendOp (by decide), _, rfl, hends.frame .rev (by decide)⟩
    intro q hq
    cases q <;> simp_all [Part.same]
  · exact next_finish ((whenActive_of_run hrun).trans (motorStarts_nothing h b))
  · exact next_finish ((whenActive_of_run hrun).trans (columnOpens_of_row hrow))
  · have hopens := columnOpens_opens hcolumn hrow hrev
    have hframe := columnOpens_alters s
    rw [hopens] at hframe
    exact ⟨_, next_finish ((whenActive_of_run hrun).trans hopens), hframe.seq (finish_alters _ hrun),
      finish_column_open (u := { s with drive.column := none }) hrun rfl hrev⟩

end Sys2Proof.Machine
end

