-- ==== Sys2Proof/Proofs/Revolutions.lean ====
section
/-! What follows a revolution of a vend: the next spiral, or the end (R80 to R83); and one revolution, complete or failed
(R73 to R77). -/

/- One lemma after another, to keep the memory of a compile small. -/
set_option Elab.async false

namespace Sys2Proof.Machine

/-! ### A vend's end leaves the spirals and the switches -/

/-- What a vend's end changes. -/
def vendEndParts : List Part := .vendOp :: .rev :: .row :: outcomeParts

theorem vendFails_ends_alters (v : VendOp) (w : VendFailure) (u : State) : Alters vendEndParts u (vendFails v w u) :=
  ((leaveVend_alters u).seq (rs := vendEndParts) (failVend_alters _ _ _)).seq (afterVend_alters _ _)

theorem vendSucceeds_ends_alters (v : VendOp) (u : State) : Alters vendEndParts u (vendSucceeds v u) :=
  (((leaveVend_alters u).seq (rs := vendEndParts) (advancePointer_alters _ _ _)).seq (rs := vendEndParts)
    (commitVend_alters _ _)).seq (afterVend_alters _ _)

theorem failed_sels {v : VendOp} {why : VendFailure} {s u t : State} (hu : Unsettled s u)
    (hfly : s.credit.inFlight.isSome = true) (ht : Alters dueParts (vendFails v why u) t) : t.sels = u.sels :=
  Eq.trans (failed_ends hu hfly ht .sels (by decide)) (Eq.trans (returned_alters _ .sels (by decide))
    (leaveVend_alters u .sels (by decide)))

/-- A vend is named by its selection alone in what its failure says. -/
theorem NotSold.tried {v : VendOp} {why : VendFailure} {s t : State} (h : NotSold { v with tried := true } why s t) :
    NotSold v why s t := ⟨h.gone, h.sales, h.raised, h.totals, h.restored⟩

/-! ### The next spiral (R83) -/

/-- The vend's record before the choice of its next spiral. -/
def retrying (v : VendOp) (u : State) : State := { u with drive.vend := some { v with tried := true }, drive.rev := none }

theorem retrying_alters (v : VendOp) (u : State) : Alters [.vendOp, .rev] u (retrying v u) := by
  intro p hp; cases p <;> simp_all [Part.same, retrying]

/-- The selection sold out. -/
def sellOut (i : Nat) (u : State) : State := modSel i (fun k => { k with state := .soldOut }) u

section
variable {v : VendOp} {b : Bool} {u : State}

theorem moveOn_none (h : choose u v.sel = none) : moveOn v b u = vendFails { v with tried := true } .noProduct
    (raise .selectionSoldOut (some v.sel) none (sellOut v.sel (retrying v u))) := by
  have hchoose := ((retrying_alters v u).choose_eq v.sel).trans h
  unfold moveOn
  dsimp only
  split
  next => rfl
  next p j hsome => exact absurd (hsome.symm.trans hchoose) (Option.some_ne_none _)

theorem moveOn_some {p j : Nat} (h : choose u v.sel = some (p, j)) : moveOn v b u =
    if v.params.autoNext then turnSpiral { v with tried := true } p j (retrying v u)
    else vendFails { v with tried := true } (if b then .spiralFault else .noProduct) (retrying v u) := by
  have hchoose := ((retrying_alters v u).choose_eq v.sel).trans h
  unfold moveOn
  dsimp only
  split
  next hnone => exact absurd (hchoose.symm.trans hnone) (Option.some_ne_none _)
  next q k hsome =>
    obtain ⟨rfl, rfl⟩ := Prod.mk.inj (Option.some.inj (hchoose.symm.trans hsome))
    rfl

theorem moveOn_ends_alters (v : VendOp) (b : Bool) (u : State) : Alters vendEndParts u (moveOn v b u) := by
  have hretry := retrying_alters v u
  cases h : choose u v.sel with
  | none =>
    rw [moveOn_none h]
    exact ((hretry.seq (rs := vendEndParts) (modSel_alters _ _ _)).seq (rs := vendEndParts) (raise_alters _ _ _ _)).trans
      (vendFails_ends_alters _ _ _)
  | some x =>
    rw [moveOn_some h]
    exact .ite (hretry.seq (turnSpiral_alters _ _ _ _)) (hretry.seq (vendFails_ends_alters _ _ _))

/-- The motor stays off when the vend moves on. -/
theorem moveOn_row (hservice : u.drive.service = none) (hrow : u.drive.row = none) : (moveOn v b u).drive.row = none := by
  have hgone (w : State) (why : VendFailure) (x : VendOp) (hw : w.drive.service = none) : (vendFails x why w).drive.row = none := by
    rw [vendFails_drive]
    exact (withoutVend_gone hw).2.2
  cases h : choose u v.sel with
  | none =>
    rw [moveOn_none h]
    exact hgone _ _ _ hservice
  | some x =>
    rw [moveOn_some h]
    split
    · exact hrow
    · exact hgone _ _ _ hservice

end

theorem Unsettled.retrying {s u : State} (hu : Unsettled s u) (v : VendOp) : Unsettled s (retrying v u) :=
  hu.after (retrying_alters v u) fun h => hu.room h

section
variable {v : VendOp} {b : Bool} {s u t : State} (hu : Unsettled s u) (hroom : s.events.queue.length ≤ 28 → u.events.queue.length ≤ 29)
  (hsels : u.sels = s.sels) (hlt : v.sel < s.sels.length)

include hu hroom hsels hlt in
/-- A selection sold out keeps its sale counter. -/
theorem unsettled_soldOut : Unsettled s (raise .selectionSoldOut (some v.sel) none (sellOut v.sel (retrying v u))) := by
  have hbase := hu.retrying v
  have hlen : (raise .selectionSoldOut (some v.sel) none (sellOut v.sel (retrying v u))).events.queue.length ≤
      u.events.queue.length + 1 := raise_length_le _ _ _ _
  have hkept : v.sel < (retrying v u).sels.length := by
    have hsame : (retrying v u).sels = s.sels := hsels
    rwa [hsame]
  refine ⟨hbase.amounts, hbase.fly, hbase.pend, hbase.audit, hbase.tables, fun i => ?_, hbase.seconds, fun h => ?_⟩
  · by_cases hi : i = v.sel
    · subst hi
      exact (congrArg SelKept.sales (sel_modSel hkept _)).trans (hbase.sales v.sel)
    · exact (congrArg SelKept.sales (sel_modSel_other hi _ _)).trans (hbase.sales i)
  · have := hroom h
    omega

variable (hservice : u.drive.service = none) (hfly : s.credit.inFlight.isSome = true) (htold : v.told = true)
  (ht : Alters dueParts (moveOn v b u) t) (hext : Extends (moveOn v b u) t)
include hu hroom hsels hlt hservice hfly ht hext

/-- With no spiral left the selection is sold out and the vend ends. -/
theorem moveOn_sellsOut (h : choose u v.sel = none) : (t.sel v.sel).state = .soldOut ∧ NotSold v .noProduct s t ∧
    Raises s t .selectionSoldOut (some v.sel) none := by
  rw [moveOn_none h] at ht hext
  have hsold := unsettled_soldOut hu hroom hsels hlt
  have hkept : v.sel < (retrying v u).sels.length := by
    have hsame : (retrying v u).sels = s.sels := hsels
    rwa [hsame]
  refine ⟨?_, (notSold_of hsold hfly ht hservice).tried, ?_⟩
  · have hstate : (sellOut v.sel (retrying v u)).sel v.sel = _ := sel_modSel hkept _
    rw [sel_congr (failed_sels hsold hfly ht)]
    exact congrArg SelKept.state hstate
  · exact raises_of (u := sellOut v.sel (retrying v u)) (fun hlen => Nat.lt_of_le_of_lt (hroom hlen) (by decide))
      hu.seconds ((extends_growth.vendFails _ _ _).trans hext)

include htold in
/-- A vend that moves on (R83): with no spiral left it ends; with one it turns it, or ends where AUTO_NEXT is not set. -/
theorem moveOn_moves :
    (choose u v.sel = none → (t.sel v.sel).state = .soldOut ∧ NotSold v .noProduct s t ∧
      Raises s t .selectionSoldOut (some v.sel) none) ∧
    ∀ p j, choose u v.sel = some (p, j) → t.sels = s.sels ∧
      (v.params.autoNext = true → t.drive.rev = some (newRev p) ∧
        t.drive.vend = some { v with spiral := p, position := j, revolutions := 0, tried := true }) ∧
      (v.params.autoNext = false → NotSold v (if b then .spiralFault else .noProduct) s t) := by
  refine ⟨moveOn_sellsOut hu hroom hsels hlt hservice hfly ht hext, fun p j h => ?_⟩
  rw [moveOn_some h] at ht
  cases hauto : v.params.autoNext with
  | true =>
    rw [if_pos hauto] at ht
    have hvend : t.drive.vend = some { v with spiral := p, position := j, revolutions := 0, tried := true, told := true } :=
      ht .vendOp (by decide)
    exact ⟨Eq.trans (ht .sels (by decide)) hsels, fun _ => ⟨ht .rev (by decide), hvend.trans (by rw [htold])⟩,
      fun hno => absurd hno (by decide)⟩
  | false =>
    rw [if_neg (by rw [hauto]; exact Bool.false_ne_true)] at ht
    have hbase := hu.retrying v
    exact ⟨(failed_sels hbase hfly ht).trans hsels, fun hyes => absurd hyes (by decide),
      fun _ => (notSold_of hbase hfly ht hservice).tried⟩

end

theorem firstReady_states {s t : State} (h : ∀ p, spiralReady t p = spiralReady s p) (j : Nat) (l : List Nat) :
    firstReady t j l = firstReady s j l := by
  induction l generalizing j with
  | nil => rfl
  | cons q l ih => simp only [firstReady, h, ih]

theorem choose_states {s t : State} (htables : t.tables = s.tables) (hsels : t.sels = s.sels)
    (h : ∀ p, spiralReady t p = spiralReady s p) (i : Nat) : choose t i = choose s i := by
  simp only [choose, htables, State.sel, hsels, firstReady_states h]

/-! ### A revolution that fails (R82) -/

/-- The spiral judged by its failure, its home switch kept, the motor stopped, and the event. -/
def failedRev (r : Rev) (f : Failure) (s : State) : State :=
  raiseSpiralFault r.spiral f (setSpiral r.spiral f.state (keepSwitch r (stopMotor s)))

section
variable {r : Rev} {f : Failure} {s : State}

theorem failedRev_alters : Alters [.row, .spirals, .events] s (failedRev r f s) :=
  (((setRow_alters none s).seq (rs := [.row, .spirals]) (modSpiral_alters _ _ _)).seq (rs := [.row, .spirals])
    (setSpiral_alters _ _ _)).seq (raise_alters _ _ _ _)

theorem failedRev_raises : RaisesFirst s (failedRev r f s) .spiralFault (some r.spiral)
    (some (pack 0 0 f.kindCode f.causeCode)) :=
  raisesFirst_of (u := setSpiral r.spiral f.state (keepSwitch r (stopMotor s))) rfl rfl .rfl

theorem failedRev_spiral (hp : r.spiral < s.spirals.length) : (failedRev r f s).spiral r.spiral =
    { s.spiral r.spiral with state := f.state, homeClosed := r.switch.accepted == some true } := by
  have hkept : (keepSwitch r (stopMotor s)).spiral r.spiral = _ := spiral_modSpiral_self (s := stopMotor s) hp _
  have hset : (failedRev r f s).spiral r.spiral = _ :=
    spiral_modSpiral_self (s := keepSwitch r (stopMotor s)) (by rw [keepSwitch, modSpiral_length]; exact hp) _
  rw [hset, hkept]
  rfl

theorem failedRev_spiral_other {q : Nat} (hq : q ≠ r.spiral) : (failedRev r f s).spiral q = s.spiral q :=
  (spiral_modSpiral_other (s := keepSwitch r (stopMotor s)) hq _).trans (spiral_modSpiral_other hq _ _)

/-- The choice after a failure reads the failed spiral's state alone. -/
theorem failedRev_choose (hp : r.spiral < s.spirals.length) (i : Nat) :
    choose (failedRev r f s) i = choose (setSpiral r.spiral f.state s) i := by
  refine choose_states (s := setSpiral r.spiral f.state s) (t := failedRev r f s) rfl rfl (fun p => ?_) i
  have hset : (setSpiral r.spiral f.state s).spiral r.spiral = _ := spiral_modSpiral_self hp _
  unfold spiralReady
  by_cases hq : p = r.spiral
  · subst hq
    rw [failedRev_spiral hp, hset]
  · have hother : (setSpiral r.spiral f.state s).spiral p = _ := spiral_modSpiral_other hq _ _
    rw [failedRev_spiral_other hq, hother]

end

/-- A vend's revolution fails as R82 says, by this command. -/
def FailsBy (r : Rev) (v : VendOp) (s : State) (c : Instr) (f : Failure) (kind cause : Nat) : Prop :=
  let told : State → Prop := fun t => t.drive.row = none ∧
    t.spiral r.spiral = { s.spiral r.spiral with state := f.state, homeClosed := r.switch.accepted == some true } ∧
    (∀ q, q ≠ r.spiral → t.spiral q = s.spiral q) ∧
    RaisesFirst s t .spiralFault (some r.spiral) (some (pack 0 0 kind cause))
  let next := choose (setSpiral r.spiral f.state s) v.sel
  (v.params.dropConfirm = true → r.drop = false →
    Completes c s [.rev, .row, .spirals, .events] fun t => told t ∧
      ∃ q, t.drive.rev = some q ∧ q.spiral = r.spiral ∧ q.stage = .tail ∧ q.failure = some f ∧ q.drop = false) ∧
  (v.params.dropConfirm = true → r.drop = true → Completes c s spiralParts fun t => told t ∧ Sold v s t) ∧
  (v.params.dropConfirm = false → s.sels.length = 64 → v.sel < 64 →
    Completes c s spiralParts fun t => told t ∧
      (next = none → (t.sel v.sel).state = .soldOut ∧ NotSold v .noProduct s t ∧
        Raises s t .selectionSoldOut (some v.sel) none) ∧
      ∀ q j, next = some (q, j) → t.sels = s.sels ∧
        (v.params.autoNext = true → t.drive.rev = some (newRev q) ∧
          t.drive.vend = some { v with spiral := q, position := j, revolutions := 0, tried := true }) ∧
        (v.params.autoNext = false → NotSold v .spiralFault s t))

theorem runningService_none {s : State} (h : s.drive.service = none) : runningService s = none := by
  unfold runningService
  rw [h]

section
variable {r : Rev} {v : VendOp} {s : State} (hrun : s.phase = .run) (hlen : s.spirals.length = 64) (hp : r.spiral < 64)
  (hservice : s.drive.service = none) (hvend : s.drive.vend = some v)
include hservice hvend

theorem revFails_vend (f : Failure) : revFails r f s =
    if !v.params.dropConfirm then moveOn v true (failedRev r f s)
    else if r.drop then vendSucceeds v (failedRev r f s) else enterTail { r with failure := some f } (failedRev r f s) := by
  have hnone : runningService (keepSwitch r (stopMotor s)) = none := runningService_none hservice
  have hsome : (keepSwitch r (stopMotor s)).drive.vend = some v := hvend
  unfold revFails
  simp only [hnone, hsome]
  rfl

variable (htold : v.told = true) (hfly : s.credit.inFlight.isSome = true)
include hrun hlen hp htold hfly

/-- The failure of a turning revolution, by whatever command brings it. -/
theorem fails_by {c : Instr} {f : Failure} {x : Rev} (hspiral : x.spiral = r.spiral) (hswitch : x.switch = r.switch)
    (hdrop : x.drop = r.drop) (hexec : exec c s = .next (finish (revFails x f s))) :
    FailsBy r v s c f f.kindCode f.causeCode := by
  have hframe := failedRev_alters (r := x) (f := f) (s := s)
  have hpx : x.spiral < s.spirals.length := by omega
  have hroom (h : s.events.queue.length ≤ 28) : (failedRev x f s).events.queue.length ≤ 29 :=
    (raise_length_le _ _ _ (setSpiral x.spiral f.state (keepSwitch x (stopMotor s)))).trans (Nat.succ_le_succ h)
  have hunsettled : Unsettled s (failedRev x f s) := .of_alters hframe fun h => (hroom h).trans (by decide)
  have hrun' := Eq.trans (hframe .phase (by decide)) hrun
  have hservice' : (failedRev x f s).drive.service = none := hservice
  have hrow' : (failedRev x f s).drive.row = none := rfl
  have hsels' : (failedRev x f s).sels = s.sels := rfl
  have hfails := revFails_vend (r := x) hservice hvend f
  have htoldAt {u t : State} (hrow : u.drive.row = none) (hu : u.spirals = (failedRev x f s).spirals)
      (hext : Extends (failedRev x f s) u) (ht : Alters dueParts u t) : t.drive.row = none ∧
      t.spiral r.spiral = { s.spiral r.spiral with state := f.state, homeClosed := r.switch.accepted == some true } ∧
      (∀ q, q ≠ r.spiral → t.spiral q = s.spiral q) ∧
      RaisesFirst s t .spiralFault (some r.spiral) (some (pack 0 0 f.kindCode f.causeCode)) := by
    have hspirals : t.spirals = (failedRev x f s).spirals := Eq.trans (ht .spirals (by decide)) hu
    refine ⟨Eq.trans (ht .row (by decide)) hrow, ?_, fun q hq => ?_, ?_⟩
    · rw [spiral_congr hspirals, ← hspiral, failedRev_spiral hpx, hswitch]
    · rw [spiral_congr hspirals, failedRev_spiral_other (by rw [hspiral]; exact hq)]
    · rw [← hspiral]
      exact failedRev_raises.after (hext.trans (extends_of_same (ht .events (by decide)) (ht .seconds (by decide))))
  refine ⟨fun hconfirm hno => ?_, fun hconfirm hyes => ?_, fun hconfirm hsels hv => ?_⟩
  · rw [if_neg (by simp [hconfirm]), if_neg (by rw [hdrop, hno]; exact Bool.false_ne_true)] at hfails
    rw [hfails] at hexec
    have htail := enterTail_alters { x with failure := some f } (failedRev x f s)
    have hall := hframe.seq (rs := [.rev, .row, .spirals, .events]) htail
    have hends := finish_alters _ (Eq.trans (hall .phase (by decide)) hrun)
    refine completes_ends hexec hrun hall (by decide) fun _ =>
      ⟨htoldAt (htail .row (by decide)) (htail .spirals (by decide)) (.of_alters htail) hends,
        { x with failure := some f, stage := .tail }, hends .rev (by decide), hspiral, rfl, rfl, hdrop.trans hno⟩
  · rw [if_neg (by simp [hconfirm]), if_pos (by rw [hdrop, hyes])] at hfails
    rw [hfails] at hexec
    have hsold := vendSucceeds_ends_alters v (failedRev x f s)
    have hall := hframe.seq (rs := spiralParts) hsold
    have hends := finish_alters _ (Eq.trans (hall .phase (by decide)) hrun)
    have hrow : (vendSucceeds v (failedRev x f s)).drive.row = none := by
      rw [vendSucceeds_drive]
      exact (withoutVend_gone hservice').2.2
    exact completes_ends hexec hrun hall (by decide) fun _ =>
      ⟨htoldAt hrow (hsold .spirals (by decide)) (extends_growth.vendSucceeds _ _) hends,
        sold_of hunsettled hsels' hservice' hfly hends⟩
  · rw [if_pos (by simp [hconfirm])] at hfails
    rw [hfails] at hexec
    have hmoved := moveOn_ends_alters v true (failedRev x f s)
    have hall := hframe.seq (rs := spiralParts) hmoved
    have hrun'' := Eq.trans (hall .phase (by decide)) hrun
    have hends := finish_alters _ hrun''
    obtain ⟨hnone, hsome⟩ := moveOn_moves hunsettled hroom hsels' (by omega) hservice' hfly htold hends (extends_finish hrun'')
    rw [failedRev_choose hpx, hspiral] at hnone hsome
    exact completes_ends hexec hrun hall (by decide) fun _ =>
      ⟨htoldAt (moveOn_row hservice' hrow') (hmoved .spirals (by decide)) (extends_growth.moveOn _ _ _) hends, hnone, hsome⟩

end

/-! ### A revolution that returns home (R73, R74, R77) -/

section
variable {r : Rev} {v : VendOp} {s : State}

theorem turningRev_of (hrev : s.drive.rev = some r) (hstage : r.stage = .turning) : turningRev s = some r := by
  unfold turningRev
  simp only [hrev, hstage, if_true]

theorem driveParams_vend (hservice : s.drive.service = none) (hvend : s.drive.vend = some v) : driveParams s = v.params := by
  unfold driveParams
  simp only [hservice, hvend]

/-- The spiral's record of a revolution that took this time. -/
def timed (v : VendOp) (time : Nat) (x : SpiralRec) : SpiralRec :=
  { x with homeClosed := true, lastRev := min 65535 time, slow := decide (4 * v.params.revLimitMs < 5 * time) }

/-- The state of a complete revolution before its tail or its sale. -/
def timedRev (r : Rev) (time : Nat) (s : State) : State := storeTime r.spiral time (keepSwitch r (stopMotor s))

theorem timedRev_alters (r : Rev) (time : Nat) (s : State) : Alters [.row, .spirals, .events] s (timedRev r time s) :=
  ((setRow_alters none s).seq (rs := [.row, .spirals]) (modSpiral_alters _ _ _)).seq (storeTime_alters _ _ _)

theorem timedRev_spiral {time : Nat} (hp : r.spiral < s.spirals.length) (hservice : s.drive.service = none)
    (hvend : s.drive.vend = some v) (hclosed : r.switch.accepted = some true) :
    (timedRev r time s).spiral r.spiral = timed v time (s.spiral r.spiral) := by
  have hkept : (keepSwitch r (stopMotor s)).spiral r.spiral = _ := spiral_modSpiral_self (s := stopMotor s) hp _
  have hparams : driveParams (keepSwitch r (stopMotor s)) = v.params := driveParams_vend hservice hvend
  have hlen : r.spiral < (keepSwitch r (stopMotor s)).spirals.length := by rw [keepSwitch, modSpiral_length]; exact hp
  have hset : (timedRev r time s).spirals = (modSpiral r.spiral (fun k => { k with
      lastRev := min Config.maxCount16 time
      slow := decide (4 * v.params.revLimitMs < 5 * time) }) (keepSwitch r (stopMotor s))).spirals := by
    unfold timedRev storeTime
    rw [hparams]
    dsimp only
    split <;> rfl
  rw [spiral_congr hset, spiral_modSpiral_self hlen, hkept, hclosed]
  rfl

theorem timedRev_events {time : Nat} (hservice : s.drive.service = none) (hvend : s.drive.vend = some v) :
    (4 * v.params.revLimitMs < 5 * time → RaisesFirst s (timedRev r time s) .spiralSlow (some r.spiral) (val time)) ∧
    (¬4 * v.params.revLimitMs < 5 * time → (timedRev r time s).events = s.events) := by
  have hparams : driveParams (keepSwitch r (stopMotor s)) = v.params := driveParams_vend hservice hvend
  unfold timedRev storeTime
  rw [hparams]
  refine ⟨fun h => ?_, fun h => ?_⟩
  · rw [if_pos (decide_eq_true h)]
    exact raisesFirst_of rfl rfl .rfl
  · rw [if_neg (by simpa using h)]
    rfl

theorem timedRev_length (r : Rev) (time : Nat) (s : State) :
    (timedRev r time s).events.queue.length ≤ s.events.queue.length + 1 := by
  unfold timedRev storeTime
  dsimp only
  split
  · exact raise_length_le _ _ _ _
  · exact Nat.le_succ _

theorem revComplete_vend {time : Nat} (hservice : s.drive.service = none) (hvend : s.drive.vend = some v) :
    revComplete r time s = if !v.params.dropConfirm || r.drop then vendSucceeds v (timedRev r time s)
      else enterTail { r with time := time } (timedRev r time s) := by
  have hnone : runningService (keepSwitch r (stopMotor s)) = none := runningService_none hservice
  have hsome : (timedRev r time s).drive.vend = some v := Eq.trans (timedRev_alters r time s .vendOp (by decide)) hvend
  unfold timedRev at hsome
  unfold revComplete
  simp only [hnone, hsome]
  rfl

variable (hrun : s.phase = .run) (hlen : s.spirals.length = 64) (hp : r.spiral < 64)
  (hrev : s.drive.rev = some r) (hstage : r.stage = .turning) (hservice : s.drive.service = none)
  (hvend : s.drive.vend = some v) (hfly : s.credit.inFlight.isSome = true)
include hrev hstage

theorem switchLeaves_left (hleave : r.leaveDone = false) (hswitch : r.switch.accepted = some true) :
    switchLeaves [false, false, false] s = { s with drive.rev := some { r with
      switch := ⟨some false, false, 3⟩, leaveDone := true } } := by
  have hread : r.switch.readUntil 3 [false, false, false] = (⟨some false, false, 3⟩, some false) :=
    readUntil_agreeing (n := 3) (by decide) false (by rw [hswitch]; decide)
  unfold switchLeaves
  simp only [turningRev_of hrev hstage, hleave, Bool.false_eq_true, if_false, hread, beq_self_eq_true]

theorem switchCloses_home {time : Nat} (hleave : r.leaveDone = true) (hswitch : r.switch.accepted = some false) :
    switchCloses [true, true, true] time s = revComplete { r with switch := ⟨some true, true, 3⟩ } time s := by
  have hread : r.switch.readUntil 3 [true, true, true] = (⟨some true, true, 3⟩, some true) :=
    readUntil_agreeing (n := 3) (by decide) true (by rw [hswitch]; decide)
  unfold switchCloses
  simp only [turningRev_of hrev hstage, hleave, if_true, hread]

include hrun hlen hp hservice hvend hfly

/-- Three closed reads after the leave end the revolution (R74, R77, R79, R81). -/
theorem revolutionReturns {time : Nat} (hleave : r.leaveDone = true) (hswitch : r.switch.accepted = some false) :
    (v.params.dropConfirm = true → r.drop = false →
      Completes (.homeSwitchClose [true, true, true] time) s [.rev, .row, .spirals, .events] fun t =>
        t.drive.row = none ∧ t.spiral r.spiral = timed v time (s.spiral r.spiral) ∧
        (∃ q, t.drive.rev = some q ∧ q.spiral = r.spiral ∧ q.stage = .tail ∧ q.failure = r.failure ∧
          q.time = time ∧ q.drop = false) ∧
        ((timed v time (s.spiral r.spiral)).slow = true → RaisesFirst s t .spiralSlow (some r.spiral) (val time)) ∧
        ((timed v time (s.spiral r.spiral)).slow = false → t.events = s.events)) ∧
    (v.params.dropConfirm = false ∨ r.drop = true →
      Completes (.homeSwitchClose [true, true, true] time) s spiralParts fun t =>
        Sold v s t ∧ t.spiral r.spiral = timed v time (s.spiral r.spiral)) := by
  have hcloses := switchCloses_home (time := time) hrev hstage hleave hswitch
  rw [revComplete_vend hservice hvend] at hcloses
  have hexec : exec (.homeSwitchClose [true, true, true] time) s = _ := next_finish ((whenActive_of_run hrun).trans hcloses)
  have hframe := timedRev_alters { r with switch := ⟨some true, true, 3⟩ } time s
  have hspiral := timedRev_spiral (r := { r with switch := ⟨some true, true, 3⟩ }) (time := time)
    (by rw [hlen]; exact hp) hservice hvend rfl
  obtain ⟨hslow, hquick⟩ := timedRev_events (r := { r with switch := ⟨some true, true, 3⟩ }) (time := time) hservice hvend
  have hlength := timedRev_length { r with switch := ⟨some true, true, 3⟩ } time s
  have hsels : (timedRev { r with switch := ⟨some true, true, 3⟩ } time s).sels = s.sels := hframe .sels (by decide)
  have hserv : (timedRev { r with switch := ⟨some true, true, 3⟩ } time s).drive.service = none :=
    Eq.trans (hframe .serviceOp (by decide)) hservice
  have hrow : (timedRev { r with switch := ⟨some true, true, 3⟩ } time s).drive.row = none := by
    unfold timedRev
    rw [storeTime_alters _ _ _ .row (by decide)]
    rfl
  generalize timedRev { r with switch := ⟨some true, true, 3⟩ } time s = u at *
  refine ⟨fun hconfirm hno => ?_, fun h => ?_⟩
  · rw [if_neg (by simp [hconfirm, hno])] at hexec
    have htail := enterTail_alters { r with switch := ⟨some true, true, 3⟩, time := time } u
    have hall := hframe.seq (rs := [.rev, .row, .spirals, .events]) htail
    have hends := finish_alters _ (Eq.trans (hall .phase (by decide)) hrun)
    have hafter := htail.seq (rs := .rev :: dueParts) hends
    refine completes_ends hexec hrun hall (by decide) fun _ =>
      ⟨Eq.trans (hafter .row (by decide)) hrow, (spiral_congr (hafter .spirals (by decide)) _).trans hspiral,
        ⟨_, hends .rev (by decide), rfl, rfl, rfl, rfl, hno⟩, fun h => ?_, fun h => ?_⟩
    · exact (hslow (of_decide_eq_true h)).after (extends_of_same (hafter .events (by decide)) (hafter .seconds (by decide)))
    · exact Eq.trans (hafter .events (by decide)) (hquick (of_decide_eq_false h))
  · have hcond : (!v.params.dropConfirm || r.drop) = true := by rcases h with h | h <;> simp [h]
    rw [if_pos hcond] at hexec
    have hsold := vendSucceeds_ends_alters v u
    have hall := hframe.seq (rs := spiralParts) hsold
    have hends := finish_alters _ (Eq.trans (hall .phase (by decide)) hrun)
    refine completes_ends hexec hrun hall (by decide) fun _ => ⟨sold_of (.of_alters hframe fun h => by omega) hsels hserv hfly hends, ?_⟩
    exact (spiral_congr ((hsold.seq (rs := vendEndParts ++ dueParts) hends) .spirals (by decide)) _).trans hspiral

end

/-- Settles O54. -/
theorem revolutionsCompleteOrFail : Obligations.RevolutionsCompleteOrFail := by
  intro r v s hrun hlen hp hrev hstage hservice hvend htold hfly
  have hturning := turningRev_of hrev hstage
  have hparams := driveParams_vend hservice hvend
  have hrunning := runningService_none hservice
  have hnothing {c : Instr} {g : State → State} (hc : exec c s = .next (finish (whenActive g s))) (hg : g s = s) :
      exec c s = .next (finish s) := hc.trans (next_finish ((whenActive_of_run hrun).trans hg))
  have hfails {c : Instr} {g : State → State} {f : Failure} {x : Rev} (hc : exec c s = .next (finish (whenActive g s)))
      (hx : x.spiral = r.spiral ∧ x.switch = r.switch ∧ x.drop = r.drop) (hg : g s = revFails x f s) :
      FailsBy r v s c f f.kindCode f.causeCode :=
    fails_by hrun hlen hp hservice hvend htold hfly hx.1 hx.2.1 hx.2.2
      (hc.trans (next_finish ((whenActive_of_run hrun).trans hg)))
  refine ⟨fun hleave hswitch => ?_, fun hleave => ?_, fun time hleave hswitch => ?_, fun hleave => ?_, fun hleave => ?_,
    fun hleave => ?_, ?_, fun currents => ⟨fun hmany hall => ?_, fun hfew => ?_⟩,
    fun current => ⟨fun hunchecked hlow => ?_, fun hunchecked hhigh => ?_, fun hchecked => ?_⟩⟩
  · have hleaves := switchLeaves_left hrev hstage hleave hswitch
    exact completes_ends (next_finish ((whenActive_of_run hrun).trans hleaves)) hrun (setRev_alters _ s) (by decide)
      fun hends => ⟨_, rfl, hends.frame .rev (by decide)⟩
  · refine hnothing rfl ?_
    simp only [switchLeaves, hturning, hleave, if_true]
  · exact revolutionReturns hrun hlen hp hrev hstage hservice hvend hfly hleave hswitch
  · refine hnothing rfl ?_
    simp only [switchCloses, hturning, hleave, Bool.false_eq_true, if_false]
  · refine hfails (f := .stalledLeave) rfl ⟨rfl, rfl, rfl⟩ ?_
    simp only [leaveLimitPasses, hturning, hleave, hrunning, Bool.or_self, Bool.false_eq_true, if_false]
  · refine hnothing rfl ?_
    simp only [leaveLimitPasses, hturning, hleave, Bool.true_or, if_true]
  · refine hfails (f := .stalledReturn) rfl ⟨rfl, rfl, rfl⟩ ?_
    simp only [revLimitPasses, hturning]
  · refine hfails (f := .jammed) rfl ⟨rfl, rfl, rfl⟩ ?_
    simp only [currentJams, hturning, hparams]
    exact if_pos ⟨hmany, List.all_eq_true.2 fun c hc => decide_eq_true (hall c hc)⟩
  · refine hnothing rfl ?_
    simp only [currentJams, hturning, hparams]
    refine if_neg fun h => ?_
    rcases hfew with hfew | ⟨c, hc, hle⟩
    · omega
    · have := of_decide_eq_true (List.all_eq_true.1 h.2 c hc)
      omega
  · refine hfails (f := .openMotor) (x := { r with openChecked := true }) rfl ⟨rfl, rfl, rfl⟩ ?_
    simp only [currentAt200, hturning, hunchecked, Bool.false_eq_true, if_false, if_pos hlow]
  · refine next_finish ((whenActive_of_run hrun).trans ?_)
    simp only [currentAt200, hturning, hunchecked, Bool.false_eq_true, if_false, if_neg (Nat.not_lt.2 hhigh)]
  · refine hnothing rfl ?_
    simp only [currentAt200, hturning, hchecked, if_true]

end Sys2Proof.Machine
end

