-- ==== Sys2Proof/Proofs/DropBeam.lean ====
section
/-! The drop beam and its window: drops, and windows that close without one (R78 to R83, R87). -/

/- One lemma after another, to keep the memory of a compile small. -/
set_option Elab.async false

namespace Sys2Proof.Machine

/-! ### Reads of the beam (R78) -/

section
variable {r : Rev} {s : State} (hrev : s.drive.rev = some r)
include hrev

theorem watchBeam_closed (h : r.window = false) (reads : List Bool) (passed : Bool) : watchBeam reads passed s = s := by
  unfold watchBeam
  simp only [hrev, h, Bool.not_false, if_true]

/-- The reads of a window, as the beam watch after them and what its tail says. -/
theorem watchBeam_open (h : r.window = true) (reads : List Bool) (passed : Bool) {armed drop past : Bool} {broken : Nat}
    (hpast : (r.stage == .tail && (passed || r.heldOpen)) = past)
    (hreads : (if r.drop then (r.armed, 0, false) else beamReads (r.stage == .tail && r.heldOpen) reads r.armed r.broken) =
      (armed, broken, drop)) : watchBeam reads passed s =
    if drop then dropConfirmed { r with armed := armed, broken := broken, heldOpen := past } s
    else if past && broken == 0 then windowEnds { r with armed := armed, broken := broken, heldOpen := past } s
    else { s with drive.rev := some { r with armed := armed, broken := broken, heldOpen := past } } := by
  unfold watchBeam
  simp only [hrev, h, hreads, hpast, Bool.not_true, Bool.false_eq_true, if_false]

end

/-- No read is made. -/
theorem beamReads_none (held armed : Bool) (broken : Nat) : beamReads held [] armed broken = (armed, broken, false) := rfl

/-- A broken beam, then a clear one. -/
theorem beamReads_ends : beamReads false [true, false] true 0 = (true, 0, false) := rfl

theorem beamReads_breaks (held : Bool) : beamReads held [true] true 0 = (true, 1, false) := by
  cases held <;> rfl

/-- Three broken reads are a drop. -/
theorem beamReads_drops (held : Bool) : beamReads held [true, true, true] true 0 = (true, 0, true) := by
  cases held <;> rfl

/-- The read that ends an interruption closes a window held open. -/
theorem beamReads_releases (rest : List Bool) : beamReads true (false :: rest) true 1 = (true, 0, false) := rfl

/-! What follows a window's close does not read the revolution in the drive. -/

theorem leaveService_rev (s : State) (x : Option Rev) : leaveService { s with drive.rev := x } = leaveService s := rfl

theorem endTest_rev (r : Rev) (s : State) (x : Option Rev) : endTest r { s with drive.rev := x } = endTest r s := by
  unfold endTest
  rw [leaveService_rev]
  rfl

theorem moveOn_rev (v : VendOp) (b : Bool) (s : State) (x : Option Rev) : moveOn v b { s with drive.rev := x } = moveOn v b s := rfl

theorem windowPassed_rev (v : VendOp) (r : Rev) (s : State) (x : Option Rev) :
    windowPassed v r { s with drive.rev := x } = windowPassed v r s := by
  have hjudged := moveOn_rev v false (raise .spiralEmpty (some v.spiral) (val v.revolutions) (setSpiral v.spiral .empty s)) x
  unfold windowPassed
  split
  · exact moveOn_rev v true s x
  · split
    · rfl
    · exact hjudged

theorem windowEnds_running {s : State} {o : ServiceOp} (h : runningService s = some o) (r : Rev) :
    windowEnds r s = endTest r s := by
  unfold windowEnds
  rw [h]

theorem windowEnds_vend {s : State} {v : VendOp} (h : runningService s = none) (hvend : s.drive.vend = some v) (r : Rev) :
    windowEnds r s = windowPassed v r s := by
  unfold windowEnds
  simp only [h, hvend]

theorem windowEnds_rev {s : State} (hvend : s.drive.vend.isSome = true) (r : Rev) (x : Option Rev) :
    windowEnds r { s with drive.rev := x } = windowEnds r s := by
  obtain ⟨v, hv⟩ := Option.isSome_iff_exists.1 hvend
  cases h : runningService s with
  | some o =>
    have hsame : runningService { s with drive.rev := x } = some o := h
    rw [windowEnds_running h, windowEnds_running hsame, endTest_rev]
  | none =>
    have hsame : runningService { s with drive.rev := x } = none := h
    rw [windowEnds_vend h hv, windowEnds_vend (s := { s with drive.rev := x }) hsame hv, windowPassed_rev]

theorem Sold.dropped {v : VendOp} {s t : State} (h : Sold { v with drop := true } s t) : Sold v s t :=
  ⟨h.gone, h.counted, h.others, h.cash, h.external⟩

/-! ### Drops and empty windows of a vend (R79 to R83) -/

section
variable {r : Rev} {v : VendOp} {s : State} (hrun : s.phase = .run) (hrev : s.drive.rev = some r) (hwindow : r.window = true) (harmed : r.armed = true)
  (hbroken : r.broken = 0) (hnodrop : r.drop = false)
include harmed

theorem armed_same (n : Nat) (held : Bool) :
    { r with armed := true, broken := n, heldOpen := held } = { r with broken := n, heldOpen := held } := by
  rw [← harmed]

include hbroken

theorem watched_same (held : Bool) : { r with armed := true, broken := 0, heldOpen := held } = { r with heldOpen := held } := by
  rw [← harmed, ← hbroken]

include hrev hwindow hnodrop

/-- Three broken reads confirm a drop, in the window or in its tail. -/
theorem watchBeam_drops : watchBeam [true, true, true] false s =
    dropConfirmed { r with heldOpen := r.stage == .tail && r.heldOpen } s := by
  have hreads := beamReads_drops (r.stage == .tail && r.heldOpen)
  refine (watchBeam_open hrev hwindow _ false (armed := true) (broken := 0) (drop := true)
    (past := r.stage == .tail && r.heldOpen) rfl ?_).trans ?_
  · rw [hnodrop, harmed, hbroken]
    exact hreads
  · rw [watched_same harmed hbroken]
    rfl

/-- A tail that passes without an interruption closes the window. -/
theorem watchBeam_closes (htail : r.stage = .tail) : watchBeam [] true s = windowEnds { r with heldOpen := true } s := by
  refine (watchBeam_open hrev hwindow [] true (armed := true) (broken := 0) (drop := false) (past := true)
    (by rw [htail]; rfl) (by rw [hnodrop, harmed, hbroken]; rfl)).trans ?_
  rw [watched_same harmed hbroken]
  rfl

variable (hservice : s.drive.service = none) (hvend : s.drive.vend = some v)
include hrun hservice hvend

theorem windowCloses_passed (htail : r.stage = .tail) :
    exec (.dropWindowClose []) s = .next (finish (windowPassed v { r with heldOpen := true } s)) := by
  refine next_finish ((whenActive_of_run hrun).trans ?_)
  rw [watchBeam_closes hrev hwindow harmed hbroken hnodrop htail, windowEnds_vend (runningService_none hservice) hvend]

/-- A tail without a drop turns the spiral again while extra revolutions are left (R80). -/
theorem windowTurnsAgain (htail : r.stage = .tail) (hfailure : r.failure = none) (hleft : v.revolutions < 1 + v.params.extraRevs) :
    Completes (.dropWindowClose []) s [.rev] fun t => t.drive.rev = some (newRev v.spiral) ∧ t.drive.vend = some v := by
  have hexec := windowCloses_passed hrun hrev hwindow harmed hbroken hnodrop hservice hvend htail
  have hpassed : windowPassed v { r with heldOpen := true } s = startRev v.spiral s := by
    unfold windowPassed
    simp only [hfailure, if_pos hleft]
  rw [hpassed] at hexec
  exact completes_ends hexec hrun (startRev_alters _ s) (by decide) fun hends =>
    ⟨hends.frame .rev (by decide), Eq.trans (hends.frame .vendOp (by decide)) hvend⟩

variable (htold : v.told = true)
include htold

/-- A drop while the motor turns is noted (R79). -/
theorem dropNoted (hstage : r.stage = .turning) : Completes (.drop [true, true, true]) s [.rev, .vendOp] fun t =>
    t.drive.vend = some { v with drop := true } ∧ t.drive.rev = some { r with heldOpen := false, drop := true } := by
  have hdone : watchBeam [true, true, true] false s = { s with
      drive.rev := some { r with heldOpen := false, drop := true }, drive.vend := some { v with drop := true } } := by
    rw [watchBeam_drops hrev hwindow harmed hbroken hnodrop]
    unfold dropConfirmed
    simp only [hstage, hvend, htold, if_true, Option.map_some]
    rfl
  refine completes_ends (next_finish ((whenActive_of_run hrun).trans hdone)) hrun ?_ (by decide) fun hends =>
    ⟨hends.frame .vendOp (by decide), hends.frame .rev (by decide)⟩
  intro p hp
  cases p <;> simp_all [Part.same]

variable (hfly : s.credit.inFlight.isSome = true)
include hfly

/-- A drop in the tail sells the vend (R81). -/
theorem dropSells (htail : r.stage = .tail) : Completes (.drop [true, true, true]) s spiralParts (Sold v s) := by
  have hdone : watchBeam [true, true, true] false s = vendSucceeds { v with drop := true } { s with
      drive.rev := some { r with heldOpen := r.stage == .tail && r.heldOpen, drop := true }
      drive.vend := some { v with drop := true } } := by
    rw [watchBeam_drops hrev hwindow harmed hbroken hnodrop]
    unfold dropConfirmed runningService
    simp only [htail, hvend, htold, if_true, Option.map_some, hservice]
  have hnoted : Alters [.rev, .vendOp] s { s with
      drive.rev := some { r with heldOpen := r.stage == .tail && r.heldOpen, drop := true }
      drive.vend := some { v with drop := true } } := by
    intro p hp
    cases p <;> simp_all [Part.same]
  have hall := hnoted.seq (rs := spiralParts) (vendSucceeds_alters { v with drop := true } _)
  have hends := finish_alters _ (Eq.trans (hall .phase (by decide)) hrun)
  exact completes_ends (next_finish ((whenActive_of_run hrun).trans hdone)) hrun hall (by decide) fun _ =>
    (sold_of (v := { v with drop := true }) (.of_alters hnoted fun h => h.trans (by decide)) rfl hservice hfly hends).dropped

variable (hsels : s.sels.length = 64) (hsel : v.sel < 64)
include hsels hsel

/-- A failed revolution whose tail passes without a drop moves on (R82, R83). -/
theorem windowAfterFailure {f : Failure} (htail : r.stage = .tail) (hfailure : r.failure = some f) :
    Completes (.dropWindowClose []) s spiralParts fun t => t.spirals = s.spirals ∧
      (choose s v.sel = none → (t.sel v.sel).state = .soldOut ∧ NotSold v .noProduct s t) ∧
      ∀ p j, choose s v.sel = some (p, j) → t.sels = s.sels ∧
        (v.params.autoNext = true → t.drive.rev = some (newRev p) ∧
          t.drive.vend = some { v with spiral := p, position := j, revolutions := 0, tried := true }) ∧
        (v.params.autoNext = false → NotSold v .spiralFault s t) := by
  have hexec := windowCloses_passed hrun hrev hwindow harmed hbroken hnodrop hservice hvend htail
  have hpassed : windowPassed v { r with heldOpen := true } s = moveOn v true s := by
    unfold windowPassed
    simp only [hfailure]
  rw [hpassed] at hexec
  have hmoved := moveOn_ends_alters v true s
  have hrun' := Eq.trans (hmoved .phase (by decide)) hrun
  have hends := finish_alters _ hrun'
  obtain ⟨hnone, hsome⟩ := moveOn_moves (.refl s) (fun h => h.trans (by decide)) rfl (by omega) hservice hfly htold hends
    (extends_finish hrun')
  refine completes_ends hexec hrun (moveOn_alters v true s) (by decide) fun _ => ⟨?_, fun h => ?_, hsome⟩
  · exact Eq.trans (hends .spirals (by decide)) (hmoved .spirals (by decide))
  · obtain ⟨hstate, hnot, -⟩ := hnone h
    exact ⟨hstate, hnot⟩

variable (hspirals : s.spirals.length = 64) (hspiral : v.spiral < 64)
include hspirals hspiral

/-- A spiral judged EMPTY, and the vend that moves on (R80, R83). -/
theorem windowJudgesEmpty (htail : r.stage = .tail) (hfailure : r.failure = none) (hdone : 1 + v.params.extraRevs ≤ v.revolutions) :
    Completes (.dropWindowClose []) s spiralParts fun t => (t.spiral v.spiral).state = .empty ∧
      RaisesFirst s t .spiralEmpty (some v.spiral) (val v.revolutions) ∧
      (choose (setSpiral v.spiral .empty s) v.sel = none → (t.sel v.sel).state = .soldOut ∧ NotSold v .noProduct s t ∧
        Raises s t .selectionSoldOut (some v.sel) none) ∧
      ∀ p j, choose (setSpiral v.spiral .empty s) v.sel = some (p, j) → t.sels = s.sels ∧
        (v.params.autoNext = true → t.drive.rev = some (newRev p) ∧
          t.drive.vend = some { v with spiral := p, position := j, revolutions := 0, tried := true }) ∧
        (v.params.autoNext = false → NotSold v .noProduct s t) := by
  have hexec := windowCloses_passed hrun hrev hwindow harmed hbroken hnodrop hservice hvend htail
  have hpassed : windowPassed v { r with heldOpen := true } s = moveOn v false
      (raise .spiralEmpty (some v.spiral) (val v.revolutions) (setSpiral v.spiral .empty s)) := by
    unfold windowPassed
    simp only [hfailure, if_neg (Nat.not_lt.2 hdone)]
  rw [hpassed] at hexec
  have hjudged : Alters [.spirals, .events] s
      (raise .spiralEmpty (some v.spiral) (val v.revolutions) (setSpiral v.spiral .empty s)) :=
    (setSpiral_alters v.spiral .empty s).seq (raise_alters _ _ _ _)
  have hempty : ((raise .spiralEmpty (some v.spiral) (val v.revolutions) (setSpiral v.spiral .empty s)).spiral v.spiral).state =
      .empty := congrArg SpiralRec.state (spiral_modSpiral_self (by omega) _)
  have hraised : RaisesFirst s (raise .spiralEmpty (some v.spiral) (val v.revolutions) (setSpiral v.spiral .empty s))
      .spiralEmpty (some v.spiral) (val v.revolutions) := raisesFirst_of (u := setSpiral v.spiral .empty s) rfl rfl .rfl
  have hlength : (raise .spiralEmpty (some v.spiral) (val v.revolutions) (setSpiral v.spiral .empty s)).events.queue.length ≤
      s.events.queue.length + 1 := raise_length_le _ _ _ _
  have hchoose : choose (raise .spiralEmpty (some v.spiral) (val v.revolutions) (setSpiral v.spiral .empty s)) v.sel =
      choose (setSpiral v.spiral .empty s) v.sel := (raise_alters _ _ _ _).choose_eq v.sel
  have hservice' : (raise .spiralEmpty (some v.spiral) (val v.revolutions) (setSpiral v.spiral .empty s)).drive.service =
      none := hservice
  have hsame : (raise .spiralEmpty (some v.spiral) (val v.revolutions) (setSpiral v.spiral .empty s)).sels = s.sels := rfl
  generalize raise .spiralEmpty (some v.spiral) (val v.revolutions) (setSpiral v.spiral .empty s) = u at *
  have hmoved := moveOn_ends_alters v false u
  have hall := hjudged.seq (rs := spiralParts) hmoved
  have hrun' := Eq.trans (hall .phase (by decide)) hrun
  have hends := finish_alters _ hrun'
  have hmoves := moveOn_moves (.of_alters hjudged fun h => by omega) (fun h => by omega) hsame (by omega) hservice' hfly htold hends
    (extends_finish hrun')
  rw [hchoose] at hmoves
  refine completes_ends hexec hrun hall (by decide) fun _ => ⟨?_, ?_, hmoves⟩
  · rw [spiral_congr ((hmoved.seq (rs := vendEndParts ++ dueParts) hends) .spirals (by decide))]
    exact hempty
  · exact hraised.after ((extends_growth.moveOn _ _ _).trans (extends_finish hrun'))

end

/-! ### The end of a Test Spiral (R87) -/

theorem endTest_state {r : Rev} {s : State} (hp : r.spiral < s.spirals.length) :
    ((endTest r s).spiral r.spiral).state = testState r.failure (s.spiral r.spiral).state := by
  have hleft : (leaveService s).spirals = s.spirals := leaveService_alters s .spirals (by decide)
  have hset (u : State) (hu : u.spirals = s.spirals) (x : SpiralState) : ((setSpiral r.spiral x u).spiral r.spiral).state = x :=
    congrArg SpiralRec.state (spiral_modSpiral_self (by rw [hu]; exact hp) _)
  unfold endTest
  dsimp only
  split
  · split
    · exact hset _ hleft _
    · exact hset _ hleft _
  · exact hset _ hleft _

theorem endTest_raises (r : Rev) (s : State) : RaisesFirst s (endTest r s) .spiralTestDone (some r.spiral)
    (some (pack (testResult r.failure) (if r.drop then 1 else 0) (min 65535 r.time / 256) (min 65535 r.time))) := by
  have hleft := leaveService_alters s
  refine raisesFirst_of (u := leaveService s) (hleft .events (by decide)) (hleft .seconds (by decide)) ?_
  unfold endTest
  dsimp only
  generalize (if r.drop then 1 else 0) = k
  split
  next f _ =>
    split
    · exact extends_of_same rfl rfl
    · exact extends_growth.raise .spiralFault _ _ (raise .spiralTestDone _ _ _)
  next => exact extends_of_same rfl rfl

/-- The close of a Test Spiral's window ends the operation (R87). -/
theorem windowEndsTest {r : Rev} {s : State} {o : ServiceOp} (hrun : s.phase = .run) (hlen : s.spirals.length = 64)
    (hrev : s.drive.rev = some r) (hwindow : r.window = true) (htail : r.stage = .tail) (hbroken : r.broken = 0)
    (hp : r.spiral < 64) (hservice : s.drive.service = some o) (htold : o.told = true) :
    Completes (.dropWindowClose []) s serviceParts fun t => t.drive.service = none ∧
      t.drive.rev = none ∧ t.drive.row = none ∧
      RaisesFirst s t .spiralTestDone (some r.spiral) (some (pack (testResult r.failure)
        (if r.drop then 1 else 0) (min 65535 r.time / 256) (min 65535 r.time))) ∧
      (t.spiral r.spiral).state = testState r.failure (s.spiral r.spiral).state := by
  have hreads : (if r.drop then (r.armed, 0, false) else beamReads (r.stage == .tail && r.heldOpen) [] r.armed r.broken) =
      (r.armed, 0, false) := by
    rw [beamReads_none, hbroken]
    split <;> rfl
  have hdone : watchBeam [] true s = endTest { r with broken := 0, heldOpen := true } s := by
    refine (watchBeam_open hrev hwindow [] true (past := true) (by rw [htail]; rfl) hreads).trans ?_
    exact windowEnds_running (o := o) (by unfold runningService; simp only [hservice, htold, if_true]) _
  have hframe := endTest_alters { r with broken := 0, heldOpen := true } s
  have hrun' := Eq.trans (hframe .phase (by decide)) hrun
  have hdrive := endTest_drive { r with broken := 0, heldOpen := true } s
  refine completes_ends (next_finish ((whenActive_of_run hrun).trans hdone)) hrun hframe (by decide) fun hends =>
    ⟨?_, ?_, ?_, ?_, ?_⟩
  · exact Eq.trans (hends.frame .serviceOp (by decide)) (congrArg Drive.service hdrive)
  · exact Eq.trans (hends.frame .rev (by decide)) (congrArg Drive.rev hdrive)
  · exact Eq.trans (hends.frame .row (by decide)) (congrArg Drive.row hdrive)
  · exact (endTest_raises { r with broken := 0, heldOpen := true } s).after (extends_finish hrun')
  · rw [spiral_congr (hends.frame .spirals (by decide))]
    exact endTest_state (r := { r with broken := 0, heldOpen := true }) (by rw [hlen]; exact hp)

/-- Settles O55. -/
theorem dropsSellAndEmptyWindowsMoveOn : Obligations.DropsSellAndEmptyWindowsMoveOn := by
  intro r s hrun hspirals hsels hrev
  refine ⟨fun hwindow reads => ⟨?_, ?_, ?_⟩, fun hwindow harmed hnodrop htail hheld hbroken hvend rest => ?_,
    fun hwindow harmed hbroken hnodrop => ⟨fun hstage => ?_, fun htail => ?_,
      fun v hservice hvend htold hspiral hsel hposition hfly => ⟨?_, ?_, ?_, ?_, fun f => ?_⟩⟩,
    fun hwindow htail hbroken hp o hservice htold => ?_⟩
  · exact next_finish ((whenActive_of_run hrun).trans (watchBeam_closed hrev hwindow reads false))
  · exact next_finish ((whenActive_of_run hrun).trans (watchBeam_closed hrev hwindow reads false))
  · exact next_finish ((whenActive_of_run hrun).trans (watchBeam_closed hrev hwindow reads true))
  · have hsame : { r with armed := true, broken := 0, heldOpen := true } = { r with broken := 0 } := by
      rw [armed_same harmed, ← hheld]
    have hheldOpen : watchBeam (false :: rest) false s = windowEnds { r with broken := 0 } s := by
      refine (watchBeam_open hrev hwindow (false :: rest) false (armed := true) (broken := 0) (drop := false) (past := true)
        (by rw [htail, hheld]; rfl) (by rw [hnodrop, htail, hheld, harmed, hbroken]; rfl)).trans ?_
      rw [hsame]
      rfl
    have hcloses : watchBeam [] true { s with drive.rev := some { r with broken := 0 } } = windowEnds { r with broken := 0 } s := by
      refine (watchBeam_open (r := { r with broken := 0 }) rfl hwindow [] true (armed := true) (broken := 0) (drop := false)
        (past := true) (by simp only [htail]; rfl) (by simp only [hnodrop, harmed]; rfl)).trans ?_
      rw [← windowEnds_rev hvend { r with broken := 0 } (some { r with broken := 0 }), ← hsame]
      rfl
    have hleft : exec (.beamInterruptionEnd (false :: rest)) s = _ := next_finish ((whenActive_of_run hrun).trans hheldOpen)
    have hright : exec (.dropWindowClose []) { s with drive.rev := some { r with broken := 0 } } = _ :=
      next_finish ((whenActive_of_run (s := { s with drive.rev := some { r with broken := 0 } }) hrun).trans hcloses)
    exact hleft.trans hright.symm
  · have hdone : watchBeam [true, false] false s = { s with drive.rev := some { r with heldOpen := false } } := by
      refine (watchBeam_open hrev hwindow [true, false] false (armed := true) (broken := 0) (drop := false) (past := false)
        (by rw [hstage]; rfl) (by rw [hnodrop, hstage, harmed, hbroken]; rfl)).trans ?_
      rw [watched_same harmed hbroken]
      rfl
    exact completes_ends (next_finish ((whenActive_of_run hrun).trans hdone)) hrun (setRev_alters _ s) (by decide) fun hends =>
      ⟨hends.frame .vendOp (by decide), hends.frame .rev (by decide)⟩
  · have hdone : watchBeam [true] true s = { s with drive.rev := some { r with broken := 1, heldOpen := true } } := by
      have hreads := beamReads_breaks (r.stage == .tail && r.heldOpen)
      refine (watchBeam_open hrev hwindow [true] true (armed := true) (broken := 1) (drop := false) (past := true)
        (by rw [htail]; rfl) (by rw [hnodrop, harmed, hbroken]; exact hreads)).trans ?_
      rw [armed_same harmed]
      rfl
    exact completes_ends (next_finish ((whenActive_of_run hrun).trans hdone)) hrun (setRev_alters _ s) (by decide) fun hends =>
      hends.frame .rev (by decide)
  · exact dropNoted hrun hrev hwindow harmed hbroken hnodrop hservice hvend htold
  · exact dropSells hrun hrev hwindow harmed hbroken hnodrop hservice hvend htold hfly
  · exact windowTurnsAgain hrun hrev hwindow harmed hbroken hnodrop hservice hvend
  · exact windowJudgesEmpty hrun hrev hwindow harmed hbroken hnodrop hservice hvend htold hfly hsels hsel hspirals hposition
  · exact windowAfterFailure hrun hrev hwindow harmed hbroken hnodrop hservice hvend htold hfly hsels hsel
  · exact windowEndsTest hrun hspirals hrev hwindow htail hbroken hp hservice htold

end Sys2Proof.Machine
end

