-- ==== Sys2Proof/Proofs/SupplySag.lean ====
section
/-! Supply readings: the sag with its shedding, and the return (R114, R117, R120). -/

/- One lemma after another, to keep the memory of a compile small. -/
set_option Elab.async false

namespace Sys2Proof.Machine

/-! ### The end of a step takes no grant away -/

theorem granted_request (x : Load) {s : State} {l : Load} (h : s.supply.granted.has l = true) :
    (request x s).supply.granted.has l = true := by
  rw [request_eq]
  split
  · exact h
  · exact (grantRule_has (await x s) l).2.1 h

theorem granted_finish {s : State} {l : Load} (hrun : s.phase = .run) (h : s.supply.granted.has l = true) :
    (finish s).supply.granted.has l = true := by
  obtain ⟨hgranted, -⟩ := finish_rest_alters hrun .grants (by decide)
  rw [hgranted]
  show (payoutTest (setSale s)).supply.granted.has l = true
  unfold payoutTest
  split
  · exact granted_request .payout (s := { setSale s with change.payout := some (newPayout .refund) }) h
  · exact h

theorem Budgeted.finish {s : State} (hs : Budgeted s) (hrun : s.phase = .run) : Budgeted (finish s) :=
  (hs.setSale.payoutTest.setSale).alters (finish_rest_alters hrun)

theorem Alters.cold_eq {ps : List Part} {s t : State} (h : Alters ps s t)
    (hp : Apart [.sensors, .zones, .compressor, .defrost, .damper] ps := by exact (apart_iff _ _).1 rfl) : t.cold = s.cold := by
  have hsensors : t.cold.sensors = s.cold.sensors := h .sensors (hp _ (by decide))
  have hzones : t.cold.zones = s.cold.zones := h .zones (hp _ (by decide))
  have hdamper : t.cold.damper = s.cold.damper := h .damper (hp _ (by decide))
  obtain ⟨hstate, hoff, hrun, hsurge, hrelay⟩ := h .compressor (hp _ (by decide))
  obtain ⟨hdrip, hpending, hsince, hon, hheater⟩ := h .defrost (hp _ (by decide))
  cases htc : t.cold
  cases hsc : s.cold
  simp_all

/-! ### Shedding (R120) -/

theorem overBudget_iff (s : State) : overBudget s = true ↔ s.effectiveBudget < s.grantedSum := decide_eq_true_iff

/-- With the sum within the budget nothing is shed. -/
theorem budgetChanged_fits {s : State} (h : s.grantedSum ≤ s.effectiveBudget) : budgetChanged s = grantRule s := by
  have hfits : overBudget s = false := Bool.eq_false_iff.2 fun ho => Nat.not_lt.2 h ((overBudget_iff s).1 ho)
  have hheater : shedHeater s = s := by
    unfold shedHeater
    rw [hfits]
    rfl
  have hcomp : shedCompressor s = s := by
    unfold shedCompressor
    rw [hfits]
    rfl
  unfold budgetChanged
  rw [hheater, hcomp]

/-- The state of a shed heater before its event. -/
def heaterShed (s : State) : State :=
  { s with supply.granted := s.supply.granted.put .heater false, supply.waiting := s.supply.waiting.put .heater true,
           cold.heater := false }

theorem shedHeater_sheds {s : State} (h : s.effectiveBudget < s.grantedSum) (hheater : s.supply.granted.heater = true) :
    shedHeater s = raise .loadShed (some 4) (val s.effectiveBudget) (heaterShed s) := by
  unfold shedHeater
  rw [(overBudget_iff s).2 h, hheater]
  rfl

theorem shedHeater_keeps {s : State} (hheater : s.supply.granted.heater = false) : shedHeater s = s := by
  unfold shedHeater
  rw [hheater, Bool.and_false]
  rfl

/-- A shed compressor: its load leaves the granted set, and it is locked off. -/
def compressorShed (x : Load) (s : State) : State :=
  lockOff (raise .loadShed (some x.number) (val s.effectiveBudget) { s with supply.granted := s.supply.granted.put x false })

theorem shedCompressor_run {s : State} (h : s.effectiveBudget < s.grantedSum) (hgranted : s.supply.granted.compRun = true) :
    shedCompressor s = compressorShed .compRun s := by
  unfold shedCompressor
  rw [(overBudget_iff s).2 h, hgranted]
  rfl

theorem shedCompressor_start {s : State} (h : s.effectiveBudget < s.grantedSum) (hgranted : s.supply.granted.compRun = false)
    (hstart : s.supply.granted.compStart = true) : shedCompressor s = compressorShed .compStart s := by
  unfold shedCompressor
  rw [(overBudget_iff s).2 h, hgranted, hstart]
  rfl

theorem shedCompressor_asked {s : State} : (shedCompressor s).supply.waiting = s.supply.waiting ∧
    ∀ x, x ≠ .compRun → x ≠ .compStart → (shedCompressor s).supply.granted.has x = s.supply.granted.has x := by
  have hput (x y : Load) (h : x ≠ y) : (s.supply.granted.put y false).has x = s.supply.granted.has x := by
    rw [has_put, if_neg h]
  unfold shedCompressor
  split_ifs
  · exact ⟨rfl, fun x h1 _ => hput x .compRun h1⟩
  · exact ⟨rfl, fun x _ h2 => hput x .compStart h2⟩
  · exact ⟨rfl, fun _ _ _ => rfl⟩

theorem extends_shedHeater (s : State) : Extends s (shedHeater s) := by
  unfold shedHeater
  split
  · exact (extends_growth.raise .loadShed (some 4) (val s.effectiveBudget) s).trans (extends_of_same rfl rfl)
  · exact .rfl

theorem extends_shedCompressor (s : State) : Extends s (shedCompressor s) := by
  have hshed (x : Load) : Extends s (compressorShed x s) :=
    (extends_growth.raise .loadShed (some x.number) (val s.effectiveBudget) s).trans (extends_of_same rfl rfl)
  unfold shedCompressor
  split_ifs
  · exact hshed .compRun
  · exact hshed .compStart
  · exact .rfl

theorem extends_budgetChanged (s : State) : Extends s (budgetChanged s) :=
  ((extends_shedHeater s).trans (extends_shedCompressor _)).trans (.of_alters (grantRule_alters _))

/-- Shedding takes neither PAYOUT nor MOTOR. -/
theorem budgetChanged_carries {s : State} {x : Load} (hx : x = .payout ∨ x = .motor) (h : s.supply.granted.has x = true) :
    (budgetChanged s).supply.granted.has x = true := by
  have hheater : (shedHeater s).supply.granted.has x = true := by
    unfold shedHeater
    split
    · show (s.supply.granted.put .heater false).has x = true
      rw [has_put, if_neg (by rcases hx with rfl | rfl <;> decide)]
      exact h
    · exact h
  refine (grantRule_has _ x).2.1 ?_
  rw [shedCompressor_asked.2 x (by rcases hx with rfl | rfl <;> decide) (by rcases hx with rfl | rfl <;> decide)]
  exact hheater

theorem budgetChanged_heater {s : State} (h : s.effectiveBudget < s.grantedSum) (hheater : s.supply.granted.heater = true) :
    (budgetChanged s).cold.heater = false ∧ (budgetChanged s).supply.asked .heater ∧
      Extends (raise .loadShed (some 4) (val s.effectiveBudget) (heaterShed s)) (budgetChanged s) := by
  have hcomp := shedCompressor_alters (shedHeater s)
  have hshed := shedHeater_sheds h hheater
  obtain ⟨-, -, -, -, hoff⟩ := (hcomp.seq (rs := [.grants, .compressor, .events]) (grantRule_alters _)) .defrost (by decide)
  refine ⟨hoff.trans (by rw [hshed]; rfl), asked_grantRule (.inr ?_), ?_⟩
  · rw [shedCompressor_asked.1, hshed]
    rfl
  · rw [← hshed]
    exact (extends_shedCompressor _).trans (.of_alters (grantRule_alters _))

theorem budgetChanged_compressor {s : State} {x : Load} (hheater : s.supply.granted.heater = false)
    (hshed : shedCompressor s = compressorShed x s) :
    ((budgetChanged s).cold.state = .lockedOff ∧ (budgetChanged s).cold.relay = false ∧
      (budgetChanged s).cold.offTimer = some s.tables.refrig.minOffMs) ∧
    Extends (raise .loadShed (some x.number) (val s.effectiveBudget)
      { s with supply.granted := s.supply.granted.put x false }) (budgetChanged s) := by
  have hchanged : budgetChanged s = grantRule (compressorShed x s) := by
    unfold budgetChanged
    rw [shedHeater_keeps hheater, hshed]
  obtain ⟨hstate, hofftimer, -, -, hrelay⟩ := grantRule_alters (compressorShed x s) .compressor (by decide)
  rw [hchanged]
  exact ⟨⟨hstate, hrelay, hofftimer⟩, (extends_of_same rfl rfl : Extends _ (compressorShed x s)).trans
    (.of_alters (grantRule_alters _))⟩

/-! ### One reading (R114) -/

theorem supplyReads_one (v : Nat) (s : State) : supplyReads [v] s = supplyDecides v (supplyCounts v s) := supplyRead_eq s v

theorem finishSupply_run {s : State} (h : s.phase = .run) : finishSupply s = finish s := by
  unfold finishSupply
  rw [h]

/-- The supply as the twentieth low reading leaves it. -/
def sagging (v : Nat) (s : State) : State :=
  raise .supplySag none (val v) { s with supply := { s.supply with
    reading := v, fail := 0, low := 0, good := persist (210 ≤ v) s.supply.good, state := .sag } }

/-- The supply as the 500th good reading leaves it. -/
def recovered (v : Nat) (s : State) : State :=
  raise .supplyNormal none (val v) { s with supply := { s.supply with
    reading := v, fail := 0, low := persist (v < 200) s.supply.low, good := 0, state := .normal } }

section
variable {v : Nat} {s : State}

theorem persist_false {p : Prop} [Decidable p] (h : ¬p) (n : Nat) : persist (decide p) n = 0 := by
  unfold persist
  rw [decide_eq_false h]
  rfl

theorem persist_true {p : Prop} [Decidable p] (h : p) (n : Nat) : persist (decide p) n = n + 1 := by
  unfold persist
  rw [decide_eq_true h]
  rfl

theorem supplyReads_sag (hstate : s.supply.state = .normal) (hlow : s.supply.low = 19) (hfail : 170 ≤ v) (hv : v < 200) :
    supplyReads [v] s = budgetChanged (sagging v s) := by
  rw [supplyReads_one]
  unfold supplyDecides supplyCounts sagging
  simp only [hstate, persist_false (Nat.not_lt.2 hfail), persist_true hv, hlow]
  rfl

theorem supplyReads_normal (hstate : s.supply.state = .sag) (hgood : s.supply.good = 499) (hv : 210 ≤ v) :
    supplyReads [v] s = budgetChanged (recovered v s) := by
  rw [supplyReads_one]
  unfold supplyDecides supplyCounts recovered
  simp only [hstate, persist_false (show ¬v < 170 by omega), persist_true hv, hgood]
  rfl

theorem sagging_alters (v : Nat) (s : State) : Alters [.supply, .events] s (sagging v s) := by
  refine Alters.seq (ps := [.supply]) ?_ (raise_alters _ _ _ _)
  intro p hp; cases p <;> simp_all [Part.same]

theorem recovered_alters (v : Nat) (s : State) : Alters [.supply, .events] s (recovered v s) := by
  refine Alters.seq (ps := [.supply]) ?_ (raise_alters _ _ _ _)
  intro p hp; cases p <;> simp_all [Part.same]

variable (hrun : s.phase = .run) (hbudget : BudgetLaw s)
include hrun hbudget

/-- The twentieth low reading (R114, R117, R120). -/
theorem sagSheds (hstate : s.supply.state = .normal) (hlow : s.supply.low = 19) (hfail : 170 ≤ v) (hv : v < 200) :
    Completes (.supplySag [v]) s [.supply, .grants, .compressor, .defrost, .events] fun t =>
      t.supply.state = .sag ∧ t.supply.low = 0 ∧ RaisesFirst s t .supplySag none (val v) ∧
      (t.grantedSum ≤ s.tables.loads.budget / 2 ∨ (t.supply.granted.heater = false ∧ t.supply.granted.compRun = false ∧
        t.supply.granted.compStart = false)) ∧
      (s.supply.granted.payout = true → t.supply.granted.payout = true) ∧
      (s.supply.granted.motor = true → t.supply.granted.motor = true) ∧
      (s.grantedSum ≤ s.tables.loads.budget / 2 → t.cold = s.cold) ∧
      (s.tables.loads.budget / 2 < s.grantedSum → s.supply.granted.heater = true → t.cold.heater = false ∧
        t.supply.asked .heater ∧ Raises s t .loadShed (some 4) (val (s.tables.loads.budget / 2))) ∧
      (s.tables.loads.budget / 2 < s.grantedSum → s.supply.granted.heater = false →
        (s.supply.granted.compRun = true → t.cold.state = .lockedOff ∧ t.cold.relay = false ∧
          t.cold.offTimer = some s.tables.refrig.minOffMs ∧
          Raises s t .loadShed (some 3) (val (s.tables.loads.budget / 2))) ∧
        (s.supply.granted.compRun = false → s.supply.granted.compStart = true →
          t.cold.state = .lockedOff ∧ t.cold.relay = false ∧
          Raises s t .loadShed (some 2) (val (s.tables.loads.budget / 2)))) := by
  have hreads := supplyReads_sag hstate hlow hfail hv
  have hchanged := budgetChanged_alters (sagging v s)
  have hframe := (sagging_alters v s).seq (rs := [.supply, .grants, .compressor, .defrost, .events]) hchanged
  have hrun' : (budgetChanged (sagging v s)).phase = .run := Eq.trans (hframe .phase (by decide)) hrun
  have hlaw : BudgetLaw (budgetChanged (sagging v s)) := hbudget.sagBegins (sagging v s).supply rfl rfl rfl .supplySag (val v)
  have hfinished := ((hlaw.budgeted (active_of_run hrun')).finish hrun').law
  have hends := finish_alters _ hrun'
  have hexec : exec (.supplySag [v]) s = .next (finish (budgetChanged (sagging v s))) := by
    have hfinish : finishSupply (supplyReads [v] s) = _ := (congrArg finishSupply hreads).trans (finishSupply_run hrun')
    exact congrArg _ hfinish
  have hcold : (finish (budgetChanged (sagging v s))).cold = (budgetChanged (sagging v s)).cold := hends.cold_eq
  have hroom : s.events.queue.length ≤ 28 → (sagging v s).events.queue.length < 32 := fun h =>
    Nat.lt_of_le_of_lt ((raise_length_le _ _ _ _).trans (Nat.succ_le_succ h)) (by decide)
  have hraises {x : Option Nat} {w : State} (hw : w.events = (sagging v s).events) (hws : w.seconds = s.seconds)
      (h : Extends (raise .loadShed x (val (s.tables.loads.budget / 2)) w) (budgetChanged (sagging v s))) :
      Raises s (finish (budgetChanged (sagging v s))) .loadShed x (val (s.tables.loads.budget / 2)) :=
    raises_of (fun hlen => by rw [hw]; exact hroom hlen) hws (h.trans (extends_finish hrun'))
  obtain ⟨hstate', -, hlow', -, -⟩ := (hchanged.seq (rs := [.grants, .compressor, .defrost, .events] ++ dueParts) hends)
    .supply (by decide)
  refine completes_ends hexec hrun hframe (by decide) fun hasked => ⟨hstate', hlow', ?_, ?_, fun h => ?_, fun h => ?_, fun h => ?_,
    fun hover hheater => ?_, fun hover hheater => ⟨fun hcomp => ?_, fun hcomp hstart => ?_⟩⟩
  · exact raisesFirst_of rfl rfl ((extends_budgetChanged (sagging v s)).trans (extends_finish hrun'))
  · have hhalf : (finish (budgetChanged (sagging v s))).effectiveBudget = s.tables.loads.budget / 2 := by
      have htables : (finish (budgetChanged (sagging v s))).tables = s.tables :=
        Eq.trans (hends .tables (by decide)) (hframe .tables (by decide))
      have hsag : (finish (budgetChanged (sagging v s))).supply.state = .sag := hstate'
      simp only [State.effectiveBudget, hsag, htables]
    rw [← hhalf]
    exact hfinished.budget.imp_right fun h => h.2.2
  · exact granted_finish (l := .payout) hrun' (budgetChanged_carries (.inl rfl) h)
  · exact granted_finish (l := .motor) hrun' (budgetChanged_carries (.inr rfl) h)
  · rw [hcold, budgetChanged_fits (s := sagging v s) h]
    rfl
  · obtain ⟨hoff, hheld, hext⟩ := budgetChanged_heater (s := sagging v s) hover hheater
    exact ⟨(congrArg Cold.heater hcold).trans hoff, hasked.asked .heater hheld, hraises (w := heaterShed (sagging v s)) rfl rfl hext⟩
  · obtain ⟨⟨hlocked, hrelay, hoff⟩, hext⟩ := budgetChanged_compressor (s := sagging v s) hheater (shedCompressor_run hover hcomp)
    rw [hcold]
    exact ⟨hlocked, hrelay, hoff, hraises (w := { sagging v s with
      supply.granted := (sagging v s).supply.granted.put .compRun false }) rfl rfl hext⟩
  · obtain ⟨⟨hlocked, hrelay, -⟩, hext⟩ := budgetChanged_compressor (s := sagging v s) hheater
      (shedCompressor_start hover hcomp hstart)
    rw [hcold]
    exact ⟨hlocked, hrelay, hraises (w := { sagging v s with
      supply.granted := (sagging v s).supply.granted.put .compStart false }) rfl rfl hext⟩

/-- The 500th good reading (R114, R117). -/
theorem normalReturns (hstate : s.supply.state = .sag) (hgood : s.supply.good = 499) (hv : 210 ≤ v) :
    Completes (.supplyNormal [v]) s [.supply, .grants, .events] fun t => t.supply.state = .normal ∧
      t.supply.good = 0 ∧ RaisesFirst s t .supplyNormal none (val v) ∧
      ∀ x, s.supply.granted.has x = true → t.supply.granted.has x = true := by
  have hreads := supplyReads_normal hstate hgood hv
  rw [budgetChanged_fits (s := recovered v s) hbudget.table] at hreads
  have hframe := (recovered_alters v s).seq (rs := [.supply, .grants, .events]) (grantRule_alters _)
  have hrun' : (grantRule (recovered v s)).phase = .run := hrun
  have hends := finish_alters _ hrun'
  have hexec : exec (.supplyNormal [v]) s = .next (finish (grantRule (recovered v s))) := by
    have hfinish : finishSupply (supplyReads [v] s) = _ := (congrArg finishSupply hreads).trans (finishSupply_run hrun')
    exact congrArg _ hfinish
  obtain ⟨hstate', -, -, -, hgood'⟩ := hends .supply (by decide)
  refine completes_ends hexec hrun hframe (by decide) fun _ => ⟨hstate', hgood', ?_, fun x hx => ?_⟩
  · exact raisesFirst_of rfl rfl ((Extends.of_alters (grantRule_alters (recovered v s))).trans (extends_finish hrun'))
  · exact granted_finish hrun' ((grantRule_has (recovered v s) x).2.1 hx)

end

/-- Settles O56. -/
theorem supplySagShedsAndNormalReturns : Obligations.SupplySagShedsAndNormalReturns := by
  intro v s hrun
  refine ⟨fun hstate hlow hfail hv hbudget => sagSheds hrun hbudget hstate hlow hfail hv,
    fun hstate hgood hv hbudget => normalReturns hrun hbudget hstate hgood hv, fun hstate hlow hfail => ?_⟩
  have hreads : supplyReads [v] s = { s with supply := { s.supply with
      reading := v, fail := 0, low := if v < 200 then s.supply.low + 1 else 0,
      good := if 210 ≤ v then s.supply.good + 1 else 0 } } := by
    have hcount (n : Nat) (p : Prop) [Decidable p] : persist (decide p) n = if p then n + 1 else 0 := by
      unfold persist
      simp only [decide_eq_true_eq]
    have hfew : ¬20 ≤ (if v < 200 then s.supply.low + 1 else 0) := by split <;> omega
    rw [supplyReads_one]
    unfold supplyDecides supplyCounts
    simp only [hstate, hcount, if_neg (Nat.not_lt.2 hfail), if_neg hfew]
    rfl
  have hfinish : finishSupply (supplyReads [v] s) = finish _ := (congrArg finishSupply hreads).trans (finishSupply_run hrun)
  exact congrArg _ hfinish

end Sys2Proof.Machine
end

