-- ==== Sys2Proof/Proofs/PowerFailure.lean ====
section
/-! The power-fail sequence: what it leaves, and what begins it (R89, R114, R121, R122, R125, R126). -/

/- One lemma after another, to keep the memory of a compile small. -/
set_option Elab.async false

namespace Sys2Proof.Machine

/-! ### The stopped part -/

/-- What the power-fail sequence leaves in the step that begins it; `law` is what is known of the credit record. -/
def PoweredDown (warm : Bool) (law : Prop) (s t : State) : Prop :=
  t.phase = .saving warm ∧
  t.cold.relay = false ∧ t.cold.heater = false ∧ t.cold.damper = false ∧ t.drive = Drive.initial ∧
  t.change.payout = none ∧ t.line.driver = false ∧ t.line.trans = none ∧ t.line.queue = [] ∧
  t.line.pass = [] ∧ t.link.answer = none ∧ t.link.waiting = none ∧
  t.supply.granted = .none ∧ t.supply.waiting = .none ∧
  t.credit.escrow = none ∧ t.credit.escrowReserve = 0 ∧ t.credit.pendingReturn = false ∧
  t.credit.returnDue = s.credit.returnDue ∧ t.credit.sale = saleOf t ∧ t.audit = s.audit ∧
  t.change.tubes = s.change.tubes ∧ t.sels = s.sels ∧ t.tables = s.tables ∧ t.lock = s.lock ∧
  (law → t.credit.inFlight = none ∧ t.credit.vendHold = 0 ∧
    t.credit.credit = s.credit.credit + s.credit.vendHold) ∧
  (∀ v, s.drive.vend = some v → s.credit.inFlight.isSome = true →
    RaisesFirst s t .vendFailed (some v.sel) (some (pack 0 0 0 4))) ∧
  (∀ p, (t.spiral p).probePending = false ∧ (t.spiral p).homeClosed = (s.spiral p).homeClosed ∧
    ((∀ r, s.drive.rev = some r → r.stage ≠ .turning ∨ r.spiral ≠ p) →
      (t.spiral p).state = (s.spiral p).state)) ∧
  (∀ r, s.drive.rev = some r → r.stage = .turning → s.drive.service = none →
    r.spiral < s.spirals.length → (s.spiral r.spiral).state ≠ .unassigned →
    (t.spiral r.spiral).state = .notHome) ∧
  (s.store.tableWriting = none → t.store = { s.store with
    tableWaiting := false, retainedWriting := some (nextWrite s.store.retainedA s.store.retainedB (retainedOf t)) }) ∧
  (s.store.tableWriting.isSome = true → t.store = { s.store with tableWaiting := false })

/-! ### The credit record and the vend -/

theorem interruptVend_vend {s : State} {v : VendOp} (hvend : s.drive.vend = some v) (hfly : s.credit.inFlight.isSome = true) :
    interruptVend s = raise .vendFailed (some v.sel) (some (pack 0 0 0 4))
      (restored { s with credit.pendingReturn := false }) := by
  unfold interruptVend
  simp only [hvend]
  exact failVend_of_inFlight v.sel .interrupted hfly

theorem interruptVend_none {s : State} (hvend : s.drive.vend = none) :
    interruptVend s = { s with credit.pendingReturn := false } := by
  unfold interruptVend
  simp only [hvend]

theorem interruptVend_kept (s : State) : (interruptVend s).credit.returnDue = s.credit.returnDue ∧
    (interruptVend s).credit.pendingReturn = false := by
  unfold interruptVend failVend
  dsimp only
  split
  · exact ⟨rfl, rfl⟩
  · split
    · exact ⟨rfl, rfl⟩
    · exact ⟨rfl, rfl⟩

theorem interruptVend_funds {s : State} (hhold : s.credit.vendHold ≠ 0 → s.credit.inFlight = some .cash)
    (hvend : s.credit.inFlight.isSome = s.drive.vend.isSome) : (interruptVend s).credit.inFlight = none ∧
      (interruptVend s).credit.vendHold = 0 ∧
      (interruptVend s).credit.credit = s.credit.credit + s.credit.vendHold := by
  cases hv : s.drive.vend with
  | some v =>
    rw [interruptVend_vend hv (by rw [hvend, hv]; rfl)]
    exact ⟨rfl, rfl, rfl⟩
  | none =>
    rw [hv] at hvend
    have hfree : s.credit.inFlight = none := Option.not_isSome_iff_eq_none.1 (by rw [hvend]; exact Bool.false_ne_true)
    have hzero : s.credit.vendHold = 0 := by
      by_contra h
      rw [hhold h] at hfree
      exact absurd hfree (Option.some_ne_none _)
    rw [interruptVend_none hv]
    exact ⟨hfree, hzero, by rw [hzero]; rfl⟩

/-! ### The spirals (R61, R89) -/

theorem stopSpirals_getD (turned : Option Nat) (rs : List SpiralRec) (p : Nat) :
    (stopSpirals turned rs).getD p SpiralRec.initial =
      if turned = some p ∧ p < rs.length ∧ (rs.getD p SpiralRec.initial).state ≠ .unassigned then
        { rs.getD p SpiralRec.initial with probePending := false, state := .notHome }
      else { rs.getD p SpiralRec.initial with probePending := false } := by
  have hmap : (rs.map fun r => { r with probePending := false }).getD p SpiralRec.initial =
      { rs.getD p SpiralRec.initial with probePending := false } := by
    simp only [List.getD_eq_getElem?_getD, List.getElem?_map]
    cases rs[p]? <;> rfl
  unfold stopSpirals
  cases turned with
  | none =>
    dsimp only
    rw [hmap, if_neg fun h => absurd h.1 (Option.some_ne_none p).symm]
  | some q =>
    dsimp only
    rw [getD_updAt, hmap, List.length_map]
    by_cases hq : p = q
    · subst hq
      by_cases hlt : p < rs.length
      · simp only [hlt, and_self, if_true, true_and]
        split
        next h => rw [if_neg fun hn => hn h]
        next => rfl
      · rw [if_neg fun h => hlt h.2, if_neg fun h => hlt h.2.1]
    · rw [if_neg fun h => hq h.1, if_neg fun h => hq (Option.some.inj h.1).symm]

theorem turnedSpiral_turning {s : State} {p : Nat} (h : turnedSpiral s = some p) :
    ∃ r, s.drive.rev = some r ∧ r.stage = .turning ∧ r.spiral = p := by
  have hturning (r : Rev) (hr : turningRev s = some r) : s.drive.rev = some r ∧ r.stage = .turning := by
    unfold turningRev at hr
    split at hr
    next x hx =>
      split at hr
      next hstage =>
        cases hr
        exact ⟨hx, hstage⟩
      next => cases hr
    next => cases hr
  unfold turnedSpiral at h
  split at h
  · cases h
  next r hr =>
    obtain ⟨hrev, hstage⟩ := hturning r hr
    refine ⟨r, hrev, hstage, ?_⟩
    split at h
    · split at h
      · cases h
      · exact Option.some.inj h
    · exact Option.some.inj h

theorem turnedSpiral_of {s : State} {r : Rev} (hrev : s.drive.rev = some r) (hstage : r.stage = .turning)
    (hservice : s.drive.service = none) : turnedSpiral s = some r.spiral := by
  unfold turnedSpiral
  simp only [turningRev_of hrev hstage, runningService_none hservice]

theorem stopSpirals_at (s : State) (p : Nat) :
    let r := (stopSpirals (turnedSpiral s) s.spirals).getD p SpiralRec.initial
    (r.probePending = false ∧ r.homeClosed = (s.spiral p).homeClosed ∧
      ((∀ x, s.drive.rev = some x → x.stage ≠ .turning ∨ x.spiral ≠ p) → r.state = (s.spiral p).state)) ∧
    ∀ x, s.drive.rev = some x → x.stage = .turning → s.drive.service = none → x.spiral = p →
      p < s.spirals.length → (s.spiral p).state ≠ .unassigned → r.state = .notHome := by
  have hat := stopSpirals_getD (turnedSpiral s) s.spirals p
  dsimp only
  rw [hat]
  refine ⟨⟨by split <;> rfl, by split <;> rfl, fun hstill => ?_⟩, fun x hrev hstage hservice hp hlt hstate => ?_⟩
  · rw [if_neg]
    · rfl
    · rintro ⟨hturned, -⟩
      obtain ⟨x, hrev, hstage, hp⟩ := turnedSpiral_turning hturned
      exact (hstill x hrev).elim (fun h => h hstage) fun h => h hp
  · rw [if_pos ⟨by rw [turnedSpiral_of hrev hstage hservice, hp], hlt, hstate⟩]

/-! ### The sequence (R121, R122) -/

section
variable (w : Bool) (s : State)

theorem powerFail_stopped : Alters [.phase, .store] (stopAll s) (powerFail w s) := by
  have hsaving : Alters [.phase, .store] (stopAll s) { stopAll s with phase := .saving w, store.tableWaiting := false } := by
    intro p hp; cases p <;> simp_all [Part.same]
  unfold powerFail
  dsimp only
  split
  · exact hsaving
  · exact hsaving.trans ((beginRetainedWrite_alters _).mono)

theorem stopAll_credit : (stopAll s).credit.escrow = none ∧ (stopAll s).credit.escrowReserve = 0 ∧
    (stopAll s).credit.pendingReturn = (interruptVend (outputsOff s)).credit.pendingReturn ∧
    (stopAll s).credit.returnDue = (interruptVend (outputsOff s)).credit.returnDue ∧
    (stopAll s).credit.inFlight = (interruptVend (outputsOff s)).credit.inFlight ∧
    (stopAll s).credit.vendHold = (interruptVend (outputsOff s)).credit.vendHold ∧
    (stopAll s).credit.credit = (interruptVend (outputsOff s)).credit.credit := ⟨rfl, rfl, rfl, rfl, rfl, rfl, rfl⟩

theorem powerFail_phase : (powerFail w s).phase = .saving w := by
  unfold powerFail
  dsimp only
  split
  · rfl
  · rfl

theorem powerFail_store : (s.store.tableWriting = none → (powerFail w s).store = { s.store with
      tableWaiting := false
      retainedWriting := some (nextWrite s.store.retainedA s.store.retainedB (retainedOf (powerFail w s))) }) ∧
    (s.store.tableWriting.isSome = true → (powerFail w s).store = { s.store with tableWaiting := false }) := by
  have hstore : (stopAll s).store = s.store := stopAll_alters s .store (by decide)
  refine ⟨fun hnone => ?_, fun hsome => ?_⟩
  · have hbegins : powerFail w s = beginRetainedWrite { stopAll s with phase := .saving w, store.tableWaiting := false } := by
      unfold powerFail
      dsimp only
      rw [if_neg (by rw [hstore, hnone]; exact Bool.false_ne_true)]
    rw [hbegins]
    unfold beginRetainedWrite
    dsimp only
    rw [hstore]
    rfl
  · have hwaits : powerFail w s = { stopAll s with phase := .saving w, store.tableWaiting := false } := by
      unfold powerFail
      dsimp only
      rw [if_pos (by rw [hstore]; exact hsome)]
    rw [hwaits, ← hstore]

/-- What the step that begins the sequence leaves. -/
theorem powerFail_powersDown {law : Prop} (hlaw : law → (s.credit.vendHold ≠ 0 → s.credit.inFlight = some .cash) ∧
    s.credit.inFlight.isSome = s.drive.vend.isSome) : PoweredDown w law s (powerFail w s) := by
  have hfail := powerFail_stopped w s
  have hended := (endOperations_alters (outputsOff s)).seq (rs := [.phase, .store, .pendingReturn, .amounts, .inFlight, .events,
    .spirals, .vendOp, .serviceOp, .rev, .column, .row, .probing, .payout, .escrow, .sale]) hfail
  have hall := powerFail_alters w s
  have hdrive : (powerFail w s).drive = Drive.initial := (powerFail_credit w s).2
  have hcredit : (powerFail w s).credit = (stopAll s).credit := (powerFail_credit w s).1
  have hpayout : (powerFail w s).change.payout = none := hfail .payout (by decide)
  have hsale : (powerFail w s).credit.sale = saleOf (powerFail w s) := by
    rw [hfail.saleOf_eq, hcredit]
    exact (saleOf_setSale _).symm
  have hspirals (p : Nat) : (powerFail w s).spiral p =
      (stopSpirals (turnedSpiral s) s.spirals).getD p SpiralRec.initial := by
    have hkept : (interruptVend (outputsOff s)).spirals = s.spirals := interruptVend_alters _ .spirals (by decide)
    have hstopped : (stopAll s).spirals = stopSpirals (turnedSpiral s) (interruptVend (outputsOff s)).spirals := rfl
    rw [spiral_congr (hfail .spirals (by decide)), State.spiral, hstopped, hkept]
  obtain ⟨hescrow, hreserve, hpending, hdue, hfly, hhold, hheld⟩ := stopAll_credit s
  obtain ⟨hdue', hpending'⟩ := interruptVend_kept (outputsOff s)
  obtain ⟨-, -, -, -, hrelay⟩ := hended .compressor (by decide)
  obtain ⟨-, -, -, -, hheater⟩ := hended .defrost (by decide)
  obtain ⟨-, -, hdriver⟩ := hended .receiver (by decide)
  obtain ⟨hwaiting, hanswer, -⟩ := hended .staging (by decide)
  obtain ⟨hqueue, -⟩ := hended .cmdQueue (by decide)
  obtain ⟨hgranted, hasked⟩ := hended .grants (by decide)
  obtain ⟨hnone, hsome⟩ := powerFail_store w s
  refine ⟨powerFail_phase w s, hrelay, hheater, hended .damper (by decide), hdrive, hpayout, hdriver, hended .trans (by decide),
    hqueue, hended .passQueue (by decide), hanswer, hwaiting, hgranted, hasked, ?_⟩
  rw [hcredit] at hsale ⊢
  refine ⟨hescrow, hreserve, hpending.trans hpending', hdue.trans hdue', hsale, hall .audit (by decide), hall .tubes (by decide),
    hall .sels (by decide), hall .tables (by decide), powerFail_lock w s, fun h => ?_, fun v hv hflies => ?_, fun p => ?_,
    fun r hrev hstage hservice hlt hstate => ?_, hnone, hsome⟩
  · obtain ⟨h3, h4, h5⟩ := interruptVend_funds (s := outputsOff s) (hlaw h).1 (hlaw h).2
    exact ⟨hfly.trans h3, hhold.trans h4, hheld.trans h5⟩
  · have hraise := interruptVend_vend (s := outputsOff s) hv hflies
    refine raisesFirst_of (u := restored { outputsOff s with credit.pendingReturn := false }) rfl rfl ?_
    rw [← hraise]
    exact extends_of_same (hfail .events (by decide)) (hfail .seconds (by decide))
  · rw [hspirals]
    exact (stopSpirals_at s p).1
  · rw [hspirals]
    exact (stopSpirals_at s r.spiral).2 r hrev hstage hservice rfl hlt hstate

end

theorem CreditLaw.funds {s : State} (h : CreditLaw s) : (s.credit.vendHold ≠ 0 → s.credit.inFlight = some .cash) ∧
    s.credit.inFlight.isSome = s.drive.vend.isSome := ⟨h.hold, h.vend⟩

/-! ### What begins it (R114, R125, R126, R129) -/

theorem finishSupply_saving {s : State} {w : Bool} (h : s.phase = .saving w) : finishSupply s = s := by
  unfold finishSupply
  rw [h]
  exact finish_saving s w h

theorem finishSupply_failWait {s : State} (h : s.phase = .failWait) : finishSupply s = s := by
  unfold finishSupply
  rw [h]
  exact finish_failWait s h

theorem finishSupply_restoring {s : State} {c : Cause} (h : s.phase = .restoring c) : finishSupply s = s := by
  unfold finishSupply
  rw [h]

theorem beginStart_phase (c : Cause) (s : State) : (beginStart c s).phase = .restoring c :=
  holdToCeiling_alters _ .phase (by decide)

section
variable {s : State} (hactive : s.active = true) (hbefore : ¬∃ c, s.phase = .restoring c)
include hactive hbefore

theorem resetPulse_fails : resetPulse s = powerFail true s := by
  unfold State.active at hactive
  unfold resetPulse
  split
  next h => rw [h] at hactive; exact absurd hactive Bool.false_ne_true
  next h => rw [h] at hactive; exact absurd hactive Bool.false_ne_true
  next c h => exact absurd ⟨c, h⟩ hbefore
  next => rfl

theorem enterFail_fails (x : Supply) : enterFail { s with supply := x } = powerFail false { s with supply := x } := by
  unfold State.active at hactive
  unfold enterFail
  split
  next h => rw [show s.phase = _ from h] at hactive; exact absurd hactive Bool.false_ne_true
  next h => rw [show s.phase = _ from h] at hactive; exact absurd hactive Bool.false_ne_true
  next c h => exact absurd ⟨c, h⟩ hbefore
  next => rfl

end

/-- The reading that completes the fail count (R114). -/
theorem supplyReads_fail {v : Nat} {s : State} (hstate : s.supply.state ≠ .fail) (hcount : 1 ≤ s.supply.fail) (hv : v < 170) :
    ∃ x : Supply, x.state = .fail ∧ supplyReads [v] s = enterFail { s with supply := x } := by
  have htwo : 2 ≤ s.supply.fail + 1 := by omega
  refine ⟨{ s.supply with
    reading := v, low := persist (v < 200) s.supply.low, fail := 0, good := persist (210 ≤ v) s.supply.good,
    state := .fail }, rfl, ?_⟩
  rw [supplyReads_one]
  unfold supplyDecides supplyCounts
  cases hs : s.supply.state with
  | fail => exact absurd hs hstate
  | normal =>
    simp only [persist_true hv, hs]
    exact if_pos htwo
  | sag =>
    simp only [persist_true hv, hs]
    exact if_pos htwo

theorem stopAll_supplyState (s : State) : (stopAll s).supply.state = s.supply.state := by
  obtain ⟨hstate, -⟩ := stopAll_alters s .supply (by decide)
  exact hstate

/-- An accepted Restart is marked through its own reply (R126). -/
theorem restart_replies {s : State} (hs : Ready s) (hl : unlocked s)
    (hx : serveOwner .restart (received .restart s) = doneWith { received .restart s with link.restarting := true })
    (hmark : Alters [.staging] (received .restart s) { received .restart s with link.restarting := true }) :
    Replies .restart s 0xB7 .done [] [.tag] fun t => t.link.restarting = true := by
  obtain ⟨t, hexec, hreply, hframe, -⟩ := replies_served (c := .restart) (r := .restart) (parts := [.tag, .staging])
    (kind := 0xB7) rfl hs
    (fun _ => hl) hx hmark.mono (.inr (by decide)) (by decide) (good := fun _ => True) (fun _ _ => trivial)
  refine ⟨t, hexec, hreply, hframe.mono, ?_⟩
  rw [exec_served (c := .restart) (r := .restart) rfl hs (fun _ => hl) hx] at hexec
  cases hexec
  have htest := ((setSale_alters { received .restart s with link.restarting := true }).seq (rs := [.sale, .payout, .grants])
    (payoutTest_alters _)).seq (rs := [.sale, .payout, .grants]) (setSale_alters _)
  have hrun : (answered .restart (doneWith { received .restart s with link.restarting := true })).phase = .run :=
    Eq.trans (answered_alters _ _ .phase (by decide)) ((received_phase .restart s).trans hs.run)
  obtain ⟨-, -, hkept⟩ := finish_alters _ hrun .staging (by decide)
  obtain ⟨-, -, hset⟩ := htest .staging (by decide)
  exact hkept.trans hset

/-- Settles O57. -/
theorem powerFailStopsEverythingAndSaves : Obligations.PowerFailStopsEverythingAndSaves := by
  refine ⟨fun s hactive hbefore => ?_, fun s ⟨c, hc⟩ => ?_, fun s hoff => ?_, fun v s hactive hstate hcount hv =>
    ⟨fun hbefore => ?_, fun ⟨c, hc⟩ => ?_⟩, fun s hs hl => ⟨fun hidle => ?_, fun hnot => ?_⟩, fun s hanswer hrestart => ?_⟩
  · refine ⟨powerFail true s, ?_, powerFail_powersDown true s CreditLaw.funds⟩
    have hdone : finishSupply (resetPulse s) = powerFail true s := by
      rw [resetPulse_fails hactive hbefore, finishSupply_saving (powerFail_phase true s)]
    exact congrArg _ hdone
  · have hpulse : resetPulse s = beginStart .warm s := by
      unfold resetPulse
      rw [hc]
    have hdone : finishSupply (resetPulse s) = beginStart .warm s := by
      rw [hpulse]
      exact finishSupply_restoring (beginStart_phase .warm s)
    exact congrArg _ hdone
  · have hdone : finishSupply (resetPulse s) = s := by
      cases hphase : s.phase with
      | saving w =>
        have hpulse : resetPulse s = s := by
          unfold resetPulse
          rw [hphase]
        rw [hpulse, finishSupply_saving hphase]
      | failWait =>
        have hpulse : resetPulse s = s := by
          unfold resetPulse
          rw [hphase]
        rw [hpulse, finishSupply_failWait hphase]
      | _ => exact absurd hoff (by simp [State.active, hphase])
    exact congrArg _ hdone
  · obtain ⟨x, hx, hreads⟩ := supplyReads_fail hstate hcount hv
    rw [enterFail_fails hactive hbefore] at hreads
    have hdone : finishSupply (supplyReads [v] s) = powerFail false { s with supply := x } := by
      rw [hreads, finishSupply_saving (powerFail_phase false _)]
    obtain ⟨hsupply, -⟩ := powerFail_stopped false { s with supply := x } .supply (by decide)
    have hdown := powerFail_powersDown (law := CreditLaw s) false { s with supply := x } CreditLaw.funds
    exact ⟨_, congrArg (fun t => (.next t : Result)) hdone, hdown,
      hsupply.trans ((stopAll_supplyState _).trans hx)⟩
  · obtain ⟨x, hx, hreads⟩ := supplyReads_fail hstate hcount hv
    have hwait : enterFail { s with supply := x } = { stopAll { s with supply := x } with phase := .failWait } := by
      unfold enterFail
      simp only [hc]
    rw [hwait] at hreads
    have hdone : finishSupply (supplyReads [v] s) = { stopAll { s with supply := x } with phase := .failWait } := by
      rw [hreads]
      exact finishSupply_failWait rfl
    have hended := endOperations_alters (outputsOff { s with supply := x })
    obtain ⟨-, -, -, -, hrelay⟩ := hended .compressor (by decide)
    obtain ⟨-, -, -, -, hheater⟩ := hended .defrost (by decide)
    obtain ⟨-, -, hdriver⟩ := hended .receiver (by decide)
    obtain ⟨-, hanswer, -⟩ := hended .staging (by decide)
    obtain ⟨hgranted, hasked⟩ := hended .grants (by decide)
    exact ⟨{ stopAll { s with supply := x } with phase := .failWait }, congrArg (fun t => (.next t : Result)) hdone, rfl, stopAll_alters { s with supply := x } .store (by decide),
      (stopAll_supplyState _).trans hx, hrelay, hheater, hended .damper (by decide), rfl, rfl, hdriver, hanswer, hgranted, hasked⟩
  · have hx : serveOwner .restart (received .restart s) = doneWith { received .restart s with link.restarting := true } :=
      if_pos (by rw [received_credit]; exact hidle)
    have hmark : Alters [.staging] (received .restart s) { received .restart s with link.restarting := true } := by
      intro p hp; cases p <;> simp_all [Part.same]
    exact restart_replies hs hl hx hmark
  · have hx : serveOwner .restart (received .restart s) = (received .restart s, .busy, []) :=
      if_neg (by rw [received_credit]; exact hnot)
    exact refuses_served (c := .restart) (r := .restart) rfl hs (fun _ => hl) hx
  · obtain ⟨a, ha⟩ := Option.isSome_iff_exists.1 hanswer
    have hreplied : replyDone s = powerFail true { s with link.answer := none } := by
      unfold replyDone
      simp only [ha, if_pos hrestart]
    have hdone : finish (replyDone s) = powerFail true { s with link.answer := none } := by
      rw [hreplied, finish_saving _ true (powerFail_phase true _)]
    have hdown := powerFail_powersDown (law := CreditLaw s) true { s with link.answer := none } CreditLaw.funds
    exact ⟨_, congrArg (fun t => (.next t : Result)) hdone, hdown⟩

end Sys2Proof.Machine
end

