-- ==== Sys2Proof/Proofs/Starts.lean ====
section
/-! The store's completions and the starts that restore from it (R27, R54, R67, R68, R112, R121, R123 to R125, R127). -/

/- One lemma after another, to keep the memory of a compile small. -/
set_option Elab.async false

namespace Sys2Proof.Machine

/-! ### Which copy is read (R123) -/

section
variable {α : Type} {a b : Option (StoreCopy α)}

theorem latest_isNone_iff : latest a b = none ↔ validCopy a = none ∧ validCopy b = none := by
  have hcopy {c : Option (StoreCopy α)} {x : StoreCopy α} (h : validCopy c = some x) : c ≠ none := by
    rintro rfl
    exact absurd h (Option.some_ne_none x).symm
  unfold latest newerFirst
  cases ha : validCopy a with
  | none =>
    cases hb : validCopy b with
    | none => exact ⟨fun _ => ⟨rfl, rfl⟩, fun _ => rfl⟩
    | some y =>
      obtain ⟨z, hz⟩ := Option.ne_none_iff_exists'.1 (hcopy hb)
      simp [hz]
  | some x =>
    obtain ⟨u, hu⟩ := Option.ne_none_iff_exists'.1 (hcopy ha)
    cases hb : validCopy b with
    | none => simp [hu]
    | some y =>
      obtain ⟨z, hz⟩ := Option.ne_none_iff_exists'.1 (hcopy hb)
      dsimp only
      cases hn : y.generation != x.generation + 1 <;> simp [hu, hz]

/-- A completed write is the copy that is read. -/
theorem latest_committed {w : StoreWrite α} (h : imagesOk a b (some w)) :
    latest (if w.first then some w.copy else a) (if w.first then b else some w.copy) = some w.copy.contents := by
  obtain ⟨hvalidA, hvalidB⟩ := h.commit.valid
  obtain ⟨-, -, -, hahead⟩ := h
  have hnext := hahead w rfl
  unfold latest newerFirst
  rw [hvalidA, hvalidB]
  cases hfirst : w.first <;> simp only [hfirst, if_true, Bool.false_eq_true, if_false] at hnext ⊢
  · cases a with
    | none => rfl
    | some x =>
      have hgen := hnext x rfl
      simp [hgen]
  · cases b with
    | none => rfl
    | some y =>
      have hgen := hnext y rfl
      have htwo : y.generation ≠ w.copy.generation + 1 := by
        rw [hgen]
        bv_omega
      dsimp only [Option.map_some]
      rw [bne_iff_ne.2 htwo]

end

/-! ### The start's record (R27, R54, R67, R68, R112, R127) -/

/-- The tables, the defaults mark and the image of a start. -/
def startTables (s : State) : Tables := (latest s.store.tableA s.store.tableB).getD defaultTables
def startDefaults (s : State) : Bool := (latest s.store.tableA s.store.tableB).isNone
def startImage (s : State) : Option Retained := latest s.store.retainedA s.store.retainedB

/-- The state of a start before the ceiling of R27. -/
def startState (c : Cause) (s : State) : State :=
  { s with
    phase := .restoring c, seconds := 0, tables := startTables s, storeDefaults := startDefaults s,
    credit := startCredit (startImage s), audit := startAudit (startImage s)
    change := { ChangeUnit.initial with tubes := (List.range 6).map (startTube (startTables s) (startImage s)) }
    sels := (List.range 64).map (startSel (startTables s) (startDefaults s) (startImage s))
    spirals := (List.range 64).map (startSpiral (startTables s) (startDefaults s) (startImage s))
    drive := Drive.initial, cold := startCold (startImage s), supply := startSupply c s.supply, line := Line.initial
    link := startLink c s.link, lock := startLock (startImage s) }

theorem beginStart_eq (c : Cause) (s : State) : beginStart c s = setSale (holdToCeiling (startState c s)) := rfl

theorem beginStart_alters (c : Cause) (s : State) :
    Alters [.amounts, .shortWait, .payout, .audit, .events, .sale] (startState c s) (beginStart c s) :=
  (holdToCeiling_alters _).seq (setSale_alters _)

theorem addReturnDue_payout {a : Nat} {s : State} (h : s.change.payout = none) : (addReturnDue a s).change.payout = none := by
  unfold addReturnDue markReplan
  dsimp only
  split_ifs <;> simp [h]

theorem holdToCeiling_payout {s : State} (h : s.change.payout = none) : (holdToCeiling s).change.payout = none := by
  unfold holdToCeiling
  dsimp only
  split
  · exact h
  · exact addReturnDue_payout h

theorem holdToCeiling_credit (s : State) : (holdToCeiling s).credit = { s.credit with
    credit := min s.credit.credit s.tables.money.ceiling
    returnDue := s.credit.returnDue + returnFits s.credit.returnDue (s.credit.credit - s.tables.money.ceiling) } := by
  unfold holdToCeiling
  dsimp only
  split
  next h =>
    have hle : s.credit.credit ≤ s.tables.money.ceiling := by omega
    rw [h, Nat.min_eq_left hle]
    simp [returnFits]
  next h =>
    have hlt : s.credit.credit - (s.credit.credit - s.tables.money.ceiling) = min s.credit.credit s.tables.money.ceiling := by
      omega
    rw [addReturnDue_credit, ← hlt]

theorem holdToCeiling_audit {s : State} (h : s.credit.returnDue + (s.credit.credit - s.tables.money.ceiling) ≤ 65535) :
    (holdToCeiling s).audit = s.audit := by
  unfold holdToCeiling
  dsimp only
  split
  · rfl
  next hex =>
    rw [addReturnDue_audit]
    refine if_pos ?_
    obtain ⟨-, -, hfits⟩ := returnFits_eq (a := s.credit.credit - s.tables.money.ceiling)
      (show s.credit.returnDue ≤ 65535 by omega)
    exact hfits.2 (by omega)

/-- The sale state of a start is that of R4's tests. -/
theorem beginStart_sale (c : Cause) (s : State) : (beginStart c s).credit.sale = saleOf (beginStart c s) :=
  (saleOf_setSale _).symm

theorem getD_map_range {α : Type} {n : Nat} (f : Nat → α) (d : α) {i : Nat} (h : i < n) :
    ((List.range n).map f).getD i d = f i := by
  simp [List.getD_eq_getElem?_getD, h]

section
variable (c : Cause) (s : State)

theorem beginStart_sel {i : Nat} (h : i < 64) :
    (beginStart c s).sel i = startSel (startTables s) (startDefaults s) (startImage s) i := by
  rw [sel_congr (beginStart_alters c s .sels (by decide))]
  exact getD_map_range _ _ h

theorem beginStart_spiral {p : Nat} (h : p < 64) :
    (beginStart c s).spiral p = startSpiral (startTables s) (startDefaults s) (startImage s) p := by
  rw [spiral_congr (beginStart_alters c s .spirals (by decide))]
  exact getD_map_range _ _ h

theorem beginStart_tube {n : Nat} (h : n < 6) :
    (beginStart c s).tube n = startTube (startTables s) (startImage s) n := by
  rw [tube_congr (beginStart_alters c s .tubes (by decide))]
  exact getD_map_range _ _ h

theorem beginStart_cold : (beginStart c s).cold = startCold (startImage s) := (beginStart_alters c s).cold_eq

/-! ### What a start restores -/

theorem assigned_iff {x : Tables} {p : Nat} : assigned x p = true ↔ ∃ r ∈ x.sels, p ∈ r.spirals := by
  simp [assigned]

/-- The state a start keeps of a spiral: the retained one, or NOT_HOME at a COLD start. -/
def keptSpiral (img : Option Retained) (p : Nat) : SpiralState := (img.map fun m => m.spiralStates.getD p .notHome).getD .notHome

theorem startSpiral_unlisted {x : Tables} {p : Nat} (h : assigned x p = false) (d : Bool) (img : Option Retained) :
    startSpiral x d img p = spiralAt .unassigned false := by
  unfold startSpiral
  rw [h]
  rfl

theorem startSpiral_probed {x : Tables} {p : Nat} (h : assigned x p = true) {d : Bool} {img : Option Retained}
    (hd : d = true ∨ keptSpiral img p = .unassigned ∨ keptSpiral img p = .notHome) :
    startSpiral x d img p = spiralAt .notHome true := by
  unfold startSpiral
  rw [h]
  cases d with
  | true => rfl
  | false =>
    have hkept := hd.resolve_left Bool.false_ne_true
    cases img with
    | none => rfl
    | some m =>
      have hkept' : m.spiralStates.getD p .notHome = .unassigned ∨ m.spiralStates.getD p .notHome = .notHome := hkept
      dsimp only
      rcases hkept' with hk | hk <;> rw [hk] <;> rfl

theorem startSpiral_kept {x : Tables} {p : Nat} (h : assigned x p = true) {d : Bool} {img : Option Retained}
    (hd : ¬(d = true ∨ keptSpiral img p = .unassigned ∨ keptSpiral img p = .notHome)) :
    startSpiral x d img p = spiralAt (keptSpiral img p) false := by
  obtain ⟨hdefaults, hunassigned, hnotHome⟩ : d ≠ true ∧ keptSpiral img p ≠ .unassigned ∧ keptSpiral img p ≠ .notHome := by
    simpa only [not_or] using hd
  unfold startSpiral
  rw [h, Bool.not_eq_true _ |>.mp hdefaults]
  cases img with
  | none => exact absurd rfl hnotHome
  | some m =>
    cases hk : keptSpiral (some m) p with
    | unassigned => exact absurd hk hunassigned
    | notHome => exact absurd hk hnotHome
    | ready | empty | jammed | openMotor | stalled =>
      have hk' : m.spiralStates.getD p .notHome = _ := hk
      dsimp only
      rw [hk']
      rfl

/-- The spirals of a start, from the states kept (R68). -/
def SpiralsFrom (kept : Nat → SpiralState) (t : State) : Prop :=
  ∀ p < 64,
    let listed := ∃ r ∈ t.tables.sels, p ∈ r.spirals
    let probed := t.storeDefaults = true ∨ kept p = .unassigned ∨ kept p = .notHome
    (¬listed → (t.spiral p).state = .unassigned ∧ (t.spiral p).probePending = false) ∧
    (listed → probed → (t.spiral p).state = .notHome ∧ (t.spiral p).probePending = true) ∧
    (listed → ¬probed → (t.spiral p).state = kept p ∧ (t.spiral p).probePending = false)

theorem beginStart_spirals : SpiralsFrom (keptSpiral (startImage s)) (beginStart c s) := by
  intro p hp listed probed
  have hspiral := beginStart_spiral c s hp
  have htables : (beginStart c s).tables = startTables s := beginStart_alters c s .tables (by decide)
  have hdefaults : (beginStart c s).storeDefaults = startDefaults s := beginStart_alters c s .storeDefaults (by decide)
  have hlisted : listed ↔ assigned (startTables s) p = true := by
    rw [assigned_iff, ← htables]
  have hprobed : probed ↔ startDefaults s = true ∨ keptSpiral (startImage s) p = .unassigned ∨
      keptSpiral (startImage s) p = .notHome := by
    rw [← hdefaults]
  rw [hspiral]
  refine ⟨fun h => ?_, fun h hd => ?_, fun h hd => ?_⟩
  · rw [startSpiral_unlisted (Bool.not_eq_true _ |>.mp (mt hlisted.2 h))]
    exact ⟨rfl, rfl⟩
  · rw [startSpiral_probed (hlisted.1 h) (hprobed.1 hd)]
    exact ⟨rfl, rfl⟩
  · rw [startSpiral_kept (hlisted.1 h) (mt hprobed.2 hd)]
    exact ⟨rfl, rfl⟩

/-- The tables of a start are those of the newer valid copy, or the defaults (R123, R127). -/
def TablesOf (s t : State) : Prop :=
  t.tables = (latest s.store.tableA s.store.tableB).getD defaultTables ∧
  (t.storeDefaults = true ↔ validCopy s.store.tableA = none ∧ validCopy s.store.tableB = none)

theorem beginStart_tablesOf : TablesOf s (beginStart c s) := by
  refine ⟨beginStart_alters c s .tables (by decide), ?_⟩
  rw [show (beginStart c s).storeDefaults = startDefaults s from beginStart_alters c s .storeDefaults (by decide)]
  exact Option.isNone_iff_eq_none.trans latest_isNone_iff

/-- A start restores a retained image (R27, R54, R67, R68, R112, R127). -/
def Restored (cause : Cause) (m : Retained) (t : State) : Prop :=
  let excess := m.credit - t.tables.money.ceiling
  t.phase = .restoring cause ∧ t.seconds = 0 ∧ t.cold.state = .lockedOff ∧ t.drive.vend = none ∧
  t.change.payout = none ∧ t.line.queue = [] ∧ t.line.round = 15 ∧
  t.credit.credit = min m.credit t.tables.money.ceiling ∧ t.credit.vendHold = 0 ∧
  t.credit.escrowReserve = 0 ∧
  (m.returnDue ≤ 65535 → t.credit.returnDue = min 65535 (m.returnDue + excess)) ∧
  (m.returnDue + excess ≤ 65535 → t.audit = m.audit) ∧ t.credit.sale = saleOf t ∧
  (∀ n < 6, (t.tube n).count = min (t.tables.tube n).capacity (m.tubeCounts.getD n 0)) ∧
  (∀ n < 6, (t.tube n).cond = if (t.tables.tube n).enabled = false then .disabled
    else if m.tubeConds.getD n .ok = .disabled then .ok else m.tubeConds.getD n .ok) ∧
  (∀ i < 64, t.sel i = {
    sales := m.sales.getD i 0,
    state := if t.storeDefaults then .inhibited else m.selStates.getD i .enabled,
    next := if t.storeDefaults = false ∧ m.selNexts.getD i 0 < (t.tables.sel i).spirals.length
            then m.selNexts.getD i 0 else 0 }) ∧
  SpiralsFrom (fun p => m.spiralStates.getD p .notHome) t ∧
  (∀ z < 2, (t.zone z).latched = m.holds.getD z false) ∧ t.cold.runSince = m.runSince ∧
  t.lock.code = m.code ∧ (m.code.isSome = true → t.lock.state = .locked)

theorem condFor_eq (enabled : Bool) (c : TubeCond) : condFor enabled c =
    if enabled = false then .disabled else if c = .disabled then .ok else c := by
  cases enabled <;> cases c <;> rfl

theorem startSel_some (x : Tables) (d : Bool) (m : Retained) (i : Nat) : startSel x d (some m) i =
    { sales := m.sales.getD i 0, state := if d then .inhibited else m.selStates.getD i .enabled,
      next := if d = false ∧ m.selNexts.getD i 0 < (x.sel i).spirals.length then m.selNexts.getD i 0 else 0 } := by
  cases d
  · by_cases h : m.selNexts.getD i 0 < (x.sel i).spirals.length <;> simp [startSel]
  · simp [startSel]

theorem startLock_code (m : Retained) : (startLock (some m)).code = m.code ∧
    (m.code.isSome = true → (startLock (some m)).state = .locked) := by
  unfold startLock
  dsimp only
  cases hcode : m.code <;> simp [ServiceLock.initial]

section
variable {m : Retained}

theorem beginStart_amounts (himg : startImage s = some m) :
    (beginStart c s).credit.credit = min m.credit (startTables s).money.ceiling ∧
    (beginStart c s).credit.vendHold = 0 ∧ (beginStart c s).credit.escrowReserve = 0 ∧
    (beginStart c s).credit.returnDue =
      m.returnDue + returnFits m.returnDue (m.credit - (startTables s).money.ceiling) := by
  obtain ⟨hcredit, hhold, hreserve, hdue⟩ := setSale_alters (holdToCeiling (startState c s)) .amounts (by decide)
  have hstart : (startState c s).credit = { CreditUnit.initial with credit := m.credit, returnDue := m.returnDue } :=
    congrArg startCredit himg
  have hheld := holdToCeiling_credit (startState c s)
  rw [hstart] at hheld
  rw [beginStart_eq, hcredit, hhold, hreserve, hdue, hheld]
  exact ⟨rfl, rfl, rfl, rfl⟩

theorem beginStart_audit (himg : startImage s = some m)
    (hfits : m.returnDue + (m.credit - (startTables s).money.ceiling) ≤ 65535) : (beginStart c s).audit = m.audit := by
  have hstart : (startState c s).credit = { CreditUnit.initial with credit := m.credit, returnDue := m.returnDue } :=
    congrArg startCredit himg
  have haudit : (startState c s).audit = m.audit := congrArg startAudit himg
  rw [beginStart_eq, show (setSale _).audit = _ from setSale_alters _ .audit (by decide), holdToCeiling_audit, haudit]
  rw [hstart]
  exact hfits

theorem beginStart_restored (himg : startImage s = some m) : Restored c m (beginStart c s) := by
  have htables : (beginStart c s).tables = startTables s := beginStart_alters c s .tables (by decide)
  have hdefaults : (beginStart c s).storeDefaults = startDefaults s := beginStart_alters c s .storeDefaults (by decide)
  obtain ⟨hcredit, hhold, hreserve, hdue⟩ := beginStart_amounts c s himg
  obtain ⟨hcode, hlocked⟩ := startLock_code m
  have hlock : (startState c s).lock = startLock (some m) := congrArg startLock himg
  have hcold : (beginStart c s).cold = startCold (some m) := by
    rw [beginStart_cold, himg]
  have hspirals := beginStart_spirals c s
  rw [himg] at hspirals
  have hqueue : (beginStart c s).line.queue = [] := (beginStart_alters c s .cmdQueue (by decide)).1
  have hround : (beginStart c s).line.round = 15 := (beginStart_alters c s .ring (by decide)).1
  have hpayout : (beginStart c s).change.payout = none :=
    (setSale_alters _ .payout (by decide)).trans (holdToCeiling_payout rfl)
  refine ⟨beginStart_phase c s, beginStart_alters c s .seconds (by decide), ?_,
    beginStart_alters c s .vendOp (by decide), hpayout, hqueue, hround, ?_, hhold, hreserve, fun hsmall => ?_,
    fun hfits => ?_, beginStart_sale c s, fun n hn => ?_, fun n hn => ?_, fun i hi => ?_, hspirals, fun z hz => ?_, ?_, ?_, ?_⟩
  · rw [hcold]
    rfl
  · rw [htables]
    exact hcredit
  · rw [htables, hdue]
    exact (returnFits_eq hsmall).1
  · rw [htables] at hfits
    exact beginStart_audit c s himg hfits
  · rw [beginStart_tube c s hn, himg, htables]
    rfl
  · rw [beginStart_tube c s hn, himg, htables]
    exact condFor_eq _ _
  · rw [beginStart_sel c s hi, himg, htables, hdefaults]
    exact startSel_some _ _ m i
  · unfold State.zone
    rw [hcold]
    exact congrArg ZoneState.latched (getD_map_range (fun z => { ZoneState.initial with latched := m.holds.getD z false })
      ZoneState.initial hz)
  · rw [hcold]
    rfl
  · rw [show (beginStart c s).lock.code = _ from beginStart_alters c s .code (by decide), hlock]
    exact hcode
  · rw [show (beginStart c s).lock.state = _ from beginStart_alters c s .lockState (by decide), hlock]
    exact hlocked

end

/-! ### A COLD start (R27, R54, R67, R68) -/

/-- A start without a retained image leaves the COLD values. -/
def ColdValues (t : State) : Prop :=
  t.phase = .restoring .cold ∧ t.audit = Audit.zero ∧ t.credit = CreditUnit.initial ∧
  t.lock = ServiceLock.initial ∧ (∀ n, (t.tube n).count = 0) ∧
  (∀ n < 6, (t.tube n).cond = if (t.tables.tube n).enabled then .ok else .disabled) ∧
  (∀ i < 64, t.sel i = { state := if t.storeDefaults then .inhibited else .enabled, next := 0, sales := 0 }) ∧
  SpiralsFrom (fun _ => .notHome) t

theorem beginStart_blank (himg : startImage s = none) : beginStart c s = setSale (startState c s) := by
  have hcredit : (startState c s).credit = CreditUnit.initial := congrArg startCredit himg
  rw [beginStart_eq]
  refine congrArg setSale (if_pos ?_)
  rw [hcredit]
  exact Nat.zero_sub _

theorem beginStart_coldValues (himg : startImage s = none) : ColdValues (beginStart .cold s) := by
  have htables : (beginStart .cold s).tables = startTables s := beginStart_alters .cold s .tables (by decide)
  have hdefaults : (beginStart .cold s).storeDefaults = startDefaults s :=
    beginStart_alters .cold s .storeDefaults (by decide)
  have hcredit : (startState .cold s).credit = CreditUnit.initial := congrArg startCredit himg
  have hspirals := beginStart_spirals .cold s
  rw [himg] at hspirals
  refine ⟨beginStart_phase .cold s, ?_, ?_, ?_, fun n => ?_, fun n hn => ?_, fun i hi => ?_, hspirals⟩
  · rw [beginStart_blank .cold s himg]
    exact congrArg startAudit himg
  · have hsale : saleOf (startState .cold s) = .idle := by
      unfold saleOf
      rw [hcredit]
      rfl
    rw [beginStart_blank .cold s himg]
    unfold setSale
    rw [hsale, hcredit]
    rfl
  · rw [beginStart_blank .cold s himg]
    exact congrArg startLock himg
  · rcases Nat.lt_or_ge n 6 with hn | hn
    · rw [beginStart_tube .cold s hn, himg]
      rfl
    · rw [tube_congr (beginStart_alters .cold s .tubes (by decide))]
      have hnone : (startState .cold s).tube n = TubeState.initial := by
        unfold State.tube startState
        simp [List.getD_eq_getElem?_getD, hn]
      rw [hnone]
      rfl
  · rw [beginStart_tube .cold s hn, himg, htables]
    show condFor ((startTables s).tube n).enabled .ok = _
    rw [condFor_eq]
    cases ((startTables s).tube n).enabled <;> rfl
  · rw [beginStart_sel .cold s hi, himg, hdefaults]
    rfl

/-- A start that is not WARM finds a good supply and holds no rate (R115, R160). -/
theorem beginStart_fresh (h : c ≠ .warm) : (beginStart c s).supply.state = .normal ∧ (beginStart c s).supply.low = 0 ∧
    (beginStart c s).supply.fail = 0 ∧ (beginStart c s).supply.good = 0 ∧ (beginStart c s).link.rate = none := by
  obtain ⟨hstate, -, hlow, hfail, hgood⟩ := beginStart_alters c s .supply (by decide)
  obtain ⟨hrate, -⟩ := beginStart_alters c s .linkRate (by decide)
  rw [hstate, hlow, hfail, hgood, hrate]
  cases c with
  | warm => exact absurd rfl h
  | cold | powerRestored => exact ⟨rfl, rfl, rfl, rfl, rfl⟩

theorem waitCause_ne_warm : waitCause s ≠ .warm := by
  unfold waitCause
  split <;> decide

end

theorem waitEnds_restored {s : State} {m : Retained} (himg : startImage s = some m) :
    Restored .powerRestored m (waitEnds s) := by
  have hcause : waitCause s = .powerRestored := if_pos (Option.isSome_iff_exists.2 ⟨m, himg⟩)
  unfold waitEnds
  rw [hcause]
  exact beginStart_restored _ s himg

theorem waitEnds_coldValues {s : State} (himg : startImage s = none) : ColdValues (waitEnds s) := by
  have hcause : waitCause s = .cold := by
    refine if_neg ?_
    rw [show latest s.store.retainedA s.store.retainedB = none from himg]
    exact Bool.false_ne_true
  unfold waitEnds
  rw [hcause]
  exact beginStart_coldValues s himg

theorem waitEnds_done (s : State) : finishSupply (waitEnds s) = waitEnds s :=
  finishSupply_restoring (beginStart_phase _ s)

/-! ### The store's completions (R121, R123) -/

/-- The store once its table image write is complete. -/
def tablesStored (w : StoreWrite Tables) (x : Store) : Store :=
  { x with
    tableA := if w.first then some w.copy else x.tableA, tableB := if w.first then x.tableB else some w.copy
    tableWriting := none }

/-- The store once its retained image write is complete. -/
def retainedStored (w : StoreWrite Retained) (x : Store) : Store :=
  { x with
    retainedA := if w.first then some w.copy else x.retainedA, retainedB := if w.first then x.retainedB else some w.copy
    retainedWriting := none }

theorem commitTables_eq {s : State} {w : StoreWrite Tables} (h : s.store.tableWriting = some w) :
    commitTables s = { s with store := tablesStored w s.store } := by
  unfold commitTables tablesStored
  rw [h]
  cases hfirst : w.first <;> simp [hfirst]

theorem commitRetained_eq {s : State} {w : StoreWrite Retained} (h : s.store.retainedWriting = some w) :
    commitRetained s = { s with store := retainedStored w s.store } := by
  unfold commitRetained retainedStored
  rw [h]
  cases hfirst : w.first <;> simp [hfirst]

theorem tableWriteDone_none {s : State} (h : s.store.tableWriting = none) : tableWriteDone s = s := by
  unfold tableWriteDone
  rw [h]
  rfl

section
variable {s : State} {w : StoreWrite Tables}

theorem tableWriteDone_run (h : s.store.tableWriting = some w) (hrun : s.phase = .run) :
    tableWriteDone s = if s.store.tableWaiting then beginTableWrite { s with store := tablesStored w s.store }
      else { s with store := tablesStored w s.store } := by
  unfold tableWriteDone
  rw [commitTables_eq h, h]
  simp [saving, hrun, tablesStored]

theorem tableWriteDone_saving (h : s.store.tableWriting = some w) {warm : Bool} (hsave : s.phase = .saving warm) :
    tableWriteDone s = beginRetainedWrite { s with store := tablesStored w s.store } := by
  unfold tableWriteDone
  rw [commitTables_eq h, h]
  simp [saving, hsave]

end

section
variable {s : State} {w : StoreWrite Retained}

theorem retainedWriteDone_warm (h : s.store.retainedWriting = some w) (hsave : s.phase = .saving true) :
    retainedWriteDone s = beginStart .warm { s with store := retainedStored w s.store } := by
  unfold retainedWriteDone
  rw [commitRetained_eq h, h]
  simp [hsave]

theorem retainedWriteDone_fail (h : s.store.retainedWriting = some w) (hsave : s.phase = .saving false) :
    retainedWriteDone s =
      if 500 ≤ s.supply.good then waitEnds { s with phase := .failWait, store := retainedStored w s.store }
      else { s with phase := .failWait, store := retainedStored w s.store } := by
  unfold retainedWriteDone
  rw [commitRetained_eq h, h]
  simp [hsave]

theorem startImage_stored (hlaw : StoreLaw s) (h : s.store.retainedWriting = some w) :
    latest (retainedStored w s.store).retainedA (retainedStored w s.store).retainedB = some w.copy.contents := by
  obtain ⟨-, hretained⟩ := hlaw
  rw [h] at hretained
  exact latest_committed hretained

end

/-! ### Readings of the FAIL wait (R114, R124) -/

section
variable {v : Nat} {s : State}

theorem supplyReads_wait (hphase : s.phase = .failWait) (hstate : s.supply.state = .fail) :
    supplyReads [v] s = if 500 ≤ persist (210 ≤ v) s.supply.good then waitEnds (supplyCounts v s) else supplyCounts v s := by
  rw [supplyReads_one]
  unfold supplyDecides
  rw [show (supplyCounts v s).supply.state = .fail from hstate]
  by_cases hgood : 500 ≤ persist (210 ≤ v) s.supply.good
  · rw [if_pos hgood]
    exact if_pos ⟨hphase, hgood⟩
  · rw [if_neg hgood]
    exact if_neg fun h => hgood h.2

theorem powerRestored_waits (hphase : s.phase = .failWait) (hstate : s.supply.state = .fail)
    (hgood : persist (210 ≤ v) s.supply.good < 500) : exec (.powerRestored [v]) s = .next (supplyCounts v s) := by
  have hreads := supplyReads_wait (v := v) hphase hstate
  rw [if_neg (Nat.not_le.2 hgood)] at hreads
  have hdone : finishSupply (supplyReads [v] s) = supplyCounts v s := by
    rw [hreads]
    exact finishSupply_failWait hphase
  exact congrArg (fun t => (.next t : Result)) hdone

theorem powerRestored_starts (hphase : s.phase = .failWait) (hstate : s.supply.state = .fail)
    (hgood : 500 ≤ persist (210 ≤ v) s.supply.good) : exec (.powerRestored [v]) s = .next (waitEnds (supplyCounts v s)) := by
  have hreads := supplyReads_wait (v := v) hphase hstate
  rw [if_pos hgood] at hreads
  have hdone : finishSupply (supplyReads [v] s) = waitEnds (supplyCounts v s) := by
    rw [hreads, waitEnds_done]
  exact congrArg (fun t => (.next t : Result)) hdone

end

theorem supplyCounts_alters (v : Nat) (s : State) : Alters [.supply] s (supplyCounts v s) := by
  intro p hp
  cases p <;> simp_all [Part.same, supplyCounts]

/-! ### Writes cut off (R123) -/

theorem cutWrites_none {x : Store} (ht : x.tableWriting = none) (hr : x.retainedWriting = none) :
    cutWrites x = { x with tableWaiting := false } := by
  unfold cutWrites
  rw [ht, hr]

theorem cutWrites_table {x : Store} {w : StoreWrite Tables} (h : x.tableWriting = some w) :
    (cutWrites x).tableA = (if w.first then none else x.tableA) ∧
    (cutWrites x).tableB = (if w.first then x.tableB else none) := by
  unfold cutWrites
  dsimp only
  rw [h]
  cases hfirst : w.first <;> cases hr : x.retainedWriting with
  | none => simp [hfirst]
  | some v => cases hother : v.first <;> simp [hfirst, hother]

theorem cutWrites_retained {x : Store} {w : StoreWrite Retained} (h : x.retainedWriting = some w) :
    (cutWrites x).retainedA = (if w.first then none else x.retainedA) ∧
    (cutWrites x).retainedB = (if w.first then x.retainedB else none) := by
  unfold cutWrites
  dsimp only
  rw [h]
  cases hfirst : w.first <;> cases ht : x.tableWriting with
  | none => simp [hfirst]
  | some v => cases hother : v.first <;> simp [hfirst, hother]

/-- Settles O58. -/
theorem storeWritesCommitAndStartsRestore : Obligations.StoreWritesCommitAndStartsRestore := by
  refine ⟨fun s hnone => ?_, fun w s hw => ⟨fun hrun hwait => ?_, fun hrun hwait => ?_, fun warm hsave => ?_⟩,
    fun w s hw => ⟨fun hsave hgood => ?_, fun hlaw => ⟨fun hsave => ?_, fun hsave hgood => ?_⟩⟩,
    fun v s hphase hstate => ⟨fun hv => ?_, fun hv hgood => ?_, fun hv hgood => ?_⟩, fun c s hc => ?_,
    fun s => ⟨?_, fun ht hr => cutWrites_none ht hr, fun w hw => cutWrites_table hw, fun w hw => cutWrites_retained hw⟩⟩
  · exact next_finish (tableWriteDone_none hnone)
  · have hdone := tableWriteDone_run hw hrun
    rw [hwait, if_neg Bool.false_ne_true] at hdone
    exact next_finish hdone
  · have hdone := tableWriteDone_run hw hrun
    rw [hwait, if_pos rfl] at hdone
    exact next_finish hdone
  · have hdone := tableWriteDone_saving hw hsave
    have hfinish : finish (tableWriteDone s) = beginRetainedWrite { s with store := tablesStored w s.store } := by
      rw [hdone]
      exact finish_saving _ warm hsave
    exact congrArg (fun t => (.next t : Result)) hfinish
  · have hdone := retainedWriteDone_fail hw hsave
    rw [if_neg (Nat.not_le.2 hgood)] at hdone
    have hfinish : finishSupply (retainedWriteDone s) = { s with phase := .failWait, store := retainedStored w s.store } := by
      rw [hdone]
      exact finishSupply_failWait rfl
    exact congrArg (fun t => (.next t : Result)) hfinish
  · let u : State := { s with store := retainedStored w s.store }
    have hfinish : finishSupply (retainedWriteDone s) = beginStart .warm u := by
      rw [retainedWriteDone_warm hw hsave]
      exact finishSupply_restoring (beginStart_phase .warm u)
    exact ⟨_, congrArg (fun t => (.next t : Result)) hfinish, beginStart_restored .warm u (startImage_stored hlaw hw),
      beginStart_tablesOf .warm u, (beginStart_alters .warm u .linkRate (by decide)).1⟩
  · let u : State := { s with phase := .failWait, store := retainedStored w s.store }
    have hdone := retainedWriteDone_fail hw hsave
    rw [if_pos hgood] at hdone
    have hfinish : finishSupply (retainedWriteDone s) = waitEnds u := by
      rw [hdone, waitEnds_done]
    obtain ⟨hnormal, -, -, -, hrate⟩ := beginStart_fresh (waitCause u) u (waitCause_ne_warm u)
    exact ⟨_, congrArg (fun t => (.next t : Result)) hfinish, waitEnds_restored (startImage_stored hlaw hw),
      beginStart_tablesOf _ u, hrate, hnormal⟩
  · have hzero : persist (210 ≤ v) s.supply.good = 0 := persist_false (by omega) _
    exact ⟨_, powerRestored_waits hphase hstate (by omega), supplyCounts_alters v s, hzero, rfl⟩
  · have hnext : persist (210 ≤ v) s.supply.good = s.supply.good + 1 := persist_true hv _
    exact ⟨_, powerRestored_waits hphase hstate (by omega), supplyCounts_alters v s, hnext⟩
  · have hnext : persist (210 ≤ v) s.supply.good = s.supply.good + 1 := persist_true hv _
    obtain ⟨hnormal, hlow, hfail, hgood', -⟩ := beginStart_fresh (waitCause (supplyCounts v s)) (supplyCounts v s)
      (waitCause_ne_warm _)
    exact ⟨_, powerRestored_starts hphase hstate (by omega), hnormal, hlow, hfail, hgood',
      beginStart_tablesOf _ (supplyCounts v s), fun m himg => waitEnds_restored himg,
      fun ha hb => waitEnds_coldValues (latest_isNone_iff.2 ⟨ha, hb⟩)⟩
  · have htick : finish { s with seconds := s.seconds + 1 } =
        finish { { s with phase := .probing c } with seconds := s.seconds + 1 } := by
      unfold finish
      simp only [hc]
    exact congrArg (fun t => (.next t : Result)) htick
  · exact congrArg (fun t => (.next t : Result)) (finish_failWait _ rfl)

end Sys2Proof.Machine
end

