-- ==== Sys2Proof/Proofs/LineChoice.lean ====
section
/-! The choice of the next transaction, the rounds and the receiver between transactions (R131, R134, R136, R139, R140). -/

/- One lemma after another, to keep the memory of a compile small. -/
set_option Elab.async false

namespace Sys2Proof.Machine

/-! ### The line at the end of a step (R139) -/

theorem Alters.line_eq {ps : List Part} {s t : State} (h : Alters ps s t)
    (hp : Apart [.receiver, .trans, .cmdQueue, .passQueue, .ring, .slots, .lineCounts, .maskRecs] ps := by
      exact (apart_iff _ _).1 rfl) : t.line = s.line := by
  obtain ⟨hassembling, hidle, hdriver⟩ := h .receiver (hp _ (by decide))
  have htrans : t.line.trans = s.line.trans := h .trans (hp _ (by decide))
  obtain ⟨hqueue, hback⟩ := h .cmdQueue (hp _ (by decide))
  have hpass : t.line.pass = s.line.pass := h .passQueue (hp _ (by decide))
  obtain ⟨hround, hlist, hpending⟩ := h .ring (hp _ (by decide))
  have hslots : t.line.slots = s.line.slots := h .slots (hp _ (by decide))
  obtain ⟨hnoisy, hframing, hcrc, htruncated, hunsolicited, hdropped⟩ := h .lineCounts (hp _ (by decide))
  obtain ⟨hvalidator, hreader⟩ := h .maskRecs (hp _ (by decide))
  cases htl : t.line
  cases hsl : s.line
  simp_all

/-- The state the line's choice is made in at the end of a step. -/
def rested (s : State) : State := kickMatrix (setSale (payoutTest (setSale s)))

theorem rested_alters (s : State) : Alters [.sale, .payout, .grants, .column, .probing] s (rested s) :=
  (((setSale_alters s).seq (rs := [.sale, .payout, .grants]) (payoutTest_alters _)).seq (rs := [.sale, .payout, .grants])
    (setSale_alters _)).seq (kickMatrix_alters _)

theorem rested_line (s : State) : (rested s).line = s.line := (rested_alters s).line_eq

theorem finish_choose {s : State} (hrun : s.phase = .run) : finish s = lineChoose (rested s) := by
  unfold finish
  rw [hrun]
  rfl

theorem lineChoose_busy {s : State} (h : s.line.idle = false ∨ s.line.trans.isSome = true) : lineChoose s = s := by
  refine if_neg ?_
  rcases h with h | h <;> simp [h, Option.ne_none_iff_isSome]

/-- A line that is not idle, or in a transaction, stays as it is at the end of a step. -/
theorem finish_line {s : State} (hrun : s.phase = .run) (h : s.line.idle = false ∨ s.line.trans.isSome = true) :
    (finish s).line = s.line := by
  rw [finish_choose hrun, lineChoose_busy (by rwa [rested_line]), rested_line]

theorem lineChoose_free {s : State} (hrun : s.running = true) (hidle : s.line.idle = true) (htrans : s.line.trans = none) :
    lineChoose s = chooseNext 16 s := if_pos (by simp [hrun, hidle, htrans])

/-! ### What is chosen (R139) -/

section
variable {s : State} {n : Nat}

theorem chooseNext_cmd {e : Cmd} {rest : List Cmd} (hqueue : s.line.queue = e :: rest) (hpresent : s.slotPresent e.slot = true) :
    chooseNext (n + 1) s = sendTrans e.slot (.cmd e.body) { s with line.queue := markHead s.line.queue } := by
  rw [chooseNext, hqueue]
  exact if_pos hpresent

theorem chooseNext_dropped {e : Cmd} {rest : List Cmd} (hqueue : s.line.queue = e :: rest)
    (habsent : s.slotPresent e.slot = false) :
    chooseNext (n + 1) s = chooseNext n (returnCmd .dropped e { s with line.queue := rest }) := by
  rw [chooseNext, hqueue]
  exact if_neg (by rw [habsent]; exact Bool.false_ne_true)

theorem chooseNext_empty (hqueue : s.line.queue = []) : chooseNext (n + 1) s = choosePassOrPoll s := by
  rw [chooseNext, hqueue]

theorem choose_pass {e : PassEntry} {rest : List PassEntry} (hpass : s.line.pass = e :: rest) :
    choosePassOrPoll s = sendTrans e.slot (.pass e) { s with line.pass := markPass s.line.pass } := by
  unfold choosePassOrPoll
  rw [hpass]

theorem choose_poll {a : Nat} {rest : List Nat} (hpass : s.line.pass = []) (hlist : s.line.list = a :: rest) :
    choosePassOrPoll s = sendTrans a .poll (roundIfDue { s with line.list := rest }) := by
  unfold choosePassOrPoll
  rw [hpass, hlist]

theorem choose_none (hpass : s.line.pass = []) (hlist : s.line.list = []) : choosePassOrPoll s = s := by
  unfold choosePassOrPoll
  rw [hpass, hlist]

/-- With no round due, a choice leaves the round's number as it is (R140). -/
theorem choosePassOrPoll_round (h : s.line.roundPending = false) : (choosePassOrPoll s).line.round = s.line.round := by
  unfold choosePassOrPoll
  split
  · rfl
  · split
    · unfold roundIfDue
      simp [h, sendTrans]
    · rfl

theorem chooseNext_round (h : s.line.roundPending = false) : (chooseNext n s).line.round = s.line.round := by
  induction n generalizing s with
  | zero => rfl
  | succ n ih =>
    cases hqueue : s.line.queue with
    | nil => rw [chooseNext_empty hqueue, choosePassOrPoll_round h]
    | cons e es =>
      cases hpresent : s.slotPresent e.slot with
      | true => rw [chooseNext_cmd hqueue hpresent]; rfl
      | false =>
        obtain ⟨hround, -, hpending⟩ := returnCmd_alters .dropped e { s with line.queue := es } .ring (by decide)
        rw [chooseNext_dropped hqueue hpresent, ih (hpending.trans h)]
        exact hround

theorem finish_round (hrun : s.phase = .run) (h : s.line.roundPending = false) : (finish s).line.round = s.line.round := by
  have hround : (lineChoose (rested s)).line.round = (rested s).line.round := by
    unfold lineChoose
    split
    · exact chooseNext_round (by rwa [rested_line])
    · rfl
  rw [finish_choose hrun, hround, rested_line]

end

/-! ### An idle line (R136, R139) -/

section
variable {s : State}

theorem lineQuiet_of_run (hrun : s.phase = .run) (htrans : s.line.trans = none) (hasm : s.line.assembling = false) :
    lineQuiet s = { s with line.idle := true } := if_pos (by simp [htrans, hasm, State.running, hrun])

theorem lineIdle_done (hrun : s.phase = .run) (htrans : s.line.trans = none) (hasm : s.line.assembling = false) :
    exec .lineIdle s = .next (chooseNext 16 (rested { s with line.idle := true })) := by
  have hrested := rested_alters { s with line.idle := true }
  have hphase : (rested { s with line.idle := true }).phase = .run := (hrested .phase (by decide)).trans hrun
  have hchoose : lineChoose (rested { s with line.idle := true }) = chooseNext 16 (rested { s with line.idle := true }) :=
    lineChoose_free (by simp [State.running, hphase]) (by rw [rested_line]) (by rw [rested_line]; exact htrans)
  have hdone : finish (whenActive lineQuiet s) = chooseNext 16 (rested { s with line.idle := true }) := by
    rw [whenActive_of_run hrun, lineQuiet_of_run hrun htrans hasm, finish_choose (s := { s with line.idle := true }) hrun, hchoose]
  exact congrArg (fun t => (.next t : Result)) hdone

theorem lineIdle_completes {good : State → Prop} (hrun : s.phase = .run) (htrans : s.line.trans = none)
    (hasm : s.line.assembling = false) (hgood : ∀ u : State, u.line = { s.line with idle := true } →
      Alters [.sale, .payout, .grants, .column, .probing, .receiver] s u → good (chooseNext 16 u)) :
    Completes .lineIdle s [] good := by
  have hrested := (setIdle_alters true s).seq (rs := [.sale, .payout, .grants, .column, .probing, .receiver])
    (rested_alters { s with line.idle := true })
  exact ⟨_, lineIdle_done hrun htrans hasm, hrested.seq (chooseNext_alters _ _),
    hgood _ (rested_line { s with line.idle := true }) hrested⟩

theorem lineIdle_busy (hrun : s.phase = .run) (h : s.line.trans.isSome = true ∨ s.line.assembling = true) :
    exec .lineIdle s = .next (finish s) := by
  have hquiet : lineQuiet s = s := by
    refine if_neg ?_
    rcases h with h | h <;> simp [h, Option.ne_none_iff_isSome]
  exact next_finish ((whenActive_of_run hrun).trans hquiet)

end

/-! ### Rounds (R140) -/

theorem inRound_iff {s : State} {r a : Nat} : inRound s r a = true ↔ s.tables.slotKind a ≠ .unused ∧
    ((s.slot a).state = .absent → r = 0) ∧
    ((s.slot a).state ≠ .absent → s.tables.slotKind a = .other → s.lock.economy = true → r % 4 = 0) := by
  unfold inRound
  cases s.tables.slotKind a <;> cases (s.slot a).state <;> cases s.lock.economy <;> simp

theorem mem_addresses {a : Nat} : a ∈ addresses ↔ 1 ≤ a ∧ a ≤ 8 := by
  simp only [addresses, List.mem_cons, List.not_mem_nil, or_false]
  omega

theorem roundDue_waits {s : State} (h : s.line.list ≠ []) : roundDue s = { s with line.roundPending := true } :=
  if_neg (by simp [h])

theorem roundDue_begins {s : State} (h : s.line.list = []) : roundDue s = beginRound s := if_pos (by simp [h])

theorem whenRunning_of_run {f : State → State} {s : State} (hrun : s.phase = .run) : whenRunning f s = f s :=
  if_pos (by simp [State.running, hrun])

end Sys2Proof.Machine
end

