-- ==== Sys2Proof/Proofs/LineTransactions.lean ====
section
/-! A transaction's request, its reply window and its outcomes without a reply; the end of the line-reset break (R128,
R131, R132, R134 to R136, R142, R145). -/

/- One lemma after another, to keep the memory of a compile small. -/
set_option Elab.async false

namespace Sys2Proof.Machine

/-! ### The slots' records -/

section
variable {a b : Nat} {f : Slot → Slot} {s : State}

theorem slot_modSlot (ha : 1 ≤ a) (hhigh : a ≤ 8) (hlen : s.line.slots.length = 8) : (modSlot a f s).slot a = f (s.slot a) := by
  unfold State.slot modSlot
  rw [getD_updAt, if_pos ⟨rfl, by omega⟩]

theorem slot_modSlot_other (ha : 1 ≤ a) (hb : 1 ≤ b) (hne : b ≠ a) : (modSlot a f s).slot b = s.slot b := by
  unfold State.slot modSlot
  rw [getD_updAt, if_neg (by omega)]

theorem modSlot_slots_length : (modSlot a f s).line.slots.length = s.line.slots.length := length_updAt _ _ _

end

/-! ### Noisy characters (R130) -/

section
variable {n : Nat} {s : State}

theorem countNoisy_free (htrans : s.line.trans = none) :
    countNoisy n s = { s with line.noisy := upto16 s.line.noisy n } := by
  unfold countNoisy
  simp only [htrans]
  rfl

theorem countNoisy_zero (htrans : s.line.trans = none) (hn : s.line.noisy ≤ 65535) : countNoisy 0 s = s := by
  have hsame : upto16 s.line.noisy 0 = s.line.noisy := by
    unfold upto16
    omega
  rw [countNoisy_free htrans, hsame]

theorem countNoisy_trans {x : Trans} (htrans : s.line.trans = some x) : countNoisy n s =
    modSlot x.slot (fun r => { r with noise := upto16 r.noise n }) { s with line.noisy := upto16 s.line.noisy n } := by
  unfold countNoisy
  simp only [htrans]
  rfl

end

/-! ### The receiver between transactions (R131, R134, R136) -/

section
variable {f : State → State} {s : State}

theorem whenListening_of_run (hrun : s.phase = .run) (hdriver : s.line.driver = false) : whenListening f s = f s :=
  if_pos (by simp [listening, active_of_run hrun, hdriver])

theorem whenListening_driving (hdriver : s.line.driver = true) : whenListening f s = s :=
  if_neg (by simp [listening, hdriver])

end

section
variable {s : State}

theorem lineBreakSeen_free (htrans : s.line.trans = none) : lineBreakSeen s = { s with
    line.unsolicited := upto16 s.line.unsolicited 1, line.assembling := true, line.idle := false } := by
  unfold lineBreakSeen
  rw [htrans]
  rfl

theorem discardFrame_free (htrans : s.line.trans = none) :
    discardFrame s = { s with line.assembling := false, line.idle := false } := by
  unfold discardFrame
  simp only [htrans]

theorem discardFrame_trans {x : Trans} (htrans : s.line.trans = some x) :
    discardFrame s = endTrans x .badReply { s with line.assembling := false } := by
  unfold discardFrame
  simp only [htrans]

theorem lineLow_free (htrans : s.line.trans = none) : lineLow s = { s with line.idle := false } := by
  unfold lineLow
  rw [htrans]

theorem lineLow_trans {x : Trans} (htrans : s.line.trans = some x) :
    lineLow s = { s with line.trans := some { x with stage := .reply } } := by
  unfold lineLow
  rw [htrans]

theorem lineFramingSeen_free (htrans : s.line.trans = none) : lineFramingSeen s = { s with
    line.framing := upto16 s.line.framing 1, line.assembling := false, line.idle := false } := by
  unfold lineFramingSeen
  cases hasm : s.line.assembling with
  | true => exact (if_pos hasm).trans (discardFrame_free (s := countFraming s) htrans)
  | false =>
    have hkeep : (countFraming s).line.assembling = false := hasm
    refine (if_neg (by rw [hkeep]; exact Bool.false_ne_true)).trans ?_
    rw [lineLow_free (s := countFraming s) htrans]
    unfold countFraming
    rw [← hasm]
    rfl

theorem lineFramingSeen_frame (hasm : s.line.assembling = true) : lineFramingSeen s = discardFrame (countFraming s) :=
  if_pos hasm

theorem lineTruncatedSeen_frame (hasm : s.line.assembling = true) : lineTruncatedSeen s = discardFrame (countTruncated s) :=
  if_pos hasm

theorem lineBadHeaderSeen_frame (hasm : s.line.assembling = true) : lineBadHeaderSeen s = discardFrame (countCrc s) :=
  if_pos hasm

/-- Characters with no break before them: the line has been read low (R136). -/
theorem lineFrameSeen_stray (hasm : s.line.assembling = false) (b : Byte) (bytes : List Byte) :
    lineFrameSeen (clean (b :: bytes)) s = lineLow (countNoisy 0 s) := by
  have hsound : (clean (b :: bytes)).takeWhile (fun c => !stopLow c) = clean (b :: bytes) := by
    refine List.takeWhile_eq_self_iff.2 fun c hc => ?_
    obtain ⟨x, -, rfl⟩ := List.mem_map.1 hc
    simp
  unfold lineFrameSeen strayChars
  rw [hasm, if_neg Bool.false_ne_true, takenChars_clean]
  dsimp only
  rw [hsound, noisyCount_clean]
  exact (if_neg (by simp [clean])).trans (if_neg (Nat.lt_irrefl _))

/-- A whole frame that no transaction asked for is ignored (R136). -/
theorem lineFrameSeen_unasked (hasm : s.line.assembling = true) (htrans : s.line.trans = none) (hn : s.line.noisy ≤ 65535)
    {a k : Nat} {p : List Byte} (hlow : 1 ≤ a) (hhigh : a ≤ 8) (hk : k < 256) (hp : p.length ≤ 32) :
    lineFrameSeen (clean (lineFrame a k p)) s = { s with line.assembling := false, line.idle := false } := by
  unfold lineFrameSeen
  rw [hasm, if_pos rfl, readFrame_lineFrame hlow hhigh hk hp, noisyCount_clean]
  simp only [countNoisy_zero htrans hn, htrans, if_true]

end

/-! ### Outcomes without a reply (R135, R136, R142) -/

/-- A slot's record with one more miss: the third makes a PRESENT slot SILENT (R142). -/
def MissedOne (a : Nat) (s t : State) : Prop :=
  (t.slot a).missed = min 255 ((s.slot a).missed + 1) ∧
  ((s.slot a).state = .present ∧ 2 ≤ (s.slot a).missed → (t.slot a).state = .silent ∧
    RaisesFirst s t .peripheralLost (some a) (val (s.tables.slotKind a).code)) ∧
  (¬((s.slot a).state = .present ∧ 2 ≤ (s.slot a).missed) → (t.slot a).state = (s.slot a).state) ∧
  ∀ b, 1 ≤ b → b ≤ 8 → b ≠ a → t.slot b = s.slot b

/-- The other slots stand as before, and so do this one's missed count and state. -/
structure SlotHeard (a : Nat) (s u : State) : Prop where
  length : u.line.slots.length = s.line.slots.length
  missed : (u.slot a).missed = (s.slot a).missed
  state : (u.slot a).state = (s.slot a).state
  others : ∀ b, 1 ≤ b → b ≤ 8 → b ≠ a → u.slot b = s.slot b

/-- What the receiver changes before an outcome is taken. -/
def heardParts : List Part := [.receiver, .trans, .slots, .lineCounts]

theorem SlotHeard.of_slots {a : Nat} {s u : State} (h : u.line.slots = s.line.slots) : SlotHeard a s u where
  length := by rw [h]
  missed := by rw [slot_congr h]
  state := by rw [slot_congr h]
  others _ _ _ _ := slot_congr h _

theorem SlotHeard.trans {a : Nat} {s t u : State} (h1 : SlotHeard a s t) (h2 : SlotHeard a t u) : SlotHeard a s u where
  length := h2.length.trans h1.length
  missed := h2.missed.trans h1.missed
  state := h2.state.trans h1.state
  others b hb hb8 hne := (h2.others b hb hb8 hne).trans (h1.others b hb hb8 hne)

theorem slotHeard_countNoisy {x : Trans} {s : State} (htrans : s.line.trans = some x) (hlow : 1 ≤ x.slot) (hhigh : x.slot ≤ 8)
    (hlen : s.line.slots.length = 8) (n : Nat) : SlotHeard x.slot s (countNoisy n s) := by
  rw [countNoisy_trans htrans]
  have hself := slot_modSlot (f := fun r => { r with noise := upto16 r.noise n })
    (s := { s with line.noisy := upto16 s.line.noisy n }) hlow hhigh hlen
  exact ⟨modSlot_slots_length, by rw [hself]; rfl, by rw [hself]; rfl,
    fun b hb _ hne => slot_modSlot_other hlow hb hne⟩

theorem expireEscrow_none {s : State} (h : s.credit.escrow = none) : expireEscrow s = s := by
  unfold expireEscrow
  rw [h]

theorem expireEscrow_some {s : State} {e : Escrow} (h : s.credit.escrow = some e) : expireEscrow s = recomputeMasks (setSale
    (raise .escrowUnresolved (some e.noteType) (val (s.tables.note e.noteType).value) (removeEscrow s))) := by
  unfold expireEscrow
  rw [h]

theorem expireEscrow_length_le (s : State) : (expireEscrow s).events.queue.length ≤ s.events.queue.length + 1 := by
  cases h : s.credit.escrow with
  | none => rw [expireEscrow_none h]; exact Nat.le_succ _
  | some e =>
    rw [expireEscrow_some h, show (recomputeMasks _).events = _ from recomputeMasks_alters _ .events (by decide)]
    exact raise_length_le _ _ _ _

theorem tellSilent_length_le (a : Nat) (s : State) : (tellSilent a s).events.queue.length ≤ s.events.queue.length + 1 := by
  unfold tellSilent
  split
  · rw [show (recomputeMasks s).events = s.events from recomputeMasks_alters s .events (by decide)]
    exact Nat.le_succ _
  · rw [show (recomputeNote (expireEscrow s)).events = _ from recomputeNote_alters _ .events (by decide)]
    exact expireEscrow_length_le s
  · exact Nat.le_succ _

theorem slotMissed_length_le (a : Nat) (s : State) : (slotMissed a s).events.queue.length ≤ s.events.queue.length + 2 := by
  unfold slotMissed
  dsimp only
  split
  · exact (tellSilent_length_le _ _).trans (Nat.succ_le_succ (raise_length_le _ _ _ _))
  · exact Nat.le_add_right _ 2

theorem slotMissed_lost {a : Nat} {s : State} (h : (s.slot a).state = .present ∧ 2 ≤ (s.slot a).missed) :
    slotMissed a s = tellSilent a (raise .peripheralLost (some a) (val (s.tables.slotKind a).code)
      (modSlot a (fun x => { x with state := .silent }) (modSlot a (fun x => { x with missed := satAdd 255 x.missed 1 }) s))) :=
  if_pos ⟨h.1, by omega⟩

theorem slotMissed_kept {a : Nat} {s : State} (h : ¬((s.slot a).state = .present ∧ 2 ≤ (s.slot a).missed)) :
    slotMissed a s = modSlot a (fun x => { x with missed := satAdd 255 x.missed 1 }) s :=
  if_neg fun hlost => h ⟨hlost.1, by omega⟩

theorem slotMissed_missedOne {a : Nat} {s u : State} (hlow : 1 ≤ a) (hhigh : a ≤ 8) (hlen : s.line.slots.length = 8)
    (hu : Alters heardParts s u) (hheard : SlotHeard a s u) : MissedOne a s (slotMissed a u) := by
  have hlen' : u.line.slots.length = 8 := hheard.length.trans hlen
  have hevents : u.events = s.events := hu .events (by decide)
  have hseconds : u.seconds = s.seconds := hu .seconds (by decide)
  have htables : u.tables = s.tables := hu .tables (by decide)
  have hmissed := hheard.missed
  have hstate := hheard.state
  by_cases hlost : (s.slot a).state = .present ∧ 2 ≤ (s.slot a).missed
  · rw [slotMissed_lost (by rwa [hstate, hmissed]), htables]
    generalize hv : modSlot a (fun x => { x with missed := satAdd 255 x.missed 1 }) u = v
    have hlenv : v.line.slots.length = 8 := by rw [← hv]; exact modSlot_slots_length.trans hlen'
    have hslots := tellSilent_alters_parts a (raise .peripheralLost (some a) (val (s.tables.slotKind a).code)
      (modSlot a (fun x => { x with state := .silent }) v)) .slots (by decide)
    have hslot (b : Nat) : (tellSilent a (raise .peripheralLost (some a) (val (s.tables.slotKind a).code)
        (modSlot a (fun x => { x with state := .silent }) v))).slot b = (modSlot a (fun x => { x with state := .silent }) v).slot b :=
      slot_congr hslots b
    have hself : v.slot a = { u.slot a with missed := satAdd 255 (u.slot a).missed 1 } := by
      rw [← hv]
      exact slot_modSlot hlow hhigh hlen'
    refine ⟨?_, fun _ => ⟨?_, ?_⟩, fun h => absurd hlost h, fun b hb hb8 hne => ?_⟩
    · rw [hslot, slot_modSlot hlow hhigh hlenv, hself, hmissed]
      rfl
    · rw [hslot, slot_modSlot hlow hhigh hlenv]
    · refine raisesFirst_of ?_ ?_ (extends_growth.tellSilent a _)
      · rw [← hv]; exact hevents
      · rw [← hv]; exact hseconds
    · rw [hslot, slot_modSlot_other hlow hb hne, ← hv, slot_modSlot_other hlow hb hne]
      exact hheard.others b hb hb8 hne
  · have hself := slot_modSlot (f := fun x => { x with missed := satAdd 255 x.missed 1 }) hlow hhigh hlen'
    rw [slotMissed_kept (by rwa [hstate, hmissed])]
    refine ⟨?_, fun h => absurd h hlost, fun _ => ?_, fun b hb hb8 hne => ?_⟩
    · rw [hself, hmissed]
      rfl
    · rw [hself]
      exact hstate
    · rw [slot_modSlot_other hlow hb hne]
      exact hheard.others b hb hb8 hne

theorem MissedOne.after {a : Nat} {s t u : State} (h : MissedOne a s t) (hslots : u.line.slots = t.line.slots)
    (hext : Extends t u) : MissedOne a s u := by
  obtain ⟨hmissed, hlost, hkept, hothers⟩ := h
  refine ⟨by rw [slot_congr hslots]; exact hmissed, fun hcond => ?_, fun hcond => ?_, fun b hb hb8 hne => ?_⟩
  · obtain ⟨hsilent, hraised⟩ := hlost hcond
    exact ⟨by rw [slot_congr hslots]; exact hsilent, hraised.after hext⟩
  · rw [slot_congr hslots]
    exact hkept hcond
  · rw [slot_congr hslots]
    exact hothers b hb hb8 hne

/-! ### The end of a transaction (R136 to R138, R145) -/

section
variable {x : Trans} {s : State}

theorem endTrans_poll_missed (hbody : x.body = .poll) (hstale : x.stale = false) :
    endTrans x .missed s = slotMissed x.slot (leaveTrans true s) := by
  unfold endTrans heldOutcome handOn
  rw [hbody, hstale]
  rfl

theorem endTrans_poll_bad (hbody : x.body = .poll) (hstale : x.stale = false) :
    endTrans x .badReply s = slotMissed x.slot (leaveTrans false s) := by
  unfold endTrans heldOutcome handOn
  rw [hbody, hstale]
  rfl

theorem endTrans_pass_missed {e : PassEntry} (hbody : x.body = .pass e) (hstale : x.stale = false) :
    endTrans x .missed s = returnPass e 1 [] (slotMissed x.slot (leaveTrans true s)) := by
  unfold endTrans heldOutcome handOn
  rw [hbody, hstale]
  rfl

theorem returnPass_raise (e : PassEntry) (r : Nat) (u : State) : returnPass e r [] u =
    raise .passReply (some e.slot) (some (pack 0 0 r e.tag)) { u with line.pass := u.line.pass.filter fun x => !x.inFlight } :=
  rfl

theorem contend_poll (hbody : x.body = .poll) (hstale : x.stale = false) : contend x s =
    modSlot x.slot (fun r => { r with contention := upto16 r.contention 1 }) (leaveTrans false s) := by
  unfold contend
  rw [hbody, hstale]
  rfl

theorem lineBreakSeen_reply (htrans : s.line.trans = some x) (hasm : s.line.assembling = false) : lineBreakSeen s =
    { s with line.assembling := true, line.trans := some { x with stage := .reply } } := by
  unfold lineBreakSeen
  simp only [htrans, hasm, Bool.false_eq_true, if_false]

theorem windowCloseSeen_window (htrans : s.line.trans = some x) (hstage : x.stage = .window) :
    windowCloseSeen s = endTrans x .missed s := by
  unfold windowCloseSeen
  simp only [htrans, hstage, if_true]

theorem windowCloseSeen_other (htrans : s.line.trans = some x) (hstage : x.stage ≠ .window) : windowCloseSeen s = s := by
  unfold windowCloseSeen
  simp only [htrans, hstage, if_false]

theorem sendingTrans_sending (htrans : s.line.trans = some x) (hstage : x.stage = .sending) : sendingTrans s = some x := by
  unfold sendingTrans
  simp only [htrans, hstage, if_true]

theorem sendingTrans_other (htrans : s.line.trans = some x) (hstage : x.stage ≠ .sending) : sendingTrans s = none := by
  unfold sendingTrans
  simp only [htrans, hstage, if_false]

theorem requestEnds_sending (htrans : s.line.trans = some x) (hstage : x.stage = .sending) :
    requestEnds s = { s with line.driver := false, line.trans := some { x with stage := .window } } := by
  unfold requestEnds
  simp only [htrans, hstage, if_true]

theorem contentionSeen_sending (htrans : s.line.trans = some x) (hstage : x.stage = .sending) (n : Nat) :
    contentionSeen n s = contend x (countNoisy n s) := by
  unfold contentionSeen
  rw [sendingTrans_sending htrans hstage]

theorem contentionSeen_other (htrans : s.line.trans = some x) (hstage : x.stage ≠ .sending) (n : Nat) :
    contentionSeen n s = s := by
  unfold contentionSeen
  rw [sendingTrans_other htrans hstage]

theorem requestSent_other (htrans : s.line.trans = some x) (hstage : x.stage ≠ .sending) (n : Nat) : requestSent n s = s := by
  unfold requestSent
  rw [sendingTrans_other htrans hstage]

theorem countNoisy_trans_kept (n : Nat) : (countNoisy n s).line.trans = s.line.trans :=
  countNoisy_alters n s .trans (by decide)

theorem requestSent_sending (htrans : s.line.trans = some x) (hstage : x.stage = .sending) (n : Nat) : requestSent n s =
    { countNoisy n s with line.driver := false, line.trans := some { x with stage := .window } } := by
  unfold requestSent
  rw [sendingTrans_sending htrans hstage]
  exact requestEnds_sending ((countNoisy_trans_kept n).trans htrans) hstage

end

end Sys2Proof.Machine
end

