-- ==== Sys2Proof/Proofs/LineOutcomes.lean ====
section
/-! O59: a transaction from its choice to its outcome, the rounds, and the end of the line-reset break (R128, R131, R132,
R134 to R136, R139, R140, R142, R145). -/

/- One lemma after another, to keep the memory of a compile small. -/
set_option Elab.async false

namespace Sys2Proof.Machine

/-! ### Steps that leave the line busy -/

/-- A step after which no transaction is due: the line stands as its effect leaves it. -/
theorem completes_line {c : Instr} {s u : State} {ps : List Part} {good : State → Prop}
    (hexec : exec c s = .next (finish u)) (hrun : s.phase = .run) (hu : Alters ps s u) (hp : .phase ∉ ps)
    (hbusy : u.line.idle = false ∨ u.line.trans.isSome = true) (hgood : ∀ t, t.line = u.line → Extends u t → good t) :
    Completes c s ps good := by
  have hphase := (hu .phase hp).trans hrun
  exact completes_ends hexec hrun hu hp fun _ => hgood _ (finish_line hphase hbusy) (extends_finish hphase)

section
variable {s u : State} {c : Instr}

theorem completes_missed {a : Nat} (hexec : exec c s = .next (finish u)) (hrun : s.phase = .run)
    (hu : Alters lineParts s u) (hmissed : MissedOne a s u) {good : State → Prop}
    (hgood : ∀ t, Extends u t → MissedOne a s t → good t) : Completes c s lineParts good := by
  have hphase : u.phase = .run := (hu .phase (by decide)).trans hrun
  refine completes_ends hexec hrun hu (by decide) fun hends => ?_
  have hext := extends_finish hphase
  exact hgood _ hext (hmissed.after (hends.frame .slots (by decide)) hext)

end

theorem leaveTrans_missedOne {x : Trans} {s : State} (hlen : s.line.slots.length = 8) (hlow : 1 ≤ x.slot) (hhigh : x.slot ≤ 8)
    (b : Bool) : MissedOne x.slot s (slotMissed x.slot (leaveTrans b s)) :=
  slotMissed_missedOne hlow hhigh hlen (leaveTrans_alters b s).mono (SlotHeard.of_slots rfl)

section
variable {x : Trans} {s : State} (hrun : s.phase = .run) (htrans : s.line.trans = some x) (n : Nat)
include hrun htrans

theorem endOfRequest_completes (hstage : x.stage = .sending) :
    Completes (.endOfRequest n) s [.receiver, .trans, .slots, .lineCounts] fun t =>
      t.line.trans = some { x with stage := .window } ∧ t.line.driver = false := by
  have hu : Alters heardParts s { countNoisy n s with line.driver := false, line.trans := some { x with stage := .window } } := by
    refine (countNoisy_alters n s).seq (qs := [.receiver, .trans]) ?_
    intro p hp; cases p <;> simp_all [Part.same]
  refine completes_line (next_finish (requestSent_sending htrans hstage n)) hrun hu (by decide) (.inr rfl) fun t hline _ => ?_
  rw [hline]
  exact ⟨rfl, rfl⟩

theorem lineBreak_begins_reply (hdriver : s.line.driver = false) (hasm : s.line.assembling = false) :
    Completes (.lineBreak n) s [.receiver, .trans, .slots, .lineCounts] fun t =>
      t.line.trans = some { x with stage := .reply } ∧ t.line.assembling = true := by
  have hnoisy := countNoisy_alters n s
  obtain ⟨hasm', -, -⟩ := hnoisy .receiver (by decide)
  have hseen := lineBreakSeen_reply ((countNoisy_trans_kept n).trans htrans) (hasm'.trans hasm)
  have hu : Alters heardParts s
      { countNoisy n s with line.assembling := true, line.trans := some { x with stage := .reply } } := by
    refine hnoisy.seq (qs := [.receiver, .trans]) ?_
    intro p hp; cases p <;> simp_all [Part.same]
  refine completes_line (next_finish ((whenListening_of_run hrun hdriver).trans hseen)) hrun hu (by decide) (.inr rfl)
    fun t hline _ => ?_
  rw [hline]
  exact ⟨rfl, rfl⟩

theorem stray_begins_reply (hdriver : s.line.driver = false) (hasm : s.line.assembling = false) (b : Byte) (bytes : List Byte) :
    Completes (.lineFrameComplete (clean (b :: bytes))) s [.trans, .slots, .lineCounts] fun t =>
      t.line.trans = some { x with stage := .reply } ∧ t.line.assembling = false := by
  have hnoisy := countNoisy_alters 0 s
  obtain ⟨hasm', -, -⟩ := hnoisy .receiver (by decide)
  have hseen := (lineFrameSeen_stray hasm b bytes).trans (lineLow_trans ((countNoisy_trans_kept 0).trans htrans))
  have hu : Alters [.trans, .slots, .lineCounts] s
      { countNoisy 0 s with line.trans := some { x with stage := .reply } } := hnoisy.seq (setTrans_alters _ _)
  refine completes_line (next_finish ((whenListening_of_run hrun hdriver).trans hseen)) hrun hu (by decide) (.inr rfl)
    fun t hline _ => ?_
  rw [hline]
  exact ⟨rfl, hasm'.trans hasm⟩

variable (hlen : s.line.slots.length = 8) (hlow : 1 ≤ x.slot) (hhigh : x.slot ≤ 8)
include hlen hlow hhigh

theorem contention_gives_up_poll (hstage : x.stage = .sending) (hbody : x.body = .poll) (hstale : x.stale = false) :
    Completes (.contention n) s [.receiver, .trans, .slots, .lineCounts] fun t => t.line.trans = none ∧
      t.line.driver = false ∧
      t.slot x.slot = { s.slot x.slot with noise := upto16 (s.slot x.slot).noise n,
                                           contention := upto16 (s.slot x.slot).contention 1 } := by
  have hseen := (contentionSeen_sending htrans hstage n).trans (contend_poll hbody hstale)
  have hu : Alters heardParts s (modSlot x.slot (fun r => { r with contention := upto16 r.contention 1 })
      (leaveTrans false (countNoisy n s))) :=
    ((countNoisy_alters n s).seq (rs := heardParts) (leaveTrans_alters _ _)).seq (modSlot_alters _ _ _)
  refine completes_line (next_finish hseen) hrun hu (by decide) (.inl rfl) fun t hline _ => ?_
  have hslot := slot_congr (congrArg Line.slots hline) x.slot
  have hlen' : (countNoisy n s).line.slots.length = 8 :=
    (slotHeard_countNoisy htrans hlow hhigh hlen n).length.trans hlen
  have hcontended := slot_modSlot (f := fun r => { r with contention := upto16 r.contention 1 })
    (s := leaveTrans false (countNoisy n s)) hlow hhigh hlen'
  have hnoised : (leaveTrans false (countNoisy n s)).slot x.slot = { s.slot x.slot with noise := upto16 (s.slot x.slot).noise n } := by
    show (countNoisy n s).slot x.slot = _
    rw [countNoisy_trans htrans]
    exact slot_modSlot (s := { s with line.noisy := upto16 s.line.noisy n }) hlow hhigh hlen
  rw [hslot, hcontended, hnoised, hline]
  exact ⟨rfl, rfl, rfl⟩

theorem window_misses_poll (hstage : x.stage = .window) (hbody : x.body = .poll) (hstale : x.stale = false) :
    Completes .replyWindowClose s lineParts (MissedOne x.slot s) := by
  have hseen := (windowCloseSeen_window htrans hstage).trans (endTrans_poll_missed hbody hstale)
  exact completes_missed (c := .replyWindowClose) (next_finish ((whenActive_of_run hrun).trans hseen)) hrun
    (((leaveTrans_alters true s).seq (rs := lineParts) (slotMissed_alters x.slot _)))
    (leaveTrans_missedOne hlen hlow hhigh true) fun _ _ h => h

theorem window_misses_pass {e : PassEntry} (hstage : x.stage = .window) (hbody : x.body = .pass e) (hstale : x.stale = false) :
    Completes .replyWindowClose s lineParts fun t => MissedOne x.slot s t ∧
      Raises s t .passReply (some e.slot) (some (pack 0 0 1 e.tag)) := by
  have hseen := (windowCloseSeen_window htrans hstage).trans (endTrans_pass_missed hbody hstale)
  have hmissed := leaveTrans_missedOne hlen hlow hhigh true
  have hreturn := returnPass_alters e 1 [] (slotMissed x.slot (leaveTrans true s))
  have hslot := (leaveTrans_alters true s).seq (rs := lineParts) (slotMissed_alters x.slot _)
  refine completes_missed (c := .replyWindowClose) (next_finish ((whenActive_of_run hrun).trans hseen)) hrun (hslot.seq hreturn)
    (hmissed.after (hreturn .slots (by decide)) (extends_growth.returnPass _ _ _ _)) fun t hext h => ⟨h, ?_⟩
  rw [returnPass_raise] at hext
  refine raises_of (fun hroom => ?_) ?_ hext
  · exact Nat.lt_of_le_of_lt (slotMissed_length_le x.slot (leaveTrans true s)) (by show s.events.queue.length + 2 < 32; omega)
  · exact hslot .seconds (by decide)

/-- A discarded frame of a poll's reply is a miss (R136, R142). -/
theorem discard_misses_poll (hdriver : s.line.driver = false) (hbody : x.body = .poll) (hstale : x.stale = false)
    {c : Instr} {g h : State → State} (hcount : ∀ u, Alters [.lineCounts] u (g u))
    (hexec : exec c s = .next (finish (whenListening (fun s => h (countNoisy n s)) s)))
    (hseen : h (countNoisy n s) = discardFrame (g (countNoisy n s))) :
    Completes c s lineParts fun t => MissedOne x.slot s t ∧ t.line.trans = none := by
  let u : State := { g (countNoisy n s) with line.assembling := false }
  have hheard := slotHeard_countNoisy htrans hlow hhigh hlen n
  have hcounted := hcount (countNoisy n s)
  have htrans' : (g (countNoisy n s)).line.trans = some x :=
    (hcounted .trans (by decide)).trans ((countNoisy_trans_kept n).trans htrans)
  have hslots : (leaveTrans false u).line.slots = (countNoisy n s).line.slots := hcounted .slots (by decide)
  have hsets : Alters [.receiver] (g (countNoisy n s)) u := by
    intro p hp; cases p <;> simp_all [Part.same, u]
  have hu : Alters heardParts s (leaveTrans false u) :=
    (((countNoisy_alters n s).seq (rs := heardParts) hcounted).seq (rs := heardParts) hsets).seq (leaveTrans_alters _ _)
  have hmissed := slotMissed_missedOne hlow hhigh hlen hu (hheard.trans (SlotHeard.of_slots hslots))
  have hdone : h (countNoisy n s) = slotMissed x.slot (leaveTrans false u) := by
    rw [hseen, discardFrame_trans htrans', endTrans_poll_bad hbody hstale]
  have hslot := slotMissed_alters x.slot (leaveTrans false u)
  obtain ⟨-, hidle, -⟩ := hslot .receiver (by decide)
  have htrans'' : (slotMissed x.slot (leaveTrans false u)).line.trans = none := hslot .trans (by decide)
  refine completes_line (hexec.trans (next_finish ((whenListening_of_run hrun hdriver).trans hdone))) hrun
    (hu.seq (rs := lineParts) hslot) (by decide) (.inl hidle) fun t hline hext => ⟨?_, ?_⟩
  · exact hmissed.after (congrArg Line.slots hline) hext
  · rw [hline]
    exact htrans''

end

/-! ### The choice of an idle line (R139) -/

section
variable {s : State} (hrun : s.phase = .run) (htrans : s.line.trans = none) (hasm : s.line.assembling = false)
include hrun htrans hasm

theorem lineIdle_sends_cmd {e : Cmd} {rest : List Cmd} (hqueue : s.line.queue = e :: rest)
    (hpresent : s.slotPresent e.slot = true) : Completes .lineIdle s [] fun t =>
      ∃ x, t.line.trans = some x ∧ x.slot = e.slot ∧ x.body = .cmd e.body ∧ x.stage = .sending ∧ t.line.driver = true := by
  refine lineIdle_completes hrun htrans hasm fun u hline _ => ?_
  have hslot : u.slot e.slot = s.slot e.slot := slot_congr (by rw [hline]) _
  rw [chooseNext_cmd (by rw [hline]; exact hqueue) (by unfold State.slotPresent; rw [hslot]; exact hpresent)]
  exact ⟨_, rfl, rfl, rfl, rfl, rfl⟩

theorem lineIdle_sends_pass {e : PassEntry} {rest : List PassEntry} (hqueue : s.line.queue = [])
    (hpass : s.line.pass = e :: rest) : Completes .lineIdle s [] fun t =>
      ∃ x, t.line.trans = some x ∧ x.slot = e.slot ∧ x.body = .pass e ∧ x.stage = .sending ∧
        x.frame = lineFrame e.slot e.kind e.payload := by
  refine lineIdle_completes hrun htrans hasm fun u hline _ => ?_
  rw [chooseNext_empty (by rw [hline]; exact hqueue), choose_pass (by rw [hline]; exact hpass)]
  exact ⟨_, rfl, rfl, rfl, rfl, rfl⟩

theorem lineIdle_sends_poll {a : Nat} {rest : List Nat} (hqueue : s.line.queue = []) (hpass : s.line.pass = [])
    (hlist : s.line.list = a :: rest) : Completes .lineIdle s [] fun t =>
      ∃ x, t.line.trans = some x ∧ x.slot = a ∧ x.body = .poll ∧ x.stage = .sending ∧
        x.frame = lineFrame a 0x01 (flag (s.slot a).pollFlag) ∧ (s.line.roundPending = false → t.line.list = rest) := by
  refine lineIdle_completes hrun htrans hasm fun u hline _ => ?_
  have hslot : (roundIfDue { u with line.list := rest }).slot a = s.slot a :=
    slot_congr ((roundIfDue_alters _ .slots (by decide)).trans (by rw [hline])) _
  rw [chooseNext_empty (by rw [hline]; exact hqueue), choose_poll (by rw [hline]; exact hpass) (by rw [hline]; exact hlist)]
  refine ⟨_, rfl, rfl, rfl, rfl, ?_, fun hpending => ?_⟩
  · show lineFrame a 0x01 (flag ((roundIfDue { u with line.list := rest }).slot a).pollFlag) = _
    rw [hslot]
  · have hsame : roundIfDue { u with line.list := rest } = { u with line.list := rest } := by
      refine if_neg ?_
      simp [hline, hpending]
    rw [hsame]
    rfl

end

/-! ### The end of the line-reset break (R128, R134) -/

/-- The state of a completed start before its masks, with START as its only event. -/
def startedUp (c : Cause) (s : State) : State :=
  raise .start none (val c.code) { s with
    phase := .run, line.driver := false, line.idle := true
    events := { s.events with queue := [], dropped := 0, lastBatch := [], lastDropped := 0 } }

theorem resetBreakEnds_lineReset {c : Cause} {s : State} (hphase : s.phase = .lineReset c) (hwait : s.link.waiting = none) :
    resetBreakEnds s = beginRound (recomputeMasks (setSale (startedUp c s))) := by
  have hframe := (recomputeMasks_alters (setSale (startedUp c s))).seq (rs := .ring :: maskParts) (beginRound_alters _)
  have hwait' : (beginRound (recomputeMasks (setSale (startedUp c s)))).link.waiting = none :=
    (hframe .staging (by decide)).1.trans hwait
  have hstart : resetBreakEnds s = takeRequest (beginRound (recomputeMasks (setSale (startedUp c s)))) := by
    unfold resetBreakEnds
    rw [hphase]
    rfl
  rw [hstart]
  unfold takeRequest
  rw [hwait']

theorem resetBreakEnds_run {s : State} (hrun : s.phase = .run) : resetBreakEnds s = s := by
  unfold resetBreakEnds
  rw [hrun]

theorem lineResetBreakEnd_starts {c : Cause} {s : State} (hphase : s.phase = .lineReset c) (hwait : s.link.waiting = none) :
    ∃ t, exec .lineResetBreakEnd s = .next t ∧ t.phase = .run ∧ t.line.round = s.line.round + 1 ∧
      t.credit.sale = saleOf t ∧ t.events = { queue := [eventAt s.seconds .start none (val c.code)], dropped := 0,
                                              lastBatch := [], lastDropped := 0 } := by
  let v : State := recomputeMasks (setSale (startedUp c s))
  have hmasks : Alters maskParts (setSale (startedUp c s)) v := recomputeMasks_alters _
  have hrun : (beginRound v).phase = .run := hmasks .phase (by decide)
  have hfinish := finish_alters (beginRound v) hrun
  obtain ⟨hround, -, -⟩ := hmasks .ring (by decide)
  have hround' : (finish (beginRound v)).line.round = s.line.round + 1 := by
    rw [finish_round hrun rfl]
    exact congrArg (· + 1) hround
  have hevents : (finish (beginRound v)).events = (startedUp c s).events :=
    (hfinish .events (by decide)).trans (hmasks .events (by decide))
  refine ⟨_, next_finish (resetBreakEnds_lineReset hphase hwait), (hfinish .phase (by decide)).trans hrun, hround',
    finish_sale hrun, hevents⟩

/-! ### The obligation -/

theorem driving_hears_nothing {s : State} (n : Nat) (hdriver : s.line.driver = true) (frame : List RxChar) :
    exec (.lineBreak n) s = .next (finish s) ∧ exec (.lineFramingError n) s = .next (finish s) ∧
    exec (.lineTruncatedFrame n) s = .next (finish s) ∧ exec (.lineBadLengthOrAddress n) s = .next (finish s) ∧
    exec (.lineFrameComplete frame) s = .next (finish s) :=
  ⟨next_finish (whenListening_driving hdriver), next_finish (whenListening_driving hdriver),
    next_finish (whenListening_driving hdriver), next_finish (whenListening_driving hdriver),
    next_finish (whenListening_driving hdriver)⟩

section
variable {s : State} (hrun : s.phase = .run)
include hrun

theorem roundStart_begins (hlist : s.line.list = []) : ∃ l : List Nat,
    exec .roundStart s = .next (finish { s with line.round := s.line.round + 1, line.list := l,
                                                line.roundPending := false }) ∧
    l.Pairwise (· < ·) ∧ ∀ a, a ∈ l ↔ 1 ≤ a ∧ a ≤ 8 ∧ s.tables.slotKind a ≠ .unused ∧
      ((s.slot a).state = .absent → s.line.round + 1 = 0) ∧
      ((s.slot a).state ≠ .absent → s.tables.slotKind a = .other → s.lock.economy = true →
        (s.line.round + 1).toNat % 4 = 0) := by
  refine ⟨addresses.filter (inRound s (s.line.round + 1).toNat),
    next_finish ((whenRunning_of_run hrun).trans (roundDue_begins hlist)), ?_, fun a => ?_⟩
  · exact List.Pairwise.filter _ (by decide)
  · have hzero : (s.line.round + 1).toNat = 0 ↔ s.line.round + 1 = 0 :=
      ⟨fun h => BitVec.eq_of_toNat_eq h, fun h => by rw [h]; rfl⟩
    rw [List.mem_filter, mem_addresses, inRound_iff, hzero, and_assoc]

end

/-- Settles O59. -/
theorem lineTransactionsRunToTheirOutcome : Obligations.LineTransactionsRunToTheirOutcome := by
  refine ⟨fun n s hrun hlen => ⟨fun hdriver frame => driving_hears_nothing n hdriver frame, fun hdriver htrans =>
      ⟨?_, ?_, fun hasm hn b bytes => ?_, fun hasm => ⟨?_, ?_, fun a k p hlow hhigh hk hp hn => ?_⟩⟩,
    fun htrans hasm => ⟨fun e rest hqueue hpresent => lineIdle_sends_cmd hrun htrans hasm hqueue hpresent,
      fun e rest hqueue hpass => lineIdle_sends_pass hrun htrans hasm hqueue hpass,
      fun a rest hqueue hpass hlist => lineIdle_sends_poll hrun htrans hasm hqueue hpass hlist⟩,
    fun hbusy => lineIdle_busy hrun hbusy, fun hlist => next_finish ((whenRunning_of_run hrun).trans (roundDue_waits hlist)),
    fun hlist => roundStart_begins hrun hlist, fun x htrans hlow hhigh =>
      ⟨fun hstage => endOfRequest_completes hrun htrans n hstage,
        fun hstage => ⟨next_finish (requestSent_other htrans hstage n), next_finish (contentionSeen_other htrans hstage n)⟩,
        fun hstage => next_finish ((whenActive_of_run hrun).trans (windowCloseSeen_other htrans hstage)),
        fun hstage hdriver hasm => lineBreak_begins_reply hrun htrans n hdriver hasm,
        fun hstage hdriver hasm b bytes => stray_begins_reply hrun htrans hdriver hasm b bytes,
        fun hstage hbody hstale => contention_gives_up_poll hrun htrans n hlen hlow hhigh hstage hbody hstale,
        fun hstale hbody => ⟨fun hstage => window_misses_poll hrun htrans hlen hlow hhigh hstage hbody hstale,
          fun hstage hdriver hasm c hc => ?_⟩,
        fun e hstale hbody hstage => window_misses_pass hrun htrans hlen hlow hhigh hstage hbody hstale⟩⟩,
    fun c s => ⟨fun hphase hwait => lineResetBreakEnd_starts hphase hwait, fun hrun => next_finish (resetBreakEnds_run hrun)⟩⟩
  · have hseen := lineBreakSeen_free (s := { s with line.noisy := upto16 s.line.noisy n }) htrans
    exact next_finish ((whenListening_of_run hrun hdriver).trans ((congrArg lineBreakSeen (countNoisy_free htrans)).trans hseen))
  · have hseen := lineFramingSeen_free (s := { s with line.noisy := upto16 s.line.noisy n }) htrans
    exact next_finish ((whenListening_of_run hrun hdriver).trans ((congrArg lineFramingSeen (countNoisy_free htrans)).trans hseen))
  · have hseen := lineFrameSeen_stray hasm b bytes
    rw [countNoisy_zero htrans hn, lineLow_free htrans] at hseen
    exact next_finish ((whenListening_of_run hrun hdriver).trans hseen)
  · have hseen := (lineTruncatedSeen_frame (s := { s with line.noisy := upto16 s.line.noisy n }) hasm).trans
      (discardFrame_free htrans)
    exact next_finish ((whenListening_of_run hrun hdriver).trans ((congrArg lineTruncatedSeen (countNoisy_free htrans)).trans hseen))
  · have hseen := (lineBadHeaderSeen_frame (s := { s with line.noisy := upto16 s.line.noisy n }) hasm).trans
      (discardFrame_free htrans)
    exact next_finish ((whenListening_of_run hrun hdriver).trans ((congrArg lineBadHeaderSeen (countNoisy_free htrans)).trans hseen))
  · exact next_finish ((whenListening_of_run hrun hdriver).trans (lineFrameSeen_unasked hasm htrans hn hlow hhigh hk hp))
  · have hasm' : (countNoisy n s).line.assembling = true := (countNoisy_alters n s .receiver (by decide)).1.trans hasm
    simp only [List.mem_cons, List.not_mem_nil, or_false] at hc
    rcases hc with rfl | rfl | rfl
    · exact discard_misses_poll (g := countFraming) (h := lineFramingSeen) hrun htrans n hlen hlow hhigh hdriver hbody hstale
        countFraming_alters rfl (lineFramingSeen_frame hasm')
    · exact discard_misses_poll (g := countTruncated) (h := lineTruncatedSeen) hrun htrans n hlen hlow hhigh hdriver hbody hstale
        countTruncated_alters rfl (lineTruncatedSeen_frame hasm')
    · exact discard_misses_poll (g := countCrc) (h := lineBadHeaderSeen) hrun htrans n hlen hlow hhigh hdriver hbody hstale
        countCrc_alters rfl (lineBadHeaderSeen_frame hasm')

end Sys2Proof.Machine
end

