-- ==== Sys2Proof/Proofs/PollReplies.lean ====
section
/-! A poll's clean reply up to its reports, and what a report of money does (R14, R17 to R22, R32 to R34, R137, R142, R150). -/

/- One lemma after another, to keep the memory of a compile small. -/
set_option Elab.async false

namespace Sys2Proof.Machine

/-! ### Money credited (R14, R22) -/

/-- The state of credited money before the sale state, the payout test and the masks follow. -/
def credited (first : EventKind) (subject v : Nat) (s : State) : State :=
  let t := raise first (some subject) (val v)
    { s with credit.credit := s.credit.credit + min v s.headroom, audit.cashIn := addTotal s.audit.cashIn v }
  if v ≤ s.headroom then t
  else raise .overpay (some subject) (val (returnFits s.credit.returnDue (v - s.headroom))) (addReturnDue (v - s.headroom) t)

theorem creditMoney_eq (first : EventKind) (subject v : Nat) (s : State) :
    creditMoney first subject v s = recomputeMasks (payoutTest (setSale (credited first subject v s))) := rfl

/-- What credited money adds to: the credit up to the headroom, the rest owed, the whole counted as taken in (R14). -/
def CreditedBy (v : Nat) (s t : State) : Prop :=
  t.credit.credit = s.credit.credit + min v s.headroom ∧ t.credit.vendHold = s.credit.vendHold ∧
  t.credit.escrowReserve = s.credit.escrowReserve ∧ t.audit.cashIn = addTotal s.audit.cashIn v ∧
  (v ≤ s.headroom → t.credit.returnDue = s.credit.returnDue ∧ t.audit.writtenOff = s.audit.writtenOff) ∧
  (s.headroom < v → s.credit.returnDue ≤ 65535 →
    t.credit.returnDue = min 65535 (s.credit.returnDue + (v - s.headroom)))

theorem CreditedBy.after {v : Nat} {s t u : State} (h : CreditedBy v s t) (hamounts : Part.amounts.same t u)
    (haudit : u.audit = t.audit) : CreditedBy v s u := by
  obtain ⟨hcredit, hhold, hreserve, hdue⟩ := hamounts
  obtain ⟨hc, hh, hr, hin, hfits, hover⟩ := h
  refine ⟨hcredit.trans hc, hhold.trans hh, hreserve.trans hr, by rw [haudit]; exact hin, fun hv => ?_, fun hv hd => ?_⟩
  · rw [hdue, haudit]
    exact hfits hv
  · rw [hdue]
    exact hover hv hd

theorem CreditedBy.before {v : Nat} {s t u : State} (h : CreditedBy v t u) (hamounts : Part.amounts.same s t)
    (haudit : t.audit = s.audit) (htables : t.tables = s.tables) : CreditedBy v s u := by
  obtain ⟨hcredit, hhold, hreserve, hdue⟩ := hamounts
  have hroom : t.headroom = s.headroom := headroom_congr htables hcredit hhold hreserve
  unfold CreditedBy at h ⊢
  rwa [hroom, hcredit, hhold, hreserve, hdue, haudit] at h

theorem credited_creditedBy (first : EventKind) (subject v : Nat) (s : State) : CreditedBy v s (credited first subject v s) := by
  unfold credited
  dsimp only
  split
  next hle => exact ⟨rfl, rfl, rfl, rfl, fun _ => ⟨rfl, rfl⟩, fun hlt => absurd hlt (Nat.not_lt.2 hle)⟩
  next hlt =>
    rw [CreditedBy, raise_credit, raise_audit, addReturnDue_credit]
    refine ⟨rfl, rfl, rfl, ?_, fun hle => absurd hle hlt, fun _ hdue => (returnFits_eq hdue).1⟩
    rw [addReturnDue_audit]
    split <;> rfl

theorem creditMoney_creditedBy (first : EventKind) (subject v : Nat) (s : State) :
    CreditedBy v s (creditMoney first subject v s) := by
  have hafter := ((setSale_alters (credited first subject v s)).seq (rs := [.sale, .payout, .grants]) (payoutTest_alters _)).seq
    (rs := .sale :: .payout :: .grants :: maskParts) (recomputeMasks_alters _)
  exact (credited_creditedBy first subject v s).after (hafter .amounts (by decide)) (hafter .audit (by decide))

theorem creditMoney_raises (first : EventKind) (subject v : Nat) (s : State) :
    Extends (raise first (some subject) (val v)
      { s with credit.credit := s.credit.credit + min v s.headroom, audit.cashIn := addTotal s.audit.cashIn v })
      (creditMoney first subject v s) := by
  rw [creditMoney_eq]
  refine Extends.trans ?_ (((extends_growth.setSale _).trans (extends_growth.payoutTest _)).trans (extends_growth.recomputeMasks _))
  unfold credited
  dsimp only
  split
  · exact .rfl
  · exact (extends_growth.addReturnDue _ _).trans (extends_growth.raise _ _ _ _)

theorem creditMoney_raisesFirst (first : EventKind) (subject v : Nat) (s : State) :
    RaisesFirst s (creditMoney first subject v s) first (some subject) (val v) :=
  raisesFirst_of rfl rfl (creditMoney_raises first subject v s)

/-! ### A clean reply to a poll (R137, R142, R150) -/

/-- The line as a poll's reply leaves it, before the slot's record takes the outcome. -/
def heard (s : State) : State := leaveTrans false (countNoisy 0 s)

theorem heard_alters (s : State) : Alters heardParts s (heard s) :=
  (countNoisy_alters 0 s).seq (leaveTrans_alters _ _)

/-- The poll flag of a slot turns over (R150). -/
def flipFlag (a : Nat) (s : State) : State := modSlot a (fun r => { r with pollFlag := !r.pollFlag }) s

/-- A transaction of a poll whose reply is being received (R136, R137). -/
structure Polled (x : Trans) (s : State) : Prop where
  run : s.phase = .run
  slots : s.line.slots.length = 8
  trans : s.line.trans = some x
  body : x.body = .poll
  fresh : x.stale = false
  silent : s.line.driver = false
  assembling : s.line.assembling = true
  low : 1 ≤ x.slot
  high : x.slot ≤ 8

/-- The slot's record after the reply, its poll flag turned over (R142, R150). -/
def Taken (a : Nat) (s t : State) : Prop :=
  (t.slot a).state = .present ∧ (t.slot a).missed = 0 ∧ (t.slot a).pollFlag = (!(s.slot a).pollFlag) ∧ t.line.trans = none

/-- The slot's record takes a reply (R142). -/
def present (a : Nat) (s : State) : State := modSlot a (fun r => { r with missed := 0, state := .present }) (heard s)

theorem present_alters (a : Nat) (s : State) : Alters heardParts s (present a s) :=
  (heard_alters s).seq (modSlot_alters _ _ _)

section
variable {x : Trans} {s : State}

theorem endTrans_poll_replied (hbody : x.body = .poll) (hstale : x.stale = false) {p : List Byte}
    (hgood : goodPoll (s.tables.slotKind x.slot) p = true) :
    endTrans x (.replied p) s = flipFlag x.slot (readPoll x.slot p (slotReplied x.slot (leaveTrans false s))) := by
  have hheld : heldOutcome x (.replied p) s = .replied p := by
    unfold heldOutcome
    rw [hbody]
    exact if_pos (by rw [hgood, Bool.or_true])
  unfold endTrans handOn flipFlag
  rw [hheld, hbody, hstale]
  rfl

variable (h : Polled x s)
include h

theorem poll_reply {p : List Nat} (hp : p.length ≤ 16) (heven : p.length % 2 = 0) :
    exec (.lineFrameComplete (clean (lineFrame x.slot 0x81 (p.flatMap char)))) s = .next (finish (flipFlag x.slot
      (readPoll x.slot (p.flatMap char) (slotReplied x.slot (heard s))))) := by
  have hlength := length_flatMap_char p
  have hread := readFrame_lineFrame (k := 0x81) (p := p.flatMap char) h.low h.high (by decide) (by omega)
  have htrans' : (countNoisy 0 s).line.trans = some x := (countNoisy_trans_kept 0).trans h.trans
  have hkind : (0x81 : Nat) = x.body.kind + 0x80 := by rw [h.body]; rfl
  have hgood : goodPoll ((countNoisy 0 s).tables.slotKind x.slot) (p.flatMap char) = true := by
    unfold goodPoll
    split <;> simp [hlength, hp, heven]
  have hseen : lineFrameSeen (clean (lineFrame x.slot 0x81 (p.flatMap char))) s =
      endTrans x (.replied (p.flatMap char)) (countNoisy 0 s) := by
    unfold lineFrameSeen
    rw [h.assembling, if_pos rfl, hread, noisyCount_clean]
    simp only [htrans', if_true]
    rw [if_pos ⟨trivial, hkind⟩]
  exact next_finish ((whenListening_of_run h.run h.silent).trans
    (hseen.trans (endTrans_poll_replied h.body h.fresh hgood)))

theorem heard_slots : (heard s).line.slots.length = 8 ∧ (heard s).slot x.slot =
    { s.slot x.slot with noise := upto16 (s.slot x.slot).noise 0 } := by
  have hnoisy : (countNoisy 0 s).slot x.slot = { s.slot x.slot with noise := upto16 (s.slot x.slot).noise 0 } := by
    rw [countNoisy_trans h.trans]
    exact slot_modSlot (s := { s with line.noisy := upto16 s.line.noisy 0 }) h.low h.high h.slots
  exact ⟨(slotHeard_countNoisy h.trans h.low h.high h.slots 0).length.trans h.slots, hnoisy⟩

theorem slotReplied_present (hpresent : (s.slot x.slot).state = .present) :
    slotReplied x.slot (heard s) = present x.slot s := by
  obtain ⟨-, hslot⟩ := heard_slots h
  exact if_pos (by rw [hslot]; exact hpresent)

theorem slotReplied_found (habsent : (s.slot x.slot).state ≠ .present) : slotReplied x.slot (heard s) =
    tellPresent x.slot (raise .peripheralFound (some x.slot) (val (s.tables.slotKind x.slot).code) (present x.slot s)) := by
  obtain ⟨-, hslot⟩ := heard_slots h
  have htables : (heard s).tables = s.tables := heard_alters s .tables (by decide)
  have hfound : slotReplied x.slot (heard s) = tellPresent x.slot
      (raise .peripheralFound (some x.slot) (val ((heard s).tables.slotKind x.slot).code) (present x.slot s)) :=
    if_neg (by rw [hslot]; exact habsent)
  rw [hfound, htables]

theorem slotReplied_line : (slotReplied x.slot (heard s)).line.slots = (present x.slot s).line.slots ∧
    (slotReplied x.slot (heard s)).line.trans = none ∧ (slotReplied x.slot (heard s)).line.idle = false := by
  by_cases hpresent : (s.slot x.slot).state = .present
  · rw [slotReplied_present h hpresent]
    exact ⟨rfl, rfl, rfl⟩
  · have htold := tellPresent_alters x.slot
      (raise .peripheralFound (some x.slot) (val (s.tables.slotKind x.slot).code) (present x.slot s))
    obtain ⟨-, hidle, -⟩ := htold .receiver (by decide)
    rw [slotReplied_found h hpresent]
    exact ⟨htold .slots (by decide), htold .trans (by decide), hidle⟩

theorem taken_flipFlag {r : State} (hslots : r.line.slots = (slotReplied x.slot (heard s)).line.slots)
    (htrans : r.line.trans = (slotReplied x.slot (heard s)).line.trans) : Taken x.slot s (flipFlag x.slot r) := by
  obtain ⟨hline, hnone, -⟩ := slotReplied_line h
  obtain ⟨hlen, hslot⟩ := heard_slots h
  have hlen' : r.line.slots.length = 8 := by
    rw [hslots, hline]
    exact modSlot_slots_length.trans hlen
  have hself : r.slot x.slot = { (heard s).slot x.slot with missed := 0, state := .present } := by
    rw [slot_congr (hslots.trans hline)]
    exact slot_modSlot h.low h.high hlen
  have hflip : (flipFlag x.slot r).slot x.slot = { r.slot x.slot with pollFlag := !(r.slot x.slot).pollFlag } :=
    slot_modSlot h.low h.high hlen'
  rw [Taken, hflip, hself, hslot]
  exact ⟨rfl, rfl, rfl, htrans.trans hnone⟩

/-- What the end of the step may change beside the slot's poll flag. -/
def pollEndParts : List Part := [.slots, .sale, .payout, .grants, .column, .probing]

/-- A clean reply is taken by the slot's record, and its reports are read. -/
theorem poll_completes {p : List Nat} (hp : p.length ≤ 16) (heven : p.length % 2 = 0) {ps qs : List Part}
    {good : State → Prop} (hread : Alters ps (slotReplied x.slot (heard s))
      (readPoll x.slot (p.flatMap char) (slotReplied x.slot (heard s))))
    (hquiet : Apart [.slots, .trans, .receiver] ps)
    (hframe : Alters qs s (readPoll x.slot (p.flatMap char) (slotReplied x.slot (heard s))))
    (hslot : .slots ∈ qs) (hphase : .phase ∉ qs)
    (hgood : ∀ t, Alters pollEndParts (readPoll x.slot (p.flatMap char) (slotReplied x.slot (heard s))) t → good t) :
    Completes (.lineFrameComplete (clean (lineFrame x.slot 0x81 (p.flatMap char)))) s qs fun t =>
      Taken x.slot s t ∧ good t := by
  generalize hr : readPoll x.slot (p.flatMap char) (slotReplied x.slot (heard s)) = r at *
  have hflip : Alters [.slots] r (flipFlag x.slot r) := modSlot_alters _ _ r
  obtain ⟨-, hidle, -⟩ := hread .receiver (hquiet _ (by decide))
  obtain ⟨-, -, hbusy⟩ := slotReplied_line h
  have htaken := taken_flipFlag h (hread .slots (hquiet _ (by decide))) (hread .trans (hquiet _ (by decide)))
  have hrun : (flipFlag x.slot r).phase = .run := (hframe .phase hphase).trans h.run
  have hfinish : finish (flipFlag x.slot r) = rested (flipFlag x.slot r) := by
    rw [finish_choose hrun, lineChoose_busy (by rw [rested_line]; exact .inl (hidle.trans hbusy))]
  have hrest := rested_alters (flipFlag x.slot r)
  have hreply := poll_reply h hp heven
  rw [hr] at hreply
  refine ⟨_, hreply, (hframe.trans (hflip.mono (by simpa using hslot))).seq (finish_alters _ hrun)
    (by simp +contextual) (by simp +contextual), ?_, hgood _ ?_⟩
  · obtain ⟨hstate, hmissed, hflag, htrans⟩ := htaken
    have hline := rested_line (flipFlag x.slot r)
    rw [hfinish, Taken, slot_congr (congrArg Line.slots hline), hline]
    exact ⟨hstate, hmissed, hflag, htrans⟩
  · rw [hfinish]
    exact hflip.seq hrest

end

end Sys2Proof.Machine
end

