-- ==== Sys2Proof/Proofs/PollMoney.lean ====
section
/-! O60: the reports of coins, notes and the lever in a poll's reply, an escrow that expires, and the seconds counter
(R13, R14, R17 to R22, R32 to R34, R148, R182, R185). -/

/- One lemma after another, to keep the memory of a compile small. -/
set_option Elab.async false

namespace Sys2Proof.Machine

/-! ### The reports by their codes (R148, R149) -/

theorem num_bitVec {n : Nat} (h : n < 256) : num (BitVec.ofNat 8 n) = n := num_ofNat h

section
variable {a c n : Nat} {v : State} (hc : c < 256) (hn : n < 256)
include hc hn

theorem readPoll_validator (hkind : v.tables.slotKind a = .coinValidator) :
    readPoll a ([c, n].flatMap char) v = validatorPair a c n v := by
  unfold readPoll
  rw [hkind]
  show validatorPair a (num (BitVec.ofNat 8 c)) (num (BitVec.ofNat 8 n)) v = _
  rw [num_ofNat hc, num_ofNat hn]

theorem readPoll_reader (hkind : v.tables.slotKind a = .noteReader) :
    readPoll a ([c, n].flatMap char) v = readerPair a c n v := by
  unfold readPoll
  rw [hkind]
  show readerPair a (num (BitVec.ofNat 8 c)) (num (BitVec.ofNat 8 n)) v = _
  rw [num_ofNat hc, num_ofNat hn]

end

theorem readPoll_nil (a : Nat) (v : State) : readPoll a [] v = v := by
  unfold readPoll
  split <;> rfl

section
variable {a k n : Nat} (v : State)

theorem validatorPair_tube (hk : k ≤ 15) : validatorPair a 0x01 k v = endEconomy .report (coinTube k v) :=
  if_pos ⟨rfl, hk⟩

theorem validatorPair_box (hk : k ≤ 15) : validatorPair a 0x02 k v = endEconomy .report (takeCoin k v) :=
  (if_neg (by simp)).trans (if_pos ⟨rfl, hk⟩)

theorem validatorPair_lever : validatorPair a 0x04 0 v = returnLever v := rfl

theorem readerPair_escrow (hn : n ≤ 7) : readerPair a 0x11 n v = endEconomy .report (noteEscrow n v) :=
  if_pos ⟨rfl, hn⟩

theorem readerPair_stacked (hn : n ≤ 7) : readerPair a 0x12 n v = noteStacked n v :=
  (if_neg (by simp)).trans (if_pos ⟨rfl, hn⟩)

theorem readerPair_returned (hn : n ≤ 7) : readerPair a 0x13 n v = noteReturned n v :=
  (if_neg (by simp)).trans ((if_neg (by simp)).trans (if_pos ⟨rfl, hn⟩))

end

/-- What a report of money may change. -/
def moneyReport : List Part := .tubes :: .exact :: .escrow :: .pendingReturn :: .economy :: moneyParts

section
variable {x : Trans} {s : State}

/-- A report to a PRESENT slot's peripheral: its effect on the state the reply leaves. -/
theorem report_completes (h : Polled x s) (hpresent : (s.slot x.slot).state = .present) {c n : Nat} {r : State}
    (hread : readPoll x.slot ([c, n].flatMap char) (present x.slot s) = r) (hr : Alters moneyReport (present x.slot s) r)
    {good : State → Prop} (hgood : ∀ t, Alters pollEndParts r t → good t) :
    Completes (.lineFrameComplete (clean (lineFrame x.slot 0x81 ([c, n].flatMap char)))) s lineParts fun t =>
      Taken x.slot s t ∧ good t := by
  have hslot := slotReplied_present h hpresent
  have hframe := (present_alters x.slot s).seq (rs := lineParts) hr
  refine poll_completes h (by simp) (by simp) (ps := moneyReport) ?_ ((apart_iff _ _).1 rfl) ?_ (by decide) (by decide) ?_
  · rwa [hslot, hread]
  · rwa [hslot, hread]
  · rwa [hslot, hread]

theorem endEconomy_raises {c : ModeEnd} {u t : State} (hext : Extends (endEconomy c u) t) : Extends u t :=
  (extends_growth.endEconomy c u).trans hext

theorem extends_pollEnd {r t : State} (h : Alters pollEndParts r t) : Extends r t :=
  extends_of_same (h .events (by decide)) (h .seconds (by decide))

/-! ### The reply alone (R142) -/

theorem reply_present (h : Polled x s) (hpresent : (s.slot x.slot).state = .present) :
    Completes (.lineFrameComplete (clean (lineFrame x.slot 0x81 (([] : List Nat).flatMap char)))) s
      [.receiver, .trans, .slots, .lineCounts] (Taken x.slot s) := by
  have hslot := slotReplied_present h hpresent
  obtain ⟨t, hexec, hframe, htaken, -⟩ := poll_completes h (p := []) (by simp) rfl (ps := []) (qs := heardParts)
    (good := fun _ => True) (by rw [List.flatMap_nil, readPoll_nil]; exact .refl _ _) ((apart_iff _ _).1 rfl)
    (by rw [List.flatMap_nil, readPoll_nil, hslot]; exact present_alters x.slot s) (by decide) (by decide) fun _ _ => trivial
  exact ⟨t, hexec, hframe, htaken⟩

theorem reply_found (h : Polled x s) (habsent : (s.slot x.slot).state ≠ .present) :
    Completes (.lineFrameComplete (clean (lineFrame x.slot 0x81 (([] : List Nat).flatMap char)))) s lineParts fun t =>
      Taken x.slot s t ∧
        RaisesFirst s t .peripheralFound (some x.slot) (val (s.tables.slotKind x.slot).code) := by
  have hslot := slotReplied_found h habsent
  have hpresent := present_alters x.slot s
  have htold := tellPresent_alters x.slot
    (raise .peripheralFound (some x.slot) (val (s.tables.slotKind x.slot).code) (present x.slot s))
  have hframe := (hpresent.seq (rs := .events :: heardParts) (raise_alters .peripheralFound (some x.slot)
    (val (s.tables.slotKind x.slot).code) _)).seq (rs := lineParts) htold
  refine poll_completes h (p := []) (by simp) rfl (ps := []) ?_ ((apart_iff _ _).1 rfl) ?_ (by decide) (by decide)
    fun t ht => ?_
  · rw [List.flatMap_nil, readPoll_nil]
    exact .refl _ _
  · rwa [List.flatMap_nil, readPoll_nil, hslot]
  · rw [List.flatMap_nil, readPoll_nil, hslot] at ht
    exact raisesFirst_of (hpresent .events (by decide)) (hpresent .seconds (by decide))
      ((extends_growth.tellPresent _ _).trans (extends_pollEnd ht))

/-! ### Coins (R14, R32 to R34, R182, R185) -/

theorem takeCoin_credits {k : Nat} {v : State} (hfill : v.lock.fill = false) :
    takeCoin k v = creditMoney .coinCredited k (v.tables.coin k).value v :=
  if_neg (by rw [hfill]; exact Bool.false_ne_true)

theorem takeCoin_fills {k : Nat} {v : State} (hfill : v.lock.fill = true) : takeCoin k v = recomputeMasks
    (raise .coinFilled (some k) (val (v.tables.coin k).value)
      { v with audit.filled := addTotal v.audit.filled (v.tables.coin k).value }) := if_pos hfill

/-- A coin in a tube with neither a covered full sensor nor a low sensor counts one more (R32). -/
theorem coinIntoTube_counts {n : Nat} {v : State} (hlen : n < v.change.tubes.length)
    (hfree : (v.tube n).count < (v.tables.tube n).capacity) (hfull : (v.tube n).full.accepted ≠ some true)
    (hlow : (v.tables.tube n).lowMark = 0) : coinIntoTube n v = rawCount n ((v.tube n).count + 1) v := by
  have hcounted : (rawCount n ((v.tube n).count + 1) v).tube n = { v.tube n with count := (v.tube n).count + 1 } := by
    rw [tube_rawCount, if_pos ⟨rfl, hlen⟩]
  have htables : (rawCount n ((v.tube n).count + 1) v).tables = v.tables := rawCount_alters n _ v .tables (by decide)
  have hsame : reconcile n (rawCount n ((v.tube n).count + 1) v) = rawCount n ((v.tube n).count + 1) v := by
    rw [reconcile_eq, hcounted, htables, hlow, if_neg fun h => hfull h.1, if_neg fun h => hfull h.1,
      if_neg fun h => absurd h.1 (Nat.lt_irrefl 0), if_neg fun h => absurd h.1 (Nat.lt_irrefl 0)]
  exact (if_neg (Nat.not_le.2 hfree)).trans hsame

/-- EXACT places one event at most (R43). -/
theorem evalExactIf_length_le (o u : State) : (evalExactIf o u).events.queue.length ≤ u.events.queue.length + 1 := by
  unfold evalExactIf evalExact
  dsimp only
  split
  · exact Nat.le_succ _
  · split
    · exact Nat.le_succ _
    · have hnote (w : State) : (recomputeNote w).events = w.events := recomputeNote_alters w .events (by decide)
      rw [hnote]
      split
      · exact raise_length_le _ _ _ _
      · exact raise_length_le _ _ _ _

section
variable (h : Polled x s) (hpresent : (s.slot x.slot).state = .present) (hkind : s.tables.slotKind x.slot = .coinValidator)
include h hpresent hkind

theorem validator_completes {c n : Nat} (hc : c < 256) (hn : n < 256) {r : State}
    (hpair : validatorPair x.slot c n (present x.slot s) = r) (hr : Alters moneyReport (present x.slot s) r)
    {good : State → Prop} (hgood : ∀ t, Alters pollEndParts r t → good t) :
    Completes (.lineFrameComplete (clean (lineFrame x.slot 0x81 ([c, n].flatMap char)))) s lineParts fun t =>
      Taken x.slot s t ∧ good t := by
  have htables : (present x.slot s).tables = s.tables := present_alters x.slot s .tables (by decide)
  exact report_completes h hpresent ((readPoll_validator hc hn (by rw [htables]; exact hkind)).trans hpair) hr hgood

/-- A coin reported to the cash box is credited (R14, R33, R34). -/
theorem coinBox_credits {k : Nat} (hk : k ≤ 15) (hfill : s.lock.fill = false) :
    Completes (.lineFrameComplete (clean (lineFrame x.slot 0x81 ([0x02, k].flatMap char)))) s lineParts fun t =>
      Taken x.slot s t ∧ CreditedBy (s.tables.coin k).value s t ∧ t.change.tubes = s.change.tubes ∧
      t.lock.economy = false ∧ RaisesFirst s t .coinCredited (some k) (val (s.tables.coin k).value) := by
  have hv := present_alters x.slot s
  generalize hpv : present x.slot s = v at hv
  have hfill' : v.lock.fill = false := (hv .fill (by decide)).trans hfill
  have htables : v.tables = s.tables := hv .tables (by decide)
  have htake : takeCoin k v = creditMoney .coinCredited k (s.tables.coin k).value v := by
    rw [takeCoin_credits hfill', htables]
  have hmoney := creditMoney_alters .coinCredited k (s.tables.coin k).value v
  have hend := endEconomy_alters .report (creditMoney .coinCredited k (s.tables.coin k).value v)
  refine validator_completes h hpresent hkind (by decide) (by omega)
    (by rw [hpv, validatorPair_box v hk, htake]) (by rw [hpv]; exact hmoney.seq hend) fun t ht => ?_
  have hlater := hend.seq (rs := .economy :: .events :: pollEndParts) ht
  refine ⟨?_, ?_, ?_, ?_⟩
  · exact ((creditMoney_creditedBy .coinCredited k (s.tables.coin k).value v).after (hlater .amounts (by decide))
      (hlater .audit (by decide))).before (hv .amounts (by decide)) (hv .audit (by decide)) htables
  · exact (hlater .tubes (by decide)).trans ((hmoney .tubes (by decide)).trans (hv .tubes (by decide)))
  · exact (ht .economy (by decide)).trans (endEconomy_economy _ _)
  · exact ((creditMoney_raisesFirst .coinCredited k (s.tables.coin k).value v).after
      ((extends_growth.endEconomy _ _).trans (extends_pollEnd ht))).before (hv .events (by decide)) (hv .seconds (by decide))

/-- In fill mode a coin is counted, not credited (R182). -/
theorem coinBox_fills {k : Nat} (hk : k ≤ 15) (hfill : s.lock.fill = true) :
    Completes (.lineFrameComplete (clean (lineFrame x.slot 0x81 ([0x02, k].flatMap char)))) s lineParts fun t =>
      Taken x.slot s t ∧ t.credit.credit = s.credit.credit ∧ t.credit.returnDue = s.credit.returnDue ∧
      t.audit = { s.audit with filled := addTotal s.audit.filled (s.tables.coin k).value } ∧
      RaisesFirst s t .coinFilled (some k) (val (s.tables.coin k).value) := by
  have hv := present_alters x.slot s
  generalize hpv : present x.slot s = v at hv
  have hfill' : v.lock.fill = true := (hv .fill (by decide)).trans hfill
  have htables : v.tables = s.tables := hv .tables (by decide)
  have haudit : v.audit = s.audit := hv .audit (by decide)
  let w : State := { v with audit.filled := addTotal v.audit.filled (s.tables.coin k).value }
  let e : State := raise .coinFilled (some k) (val (s.tables.coin k).value) w
  have htake : takeCoin k v = recomputeMasks e := by
    rw [takeCoin_fills hfill', show (v.tables.coin k).value = (s.tables.coin k).value by rw [htables]]
  have hmoney := takeCoin_alters k v
  rw [htake] at hmoney
  have hmasks := recomputeMasks_alters e
  have hend := endEconomy_alters .report (recomputeMasks e)
  refine validator_completes h hpresent hkind (by decide) (by omega)
    (by rw [hpv, validatorPair_box v hk, htake]) (by rw [hpv]; exact hmoney.seq hend) fun t ht => ?_
  have hlater := (hmasks.seq (rs := .economy :: .events :: maskParts) hend).seq
    (rs := .economy :: .events :: maskParts ++ pollEndParts) ht
  obtain ⟨hcredit, -, -, hdue⟩ := hlater .amounts (by decide)
  obtain ⟨hcredit', -, -, hdue'⟩ := hv .amounts (by decide)
  refine ⟨hcredit.trans hcredit', hdue.trans hdue', ?_, ?_⟩
  · refine (hlater .audit (by decide)).trans ?_
    show { v.audit with filled := addTotal v.audit.filled (s.tables.coin k).value } = _
    rw [haudit]
  · exact raisesFirst_of (u := w) (hv .events (by decide)) (hv .seconds (by decide))
      (((extends_growth.recomputeMasks e).trans (extends_growth.endEconomy _ _)).trans (extends_pollEnd ht))

/-- A coin reported to its tube counts there and is credited (R32, R34). -/
theorem coinTube_credits {k n : Nat} (hk : k ≤ 15) (hfill : s.lock.fill = false) (htube : (s.tables.coin k).tube = some n)
    (hn : n < s.change.tubes.length) (hfree : (s.tube n).count < (s.tables.tube n).capacity)
    (hfull : (s.tube n).full.accepted ≠ some true) (hlow : (s.tables.tube n).lowMark = 0) :
    Completes (.lineFrameComplete (clean (lineFrame x.slot 0x81 ([0x01, k].flatMap char)))) s lineParts fun t =>
      Taken x.slot s t ∧ CreditedBy (s.tables.coin k).value s t ∧ (t.tube n).count = (s.tube n).count + 1 ∧
      (∀ m, m ≠ n → t.tube m = s.tube m) ∧ Raises s t .coinCredited (some k) (val (s.tables.coin k).value) := by
  have hv := present_alters x.slot s
  generalize hpv : present x.slot s = v at hv
  have htables : v.tables = s.tables := hv .tables (by decide)
  have htubes : v.change.tubes = s.change.tubes := hv .tubes (by decide)
  have htube' (m : Nat) : v.tube m = s.tube m := tube_congr htubes m
  have hcounted := coinIntoTube_counts (n := n) (v := v) (by rwa [htubes]) (by rwa [htube', htables]) (by rwa [htube'])
    (by rwa [htables])
  have hraw := rawCount_alters n ((v.tube n).count + 1) v
  have hexact := evalExactIf_alters v (rawCount n ((v.tube n).count + 1) v)
  generalize hw : evalExactIf v (rawCount n ((v.tube n).count + 1) v) = w at hexact
  have hvw := hraw.seq (rs := .tubes :: .shortWait :: .exact :: .events :: maskParts) hexact
  have hfill' : w.lock.fill = false := (hvw .fill (by decide)).trans ((hv .fill (by decide)).trans hfill)
  have htables' : w.tables = s.tables := (hvw .tables (by decide)).trans htables
  have htake : coinTube k v = creditMoney .coinCredited k (s.tables.coin k).value w := by
    unfold coinTube
    rw [htables, htube]
    show takeCoin k (evalExactIf v (coinIntoTube n v)) = _
    rw [hcounted, hw, takeCoin_credits hfill', htables']
  have hmoney := creditMoney_alters .coinCredited k (s.tables.coin k).value w
  have hend := endEconomy_alters .report (creditMoney .coinCredited k (s.tables.coin k).value w)
  refine validator_completes h hpresent hkind (by decide) (by omega)
    (by rw [hpv, validatorPair_tube v hk, htake])
    (by rw [hpv]; exact (hvw.seq (rs := moneyReport) hmoney).seq hend) fun t ht => ?_
  have hlater := hend.seq (rs := .economy :: .events :: pollEndParts) ht
  have hsw := hv.seq (rs := heardParts ++ .tubes :: .shortWait :: .exact :: .events :: maskParts) hvw
  have hfinal (m : Nat) : t.tube m = (rawCount n ((v.tube n).count + 1) v).tube m :=
    tube_congr ((hlater .tubes (by decide)).trans ((hmoney .tubes (by decide)).trans (hexact .tubes (by decide)))) m
  refine ⟨?_, ?_, fun m hm => ?_, ?_⟩
  · exact ((creditMoney_creditedBy .coinCredited k (s.tables.coin k).value w).after (hlater .amounts (by decide))
      (hlater .audit (by decide))).before (hsw .amounts (by decide)) (hsw .audit (by decide)) htables'
  · rw [hfinal, tube_rawCount, if_pos ⟨rfl, by rwa [htubes]⟩, htube']
  · rw [hfinal, tube_rawCount, if_neg fun hc => hm hc.1, htube']
  · have hlength : w.events.queue.length ≤ s.events.queue.length + 1 := by
      have hsame : (rawCount n ((v.tube n).count + 1) v).events = s.events :=
        (hraw .events (by decide)).trans (hv .events (by decide))
      rw [← hw, ← hsame]
      exact evalExactIf_length_le _ _
    exact raises_of (fun hroom => Nat.lt_of_le_of_lt hlength (by omega)) (hsw .seconds (by decide))
      ((creditMoney_raises .coinCredited k (s.tables.coin k).value w).trans
        ((extends_growth.endEconomy _ _).trans (extends_pollEnd ht)))

/-! ### The lever (R13) -/

theorem lever_waits (hsale : s.credit.sale = .vend) :
    Completes (.lineFrameComplete (clean (lineFrame x.slot 0x81 ([0x04, 0].flatMap char)))) s lineParts fun t =>
      Taken x.slot s t ∧ t.credit.pendingReturn = true ∧ t.credit.credit = s.credit.credit := by
  have hv := present_alters x.slot s
  have hsale' : (present x.slot s).credit.sale = .vend := (hv .sale (by decide)).trans hsale
  have hlever : returnLever (present x.slot s) = { present x.slot s with credit.pendingReturn := true } := by
    unfold returnLever
    rw [hsale']
  refine validator_completes h hpresent hkind (by decide) (by decide) ((validatorPair_lever _).trans hlever) ?_ fun t ht => ?_
  · intro p hp
    cases p <;> simp_all [Part.same, moneyReport]
  · obtain ⟨hcredit, -⟩ := ht .amounts (by decide)
    obtain ⟨hcredit', -⟩ := hv .amounts (by decide)
    exact ⟨ht .pendingReturn (by decide), hcredit.trans hcredit'⟩

theorem lever_returns (hsale : s.credit.sale = .opened) (hcredit : s.credit.credit ≠ 0)
    (hdue : s.credit.returnDue + s.credit.credit ≤ 65535) :
    Completes (.lineFrameComplete (clean (lineFrame x.slot 0x81 ([0x04, 0].flatMap char)))) s lineParts fun t =>
      Taken x.slot s t ∧ t.credit.credit = 0 ∧ t.credit.returnDue = s.credit.returnDue + s.credit.credit := by
  have hv := present_alters x.slot s
  generalize hpv : present x.slot s = v at hv
  have hsale' : v.credit.sale = .opened := (hv .sale (by decide)).trans hsale
  obtain ⟨hcredit', -, -, hdue'⟩ := hv .amounts (by decide)
  have hlever : returnLever v = returnAll v := by
    unfold returnLever
    rw [hsale']
    exact if_neg (by simp [nothingToReturn, hcredit', hcredit])
  have hrest := (((setSale_alters { creditToReturn v with change.shortWait := false }).seq
    (rs := .sale :: .payout :: .grants :: maskParts) (payoutTest_alters _)).seq
    (rs := .sale :: .payout :: .grants :: maskParts) (masksIfHeld_alters v _))
  have hreturned := creditToReturn_credit v
  refine validator_completes (r := returnAll v) h hpresent hkind (by decide) (by decide)
    (by rw [hpv]; exact (validatorPair_lever _).trans hlever) (by rw [hpv]; exact (returnAll_alters v).mono) fun t ht => ?_
  obtain ⟨hc, -, -, hd⟩ := ht .amounts (by decide)
  obtain ⟨hc', -, -, hd'⟩ := hrest .amounts (by decide)
  obtain ⟨hsum, -, hfits⟩ := returnFits_eq (due := s.credit.returnDue) (a := s.credit.credit) (by omega)
  refine ⟨hc.trans (hc'.trans ?_), hd.trans (hd'.trans ?_)⟩
  · exact congrArg CreditUnit.credit hreturned
  · refine (congrArg CreditUnit.returnDue hreturned).trans ?_
    show v.credit.returnDue + returnFits v.credit.returnDue v.credit.credit = _
    rw [hcredit', hdue', hsum]
    omega

end

end

end Sys2Proof.Machine
end

