-- ==== Sys2Proof/Proofs/PollNotes.lean ====
section
/-! O60: the reports of notes in a poll's reply, an escrow that expires, and the seconds counter (R17 to R22, R148, R185). -/

/- One lemma after another, to keep the memory of a compile small. -/
set_option Elab.async false

namespace Sys2Proof.Machine

/-! ### ESCROW entries stay while masks are placed (R138, R153) -/

/-- The ESCROW entries of one queue are in another. -/
def KeepsEscrows (s t : State) : Prop := ∀ c ∈ s.line.queue, c.isMasks = false → c ∈ t.line.queue

theorem KeepsEscrows.of_queue {s t : State} (h : t.line.queue = s.line.queue) : KeepsEscrows s t := fun c hc _ => by rwa [h]

theorem KeepsEscrows.trans {s t u : State} (h1 : KeepsEscrows s t) (h2 : KeepsEscrows t u) : KeepsEscrows s u :=
  fun c hc hm => h2 c (h1 c hc hm) hm

theorem isMasks_of_unsent {a : Nat} {c : Cmd} (h : c.isUnsentMasks a = true) : c.isMasks = true := by
  unfold Cmd.isUnsentMasks at h
  unfold Cmd.isMasks
  cases hbody : c.body with
  | masks m => rfl
  | escrow d t k =>
    rw [hbody] at h
    exact h

theorem modMaskRec_queue (p : Periph) (f : MaskRec → MaskRec) (s : State) :
    (modMaskRec p f s).line.queue = s.line.queue := (modMaskRec_alters p f s .cmdQueue (by decide)).1

theorem keepsEscrows_enqueueMasks (a : Nat) (p : Periph) (m : Masks) (s : State) : KeepsEscrows s (enqueueMasks a p m s) := by
  unfold enqueueMasks
  split
  · refine KeepsEscrows.trans (fun c hc hm => ?_) (.of_queue (modMaskRec_queue _ _ _))
    refine List.mem_map.2 ⟨c, hc, if_neg fun h => ?_⟩
    rw [isMasks_of_unsent h] at hm
    exact absurd hm.symm Bool.false_ne_true
  · split
    · exact .trans (fun c hc _ => List.mem_append_left _ hc) (.of_queue (modMaskRec_queue _ _ _))
    · exact .of_queue (modMaskRec_queue _ _ _)

theorem keepsEscrows_sendMasks (p : Periph) (m : Masks) (s : State) : KeepsEscrows s (sendMasks p m s) := by
  unfold sendMasks compareMasks
  split
  · exact .of_queue rfl
  · refine KeepsEscrows.trans (.of_queue (modMaskRec_queue p (fun r => { r with current := m }) s)) ?_
    split
    · exact .of_queue rfl
    · split
      · exact .of_queue rfl
      · exact keepsEscrows_enqueueMasks _ _ _ _

theorem keepsEscrows_recomputeMasks (s : State) : KeepsEscrows s (recomputeMasks s) := by
  have hnote (u : State) : KeepsEscrows u (recomputeNote u) := by
    unfold recomputeNote
    split
    · exact fun c hc hm => keepsEscrows_sendMasks _ _ _ c hc hm
    · exact .of_queue rfl
  unfold recomputeMasks
  split
  · exact fun c hc hm => hnote _ c (keepsEscrows_sendMasks _ _ _ c hc hm) hm
  · exact .of_queue rfl

/-- An ESCROW command with room in the queue stands in it (R155). -/
theorem placeEscrow_queued {d : Decision} {n a : Nat} {k : Bool} {s : State} (hslot : s.slotOf .reader = some a)
    (hroom : s.line.queue.length < 4) : placeEscrow d n k s = { s with
      line.queue := insertEscrow { slot := a, body := .escrow d n k, mark := false, inFlight := false } s.line.queue } := by
  unfold placeEscrow
  rw [hslot]
  exact if_pos hroom

theorem mem_insertEscrow_self (e : Cmd) (l : List Cmd) : e ∈ insertEscrow e l := by
  induction l with
  | nil => exact List.mem_singleton.2 rfl
  | cons y ys ih =>
    unfold insertEscrow
    split
    · exact List.mem_cons_self
    · exact List.mem_cons_of_mem _ ih

/-- The receiver has no part in the conditions on a note (R16, R18). -/
theorem noteFits_heard {s v : State} {n : Nat} (hv : Alters heardParts s v) : noteFits v n = noteFits s n := by
  have htables : v.tables = s.tables := hv .tables (by decide)
  obtain ⟨hcredit, hhold, hreserve, -⟩ := hv .amounts (by decide)
  obtain ⟨hup, -⟩ := hv .linkState (by decide)
  have hfill : v.lock.fill = s.lock.fill := hv .fill (by decide)
  have hexact : v.change.exact = s.change.exact := hv .exact (by decide)
  unfold noteFits
  rw [headroom_congr htables hcredit hhold hreserve, htables, hup, hfill, hexact]

/-- A note's escrow record with its reserve (R17). -/
def heldNote (n : Nat) (d : Decision) (reserve : Nat) (v : State) : State :=
  { v with credit.escrow := some { noteType := n, decision := d, time := v.seconds }, credit.escrowReserve := reserve }

theorem noteEscrow_none {n : Nat} {v : State} (hescrow : v.credit.escrow = none) : noteEscrow n v =
    if noteFits v n then recomputeMasks (placeEscrow .stack n true (setSale (heldNote n .stack (v.tables.note n).value v)))
    else placeEscrow .giveBack n true (heldNote n .giveBack v.credit.escrowReserve v) := by
  unfold noteEscrow
  rw [hescrow]
  rfl

/-- A note of no escrow is decided by its conditions, and the decision stands in the queue (R17, R18, R155). -/
theorem noteEscrow_decides {n a : Nat} {v : State} (hescrow : v.credit.escrow = none) (hroom : v.line.queue.length < 4)
    (hslot : v.slotOf .reader = some a) : (noteEscrow n v).credit.credit = v.credit.credit ∧
    (noteEscrow n v).credit.escrow = some {
      noteType := n, decision := if noteFits v n then .stack else .giveBack, time := v.seconds } ∧
    (noteEscrow n v).credit.escrowReserve = (if noteFits v n then (v.tables.note n).value else v.credit.escrowReserve) ∧
    ∃ c ∈ (noteEscrow n v).line.queue, c.slot = a ∧ c.body = .escrow (if noteFits v n then .stack else .giveBack) n true := by
  rw [noteEscrow_none hescrow]
  split
  · rw [placeEscrow_queued (s := setSale (heldNote n .stack (v.tables.note n).value v)) hslot hroom]
    generalize hu : ({ setSale (heldNote n .stack (v.tables.note n).value v) with
        line.queue := insertEscrow { slot := a, body := .escrow .stack n true, mark := false, inFlight := false }
          (setSale (heldNote n .stack (v.tables.note n).value v)).line.queue } : State) = u
    have hmasks := recomputeMasks_alters u
    obtain ⟨hcredit, -, hreserve, -⟩ := hmasks .amounts (by decide)
    refine ⟨hcredit.trans (by rw [← hu]; rfl), (hmasks .escrow (by decide)).trans (by rw [← hu]; rfl),
      hreserve.trans (by rw [← hu]; rfl), { slot := a, body := .escrow .stack n true, mark := false, inFlight := false },
      keepsEscrows_recomputeMasks u _ ?_ rfl, rfl, rfl⟩
    rw [← hu]
    exact mem_insertEscrow_self _ _
  · rw [placeEscrow_queued (s := heldNote n .giveBack v.credit.escrowReserve v) hslot hroom]
    exact ⟨rfl, rfl, rfl, _, mem_insertEscrow_self _ _, rfl, rfl⟩

/-! ### Notes (R17 to R22) -/

section
variable {x : Trans} {s : State} (h : Polled x s) (hpresent : (s.slot x.slot).state = .present)
  (hkind : s.tables.slotKind x.slot = .noteReader)
include h hpresent hkind

theorem reader_completes {c n : Nat} (hc : c < 256) (hn : n < 256) {r : State}
    (hpair : readerPair x.slot c n (present x.slot s) = r) (hr : Alters moneyReport (present x.slot s) r)
    {good : State → Prop} (hgood : ∀ t, Alters pollEndParts r t → good t) :
    Completes (.lineFrameComplete (clean (lineFrame x.slot 0x81 ([c, n].flatMap char)))) s lineParts fun t =>
      Taken x.slot s t ∧ good t := by
  have htables : (present x.slot s).tables = s.tables := present_alters x.slot s .tables (by decide)
  exact report_completes h hpresent ((readPoll_reader hc hn (by rw [htables]; exact hkind)).trans hpair) hr hgood

/-- A stacked note that was in no escrow is new money (R22). -/
theorem note_credits {n : Nat} (hn : n ≤ 7) (hescrow : s.credit.escrow = none) :
    Completes (.lineFrameComplete (clean (lineFrame x.slot 0x81 ([0x12, n].flatMap char)))) s lineParts fun t =>
      Taken x.slot s t ∧ CreditedBy (s.tables.note n).value s t ∧
      RaisesFirst s t .noteStacked (some n) (val (s.tables.note n).value) := by
  have hv := present_alters x.slot s
  generalize hpv : present x.slot s = v at hv
  have hescrow' : v.credit.escrow = none := (hv .escrow (by decide)).trans hescrow
  have htables : v.tables = s.tables := hv .tables (by decide)
  have hnote : noteStacked n v = creditMoney .noteStacked n (s.tables.note n).value v := by
    unfold noteStacked
    rw [hescrow', htables]
  refine reader_completes (r := creditMoney .noteStacked n (s.tables.note n).value v) h hpresent hkind (by decide) (by omega)
    (by rw [hpv, readerPair_stacked v hn, hnote]) (by rw [hpv]; exact (creditMoney_alters _ _ _ v).mono) fun t ht => ?_
  exact ⟨((creditMoney_creditedBy _ _ _ v).after (ht .amounts (by decide)) (ht .audit (by decide))).before
      (hv .amounts (by decide)) (hv .audit (by decide)) htables,
    ((creditMoney_raisesFirst _ _ _ v).after (extends_pollEnd ht)).before (hv .events (by decide)) (hv .seconds (by decide))⟩

/-- A note stacked from escrow is credited from its reserve (R20). -/
theorem note_stacks {n : Nat} (hn : n ≤ 7) {e : Escrow} (hescrow : s.credit.escrow = some e) (htype : e.noteType = n)
    (hdecision : e.decision = .stack) :
    Completes (.lineFrameComplete (clean (lineFrame x.slot 0x81 ([0x12, n].flatMap char)))) s lineParts fun t =>
      Taken x.slot s t ∧ t.credit.escrow = none ∧ t.credit.escrowReserve = 0 ∧
      t.credit.credit = s.credit.credit + s.credit.escrowReserve ∧
      t.audit = { s.audit with cashIn := addTotal s.audit.cashIn (s.tables.note n).value } ∧
      RaisesFirst s t .noteStacked (some n) (val (s.tables.note n).value) := by
  have hv := present_alters x.slot s
  generalize hpv : present x.slot s = v at hv
  have hescrow' : v.credit.escrow = some e := (hv .escrow (by decide)).trans hescrow
  have hvalue : (v.tables.note n).value = (s.tables.note n).value := by
    rw [show v.tables = s.tables from hv .tables (by decide)]
  have haudit : v.audit = s.audit := hv .audit (by decide)
  obtain ⟨hcredit, -, hreserve, -⟩ := hv .amounts (by decide)
  let w : State := removeEscrow { v with
    credit.credit := v.credit.credit + v.credit.escrowReserve
    audit.cashIn := addTotal v.audit.cashIn (s.tables.note n).value }
  let q : State := setSale (raise .noteStacked (some n) (val (s.tables.note n).value) w)
  have hnote : noteStacked n v = recomputeMasks q := by
    unfold noteStacked
    rw [hescrow']
    dsimp only
    rw [if_pos htype, hdecision, hvalue]
  have hframe := noteStacked_alters n v
  rw [hnote] at hframe
  refine reader_completes (r := recomputeMasks q) h hpresent hkind (by decide) (by omega)
    (by rw [hpv, readerPair_stacked v hn, hnote]) (by rw [hpv]; exact hframe.mono) fun t ht => ?_
  have hlater := (recomputeMasks_alters q).seq (rs := maskParts ++ pollEndParts) ht
  obtain ⟨hc, -, hr, -⟩ := hlater .amounts (by decide)
  refine ⟨hlater .escrow (by decide), hr, hc.trans ?_, (hlater .audit (by decide)).trans ?_, ?_⟩
  · exact congrArg₂ (· + ·) hcredit hreserve
  · show { v.audit with cashIn := addTotal v.audit.cashIn (s.tables.note n).value } = _
    rw [haudit]
  · exact raisesFirst_of (u := w) (hv .events (by decide)) (hv .seconds (by decide))
      (((extends_growth.setSale _).trans (extends_growth.recomputeMasks q)).trans (extends_pollEnd ht))

/-- A note returned from escrow credits nothing (R20). -/
theorem note_returns {n : Nat} (hn : n ≤ 7) {e : Escrow} (hescrow : s.credit.escrow = some e) (htype : e.noteType = n) :
    Completes (.lineFrameComplete (clean (lineFrame x.slot 0x81 ([0x13, n].flatMap char)))) s lineParts fun t =>
      Taken x.slot s t ∧ t.credit.escrow = none ∧ t.credit.escrowReserve = 0 ∧ t.credit.credit = s.credit.credit ∧
      t.audit = s.audit ∧ RaisesFirst s t .noteReturned (some n) (val (s.tables.note n).value) := by
  have hv := present_alters x.slot s
  generalize hpv : present x.slot s = v at hv
  have hescrow' : v.credit.escrow = some e := (hv .escrow (by decide)).trans hescrow
  have hvalue : (v.tables.note n).value = (s.tables.note n).value := by
    rw [show v.tables = s.tables from hv .tables (by decide)]
  obtain ⟨hcredit, -⟩ := hv .amounts (by decide)
  let q : State := raise .noteReturned (some n) (val (s.tables.note n).value) (removeEscrow v)
  have hnote : noteReturned n v = if e.decision = .stack then recomputeMasks (setSale q) else q := by
    unfold noteReturned
    rw [hescrow']
    dsimp only
    rw [if_pos htype, hvalue]
    cases e.decision <;> rfl
  have hrest : Alters (.sale :: maskParts) q (noteReturned n v) := by
    rw [hnote]
    exact .ite ((setSale_alters q).seq (recomputeMasks_alters _)) (.refl _ _)
  have hext : Extends q (noteReturned n v) := by
    rw [hnote]
    split
    · exact (extends_growth.setSale _).trans (extends_growth.recomputeMasks _)
    · exact .rfl
  refine reader_completes (r := noteReturned n v) h hpresent hkind (by decide) (by omega)
    (by rw [hpv, readerPair_returned v hn]) (by rw [hpv]; exact (noteReturned_alters n v).mono) fun t ht => ?_
  have hlater := hrest.seq (rs := .sale :: maskParts ++ pollEndParts) ht
  obtain ⟨hc, -, hr, -⟩ := hlater .amounts (by decide)
  exact ⟨hlater .escrow (by decide), hr, hc.trans hcredit, (hlater .audit (by decide)).trans (hv .audit (by decide)),
    raisesFirst_of (u := removeEscrow v) (hv .events (by decide)) (hv .seconds (by decide)) (hext.trans (extends_pollEnd ht))⟩

/-- A note held in escrow is decided, and the decision sent to the reader (R17, R18, R155). -/
theorem note_held {n : Nat} (hn : n ≤ 7) (hescrow : s.credit.escrow = none) (hroom : s.line.queue.length < 4)
    (hslot : s.slotOf .reader = some x.slot) :
    Completes (.lineFrameComplete (clean (lineFrame x.slot 0x81 ([0x11, n].flatMap char)))) s lineParts fun t =>
      Taken x.slot s t ∧ t.lock.economy = false ∧ t.credit.credit = s.credit.credit ∧
      t.credit.escrow = some {
        noteType := n, decision := if noteFits s n then .stack else .giveBack, time := s.seconds } ∧
      t.credit.escrowReserve = (if noteFits s n then (s.tables.note n).value else s.credit.escrowReserve) ∧
      ∃ c ∈ t.line.queue, c.slot = x.slot ∧ c.body = .escrow (if noteFits s n then .stack else .giveBack) n true := by
  have hv := present_alters x.slot s
  generalize hpv : present x.slot s = v at hv
  obtain ⟨hqueue, -⟩ := hv .cmdQueue (by decide)
  have hdecided := noteEscrow_decides (n := n) (a := x.slot) ((hv .escrow (by decide)).trans hescrow)
    (by rw [hqueue]; exact hroom) ((slotOf_congr (hv .tables (by decide)) _).trans hslot)
  have hfits : noteFits v n = noteFits s n := noteFits_heard hv
  have hvalue : (v.tables.note n).value = (s.tables.note n).value := by
    rw [show v.tables = s.tables from hv .tables (by decide)]
  obtain ⟨hcredit, -, hreserve, -⟩ := hv .amounts (by decide)
  rw [hfits, hvalue, hreserve, hcredit, show v.seconds = s.seconds from hv .seconds (by decide)] at hdecided
  obtain ⟨hc, he, hr, c, hc1, hc2, hc3⟩ := hdecided
  have hend := endEconomy_alters .report (noteEscrow n v)
  refine reader_completes (r := endEconomy .report (noteEscrow n v)) h hpresent hkind (by decide) (by omega)
    (by rw [hpv, readerPair_escrow v hn]) (by rw [hpv]; exact (noteEscrow_alters n v).seq hend) fun t ht => ?_
  have hlater := hend.seq (rs := .economy :: .events :: pollEndParts) ht
  obtain ⟨hc', -, hr', -⟩ := hlater .amounts (by decide)
  obtain ⟨hq, -⟩ := hlater .cmdQueue (by decide)
  exact ⟨(ht .economy (by decide)).trans (endEconomy_economy _ _), hc'.trans hc, (hlater .escrow (by decide)).trans he,
    hr'.trans hr, c, by rw [hq]; exact hc1, hc2, hc3⟩

end

/-! ### An escrow that expires (R21) -/

theorem escrow_expires {s : State} (hrun : s.phase = .run) {e : Escrow} (hescrow : s.credit.escrow = some e) :
    Completes .escrowUnresolved s (.escrow :: .amounts :: .events :: maskParts) fun t =>
      t.credit.escrow = none ∧ t.credit.escrowReserve = 0 ∧ t.credit.credit = s.credit.credit ∧
      t.credit.vendHold = s.credit.vendHold ∧ t.credit.returnDue = s.credit.returnDue ∧
      t.events = s.events.place (eventAt s.seconds .escrowUnresolved (some e.noteType)
        (val (s.tables.note e.noteType).value)) := by
  let q : State := raise .escrowUnresolved (some e.noteType) (val (s.tables.note e.noteType).value) (removeEscrow s)
  have hafter := (setSale_alters q).seq (rs := .sale :: maskParts) (recomputeMasks_alters _)
  have hframe : Alters (.sale :: .escrow :: .amounts :: .events :: maskParts) s (recomputeMasks (setSale q)) :=
    ((removeEscrow_alters s).seq (rs := .sale :: .escrow :: .amounts :: .events :: maskParts)
      (raise_alters _ _ _ _)).seq hafter
  have hphase : (recomputeMasks (setSale q)).phase = .run := (hframe .phase (by decide)).trans hrun
  have hlater := hafter.seq (rs := maskParts ++ dueParts) (finish_alters _ hphase)
  obtain ⟨hcredit, hhold, hreserve, hdue⟩ := hlater .amounts (by decide)
  exact ⟨_, next_finish ((whenActive_of_run hrun).trans (expireEscrow_some hescrow)), hframe.seq (finish_alters _ hphase),
    hlater .escrow (by decide), hreserve, hcredit, hhold, hdue, hlater .events (by decide)⟩

/-- Settles O60. -/
theorem pollRepliesCreditMoneyAndHoldNotes : Obligations.PollRepliesCreditMoneyAndHoldNotes := by
  refine ⟨fun s => rfl, fun s hrun => ⟨fun hnone => ?_, fun e hescrow => escrow_expires hrun hescrow⟩,
    fun x s hrun hlen htrans hbody hstale hdriver hasm hlow hhigh => ?_⟩
  · exact next_finish ((whenActive_of_run hrun).trans (expireEscrow_none hnone))
  have h : Polled x s := ⟨hrun, hlen, htrans, hbody, hstale, hdriver, hasm, hlow, hhigh⟩
  refine ⟨fun state hstate => ⟨fun hpresent => reply_present h (hstate.trans hpresent),
      fun habsent => reply_found h (fun hpresent => habsent (hstate.symm.trans hpresent))⟩,
    fun hpresent hkind => ⟨fun k hk hfill => ⟨coinBox_credits h hpresent hkind hk hfill,
        fun n hn htube hsix hfree hfull hmark => coinTube_credits h hpresent hkind hk hfill htube (by omega) hfree hfull hmark⟩,
      fun k hk hfill => coinBox_fills h hpresent hkind hk hfill, fun hsale => lever_waits h hpresent hkind hsale,
      fun hsale hcredit hdue => lever_returns h hpresent hkind hsale hcredit hdue⟩,
    fun hpresent hkind n hn => ⟨fun hescrow hroom hslot => note_held h hpresent hkind hn hescrow hroom hslot,
      fun e hescrow htype hdecision => note_stacks h hpresent hkind hn hescrow htype hdecision,
      fun hescrow => note_credits h hpresent hkind hn hescrow,
      fun e hescrow htype => note_returns h hpresent hkind hn hescrow htype⟩⟩

end Sys2Proof.Machine
end

