-- ==== Sys2Proof/Proofs/CommandReturns.lean ====
section
/-! O29: Passes and latches, and how the commands to the peripherals come back (R135, R138, R139, R143, R144, R153, R154,
R156). -/

/- One lemma after another, to keep the memory of a compile small. -/
set_option Elab.async false

namespace Sys2Proof.Machine

/-! ### The pass-through queue at the end of a step (R139, R144) -/

/-- What a Pass carries, without its marks. -/
def passCarries (e : PassEntry) : Nat × Nat × Nat × List Byte := (e.slot, e.kind, e.tag, e.payload)

section
variable {s : State} {n : Nat}

theorem map_markPass (l : List PassEntry) : (markPass l).map passCarries = l.map passCarries := by
  cases l <;> rfl

theorem choosePassOrPoll_passes : (choosePassOrPoll s).line.pass.map passCarries = s.line.pass.map passCarries := by
  cases hpass : s.line.pass with
  | cons e rest =>
    rw [choose_pass hpass]
    show (markPass s.line.pass).map passCarries = _
    rw [map_markPass, hpass]
  | nil =>
    cases hlist : s.line.list with
    | nil => rw [choose_none hpass hlist, hpass]
    | cons a rest =>
      rw [choose_poll hpass hlist]
      exact congrArg (List.map passCarries) ((roundIfDue_alters _ .passQueue (by decide)).trans hpass)

theorem chooseNext_passes : (chooseNext n s).line.pass.map passCarries = s.line.pass.map passCarries := by
  induction n generalizing s with
  | zero => rfl
  | succ n ih =>
    cases hqueue : s.line.queue with
    | nil => rw [chooseNext_empty hqueue, choosePassOrPoll_passes]
    | cons e es =>
      cases hpresent : s.slotPresent e.slot with
      | true => rw [chooseNext_cmd hqueue hpresent]; rfl
      | false =>
        rw [chooseNext_dropped hqueue hpresent, ih]
        exact congrArg (List.map passCarries) (returnCmd_alters .dropped e { s with line.queue := es } .passQueue (by decide))

/-- The end of a step marks a Pass it sends, and takes none from its queue. -/
theorem finish_passes (hrun : s.phase = .run) : (finish s).line.pass.map passCarries = s.line.pass.map passCarries := by
  have hchoice : (lineChoose (rested s)).line.pass.map passCarries = (rested s).line.pass.map passCarries := by
    unfold lineChoose
    split
    · exact chooseNext_passes
    · rfl
  rw [finish_choose hrun, hchoice, rested_line]

end

/-! ### Pass and Clear Faults (R143, R144) -/

section
variable {slot kind tag : Nat} {payload : List Byte} {v : State}

theorem servePass_refused (h : slot = 0 ∨ 8 < slot ∨ v.tables.slotKind slot = .unused ∨ kind < 0x20 ∨ 0x3F < kind ∨
    32 < payload.length ∨ tag = 0) : servePass slot kind tag payload v = refuse .badArgument v := by
  unfold servePass
  split
  · rfl
  · split
    · rfl
    · exact if_pos (by tauto)

theorem servePass_fits (hlow : 1 ≤ slot) (hhigh : slot ≤ 8) (hkind : v.tables.slotKind slot ≠ .unused) (hk : 0x20 ≤ kind)
    (hk' : kind ≤ 0x3F) (hp : payload.length ≤ 32) (ht : tag ≠ 0) : servePass slot kind tag payload v =
      if 4 ≤ v.line.pass.length then refuse .queueFull v else (placePass slot kind tag payload v, .queued, []) := by
  have h1 : ¬(slot = 0 ∨ 8 < slot ∨ v.tables.slotKind slot = .unused) := by
    rintro (h | h | h)
    · omega
    · omega
    · exact hkind h
  exact (if_neg h1).trans ((if_neg (by omega)).trans (if_neg (by omega)))

end

theorem received_pass (r : Request) (s : State) : (received r s).line = s.line := (received_alters r s).line_eq

/-- A Pass that finds room is queued last (R144). -/
theorem pass_queued {slot kind tag : Nat} {payload : List Byte} {s : State} (hs : Ready s)
    (hx : serveOwner (.pass slot kind tag payload) (received (.pass slot kind tag payload) s) =
      (placePass slot kind tag payload (received (.pass slot kind tag payload) s), .queued, [])) :
    Replies (.pass slot kind tag payload) s 0x8D .queued [] [.tag, .passQueue] fun t =>
      t.line.pass.map (fun e => (e.slot, e.kind, e.tag, e.payload)) =
        s.line.pass.map (fun e => (e.slot, e.kind, e.tag, e.payload)) ++ [(slot, kind, tag, payload)] := by
  let r : Request := .pass slot kind tag payload
  have hgate : r.gated = true → s.lock.state ≠ .locked := fun h => nomatch h
  have hr : requestOf (.pass slot kind tag payload) = some r := rfl
  have hframe : Alters [.tag, .passQueue] (received r s) (placePass slot kind tag payload (received r s)) :=
    (setPass_alters _ _).mono
  have hkind : r.kind ||| 0x80 = 0x8D := by simp [r, Request.kind]
  refine hkind ▸ (replies_of_owner (good := fun _ => True) hr hs hgate hx hframe (.inr (by decide)) (by decide)
    fun _ _ => trivial).strengthen fun t hexec _ => ?_
  rw [exec_served hr hs hgate hx] at hexec
  cases hexec
  have hanswer := answered_alters r (placePass slot kind tag payload (received r s), .queued, [])
  have hphase := (hanswer .phase (by decide)).trans ((hframe .phase (by decide)).trans ((received_phase r s).trans hs.run))
  have hpass := finish_passes hphase
  rw [hanswer .passQueue (by decide)] at hpass
  refine hpass.trans ?_
  show ((received r s).line.pass ++ [_]).map passCarries = _
  rw [received_pass, List.map_append]
  rfl

theorem latchCount_eq (slot : Nat) (s : State) : latchCount slot s =
    ([1, 2, 3, 4, 5, 6, 7, 8] : List Nat).countP fun a => (slot == 0 || a == slot) && (s.slot a).latch.isSome :=
  (List.countP_eq_length_filter (l := addresses)).symm

/-- The latch of each slot named is emptied (R143). -/
theorem clearLatches_slot {slot a : Nat} (s : State) (ha : 1 ≤ a) : (clearLatches slot s).slot a =
    if slot = 0 ∨ a = slot then { s.slot a with latch := none } else s.slot a := by
  unfold clearLatches
  by_cases hzero : slot = 0
  · rw [if_pos hzero, if_pos (.inl hzero)]
    simp only [State.slot, List.getD_eq_getElem?_getD, List.getElem?_map]
    cases s.line.slots[a - 1]? <;> rfl
  · rw [if_neg hzero]
    unfold State.slot modSlot
    rw [getD_updAt]
    by_cases hself : a = slot
    · subst hself
      rw [if_pos (show a = 0 ∨ a = a from .inr rfl)]
      split
      · rfl
      next hout =>
        have hlen : s.line.slots.length ≤ a - 1 := by omega
        simp [List.getD_eq_getElem?_getD, List.getElem?_eq_none hlen, Slot.initial]
    · rw [if_neg (by omega), if_neg (by omega)]

/-! ### The slot of a peripheral (R141) -/

theorem findSlot_kind {k : SlotKind} {xs : List SlotKind} {a b : Nat} (h : findSlot k a xs = some b) :
    a ≤ b ∧ xs[b - a]? = some k := by
  induction xs generalizing a with
  | nil => exact absurd h (by simp [findSlot])
  | cons y ys ih =>
    unfold findSlot at h
    split at h
    next hy =>
      cases h
      exact ⟨Nat.le_refl _, by simp [hy]⟩
    · obtain ⟨hle, hget⟩ := ih h
      exact ⟨by omega, by rw [show b - a = b - (a + 1) + 1 by omega]; simpa using hget⟩

theorem periphAt_slotOf {s : State} {p : Periph} {a : Nat} (h : s.slotOf p = some a) : s.periphAt a = some p := by
  obtain ⟨-, hget⟩ := findSlot_kind h
  have hkind : s.tables.slotKind a = p.kind := by
    rw [Tables.slotKind, List.getD_eq_getElem?_getD, hget]
    rfl
  unfold State.periphAt
  rw [hkind]
  cases p <;> rfl

/-! ### What leaves the queue (R138, R154, R156) -/

theorem pushWaiting_nothing {b : Line} (s : State) (hvalidator : b.validator.push = false) (hreader : b.reader.push = false)
    (hback : b.escrowBack = none) : pushWaiting b s = s := by
  unfold pushWaiting pushMasks
  rw [hback, hvalidator, hreader]
  rfl

/-- A command handed back while nothing waits (R138): its own return alone. -/
theorem returnCmd_masks {r : CmdReturn} {e : Cmd} {m : Masks} {s : State} (hwaits : NothingWaits s) (hbody : e.body = .masks m) :
    returnCmd r e s = masksReturn r e.slot m (if r = .dropped then countDropped s else s) := by
  obtain ⟨hvalidator, hreader, hback⟩ := hwaits
  unfold returnCmd
  rw [hbody]
  exact pushWaiting_nothing _ hvalidator hreader hback

theorem returnCmd_escrow {r : CmdReturn} {e : Cmd} {d : Decision} {k : Nat} {tracked : Bool} {s : State}
    (hwaits : NothingWaits s) (hbody : e.body = .escrow d k tracked) :
    returnCmd r e s = escrowReturn r d k tracked (if r = .dropped then countDropped s else s) := by
  obtain ⟨hvalidator, hreader, hback⟩ := hwaits
  unfold returnCmd
  rw [hbody]
  exact pushWaiting_nothing _ hvalidator hreader hback

theorem maskRec_modMaskRec (p : Periph) (f : MaskRec → MaskRec) (s : State) :
    (modMaskRec p f s).line.maskRec p = f (s.line.maskRec p) := by
  cases p <;> rfl

/-! ### A command with no peripheral to take it (R139, R154) -/

theorem masks_undelivered {e : Cmd} {m : Masks} {s : State} (hrun : s.phase = .run) (htrans : s.line.trans = none)
    (hasm : s.line.assembling = false) (hwaits : NothingWaits s) (hqueue : s.line.queue = [e]) (hpass : s.line.pass = [])
    (hlist : s.line.list = []) (hbody : e.body = .masks m) (hslot : s.slotOf m.periph = some e.slot)
    (habsent : s.slotPresent e.slot = false) : Completes .lineIdle s [] fun t => t.line.queue = [] ∧ t.line.trans = none ∧
      t.line.dropped = upto16 s.line.dropped 1 ∧
      t.line.maskRec m.periph = { s.line.maskRec m.periph with held := none, push := true } := by
  refine lineIdle_completes hrun htrans hasm fun u hline hu => ?_
  have htables : u.tables = s.tables := hu .tables (by decide)
  have hslots : u.slot e.slot = s.slot e.slot := slot_congr (by rw [hline]) _
  have hperiph : ∀ v : State, v.tables = u.tables → v.periphAt e.slot = some m.periph := fun v hv =>
    periphAt_slotOf ((slotOf_congr (hv.trans htables) _).trans hslot)
  let w : State := countDropped { u with line.queue := [] }
  have hreturn : returnCmd .dropped e { u with line.queue := [] } = masksDropped e.slot m.periph w := by
    have hnothing : NothingWaits { u with line.queue := [] } := by
      unfold NothingWaits
      rw [hline]
      exact hwaits
    rw [returnCmd_masks hnothing hbody]
    exact if_pos (hperiph w rfl)
  have hgone : Alters [.maskRecs] w (masksDropped e.slot m.periph w) := modMaskRec_alters _ _ w
  obtain ⟨hq, -⟩ := hgone .cmdQueue (by decide)
  have hp : (masksDropped e.slot m.periph w).line.pass = [] := (hgone .passQueue (by decide)).trans (by
    show u.line.pass = []
    rw [hline]; exact hpass)
  obtain ⟨-, hl, -⟩ := hgone .ring (by decide)
  rw [chooseNext_dropped (by rw [hline]; exact hqueue) (by unfold State.slotPresent; rw [hslots]; exact habsent), hreturn,
    chooseNext_empty hq, choose_none hp (hl.trans (by show u.line.list = []; rw [hline]; exact hlist))]
  have ht : (masksDropped e.slot m.periph w).line.trans = none := (hgone .trans (by decide)).trans (by
    show u.line.trans = none
    rw [hline]; exact htrans)
  obtain ⟨-, -, -, -, -, hd⟩ := hgone .lineCounts (by decide)
  refine ⟨hq, ht, hd.trans ?_, ?_⟩
  · show upto16 u.line.dropped 1 = _
    rw [hline]
  · refine (maskRec_modMaskRec _ _ w).trans ?_
    have hrec : w.line.maskRec m.periph = s.line.maskRec m.periph := by
      show ({ u.line with queue := [], dropped := _ } : Line).maskRec m.periph = _
      rw [hline]
      cases m.periph <;> rfl
    rw [hrec]
    have hnone : w.line.unsentMasks e.slot = none := rfl
    rw [hnone, Option.isNone_none, Bool.or_true]

end Sys2Proof.Machine
end

