-- ==== Sys2Proof/Proofs/CommandFlights.lean ====
section
/-! O29: the outcomes of a command in flight (R135, R138, R153, R154, R156). -/

/- One lemma after another, to keep the memory of a compile small. -/
set_option Elab.async false

namespace Sys2Proof.Machine

/-! ### The command in flight, at the head of its queue -/

section
variable {e : Cmd} {rest : List Cmd} {u : State} (hqueue : u.line.queue = e :: rest) (hfly : e.inFlight = true)
include hqueue hfly

theorem flying_head : u.line.flying = some e := by
  unfold Line.flying
  rw [hqueue]
  exact List.find?_cons_of_pos hfly

variable (hrest : ∀ y ∈ rest, y.inFlight = false)
include hrest

theorem returnFlying_head (r : CmdReturn) : returnFlying r u = returnCmd r e { u with line.queue := rest } := by
  have hfilter : (e :: rest).filter (fun x => !x.inFlight) = rest := by
    rw [List.filter_cons_of_neg (by simp [hfly]), List.filter_eq_self.2 fun y hy => by simp [hrest y hy]]
  unfold returnFlying
  rw [flying_head hqueue hfly]
  dsimp only
  rw [hqueue, hfilter]

theorem marked_head : (u.line.queue.map fun x => if x.inFlight then { x with inFlight := false, mark := true } else x) =
    { e with inFlight := false, mark := true } :: rest := by
  rw [hqueue, List.map_cons, if_pos hfly]
  refine congrArg _ ((List.map_congr_left fun y hy => ?_).trans (List.map_id rest))
  rw [hrest y hy]
  rfl

/-- A newer MASKS for the slot is one that is not in flight. -/
theorem unsentMasks_head {a : Nat} :
    (u.line.unsentMasks a).isSome = true ↔ ∃ y ∈ rest, y.isMasks = true ∧ y.slot = a := by
  have hunsent {y : Cmd} : y.isUnsentMasks a = true ↔ y.isMasks = true ∧ y.slot = a ∧ y.inFlight = false := by
    unfold Cmd.isUnsentMasks Cmd.isMasks
    cases y.body <;> simp
  unfold Line.unsentMasks
  rw [hqueue, List.find?_isSome]
  constructor
  · rintro ⟨y, hy, hmasks⟩
    obtain ⟨h1, h2, h3⟩ := hunsent.1 hmasks
    rcases List.mem_cons.1 hy with rfl | hy
    · rw [hfly] at h3
      exact absurd h3.symm Bool.false_ne_true
    · exact ⟨y, hy, h1, h2⟩
  · rintro ⟨y, hy, h1, h2⟩
    exact ⟨y, List.mem_cons_of_mem _ hy, hunsent.2 ⟨h1, h2, hrest y hy⟩⟩

end

theorem unsentMasks_rest {rest : List Cmd} {u : State} (hqueue : u.line.queue = rest)
    (hrest : ∀ y ∈ rest, y.inFlight = false) {a : Nat} :
    (u.line.unsentMasks a).isSome = true ↔ ∃ y ∈ rest, y.isMasks = true ∧ y.slot = a := by
  have hunsent {y : Cmd} (hy : y ∈ rest) : y.isUnsentMasks a = true ↔ y.isMasks = true ∧ y.slot = a := by
    unfold Cmd.isUnsentMasks Cmd.isMasks
    have := hrest y hy
    cases y.body <;> simp [this]
  unfold Line.unsentMasks
  rw [hqueue, List.find?_isSome]
  exact ⟨fun ⟨y, hy, h⟩ => ⟨y, hy, (hunsent hy).1 h⟩, fun ⟨y, hy, h⟩ => ⟨y, hy, (hunsent hy).2 h⟩⟩

/-! ### The state a command's return is taken in -/

/-- A flight that has ended with its slot's record up to date: the line is in no transaction, and the queue, the mask
records and the dropped count stand as before. -/
structure Landed (a : Nat) (s w : State) : Prop where
  frame : Alters heardParts s w
  trans : w.line.trans = none
  busy : w.line.idle = false
  present : (w.slot a).state = .present
  dropped : w.line.dropped = s.line.dropped

section
variable {x : Trans} {s : State}

theorem modSlot_present {a : Nat} {w : State} (hlow : 1 ≤ a) (hhigh : a ≤ 8) (hpresent : (w.slot a).state = .present)
    (hlen : w.line.slots.length = 8) {f : Slot → Slot} (hstate : ∀ r : Slot, r.state = .present → (f r).state = .present) :
    ((modSlot a f w).slot a).state = .present := by
  rw [slot_modSlot hlow hhigh hlen]
  exact hstate _ hpresent

variable (htrans : s.line.trans = some x)
include htrans

theorem countNoisy_dropped (n : Nat) : (countNoisy n s).line.dropped = s.line.dropped := by
  rw [countNoisy_trans htrans]
  rfl

variable (hlen : s.line.slots.length = 8) (hlow : 1 ≤ x.slot) (hhigh : x.slot ≤ 8)
include hlen hlow hhigh

theorem noisy_length (n : Nat) : (countNoisy n s).line.slots.length = 8 :=
  (slotHeard_countNoisy htrans hlow hhigh hlen n).length.trans hlen

variable (hpresent : (s.slot x.slot).state = .present)

/-- The reply: the slot's record takes it (R142). -/
theorem landed_replied : Landed x.slot s (present x.slot s) where
  frame := present_alters x.slot s
  trans := rfl
  busy := rfl
  present := by
    have hlen' : (heard s).line.slots.length = 8 := noisy_length htrans hlen hlow hhigh 0
    rw [show present x.slot s = modSlot x.slot _ (heard s) from rfl, slot_modSlot hlow hhigh hlen']
  dropped := countNoisy_dropped htrans 0

include hpresent

theorem noisy_present (n : Nat) : ((countNoisy n s).slot x.slot).state = .present :=
  (slotHeard_countNoisy htrans hlow hhigh hlen n).state.trans hpresent

/-- The line and the slot's record after contention (R135). -/
def contended (a n : Nat) (s : State) : State :=
  modSlot a (fun r => { r with contention := upto16 r.contention 1 }) (leaveTrans false (countNoisy n s))

theorem landed_contended (n : Nat) : Landed x.slot s (contended x.slot n s) where
  frame := ((countNoisy_alters n s).seq (rs := heardParts) (leaveTrans_alters _ _)).seq (modSlot_alters _ _ _)
  trans := rfl
  busy := rfl
  present := modSlot_present (w := leaveTrans false (countNoisy n s)) hlow hhigh
    (noisy_present htrans hlen hlow hhigh hpresent n) (noisy_length htrans hlen hlow hhigh n) fun _ h => h
  dropped := countNoisy_dropped htrans n

/-- The line and the slot's record after a reply cut short that leaves the slot PRESENT (R132, R142). -/
def cutReply (a n : Nat) (s : State) : State :=
  modSlot a (fun r => { r with missed := satAdd 255 r.missed 1 })
    (leaveTrans false { countTruncated (countNoisy n s) with line.assembling := false })

theorem landed_cutReply (n : Nat) : Landed x.slot s (cutReply x.slot n s) where
  frame := by
    have hcount := (countNoisy_alters n s).seq (rs := heardParts) (countTruncated_alters _)
    have hset : Alters [.receiver] (countTruncated (countNoisy n s))
        { countTruncated (countNoisy n s) with line.assembling := false } := by
      intro p hp; cases p <;> simp_all [Part.same]
    exact ((hcount.seq (rs := heardParts) hset).seq (rs := heardParts) (leaveTrans_alters _ _)).seq (modSlot_alters _ _ _)
  trans := rfl
  busy := rfl
  present := modSlot_present (w := leaveTrans false { countTruncated (countNoisy n s) with line.assembling := false }) hlow hhigh
    (noisy_present htrans hlen hlow hhigh hpresent n) (noisy_length htrans hlen hlow hhigh n) fun _ h => h
  dropped := countNoisy_dropped htrans n

end

/-! ### The commands that end a flight (R132, R135, R136) -/

section
variable {x : Trans} {e : Cmd} {rest : List Cmd} {s : State} (hrun : s.phase = .run) (hf : Flies x e rest s)
include hf

theorem landed_queue {a : Nat} {w : State} (hw : Landed a s w) : w.line.queue = e :: rest :=
  (hw.frame .cmdQueue (by decide)).1.trans hf.queue

theorem contention_cmd {n : Nat} (hstage : x.stage = .sending) : exec (.contention n) s =
    .next (finish (contendCmd e (contended x.slot n s))) := by
  have hqueue : (contended x.slot n s).line.queue = e :: rest := by
    have hframe : Alters heardParts s (contended x.slot n s) :=
      ((countNoisy_alters n s).seq (rs := heardParts) (leaveTrans_alters _ _)).seq (modSlot_alters _ _ _)
    exact (hframe .cmdQueue (by decide)).1.trans hf.queue
  have hcontend : contend x (countNoisy n s) = contendCmd e (contended x.slot n s) := by
    have hfly := flying_head hqueue hf.flying
    unfold contend
    rw [hf.body, hf.fresh]
    show (match (contended x.slot n s).line.flying with
      | some e => contendCmd e (contended x.slot n s) | none => contended x.slot n s) = _
    rw [hfly]
  exact next_finish ((contentionSeen_sending hf.trans hstage n).trans hcontend)

include hrun

theorem reply_cmd (hlow : 1 ≤ x.slot) (hhigh : x.slot ≤ 8) (hlen : s.line.slots.length = 8)
    (hpresent : (s.slot x.slot).state = .present) (hdriver : s.line.driver = false) (hasm : s.line.assembling = true) :
    exec (.lineFrameComplete (clean (lineFrame x.slot (x.body.kind + 0x80) []))) s =
      .next (finish (returnFlying .acknowledged (present x.slot s))) := by
  have hk : x.body.kind + 0x80 < 256 := by
    rw [hf.body]
    cases e.body <;> simp [TransBody.kind]
  have hread := readFrame_lineFrame (p := []) hlow hhigh hk (by simp)
  have htrans' : (countNoisy 0 s).line.trans = some x := (countNoisy_trans_kept 0).trans hf.trans
  have hslot : ((heard s).slot x.slot).state = .present := noisy_present hf.trans hlen hlow hhigh hpresent 0
  have hreplied : slotReplied x.slot (heard s) = present x.slot s := if_pos hslot
  have hend : endTrans x (.replied []) (countNoisy 0 s) = returnFlying .acknowledged (slotReplied x.slot (heard s)) := by
    unfold endTrans heldOutcome handOn
    rw [hf.body, hf.fresh]
    rfl
  have hseen : lineFrameSeen (clean (lineFrame x.slot (x.body.kind + 0x80) [])) s =
      returnFlying .acknowledged (present x.slot s) := by
    rw [← hreplied, ← hend]
    unfold lineFrameSeen
    rw [hasm, if_pos rfl, hread, noisyCount_clean]
    simp only [htrans', if_true]
    rw [if_pos ⟨trivial, trivial⟩]
  exact next_finish ((whenListening_of_run hrun hdriver).trans hseen)

theorem cutReply_cmd {n : Nat} (hlow : 1 ≤ x.slot) (hhigh : x.slot ≤ 8) (hlen : s.line.slots.length = 8)
    (hmissed : (s.slot x.slot).missed < 2) (hdriver : s.line.driver = false) (hasm : s.line.assembling = true) :
    exec (.lineTruncatedFrame n) s = .next (finish (returnFlying .notAcknowledged (cutReply x.slot n s))) := by
  have hheard := slotHeard_countNoisy hf.trans hlow hhigh hlen n
  have hasm' : (countNoisy n s).line.assembling = true := (countNoisy_alters n s .receiver (by decide)).1.trans hasm
  have htrans' : (countTruncated (countNoisy n s)).line.trans = some x := (countNoisy_trans_kept n).trans hf.trans
  let v : State := leaveTrans false { countTruncated (countNoisy n s) with line.assembling := false }
  have hkept : slotMissed x.slot v = cutReply x.slot n s := by
    refine slotMissed_kept fun hlost => ?_
    have hsame : (v.slot x.slot).missed = (s.slot x.slot).missed := hheard.missed
    omega
  have hend : endTrans x .badReply { countTruncated (countNoisy n s) with line.assembling := false } =
      returnFlying .notAcknowledged (slotMissed x.slot v) := by
    unfold endTrans heldOutcome handOn
    rw [hf.body, hf.fresh]
    rfl
  have hseen : lineTruncatedSeen (countNoisy n s) = returnFlying .notAcknowledged (cutReply x.slot n s) := by
    rw [lineTruncatedSeen_frame hasm', discardFrame_trans htrans', hend, hkept]
  exact next_finish ((whenListening_of_run hrun hdriver).trans hseen)

end

/-- A flight that has ended: the queue and the dropped count are those its command's return leaves, and no escrow record
changes. -/
theorem lands {c : Instr} {a : Nat} {s w u : State} {q : List Cmd} {d : Nat} {good : State → Prop} (hrun : s.phase = .run)
    (hexec : exec c s = .next (finish u)) (hw : Landed a s w) (hu : Alters [.cmdQueue, .lineCounts, .maskRecs] w u)
    (hqueue : u.line.queue = q) (hdropped : u.line.dropped = d) (hgood : ∀ t, t.line = u.line → good t) :
    Completes c s lineParts fun t => t.line.trans = none ∧ t.line.queue = q ∧ t.line.dropped = d ∧
      t.credit.escrow = s.credit.escrow ∧ good t := by
  have hsu := hw.frame.seq (rs := lineParts) hu
  have htrans : u.line.trans = none := (hu .trans (by decide)).trans hw.trans
  obtain ⟨-, hidle, -⟩ := hu .receiver (by decide)
  have hphase : u.phase = .run := (hsu .phase (by decide)).trans hrun
  have hescrow : u.credit.escrow = s.credit.escrow := (hu .escrow (by decide)).trans (hw.frame .escrow (by decide))
  have hline := finish_line hphase (.inl (hidle.trans hw.busy))
  refine completes_ends hexec hrun hsu (by decide) fun hends => ?_
  rw [hline]
  exact ⟨htrans, hqueue, hdropped, (hends.frame .escrow (by decide)).trans hescrow, hgood _ hline⟩

end Sys2Proof.Machine
end

