-- ==== Sys2Proof/Proofs/CommandOutcomes.lean ====
section
/-! O29: what each outcome of a MASKS or ESCROW command leaves (R135, R138, R153, R154, R156). -/

/- One lemma after another, to keep the memory of a compile small. -/
set_option Elab.async false

namespace Sys2Proof.Machine

theorem maskRec_congr {s t : State} (h : Part.maskRecs.same s t) (p : Periph) : t.line.maskRec p = s.line.maskRec p := by
  obtain ⟨hvalidator, hreader⟩ := h
  cases p
  · exact hvalidator
  · exact hreader

theorem maskRec_push {s : State} (h : NothingWaits s) (p : Periph) : (s.line.maskRec p).push = false := by
  obtain ⟨hvalidator, hreader, -⟩ := h
  cases p
  · exact hvalidator
  · exact hreader

/-- A MASKS for the slot among entries not in flight. -/
def Newer (rest : List Cmd) (a : Nat) : Prop := ∃ y ∈ rest, y.isMasks = true ∧ y.slot = a

/-- A command placed again. -/
def again (a : Nat) (b : CmdBody) : Cmd := { slot := a, body := b, mark := false, inFlight := false }

section
variable {x : Trans} {e : Cmd} {rest : List Cmd} {s w : State} (hf : Flies x e rest s) (hw : Landed x.slot s w)
include hf hw

theorem contendCmd_drops (h : e.mark = true ∨ e.isMasks = true ∧ Newer rest x.slot) :
    contendCmd e w = returnFlying .dropped w := by
  refine if_pos ?_
  rcases h with h | ⟨hmasks, hnewer⟩
  · simp [h]
  · rw [hmasks, hf.slot, (unsentMasks_head (landed_queue hf hw) hf.flying hf.unsent).2 hnewer, Bool.and_true, Bool.or_true]

theorem contendCmd_marks (hmark : e.mark = false) (h : ¬(e.isMasks = true ∧ Newer rest x.slot)) :
    contendCmd e w = { w with line.queue := { e with inFlight := false, mark := true } :: rest } := by
  have hnot : ¬(e.mark || (e.isMasks && (w.line.unsentMasks e.slot).isSome)) = true := by
    rw [hmark, Bool.false_or, Bool.and_eq_true, hf.slot, unsentMasks_head (landed_queue hf hw) hf.flying hf.unsent]
    exact h
  refine (if_neg hnot).trans ?_
  rw [marked_head (landed_queue hf hw) hf.flying hf.unsent]

variable (hwaits : NothingWaits s)
include hwaits

/-- The command in flight has left the queue. -/
theorem returnFlying_landed (r : CmdReturn) : returnFlying r w = returnCmd r e { w with line.queue := rest } ∧
    NothingWaits { w with line.queue := rest } := by
  obtain ⟨hvalidator, hreader⟩ := hw.frame .maskRecs (by decide)
  obtain ⟨-, hback⟩ := hw.frame .cmdQueue (by decide)
  obtain ⟨h1, h2, h3⟩ := hwaits
  refine ⟨returnFlying_head (landed_queue hf hw) hf.flying hf.unsent r, ?_, ?_, hback.trans h3⟩
  · exact (congrArg MaskRec.push hvalidator).trans h1
  · exact (congrArg MaskRec.push hreader).trans h2

theorem returnFlying_masks {m : Masks} (hbody : e.body = .masks m) (r : CmdReturn) : returnFlying r w =
    masksReturn r x.slot m (if r = .dropped then countDropped { w with line.queue := rest } else { w with line.queue := rest }) := by
  obtain ⟨hreturn, hnothing⟩ := returnFlying_landed hf hw hwaits r
  rw [hreturn, returnCmd_masks hnothing hbody, hf.slot]

theorem returnFlying_escrow {d : Decision} {k : Nat} {tracked : Bool} (hbody : e.body = .escrow d k tracked) (r : CmdReturn) :
    returnFlying r w = escrowReturn r d k tracked
      (if r = .dropped then countDropped { w with line.queue := rest } else { w with line.queue := rest }) := by
  obtain ⟨hreturn, hnothing⟩ := returnFlying_landed hf hw hwaits r
  rw [hreturn, returnCmd_escrow hnothing hbody]

end

/-! ### MASKS (R153, R154) -/

section
variable {a : Nat} {m : Masks} {v : State} (hslot : v.slotOf m.periph = some a)
include hslot

theorem masksReturn_acknowledged : masksReturn .acknowledged a m v = modMaskRec m.periph (fun x => { x with held := some m }) v :=
  if_pos (periphAt_slotOf hslot)

theorem masksReturn_dropped : masksReturn .dropped a m v = masksDropped a m.periph v :=
  if_pos (periphAt_slotOf hslot)

theorem masksReturn_notAcknowledged (hpresent : v.slotPresent a = true) : masksReturn .notAcknowledged a m v =
    compareMasks m.periph (modMaskRec m.periph (fun x => { x with held := none }) v) := by
  have hpresent' : (modMaskRec m.periph (fun x => { x with held := none }) v).slotPresent a = true := by
    unfold State.slotPresent
    rw [slot_congr (modMaskRec_alters _ _ v .slots (by decide))]
    exact hpresent
  exact (if_pos (periphAt_slotOf hslot)).trans (if_pos hpresent')

end

/-- Current masks that no entry carries are queued last (R153). -/
theorem compareMasks_queues {a : Nat} {p : Periph} {v : State} (hslot : v.slotOf p = some a)
    (hfresh : ∀ y ∈ v.line.queue, y.inFlight = false) (hnone : ¬Newer v.line.queue a) (hroom : v.line.queue.length ≤ 3)
    (hheld : (v.line.maskRec p).held = none) : compareMasks p v = modMaskRec p (fun r => { r with push := false })
      { v with line.queue := v.line.queue ++ [again a (.masks (v.line.maskRec p).current)] } := by
  have hunsent : v.line.unsentMasks a = none := by
    rw [← Option.not_isSome_iff_eq_none, unsentMasks_rest rfl hfresh]
    exact hnone
  have hfind : (v.line.queue.find? fun e => e.isMasks && e.slot == a) = none := by
    rw [List.find?_eq_none]
    intro y hy hmasks
    rw [Bool.and_eq_true, beq_iff_eq] at hmasks
    exact hnone ⟨y, hy, hmasks⟩
  have htarget : v.line.target a p = none := by
    unfold Line.target
    rw [hunsent, hfind]
    exact hheld
  unfold compareMasks
  rw [hslot]
  refine (if_neg ?_).trans ?_
  · rw [htarget]
    exact (Option.some_ne_none _).symm
  · unfold enqueueMasks
    rw [hunsent]
    refine (if_neg Bool.false_ne_true).trans (if_pos ?_)
    exact Nat.lt_succ_of_le hroom

section
variable {x : Trans} {e : Cmd} {rest : List Cmd} {s w : State} {m : Masks} (hf : Flies x e rest s)
  (hwaits : NothingWaits s) (hw : Landed x.slot s w) (hbody : e.body = .masks m) (hslot : s.slotOf m.periph = some x.slot)
include hf hwaits hw hbody hslot

/-- What a MASKS command's return leaves of the line, and of the peripheral's mask record. -/
def MasksBack (p : Periph) (w u : State) (q : List Cmd) (d : Nat) (r : MaskRec) : Prop :=
  Alters [.cmdQueue, .lineCounts, .maskRecs] w u ∧ u.line.queue = q ∧ u.line.dropped = d ∧ u.line.maskRec p = r

theorem masks_acknowledged : MasksBack m.periph w (returnFlying .acknowledged w) rest s.line.dropped
    { s.line.maskRec m.periph with held := some m } := by
  have hslot' : ({ w with line.queue := rest } : State).slotOf m.periph = some x.slot :=
    (slotOf_congr (hw.frame .tables (by decide)) _).trans hslot
  have hframe := returnFlying_alters .acknowledged w
  rw [returnFlying_masks hf hw hwaits hbody, if_neg (by decide), masksReturn_acknowledged hslot'] at hframe ⊢
  have hrec := modMaskRec_alters m.periph (fun x => { x with held := some m }) { w with line.queue := rest }
  refine ⟨hframe, (hrec .cmdQueue (by decide)).1, ?_, ?_⟩
  · obtain ⟨-, -, -, -, -, hdropped⟩ := hrec .lineCounts (by decide)
    exact hdropped.trans hw.dropped
  · rw [maskRec_modMaskRec, ← maskRec_congr (hw.frame .maskRecs (by decide)) m.periph]
    cases m.periph <;> rfl

theorem masks_resent (hnone : ¬Newer rest x.slot) : MasksBack m.periph w (returnFlying .notAcknowledged w)
    (rest ++ [again x.slot (.masks (s.line.maskRec m.periph).current)]) s.line.dropped
    { s.line.maskRec m.periph with held := none } := by
  let v : State := { w with line.queue := rest }
  have hslot' : v.slotOf m.periph = some x.slot := (slotOf_congr (hw.frame .tables (by decide)) _).trans hslot
  have hpresent : v.slotPresent x.slot = true := by
    unfold State.slotPresent
    rw [show v.slot x.slot = w.slot x.slot from rfl, hw.present]
    rfl
  have hunknown := modMaskRec_alters m.periph (fun x => { x with held := none }) v
  have hqueue : (modMaskRec m.periph (fun x => { x with held := none }) v).line.queue = rest := (hunknown .cmdQueue (by decide)).1
  have hrec : (modMaskRec m.periph (fun x => { x with held := none }) v).line.maskRec m.periph =
      { s.line.maskRec m.periph with held := none } := by
    rw [maskRec_modMaskRec, ← maskRec_congr (hw.frame .maskRecs (by decide)) m.periph]
    cases m.periph <;> rfl
  have hframe := returnFlying_alters .notAcknowledged w
  rw [returnFlying_masks hf hw hwaits hbody, if_neg (by decide), masksReturn_notAcknowledged hslot' hpresent,
    compareMasks_queues ((slotOf_congr (hunknown .tables (by decide)) _).trans hslot') (by rw [hqueue]; exact hf.unsent)
      (by rw [hqueue]; exact hnone) (by rw [hqueue]; exact hf.room) (by rw [hrec]), hqueue, hrec] at hframe ⊢
  generalize hy : ({ modMaskRec m.periph (fun x => { x with held := none }) v with
    line.queue := rest ++ [again x.slot (.masks (s.line.maskRec m.periph).current)] } : State) = y at hframe ⊢
  have hpush := modMaskRec_alters m.periph (fun r => { r with push := false }) y
  refine ⟨hframe, (hpush .cmdQueue (by decide)).1.trans (by rw [← hy]), ?_, ?_⟩
  · obtain ⟨-, -, -, -, -, h1⟩ := hpush .lineCounts (by decide)
    obtain ⟨-, -, -, -, -, h2⟩ := hunknown .lineCounts (by decide)
    refine h1.trans (Eq.trans ?_ (h2.trans hw.dropped))
    rw [← hy]
  · have hrec' : y.line.maskRec m.periph = { s.line.maskRec m.periph with held := none } := by
      rw [← hy, ← hrec]
      cases m.periph <;> rfl
    rw [maskRec_modMaskRec, hrec']
    exact congrArg (fun b => ({ s.line.maskRec m.periph with held := none, push := b } : MaskRec))
      (maskRec_push hwaits m.periph).symm

theorem masks_dropped {push : Bool} (hpush : push = false ↔ Newer rest x.slot) : MasksBack m.periph w (returnFlying .dropped w)
    rest (upto16 s.line.dropped 1) { s.line.maskRec m.periph with held := none, push := push } := by
  let v : State := countDropped { w with line.queue := rest }
  have hslot' : v.slotOf m.periph = some x.slot := (slotOf_congr (hw.frame .tables (by decide)) _).trans hslot
  have hframe := returnFlying_alters .dropped w
  rw [returnFlying_masks hf hw hwaits hbody, if_pos rfl, masksReturn_dropped hslot'] at hframe ⊢
  have hgone : Alters [.maskRecs] v (masksDropped x.slot m.periph v) := modMaskRec_alters _ _ v
  have hunsent : (v.line.unsentMasks x.slot).isNone = push := by
    have hiff := unsentMasks_rest (u := v) (a := x.slot) rfl hf.unsent
    rw [← Option.isNone_eq_false_iff] at hiff
    cases push with
    | false => exact hiff.2 (hpush.1 rfl)
    | true => exact Bool.not_eq_false _ |>.mp fun h => absurd (hpush.2 (hiff.1 h)).symm Bool.false_ne_true
  refine ⟨hframe, (hgone .cmdQueue (by decide)).1, ?_, ?_⟩
  · obtain ⟨-, -, -, -, -, hdropped⟩ := hgone .lineCounts (by decide)
    exact hdropped.trans (congrArg (fun n => upto16 n 1) hw.dropped)
  · have hrec : v.line.maskRec m.periph = s.line.maskRec m.periph := by
      rw [← maskRec_congr (hw.frame .maskRecs (by decide)) m.periph]
      cases m.periph <;> rfl
    refine (maskRec_modMaskRec _ _ v).trans ?_
    rw [hrec, hunsent, maskRec_push hwaits, Bool.false_or]

end

/-! ### ESCROW (R156) -/

section
variable {x : Trans} {e : Cmd} {rest : List Cmd} {s w : State} {d : Decision} {k : Nat} {tracked : Bool}
  (hf : Flies x e rest s) (hw : Landed x.slot s w) (hbody : e.body = .escrow d k tracked)
  (hslot : s.slotOf .reader = some x.slot)

/-- The queue with a tracked command placed again while its escrow record stands (R156). -/
def resent (e : Cmd) (a : Nat) (rest : List Cmd) (d : Decision) (k : Nat) (tracked : Bool) (s : State) : List Cmd :=
  if tracked = true ∧ escrowMatches d k s = true then insertEscrow (again a e.body) rest else rest

/-- What an ESCROW command's return leaves of the line; the mask records stay. -/
def EscrowBack (w u : State) (q : List Cmd) (n : Nat) : Prop :=
  Alters [.cmdQueue, .lineCounts] w u ∧ u.line.queue = q ∧ u.line.dropped = n

include hf hw hbody

theorem escrow_acknowledged (hwaits : NothingWaits s) : EscrowBack w (returnFlying .acknowledged w) rest s.line.dropped := by
  rw [returnFlying_escrow hf hw hwaits hbody, if_neg (by decide)]
  exact ⟨(queue_alters _ w).mono, rfl, hw.dropped⟩

include hslot

theorem escrowReturn_resends {r : CmdReturn} (hr : r ≠ .acknowledged) {v : State} (hvw : Alters [.cmdQueue, .lineCounts] w v)
    (hqueue : v.line.queue = rest) : EscrowBack w (escrowReturn r d k tracked v) (resent e x.slot rest d k tracked s) v.line.dropped := by
  have hslot' : v.slotOf .reader = some x.slot :=
    (slotOf_congr ((hvw .tables (by decide)).trans (hw.frame .tables (by decide))) _).trans hslot
  have hpresent : v.periphPresent .reader = true := by
    unfold State.periphPresent
    rw [hslot']
    show v.slotPresent x.slot = true
    unfold State.slotPresent
    rw [slot_congr (hvw .slots (by decide)), hw.present]
    rfl
  have hescrow : v.credit.escrow = s.credit.escrow := (hvw .escrow (by decide)).trans (hw.frame .escrow (by decide))
  have hmay : mayResend d k v = escrowMatches d k s := by
    unfold mayResend escrowMatches
    rw [hpresent, hescrow, Bool.and_true]
  have hreturn : escrowReturn r d k tracked v = if (tracked && escrowMatches d k s) = true then placeEscrow d k true v else v := by
    rw [← hmay]
    cases r with
    | acknowledged => exact absurd rfl hr
    | notAcknowledged => rfl
    | dropped => rfl
  rw [hreturn, resent]
  by_cases hsend : tracked = true ∧ escrowMatches d k s = true
  · obtain ⟨htracked, hmatch⟩ := hsend
    rw [htracked] at hbody
    rw [htracked, hmatch, if_pos (show (true && true) = true from rfl), if_pos ⟨rfl, rfl⟩, hbody,
      placeEscrow_queued hslot' (by rw [hqueue]; exact Nat.lt_succ_of_le hf.room), hqueue]
    exact ⟨hvw.seq (queue_alters _ v), rfl, rfl⟩
  · rw [if_neg hsend, if_neg (by simpa using hsend)]
    exact ⟨hvw, hqueue, rfl⟩

theorem escrow_notAcknowledged (hwaits : NothingWaits s) : EscrowBack w (returnFlying .notAcknowledged w) (resent e x.slot rest d k tracked s)
    s.line.dropped := by
  rw [returnFlying_escrow hf hw hwaits hbody, if_neg (by decide)]
  have hback := escrowReturn_resends hf hw hbody hslot (r := .notAcknowledged) (by decide)
    (v := { w with line.queue := rest }) (queue_alters _ w).mono rfl
  rwa [show ({ w with line.queue := rest } : State).line.dropped = s.line.dropped from hw.dropped] at hback

theorem escrow_dropped (hwaits : NothingWaits s) : EscrowBack w (returnFlying .dropped w) (resent e x.slot rest d k tracked s)
    (upto16 s.line.dropped 1) := by
  rw [returnFlying_escrow hf hw hwaits hbody, if_pos rfl]
  have hback := escrowReturn_resends hf hw hbody hslot (r := .dropped) (by decide)
    (v := countDropped { w with line.queue := rest }) ((queue_alters _ w).seq (countDropped_alters _)) rfl
  rwa [show (countDropped { w with line.queue := rest }).line.dropped = upto16 s.line.dropped 1 from
    congrArg (fun n => upto16 n 1) hw.dropped] at hback

end

/-! ### The obligation -/

section
variable {x : Trans} {s : State} (hrun : s.phase = .run)
include hrun

/-- A MASKS command's flight ends as its return says. -/
theorem masks_land {c : Instr} {w u : State} {p : Periph} {q : List Cmd} {d : Nat} {r : MaskRec}
    (hexec : exec c s = .next (finish u)) (hw : Landed x.slot s w) (hback : MasksBack p w u q d r) :
    Completes c s lineParts fun t => t.line.trans = none ∧ t.line.queue = q ∧ t.line.dropped = d ∧
      t.credit.escrow = s.credit.escrow ∧ t.line.maskRec p = r := by
  obtain ⟨hu, hq, hd, hr⟩ := hback
  refine lands hrun hexec hw hu hq hd fun t ht => ?_
  rw [ht]
  exact hr

/-- An ESCROW command's flight ends as its return says. -/
theorem escrow_lands {c : Instr} {w u : State} {q : List Cmd} {d : Nat} (hexec : exec c s = .next (finish u))
    (hw : Landed x.slot s w) (hback : EscrowBack w u q d) :
    Completes c s lineParts fun t => t.line.trans = none ∧ t.line.queue = q ∧ t.line.dropped = d ∧
      t.credit.escrow = s.credit.escrow ∧ t.line.validator = s.line.validator ∧ t.line.reader = s.line.reader := by
  obtain ⟨hu, hq, hd⟩ := hback
  refine lands hrun hexec hw hu.mono hq hd fun t ht => ?_
  obtain ⟨hvalidator, hreader⟩ := hu .maskRecs (by decide)
  obtain ⟨hvalidator', hreader'⟩ := hw.frame .maskRecs (by decide)
  rw [ht]
  exact ⟨hvalidator.trans hvalidator', hreader.trans hreader'⟩

end

section
variable {x : Trans} {e : Cmd} {rest : List Cmd} {s : State} (hrun : s.phase = .run) (hlen : s.line.slots.length = 8)
  (hf : Flies x e rest s) (hlow : 1 ≤ x.slot) (hhigh : x.slot ≤ 8) (hpresent : (s.slot x.slot).state = .present)
include hrun hlen hf hlow hhigh hpresent

/-- A first contention puts the command back at the head, marked (R135). -/
theorem contention_marks (n : Nat) (hstage : x.stage = .sending) (hmark : e.mark = false)
    (h : ¬(e.isMasks = true ∧ Newer rest x.slot)) : Completes (.contention n) s lineParts fun t =>
      t.line.trans = none ∧ t.line.queue = { e with inFlight := false, mark := true } :: rest ∧
      t.line.dropped = s.line.dropped ∧ t.credit.escrow = s.credit.escrow ∧
      t.line.validator = s.line.validator ∧ t.line.reader = s.line.reader := by
  have hw := landed_contended hf.trans hlen hlow hhigh hpresent n
  have hexec := contention_cmd hf (n := n) hstage
  rw [contendCmd_marks hf hw hmark h] at hexec
  refine lands hrun hexec hw (queue_alters _ _).mono rfl hw.dropped fun t ht => ?_
  rw [ht]
  exact hw.frame .maskRecs (by decide)

end

/-- Settles O29. -/
theorem passesQueueLatchesClearAndCommandsReturn : Obligations.PassesQueueLatchesClearAndCommandsReturn := by
  refine ⟨fun slot kind tag payload s hs => ?_, fun slot s hs => ⟨fun hhigh => ?_, fun hslot => ?_⟩,
    fun e m s hrun htrans hasm hwaits hqueue hpass hlist hbody hslot habsent =>
      masks_undelivered hrun htrans hasm hwaits hqueue hpass hlist hbody hslot habsent,
    fun n x e rest s hrun hlen hf hwaits hlow hhigh hpresent => ?_⟩
  · have hgate : (Request.pass slot kind tag payload).gated = true → s.lock.state ≠ .locked := fun h => nomatch h
    have htables : (received (.pass slot kind tag payload) s).tables = s.tables :=
      received_alters _ s .tables (by decide)
    refine ⟨fun hlow hhigh hkind hk hk' hp ht => ⟨fun hroom => ?_, fun hfull => ?_⟩, fun hbad => ?_⟩
    · have hserve := servePass_fits (v := received (.pass slot kind tag payload) s) hlow hhigh (by rw [htables]; exact hkind) hk hk' hp ht
      rw [if_neg (by rw [received_pass]; omega)] at hserve
      exact pass_queued hs hserve
    · have hserve := servePass_fits (v := received (.pass slot kind tag payload) s) hlow hhigh (by rw [htables]; exact hkind) hk hk' hp ht
      rw [if_pos (by rw [received_pass]; exact hfull)] at hserve
      exact refuses_served (r := .pass slot kind tag payload) rfl hs hgate hserve
    · exact refuses_served (r := .pass slot kind tag payload) rfl hs hgate (servePass_refused (v := received (.pass slot kind tag payload) s) (by rw [htables]; exact hbad))
  · exact refuses_served (r := .clearFaults slot) rfl hs (fun h => nomatch h) (if_pos hhigh)
  · have hline : (received (.clearFaults slot) s).line = s.line := received_pass _ s
    refine ⟨latchCount slot (received (.clearFaults slot) s), replies_served (r := .clearFaults slot) rfl hs (fun h => nomatch h)
      (x := (clearLatches slot (received (.clearFaults slot) s), .done,
        char (latchCount slot (received (.clearFaults slot) s)))) (if_neg (Nat.not_lt.2 hslot))
      (clearLatches_alters slot _).mono (.inr (by decide)) (by decide) fun t ht => ⟨?_, fun a ha _ => ?_⟩⟩
    · rw [latchCount_eq]
      simp only [State.slot, hline]
    · rw [slot_congr (ht.frame .slots (by decide)), clearLatches_slot _ ha, slot_congr (congrArg Line.slots hline)]
  · refine ⟨fun hstage hmark h => contention_marks hrun hlen hf hlow hhigh hpresent n hstage hmark h,
      fun m hbody hslot => ⟨fun ⟨hstage, hdriver, hasm⟩ => ?_, fun ⟨hstage, hdriver, hasm⟩ hnone hmissed => ?_,
        fun hstage hnone hmark => ?_, fun hstage hnewer => ?_⟩,
      fun d k tracked hbody hslot => ⟨fun ⟨hstage, hdriver, hasm⟩ => ?_, fun ⟨hstage, hdriver, hasm⟩ hmissed => ?_,
        fun hstage hmark => ?_⟩⟩
    · exact masks_land hrun (reply_cmd hrun hf hlow hhigh hlen hpresent hdriver hasm)
        (landed_replied hf.trans hlen hlow hhigh)
        (masks_acknowledged hf hwaits (landed_replied hf.trans hlen hlow hhigh) hbody hslot)
    · have hw := landed_cutReply hf.trans hlen hlow hhigh hpresent n
      exact masks_land hrun (cutReply_cmd hrun hf hlow hhigh hlen hmissed hdriver hasm) hw
        (masks_resent hf hwaits hw hbody hslot hnone)
    · have hw := landed_contended hf.trans hlen hlow hhigh hpresent n
      have hexec := contention_cmd hf (n := n) hstage
      rw [contendCmd_drops hf hw (.inl hmark)] at hexec
      exact masks_land hrun hexec hw
        (masks_dropped hf hwaits hw hbody hslot (push := true) ⟨fun h => absurd h.symm Bool.false_ne_true, fun h => absurd h hnone⟩)
    · have hw := landed_contended hf.trans hlen hlow hhigh hpresent n
      have hexec := contention_cmd hf (n := n) hstage
      have hmasks : e.isMasks = true := by
        unfold Cmd.isMasks
        rw [hbody]
      rw [contendCmd_drops hf hw (.inr ⟨hmasks, hnewer⟩)] at hexec
      have hback := masks_dropped hf hwaits hw hbody hslot (push := false) ⟨fun _ => hnewer, fun _ => rfl⟩
      have hkept : ({ s.line.maskRec m.periph with held := none, push := false } : MaskRec) =
          { s.line.maskRec m.periph with held := none } :=
        congrArg (fun b => ({ s.line.maskRec m.periph with held := none, push := b } : MaskRec)) (maskRec_push hwaits _).symm
      rw [hkept] at hback
      exact masks_land hrun hexec hw hback
    · exact escrow_lands hrun (reply_cmd hrun hf hlow hhigh hlen hpresent hdriver hasm)
        (landed_replied hf.trans hlen hlow hhigh)
        (escrow_acknowledged hf (landed_replied hf.trans hlen hlow hhigh) hbody hwaits)
    · have hw := landed_cutReply hf.trans hlen hlow hhigh hpresent n
      exact escrow_lands hrun (cutReply_cmd hrun hf hlow hhigh hlen hmissed hdriver hasm) hw
        (escrow_notAcknowledged hf hw hbody hslot hwaits)
    · have hw := landed_contended hf.trans hlen hlow hhigh hpresent n
      have hexec := contention_cmd hf (n := n) hstage
      rw [contendCmd_drops hf hw (.inl hmark)] at hexec
      exact escrow_lands hrun hexec hw (escrow_dropped hf hw hbody hslot hwaits)

end Sys2Proof.Machine
end

