-- ==== Sys2Proof/Proofs/SectionLoads.lean ====
section
/-! O26: a Load Table Section as a whole: its checks in order, its records in turn, and the write it asks for (R28, R62,
R123, R167, R186). -/

/- One lemma after another, to keep the memory of a compile small. -/
set_option Elab.async false

namespace Sys2Proof.Machine

/-! ### The section (R167) -/

section
variable {table first count : Nat} {records : List Byte} {v : State}

theorem loadSection_unfit (h : sectionFits table first count records = false) :
    loadSection table first count records v = .error .badArgument := if_pos (by rw [h]; rfl)

variable (hfits : sectionFits table first count records = true)
include hfits

theorem loadSection_code (h : ∃ r ∈ sectionRecords table count records, codesListed table r = false) :
    loadSection table first count records v = .error .badArgument := by
  obtain ⟨r, hr, hcode⟩ := h
  have hall : (sectionRecords table count records).all (codesListed table) = false :=
    List.all_eq_false.2 ⟨r, hr, by rw [hcode]; exact Bool.false_ne_true⟩
  exact (if_neg (by rw [hfits]; exact Bool.false_ne_true)).trans (if_pos (by rw [hall]; rfl))

variable (hcodes : ∀ r ∈ sectionRecords table count records, codesListed table r = true)
include hcodes

theorem loadSection_listed : loadSection table first count records v = if tableBusy table v then .error .busy else
    loadAll (recordStep table) first (sectionRecords table count records) 0 0 v >>= fun x =>
      .ok (tablesChanged (afterSection table x.1), x.2.1, x.2.2) := by
  have hall : (sectionRecords table count records).all (codesListed table) = true := List.all_eq_true.2 hcodes
  refine (if_neg (by rw [hfits]; exact Bool.false_ne_true)).trans ((if_neg (by rw [hall]; exact Bool.false_ne_true)).trans ?_)
  split
  · rfl
  · cases loadAll (recordStep table) first (sectionRecords table count records) 0 0 v <;> rfl

theorem loadSection_busy (hbusy : tableBusy table v = true) : loadSection table first count records v = .error .busy := by
  rw [loadSection_listed hfits hcodes, if_pos hbusy]

theorem loadSection_error (hbusy : tableBusy table v = false) {e : ReplyCode}
    (h : loadAll (recordStep table) first (sectionRecords table count records) 0 0 v = .error e) :
    loadSection table first count records v = .error e := by
  rw [loadSection_listed hfits hcodes, hbusy, if_neg Bool.false_ne_true, h]
  rfl

theorem loadSection_ok (hbusy : tableBusy table v = false) {u : State} {c m : Nat}
    (h : loadAll (recordStep table) first (sectionRecords table count records) 0 0 v = .ok (u, c, m)) :
    loadSection table first count records v = .ok (tablesChanged (afterSection table u), c, m) := by
  rw [loadSection_listed hfits hcodes, hbusy, if_neg Bool.false_ne_true, h]
  rfl

end

/-! ### The request (R163, R167) -/

theorem received_load (table first count : Nat) (records : List Byte) (s : State) :
    received (.load table first count records) s = s.asServed := rfl

theorem asServed_alters (s : State) : Alters [.linkRate, .staging, .tag, .marks] s s.asServed :=
  received_alters (.load 0 0 0 []) s

theorem tableBusy_asServed (table : Nat) (s : State) : tableBusy table s.asServed = tableBusy table s := by
  obtain ⟨x, g, hshape, -⟩ := received_shape (.load 0 0 0 []) s
  rw [← received_load 0 0 0 [] s, hshape]
  rfl

section
variable {table first count : Nat} {records : List Byte} {s : State} (hs : Ready s) (hu : unlocked s)
include hs hu

theorem section_refused {e : ReplyCode} (h : loadSection table first count records s.asServed = .error e) :
    Refuses (.loadTableSection table first count records) s 0x89 e [] := by
  refine refuses_served (r := .load table first count records) rfl hs (fun _ => hu) ?_
  show serveLoad table first count records s.asServed = _
  unfold serveLoad
  rw [h]
  rfl

/-- A section that is applied, with the parts its records and its follow-on change. -/
theorem section_applied {w : State} {c m : Nat} {parts : List Part}
    (h : loadSection table first count records s.asServed = .ok (tablesChanged w, c, m)) (hw : Alters parts s.asServed w)
    (hphase : .phase ∉ parts) {good : State → Prop} (hgood : ∀ t, Ends (tablesChanged w) t → good t) :
    Replies (.loadTableSection table first count records) s 0x89 .done (char c ++ char m)
      (.tag :: .storeDefaults :: .store :: parts) good := by
  have hx : serveOwner (.load table first count records) (received (.load table first count records) s) =
      (tablesChanged w, .done, char c ++ char m) := by
    show serveLoad table first count records s.asServed = _
    unfold serveLoad
    rw [h]
  refine replies_served (r := .load table first count records) rfl hs (fun _ => hu) hx ?_ (.inr (by simp)) ?_ hgood
  · exact (hw.seq (tablesChanged_alters w) (rs := .storeDefaults :: .store :: parts) (by simp +contextual)
      (by simp)).mono (by simp +contextual)
  · simpa using hphase

end

/-- The store after a change of the tables (R123, R167). -/
theorem tablesChanged_store (w : State) : (tablesChanged w).storeDefaults = false ∧
    (w.store.tableWriting.isSome = true → (tablesChanged w).store = { w.store with tableWaiting := true }) ∧
    (w.store.tableWriting = none → (tablesChanged w).store = { w.store with
      tableWaiting := false, tableWriting := some (nextWrite w.store.tableA w.store.tableB w.tables) }) := by
  unfold tablesChanged askTableWrite
  refine ⟨?_, fun h => ?_, fun h => ?_⟩
  · split <;> rfl
  · rw [if_pos (show ({ w with storeDefaults := false } : State).store.tableWriting.isSome = true from h)]
  · rw [if_neg (show ¬({ w with storeDefaults := false } : State).store.tableWriting.isSome = true by
      show ¬w.store.tableWriting.isSome = true
      rw [h]
      exact Bool.false_ne_true)]
    rfl

/-- Settles O26. -/
theorem tableSectionIsAppliedWholeOrNotAtAll : Obligations.TableSectionIsAppliedWholeOrNotAtAll := by
  refine fun table first count records s hs hu => ⟨fun hunfit => section_refused hs hu (loadSection_unfit hunfit),
    fun hfits hcode => section_refused hs hu (loadSection_code hfits hcode), fun hfits hcodes =>
      ⟨fun hbusy => section_refused hs hu (loadSection_busy hfits hcodes (by rwa [tableBusy_asServed])),
        fun hfree => ⟨fun e he => section_refused hs hu
            (loadSection_error hfits hcodes (by rwa [tableBusy_asServed]) he), fun u c m hok => ?_⟩⟩⟩
  have hload := loadSection_ok hfits hcodes (by rwa [tableBusy_asServed]) hok
  have hrecords : Alters tableParts s.asServed u :=
    loadAll_alters tableParts (recordStep table) (loadRecord_alters table) _ _ _ _ _ _ hok
  have hw := hrecords.trans (afterSection_alters table u)
  have hstore : (afterSection table u).store = s.store := (hw .store (by decide)).trans (asServed_alters s .store (by decide))
  refine section_applied hs hu hload hw (by decide) fun t ht => ?_
  obtain ⟨hdefaults, hwaiting, hwriting⟩ := tablesChanged_store (afterSection table u)
  have htables : t.tables = (afterSection table u).tables :=
    (ht.frame .tables (by decide)).trans (tablesChanged_alters _ .tables (by decide))
  have hstore' := ht.frame .store (by decide)
  refine ⟨htables, (ht.frame .storeDefaults (by decide)).trans hdefaults, fun h => ?_, fun h => ?_⟩
  · rw [← hstore]
    exact hstore'.trans (hwaiting (by rw [hstore]; exact h))
  · rw [← hstore, htables]
    exact hstore'.trans (hwriting (by rw [hstore]; exact h))

end Sys2Proof.Machine
end

