-- ==== Sys2Proof/Proofs/LoadedRecords.lean ====
section
/-! O27: sections of one record, and the fields a loaded record holds to their ranges (R2, R3, R28, R29, R69, R92, R97,
R101, R116, R151, R166, R186). -/

/- One lemma after another, to keep the memory of a compile small. -/
set_option Elab.async false

namespace Sys2Proof.Machine

/-! ### A section of one record (R167) -/

/-- A section of one whole record of a table. -/
structure OneRecord (table first : Nat) (bytes : List Byte) : Prop where
  loadable : isLoadable table = true
  length : bytes.length = recordSize table
  first : first < recordCount table

theorem loadAll_one_error {step : Nat → List Byte → State → Loaded} {i : Nat} {r : List Byte} {s : State} {e : ReplyCode}
    (h : step i r s = .error e) : loadAll step i [r] 0 0 s = .error e := by
  simp only [loadAll, h]

theorem loadAll_one_ok {step : Nat → List Byte → State → Loaded} {i : Nat} {r : List Byte} {s u : State} {c m : Nat}
    (h : step i r s = .ok (u, c, m)) : loadAll step i [r] 0 0 s = .ok (u, c, m) := by
  simp only [loadAll, h, Nat.zero_add]

section
variable {table first : Nat} {bytes : List Byte} (hone : OneRecord table first bytes)
include hone

theorem OneRecord.fits : sectionFits table first 1 bytes = true := by
  obtain ⟨hload, hlen, hfirst⟩ := hone
  simp only [sectionFits, hload, hlen]
  simp
  omega

theorem OneRecord.records : sectionRecords table 1 bytes = [bytes] :=
  congrArg (· :: []) (List.take_of_length_le hone.length.le)

theorem OneRecord.listed (h : codesListed table bytes = true) :
    ∀ r ∈ sectionRecords table 1 bytes, codesListed table r = true := by
  rw [hone.records]
  exact fun r hr => by rwa [List.mem_singleton.1 hr]

variable {s : State} (hs : Ready s) (hu : unlocked s)
include hs hu

theorem OneRecord.code_refused (h : codesListed table bytes = false) :
    Refuses (.loadTableSection table first 1 bytes) s 0x89 .badArgument [] :=
  section_refused hs hu (loadSection_code hone.fits ⟨bytes, by rw [hone.records]; exact .head _, h⟩)

theorem OneRecord.busy (h : codesListed table bytes = true) (hbusy : tableBusy table s = true) :
    Refuses (.loadTableSection table first 1 bytes) s 0x89 .busy [] :=
  section_refused hs hu (loadSection_busy hone.fits (hone.listed h) (by rwa [tableBusy_asServed]))

theorem OneRecord.error (h : codesListed table bytes = true) (hfree : tableBusy table s = false) {e : ReplyCode}
    (hstep : recordStep table first bytes s.asServed = .error e) :
    Refuses (.loadTableSection table first 1 bytes) s 0x89 e [] :=
  section_refused hs hu (loadSection_error hone.fits (hone.listed h) (by rwa [tableBusy_asServed])
    (by rw [hone.records]; exact loadAll_one_error hstep))

/-- A record refused for its contents, whatever its codes. -/
theorem OneRecord.bad (hfree : tableBusy table s = false)
    (hstep : recordStep table first bytes s.asServed = .error .badArgument) :
    Refuses (.loadTableSection table first 1 bytes) s 0x89 .badArgument [] := by
  cases h : codesListed table bytes with
  | false => exact hone.code_refused hs hu h
  | true => exact hone.error hs hu h hfree hstep

/-- A record that is applied, with the parts it and the section's follow-on change. -/
theorem OneRecord.applied (h : codesListed table bytes = true) (hfree : tableBusy table s = false) {u : State} {c m : Nat}
    (hstep : recordStep table first bytes s.asServed = .ok (u, c, m)) {parts : List Part}
    (hparts : Alters parts s.asServed (afterSection table u)) (hphase : .phase ∉ parts) {good : State → Prop}
    (hgood : ∀ t, Ends (tablesChanged (afterSection table u)) t → good t) :
    Replies (.loadTableSection table first 1 bytes) s 0x89 .done (char c ++ char m)
      (.tag :: .storeDefaults :: .store :: parts) good :=
  section_applied hs hu (loadSection_ok hone.fits (hone.listed h) (by rwa [tableBusy_asServed])
    (by rw [hone.records]; exact loadAll_one_ok hstep)) hparts hphase hgood

theorem OneRecord.loads (h : codesListed table bytes = true) (hfree : tableBusy table s = false) {u : State}
    {clamps : List Nat} (hstep : recordStep table first bytes s.asServed = .ok (u, clamps.sum, 0)) {good : State → Prop}
    (hgood : ∀ t, Ends (tablesChanged (afterSection table u)) t → t.tables = u.tables → good t) :
    Replies (.loadTableSection table first 1 bytes) s 0x89 .done (char clamps.sum ++ char 0) (.tag :: loadParts) good := by
  refine hone.applied hs hu h hfree hstep
    ((loadRecord_alters _ _ _ _ _ hstep).trans (afterSection_alters table u)) (by decide) fun t ht => hgood t ht ?_
  have hset : (tablesChanged (afterSection table u)).tables = u.tables :=
    (tablesChanged_alters _ .tables (by decide)).trans (afterSection_alters_parts table u .tables (by decide))
  exact (ht.frame .tables (by decide)).trans hset

/-- A record of which the tables are all that changes, before the section's follow-on. -/
theorem OneRecord.loads_tables (h : codesListed table bytes = true) (hfree : tableBusy table s = false)
    (f : Tables → Tables) {clamps : List Nat} {n : Nat} (hstep : recordStep table first bytes s.asServed =
      .ok ({ s.asServed with tables := f s.asServed.tables }, n, 0)) (hsum : clamps.sum = n) :
    Replies (.loadTableSection table first 1 bytes) s 0x89 .done (char clamps.sum ++ char 0) (.tag :: loadParts)
      fun t => t.tables = f s.tables := by
  subst hsum
  refine hone.loads hs hu h hfree hstep fun t _ ht => ht.trans ?_
  exact congrArg f (asServed_alters s .tables (by decide))

end

/-! ### Coded fields, numbers and lists (R186) -/

theorem updAt_eq_set {α : Type} (l : List α) (n : Nat) (x : α) : updAt l n (fun _ => x) = l.set n x := by
  induction l generalizing n with
  | nil => rfl
  | cons y l ih =>
    cases n with
    | zero => rfl
    | succ n => exact congrArg (y :: ·) (ih n)

theorem num_eq_iff (b c : Byte) : num b = c.toNat ↔ b = c := ⟨BitVec.eq_of_toNat_eq, congrArg BitVec.toNat⟩

theorem num_beq_one (b : Byte) : (num b == 1) = (b == 1) :=
  Bool.eq_iff_iff.2 (by rw [beq_iff_eq, beq_iff_eq]; exact num_eq_iff b 1)

/-- A character reaches no bound above 255. -/
theorem clampNat_byte (lo : Nat) (b : Byte) : clampNat lo 255 b.toNat = max lo b.toNat := by
  have hb := b.isLt
  unfold clampNat
  omega

/-- A flag of a record that is listed is 0 or 1. -/
theorem notBadFlag (b : Byte) : (!badFlag (num b)) = decide (b.toNat ≤ 1) := by
  show (!decide (1 < b.toNat)) = _
  rw [← decide_not]
  exact decide_eq_decide.2 Nat.not_lt

theorem sum_two (a b : Nat) : [a, b].sum = a + b := by rw [List.sum_cons, List.sum_singleton]

theorem sum_three (a b c : Nat) : [a, b, c].sum = a + b + c := by rw [List.sum_cons, sum_two, Nat.add_assoc]

theorem sum_four (a b c d : Nat) : [a, b, c, d].sum = a + b + c + d := by
  rw [List.sum_cons, sum_three, Nat.add_assoc a b c, Nat.add_assoc a (b + c) d]

theorem sum_six (a b c d e f : Nat) : [a, b, c, d, e, f].sum = a + b + c + d + e + f := by
  rw [List.sum_cons, List.sum_cons, sum_four, ← Nat.add_assoc, ← Nat.add_assoc, ← Nat.add_assoc, ← Nat.add_assoc]

theorem codesListed_two (a b : Byte) : ((!badFlag (num a)) && !badFlag (num b)) = true ↔ a.toNat ≤ 1 ∧ b.toNat ≤ 1 := by
  simp only [notBadFlag, Bool.and_eq_true, decide_eq_true_eq]

end Sys2Proof.Machine
end

