-- ==== Sys2Proof/Proofs/LoadedFields.lean ====
section
/-! O27: the records of ten tables, each with its checks, its fields as held and its clamps (R2, R3, R28, R29, R69, R92,
R97, R101, R116, R151, R166). -/

/- One lemma after another, to keep the memory of a compile small. -/
set_option Elab.async false

namespace Sys2Proof.Machine

/-- A record is applied with these clamps, and leaves these tables. -/
def RecordLoads (s : State) (table first : Nat) (bytes : List Byte) (clamps : List Nat) (tables : Tables) : Prop :=
  Replies (.loadTableSection table first 1 bytes) s 0x89 .done (char clamps.sum ++ char 0) (.tag :: loadParts)
    fun t => t.tables = tables

/-- A record is refused with nothing changed. -/
def RecordRefused (s : State) (table first : Nat) (bytes : List Byte) (e : ReplyCode) : Prop :=
  Refuses (.loadTableSection table first 1 bytes) s 0x89 e []

/-! ### The checks of the records (R28, R186) -/

theorem driveRecord_listed {d a x l w h j : Byte} : codesListed 6 [d, a, x, l, w, h, j] = true ↔
    d.toNat ≤ 1 ∧ a.toNat ≤ 1 := codesListed_two d a

theorem noteRecord_listed {h l e : Byte} : codesListed 3 [h, l, e] = true ↔ e.toNat ≤ 1 := by
  show (!badFlag (num e)) = true ↔ _
  rw [notBadFlag, decide_eq_true_eq]

theorem coinRecord_listed {h l e n : Byte} : codesListed 1 [h, l, e, n] = true ↔
    e.toNat ≤ 1 ∧ (n.toNat ≤ 5 ∨ n = 0xFF) := by
  show (!badFlag (num e) && (decide (num n ≤ 5) || num n == 0xFF)) = true ↔ _
  rw [notBadFlag, Bool.and_eq_true, Bool.or_eq_true, decide_eq_true_eq, decide_eq_true_eq, beq_iff_eq]
  exact and_congr_right fun _ => or_congr_right (num_eq_iff n 0xFF)

theorem coinTubeField_asServed (s : State) (k n : Nat) : coinTubeField s.asServed k n = coinTubeField s k n := by
  have htables : s.asServed.tables = s.tables := asServed_alters s .tables (by decide)
  unfold coinTubeField
  rw [htables]

theorem coinTubeField_none {s : State} {k : Nat} {n : Byte} (hn : n ≠ 0xFF)
    (hpays : ¬(n.toNat ≤ 5 ∧ (s.tables.tube n.toNat).coinType = k)) : coinTubeField s k (num n) = none :=
  (if_neg fun h => hn ((num_eq_iff n 0xFF).1 h)).trans (if_neg hpays)

theorem coinTubeField_some {s : State} {k : Nat} {n : Byte}
    (hn : n = 0xFF ∨ (n.toNat ≤ 5 ∧ (s.tables.tube n.toNat).coinType = k)) :
    coinTubeField s k (num n) = some (if n = 0xFF then none else some n.toNat) := by
  by_cases h : n = 0xFF
  · subst h
    rfl
  · rw [if_neg h]
    exact (if_neg fun hff => h ((num_eq_iff n 0xFF).1 hff)).trans (if_pos (hn.resolve_left h))

section
variable {s : State} (hs : Ready s) (hu : unlocked s)
include hs hu

/-! ### Records without a check -/

theorem pointRecord_loads {k : Nat} (h l : Byte) (hk : k ≤ 16) : RecordLoads s 7 k [h, l]
    [clampedI (int2 h l) (max (-400) (min 800 (int2 h l)))]
    { s.tables with curve := s.tables.curve.set k (max (-400) (min 800 (int2 h l))) } := by
  rw [← updAt_eq_set]
  exact (⟨rfl, rfl, Nat.lt_succ_of_le hk⟩ : OneRecord 7 k [h, l]).loads_tables hs hu rfl rfl
    (fun t => { t with curve := updAt t.curve k fun _ => max (-400) (min 800 (int2 h l)) }) rfl (List.sum_singleton ..)

theorem zoneRecord_loads {z : Nat} (sh sl d hh hl n e : Byte) (hz : z ≤ 1) :
    RecordLoads s 8 z [sh, sl, d, hh, hl, n, e]
      [clampedI (int2 sh sl) (max (-50) (min 200 (int2 sh sl))), clampedN d.toNat (max 5 (min 100 d.toNat)),
        clampedI (int2 hh hl) (max (-50) (min 250 (int2 hh hl))), clampedN e.toNat (min 80 e.toNat)]
      { s.tables with zones := s.tables.zones.set z {
          setpoint := max (-50) (min 200 (int2 sh sl)), differential := max 5 (min 100 d.toNat),
          holdLimit := max (-50) (min 250 (int2 hh hl)), holdTimeN := n.toNat, economyOffset := min 80 e.toNat } } := by
  rw [← updAt_eq_set]
  exact (⟨rfl, rfl, Nat.lt_succ_of_le hz⟩ : OneRecord 8 z _).loads_tables hs hu rfl rfl
    (fun t => { t with zones := updAt t.zones z fun _ =>
        { setpoint := max (-50) (min 200 (int2 sh sl)), differential := max 5 (min 100 d.toNat),
          holdLimit := max (-50) (min 250 (int2 hh hl)), holdTimeN := n.toNat, economyOffset := min 80 e.toNat } }) rfl
    (sum_four _ _ _ _)

theorem refrigRecord_loads (off run surge every h l long drip : Byte) :
    RecordLoads s 9 0 [off, run, surge, every, h, l, long, drip] [clampedI (int2 h l) (max 0 (min 300 (int2 h l)))]
      { s.tables with refrig := {
          minOffN := off.toNat, minRunN := run.toNat, surgeN := surge.toNat, defrostIntervalN := every.toNat,
          defrostEndTemp := max 0 (min 300 (int2 h l)), maxDefrostN := long.toNat, dripN := drip.toNat } } :=
  (⟨rfl, rfl, Nat.zero_lt_one⟩ : OneRecord 9 0 _).loads_tables hs hu rfl rfl
    (fun t => { t with refrig := {
        minOffN := off.toNat, minRunN := run.toNat, surgeN := surge.toNat, defrostIntervalN := every.toNat,
        defrostEndTemp := max 0 (min 300 (int2 h l)), maxDefrostN := long.toNat, dripN := drip.toNat } })
    rfl (List.sum_singleton ..)

theorem linkRecord_loads (b : Byte) : RecordLoads s 13 0 [b] [clampedN b.toNat (min 59 b.toNat)]
    { s.tables with silenceN := min 59 b.toNat } :=
  (⟨rfl, rfl, Nat.zero_lt_one⟩ : OneRecord 13 0 _).loads_tables hs hu rfl rfl
    (fun t => { t with silenceN := min 59 b.toNat }) rfl (List.sum_singleton ..)

/-! ### Records with flags -/

theorem driveRecord_refused {d a : Byte} (x l w h j : Byte) (hbad : 1 < d.toNat ∨ 1 < a.toNat) :
    RecordRefused s 6 0 [d, a, x, l, w, h, j] .badArgument := by
  refine (⟨rfl, rfl, Nat.zero_lt_one⟩ : OneRecord 6 0 _).code_refused hs hu (Bool.eq_false_iff.2 fun hlisted => ?_)
  obtain ⟨hd, ha⟩ := driveRecord_listed.1 hlisted
  omega

theorem driveRecord_loads {d a : Byte} (x l w h j : Byte) (hd : d.toNat ≤ 1) (ha : a.toNat ≤ 1) :
    RecordLoads s 6 0 [d, a, x, l, w, h, j]
      [clampedN x.toNat (min 3 x.toNat), clampedN l.toNat (max 9 l.toNat),
        clampedN (num2 h j) (max 500 (min 4000 (num2 h j)))]
      { s.tables with drive := {
          dropConfirm := d == 1, autoNext := a == 1, extraRevs := min 3 x.toNat, revLimitN := max 9 l.toNat,
          dropTailN := w.toNat, jamThreshold := max 500 (min 4000 (num2 h j)) } } := by
  rw [← num_beq_one d, ← num_beq_one a]
  exact (⟨rfl, rfl, Nat.zero_lt_one⟩ : OneRecord 6 0 _).loads_tables hs hu (driveRecord_listed.2 ⟨hd, ha⟩) rfl
    (fun t => { t with drive := {
        dropConfirm := num d == 1, autoNext := num a == 1, extraRevs := min 3 x.toNat, revLimitN := max 9 l.toNat,
        dropTailN := w.toNat, jamThreshold := max 500 (min 4000 (num2 h j)) } })
    rfl (sum_three _ _ _)

theorem noteRecord_refused {k : Nat} (h l : Byte) {e : Byte} (hk : k ≤ 7) (hbad : 1 < e.toNat) :
    RecordRefused s 3 k [h, l, e] .badArgument :=
  (⟨rfl, rfl, Nat.lt_succ_of_le hk⟩ : OneRecord 3 k _).code_refused hs hu
    (Bool.eq_false_iff.2 fun hlisted => absurd (noteRecord_listed.1 hlisted) (by omega))

theorem noteRecord_busy {k : Nat} (h l : Byte) {e : Byte} (hk : k ≤ 7) (he : e.toNat ≤ 1)
    (hescrow : s.credit.escrow.isSome = true) : RecordRefused s 3 k [h, l, e] .busy :=
  (⟨rfl, rfl, Nat.lt_succ_of_le hk⟩ : OneRecord 3 k _).busy hs hu (noteRecord_listed.2 he) hescrow

theorem noteRecord_loads {k : Nat} (h l : Byte) {e : Byte} (hk : k ≤ 7) (he : e.toNat ≤ 1)
    (hescrow : s.credit.escrow = none) : RecordLoads s 3 k [h, l, e] [clampedN (num2 h l) (max 1 (num2 h l))]
      { s.tables with notes := s.tables.notes.set k { value := max 1 (num2 h l), accept := e == 1 } } := by
  rw [← num_beq_one e, ← updAt_eq_set]
  exact (⟨rfl, rfl, Nat.lt_succ_of_le hk⟩ : OneRecord 3 k _).loads_tables hs hu (noteRecord_listed.2 he)
    (congrArg Option.isSome hescrow)
    (fun t => { t with notes := updAt t.notes k fun _ => { value := max 1 (num2 h l), accept := num e == 1 } })
    rfl (List.sum_singleton ..)

/-! ### Coin records (R28) -/

theorem coinRecord_refused {k : Nat} (h l : Byte) {e n : Byte} (hk : k ≤ 15)
    (hbad : ¬(e.toNat ≤ 1 ∧ (n.toNat ≤ 5 ∨ n = 0xFF))) : RecordRefused s 1 k [h, l, e, n] .badArgument :=
  (⟨rfl, rfl, Nat.lt_succ_of_le hk⟩ : OneRecord 1 k _).code_refused hs hu
    (Bool.eq_false_iff.2 fun hlisted => hbad (coinRecord_listed.1 hlisted))

theorem coinRecord_busy {k : Nat} (h l : Byte) {e n : Byte} (hk : k ≤ 15)
    (hlisted : e.toNat ≤ 1 ∧ (n.toNat ≤ 5 ∨ n = 0xFF)) (hsale : s.credit.sale = .payout) :
    RecordRefused s 1 k [h, l, e, n] .busy :=
  (⟨rfl, rfl, Nat.lt_succ_of_le hk⟩ : OneRecord 1 k _).busy hs hu (coinRecord_listed.2 hlisted)
    (beq_iff_eq.2 hsale)

theorem coinRecord_unpaired {k : Nat} (h l e : Byte) {n : Byte} (hk : k ≤ 15) (hsale : s.credit.sale ≠ .payout)
    (hn : n ≠ 0xFF) (hpays : ¬(n.toNat ≤ 5 ∧ (s.tables.tube n.toNat).coinType = k)) :
    RecordRefused s 1 k [h, l, e, n] .badArgument := by
  refine (⟨rfl, rfl, Nat.lt_succ_of_le hk⟩ : OneRecord 1 k _).bad hs hu (beq_eq_false_iff_ne.2 hsale) ?_
  show loadCoin k [h, l, e, n] s.asServed = _
  have hfield := (coinTubeField_asServed s k (num n)).trans (coinTubeField_none hn hpays)
  unfold loadCoin
  rw [show at1 [h, l, e, n] 3 = num n from rfl, hfield]

theorem coinRecord_loads {k : Nat} (h l : Byte) {e n : Byte} (hk : k ≤ 15) (hsale : s.credit.sale ≠ .payout)
    (he : e.toNat ≤ 1) (hn : n = 0xFF ∨ (n.toNat ≤ 5 ∧ (s.tables.tube n.toNat).coinType = k)) :
    RecordLoads s 1 k [h, l, e, n] [clampedN (num2 h l) (max 1 (num2 h l))]
      { s.tables with coins := s.tables.coins.set k {
          value := max 1 (num2 h l), accept := e == 1, tube := if n = 0xFF then none else some n.toNat } } := by
  rw [← num_beq_one e, ← updAt_eq_set]
  refine (⟨rfl, rfl, Nat.lt_succ_of_le hk⟩ : OneRecord 1 k _).loads_tables hs hu
    (coinRecord_listed.2 ⟨he, hn.symm.imp And.left id⟩) (beq_eq_false_iff_ne.2 hsale)
    (fun t => { t with coins := updAt t.coins k fun _ => {
        value := max 1 (num2 h l), accept := num e == 1, tube := if n = 0xFF then none else some n.toNat } })
    ?_ (List.sum_singleton ..)
  show loadCoin k [h, l, e, n] s.asServed = _
  have hfield := (coinTubeField_asServed s k (num n)).trans (coinTubeField_some hn)
  unfold loadCoin
  rw [show at1 [h, l, e, n] 3 = num n from rfl, hfield]
  rfl

end

end Sys2Proof.Machine
end

