-- ==== Sys2Proof/Proofs/LoadedTables.lean ====
section
/-! O27: the tube, load table and money records, and all ten tables together (R2, R3, R29, R116). -/

/- One lemma after another, to keep the memory of a compile small. -/
set_option Elab.async false

namespace Sys2Proof.Machine

/-! ### Tube records (R29) -/

theorem tubeRecord_listed {k e cap low keep : Byte} : codesListed 2 [k, e, cap, low, keep] = true ↔
    k.toNat ≤ 15 ∧ e.toNat ≤ 1 := by
  show (decide (num k ≤ 15) && !badFlag (num e)) = true ↔ _
  rw [notBadFlag, Bool.and_eq_true, decide_eq_true_eq, decide_eq_true_eq]
  rfl

theorem typeTaken_iff (s : State) (n k : Nat) :
    typeTaken s n k = true ↔ ∃ m < 6, m ≠ n ∧ (s.tables.tube m).coinType = k := by
  simp only [typeTaken, List.any_eq_true, List.mem_range, Bool.and_eq_true, bne_iff_ne, beq_iff_eq]

theorem typeTaken_asServed (s : State) (n k : Nat) : typeTaken s.asServed n k = typeTaken s n k := by
  have htables : s.asServed.tables = s.tables := asServed_alters s .tables (by decide)
  unfold typeTaken
  rw [htables]

section
variable {s : State} (hs : Ready s) (hu : unlocked s) {n : Nat} (hn : n < 6) {k e : Byte} (cap low keep : Byte)
include hs hu hn

theorem tubeRecord_refused (hbad : 15 < k.toNat ∨ 1 < e.toNat) :
    RecordRefused s 2 n [k, e, cap, low, keep] .badArgument := by
  refine (⟨rfl, rfl, hn⟩ : OneRecord 2 n _).code_refused hs hu (Bool.eq_false_iff.2 fun hlisted => ?_)
  obtain ⟨hk, he⟩ := tubeRecord_listed.1 hlisted
  omega

theorem tubeRecord_busy (hk : k.toNat ≤ 15) (he : e.toNat ≤ 1) (hsale : s.credit.sale = .payout) :
    RecordRefused s 2 n [k, e, cap, low, keep] .busy :=
  (⟨rfl, rfl, hn⟩ : OneRecord 2 n _).busy hs hu (tubeRecord_listed.2 ⟨hk, he⟩) (beq_iff_eq.2 hsale)

theorem tubeRecord_taken (hsale : s.credit.sale ≠ .payout)
    (htaken : ∃ m < 6, m ≠ n ∧ (s.tables.tube m).coinType = k.toNat) :
    RecordRefused s 2 n [k, e, cap, low, keep] .badArgument :=
  (⟨rfl, rfl, hn⟩ : OneRecord 2 n _).bad hs hu (beq_eq_false_iff_ne.2 hsale)
    (if_pos ((typeTaken_asServed s n _).trans ((typeTaken_iff s n k.toNat).2 htaken)))

theorem tubeRecord_loads (hk : k.toNat ≤ 15) (he : e.toNat ≤ 1) (hsale : s.credit.sale ≠ .payout)
    (hfree : ¬∃ m < 6, m ≠ n ∧ (s.tables.tube m).coinType = k.toNat) :
    RecordLoads s 2 n [k, e, cap, low, keep]
      [clampedN cap.toNat (max 1 (min 250 cap.toNat)),
        clampedN low.toNat (min (max 1 (min 250 cap.toNat)) low.toNat),
        clampedN keep.toNat (min (max 1 (min 250 cap.toNat)) keep.toNat)]
      { s.tables with
        tubes := s.tables.tubes.set n {
          coinType := k.toNat, enabled := e == 1, capacity := max 1 (min 250 cap.toNat),
          lowMark := min (max 1 (min 250 cap.toNat)) low.toNat, reserve := min (max 1 (min 250 cap.toNat)) keep.toNat },
        coins := if (s.tables.tube n).coinType = k.toNat then s.tables.coins
          else updAt s.tables.coins (s.tables.tube n).coinType fun x =>
            if x.tube = some n then { x with tube := none } else x } := by
  rw [← num_beq_one e, ← updAt_eq_set]
  have htables : s.asServed.tables = s.tables := asServed_alters s .tables (by decide)
  have hstep : recordStep 2 n [k, e, cap, low, keep] s.asServed = .ok (applyTube n {
      coinType := k.toNat, enabled := num e == 1, capacity := max 1 (min 250 cap.toNat),
      lowMark := min (max 1 (min 250 cap.toNat)) low.toNat,
      reserve := min (max 1 (min 250 cap.toNat)) keep.toNat } s.asServed, _, 0) :=
    if_neg fun h => hfree ((typeTaken_iff s n k.toNat).1 ((typeTaken_asServed s n _).symm.trans h))
  rw [show _ + _ + _ = _ from (sum_three _ _ _).symm] at hstep
  refine (⟨rfl, rfl, hn⟩ : OneRecord 2 n _).loads hs hu (tubeRecord_listed.2 ⟨hk, he⟩) (beq_eq_false_iff_ne.2 hsale)
    hstep fun t _ ht => ht.trans ?_
  rw [applyTube_tables, htables]
  unfold coinsAfterTube
  dsimp only
  simp only [eq_comm]

end

/-! ### The load table (R116) -/

/-- A rating held to its range is clamped a second time when it is above the budget. -/
theorem ratingClamps_eq (b x : Nat) : ratingClamps b x =
    clampedN x (max 1 (min 100 x)) + if max 1 (min 100 x) ≤ b then 0 else 1 := by
  unfold ratingClamps ratingOf
  refine congrArg (clampedN x (clampNat 1 100 x) + ·) (if_congr ?_ rfl rfl)
  exact eq_comm.trans min_eq_right_iff

theorem loadsRecord_loads {s : State} (hs : Ready s) (hu : unlocked s) (b p m q r h : Byte)
    (hfree : tableBusy 10 s = false) : RecordLoads s 10 0 [b, p, m, q, r, h]
      [clampedN b.toNat (max 20 b.toNat), ratingClamps (max 20 b.toNat) p.toNat, ratingClamps (max 20 b.toNat) m.toNat,
        ratingClamps (max 20 b.toNat) q.toNat, ratingClamps (max 20 b.toNat) r.toNat,
        ratingClamps (max 20 b.toNat) h.toNat]
      { s.tables with loads := {
          budget := max 20 b.toNat, payout := ratingOf (max 20 b.toNat) p.toNat,
          motor := ratingOf (max 20 b.toNat) m.toNat, compStart := ratingOf (max 20 b.toNat) q.toNat,
          compRun := ratingOf (max 20 b.toNat) r.toNat, heater := ratingOf (max 20 b.toNat) h.toNat } } := by
  rw [← clampNat_byte 20 b]
  have hstep : recordStep 10 0 [b, p, m, q, r, h] s.asServed =
      .ok (budgetChanged { s.asServed with tables.loads := loadTableOf [b, p, m, q, r, h] },
        loadTableClamps [b, p, m, q, r, h], 0) := rfl
  rw [show loadTableClamps [b, p, m, q, r, h] = _ from (sum_six _ _ _ _ _ _).symm] at hstep
  refine (⟨rfl, rfl, Nat.zero_lt_one⟩ : OneRecord 10 0 _).loads hs hu rfl hfree hstep fun t _ ht => ht.trans ?_
  rw [budgetChanged_alters _ .tables (by decide)]
  exact congrArg (fun x : Tables => { x with loads := loadTableOf [b, p, m, q, r, h] })
    (asServed_alters s .tables (by decide))

/-! ### The money parameters (R2, R3) -/

theorem moneyRecord_listed {ch cl p e gh gl xh xl nh nl : Byte} :
    codesListed 0 [ch, cl, p, e, gh, gl, xh, xl, nh, nl] = true ↔ p.toNat ≤ 1 ∧ e.toNat ≤ 1 := codesListed_two p e

/-- The masks are those of the state. -/
def MasksOf (s : State) : Prop :=
  s.change.accept = acceptMask s ∧ s.change.route = routeMask s ∧ s.credit.noteMask = noteMask s

theorem masksOf_recomputeMasks {s : State} (h : s.phase = .run) : MasksOf (recomputeMasks s) := by
  obtain ⟨haccept, hroute, hnote⟩ := recomputeMasks_masks h
  exact ⟨haccept.trans (acceptMask_alters (recomputeMasks_alters s)).symm,
    hroute.trans (routeMask_alters (recomputeMasks_alters s)).symm,
    hnote.trans (noteMask_alters (recomputeMasks_alters s)).symm⟩

/-- What the masks are computed from, and the masks. -/
def maskSources : List Part :=
  [.tables, .tubes, .exact, .amounts, .slots, .linkState, .fill, .coinMasks, .noteMask]

theorem MasksOf.alters {ps : List Part} {s t : State} (hs : MasksOf s) (h : Alters ps s t)
    (hp : Apart maskSources ps := by exact (apart_iff _ _).1 rfl) : MasksOf t := by
  obtain ⟨haccept, hroute, hnote⟩ := hs
  obtain ⟨haccept', hroute'⟩ := h .coinMasks (hp _ (by decide))
  have hsources {qs : List Part} (hq : ∀ q ∈ qs, q ∈ maskSources) : Apart qs ps := fun q hm => hp q (hq q hm)
  refine ⟨?_, ?_, ?_⟩
  · exact (haccept'.trans haccept).trans (acceptMask_alters h (hsources (by decide))).symm
  · exact (hroute'.trans hroute).trans (routeMask_alters h (hsources (by decide))).symm
  · exact ((h .noteMask (hp _ (by decide))).trans hnote).trans (noteMask_alters h (hsources (by decide))).symm

/-- What a money record leaves besides its parameters: EXACT as it was, or evaluated anew, and the masks. -/
structure MoneyTaken (s : State) (m : MoneyParams) (t : State) : Prop where
  kept : m.granularity = s.tables.money.granularity → m.probeCeiling = s.tables.money.probeCeiling →
    t.change.exact = s.change.exact
  evaluated : ¬(m.granularity = s.tables.money.granularity ∧ m.probeCeiling = s.tables.money.probeCeiling) → Exact t
  masks : MasksOf t

theorem moneyTaken_recomputed {r : List Byte} {s : State} (hrun : s.phase = .run) :
    MoneyTaken s (moneyOf r) (recomputeMasks (moneyTaken r s)) := by
  have hexact := recomputeMasks_alters (moneyTaken r s) .exact (by decide)
  refine ⟨fun hg hc => hexact.trans ?_, fun hnew => ?_, masksOf_recomputeMasks ?_⟩
  · rw [moneyTaken, if_pos ⟨hg, hc⟩]
  · rw [moneyTaken, if_neg hnew]
    exact (exact_evalExact _).alters (recomputeMasks_alters _)
  · exact (moneyTaken_alters r s .phase (by decide)).trans hrun

theorem MoneyTaken.alters {ps : List Part} {s u t : State} {m : MoneyParams} (hu : MoneyTaken s m u) (h : Alters ps u t)
    (hp : Apart maskSources ps := by exact (apart_iff _ _).1 rfl) : MoneyTaken s m t :=
  ⟨fun hg hc => (h .exact (hp _ (by decide))).trans (hu.kept hg hc),
    fun hnew => (hu.evaluated hnew).alters h fun q hq => hp q (by revert q; decide), hu.masks.alters h hp⟩

section
variable {s : State} (hs : Ready s) (hu : unlocked s) (ch cl : Byte) {p e : Byte} (gh gl xh xl nh nl : Byte)
include hs hu

theorem moneyRecord_refused (hbad : 1 < p.toNat ∨ 1 < e.toNat) :
    RecordRefused s 0 0 [ch, cl, p, e, gh, gl, xh, xl, nh, nl] .badArgument := by
  refine (⟨rfl, rfl, Nat.zero_lt_one⟩ : OneRecord 0 0 _).code_refused hs hu (Bool.eq_false_iff.2 fun hlisted => ?_)
  obtain ⟨hp, he⟩ := moneyRecord_listed.1 hlisted
  omega

theorem moneyRecord_busy (hp : p.toNat ≤ 1) (he : e.toNat ≤ 1) (hsale : s.credit.sale ≠ .idle) :
    RecordRefused s 0 0 [ch, cl, p, e, gh, gl, xh, xl, nh, nl] .busy :=
  (⟨rfl, rfl, Nat.zero_lt_one⟩ : OneRecord 0 0 _).busy hs hu (moneyRecord_listed.2 ⟨hp, he⟩) (bne_iff_ne.2 hsale)

theorem moneyRecord_loads (hsale : s.credit.sale = .idle) (hp : p.toNat ≤ 1) (he : e.toNat ≤ 1) :
    Replies (.loadTableSection 0 0 1 [ch, cl, p, e, gh, gl, xh, xl, nh, nl]) s 0x89 .done
      (char (clampedN (num2 ch cl) (max 1 (num2 ch cl)) + clampedN (num2 gh gl) (max 1 (num2 gh gl))) ++ char 0)
      (.tag :: loadParts) fun t =>
        t.tables = { s.tables with money := moneyOf [ch, cl, p, e, gh, gl, xh, xl, nh, nl] } ∧
        MoneyTaken s (moneyOf [ch, cl, p, e, gh, gl, xh, xl, nh, nl]) t := by
  have hserved := asServed_alters s
  have htables : s.asServed.tables = s.tables := hserved .tables (by decide)
  have hstep : recordStep 0 0 [ch, cl, p, e, gh, gl, xh, xl, nh, nl] s.asServed = .ok _ := loadMoney_eq 0 _ _
  rw [show clampedN _ _ + clampedN _ _ = _ from (sum_two _ _).symm] at hstep
  rw [← sum_two]
  refine (⟨rfl, rfl, Nat.zero_lt_one⟩ : OneRecord 0 0 _).loads hs hu (moneyRecord_listed.2 ⟨hp, he⟩)
    (bne_eq_false_iff_eq.2 hsale) hstep fun t ht hsame => ⟨hsame.trans ?_, ?_⟩
  · rw [recomputeMasks_alters _ .tables (by decide), moneyTaken_alters _ _ .tables (by decide)]
    exact congrArg (fun x : Tables => { x with money := moneyOf [ch, cl, p, e, gh, gl, xh, xl, nh, nl] }) htables
  · have hend := ((moneyTaken_recomputed (r := [ch, cl, p, e, gh, gl, xh, xl, nh, nl])
      ((hserved .phase (by decide)).trans hs.run)).alters (tablesChanged_alters _)).alters ht.frame
    obtain ⟨hkept, hevaluated, hmasks⟩ := hend
    rw [htables] at hkept hevaluated
    exact ⟨fun hg hc => (hkept hg hc).trans (hserved .exact (by decide)), hevaluated, hmasks⟩

end

end Sys2Proof.Machine
end

