-- ==== Sys2Proof/Proofs/FieldsClamped.lean ====
section
/-! O27: the ten tables' records together (R2, R3, R28, R29, R69, R92, R97, R101, R116, R151, R166). -/

/- One lemma after another, to keep the memory of a compile small. -/
set_option Elab.async false

namespace Sys2Proof.Machine

theorem moneyOf_record (ch cl p e gh gl xh xl nh nl : Byte) : moneyOf [ch, cl, p, e, gh, gl, xh, xl, nh, nl] =
    { ceiling := max 1 (num2 ch cl), policy := if p = 0 then .single else .multi, exactRequired := e == 1,
      granularity := max 1 (num2 gh gl), probeCeiling := num2 xh xl, noteLimit := num2 nh nl } := by
  rw [← num_beq_one e, ← if_congr (num_eq_iff p 0) rfl rfl]
  rfl

/-- The load table as loaded, each rating held to its range and then to the budget. -/
theorem loadsRecord_clamped {s : State} (hs : Ready s) (hu : unlocked s) (b p m q r h : Byte)
    (hfree : tableBusy 10 s = false) :
    let budget := max 20 b.toNat
    let held : Byte → Nat := fun x => max 1 (min 100 x.toNat)
    let clamps : Byte → Nat := fun x => clampedN x.toNat (held x) + if held x ≤ budget then 0 else 1
    RecordLoads s 10 0 [b, p, m, q, r, h]
      [clampedN b.toNat budget, clamps p, clamps m, clamps q, clamps r, clamps h]
      { s.tables with loads := {
          budget := budget, payout := min budget (held p), motor := min budget (held m),
          compStart := min budget (held q), compRun := min budget (held r), heater := min budget (held h) } } := by
  have hloads := loadsRecord_loads hs hu b p m q r h hfree
  rw [ratingClamps_eq, ratingClamps_eq, ratingClamps_eq, ratingClamps_eq, ratingClamps_eq] at hloads
  exact hloads

/-- The money parameters as loaded, with EXACT and the masks after them. -/
theorem moneyRecord_taken {s t : State} {ch cl p e gh gl xh xl nh nl : Byte}
    (htaken : MoneyTaken s (moneyOf [ch, cl, p, e, gh, gl, xh, xl, nh, nl]) t) :
    (s.tables.money.granularity = max 1 (num2 gh gl) ∧ s.tables.money.probeCeiling = num2 xh xl →
      t.change.exact = s.change.exact) ∧
    (s.tables.money.granularity ≠ max 1 (num2 gh gl) ∨ s.tables.money.probeCeiling ≠ num2 xh xl →
      (t.change.exact = true ↔ ∃ k, probeShort t k)) ∧ MasksOf t := by
  obtain ⟨hkept, hevaluated, hmasks⟩ := htaken
  refine ⟨fun ⟨hg, hc⟩ => hkept hg.symm hc.symm, fun hnew => (exact_iff t).1 (hevaluated ?_), hmasks⟩
  rintro ⟨hg, hc⟩
  exact hnew.elim (absurd hg.symm) (absurd hc.symm)

/-- Settles O27. -/
theorem loadedFieldsAreClamped : Obligations.LoadedFieldsAreClamped := by
  intro s hs hu
  refine ⟨fun n k e cap low keep hn _ => ⟨tubeRecord_refused hs hu hn cap low keep, tubeRecord_busy hs hu hn cap low keep,
      tubeRecord_taken hs hu hn cap low keep, tubeRecord_loads hs hu hn cap low keep⟩,
    fun d a x l w h j => ⟨driveRecord_refused hs hu x l w h j, driveRecord_loads hs hu x l w h j⟩,
    fun k h l hk => pointRecord_loads hs hu h l hk,
    fun z sh sl d hh hl n e hz => zoneRecord_loads hs hu sh sl d hh hl n e hz,
    fun k h l e n hk => ⟨coinRecord_refused hs hu h l hk, coinRecord_busy hs hu h l hk,
      coinRecord_unpaired hs hu h l e hk, coinRecord_loads hs hu h l hk⟩,
    fun k h l e hk => ⟨noteRecord_refused hs hu h l hk, noteRecord_busy hs hu h l hk, noteRecord_loads hs hu h l hk⟩,
    refrigRecord_loads hs hu, loadsRecord_clamped hs hu,
    fun ch cl p e gh gl xh xl nh nl => ⟨moneyRecord_refused hs hu ch cl gh gl xh xl nh nl,
      moneyRecord_busy hs hu ch cl gh gl xh xl nh nl, fun hsale hp he => ?_⟩,
    linkRecord_loads hs hu⟩
  refine (moneyRecord_loads hs hu ch cl gh gl xh xl nh nl hsale hp he).strengthen fun t _ ⟨htables, htaken⟩ => ?_
  rw [moneyOf_record] at htables
  exact ⟨htables, moneyRecord_taken htaken⟩

end Sys2Proof.Machine
end

