-- ==== Sys2Proof/Proofs/FactoryClear.lean ====
section
/-! O32: Factory Clear, its conditions and what it leaves (R64, R113, R177, R178). -/

/- One lemma after another, to keep the memory of a compile small. -/
set_option Elab.async false

namespace Sys2Proof.Machine

/-! ### One tube's record (R31) -/

/-- Nothing of the tubes differs but the count and the condition of tube `n`. -/
def OnlyTube (n : Nat) (s t : State) : Prop :=
  ∀ m, (t.tube m).full = (s.tube m).full ∧ (m ≠ n → t.tube m = s.tube m)

theorem OnlyTube.of_tubes {n : Nat} {s t : State} (h : t.change.tubes = s.change.tubes) : OnlyTube n s t :=
  fun m => by rw [tube_congr h]; exact ⟨rfl, fun _ => rfl⟩

theorem OnlyTube.trans {n : Nat} {s t u : State} (h1 : OnlyTube n s t) (h2 : OnlyTube n t u) : OnlyTube n s u :=
  fun m => ⟨(h2 m).1.trans (h1 m).1, fun hm => ((h2 m).2 hm).trans ((h1 m).2 hm)⟩

theorem onlyTube_rawCount (n k : Nat) (s : State) : OnlyTube n s (rawCount n k s) := by
  intro m
  rw [tube_rawCount]
  split
  next h => exact ⟨by rw [h.1], fun hm => absurd h.1 hm⟩
  next => exact ⟨rfl, fun _ => rfl⟩

theorem onlyTube_rawCond (n : Nat) (c : TubeCond) (s : State) : OnlyTube n s (rawCond n c s) := by
  intro m
  rw [tube_rawCond]
  split
  next h => exact ⟨by rw [h.1], fun hm => absurd h.1 hm⟩
  next => exact ⟨rfl, fun _ => rfl⟩

theorem onlyTube_reconcile (n : Nat) (s : State) : OnlyTube n s (reconcile n s) := by
  have hcorrect (w : Correction) (k : Nat) : OnlyTube n s (correctCount n w k s) :=
    (onlyTube_rawCount n k s).trans (.of_tubes rfl)
  rw [reconcile_eq]
  split_ifs
  · exact (onlyTube_rawCond n .faulted s).trans (.of_tubes rfl)
  · exact .of_tubes rfl
  · exact hcorrect _ _
  · exact hcorrect _ _
  · exact hcorrect _ _
  · exact .of_tubes rfl

theorem onlyTube_applyTube (n : Nat) (r : TubeRec) (s : State) : OnlyTube n s (applyTube n r s) := by
  have hcorrect (u : State) (hu : u.change.tubes = s.change.tubes) (w : Correction) (old new : Nat) :
      OnlyTube n s (raiseCorrected n w old new (rawCount n new u)) :=
    ((OnlyTube.of_tubes hu).trans (onlyTube_rawCount n new u)).trans
      (.of_tubes (raiseCorrected_alters n w old new _ .tubes (by decide)))
  have hreconciled (u : State) (c : TubeCond) (hu : OnlyTube n s u) : OnlyTube n s (reconcile n (rawCond n c u)) :=
    (hu.trans (onlyTube_rawCond n c u)).trans (onlyTube_reconcile n _)
  unfold applyTube
  refine hreconciled _ _ ?_
  split
  · split
    · refine hcorrect _ ?_ _ _ _
      rfl
    · exact .of_tubes rfl
  · refine hcorrect _ ?_ _ _ _
    rfl

theorem onlyTube_clearTube (n : Nat) (s : State) : OnlyTube n s (clearTube n s) :=
  ((onlyTube_rawCount n 0 s).trans (onlyTube_rawCond n .ok _)).trans (onlyTube_reconcile n _)

/-- With no low mark and the full sensor not covered no test of R38 matches. -/
theorem reconcile_quiet {n : Nat} {s : State} (hfull : (s.tube n).full.accepted ≠ some true)
    (hlow : (s.tables.tube n).lowMark = 0) : reconcile n s = s := by
  rw [reconcile_eq, if_neg fun h => hfull h.1, if_neg fun h => hfull h.1, if_neg fun h => absurd h.1 (by omega),
    if_neg fun h => absurd h.1 (by omega)]

/-- A tube cleared with its full sensor not covered is empty and OK (R178). -/
theorem clearTube_tube {n : Nat} {s : State} (hfull : (s.tube n).full.accepted ≠ some true)
    (hlow : (s.tables.tube n).lowMark = 0) :
    ((clearTube n s).tube n).count = 0 ∧ ((clearTube n s).tube n).cond = .ok := by
  have honly := (onlyTube_rawCount n 0 s).trans (onlyTube_rawCond n .ok _)
  have htables : (rawCond n .ok (rawCount n 0 s)).tables = s.tables :=
    ((rawCount_alters n 0 s).seq (rs := [.tubes, .shortWait, .payout]) (rawCond_alters n .ok _)) .tables (by decide)
  unfold clearTube
  rw [reconcile_quiet (by rwa [(honly n).1]) (by rwa [htables]), tube_rawCond, tube_rawCount]
  by_cases hn : n < s.change.tubes.length
  · have hlen : n < (rawCount n 0 s).change.tubes.length := by
      rw [rawCount_tubes]
      exact (length_updAt _ _ _).symm ▸ hn
    rw [if_pos ⟨rfl, hlen⟩, if_pos ⟨rfl, hn⟩]
    exact ⟨rfl, rfl⟩
  · have hlen : ¬n < (rawCount n 0 s).change.tubes.length := by
      rw [rawCount_tubes]
      exact (length_updAt _ _ _).symm ▸ hn
    rw [if_neg fun h => hlen h.2, if_neg fun h => hn h.2]
    have hinitial : s.tube n = TubeState.initial := List.getD_eq_default _ _ (Nat.not_lt.1 hn)
    rw [hinitial]
    exact ⟨rfl, rfl⟩

/-- Tubes cleared one after another. -/
theorem foldl_clearTube {n : Nat} (l : List Nat) {s : State} (hfull : (s.tube n).full.accepted ≠ some true)
    (hlow : (s.tables.tube n).lowMark = 0) (h : n ∈ l ∨ (s.tube n).count = 0 ∧ (s.tube n).cond = .ok) :
    ((l.foldl (fun s n => clearTube n s) s).tube n).count = 0 ∧ ((l.foldl (fun s n => clearTube n s) s).tube n).cond = .ok := by
  induction l generalizing s with
  | nil => exact h.resolve_left (List.not_mem_nil)
  | cons m l ih =>
    have honly := onlyTube_clearTube m s n
    have htables : (clearTube m s).tables = s.tables := clearTube_alters m s .tables (by decide)
    refine ih (by rwa [honly.1]) (by rwa [htables]) ?_
    by_cases hm : n = m
    · exact .inr (hm ▸ clearTube_tube hfull hlow)
    · rcases h with hmem | hcleared
      · exact .inl ((List.mem_cons.1 hmem).resolve_left hm)
      · exact .inr (by rwa [honly.2 hm])

theorem clearTubes_tube {n : Nat} {s : State} (hn : n < 6) (hfull : (s.tube n).full.accepted ≠ some true)
    (hlow : (s.tables.tube n).lowMark = 0) :
    ((clearTubes s).tube n).count = 0 ∧ ((clearTubes s).tube n).cond = .ok := by
  have hsame : (clearTubes s).tube n = _ := tube_congr (afterTubes_alters _ .tubes (by decide)) n
  rw [hsame]
  exact foldl_clearTube _ hfull hlow (.inl (List.mem_range.2 hn))

/-! ### The default tables (R64, R178) -/

theorem foldl_keeps_tube {β : Type} {f : State → β → State} (hf : ∀ u b n, ((f u b).tube n).full = (u.tube n).full)
    (l : List β) (s : State) (n : Nat) : ((l.foldl f s).tube n).full = (s.tube n).full := by
  induction l generalizing s with
  | nil => rfl
  | cons b l ih => exact (ih _).trans (hf s b n)

theorem updAt_getD_self {α : Type} (l : List α) (n : Nat) (d : α) : updAt l n (fun _ => l.getD n d) = l := by
  induction l generalizing n with
  | nil => rfl
  | cons x l ih =>
    cases n with
    | zero => rfl
    | succ n => exact congrArg (x :: ·) (ih n)

theorem defaultCoins_tube {k n : Nat} (h : k ≠ n) :
    (defaultCoins.getD k { value := 1, accept := false, tube := none }).tube ≠ some n := by
  by_cases hk : k < 16
  · unfold defaultCoins
    rw [getD_map_range _ _ hk]
    dsimp only
    split
    · exact fun hn => h (Option.some.inj hn)
    · exact fun hn => nomatch hn
  · rw [List.getD_eq_default _ _ (Nat.not_lt.1 hk)]
    exact fun hn => nomatch hn

/-- A coin's default tube is its own type's, so that no tube's old type gives one up (R29). -/
theorem unpaired_defaultCoins {k n : Nat} (h : k ≠ n) :
    updAt defaultCoins k (fun c => if c.tube = some n then { c with tube := none } else c) = defaultCoins := by
  rw [updAt_eq_const defaultCoins k _ { value := 1, accept := false, tube := none }, if_neg (defaultCoins_tube h)]
  exact updAt_getD_self _ _ _

/-- The default record of tube `n`. -/
def defaultTube (n : Nat) : TubeRec := { coinType := n, enabled := true, capacity := 100, lowMark := 0, reserve := 0 }

theorem foldl_defaultTubes (l : List Nat) {s : State} (hcoins : s.tables.coins = defaultCoins) :
    (l.foldl (fun s n => applyTube n (defaultTube n) s) s).tables =
      { s.tables with tubes := l.foldl (fun ts n => updAt ts n fun _ => defaultTube n) s.tables.tubes } := by
  induction l generalizing s with
  | nil => rfl
  | cons n l ih =>
    have hcoins' : coinsAfterTube s.tables n (defaultTube n) = s.tables.coins := by
      unfold coinsAfterTube
      split
      next => rfl
      next h =>
        rw [hcoins]
        exact unpaired_defaultCoins (Ne.symm h)
    have htables : (applyTube n (defaultTube n) s).tables =
        { s.tables with tubes := updAt s.tables.tubes n fun _ => defaultTube n } := by
      rw [applyTube_tables, hcoins']
    rw [List.foldl_cons, ih (by rw [htables]; exact hcoins), htables]
    rfl

theorem applyDefaultTubes_tables {s : State} (hlen : s.tables.tubes.length = 6) :
    (applyDefaultTubes (defaultMoneyAndCoins s)).tables =
      { s.tables with money := defaultMoney, coins := defaultCoins, tubes := defaultTubes } := by
  refine (foldl_defaultTubes (List.range 6) (s := defaultMoneyAndCoins s) rfl).trans ?_
  have hset : (List.range 6).foldl (fun ts n => updAt ts n fun _ => defaultTube n) s.tables.tubes = defaultTubes := by
    match s.tables.tubes, hlen with
    | [_, _, _, _, _, _], _ => rfl
  exact congrArg (fun ts : List TubeRec => { s.tables with money := defaultMoney, coins := defaultCoins, tubes := ts }) hset

theorem setSlotKind_tables_eq (slot : Nat) (k : SlotKind) (s : State) : (setSlotKind slot k s).tables =
    { s.tables with slotKinds := updAt s.tables.slotKinds (slot - 1) fun _ => k } := by
  by_cases h : s.tables.slotKind slot = k
  · rw [setSlotKind_same h, ← h]
    exact congrArg (fun ks : List SlotKind => { s.tables with slotKinds := ks })
      (updAt_getD_self s.tables.slotKinds (slot - 1) .unused).symm
  · exact setSlotKind_of_tables slot k s h .tables (by decide)

theorem foldl_setSlotKind (l : List Nat) (f : Nat → SlotKind) (s : State) :
    (l.foldl (fun s a => setSlotKind a (f a) s) s).tables =
      { s.tables with slotKinds := l.foldl (fun ks a => updAt ks (a - 1) fun _ => f a) s.tables.slotKinds } := by
  induction l generalizing s with
  | nil => rfl
  | cons a l ih =>
    rw [List.foldl_cons, ih, setSlotKind_tables_eq]
    rfl

theorem applyDefaultSlots_tables {s : State} (hlen : s.tables.slotKinds.length = 8) :
    (applyDefaultSlots s).tables = { s.tables with slotKinds := defaultSlotKinds } := by
  refine (foldl_setSlotKind addresses (fun a => defaultSlotKinds.getD (a - 1) .unused) s).trans ?_
  have hset : addresses.foldl (fun ks a => updAt ks (a - 1) fun _ => defaultSlotKinds.getD (a - 1) .unused)
      s.tables.slotKinds = defaultSlotKinds := by
    match s.tables.slotKinds, hlen with
    | [_, _, _, _, _, _, _, _], _ => rfl
  rw [hset]

end Sys2Proof.Machine
end

