-- ==== Sys2Proof/Proofs/FactoryCleared.lean ====
section
/-! O32: the state Factory Clear leaves, and its refusals (R64, R113, R177, R178). -/

/- One lemma after another, to keep the memory of a compile small. -/
set_option Elab.async false

namespace Sys2Proof.Machine

/-! ### What Factory Clear leaves (R178) -/

/-- The tables and kept fields once the record tables have their defaults, before what follows from them. -/
def recordsCleared (s : State) : State :=
  applyPlainDefaults (applyDefaultSels (applyDefaultTubes (defaultMoneyAndCoins s)))

/-- The masks, the grants and the slots follow from the record tables. -/
def followedUp (s : State) : State :=
  budgetChanged { recomputeMasks (evalExact s) with tables.loads := defaultLoads }

/-- What follows from the record tables changes no kept field and no tube. -/
def followParts : List Part := .tables :: .exact :: .compressor :: .defrost :: kindChangeParts

theorem followedUp_alters (s : State) : Alters followParts s (followedUp s) :=
  ((((evalExact_alters s).seq (rs := followParts) (recomputeMasks_alters _)).seq (rs := followParts)
    (setTables_alters _ _)).seq (budgetChanged_alters _))

theorem restoreDefaults_eq (s : State) : restoreDefaults s = applyDefaultSlots (followedUp (recordsCleared s)) := rfl

theorem restoreDefaults_after (s : State) : Alters followParts (recordsCleared s) (restoreDefaults s) := by
  have hslots (u : State) : Alters followParts u (applyDefaultSlots u) :=
    Alters.foldl _ (fun u a => (setSlotKind_alters_parts a _ u).mono) _ _
  exact (followedUp_alters (recordsCleared s)).trans (hslots _)

section
variable (u : State)

theorem plainDefaults_tables : (applyPlainDefaults (applyDefaultSels u)).tables = { u.tables with
    sels := defaultSels, notes := defaultNotes, drive := defaultDrive, curve := defaultCurve, zones := defaultZones,
    refrig := defaultRefrig, pollN := 9, silenceN := 9 } := rfl

theorem plainDefaults_sels : (applyPlainDefaults (applyDefaultSels u)).sels =
    u.sels.map fun k => { k with state := .inhibited, next := 0 } := rfl

theorem plainDefaults_spirals : (applyPlainDefaults (applyDefaultSels u)).spirals =
    u.spirals.map fun r => { r with state := .notHome, probePending := true } := rfl

theorem plainDefaults_tubes : (applyPlainDefaults (applyDefaultSels u)).change.tubes = u.change.tubes := rfl

theorem applyDefaultTubes_eq : applyDefaultTubes u = (List.range 6).foldl (fun s n => applyTube n (defaultTube n) s) u := rfl

end

theorem restoreDefaults_tables {s : State} (htubes : s.tables.tubes.length = 6) (hslots : s.tables.slotKinds.length = 8) :
    (restoreDefaults s).tables = defaultTables := by
  have hplain : (recordsCleared s).tables = { defaultTables with
      loads := s.tables.loads, slotKinds := s.tables.slotKinds } := by
    unfold recordsCleared
    rw [plainDefaults_tables, applyDefaultTubes_tables htubes]
    rfl
  have hmasks : (recomputeMasks (evalExact (recordsCleared s))).tables = (recordsCleared s).tables :=
    ((evalExact_alters _).seq (rs := .exact :: .events :: maskParts) (recomputeMasks_alters _)) .tables (by decide)
  have hfollowed : (followedUp (recordsCleared s)).tables = { (recordsCleared s).tables with loads := defaultLoads } :=
    (budgetChanged_alters _ .tables (by decide)).trans
      (congrArg (fun x : Tables => { x with loads := defaultLoads }) hmasks)
  rw [restoreDefaults_eq, applyDefaultSlots_tables (by rw [hfollowed, hplain]; exact hslots), hfollowed, hplain]
  rfl

/-- The kept fields of the selections and the spirals as Factory Clear leaves them. -/
theorem restoreDefaults_kept (s : State) :
    (restoreDefaults s).sels = s.sels.map (fun k => { k with state := .inhibited, next := 0 }) ∧
    (restoreDefaults s).spirals = s.spirals.map fun r => { r with state := .notHome, probePending := true } := by
  have hafter := restoreDefaults_after s
  have htubes : Alters tubeRecordParts s (applyDefaultTubes (defaultMoneyAndCoins s)) :=
    (defaultMoneyAndCoins_alters s).seq (applyDefaultTubes_alters _)
  have hsels : (applyDefaultTubes (defaultMoneyAndCoins s)).sels = s.sels := htubes .sels (by decide)
  have hspirals : (applyDefaultTubes (defaultMoneyAndCoins s)).spirals = s.spirals := htubes .spirals (by decide)
  have hkept : (restoreDefaults s).sels = (recordsCleared s).sels := hafter .sels (by decide)
  have hkept' : (restoreDefaults s).spirals = (recordsCleared s).spirals := hafter .spirals (by decide)
  rw [hkept, hkept']
  unfold recordsCleared
  rw [plainDefaults_sels, plainDefaults_spirals, hsels, hspirals]
  exact ⟨rfl, rfl⟩

theorem restoreDefaults_full (s : State) (n : Nat) : ((restoreDefaults s).tube n).full = (s.tube n).full := by
  have hafter : (restoreDefaults s).tube n = (recordsCleared s).tube n :=
    tube_congr (restoreDefaults_after s .tubes (by decide)) n
  rw [hafter]
  unfold recordsCleared
  rw [tube_congr (plainDefaults_tubes _) n, applyDefaultTubes_eq]
  exact foldl_keeps_tube (fun u m n => (onlyTube_applyTube m (defaultTube m) u n).1) (List.range 6)
    (defaultMoneyAndCoins s) n

/-- The state Factory Clear leaves. -/
structure FactoryCleared (s t : State) : Prop where
  code : t.lock.code = none
  lock : t.lock.state = .opened
  failures : t.lock.failures = 0
  lockout : t.lock.lockout = false
  tag : t.lock.tag = .empty
  fill : t.lock.fill = false
  tables : t.tables = defaultTables
  audit : t.audit = Audit.zero
  sels : ∀ i, t.sel i = SelKept.default
  spirals : ∀ x ∈ t.spirals, x.state = .notHome ∧ x.probePending = true
  tubes : ∀ n < 6, (s.tube n).full.accepted ≠ some true → (t.tube n).count = 0 ∧ (t.tube n).cond = .ok
  zones : ∀ z ∈ t.cold.zones, z.latched = false ∧ z.holdTimer = 0
  storeDefaults : t.storeDefaults = true
  store : t.store.tableA = none ∧ t.store.tableB = none ∧ t.store.tableWriting = none

theorem clearLock_set (s : State) : (clearLock s).lock.code = none ∧ (clearLock s).lock.state = .opened ∧
    (clearLock s).lock.failures = 0 ∧ (clearLock s).lock.lockout = false ∧ (clearLock s).lock.tag = .empty ∧
    (clearLock s).lock.fill = false := by
  unfold clearLock endFill
  split
  next => exact ⟨rfl, rfl, rfl, rfl, rfl, rfl⟩
  next h => exact ⟨rfl, rfl, rfl, rfl, rfl, Bool.eq_false_iff.2 h⟩

theorem sel_default {s : State} {l : List SelKept} (h : s.sels = l.map fun k => { k with state := .inhibited, next := 0 })
    {i : Nat} (hsales : (s.sel i).sales = 0) : s.sel i = SelKept.default := by
  have hsel : s.sel i = { l.getD i SelKept.default with state := .inhibited, next := 0 } := by
    simp only [State.sel, h, List.getD_eq_getElem?_getD, List.getElem?_map]
    cases l[i]? <;> rfl
  rw [hsel] at hsales ⊢
  exact congrArg (SelKept.mk .inhibited 0) hsales

theorem defaultTables_lowMark (n : Nat) : (defaultTables.tube n).lowMark = 0 := by
  unfold Tables.tube defaultTables defaultTubes
  dsimp only
  by_cases hn : n < 6
  · rw [getD_map_range _ _ hn]
  · rw [List.getD_eq_default _ _ (by rw [List.length_map, List.length_range]; exact Nat.not_lt.1 hn)]

theorem factoryCleared (s : State) (htubes : s.tables.tubes.length = 6) (hslots : s.tables.slotKinds.length = 8) :
    FactoryCleared s (factoryClear s) := by
  have hlock := factoryClear_alters_lock s
  have hbefore : Alters [.code, .lockState, .lockout, .tag, .fill, .events, .audit, .sels] s (clearAudit (clearLock s)) :=
    (clearLock_alters s).seq (clearAudit_alters _)
  have htables : (clearAudit (clearLock s)).tables = s.tables := hbefore .tables (by decide)
  have hrestored := restoreDefaults_tables (s := clearAudit (clearLock s)) (by rwa [htables]) (by rwa [htables])
  have hcleared := clearTubes_alters (restoreDefaults (clearAudit (clearLock s)))
  have hafter : Alters (.zones :: .storeDefaults :: .store :: clearTubeParts)
      (restoreDefaults (clearAudit (clearLock s))) (factoryClear s) :=
    (hcleared.seq (rs := .zones :: clearTubeParts) (clearHolds_alters _)).seq (clearStore_alters _)
  obtain ⟨hsels, hspirals⟩ := restoreDefaults_kept (clearAudit (clearLock s))
  obtain ⟨hfailures, hlockout⟩ := hlock .lockout (by decide)
  obtain ⟨hcode, hopen, hnofailure, hnolockout, htag, hfill⟩ := clearLock_set s
  have hzero := totalsZero_factoryClear s
  have hkept : (factoryClear s).sels = (restoreDefaults (clearAudit (clearLock s))).sels := hafter .sels (by decide)
  have hmoved : (factoryClear s).spirals = (restoreDefaults (clearAudit (clearLock s))).spirals :=
    hafter .spirals (by decide)
  have hended : (factoryClear s).change.tubes = (clearTubes (restoreDefaults (clearAudit (clearLock s)))).change.tubes :=
    ((clearHolds_alters _).seq (rs := [.zones, .storeDefaults, .store]) (clearStore_alters _)) .tubes (by decide)
  exact {
    code := (hlock .code (by decide)).trans hcode
    lock := (hlock .lockState (by decide)).trans hopen
    failures := hfailures.trans hnofailure
    lockout := hlockout.trans hnolockout
    tag := (hlock .tag (by decide)).trans htag
    fill := (hlock .fill (by decide)).trans hfill
    tables := (hafter .tables (by decide)).trans hrestored
    audit := hzero.1
    sels := fun i => sel_default (hkept.trans hsels) (hzero.sales i)
    spirals := fun x hx => by
      rw [hmoved, hspirals] at hx
      obtain ⟨y, -, rfl⟩ := List.mem_map.1 hx
      exact ⟨rfl, rfl⟩
    tubes := fun n hn hfull => by
      rw [tube_congr hended n]
      refine clearTubes_tube hn ?_ ?_
      · rw [restoreDefaults_full, tube_congr (hbefore .tubes (by decide)) n]
        exact hfull
      · rw [hrestored]
        exact defaultTables_lowMark n
    zones := fun z hz => by
      obtain ⟨y, -, rfl⟩ := List.mem_map.1 hz
      exact ⟨rfl, rfl⟩
    storeDefaults := rfl
    store := ⟨rfl, rfl, rfl⟩ }

theorem FactoryCleared.ends {s u t : State} (hu : FactoryCleared s u) (h : Ends u t) : FactoryCleared s t := by
  have hframe := h.frame
  obtain ⟨hfailures, hlockout⟩ := hframe .lockout (by decide)
  have hstore : t.store = u.store := hframe .store (by decide)
  have htubes : t.change.tubes = u.change.tubes := hframe .tubes (by decide)
  exact {
    code := (hframe .code (by decide)).trans hu.code
    lock := (hframe .lockState (by decide)).trans hu.lock
    failures := hfailures.trans hu.failures
    lockout := hlockout.trans hu.lockout
    tag := (hframe .tag (by decide)).trans hu.tag
    fill := (hframe .fill (by decide)).trans hu.fill
    tables := (hframe .tables (by decide)).trans hu.tables
    audit := (hframe .audit (by decide)).trans hu.audit
    sels := fun i => (sel_congr (hframe .sels (by decide)) i).trans (hu.sels i)
    spirals := by
      rw [hframe .spirals (by decide)]
      exact hu.spirals
    tubes := fun n hn hfull => by
      rw [tube_congr htubes n]
      exact hu.tubes n hn hfull
    zones := by
      rw [hframe .zones (by decide)]
      exact hu.zones
    storeDefaults := (hframe .storeDefaults (by decide)).trans hu.storeDefaults
    store := by
      rw [hstore]
      exact hu.store }

/-! ### The request (R177) -/

theorem serveFactoryClear_unlocked {s : State} (h : s.lock.state ≠ .locked) :
    serveFactoryClear s = (s, .badSequence, []) := if_pos h

theorem serveFactoryClear_closed {s : State} (h : s.lock.state = .locked) (hdoor : s.doorOpen = false) :
    serveFactoryClear s = (s, .doorClosed, []) := by
  unfold serveFactoryClear
  rw [if_neg (not_not_intro h), hdoor]
  rfl

theorem serveFactoryClear_open {s : State} (h : s.lock.state = .locked) (hdoor : s.doorOpen = true) :
    serveFactoryClear s = if s.credit.sale ≠ .idle ∨ s.credit.escrow.isSome ∨ s.drive.service.isSome
      then (s, .busy, []) else (factoryClear s, .done, []) := by
  unfold serveFactoryClear
  rw [if_neg (not_not_intro h), hdoor]
  rfl

/-- Settles O32. -/
theorem factoryClearLeavesTheDefaults : Obligations.FactoryClearLeavesTheDefaults := by
  intro s hs
  obtain ⟨x, g, hshape, -⟩ := received_shape .factoryClear s
  have hlock : (received .factoryClear s).lock.state = s.lock.state := by rw [hshape]
  have hdoor : (received .factoryClear s).doorOpen = s.doorOpen := by
    rw [hshape]
    rfl
  have hrefused {e : ReplyCode} (h : serveFactoryClear (received .factoryClear s) = (received .factoryClear s, e, [])) :
      Refuses .factoryClear s 0x99 e [] :=
    refuses_served (r := .factoryClear) rfl hs (fun h => absurd h (by decide)) h
  refine ⟨fun h => hrefused (serveFactoryClear_unlocked (by rwa [hlock])),
    fun h hd => hrefused (serveFactoryClear_closed (by rwa [hlock]) (by rwa [hdoor])), fun h hd => ?_⟩
  have hserve := serveFactoryClear_open (hlock.trans h) (hdoor.trans hd)
  refine ⟨fun hbusy => hrefused (hserve.trans (if_pos (by rw [hshape]; exact hbusy))),
    fun hidle hescrow hservice htubes hslots => ?_⟩
  have hfree := hserve.trans (if_neg (by rw [hshape]; simp only [hidle, hescrow, hservice]; simp))
  have hcleared := factoryCleared (received .factoryClear s) (by rw [hshape]; exact htubes) (by rw [hshape]; exact hslots)
  refine replies_served (r := .factoryClear) rfl hs (fun h => absurd h (by decide)) hfree
    (factoryClear_alters _) (.inr (by decide)) (by decide) fun t ht => ?_
  obtain ⟨hcode, hopen, hfailures, hlockout, htag, hfill, htables, haudit, hsels, hspirals, hempty, hzones, hdefaults,
    hstore⟩ := hcleared.ends ht
  have htube (n : Nat) : (received .factoryClear s).tube n = s.tube n := by
    rw [hshape]
    rfl
  exact ⟨hcode, hopen, hfailures, hlockout, htag, hfill, htables, haudit, hsels, hspirals,
    fun n hn hfull => hempty n hn (by rwa [htube]), hzones, hdefaults, hstore⟩

end Sys2Proof.Machine
end

