-- ==== Sys2Proof/Proofs/SpiralsMoved.lean ====
section
/-! O28: what a selection record leaves of the other selections: their lists close up and their next pointers with them
(R57, R63). -/

/- One lemma after another, to keep the memory of a compile small. -/
set_option Elab.async false

namespace Sys2Proof.Machine

/-! ### A list that closes up (R57) -/

/-- What a list keeps when the spirals of `l` leave it. -/
def leftOf (l was : List Nat) : List Nat := was.filter fun q => !l.contains q

/-- The next pointer of a list that the spirals of `l` have left. -/
def closedNext (l was : List Nat) (next : Nat) : Nat :=
  if leftOf l was = was then next
  else if next - (was.take next).countP l.contains < (leftOf l was).length then next - (was.take next).countP l.contains
  else 0

theorem contains_cons (p q : Nat) (l : List Nat) : (p :: l).contains q = (q == p || l.contains q) := rfl

theorem contains_cons_of_ne {p q : Nat} (h : q ≠ p) (l : List Nat) : (p :: l).contains q = l.contains q := by
  rw [contains_cons, beq_eq_false_iff_ne.2 h, Bool.false_or]

theorem countP_cons_of_notMem {p : Nat} {c : List Nat} (h : p ∉ c) (l : List Nat) :
    c.countP (p :: l).contains = c.countP l.contains :=
  List.countP_congr fun q hq => by
    have hne : q ≠ p := fun e => h (by rwa [← e])
    rw [contains_cons_of_ne hne]

theorem leftOf_cons (p : Nat) (l was : List Nat) : leftOf (p :: l) was = leftOf l (leftOf [p] was) := by
  unfold leftOf
  rw [List.filter_filter]
  refine List.filter_congr fun q _ => ?_
  rw [contains_cons, contains_cons, List.contains_nil, Bool.or_false, Bool.not_or, Bool.and_comm]

theorem leftOf_self {l was : List Nat} (h : ∀ p ∈ l, p ∉ was) : leftOf l was = was :=
  List.filter_eq_self.2 fun q hq => by
    rw [Bool.not_eq_true', List.contains_eq_mem, decide_eq_false_iff_not]
    exact fun hm => h q hm hq

theorem closedNext_absent {l was : List Nat} (h : ∀ p ∈ l, p ∉ was) (next : Nat) : closedNext l was next = next :=
  if_pos (leftOf_self h)

/-- The spirals that leave a list and those that stay are all of it. -/
theorem leftOf_length (l was : List Nat) : (leftOf l was).length + was.countP l.contains = was.length := by
  have h := List.length_eq_countP_add_countP (p := l.contains) (l := was)
  rw [leftOf, ← List.countP_eq_length_filter, Nat.add_comm]
  simpa only [Bool.decide_eq_true, Bool.not_eq_true, Bool.decide_eq_false] using h.symm

theorem positionOf_some {p j : Nat} {l : List Nat} (h : positionOf p l = some j) :
    ∃ a b, l = a ++ p :: b ∧ a.length = j := by
  induction l generalizing j with
  | nil => exact nomatch h
  | cons q l ih =>
    unfold positionOf at h
    split at h
    next hq => exact ⟨[], l, by rw [hq]; rfl, Option.some.inj h⟩
    next =>
      obtain ⟨k, hk, rfl⟩ := Option.map_eq_some_iff.1 h
      obtain ⟨a, b, hl, ha⟩ := ih hk
      exact ⟨q :: a, b, by rw [hl]; rfl, congrArg (· + 1) ha⟩

section
variable {p : Nat} {a b : List Nat} (ha : p ∉ a) (hb : p ∉ b)
include ha hb

theorem leftOf_split : leftOf [p] (a ++ p :: b) = a ++ b := by
  have hself (l : List Nat) (h : p ∉ l) : leftOf [p] l = l :=
    leftOf_self fun q hq => by rwa [List.mem_singleton.1 hq]
  unfold leftOf at *
  rw [List.filter_append, hself a ha, List.filter_cons_of_neg (by simp), hself b hb]

/-- The spirals before the next pointer that leave the list: `p`, when it stands before it, and those of `l`. -/
theorem countP_split (l : List Nat) (next : Nat) : ((a ++ p :: b).take next).countP (p :: l).contains =
    (if a.length < next then 1 else 0) +
      ((a ++ b).take (if a.length < next then next - 1 else next)).countP l.contains := by
  by_cases hlt : a.length < next
  · obtain ⟨k, rfl⟩ : ∃ k, next = a.length + (k + 1) := ⟨next - a.length - 1, by omega⟩
    rw [if_pos hlt, if_pos hlt, List.take_length_add_append, List.take_succ_cons, List.countP_append,
      List.countP_cons_of_pos (by simp), countP_cons_of_notMem ha,
      countP_cons_of_notMem fun h => hb (List.mem_of_mem_take h), show a.length + (k + 1) - 1 = a.length + k by omega,
      List.take_length_add_append, List.countP_append]
    omega
  · rw [if_neg hlt, if_neg hlt, List.take_append_of_le_length (Nat.not_lt.1 hlt),
      List.take_append_of_le_length (Nat.not_lt.1 hlt), countP_cons_of_notMem fun h => ha (List.mem_of_mem_take h),
      Nat.zero_add]

theorem closedNext_split (l : List Nat) (next : Nat) : closedNext (p :: l) (a ++ p :: b) next =
    closedNext l (a ++ b) (closePointer a.length next (a ++ b).length) := by
  have hleft : leftOf (p :: l) (a ++ p :: b) = leftOf l (a ++ b) := by rw [leftOf_cons, leftOf_split ha hb]
  have hlen := leftOf_length l (a ++ b)
  have hne : leftOf l (a ++ b) ≠ a ++ p :: b := fun h => by
    have := congrArg List.length h
    simp only [List.length_append, List.length_cons] at this hlen
    omega
  have hcount := countP_split ha hb l next
  unfold closedNext closePointer
  rw [hleft, if_neg hne, hcount]
  dsimp only
  generalize hn : (if a.length < next then next - 1 else next) = n
  have hnext : next - ((if a.length < next then 1 else 0) + ((a ++ b).take n).countP l.contains) =
      n - ((a ++ b).take n).countP l.contains := by
    split_ifs at hn ⊢ <;> omega
  rw [hnext]
  by_cases hlt : n < (a ++ b).length
  · rw [if_pos hlt]
    by_cases hsame : leftOf l (a ++ b) = a ++ b
    · have hzero : ((a ++ b).take n).countP l.contains = 0 := by
        have := (List.take_sublist n (a ++ b)).countP_le (p := l.contains)
        rw [hsame] at hlen
        omega
      rw [if_pos hsame, hzero, hsame, Nat.sub_zero, if_pos hlt]
    · rw [if_neg hsame]
  · rw [if_neg hlt, List.take_of_length_le (Nat.not_lt.1 hlt), if_neg (by omega)]
    split_ifs <;> simp

end

/-- Spirals leave a list one after another. -/
theorem closedNext_cons {p : Nat} {was : List Nat} (hnodup : was.Nodup) (l : List Nat) (next : Nat) :
    closedNext (p :: l) was next = closedNext l (leftOf [p] was) (closedNext [p] was next) := by
  by_cases hp : p ∈ was
  · obtain ⟨a, b, rfl⟩ := List.append_of_mem hp
    rw [List.nodup_append] at hnodup
    obtain ⟨-, hpb, hab⟩ := hnodup
    have ha : p ∉ a := fun h => hab p h p (List.mem_cons_self) rfl
    have hb : p ∉ b := (List.nodup_cons.1 hpb).1
    rw [closedNext_split ha hb, closedNext_split ha hb, leftOf_split ha hb,
      closedNext_absent (l := []) (fun _ h => nomatch h)]
  · have hself : leftOf [p] was = was := leftOf_self fun q hq => by rwa [List.mem_singleton.1 hq]
    have hsingle : closedNext [p] was next = next := if_pos hself
    rw [hself, hsingle]
    unfold closedNext
    rw [leftOf_cons, hself, countP_cons_of_notMem fun h => hp (List.mem_of_mem_take h)]

end Sys2Proof.Machine
end

