-- ==== Sys2Proof/Proofs/SelectionsLoaded.lean ====
section
/-! O28: a selection record as applied, on its own selection, the others and the spirals (R57, R60, R62, R63). -/

/- One lemma after another, to keep the memory of a compile small. -/
set_option Elab.async false

namespace Sys2Proof.Machine

/-! ### The spirals of a record leave the other lists (R63 step 1) -/

/-- A spiral stands in the list of a selection other than `i`. -/
def heldElsewhere (s : State) (i q : Nat) : Bool :=
  (List.range 64).any fun k => k != i && (s.tables.sel k).spirals.contains q

theorem heldElsewhere_iff {s : State} {i q : Nat} :
    heldElsewhere s i q = true ↔ ∃ k < 64, k ≠ i ∧ q ∈ (s.tables.sel k).spirals := by
  simp only [heldElsewhere, List.any_eq_true, List.mem_range, Bool.and_eq_true, bne_iff_ne, List.contains_eq_mem,
    decide_eq_true_eq]

/-- The spirals of `l` have left every list but that of selection `i`. -/
structure SpiralsLeft (i : Nat) (l : List Nat) (s t : State) : Prop where
  lists : ∀ k < 64, k ≠ i → t.tables.sel k = { s.tables.sel k with spirals := leftOf l (s.tables.sel k).spirals }
  pointers : ∀ k < 64, k ≠ i → t.sel k = { s.sel k with
    next := closedNext l (s.tables.sel k).spirals (s.sel k).next }
  own : t.tables.sel i = s.tables.sel i
  kept : t.sel i = s.sel i
  length : t.sels.length = s.sels.length

theorem SpiralsLeft.of_none {i : Nat} {l : List Nat} {s : State}
    (h : ∀ k < 64, k ≠ i → ∀ q ∈ l, q ∉ (s.tables.sel k).spirals) : SpiralsLeft i l s s where
  lists k hk hki := by rw [leftOf_self (h k hk hki)]
  pointers k hk hki := by rw [closedNext_absent (h k hk hki)]
  own := rfl
  kept := rfl
  length := rfl

theorem SpiralsLeft.cons {i p : Nat} {l : List Nat} {s t u : State} (hs : ListsOk s.tables) (h1 : SpiralsLeft i [p] s t)
    (h2 : SpiralsLeft i l t u) : SpiralsLeft i (p :: l) s u where
  lists k hk hki := by
    rw [h2.lists k hk hki, h1.lists k hk hki, leftOf_cons p l]
  pointers k hk hki := by
    have hnodup : (s.tables.sel k).spirals.Nodup := by
      have hmem : s.tables.sel k ∈ s.tables.sels := by
        unfold Tables.sel
        rw [List.getD_eq_getElem _ _ (by rw [hs.1]; exact hk)]
        exact List.getElem_mem _
      exact (hs.2.1 _ hmem).2.1
    rw [h2.pointers k hk hki, h1.pointers k hk hki, h1.lists k hk hki, closedNext_cons hnodup l]
  own := h2.own.trans h1.own
  kept := h2.kept.trans h1.kept
  length := h2.length.trans h1.length

theorem filter_bne (p : Nat) (was : List Nat) : was.filter (· != p) = leftOf [p] was :=
  List.filter_congr fun q _ => by rw [contains_cons, List.contains_nil, Bool.or_false]; rfl

theorem removeFromList_some {p k j : Nat} {s : State} (h : positionOf p (s.tables.sel k).spirals = some j) :
    removeFromList p k s = modSel k
      (fun r => { r with next := closePointer j r.next (leftOf [p] (s.tables.sel k).spirals).length })
      { s with tables.sels := updAt s.tables.sels k fun r => {
          r with spirals := leftOf [p] (s.tables.sel k).spirals } } := by
  unfold removeFromList
  rw [h]
  dsimp only
  rw [filter_bne]

theorem closedNext_position {p j : Nat} {was : List Nat} (hnodup : was.Nodup) (h : positionOf p was = some j)
    (next : Nat) : closedNext [p] was next = closePointer j next (leftOf [p] was).length := by
  obtain ⟨a, b, rfl, rfl⟩ := positionOf_some h
  rw [List.nodup_append] at hnodup
  obtain ⟨-, hpb, hab⟩ := hnodup
  have ha : p ∉ a := fun h => hab p h p List.mem_cons_self rfl
  have hb : p ∉ b := (List.nodup_cons.1 hpb).1
  rw [closedNext_split ha hb, leftOf_split ha hb]
  exact closedNext_absent (l := []) (fun _ h => absurd h List.not_mem_nil) _

theorem removeFromList_left {i p k : Nat} {s : State} (hs : ListsOk s.tables) (hlen : s.sels.length = 64) (hk : k < 64)
    (hki : k ≠ i) (hp : p ∈ (s.tables.sel k).spirals) : SpiralsLeft i [p] s (removeFromList p k s) := by
  obtain ⟨hlength, hlists, hdisjoint⟩ := hs
  have hmem : s.tables.sel k ∈ s.tables.sels := by
    unfold Tables.sel
    rw [List.getD_eq_getElem _ _ (by rw [hlength]; exact hk)]
    exact List.getElem_mem _
  obtain ⟨-, hnodup, -⟩ := hlists _ hmem
  obtain ⟨j, hj⟩ : ∃ j, positionOf p (s.tables.sel k).spirals = some j :=
    Option.ne_none_iff_exists'.1 fun h => positionOf_eq_none h hp
  have htable (m : Nat) : ({ s.tables with sels := updAt s.tables.sels k fun r => {
      r with spirals := leftOf [p] (s.tables.sel k).spirals } } : Tables).sel m =
        if m = k then { s.tables.sel k with spirals := leftOf [p] (s.tables.sel k).spirals } else s.tables.sel m := by
    simp only [Tables.sel, getD_updAt, hlength, hk, and_true]
    split
    next h => rw [h]
    next => rfl
  have habsent {m : Nat} (hm : m < 64) (hmk : m ≠ k) : ∀ q ∈ [p], q ∉ (s.tables.sel m).spirals := fun q hq h =>
    hmk (hdisjoint m hm k hk p (List.mem_singleton.1 hq ▸ h) hp)
  rw [removeFromList_some hj]
  refine ⟨fun m hm hmi => (htable m).trans ?_, fun m hm hmi => ?_, (htable i).trans (if_neg hki.symm), ?_, length_updAt _ _ _⟩
  · split
    next h => rw [h]
    next h => rw [leftOf_self (habsent hm h)]
  · by_cases h : m = k
    · subst h
      exact (sel_modSel (hlen ▸ hm) _).trans (by rw [closedNext_position hnodup hj]; rfl)
    · exact (sel_modSel_other h _ _).trans (by rw [closedNext_absent (habsent hm h)]; rfl)
  · exact sel_modSel_other hki.symm _ _

theorem takeSpiral_left {i p : Nat} {x : State × Nat} (hx : ListsOk x.1.tables) (hlen : x.1.sels.length = 64) :
    SpiralsLeft i [p] x.1 (takeSpiral i x p).1 ∧
      (takeSpiral i x p).2 = x.2 + if heldElsewhere x.1 i p then 1 else 0 := by
  have hfound (k : Nat) : (k != i && (x.1.tables.sel k).spirals.contains p) = true ↔
      k ≠ i ∧ p ∈ (x.1.tables.sel k).spirals := by
    rw [Bool.and_eq_true, bne_iff_ne, List.contains_eq_mem, decide_eq_true_eq]
  unfold takeSpiral
  split
  next h =>
    have hnone : ∀ k < 64, k ≠ i → p ∉ (x.1.tables.sel k).spirals := fun k hk hki hp =>
      List.find?_eq_none.1 h k (List.mem_range.2 hk) ((hfound k).2 ⟨hki, hp⟩)
    have hfree : ¬heldElsewhere x.1 i p = true := fun hheld => by
      obtain ⟨k, hk, hki, hp⟩ := heldElsewhere_iff.1 hheld
      exact hnone k hk hki hp
    rw [if_neg hfree]
    exact ⟨.of_none fun k hk hki q hq => by rw [List.mem_singleton.1 hq]; exact hnone k hk hki, rfl⟩
  next k h =>
    have hk : k < 64 := List.mem_range.1 (List.mem_of_find?_eq_some h)
    obtain ⟨hki, hp⟩ := (hfound k).1 (List.find?_some (p := fun k => k != i && (x.1.tables.sel k).spirals.contains p) h)
    rw [if_pos (heldElsewhere_iff.2 ⟨k, hk, hki, hp⟩)]
    exact ⟨removeFromList_left hx hlen hk hki hp, rfl⟩

/-- A spiral other than `p` is held where it was once `p` has left. -/
theorem SpiralsLeft.heldElsewhere {i p q : Nat} {s t : State} (h : SpiralsLeft i [p] s t) (hq : q ≠ p) :
    heldElsewhere t i q = heldElsewhere s i q := by
  rw [Bool.eq_iff_iff, heldElsewhere_iff, heldElsewhere_iff]
  refine exists_congr fun k => and_congr_right fun hk => and_congr_right fun hki => ?_
  rw [h.lists k hk hki]
  show q ∈ leftOf [p] _ ↔ _
  rw [← filter_bne, List.mem_filter, bne_iff_ne]
  exact and_iff_left hq

theorem takeSpirals_left {i : Nat} (l : List Nat) (hl : l.Nodup) {x : State × Nat} (hx : ListsOk x.1.tables)
    (hlen : x.1.sels.length = 64) : SpiralsLeft i l x.1 (l.foldl (takeSpiral i) x).1 ∧
      (l.foldl (takeSpiral i) x).2 = x.2 + l.countP (heldElsewhere x.1 i) := by
  induction l generalizing x with
  | nil => exact ⟨.of_none fun _ _ _ _ h => absurd h List.not_mem_nil, rfl⟩
  | cons p l ih =>
    obtain ⟨hp, hl⟩ := List.nodup_cons.1 hl
    obtain ⟨hleft, hcount⟩ := takeSpiral_left (i := i) (p := p) hx hlen
    obtain ⟨hrest, hcounted⟩ := ih hl (takeSpiral_lists hx).1 (hleft.length.trans hlen)
    refine ⟨hleft.cons hx hrest, hcounted.trans ?_⟩
    have hsame : l.countP (heldElsewhere (takeSpiral i x p).1 i) = l.countP (heldElsewhere x.1 i) :=
      List.countP_congr fun q hq => by
        have hne : q ≠ p := fun e => hp (e ▸ hq)
        rw [hleft.heldElsewhere hne]
    rw [hcount, hsame, List.countP_cons]
    omega

/-! ### The record applied (R60, R63) -/

/-- A spiral left in no list, and one new to a list. -/
def unlisted (r : SpiralRec) : SpiralRec := { r with state := .unassigned, probePending := false }
def toProbe (r : SpiralRec) : SpiralRec := { r with state := .notHome, probePending := true }

theorem foldl_modSpiral (f : SpiralRec → SpiralRec) (l : List Nat) (s : State) :
    l.foldl (fun s p => modSpiral p f s) s = { s with spirals := updAll l f s.spirals } := by
  induction l generalizing s with
  | nil => rfl
  | cons p l ih => exact ih (modSpiral p f s)

/-- The state once the spirals of the record have left the other lists. -/
def spiralsTaken (i : Nat) (new : SelLoaded) (s : State) : State := (new.spirals.foldl (takeSpiral i) (s, 0)).1

theorem applySel_eq (i : Nat) (new : SelLoaded) (s : State) : (applySel i new s).1 = { spiralsTaken i new s with
    tables.sels := updAt (spiralsTaken i new s).tables.sels i fun _ => new
    sels := if new.spirals = (s.tables.sel i).spirals then (spiralsTaken i new s).sels
      else updAt (spiralsTaken i new s).sels i fun k => { k with next := 0 }
    spirals := updAll (leftOf (s.tables.sel i).spirals new.spirals) toProbe
      (updAll (leftOf new.spirals (s.tables.sel i).spirals) unlisted (spiralsTaken i new s).spirals) } := by
  have hlost := foldl_modSpiral unlisted (leftOf new.spirals (s.tables.sel i).spirals) (spiralsTaken i new s)
  have hgained (u : State) := foldl_modSpiral toProbe (leftOf (s.tables.sel i).spirals new.spirals) u
  unfold applySel
  refine (hgained _).trans ?_
  have hfold : ((s.tables.sel i).spirals.filter fun p => !new.spirals.contains p).foldl (fun s p => unassign p s)
      (new.spirals.foldl (takeSpiral i) (s, 0)).1 = _ := hlost
  dsimp only
  rw [hfold]
  split <;> rfl

/-- What a selection record leaves when it is applied. -/
structure SelApplied (i : Nat) (new : SelLoaded) (s t : State) : Prop where
  rest : { t.tables with sels := s.tables.sels } = s.tables
  own : t.tables.sel i = new
  kept : t.sel i = { s.sel i with next := if new.spirals = (s.tables.sel i).spirals then (s.sel i).next else 0 }
  lists : ∀ k < 64, k ≠ i → t.tables.sel k =
    { s.tables.sel k with spirals := leftOf new.spirals (s.tables.sel k).spirals }
  pointers : ∀ k < 64, k ≠ i → t.sel k = { s.sel k with
    next := closedNext new.spirals (s.tables.sel k).spirals (s.sel k).next }
  spirals : ∀ q < 64, t.spiral q =
    if q ∈ new.spirals ∧ q ∉ (s.tables.sel i).spirals then toProbe (s.spiral q)
    else if q ∈ (s.tables.sel i).spirals ∧ q ∉ new.spirals then unlisted (s.spiral q)
    else s.spiral q

theorem getD_updAt_length {α : Type} {l : List α} {n i : Nat} (hl : l.length = n) (hi : i < n) (f : α → α) (k : Nat)
    (d : α) : (updAt l i f).getD k d = if k = i then f (l.getD k d) else l.getD k d := by
  rw [getD_updAt, hl]
  simp only [hi, and_true]

theorem updAll_length {α : Type} (k : List Nat) (f : α → α) (xs : List α) : (updAll k f xs).length = xs.length := by
  induction k generalizing xs with
  | nil => rfl
  | cons i k ih => exact (ih (updAt xs i f)).trans (length_updAt _ _ _)

theorem mem_leftOf {l was : List Nat} {q : Nat} : q ∈ leftOf l was ↔ q ∈ was ∧ q ∉ l := by
  unfold leftOf
  rw [List.mem_filter, Bool.not_eq_true', List.contains_eq_mem, decide_eq_false_iff_not]

theorem selApplied {i : Nat} {new : SelLoaded} {s : State} (hi : i < 64) (hs : ListsOk s.tables)
    (hspirals : s.spirals.length = 64) (hsels : s.sels.length = 64) (hnodup : new.spirals.Nodup) :
    SelApplied i new s (applySel i new s).1 ∧ (applySel i new s).2 = new.spirals.countP (heldElsewhere s i) := by
  obtain ⟨hleft, hcount⟩ := takeSpirals_left (i := i) new.spirals hnodup (x := (s, 0)) hs hsels
  have htaken : SpiralsLeft i new.spirals s (spiralsTaken i new s) := hleft
  have hframe : Alters [.tables, .sels] s (spiralsTaken i new s) := takeSpirals_alters i new.spirals (s, 0)
  have hsame : (spiralsTaken i new s).spirals = s.spirals := hframe .spirals (by decide)
  have htables : (spiralsTaken i new s).tables.sels.length = 64 := (takeSpirals_lists (i := i) new.spirals (x := (s, 0)) hs).1.1
  have hlen : (spiralsTaken i new s).sels.length = 64 := htaken.length.trans hsels
  refine ⟨?_, hcount.trans (Nat.zero_add _)⟩
  have hown : ({ (spiralsTaken i new s).tables with
      sels := updAt (spiralsTaken i new s).tables.sels i fun _ => new } : Tables).sel i = new :=
    (getD_updAt_length htables hi _ i _).trans (if_pos rfl)
  have hother {k : Nat} (hki : k ≠ i) : ({ (spiralsTaken i new s).tables with
      sels := updAt (spiralsTaken i new s).tables.sels i fun _ => new } : Tables).sel k = (spiralsTaken i new s).tables.sel k :=
    (getD_updAt_length htables hi _ k _).trans (if_neg hki)
  obtain ⟨x, hx⟩ := applySel_tables_sels i new s
  rw [applySel_eq] at hx ⊢
  exact {
    rest := by rw [hx]
    own := hown
    kept := by
      show (ite _ _ _ : List SelKept).getD i _ = _
      split
      next => exact htaken.kept
      next => rw [getD_updAt_length hlen hi, if_pos rfl, ← htaken.kept]; rfl
    lists := fun k hk hki => (hother hki).trans (htaken.lists k hk hki)
    pointers := fun k hk hki => by
      rw [← htaken.pointers k hk hki]
      show (ite _ _ _ : List SelKept).getD k _ = _
      split
      next => rfl
      next => rw [getD_updAt_length hlen hi, if_neg hki]; rfl
    spirals := fun q hq => by
      show (updAll _ _ _).getD q _ = _
      rw [getD_updAll (f := toProbe) fun _ => rfl, getD_updAll (f := unlisted) fun _ => rfl, updAll_length, hsame, hspirals]
      simp only [mem_leftOf, hq, and_true]
      by_cases h : q ∈ new.spirals ∧ q ∉ (s.tables.sel i).spirals
      · rw [if_pos h, if_pos h, if_neg fun hold => hold.2 h.1]
        rfl
      · rw [if_neg h, if_neg h]
        rfl }

end Sys2Proof.Machine
end

