-- ==== Sys2Proof/Proofs/SelectionRecords.lean ====
section
/-! O28: the requests that load the line parameter and a selection record (R60, R62, R63, R140). -/

/- One lemma after another, to keep the memory of a compile small. -/
set_option Elab.async false

namespace Sys2Proof.Machine

theorem Replies.widen {c : Instr} {s : State} {kind : Nat} {outcome : ReplyCode} {payload : List Byte}
    {ps qs : List Part} {good : State → Prop} (h : Replies c s kind outcome payload ps good) (hsub : ∀ p ∈ ps, p ∈ qs) :
    Replies c s kind outcome payload qs good := by
  obtain ⟨t, hexec, hreply, hframe, ht⟩ := h
  refine ⟨t, hexec, hreply, hframe.mono fun p hp => ?_, ht⟩
  rcases List.mem_append.1 hp with hp | hp
  · exact List.mem_append_left _ (hsub p hp)
  · exact List.mem_append_right _ hp

theorem asServed_shape (s : State) : ∃ x g, s.asServed = { s with link := x, lock.tag := g } := by
  obtain ⟨x, g, hshape, -⟩ := received_shape (.load 0 0 0 []) s
  exact ⟨x, g, hshape⟩

/-! ### The line parameter (R140) -/

theorem lineRecord_loads {s : State} (hs : Ready s) (hu : unlocked s) (b : Byte) :
    Replies (.loadTableSection 12 0 1 [b]) s 0x89 .done (char 0 ++ char 0) [.tag, .tables, .storeDefaults, .store]
      fun t => t.tables = { s.tables with pollN := b.toNat } := by
  refine ((⟨rfl, rfl, Nat.zero_lt_one⟩ : OneRecord 12 0 [b]).applied hs hu (u := { s.asServed with
    tables.pollN := b.toNat }) rfl rfl rfl (setTables_alters _ _) (by decide) fun t ht => ?_).widen (by decide)
  have htables : s.asServed.tables = s.tables := asServed_alters s .tables (by decide)
  have hkept := (tablesChanged_alters { s.asServed with tables.pollN := b.toNat }).seq
    (rs := .storeDefaults :: .store :: .staging :: .marks :: dueParts) ht.frame
  exact (hkept .tables (by decide)).trans (congrArg (fun x : Tables => { x with pollN := b.toNat }) htables)

/-! ### A selection record (R62) -/

/-- The list a selection record carries. -/
def sentList (n a b c d : Byte) : List Nat := (([a, b, c, d] : List Byte).take n.toNat).map (·.toNat)

/-- The fields of a selection record (R189). -/
def sentSel (h l z w m n a b c d : Byte) : SelLoaded :=
  { price := num2 h l, zone := z.toNat, perishable := w == 1, firstMode := m == 1, spirals := sentList n a b c d }

section
variable {h l z w m n a b c d : Byte}

theorem listOf_sent : listOf [h, l, z, w, m, n, a, b, c, d] = sentList n a b c d := by
  unfold sentList
  rw [List.map_take]
  rfl

theorem selRecord_listed : codesListed 4 [h, l, z, w, m, n, a, b, c, d] = true ↔ w.toNat ≤ 1 := by
  show (!badFlag (num w)) = true ↔ _
  rw [notBadFlag, decide_eq_true_eq]

/-- A record refused for its contents (R62). -/
def BadSel (z w m n a b c d : Byte) : Prop :=
  1 < z.toNat ∨ 1 < w.toNat ∨ 1 < m.toNat ∨ 4 < n.toNat ∨ (∃ q ∈ sentList n a b c d, 63 < q) ∨
    ¬(sentList n a b c d).Nodup

theorem goodList_sent : goodList (sentList n a b c d) = true ↔
    ¬((∃ q ∈ sentList n a b c d, 63 < q) ∨ ¬(sentList n a b c d).Nodup) := by
  rw [goodList_iff, not_or, not_not, And.comm]
  refine and_congr_left fun _ => ⟨fun h ⟨q, hq, hlt⟩ => absurd (h q hq) (by omega), fun h q hq => ?_⟩
  by_contra hlt
  exact h ⟨q, hq, by omega⟩

/-- A record touches a vend or a service operation in flight (R62). -/
def SelInUse (i : Nat) (list : List Nat) (s : State) : Prop :=
  (∃ v, s.drive.vend = some v ∧ (i = v.sel ∨ ∃ q ∈ list, q ∈ (s.tables.sel v.sel).spirals)) ∨
    ∃ o, s.drive.service = some o ∧ (o.spiral ∈ list ∨ o.spiral ∈ (s.tables.sel i).spirals)

theorem touches_iff (s : State) (i : Nat) (list : List Nat) :
    (touchesVend s i list || touchesService s i list) = true ↔ SelInUse i list s := by
  rw [Bool.or_eq_true]
  refine or_congr ?_ ?_
  · unfold touchesVend
    cases s.drive.vend with
    | none => exact ⟨fun h => absurd h Bool.false_ne_true, fun ⟨v, hv, _⟩ => nomatch hv⟩
    | some v =>
      simp only [Bool.or_eq_true, beq_iff_eq, List.any_eq_true, List.contains_eq_mem, decide_eq_true_eq,
        Option.some.injEq, exists_eq_left']
  · unfold touchesService
    cases s.drive.service with
    | none => exact ⟨fun h => absurd h Bool.false_ne_true, fun ⟨v, hv, _⟩ => nomatch hv⟩
    | some o =>
      simp only [Bool.or_eq_true, List.contains_eq_mem, decide_eq_true_eq, Option.some.injEq, exists_eq_left']

theorem selInUse_asServed (i : Nat) (list : List Nat) (s : State) : SelInUse i list s.asServed ↔ SelInUse i list s := by
  obtain ⟨x, g, hshape⟩ := asServed_shape s
  rw [hshape]
  exact Iff.rfl

theorem BadSel.listed (hgood : ¬BadSel z w m n a b c d) : w.toNat ≤ 1 := by
  unfold BadSel at hgood
  omega

/-- The tests of R62 on the fields, for a record whose flag is listed. -/
theorem badFields_iff {i : Nat} (hi : i < 64) (hw : w.toNat ≤ 1) :
    (decide (63 < i) || decide (1 < num z) || decide (1 < num m) || decide (4 < num n) ||
      !goodList (sentList n a b c d)) = true ↔ BadSel z w m n a b c d := by
  have hi' : ¬63 < i := by omega
  have hw' : ¬1 < w.toNat := by omega
  simp only [Bool.or_eq_true, decide_eq_true_eq, Bool.not_eq_true', ← Bool.not_eq_true, goodList_sent, not_not,
    BadSel, hi', hw', false_or, or_assoc]
  exact Iff.rfl

section
variable {i : Nat} (hi : i < 64) {s : State}
include hi

theorem loadSel_bad (hw : w.toNat ≤ 1) (hbad : BadSel z w m n a b c d) :
    loadSel i [h, l, z, w, m, n, a, b, c, d] s = .error .badArgument := by
  unfold loadSel
  rw [listOf_sent]
  exact if_pos ((badFields_iff hi hw).2 hbad)

variable (hgood : ¬BadSel z w m n a b c d)
include hgood

theorem loadSel_inUse (huse : SelInUse i (sentList n a b c d) s) :
    loadSel i [h, l, z, w, m, n, a, b, c, d] s = .error .busy := by
  unfold loadSel
  rw [listOf_sent]
  exact (if_neg fun hbad => hgood ((badFields_iff hi (BadSel.listed hgood)).1 hbad)).trans
    (if_pos ((touches_iff s i _).2 huse))

theorem loadSel_good (hfree : ¬SelInUse i (sentList n a b c d) s) : loadSel i [h, l, z, w, m, n, a, b, c, d] s =
    .ok ((applySel i (sentSel h l z w m n a b c d) s).1, 0, (applySel i (sentSel h l z w m n a b c d) s).2) := by
  unfold loadSel sentSel
  rw [listOf_sent, ← num_beq_one w, ← num_beq_one m]
  exact (if_neg fun hbad => hgood ((badFields_iff hi (BadSel.listed hgood)).1 hbad)).trans
    (if_neg fun h => hfree ((touches_iff s i _).1 h))

end

theorem SelApplied.frame {i : Nat} {new : SelLoaded} {s u t : State} (hu : SelApplied i new s u)
    (htables : t.tables = u.tables) (hsels : t.sels = u.sels) (hspirals : t.spirals = u.spirals) : SelApplied i new s t := by
  obtain ⟨hrest, hown, hkept, hlists, hpointers, hmoved⟩ := hu
  have hsel (k : Nat) : t.sel k = u.sel k := sel_congr hsels k
  exact ⟨by rw [htables]; exact hrest, by rw [htables]; exact hown, (hsel i).trans hkept,
    fun k hk hki => by rw [htables]; exact hlists k hk hki, fun k hk hki => (hsel k).trans (hpointers k hk hki),
    fun q hq => (spiral_congr hspirals q).trans (hmoved q hq)⟩

section
variable {i : Nat} {s : State} (hi : i < 64) (hs : Ready s) (hu : unlocked s)
include hi hs hu

theorem selRecord_bad (hbad : BadSel z w m n a b c d) :
    RecordRefused s 4 i [h, l, z, w, m, n, a, b, c, d] .badArgument := by
  have hone : OneRecord 4 i [h, l, z, w, m, n, a, b, c, d] := ⟨rfl, rfl, hi⟩
  by_cases hw : w.toNat ≤ 1
  · exact hone.bad hs hu rfl (loadSel_bad hi hw hbad)
  · exact hone.code_refused hs hu (Bool.eq_false_iff.2 fun hlisted => hw (selRecord_listed.1 hlisted))

variable (hgood : ¬BadSel z w m n a b c d)
include hgood

theorem selRecord_inUse (huse : SelInUse i (sentList n a b c d) s) :
    RecordRefused s 4 i [h, l, z, w, m, n, a, b, c, d] .busy :=
  (⟨rfl, rfl, hi⟩ : OneRecord 4 i _).error hs hu (selRecord_listed.2 (BadSel.listed hgood)) rfl
    (loadSel_inUse hi hgood ((selInUse_asServed i _ s).2 huse))

theorem selRecord_loads (hfree : ¬SelInUse i (sentList n a b c d) s) (hlists : ListsOk s.tables)
    (hspirals : s.spirals.length = 64) (hsels : s.sels.length = 64) :
    Replies (.loadTableSection 4 i 1 [h, l, z, w, m, n, a, b, c, d]) s 0x89 .done
      (char 0 ++ char ((sentList n a b c d).countP (heldElsewhere s i)))
      [.tag, .tables, .sels, .spirals, .storeDefaults, .store] (SelApplied i (sentSel h l z w m n a b c d) s) := by
  obtain ⟨x, g, hshape⟩ := asServed_shape s
  have hnodup : (sentList n a b c d).Nodup := by
    by_contra hnot
    exact hgood (.inr (.inr (.inr (.inr (.inr hnot)))))
  have hserved : SelApplied i (sentSel h l z w m n a b c d) s (applySel i (sentSel h l z w m n a b c d) s.asServed).1 ∧
      (applySel i (sentSel h l z w m n a b c d) s.asServed).2 = (sentList n a b c d).countP (heldElsewhere s i) := by
    obtain ⟨happlied, hcount⟩ := selApplied (s := s.asServed) (new := sentSel h l z w m n a b c d) hi
      (by rw [hshape]; exact hlists) (by rw [hshape]; exact hspirals) (by rw [hshape]; exact hsels) hnodup
    rw [hshape] at happlied hcount ⊢
    obtain ⟨hrest, hown, hkept, hlists', hpointers, hmoved⟩ := happlied
    exact ⟨⟨hrest, hown, hkept, hlists', hpointers, hmoved⟩, hcount⟩
  obtain ⟨happlied, hcount⟩ := hserved
  rw [← hcount]
  refine ((⟨rfl, rfl, hi⟩ : OneRecord 4 i _).applied hs hu (selRecord_listed.2 (BadSel.listed hgood)) rfl
    (loadSel_good hi hgood fun huse => hfree ((selInUse_asServed i _ s).1 huse)) (applySel_alters i _ _) (by decide)
    fun t ht => ?_).widen (by decide)
  have hkept := (tablesChanged_alters (applySel i (sentSel h l z w m n a b c d) s.asServed).1).seq
    (rs := .storeDefaults :: .store :: .staging :: .marks :: dueParts) ht.frame
  exact happlied.frame (hkept .tables (by decide)) (hkept .sels (by decide)) (hkept .spirals (by decide))

end

end

end Sys2Proof.Machine
end

