-- ==== Sys2Proof/Proofs/QueueMoves.lean ====
section
/-! O28: what the internal queue's own operations do to the entries of one slot and to the count of dropped commands
(R138, R139, R153, R154, R156). -/

/- One lemma after another, to keep the memory of a compile small. -/
set_option Elab.async false

namespace Sys2Proof.Machine

/-! ### The single moves of the queue -/

/-- A relation from before to after that every single move of the internal queue is in, where a new entry is for a
slot that `ok` allows. -/
structure Moves (ok : Nat → Prop) (R : State → State → Prop) : Prop where
  trans : ∀ {s t u}, R s t → R t u → R s u
  same : ∀ {s t : State}, t.line.queue = s.line.queue → min 65535 s.line.dropped ≤ t.line.dropped → R s t
  masks : ∀ {b p m s}, ok b → R s (enqueueMasks b p m s)
  escrow : ∀ {e : Cmd} {s}, ok e.slot → R s { s with line.queue := insertEscrow e s.line.queue }
  displaced : ∀ {e : Cmd} {s q m}, ok e.slot → removeLastMasks s.line.queue = (q, some m) →
    R s (dropMasksEntry m { s with line.queue := insertEscrow e q })

/-- New entries are allowed for every slot that is PRESENT. -/
def AllowsPresent (ok : Nat → Prop) (s : State) : Prop := ∀ b, s.slotPresent b = true → ok b

theorem slotPresent_congr {s t : State} (h : t.line.slots = s.line.slots) (b : Nat) : t.slotPresent b = s.slotPresent b := by
  simp only [State.slotPresent, slot_congr h]

theorem AllowsPresent.alters {ok : Nat → Prop} {ps : List Part} {s t : State} (hs : AllowsPresent ok s) (h : Alters ps s t)
    (hp : .slots ∉ ps := by decide) : AllowsPresent ok t :=
  fun b hb => hs b (by rwa [← slotPresent_congr (h .slots hp)])

theorem AllowsPresent.reader {ok : Nat → Prop} {s : State} (hs : AllowsPresent ok s) {p : Periph}
    (h : s.periphPresent p = true) : ∀ b, s.slotOf p = some b → ok b := by
  intro b hb
  unfold State.periphPresent at h
  rw [hb] at h
  exact hs b h

theorem mayResend_present {d : Decision} {n : Nat} {s : State} (h : mayResend d n s = true) :
    s.periphPresent .reader = true := (Bool.and_eq_true_iff.1 h).2

section
variable {ok : Nat → Prop} {R : State → State → Prop} (M : Moves ok R)
include M

theorem Moves.refl (s : State) : R s s := M.same rfl (Nat.min_le_right _ _)

theorem Moves.still {ps : List Part} {s t : State} (h : Alters ps s t)
    (hp : Apart [.cmdQueue, .lineCounts] ps := by exact (apart_iff _ _).1 rfl) : R s t := by
  obtain ⟨hqueue, -⟩ := h .cmdQueue (hp _ (by decide))
  obtain ⟨-, -, -, -, -, hdropped⟩ := h .lineCounts (hp _ (by decide))
  exact M.same hqueue (by rw [hdropped]; exact Nat.min_le_right _ _)

theorem Moves.countDropped (s : State) : R s (countDropped s) := by
  refine M.same rfl ?_
  show min 65535 s.line.dropped ≤ min 65535 (s.line.dropped + 1)
  omega

theorem Moves.compareMasks {p : Periph} {s : State} (h : ∀ b, s.slotOf p = some b → ok b) : R s (compareMasks p s) := by
  unfold Machine.compareMasks
  split
  next => exact M.refl s
  next b hb =>
    split
    · exact M.refl s
    · exact M.masks (h b hb)

theorem Moves.pushMasks {s : State} (hs : AllowsPresent ok s) (before : Line) : R s (pushMasks before s) := by
  have hstep (p : Periph) (c : Bool) (u : State) (hu : AllowsPresent ok u) :
      R u (if (c && u.periphPresent p) = true then Machine.compareMasks p u else u) := by
    split
    next h => exact M.compareMasks (hu.reader (Bool.and_eq_true_iff.1 h).2)
    next => exact M.refl u
  have hfirst : Alters [.cmdQueue, .lineCounts, .maskRecs] s
      (if (before.validator.push && s.line.validator.push && s.periphPresent .validator) = true
        then Machine.compareMasks .validator s else s) := .ite (compareMasks_alters _ s) (.refl _ _)
  exact M.trans (hstep .validator _ s hs) (hstep .reader _ _ (hs.alters hfirst))

theorem Moves.placeEscrow {s : State} (hs : AllowsPresent ok s) (h : ∀ b, s.slotOf .reader = some b → ok b) (d : Decision)
    (n : Nat) (tracked : Bool) : R s (placeEscrow d n tracked s) := by
  unfold Machine.placeEscrow
  split
  next => exact M.refl s
  next b hb =>
    dsimp only
    split
    · exact M.escrow (h b hb)
    · split
      next q m hq =>
        have hframe := (queue_alters (insertEscrow { slot := b, body := .escrow d n tracked, mark := false, inFlight := false } q) s).seq
          (rs := [.cmdQueue, .lineCounts, .maskRecs]) (dropMasksEntry_alters m _)
        exact M.trans (M.displaced (h b hb) hq) (M.pushMasks (hs.alters hframe) _)
      next =>
        refine M.trans (M.countDropped s) ?_
        split
        · exact M.same rfl (Nat.min_le_right _ _)
        · exact M.refl _

theorem Moves.masksReturn_dropped (b : Nat) (m : Masks) (s : State) : R s (masksReturn .dropped b m s) := by
  unfold Machine.masksReturn
  dsimp only
  split
  · exact M.still (masksDropped_alters _ _ s)
  · exact M.refl s

theorem Moves.escrowReturn {s : State} (hs : AllowsPresent ok s) (r : CmdReturn) (d : Decision) (n : Nat) (tracked : Bool) :
    R s (escrowReturn r d n tracked s) := by
  unfold Machine.escrowReturn
  split
  · exact M.refl s
  · split
    next h => exact M.placeEscrow hs (hs.reader (mayResend_present (Bool.and_eq_true_iff.1 h).2)) _ _ _
    next => exact M.refl s

theorem Moves.pushWaiting {s : State} (hs : AllowsPresent ok s) (before : Line) : R s (pushWaiting before s) := by
  unfold Machine.pushWaiting
  dsimp only
  split
  next d n _ =>
    have hback (x : Option (Decision × Nat)) : Alters [.cmdQueue] s { s with line.escrowBack := x } := by
      intro p hp; cases p <;> simp_all [Part.same]
    have hmoved (u : State) (hu : AllowsPresent ok u) (hsu : R s u) :
        R s (Machine.pushMasks before (if mayResend d n u = true then Machine.placeEscrow d n true u else u)) := by
      split
      next h =>
        exact M.trans (M.trans hsu (M.placeEscrow hu (hu.reader (mayResend_present h)) _ _ _))
          (M.pushMasks (hu.alters (placeEscrow_alters _ _ _ u)) _)
      next => exact M.trans hsu (M.pushMasks hu _)
    exact hmoved _ (hs.alters (hback _)) (M.same rfl (Nat.min_le_right _ _))
  next => exact M.pushMasks hs _

/-- A command handed back as DROPPED. -/
theorem Moves.returnDropped {s : State} (hs : AllowsPresent ok s) (e : Cmd) : R (Machine.countDropped s) (returnCmd .dropped e s) := by
  have hcounted := hs.alters (countDropped_alters s)
  unfold returnCmd
  rw [if_pos rfl]
  dsimp only
  split
  next m _ => exact M.trans (M.masksReturn_dropped _ m _) (M.pushWaiting (hcounted.alters (masksReturn_alters _ _ _ _)) _)
  next d n tracked _ =>
    exact M.trans (M.escrowReturn hcounted _ _ _ _) (M.pushWaiting (hcounted.alters (escrowReturn_alters _ _ _ _ _)) _)

end

/-! ### The entries of one slot (R141) -/

/-- An entry for a slot that is not in flight. -/
def unsentFor (a : Nat) (e : Cmd) : Bool := e.slot == a && !e.inFlight

/-- How many entries for a slot are not in flight. -/
def unsentCount (a : Nat) (s : State) : Nat := s.line.queue.countP (unsentFor a)

theorem insertEscrow_perm (e : Cmd) (q : List Cmd) : (insertEscrow e q).Perm (e :: q) := by
  induction q with
  | nil => exact .refl _
  | cons x xs ih =>
    unfold insertEscrow
    split
    · exact .refl _
    · exact (ih.cons x).trans (.swap e x xs)

theorem removeLastMasks_perm {q r : List Cmd} {m : Cmd} (h : removeLastMasks q = (r, some m)) : q.Perm (m :: r) := by
  induction q generalizing r with
  | nil => exact nomatch h
  | cons x xs ih =>
    unfold removeLastMasks at h
    split at h
    next ys e hrest =>
      cases h
      exact ((ih hrest).cons x).trans (.swap m x ys)
    next =>
      split at h
      · cases h
        exact .refl _
      · cases h

theorem dropMasksEntry_counts (m : Cmd) (s : State) : (dropMasksEntry m s).line.queue = s.line.queue ∧
    (dropMasksEntry m s).line.dropped = min 65535 (s.line.dropped + 1) := by
  unfold dropMasksEntry
  split
  next p _ =>
    have hframe := masksDropped_alters m.slot p (countDropped s)
    obtain ⟨hqueue, -⟩ := hframe .cmdQueue (by decide)
    obtain ⟨-, -, -, -, -, hdropped⟩ := hframe .lineCounts (by decide)
    exact ⟨hqueue, hdropped⟩
  next => exact ⟨rfl, rfl⟩

/-- A MASKS placed for a slot leaves the entries of another as they are, and the count of dropped commands or one more. -/
theorem enqueueMasks_counts {a b : Nat} (p : Periph) (m : Masks) (s : State) :
    (b ≠ a → unsentCount a (enqueueMasks b p m s) = unsentCount a s) ∧
      min 65535 s.line.dropped ≤ (enqueueMasks b p m s).line.dropped := by
  have hrec (f : MaskRec → MaskRec) (u : State) : (modMaskRec p f u).line.queue = u.line.queue ∧
      (modMaskRec p f u).line.dropped = u.line.dropped := by
    obtain ⟨hqueue, -⟩ := modMaskRec_alters p f u .cmdQueue (by decide)
    obtain ⟨-, -, -, -, -, hdropped⟩ := modMaskRec_alters p f u .lineCounts (by decide)
    exact ⟨hqueue, hdropped⟩
  unfold enqueueMasks unsentCount
  split
  · rw [(hrec _ _).1, (hrec _ _).2]
    refine ⟨fun _ => ?_, Nat.min_le_right _ _⟩
    show (s.line.queue.map _).countP _ = _
    rw [List.countP_map]
    refine List.countP_congr fun e _ => ?_
    show unsentFor a (if e.isUnsentMasks b then { e with body := .masks m } else e) = true ↔ _
    split <;> rfl
  · split
    · rw [(hrec _ _).1, (hrec _ _).2]
      refine ⟨fun hne => ?_, Nat.min_le_right _ _⟩
      show (s.line.queue ++ [_]).countP _ = _
      rw [List.countP_append, List.countP_singleton, if_neg (by simp [unsentFor, hne]), Nat.add_zero]
    · have hframe := masksDropped_alters b p (countDropped s)
      obtain ⟨hqueue, -⟩ := hframe .cmdQueue (by decide)
      obtain ⟨-, -, -, -, -, hdropped⟩ := hframe .lineCounts (by decide)
      rw [hqueue, hdropped]
      refine ⟨fun _ => rfl, ?_⟩
      show min 65535 s.line.dropped ≤ min 65535 (s.line.dropped + 1)
      omega

theorem countP_insertEscrow {a : Nat} {e : Cmd} (he : e.slot ≠ a) (q : List Cmd) :
    (insertEscrow e q).countP (unsentFor a) = q.countP (unsentFor a) := by
  rw [(insertEscrow_perm e q).countP_eq, List.countP_cons_of_neg]
  simp [unsentFor, he]

/-- An entry displaced from the queue is counted as dropped. -/
theorem displaced_counts {a : Nat} {e m : Cmd} {q : List Cmd} {s : State} (he : e.slot ≠ a)
    (h : removeLastMasks s.line.queue = (q, some m)) :
    unsentCount a (dropMasksEntry m { s with line.queue := insertEscrow e q }) ≤ unsentCount a s ∧
      unsentCount a s ≤ unsentCount a (dropMasksEntry m { s with line.queue := insertEscrow e q }) + 1 := by
  have hperm := (removeLastMasks_perm h).countP_eq (unsentFor a)
  obtain ⟨hqueue, -⟩ := dropMasksEntry_counts m { s with line.queue := insertEscrow e q }
  unfold unsentCount
  rw [hqueue, hperm, List.countP_cons]
  show (insertEscrow e q).countP (unsentFor a) ≤ _ ∧ _ ≤ (insertEscrow e q).countP (unsentFor a) + 1
  rw [countP_insertEscrow he]
  split <;> omega

/-- No move takes from the count of dropped commands, but for the bound it stops at. -/
theorem moves_dropped : Moves (fun _ => True) fun s t => min 65535 s.line.dropped ≤ t.line.dropped where
  trans h1 h2 := by omega
  same _ h := h
  masks _ := (enqueueMasks_counts (a := 0) _ _ _).2
  escrow _ := Nat.min_le_right _ _
  displaced {e s q m} _ _ := by
    rw [(dropMasksEntry_counts m _).2]
    show min 65535 s.line.dropped ≤ min 65535 (s.line.dropped + 1)
    omega

/-- No move adds an entry for a slot when none is placed for it. -/
theorem moves_fewer (a : Nat) : Moves (· ≠ a) fun s t => unsentCount a t ≤ unsentCount a s where
  trans h1 h2 := h2.trans h1
  same h _ := by unfold unsentCount; rw [h]
  masks h := ((enqueueMasks_counts _ _ _).1 h).le
  escrow h := (countP_insertEscrow h _).le
  displaced h hq := (displaced_counts h hq).1

/-- Every entry for a slot that leaves the queue is counted as dropped. -/
theorem moves_counted (a : Nat) : Moves (· ≠ a) fun s t =>
    min 65535 (s.line.dropped + unsentCount a s) ≤ t.line.dropped + unsentCount a t where
  trans h1 h2 := by omega
  same h hd := by
    unfold unsentCount
    rw [h]
    omega
  masks {b p m s} h := by
    obtain ⟨hsame, hdropped⟩ := enqueueMasks_counts (a := a) (b := b) p m s
    rw [hsame h]
    omega
  escrow {e s} h := by
    show _ ≤ s.line.dropped + (insertEscrow e s.line.queue).countP (unsentFor a)
    rw [countP_insertEscrow h]
    exact Nat.min_le_right _ _
  displaced {e s q m} h hq := by
    obtain ⟨-, hcount⟩ := displaced_counts h hq
    rw [(dropMasksEntry_counts m _).2]
    show _ ≤ min 65535 (s.line.dropped + 1) + _
    omega

end Sys2Proof.Machine
end

