-- ==== Sys2Proof/Proofs/SlotEmptied.lean ====
section
/-! O28: a slot's unsent commands leave the queue, and what the choice at the end of a step leaves of them (R139, R141). -/

/- One lemma after another, to keep the memory of a compile small. -/
set_option Elab.async false

namespace Sys2Proof.Machine

/-! ### The entries of a slot are dropped (R141) -/

theorem unsentCount_eq_zero {a : Nat} {s : State} (h : unsentCount a s = 0) : ∀ e ∈ s.line.queue, e.slot = a → e.inFlight = true := by
  intro e he hslot
  have hnot := List.countP_eq_zero.1 h e he
  unfold unsentFor at hnot
  rw [beq_iff_eq.2 hslot, Bool.true_and] at hnot
  simpa using hnot

theorem allowsPresent_of_absent {a : Nat} {s : State} (h : s.slotPresent a = false) : AllowsPresent (· ≠ a) s := fun b hb hba => by
  subst hba
  exact absurd (hb.symm.trans h) (by decide)

theorem dropSlotCmds_counts {a : Nat} (n : Nat) {s : State} (hs : s.slotPresent a = false) (hn : unsentCount a s ≤ n) :
    unsentCount a (dropSlotCmds a n s) = 0 ∧
      min 65535 (s.line.dropped + unsentCount a s) ≤ (dropSlotCmds a n s).line.dropped := by
  induction n generalizing s with
  | zero =>
    have hzero : unsentCount a s = 0 := Nat.le_zero.1 hn
    refine ⟨hzero, ?_⟩
    rw [hzero]
    exact Nat.min_le_right _ _
  | succ n ih =>
    unfold dropSlotCmds
    split
    next hnone =>
      have hzero : unsentCount a s = 0 :=
        List.countP_eq_zero.2 fun e he => List.find?_eq_none.1 hnone e he
      refine ⟨hzero, ?_⟩
      rw [hzero]
      exact Nat.min_le_right _ _
    next e he =>
      have hmem : e ∈ s.line.queue := List.mem_of_find?_eq_some he
      have hunsent : unsentFor a e = true := List.find?_some (p := unsentFor a) he
      have herased : unsentCount a { s with line.queue := s.line.queue.erase e } + 1 = unsentCount a s := by
        unfold unsentCount
        rw [(List.perm_cons_erase hmem).countP_eq, List.countP_cons_of_pos hunsent]
      have hallows : AllowsPresent (· ≠ a) { s with line.queue := s.line.queue.erase e } :=
        allowsPresent_of_absent (s := { s with line.queue := s.line.queue.erase e }) hs
      have hfewer := (moves_fewer a).returnDropped hallows e
      have hcounted := (moves_counted a).returnDropped hallows e
      have hreturned := (queue_alters (s.line.queue.erase e) s).seq (rs := [.cmdQueue, .lineCounts, .maskRecs])
        (returnCmd_alters .dropped e _)
      have hone : (countDropped { s with line.queue := s.line.queue.erase e }).line.dropped =
          min 65535 (s.line.dropped + 1) := rfl
      have hsame : unsentCount a (countDropped { s with line.queue := s.line.queue.erase e }) =
          unsentCount a { s with line.queue := s.line.queue.erase e } := rfl
      rw [hsame] at hfewer hcounted
      rw [hone] at hcounted
      obtain ⟨hzero, hdropped⟩ := ih (s := returnCmd .dropped e { s with line.queue := s.line.queue.erase e })
        ((slotPresent_congr (hreturned .slots (by decide)) a).trans hs) (by omega)
      exact ⟨hzero, by omega⟩

/-! ### The end of the step (R139, R140) -/

section
variable {a : Nat} {s : State}

theorem unsentCount_markHead (q : List Cmd) : (markHead q).countP (unsentFor a) ≤ q.countP (unsentFor a) := by
  cases q with
  | nil => exact Nat.le_refl _
  | cons e q =>
    show ({ e with inFlight := true } :: q).countP (unsentFor a) ≤ _
    rw [List.countP_cons_of_neg (by simp [unsentFor])]
    exact (List.sublist_cons_self e q).countP_le

theorem choosePassOrPoll_queue (s : State) : (choosePassOrPoll s).line.queue = s.line.queue ∧
    (choosePassOrPoll s).line.dropped = s.line.dropped := by
  have hframe : Alters [.receiver, .trans, .passQueue, .ring] s (choosePassOrPoll s) := by
    unfold choosePassOrPoll
    split
    · exact (setPass_alters _ s).seq (sendTrans_alters _ _ _)
    · split
      next rest _ =>
        have hlist : Alters [.ring] s { s with line.list := rest } := by
          intro p hp; cases p <;> simp_all [Part.same]
        exact (hlist.trans (roundIfDue_alters _)).seq (sendTrans_alters _ _ _)
      next => exact .refl _ _
  obtain ⟨hqueue, -⟩ := hframe .cmdQueue (by decide)
  obtain ⟨-, -, -, -, -, hdropped⟩ := hframe .lineCounts (by decide)
  exact ⟨hqueue, hdropped⟩

/-- The choice places no command for a slot that is not PRESENT, and takes nothing from the count of dropped ones. -/
theorem chooseNext_counts (n : Nat) (hs : s.slotPresent a = false) : unsentCount a (chooseNext n s) ≤ unsentCount a s ∧
    min 65535 s.line.dropped ≤ (chooseNext n s).line.dropped := by
  induction n generalizing s with
  | zero => exact ⟨Nat.le_refl _, Nat.min_le_right _ _⟩
  | succ n ih =>
    cases hqueue : s.line.queue with
    | nil =>
      obtain ⟨hsame, hdropped⟩ := choosePassOrPoll_queue s
      rw [chooseNext_empty hqueue, hdropped]
      unfold unsentCount
      rw [hsame]
      exact ⟨Nat.le_refl _, Nat.min_le_right _ _⟩
    | cons e es =>
      cases hpresent : s.slotPresent e.slot with
      | true =>
        rw [chooseNext_cmd hqueue hpresent]
        exact ⟨unsentCount_markHead s.line.queue, Nat.min_le_right _ _⟩
      | false =>
        rw [chooseNext_dropped hqueue hpresent]
        have hreturned := (queue_alters es s).seq (rs := [.cmdQueue, .lineCounts, .maskRecs])
          (returnCmd_alters .dropped e { s with line.queue := es })
        have hallows : AllowsPresent (· ≠ a) { s with line.queue := es } :=
          allowsPresent_of_absent (s := { s with line.queue := es }) hs
        have hfewer := (moves_fewer a).returnDropped hallows e
        have hdropped := moves_dropped.returnDropped (s := { s with line.queue := es }) (fun _ _ => trivial) e
        obtain ⟨hrest, hrestDropped⟩ := ih (s := returnCmd .dropped e { s with line.queue := es })
          ((slotPresent_congr (hreturned .slots (by decide)) a).trans hs)
        have htail : unsentCount a (countDropped { s with line.queue := es }) ≤ unsentCount a s := by
          show es.countP (unsentFor a) ≤ s.line.queue.countP (unsentFor a)
          rw [hqueue]
          exact (List.sublist_cons_self e es).countP_le
        have hone : (countDropped { s with line.queue := es }).line.dropped = min 65535 (s.line.dropped + 1) := rfl
        rw [hone] at hdropped
        exact ⟨by omega, by omega⟩

/-- Nor does the end of a step. -/
theorem finish_counts (hrun : s.phase = .run) (hs : s.slotPresent a = false) : unsentCount a (finish s) ≤ unsentCount a s ∧
    min 65535 s.line.dropped ≤ (finish s).line.dropped := by
  have hline := rested_line s
  have hrested : (rested s).slotPresent a = false :=
    (slotPresent_congr (rested_alters s .slots (by decide)) a).trans hs
  have hcounts := chooseNext_counts 16 hrested
  rw [finish_choose hrun]
  unfold lineChoose
  unfold unsentCount at hcounts ⊢
  rw [hline] at hcounts
  split
  · exact hcounts
  · rw [hline]
    exact ⟨Nat.le_refl _, Nat.min_le_right _ _⟩

/-! ### The round's list and the Passes of a slot that is UNUSED (R139, R141) -/

/-- The slot stands in no round's list, and no Pass waits for it. -/
structure NotServed (a : Nat) (s : State) : Prop where
  list : a ∉ s.line.list
  pass : ∀ e ∈ s.line.pass, e.slot = a → e.inFlight = true

theorem NotServed.of_line {s t : State} (hs : NotServed a s) (hlist : t.line.list = s.line.list)
    (hpass : t.line.pass = s.line.pass) : NotServed a t := ⟨by rw [hlist]; exact hs.list, by rw [hpass]; exact hs.pass⟩

theorem beginRound_list (h : s.tables.slotKind a = .unused) : a ∉ (beginRound s).line.list := fun hmem => by
  have hin : inRound s (s.line.round + 1).toNat a = true := (List.mem_filter.1 hmem).2
  exact (inRound_iff.1 hin).1 h

theorem NotServed.roundIfDue (h : s.tables.slotKind a = .unused) (hs : NotServed a s) : NotServed a (roundIfDue s) := by
  unfold Machine.roundIfDue
  split
  · exact ⟨beginRound_list h, hs.pass⟩
  · exact hs

theorem NotServed.choosePassOrPoll (h : s.tables.slotKind a = .unused) (hs : NotServed a s) :
    NotServed a (choosePassOrPoll s) := by
  cases hpass : s.line.pass with
  | cons e rest =>
    rw [choose_pass hpass]
    refine ⟨hs.list, fun x hx hslot => ?_⟩
    have hx' : x ∈ markPass s.line.pass := hx
    rw [hpass] at hx'
    rcases List.mem_cons.1 hx' with rfl | hrest
    · rfl
    · exact hs.pass x (by rw [hpass]; exact .tail _ hrest) hslot
  | nil =>
    cases hlist : s.line.list with
    | nil => rwa [choose_none hpass hlist]
    | cons b rest =>
      rw [choose_poll hpass hlist]
      have hrest : NotServed a { s with line.list := rest } :=
        ⟨fun hmem => hs.list (by rw [hlist]; exact .tail _ hmem), hs.pass⟩
      have hround := NotServed.roundIfDue (s := { s with line.list := rest }) h hrest
      exact hround.of_line rfl rfl

theorem NotServed.chooseNext (n : Nat) (h : s.tables.slotKind a = .unused) (hs : NotServed a s) :
    NotServed a (chooseNext n s) := by
  induction n generalizing s with
  | zero => exact hs
  | succ n ih =>
    cases hqueue : s.line.queue with
    | nil =>
      rw [chooseNext_empty hqueue]
      exact hs.choosePassOrPoll h
    | cons e es =>
      cases hpresent : s.slotPresent e.slot with
      | true =>
        rw [chooseNext_cmd hqueue hpresent]
        exact hs.of_line rfl rfl
      | false =>
        rw [chooseNext_dropped hqueue hpresent]
        have hreturned := (queue_alters es s).seq (rs := [.cmdQueue, .lineCounts, .maskRecs])
          (returnCmd_alters .dropped e { s with line.queue := es })
        obtain ⟨-, hlist, -⟩ := hreturned .ring (by decide)
        have htables : (returnCmd .dropped e { s with line.queue := es }).tables = s.tables := hreturned .tables (by decide)
        exact ih (by rw [htables]; exact h) (hs.of_line hlist (hreturned .passQueue (by decide)))

theorem NotServed.finish (hrun : s.phase = .run) (h : s.tables.slotKind a = .unused) (hs : NotServed a s) :
    NotServed a (finish s) := by
  have hline := rested_line s
  have htables : (rested s).tables = s.tables := rested_alters s .tables (by decide)
  have hrested : NotServed a (rested s) := hs.of_line (by rw [hline]) (by rw [hline])
  rw [finish_choose hrun]
  unfold lineChoose
  split
  · exact hrested.chooseNext 16 (by rw [htables]; exact h)
  · exact hrested

end

end Sys2Proof.Machine
end

