-- ==== Sys2Proof/Proofs/SlotKinds.lean ====
section
/-! O28: a slot's change of kind in its stages: the record and its kind, the unsent commands and Passes, the transaction
in flight, and the peripheral that lost its slot (R141, R158). -/

/- One lemma after another, to keep the memory of a compile small. -/
set_option Elab.async false

namespace Sys2Proof.Machine

/-! ### The stages of the change (R141) -/

/-- The record of a slot whose kind has changed. -/
def absentSlot (r : Slot) : Slot := { r with state := .absent, missed := 0, latch := none, pollFlag := false }

/-- The slot's kind and record are set. -/
def kindSet (a : Nat) (k : SlotKind) (s : State) : State :=
  modSlot a absentSlot { s with tables.slotKinds := updAt s.tables.slotKinds (a - 1) fun _ => k }

/-- Its unsent commands have left the internal queue. -/
def kindDropped (a : Nat) (k : SlotKind) (s : State) : State := dropSlotCmds a 4 (kindSet a k s)

/-- An UNUSED slot has left the round's list, and its unsent Passes their queue. -/
def kindServed (a : Nat) (k : SlotKind) (s : State) : State :=
  if k = .unused then
    roundIfDue (dropSlotPasses a { kindDropped a k s with line.list := (kindDropped a k s).line.list.filter (· != a) })
  else kindDropped a k s

/-- A transaction of the slot runs on unread. -/
def staleFor (a : Nat) (x : Trans) : Trans := if x.slot = a then { x with stale := true } else x

/-- The transaction in flight is marked, and the mask records move with their peripherals. -/
def kindMoved (a : Nat) (k : SlotKind) (s : State) : State :=
  let u := { kindServed a k s with line.trans := (kindServed a k s).line.trans.map (staleFor a) }
  moveMaskRec (u.periphAt a) (moveMaskRec (s.periphAt a) u)

theorem setSlotKind_stages {a : Nat} {k : SlotKind} {s : State} (h : s.tables.slotKind a ≠ k) : setSlotKind a k s =
    tellKindTaken ((kindMoved a k s).periphAt a) (tellKindLost (s.periphAt a) (kindMoved a k s)) := if_neg h

section
variable (a : Nat) (k : SlotKind) (s : State)

theorem kindSet_alters : Alters [.tables, .slots] s (kindSet a k s) :=
  (setTables_alters _ s).seq (modSlot_alters _ _ _)

theorem kindDropped_alters : Alters [.cmdQueue, .lineCounts, .maskRecs] (kindSet a k s) (kindDropped a k s) :=
  dropSlotCmds_alters _ _ _

theorem filterList_alters (l : List Nat) : Alters [.ring] s { s with line.list := l } := by
  intro p hp; cases p <;> simp_all [Part.same]

theorem kindServed_alters : Alters [.passQueue, .events, .ring] (kindDropped a k s) (kindServed a k s) := by
  unfold kindServed
  split
  · exact ((filterList_alters _ _).seq (rs := [.passQueue, .events, .ring]) (dropSlotPasses_alters a _)).seq
      (roundIfDue_alters _)
  · exact .refl _ _

theorem kindServed_other {k : SlotKind} (h : k ≠ .unused) : kindServed a k s = kindDropped a k s := if_neg h

theorem kindMoved_alters : Alters [.trans, .maskRecs] (kindServed a k s) (kindMoved a k s) :=
  ((setTrans_alters _ (kindServed a k s)).seq (rs := [.trans, .maskRecs]) (moveMaskRec_alters _ _)).seq
    (moveMaskRec_alters _ _)

/-- What the stages before the peripheral is told may change. -/
theorem kindMoved_from_set : Alters [.cmdQueue, .lineCounts, .maskRecs, .passQueue, .events, .ring, .trans] (kindSet a k s)
    (kindMoved a k s) :=
  ((kindDropped_alters a k s).seq (rs := [.cmdQueue, .lineCounts, .maskRecs, .passQueue, .events, .ring])
    (kindServed_alters a k s)).seq (kindMoved_alters a k s)

/-- The same for a slot that stays in use: no Pass, no event and no round changes. -/
theorem kindMoved_other_alters {k : SlotKind} (h : k ≠ .unused) :
    Alters [.cmdQueue, .lineCounts, .maskRecs, .trans] (kindSet a k s) (kindMoved a k s) := by
  have hserved := kindMoved_alters a k s
  rw [kindServed_other a s h] at hserved
  exact (kindDropped_alters a k s).seq hserved

theorem kindMoved_trans : (kindMoved a k s).line.trans = s.line.trans.map (staleFor a) := by
  have hkept : (kindServed a k s).line.trans = s.line.trans :=
    ((kindDropped_alters a k s).seq (rs := [.cmdQueue, .lineCounts, .maskRecs, .passQueue, .events, .ring])
      (kindServed_alters a k s)) .trans (by decide)
  rw [← hkept]
  exact ((moveMaskRec_alters _ _).trans (moveMaskRec_alters _ _)) .trans (by decide)

end

/-! ### What the stages leave -/

section
variable {a : Nat} {k : SlotKind} {s : State} (hlow : 1 ≤ a) (hhigh : a ≤ 8) (hslots : s.line.slots.length = 8)
include hlow hhigh hslots

theorem kindSet_slot : (kindSet a k s).slot a = absentSlot (s.slot a) := slot_modSlot hlow hhigh hslots

theorem kindSet_absent : (kindSet a k s).slotPresent a = false := by
  unfold State.slotPresent
  rw [kindSet_slot hlow hhigh hslots]
  rfl

/-- Every unsent command of the slot is dropped and counted. -/
theorem kindMoved_counts (hqueue : s.line.queue.length ≤ 4) : unsentCount a (kindMoved a k s) = 0 ∧
    min 65535 (s.line.dropped + unsentCount a s) ≤ (kindMoved a k s).line.dropped := by
  have hdrop := dropSlotCmds_counts 4 (kindSet_absent (k := k) hlow hhigh hslots)
    ((List.countP_le_length (p := unsentFor a) (l := s.line.queue)).trans hqueue)
  have hrest : Alters [.passQueue, .events, .ring, .trans, .maskRecs] (kindDropped a k s) (kindMoved a k s) :=
    (kindServed_alters a k s).seq (kindMoved_alters a k s)
  obtain ⟨hsame, -⟩ := hrest .cmdQueue (by decide)
  obtain ⟨-, -, -, -, -, hdropped⟩ := hrest .lineCounts (by decide)
  unfold unsentCount
  rw [hsame, hdropped]
  exact hdrop

end

section
variable {a : Nat} {s : State}

theorem foldl_passReply_keeps {l : List PassEntry} {u : State} :
    (l.foldl (fun s e => raisePassReply a 2 e.tag [] s) u).line = u.line := by
  induction l generalizing u with
  | nil => rfl
  | cons e l ih => exact ih

/-- A slot that becomes UNUSED is served no more. -/
theorem kindMoved_notServed (hkind : (kindSet a .unused s).tables.slotKind a = .unused) :
    NotServed a (kindMoved a .unused s) := by
  have hset := kindDropped_alters a .unused s
  have htables : (kindDropped a .unused s).tables = (kindSet a .unused s).tables := hset .tables (by decide)
  have hmoved := kindMoved_alters a .unused s
  obtain ⟨-, hlist, -⟩ := hmoved .ring (by decide)
  refine NotServed.of_line (s := kindServed a .unused s) ?_ hlist (hmoved .passQueue (by decide))
  refine NotServed.roundIfDue ?_ ⟨?_, ?_⟩
  · have hpasses := dropSlotPasses_alters a { kindDropped a .unused s with
      line.list := (kindDropped a .unused s).line.list.filter (· != a) }
    rw [hpasses .tables (by decide)]
    exact (congrArg (fun x : Tables => x.slotKind a) htables).trans hkind
  · unfold dropSlotPasses
    rw [foldl_passReply_keeps]
    simp
  · unfold dropSlotPasses
    rw [foldl_passReply_keeps]
    intro e he hslot
    have hkept : (!(e.slot == a && !e.inFlight)) = true := (List.mem_filter.1 he).2
    rw [beq_iff_eq.2 hslot] at hkept
    simpa using hkept

/-- A lone unsent Pass of the slot is answered DROPPED. -/
theorem kindMoved_passReply {e : PassEntry} (hpass : s.line.pass = [e]) (hslot : e.slot = a) (hflight : e.inFlight = false) :
    RaisesFirst s (kindMoved a .unused s) .passReply (some a) (some (pack 0 0 2 e.tag)) := by
  have hset : Alters [.tables, .slots, .cmdQueue, .lineCounts, .maskRecs] s (kindDropped a .unused s) :=
    (kindSet_alters a .unused s).seq (kindDropped_alters a .unused s)
  have hsame : (kindDropped a .unused s).line.pass = [e] := (hset .passQueue (by decide)).trans hpass
  have hreply : dropSlotPasses a { kindDropped a .unused s with
      line.list := (kindDropped a .unused s).line.list.filter (· != a) } =
        raise .passReply (some a) (some (pack 0 0 2 e.tag)) { kindDropped a .unused s with
          line.list := (kindDropped a .unused s).line.list.filter (· != a), line.pass := [] } := by
    unfold dropSlotPasses
    dsimp only
    rw [hsame]
    simp only [List.filter_cons, List.filter_nil, hslot, hflight, beq_self_eq_true, Bool.not_false, Bool.and_self,
      if_true, Bool.not_true, Bool.false_eq_true, if_false, List.foldl_cons, List.foldl_nil]
    rfl
  refine raisesFirst_of (u := { kindDropped a .unused s with
    line.list := (kindDropped a .unused s).line.list.filter (· != a), line.pass := [] })
    (hset .events (by decide)) (hset .seconds (by decide)) ?_
  rw [← hreply]
  exact (Extends.of_alters (roundIfDue_alters _)).trans (.of_alters (kindMoved_alters a .unused s))

end

end Sys2Proof.Machine
end

