-- ==== Sys2Proof/Proofs/SlotsLoaded.lean ====
section
/-! O28: the peripheral that lost its slot is told, and what the step then leaves of the line and the masks (R16, R36,
R141, R158). -/

/- One lemma after another, to keep the memory of a compile small. -/
set_option Elab.async false

namespace Sys2Proof.Machine

/-! ### Masks sent without a look at presence (R152, R153) -/

/-- New entries are allowed for the slots of both peripherals. -/
def AllowsPeripherals (ok : Nat → Prop) (s : State) : Prop := ∀ p b, s.slotOf p = some b → ok b

theorem AllowsPeripherals.alters {ok : Nat → Prop} {ps : List Part} {s t : State} (hs : AllowsPeripherals ok s)
    (h : Alters ps s t) (hp : .tables ∉ ps := by decide) : AllowsPeripherals ok t :=
  fun p b hb => hs p b (by rwa [← slotOf_congr (h .tables hp)])

section
variable {ok : Nat → Prop} {R : State → State → Prop} (M : Moves ok R) {s : State} (hs : AllowsPeripherals ok s)
include M hs

theorem Moves.sendMasks (p : Periph) (m : Masks) : R s (sendMasks p m s) := by
  unfold Machine.sendMasks
  split
  · exact M.refl s
  · have hset := modMaskRec_alters p (fun r => { r with current := m }) s
    exact M.trans (M.still hset) (M.compareMasks fun b hb => (hs.alters hset) p b hb)

theorem Moves.recomputeNote : R s (recomputeNote s) := by
  unfold Machine.recomputeNote
  split
  · have hset (m : BitVec 8) : Alters [.noteMask] s { s with credit.noteMask := m } := by
      intro p hp; cases p <;> simp_all [Part.same]
    exact M.trans (M.still (hset _)) (M.sendMasks (hs.alters (hset _)) _ _)
  · exact M.refl s

theorem Moves.recomputeMasks : R s (recomputeMasks s) := by
  unfold Machine.recomputeMasks
  split
  · have hset (x y : BitVec 16) : Alters [.coinMasks] s { s with change.accept := x, change.route := y } := by
      intro p hp; cases p <;> simp_all [Part.same]
    have hallows := hs.alters (hset (acceptMask s) (routeMask s))
    exact M.trans (M.trans (M.still (hset _ _)) (M.sendMasks hallows _ _))
      (M.recomputeNote (hallows.alters (sendMasks_alters _ _ _)))
  · exact M.refl s

theorem Moves.expireEscrow : R s (expireEscrow s) := by
  cases h : s.credit.escrow with
  | none => rw [expireEscrow_none h]; exact M.refl s
  | some e =>
    rw [expireEscrow_some h]
    have hraised := raise_alters .escrowUnresolved (some e.noteType) (val (s.tables.note e.noteType).value) (removeEscrow s)
    have hset := hraised.seq (rs := [.events, .sale]) (setSale_alters _)
    have hremoved : R s (removeEscrow s) := M.same rfl (Nat.min_le_right _ _)
    exact M.trans (M.trans hremoved (M.still hset))
      (M.recomputeMasks ((hs.alters (removeEscrow_alters s)).alters hset))

theorem Moves.tellKindLost (p : Option Periph) : R s (tellKindLost p s) := by
  unfold Machine.tellKindLost
  split
  · exact M.trans (M.expireEscrow hs) (M.recomputeNote (hs.alters (expireEscrow_alters s)))
  · exact M.recomputeMasks hs
  · exact M.refl s

end

/-! ### A peripheral with no slot (R16, R35, R141) -/

theorem slotOf_none {p : Periph} {s : State} (hlen : s.tables.slotKinds.length = 8)
    (h : ∀ b, 1 ≤ b → b ≤ 8 → s.tables.slotKind b ≠ p.kind) : s.slotOf p = none := by
  by_contra hne
  obtain ⟨b, hb⟩ := Option.ne_none_iff_exists'.1 hne
  obtain ⟨hle, hget⟩ := findSlot_kind hb
  obtain ⟨hlt, -⟩ := List.getElem?_eq_some_iff.1 hget
  refine h b hle (by omega) ?_
  rw [Tables.slotKind, List.getD_eq_getElem?_getD, hget]
  rfl

theorem noteMask_noReader {s : State} (h : s.slotOf .reader = none) : noteMask s = 0 := by
  have hnone : inNote s = fun _ => false := funext fun k => by
    unfold inNote State.periphSilent
    rw [h]
    simp
  unfold noteMask
  rw [hnone]
  rfl

theorem acceptMask_noValidator {s : State} (h : s.slotOf .validator = none) : acceptMask s = 0 := by
  have hnone : inAccept s = fun _ => false := funext fun k => by
    unfold inAccept State.periphPresent
    rw [h]
    simp
  unfold acceptMask
  rw [hnone]
  rfl

/-- A reader that lost its slot: no note is accepted, and its escrow record has expired (R21). -/
theorem tellKindLost_reader {w : State} (hrun : w.phase = .run) (h : w.slotOf .reader = none) :
    (tellKindLost (some .reader) w).credit.escrow = none ∧ (tellKindLost (some .reader) w).credit.noteMask = 0 ∧
      ∀ e, w.credit.escrow = some e → (tellKindLost (some .reader) w).credit.escrowReserve = 0 ∧
        RaisesFirst w (tellKindLost (some .reader) w) .escrowUnresolved (some e.noteType)
          (val (w.tables.note e.noteType).value) := by
  have hexpired := expireEscrow_alters w
  have hnote := recomputeNote_alters (expireEscrow w)
  have hnone : (expireEscrow w).credit.escrow = none := by
    cases he : w.credit.escrow with
    | none => rw [expireEscrow_none he, he]
    | some e =>
      rw [expireEscrow_some he]
      exact (((raise_alters _ _ _ _).seq (rs := [.events, .sale]) (setSale_alters _)).seq (rs := .events :: .sale :: maskParts)
        (recomputeMasks_alters _)) .escrow (by decide)
  refine ⟨(hnote .escrow (by decide)).trans hnone, ?_, fun e he => ⟨?_, ?_⟩⟩
  · refine (recomputeNote_noteMask ((hexpired .phase (by decide)).trans hrun)).trans (noteMask_noReader ?_)
    rw [slotOf_congr (hexpired .tables (by decide))]
    exact h
  · obtain ⟨-, -, hreserve, -⟩ := hnote .amounts (by decide)
    refine hreserve.trans ?_
    rw [expireEscrow_some he]
    obtain ⟨-, -, hkept, -⟩ := (((raise_alters .escrowUnresolved (some e.noteType) (val (w.tables.note e.noteType).value)
      (removeEscrow w)).seq (rs := [.events, .sale]) (setSale_alters _)).seq (rs := .events :: .sale :: maskParts)
        (recomputeMasks_alters _)) .amounts (by decide)
    exact hkept
  · refine raisesFirst_of (u := removeEscrow w) rfl rfl (Extends.trans ?_ (extends_growth.recomputeNote _))
    rw [expireEscrow_some he]
    exact (Extends.of_alters (setSale_alters _)).trans (extends_growth.recomputeMasks _)

/-- A validator that lost its slot: no coin is accepted. -/
theorem tellKindLost_validator {w : State} (hrun : w.phase = .run) (h : w.slotOf .validator = none) :
    (tellKindLost (some .validator) w).change.accept = 0 :=
  (recomputeMasks_masks hrun).1.trans (acceptMask_noValidator h)

end Sys2Proof.Machine
end

