-- ==== Sys2Proof/Proofs/SlotRecords.lean ====
section
/-! O28: the request that loads a slot record, and the three records together (R57, R62, R63, R140, R141). -/

/- One lemma after another, to keep the memory of a compile small. -/
set_option Elab.async false

namespace Sys2Proof.Machine

/-! ### A slot of a new kind, from its stages to the end of the step -/

section
variable {a : Nat} {k : SlotKind} {s : State}

theorem setSlotKind_kind (hlow : 1 ≤ a) (hhigh : a ≤ 8) (hkinds : s.tables.slotKinds.length = 8) :
    (setSlotKind a k s).tables.slotKind a = k := by
  rw [setSlotKind_tables_eq]
  exact (getD_updAt_length hkinds (show a - 1 < 8 by omega) _ _ _).trans (if_pos rfl)

/-- The kinds of the other slots stay. -/
theorem setSlotKind_otherKind {b : Nat} (hlow : 1 ≤ a) (hhigh : a ≤ 8) (hkinds : s.tables.slotKinds.length = 8) (hb : 1 ≤ b)
    (hba : b ≠ a) : (setSlotKind a k s).tables.slotKind b = s.tables.slotKind b := by
  rw [setSlotKind_tables_eq]
  exact (getD_updAt_length hkinds (show a - 1 < 8 by omega) _ _ _).trans (if_neg (by omega))

variable (hne : s.tables.slotKind a ≠ k)
include hne

/-- The peripherals are told. -/
theorem setSlotKind_told : Alters (.escrow :: moneyParts) (kindMoved a k s) (setSlotKind a k s) := by
  rw [setSlotKind_stages hne]
  exact (tellKindLost_alters_parts _ _).seq (tellKindTaken_alters _ _)

theorem setSlotKind_slots : (setSlotKind a k s).line.slots = (kindSet a k s).line.slots :=
  (setSlotKind_told hne .slots (by decide)).trans (kindMoved_from_set a k s .slots (by decide))

theorem setSlotKind_trans : (setSlotKind a k s).line.trans = s.line.trans.map (staleFor a) :=
  (setSlotKind_told hne .trans (by decide)).trans (kindMoved_trans a k s)

theorem setSlotKind_pass (hk : k ≠ .unused) : (setSlotKind a k s).line.pass = s.line.pass :=
  (setSlotKind_told hne .passQueue (by decide)).trans ((kindMoved_other_alters a s hk .passQueue (by decide)).trans
    (kindSet_alters a k s .passQueue (by decide)))

theorem kindMoved_tables : (kindMoved a k s).tables = (setSlotKind a k s).tables :=
  (setSlotKind_told hne .tables (by decide)).symm

/-- A peripheral that had this slot alone has none. -/
theorem kindMoved_slotOf {p : Periph} (hlow : 1 ≤ a) (hhigh : a ≤ 8) (hkinds : s.tables.slotKinds.length = 8)
    (hold : s.tables.slotKind a = p.kind) (honly : ∀ b, 1 ≤ b → b ≤ 8 → s.tables.slotKind b = p.kind → b = a) :
    (kindMoved a k s).slotOf p = none := by
  rw [slotOf_congr (kindMoved_tables hne)]
  refine slotOf_none ?_ fun b hb hb8 hkind => ?_
  · rw [setSlotKind_tables_eq]
    exact (length_updAt _ _ _).trans hkinds
  · by_cases hba : b = a
    · subst hba
      rw [setSlotKind_kind hlow hhigh hkinds] at hkind
      exact hne (hold.trans hkind.symm)
    · rw [setSlotKind_otherKind hlow hhigh hkinds hb hba] at hkind
      exact hba (honly b hb hb8 hkind)

theorem setSlotKind_moves {ok : Nat → Prop} {R : State → State → Prop} (M : Moves ok R)
    (hok : AllowsPeripherals ok (kindMoved a k s)) : R (kindMoved a k s) (setSlotKind a k s) := by
  rw [setSlotKind_stages hne]
  exact M.trans (M.tellKindLost hok _) (M.still (tellKindTaken_alters _ _))

/-- The peripheral's loss raises its events behind those of the Passes. -/
theorem setSlotKind_extends : Extends (kindMoved a k s) (setSlotKind a k s) := by
  have hlost (p : Option Periph) (w : State) : Extends w (tellKindLost p w) := by
    unfold tellKindLost
    split
    · exact (extends_growth.expireEscrow w).trans (extends_growth.recomputeNote _)
    · exact extends_growth.recomputeMasks w
    · exact .rfl
  rw [setSlotKind_stages hne]
  exact (hlost _ _).trans (.of_alters (tellKindTaken_alters _ _))

theorem setSlotKind_lost {p : Periph} (hold : s.tables.slotKind a = p.kind) :
    setSlotKind a k s = tellKindTaken ((kindMoved a k s).periphAt a) (tellKindLost (some p) (kindMoved a k s)) := by
  have hperiph : s.periphAt a = some p := by
    unfold State.periphAt
    rw [hold]
    cases p <;> rfl
  rw [setSlotKind_stages hne, hperiph]

theorem setSlotKind_phase : (setSlotKind a k s).phase = s.phase ∧ (kindMoved a k s).phase = s.phase := by
  have hmoved : (kindMoved a k s).phase = s.phase :=
    (kindMoved_from_set a k s .phase (by decide)).trans (kindSet_alters a k s .phase (by decide))
  exact ⟨(setSlotKind_told hne .phase (by decide)).trans hmoved, hmoved⟩

end

/-- A slot of no peripheral's kind is the slot of none. -/
theorem allowsPeripherals_of_kind {a : Nat} {u : State} (h : u.periphAt a = none) : AllowsPeripherals (· ≠ a) u :=
  fun p b hb hba => by
    subst hba
    exact nomatch h.symm.trans (periphAt_slotOf hb)

/-! ### What the slot record leaves at the end of the step -/

/-- What lies between the change of kind and the end of the step. -/
def replyingParts : List Part := [.storeDefaults, .store, .sale, .payout, .grants, .staging, .marks]

theorem replying_absent {a : Nat} {k : SlotKind} {s v : State} (hne : s.tables.slotKind a ≠ k)
    (hv : Alters replyingParts (setSlotKind a k s) v) (hlow : 1 ≤ a) (hhigh : a ≤ 8) (hslots : s.line.slots.length = 8) :
    v.slotPresent a = false :=
  (slotPresent_congr ((hv .slots (by decide)).trans (setSlotKind_slots hne)) a).trans (kindSet_absent hlow hhigh hslots)

section
variable {a : Nat} {k : SlotKind} {s v : State} (hne : s.tables.slotKind a ≠ k) (hrun : s.phase = .run)
  (hv : Alters replyingParts (setSlotKind a k s) v)
include hne hrun hv

theorem replying_run : v.phase = .run := (hv .phase (by decide)).trans ((setSlotKind_phase hne).1.trans hrun)

theorem finished_frame : Alters (replyingParts ++ dueParts) (setSlotKind a k s) (finish v) :=
  (hv.seq (rs := replyingParts ++ dueParts) (finish_alters v (replying_run hne hrun hv)))

theorem finished_tables : (finish v).tables = { s.tables with slotKinds := s.tables.slotKinds.set (a - 1) k } := by
  rw [finished_frame hne hrun hv .tables (by decide), setSlotKind_tables_eq, updAt_eq_set]

theorem finished_slots : (finish v).line.slots = (kindSet a k s).line.slots :=
  (finished_frame hne hrun hv .slots (by decide)).trans (setSlotKind_slots hne)

theorem finished_other {b : Nat} (hlow : 1 ≤ a) (hb : 1 ≤ b) (hba : b ≠ a) : (finish v).slot b = s.slot b :=
  (slot_congr (finished_slots hne hrun hv) b).trans (slot_modSlot_other hlow hb hba)

section
variable (hlow : 1 ≤ a) (hhigh : a ≤ 8) (hslots : s.line.slots.length = 8)
include hlow hhigh hslots

theorem finished_slot : (finish v).slot a = absentSlot (s.slot a) :=
  (slot_congr (finished_slots hne hrun hv) a).trans (kindSet_slot hlow hhigh hslots)

theorem finished_dropped (hqueue : s.line.queue.length ≤ 4) :
    upto16 s.line.dropped (unsentCount a s) ≤ (finish v).line.dropped := by
  obtain ⟨-, hdropped⟩ := kindMoved_counts (k := k) hlow hhigh hslots hqueue
  have hmoved := setSlotKind_moves hne moves_dropped fun _ _ _ => trivial
  obtain ⟨-, hfinished⟩ := finish_counts (replying_run hne hrun hv) (replying_absent hne hv hlow hhigh hslots)
  obtain ⟨-, -, -, -, -, hsame⟩ := hv .lineCounts (by decide)
  rw [hsame] at hfinished
  unfold upto16
  omega

theorem finished_queue (hkinds : s.tables.slotKinds.length = 8) (hqueue : s.line.queue.length ≤ 4)
    (hk : k = .unused ∨ k = .other) : ∀ e ∈ (finish v).line.queue, e.slot = a → e.inFlight = true := by
  obtain ⟨hzero, -⟩ := kindMoved_counts (k := k) hlow hhigh hslots hqueue
  have hperiph : (kindMoved a k s).periphAt a = none := by
    unfold State.periphAt
    rw [kindMoved_tables hne, setSlotKind_kind hlow hhigh hkinds]
    rcases hk with rfl | rfl <;> rfl
  have hmoved := setSlotKind_moves hne (moves_fewer a) (allowsPeripherals_of_kind hperiph)
  obtain ⟨hfinished, -⟩ := finish_counts (replying_run hne hrun hv) (replying_absent hne hv hlow hhigh hslots)
  obtain ⟨hsame, -⟩ := hv .cmdQueue (by decide)
  refine unsentCount_eq_zero ?_
  have hstill : unsentCount a v = unsentCount a (setSlotKind a k s) := by
    unfold unsentCount
    rw [hsame]
  omega

end

/-- A transaction in flight runs on, and while it does the line makes no other choice. -/
theorem finished_trans {x : Trans} (hx : s.line.trans = some x) :
    (finish v).line.trans = some { x with stale := x.stale || x.slot == a } ∧
      (k ≠ .unused → (finish v).line.pass = s.line.pass) := by
  have htrans : v.line.trans = some (staleFor a x) := by
    rw [hv .trans (by decide), setSlotKind_trans hne, hx]
    rfl
  have hline := finish_line (replying_run hne hrun hv) (.inr (by rw [htrans]; rfl))
  have hstale : staleFor a x = { x with stale := x.stale || x.slot == a } := by
    unfold staleFor
    split
    next h => rw [beq_iff_eq.2 h, Bool.or_true]
    next h => rw [beq_eq_false_iff_ne.2 h, Bool.or_false]
  rw [hline, htrans, hstale]
  exact ⟨rfl, fun hk => (hv .passQueue (by decide)).trans (setSlotKind_pass hne hk)⟩

theorem finished_extends {w : State} (hw : Extends w (setSlotKind a k s)) : Extends w (finish v) :=
  hw.trans ((Extends.of_alters hv).trans (extends_finish (replying_run hne hrun hv)))

/-- A slot that becomes UNUSED is served no more, and its lone Pass is answered. -/
theorem finished_unused (hlow : 1 ≤ a) (hhigh : a ≤ 8) (hkinds : s.tables.slotKinds.length = 8) (hk : k = .unused) :
    a ∉ (finish v).line.list ∧ (∀ e ∈ (finish v).line.pass, e.slot = a → e.inFlight = true) ∧
      ∀ e, s.line.pass = [e] → e.slot = a → e.inFlight = false →
        RaisesFirst s (finish v) .passReply (some a) (some (pack 0 0 2 e.tag)) := by
  subst hk
  have hset : (kindSet a .unused s).tables = (setSlotKind a .unused s).tables := by
    rw [setSlotKind_tables_eq]
    rfl
  have hkind := setSlotKind_kind (k := .unused) hlow hhigh hkinds
  have hmoved : NotServed a (kindMoved a .unused s) := kindMoved_notServed (by rw [hset]; exact hkind)
  have htold := setSlotKind_told hne
  obtain ⟨-, hlist, -⟩ := htold .ring (by decide)
  have hserved : NotServed a (setSlotKind a .unused s) := hmoved.of_line hlist (htold .passQueue (by decide))
  obtain ⟨-, hlist', -⟩ := hv .ring (by decide)
  have hkind' : v.tables.slotKind a = .unused := by rw [hv .tables (by decide)]; exact hkind
  have hfinished := (hserved.of_line hlist' (hv .passQueue (by decide))).finish (replying_run hne hrun hv) hkind'
  exact ⟨hfinished.list, hfinished.pass, fun e hpass hslot hflight =>
    (kindMoved_passReply hpass hslot hflight).after (finished_extends hne hrun hv (setSlotKind_extends hne))⟩

section
variable (hlow : 1 ≤ a) (hhigh : a ≤ 8) (hkinds : s.tables.slotKinds.length = 8)
include hlow hhigh hkinds

/-- A lone reader's slot that takes another kind. -/
theorem finished_reader (hold : s.tables.slotKind a = .noteReader)
    (honly : ∀ b, 1 ≤ b → b ≤ 8 → s.tables.slotKind b = .noteReader → b = a) :
    (finish v).credit.escrow = none ∧ (finish v).credit.noteMask = 0 ∧
      ∀ e, s.credit.escrow = some e → (finish v).credit.escrowReserve = 0 ∧
        (k ≠ .unused → RaisesFirst s (finish v) .escrowUnresolved (some e.noteType)
          (val (s.tables.note e.noteType).value)) := by
  have hlost := setSlotKind_lost (p := .reader) hne hold
  have htaken : setSlotKind a k s = tellKindLost (some .reader) (kindMoved a k s) := by
    have hperiph : (kindMoved a k s).periphAt a ≠ some .reader := fun h => by
      unfold State.periphAt at h
      rw [kindMoved_tables hne, setSlotKind_kind hlow hhigh hkinds] at h
      cases k with
      | noteReader => exact hne hold
      | _ => exact nomatch h
    rw [hlost]
    unfold tellKindTaken
    split
    next h => exact absurd h hperiph
    next => rfl
    next => rfl
  have hslot := kindMoved_slotOf (p := .reader) hne hlow hhigh hkinds hold honly
  obtain ⟨hescrow, hmask, hraised⟩ := tellKindLost_reader ((setSlotKind_phase hne).2.trans hrun) hslot
  rw [← htaken] at hescrow hmask hraised
  have hframe := finished_frame hne hrun hv
  have hset : Alters [.tables, .slots, .cmdQueue, .lineCounts, .maskRecs, .passQueue, .events, .ring, .trans] s
      (kindMoved a k s) := (kindSet_alters a k s).seq (kindMoved_from_set a k s)
  refine ⟨(hframe .escrow (by decide)).trans hescrow, (hframe .noteMask (by decide)).trans hmask, fun e he => ?_⟩
  obtain ⟨hreserve, hevent⟩ := hraised e ((hset .escrow (by decide)).trans he)
  obtain ⟨-, -, hkept, -⟩ := hframe .amounts (by decide)
  refine ⟨hkept.trans hreserve, fun hk => ?_⟩
  have hother := (kindSet_alters a k s).seq (rs := [.tables, .slots, .cmdQueue, .lineCounts, .maskRecs, .trans])
    (kindMoved_other_alters a s hk)
  have hnote : (kindMoved a k s).tables.note e.noteType = s.tables.note e.noteType := by
    rw [kindMoved_tables hne, setSlotKind_tables_eq]
    rfl
  rw [hnote] at hevent
  exact (hevent.after (finished_extends hne hrun hv .rfl)).before (hother .events (by decide)) (hother .seconds (by decide))

/-- A lone validator's slot that takes another kind. -/
theorem finished_validator (hold : s.tables.slotKind a = .coinValidator)
    (honly : ∀ b, 1 ≤ b → b ≤ 8 → s.tables.slotKind b = .coinValidator → b = a) : (finish v).change.accept = 0 := by
  have hlost := setSlotKind_lost (p := .validator) hne hold
  have hslot := kindMoved_slotOf (p := .validator) hne hlow hhigh hkinds hold honly
  have haccept := tellKindLost_validator ((setSlotKind_phase hne).2.trans hrun) hslot
  obtain ⟨htaken, -⟩ := tellKindTaken_alters ((kindMoved a k s).periphAt a)
    (tellKindLost (some .validator) (kindMoved a k s)) .coinMasks (by decide)
  rw [← hlost] at htaken
  obtain ⟨hkept, -⟩ := finished_frame hne hrun hv .coinMasks (by decide)
  exact hkept.trans (htaken.trans haccept)

end

end

end Sys2Proof.Machine
end

