-- ==== Sys2Proof/Proofs/RecordsTakeEffect.lean ====
section
/-! O28: the request that loads a slot record (R141, R188), and the line, selection and slot records together. -/

/- One lemma after another, to keep the memory of a compile small. -/
set_option Elab.async false

namespace Sys2Proof.Machine

/-! ### The slot record (R141) -/

theorem kindOf_unlisted {n : Nat} (h : 3 < n) : kindOf n = none := by
  obtain ⟨m, rfl⟩ := Nat.exists_eq_add_of_le' h
  rfl

theorem kindOf_listed {b : Byte} {kind : SlotKind}
    (h : (b.toNat, kind) ∈ [(0, SlotKind.unused), (1, .coinValidator), (2, .noteReader), (3, .other)]) :
    kindOf (num b) = some kind := by
  simp only [List.mem_cons, Prod.mk.injEq, List.not_mem_nil, or_false] at h
  unfold num
  rcases h with ⟨hb, rfl⟩ | ⟨hb, rfl⟩ | ⟨hb, rfl⟩ | ⟨hb, rfl⟩ <;> rw [hb] <;> rfl

theorem kindTaken_iff (s : State) (a : Nat) (kind : SlotKind) : kindTaken s a kind = true ↔
    (kind = .coinValidator ∨ kind = .noteReader) ∧ ∃ b, 1 ≤ b ∧ b ≤ 8 ∧ b ≠ a ∧ s.tables.slotKind b = kind := by
  simp only [kindTaken, Bool.and_eq_true, Bool.or_eq_true, beq_iff_eq, List.any_eq_true, mem_addresses, bne_iff_ne,
    and_assoc]

theorem kindTaken_asServed (s : State) (a : Nat) (kind : SlotKind) : kindTaken s.asServed a kind = kindTaken s a kind := by
  have htables : s.asServed.tables = s.tables := asServed_alters s .tables (by decide)
  unfold kindTaken
  rw [htables]

section
variable {a : Nat} {b : Byte} {kind : SlotKind} (hlow : 1 ≤ a) (hkind : kindOf (num b) = some kind)
include hlow hkind

theorem loadSlot_taken {v : State} (h : kindTaken v a kind = true) : loadSlot (a - 1) [b] v = .error .badArgument := by
  unfold loadSlot
  rw [show at1 [b] 0 = num b from rfl, hkind, Nat.sub_add_cancel hlow]
  exact if_pos h

theorem loadSlot_set {v : State} (h : kindTaken v a kind = false) :
    loadSlot (a - 1) [b] v = .ok (setSlotKind a kind v, 0, 0) := by
  unfold loadSlot
  rw [show at1 [b] 0 = num b from rfl, hkind, Nat.sub_add_cancel hlow]
  exact if_neg (by rw [h]; exact Bool.false_ne_true)

variable (hhigh : a ≤ 8) {s : State} (hs : Ready s) (hu : unlocked s)
include hhigh hs hu

theorem slotRecord_taken (h : kindTaken s a kind = true) : RecordRefused s 11 (a - 1) [b] .badArgument :=
  (⟨rfl, rfl, (by show a - 1 < 8; omega)⟩ : OneRecord 11 (a - 1) [b]).bad hs hu rfl
    (loadSlot_taken hlow hkind ((kindTaken_asServed s a kind).trans h))

/-- A slot record that is applied, seen from the end of its step. -/
theorem slotRecord_loads (h : kindTaken s a kind = false) {good : State → Prop}
    (hgood : ∀ v, Alters replyingParts (setSlotKind a kind s.asServed) v → good (finish v)) :
    Replies (.loadTableSection 11 (a - 1) 1 [b]) s 0x89 .done (char 0 ++ char 0)
      (.tag :: .storeDefaults :: .store :: slotKindParts) good := by
  have hone : OneRecord 11 (a - 1) [b] := ⟨rfl, rfl, by show a - 1 < 8; omega⟩
  have hlisted : codesListed 11 [b] = true := by
    show (kindOf (num b)).isSome = true
    rw [hkind]
    rfl
  have hstep := loadSlot_set hlow hkind ((kindTaken_asServed s a kind).trans h)
  have hload : loadSection 11 (a - 1) 1 [b] s.asServed =
      .ok (tablesChanged (afterSection 11 (setSlotKind a kind s.asServed)), 0, 0) :=
    loadSection_ok hone.fits (hone.listed hlisted) rfl (by rw [hone.records]; exact loadAll_one_ok hstep)
  have hx : serveOwner (.load 11 (a - 1) 1 [b]) (received (.load 11 (a - 1) 1 [b]) s) =
      (tablesChanged (setSlotKind a kind s.asServed), .done, char 0 ++ char 0) := by
    show serveLoad 11 (a - 1) 1 [b] s.asServed = _
    unfold serveLoad
    rw [hload]
    rfl
  have hstored := tablesChanged_alters (setSlotKind a kind s.asServed)
  have hparts : Alters (.tag :: .storeDefaults :: .store :: slotKindParts) s.asServed
      (tablesChanged (setSlotKind a kind s.asServed)) :=
    (setSlotKind_alters a kind s.asServed).seq (rs := .tag :: .storeDefaults :: .store :: slotKindParts) hstored
      (by simp +contextual) (by simp)
  have hreplies := (replies_of_owner (good := fun _ => True) (c := .loadTableSection 11 (a - 1) 1 [b])
    (r := .load 11 (a - 1) 1 [b]) rfl hs (fun _ => hu) hx hparts (.inr (by decide)) (by decide)
    fun _ _ => trivial).strengthen (good' := good) fun t hexec _ => by
      rw [exec_served (r := .load 11 (a - 1) 1 [b]) rfl hs (fun _ => hu) hx] at hexec
      cases hexec
      exact hgood _ (hstored.seq (answered_alters _ _))
  have hcode : (Request.load 11 (a - 1) 1 [b]).kind ||| 0x80 = 0x89 := by simp [Request.kind]
  rwa [hcode] at hreplies

end

/-- A record of the kind the slot has changes no slot. -/
theorem slotRecord_same {a : Nat} {kind : SlotKind} {s v : State} (hs : Ready s) (hsame : s.tables.slotKind a = kind)
    (hv : Alters replyingParts (setSlotKind a kind s.asServed) v) :
    (finish v).tables = s.tables ∧ (finish v).line.slots = s.line.slots := by
  have hserved := asServed_alters s
  have hkept : setSlotKind a kind s.asServed = s.asServed :=
    setSlotKind_same (by rw [hserved .tables (by decide)]; exact hsame)
  rw [hkept] at hv
  have hrun : v.phase = .run := (hv .phase (by decide)).trans ((hserved .phase (by decide)).trans hs.run)
  have hframe := hv.seq (rs := replyingParts ++ dueParts) (finish_alters v hrun)
  exact ⟨(hframe .tables (by decide)).trans (hserved .tables (by decide)),
    (hframe .slots (by decide)).trans (hserved .slots (by decide))⟩

/-- What a slot record of a new kind leaves (R141). -/
def SlotChanged (a : Nat) (kind : SlotKind) (s t : State) : Prop :=
  t.tables = { s.tables with slotKinds := s.tables.slotKinds.set (a - 1) kind } ∧
  (t.slot a).state = .absent ∧ (t.slot a).missed = 0 ∧ (t.slot a).latch = none ∧
  (t.slot a).noise = (s.slot a).noise ∧ (t.slot a).contention = (s.slot a).contention ∧
  (∀ b, 1 ≤ b → b ≤ 8 → b ≠ a → t.slot b = s.slot b) ∧
  (kind = .unused ∨ kind = .other → ∀ e ∈ t.line.queue, e.slot = a → e.inFlight = true) ∧
  upto16 s.line.dropped (s.line.queue.countP fun e => e.slot == a && !e.inFlight) ≤ t.line.dropped ∧
  (kind = .unused → a ∉ t.line.list ∧ (∀ e ∈ t.line.pass, e.slot = a → e.inFlight = true) ∧
    ∀ e, s.line.pass = [e] → e.slot = a → e.inFlight = false →
      RaisesFirst s t .passReply (some a) (some (pack 0 0 2 e.tag))) ∧
  (∀ x, s.line.trans = some x → t.line.trans = some { x with stale := x.stale || x.slot == a } ∧
    (kind ≠ .unused → t.line.pass = s.line.pass)) ∧
  (s.tables.slotKind a = .noteReader → (∀ b, 1 ≤ b → b ≤ 8 → s.tables.slotKind b = s.tables.slotKind a → b = a) →
    t.credit.escrow = none ∧ t.credit.noteMask = 0 ∧
      ∀ e, s.credit.escrow = some e → t.credit.escrowReserve = 0 ∧
        (kind ≠ .unused → RaisesFirst s t .escrowUnresolved (some e.noteType)
          (val (s.tables.note e.noteType).value))) ∧
  (s.tables.slotKind a = .coinValidator → (∀ b, 1 ≤ b → b ≤ 8 → s.tables.slotKind b = s.tables.slotKind a → b = a) →
    t.change.accept = 0)

theorem slotChanged {a : Nat} {kind : SlotKind} {s v : State} (hne : s.tables.slotKind a ≠ kind) (hrun : s.phase = .run)
    (hv : Alters replyingParts (setSlotKind a kind s) v) (hlow : 1 ≤ a) (hhigh : a ≤ 8)
    (hkinds : s.tables.slotKinds.length = 8) (hslots : s.line.slots.length = 8) (hqueue : s.line.queue.length ≤ 4) :
    SlotChanged a kind s (finish v) := by
  have hslot := finished_slot hne hrun hv hlow hhigh hslots
  exact ⟨finished_tables hne hrun hv, by rw [hslot]; rfl, by rw [hslot]; rfl, by rw [hslot]; rfl, by rw [hslot]; rfl,
    by rw [hslot]; rfl, fun b hb _ hba => finished_other hne hrun hv hlow hb hba,
    finished_queue hne hrun hv hlow hhigh hslots hkinds hqueue, finished_dropped hne hrun hv hlow hhigh hslots hqueue,
    finished_unused hne hrun hv hlow hhigh hkinds, fun y hy => finished_trans hne hrun hv hy,
    fun hold honly => finished_reader hne hrun hv hlow hhigh hkinds hold fun b h1 h8 hb => honly b h1 h8 (hb.trans hold.symm),
    fun hold honly =>
      finished_validator hne hrun hv hlow hhigh hkinds hold fun b h1 h8 hb => honly b h1 h8 (hb.trans hold.symm)⟩

/-- A slot record of a new kind, once the request is taken. -/
theorem slotRecord_changed {a : Nat} {kind : SlotKind} {s v : State} (hs : Ready s) (hne : s.tables.slotKind a ≠ kind)
    (hv : Alters replyingParts (setSlotKind a kind s.asServed) v) (hlow : 1 ≤ a) (hhigh : a ≤ 8)
    (hkinds : s.tables.slotKinds.length = 8) (hslots : s.line.slots.length = 8) (hqueue : s.line.queue.length ≤ 4) :
    SlotChanged a kind s (finish v) := by
  obtain ⟨x, g, hshape⟩ := asServed_shape s
  rw [hshape] at hv
  have hchanged := slotChanged (s := { s with link := x, lock.tag := g }) hne hs.run hv hlow hhigh hkinds hslots hqueue
  exact hchanged

/-- Settles O28. -/
theorem selectionSlotAndLineLoadsTakeEffect : Obligations.SelectionSlotAndLineLoadsTakeEffect := by
  refine ⟨fun b s hs hu => lineRecord_loads hs hu b, fun i h l z w m n a b c d s hs hu hi hlists hspirals hsels =>
    ⟨selRecord_bad hi hs hu, fun hgood => selRecord_inUse hi hs hu hgood, fun hgood hfree =>
      ⟨_, (selRecord_loads hi hs hu hgood hfree hlists hspirals hsels).strengthen fun t _ ht =>
        ⟨rfl, ht.rest, ht.own, ht.kept, fun k hk hki => ⟨ht.lists k hk hki, ht.pointers k hk hki⟩, ht.spirals⟩⟩⟩,
    fun a b s hs hu hlow hhigh hkinds hslots hqueue => ⟨fun hbad => ?_, fun kind hlisted => ?_⟩⟩
  · refine (⟨rfl, rfl, (by show a - 1 < 8; omega)⟩ : OneRecord 11 (a - 1) [b]).code_refused hs hu ?_
    show (kindOf (num b)).isSome = false
    rw [kindOf_unlisted (n := num b) hbad]
    rfl
  · have hkind := kindOf_listed hlisted
    dsimp only
    rw [← kindTaken_iff]
    exact ⟨slotRecord_taken hlow hkind hhigh hs hu, fun hfree hsame =>
        slotRecord_loads hlow hkind hhigh hs hu (Bool.eq_false_iff.2 hfree) fun v hv => slotRecord_same hs hsame hv,
      fun hfree hne => slotRecord_loads hlow hkind hhigh hs hu (Bool.eq_false_iff.2 hfree) fun v hv =>
        slotRecord_changed hs hne hv hlow hhigh hkinds hslots hqueue⟩

end Sys2Proof.Machine
end
